-- ==== Sys2Proof/Word.lean ====
section
/-! DEFINITION. The word types of the Hexnar-64 and the names of its parts (spec 00, "Names"; R6, R7). -/

namespace Sys2Proof

/-- A 32-bit data cell, register or address as it is computed (R25). -/
abbrev Word := BitVec 32
/-- One byte (R7). -/
abbrev Byte := BitVec 8
/-- A 32-byte line of flash, fabric or the pinned window; bits [8k+7:8k] are its byte k (R7, R291). -/
abbrev Line := BitVec 256
/-- C0 to C15. -/
abbrev CoreId := Fin 16
/-- The nine contexts of a core: 0 to 7 are T0 to T7 and 8 is F (R30, R99). -/
abbrev CtxId := Fin 9
/-- TB0 to TB7 (R195). -/
abbrev TbId := Fin 8
/-- P0 to P3 (R352). -/
abbrev PortId := Fin 4
/-- An event source number (R325). -/
abbrev SrcId := Fin 512

end Sys2Proof
end

