-- ==== Sys2Proof/Machine/Bits.lean ====
section
/-! DEFINITION. Bit fields, byte order, check codes and the sparse lists that the machine's larger stores are kept in. -/

namespace Sys2Proof.Machine

open Sys2Proof

/-! ## Fields -/

/-- A flag as bit `k` of a register word. -/
def flag (b : Bool) (k : Nat) : Word := if b then (1#32) <<< k else 0

/-- A field placed at bit `k` of a register word. -/
def fld {n : Nat} (v : BitVec n) (k : Nat) : Word := (v.setWidth 32) <<< k

/-- Bits [k + n - 1 : k] of a word. -/
def bits {m : Nat} (v : BitVec m) (k n : Nat) : BitVec n := (v >>> k).setWidth n

/-- A flag as a cell: 0 or 0xFFFF_FFFF (R17). -/
def cellOf (b : Bool) : Word := if b then 0xFFFFFFFF else 0

/-- `old` with the bits of `mask` taken from `new`. -/
def mixBits {n : Nat} (old new mask : BitVec n) : BitVec n := (old &&& ~~~mask) ||| (new &&& mask)

/-- An increment that holds at the maximum. -/
def satInc {n : Nat} (v : BitVec n) : BitVec n := if v = BitVec.allOnes n then v else v + 1

/-- `satInc` applied `k` times. -/
def satAdd {n : Nat} (v : BitVec n) (k : Nat) : BitVec n :=
  if v.toNat + k < 2 ^ n then BitVec.ofNat n (v.toNat + k) else BitVec.allOnes n

/-- Even parity of a bit vector: 1 when the number of 1 bits is odd. -/
def parity {n : Nat} (v : BitVec n) : Bool := (List.range n).foldl (fun p i => p ^^ v.getLsbD i) false

/-! ## Bytes in memory order (R7) -/

/-- The `n` bytes of a value, lowest first. -/
def toBytes {m : Nat} (n : Nat) (v : BitVec m) : List Byte := (List.range n).map fun i => bits v (8 * i) 8

/-- The value of bytes, lowest first. -/
def ofBytes (n : Nat) : List Byte → BitVec n
  | [] => 0
  | b :: bs => b.setWidth n ||| (ofBytes n bs <<< 8)

/-- Byte `k` of a line. -/
def lineByte (l : Line) (k : Nat) : Byte := bits l (8 * k) 8

/-- A line with byte `k` replaced. -/
def lineSet (l : Line) (k : Nat) (b : Byte) : Line :=
  (l &&& ~~~((0xFF#256) <<< (8 * k))) ||| (b.setWidth 256 <<< (8 * k))

/-- `n` bytes of a line from byte `k`, as a cell, zero-extended. -/
def lineWord (l : Line) (k n : Nat) : Word := ofBytes 32 ((List.range n).map fun i => lineByte l (k + i))

/-! ## Sparse lists: keys strictly rising -/

/-- The value at a key. -/
def alGet {α : Type} : List (Nat × α) → Nat → Option α
  | [], _ => none
  | (k, v) :: l, a => if k = a then some v else alGet l a

/-- The list with a key's value set. -/
def alSet {α : Type} : List (Nat × α) → Nat → α → List (Nat × α)
  | [], a, v => [(a, v)]
  | (k, w) :: l, a, v =>
    if a < k then (a, v) :: (k, w) :: l else if k = a then (a, v) :: l else (k, w) :: alSet l a v

/-- The list without a key. -/
def alErase {α : Type} (l : List (Nat × α)) (a : Nat) : List (Nat × α) := l.filter fun p => p.1 != a

/-- A set of numbers kept as a list without repeats. -/
def addNat (l : List Nat) (a : Nat) : List Nat := if l.contains a then l else a :: l

/-! ## The check code of R159 -/

/-- p(j): the positive integers that are not a power of two, ascending. -/
def eccPositions (n : Nat) : List Nat := (((List.range 200).drop 3).filter fun p => p &&& (p - 1) != 0).take n

/-- ECC[k]: the XOR of the data bits whose position has bit k set. -/
def eccBit (n : Nat) (v : Nat) (k : Nat) : Bool :=
  ((List.range n).zip (eccPositions n)).foldl (fun x jp => x ^^ (jp.2.testBit k && v.testBit jp.1)) false

/-- The check bits of `n` data bits with `r` position checks below the overall check (R159, R202, R264). -/
def eccOf (n r : Nat) (v : Nat) : Nat :=
  let cs := (List.range r).map fun k => eccBit n v k
  let low := ((List.range r).zip cs).foldl (fun s kc => if kc.2 then s + 2 ^ kc.1 else s) 0
  let all := ((List.range n).foldl (fun x j => x ^^ v.testBit j) false) ^^ (cs.foldl (fun x c => x ^^ c) false)
  low + if all then 2 ^ r else 0

/-! ## Cyclic checks -/

/-- One step of the reflected CRC-32 of IEEE 802.3. -/
def crc32Bit (c : BitVec 32) : BitVec 32 :=
  if c.getLsbD 0 then (c >>> 1) ^^^ 0xEDB88320#32 else c >>> 1

def crc32Byte (c : BitVec 32) (b : Byte) : BitVec 32 :=
  (List.range 8).foldl (fun x _ => crc32Bit x) (c ^^^ b.setWidth 32)

/-- CRC-32 of IEEE 802.3 over bytes (R161, R188, R410). -/
def crc32 (l : List Byte) : BitVec 32 := ~~~(l.foldl crc32Byte 0xFFFFFFFF#32)

def crc16Bit (c : BitVec 16) : BitVec 16 :=
  if c.getLsbD 15 then (c <<< 1) ^^^ 0x1021#16 else c <<< 1

/-- CRC-16 of R361: polynomial 0x1021, initial value 0xFFFF. -/
def crc16 (l : List Byte) : BitVec 16 :=
  l.foldl (fun (c : BitVec 16) (b : Byte) =>
    (List.range 8).foldl (fun x _ => crc16Bit x) (c ^^^ ((b.setWidth 16 : BitVec 16) <<< 8))) 0xFFFF#16

end Sys2Proof.Machine
end

