-- ==== Sys2Proof/Machine/Flags.lean ====
section
/-! DEFINITION. The arithmetic of the bytecodes and of the ALU, and every flag computation (R94, R95, R165, R166). -/

namespace Sys2Proof.Machine

open Sys2Proof

/-! ## Single operations -/

/-- Magnitude; 0x8000_0000 keeps its pattern (R94). -/
def absW (a : Word) : Word := if a.msb then -a else a

def minS (a b : Word) : Word := if a.slt b then a else b
def maxS (a b : Word) : Word := if a.slt b then b else a
def minU (a b : Word) : Word := if a.ult b then a else b
def maxU (a b : Word) : Word := if a.ult b then b else a

/-- Each byte pair combined, the results in place. -/
def bytewise (f : Byte → Byte → Byte) (a b : Word) : Word :=
  ofBytes 32 ((List.range 4).map fun i => f (bits a (8 * i) 8) (bits b (8 * i) 8))

def addSat8 (a b : Byte) : Byte := if a.toNat + b.toNat < 256 then a + b else 0xFF
def subSat8 (a b : Byte) : Byte := if a.toNat < b.toNat then 0 else a - b

/-- Byte u[1:0] of x (EXTB). -/
def extB (x u : Word) : Word := (x >>> (8 * (u.toNat % 4))) &&& 0xFF

/-- Leading zero bits, 0 to 32 (CLZ). -/
def clzW (x : Word) : Word := BitVec.ofNat 32 (32 - (if x = 0 then 0 else Nat.log2 x.toNat + 1))

def sext8 (x : Word) : Word := (bits x 0 8 : BitVec 8).signExtend 32
def sext16 (x : Word) : Word := (bits x 0 16 : BitVec 16).signExtend 32

/-! ## Shifts and rotates by the low five bits (R74, R94) -/

inductive Shift where
  | shl | shr | sar | rol | ror
  deriving DecidableEq, Repr

def Shift.run (k : Shift) (x u : Word) : Word :=
  let n := u.toNat % 32
  match k with
  | .shl => x <<< n
  | .shr => x >>> n
  | .sar => x.sshiftRight n
  | .rol => x.rotateLeft n
  | .ror => x.rotateRight n

/-! ## Long arithmetic (R95) -/

/-- Quotient toward zero; the most negative number by -1 keeps its pattern. -/
def divS (a b : Word) : Word := BitVec.ofInt 32 (a.toInt.tdiv b.toInt)

/-- Remainder with the sign of the dividend. -/
def modS (a b : Word) : Word := BitVec.ofInt 32 (a.toInt.tmod b.toInt)

def divUW (a b : Word) : Word := BitVec.ofNat 32 (a.toNat / b.toNat)
def modUW (a b : Word) : Word := BitVec.ofNat 32 (a.toNat % b.toNat)

/-- Floor of the square root. -/
def sqrtW (a : Word) : Word :=
  BitVec.ofNat 32 ((List.range 16).foldl
    (fun r i => if (r + 2 ^ (15 - i)) * (r + 2 ^ (15 - i)) ≤ a.toNat then r + 2 ^ (15 - i) else r) 0)

/-- Low and high cell of a 64-bit product. -/
def mulWide (signed : Bool) (a b : Word) : Word × Word :=
  let p : BitVec 64 := if signed then a.signExtend 64 * b.signExtend 64 else a.setWidth 64 * b.setWidth 64
  (bits p 0 32, bits p 32 32)

/-! ## The ALU of a microword (R165, R166) -/

/-- A result with its carry and overflow; operations that compute neither clear both. -/
structure AluOut where
  r : Word
  c : Bool := false
  v : Bool := false
  deriving DecidableEq, Repr

def aluAdd (a b : Word) (cin : Bool) : AluOut :=
  let n := a.toNat + b.toNat + cin.toNat
  let r := BitVec.ofNat 32 n
  { r := r, c := decide (2 ^ 32 ≤ n), v := decide (r.toInt ≠ a.toInt + b.toInt + (cin.toNat : Int)) }

def aluSub (a b : Word) (bin : Bool) : AluOut :=
  let r := a - b - BitVec.ofNat 32 bin.toNat
  { r := r, c := decide (a.toNat < b.toNat + bin.toNat), v := decide (r.toInt ≠ a.toInt - b.toInt - (bin.toNat : Int)) }

/-- The ALU by ALUOP; the reserved codes never run (R163, R184). -/
def alu (op : Nat) (a b : Word) (c f0 : Bool) : AluOut :=
  match op with
  | 0x00 => { r := a }
  | 0x01 => { r := b }
  | 0x02 => aluAdd a b false
  | 0x03 => aluAdd a b c
  | 0x04 => aluSub a b false
  | 0x05 => aluSub a b c
  | 0x06 => { r := a &&& b }
  | 0x07 => { r := a ||| b }
  | 0x08 => { r := a ^^^ b }
  | 0x09 => { r := a &&& ~~~b }
  | 0x0A => { r := ~~~a }
  | 0x0B => aluSub 0 a false
  | 0x0C => { r := absW a }
  | 0x0D => { r := minS a b }
  | 0x0E => { r := maxS a b }
  | 0x0F => { r := minU a b }
  | 0x10 => { r := maxU a b }
  | 0x11 => { r := bytewise addSat8 a b }
  | 0x12 => { r := bytewise subSat8 a b }
  | 0x13 => { r := cellOf (a == b) }
  | 0x14 => { r := cellOf (a.slt b) }
  | 0x15 => { r := cellOf (a.ult b) }
  | 0x16 => { r := clzW a }
  | 0x17 => { r := extB a b }
  | 0x18 => aluAdd a 1 false
  | 0x19 => aluSub a 1 false
  | 0x1A => { r := sext8 a }
  | 0x1B => { r := sext16 a }
  | 0x1C => { r := a &&& 0xFF }
  | 0x1D => { r := a &&& 0xFFFF }
  | 0x1E => { r := if f0 then a else b }
  | _ => { r := a }

/-- The shifter behind the ALU by its operation code (R165). -/
def shifter (op : Nat) (x n : Word) : Word :=
  match op with
  | 1 => Shift.shl.run x n
  | 2 => Shift.shr.run x n
  | 3 => Shift.sar.run x n
  | 4 => Shift.rol.run x n
  | 5 => Shift.ror.run x n
  | _ => x

end Sys2Proof.Machine
end

