-- ==== Sys2Proof/Machine/Hmac.lean ====
section
/-! DEFINITION. HMAC-SHA-256 of FIPS 198-1 and FIPS 180-4, which R461 names for the debug unlock. The constants are computed from what
FIPS 180-4 says they are, the first 32 bits of fractional parts of roots of primes. -/

namespace Sys2Proof.Machine

open Sys2Proof

/-! ## The constants -/

/-- The primes below `n`. -/
def primesBelow (n : Nat) : List Nat :=
  (List.range n).filter fun p => decide (2 ≤ p) && (List.range p).all fun d => decide (d ≤ 1) || p % d != 0

/-- The largest number below 2 ^ `bits` whose `power`-th power is at most `n`, bit by bit from the top. -/
def rootBelow (power n : Nat) : Nat → Nat
  | 0 => 0
  | bits + 1 => (List.range (bits + 1)).reverse.foldl (fun r i => if (r + 2 ^ i) ^ power ≤ n then r + 2 ^ i else r) 0

/-- 32 bits of the fractional part of the `power`-th root of `p`. -/
def rootFraction (power p : Nat) : Word := BitVec.ofNat 32 (rootBelow power (p * 2 ^ (32 * power)) 40)

/-- One constant for each round: cube roots of the first 64 primes. -/
def roundConstants : List Word := (primesBelow 312).map (rootFraction 3)

/-- The starting value of word `i` of the digest: square roots of the first 8 primes. -/
def startWord (i : Nat) : Word := ((primesBelow 20).map (rootFraction 2)).getD i 0

/-! ## The digest -/

/-- The last four values, newest first, of each of the two registers that a round moves on. -/
structure Sha where
  left  : Vector Word 4
  right : Vector Word 4
  deriving DecidableEq, Repr

def shaStart : Sha := ⟨Vector.ofFn fun i => startWord i.val, Vector.ofFn fun i => startWord (4 + i.val)⟩

/-- Rotations of a word, combined. -/
def spun (w : Word) (by_ : List Nat) : Word := by_.foldl (fun x n => x ^^^ w.rotateRight n) 0

/-- Two rotations and a shift of a word, combined. -/
def mixed (w : Word) (r₁ r₂ shift : Nat) : Word := spun w [r₁, r₂] ^^^ (w >>> shift)

/-- A round that takes in `kw`, a constant and a word of the message. -/
def Sha.round (s : Sha) (kw : Word) : Sha :=
  let l := s.left
  let r := s.right
  let chosen := (r[0] &&& r[1]) ||| (r[2] &&& ~~~r[0])
  let most := (l[0] &&& (l[1] ||| l[2])) ||| (l[1] &&& l[2])
  let t := kw + chosen + spun r[0] [6, 11, 25] + r[3]
  { left := #v[t + most + spun l[0] [2, 13, 22], l[0], l[1], l[2]], right := #v[t + l[3], r[0], r[1], r[2]] }

/-- A round beside the sixteen words of the message schedule that come next: the first is taken in, and one more joins them. -/
def Sha.advance (p : Sha × List Word) (k : Word) : Sha × List Word :=
  match p.2 with
  | [] => p
  | w :: ws => (p.1.round (k + w), ws ++ [w + mixed (ws.getD 0 0) 7 18 3 + ws.getD 8 0 + mixed (ws.getD 13 0) 17 19 10])

/-- A block of sixteen words. -/
def Sha.block (s : Sha) (ws : List Word) : Sha :=
  let t := (roundConstants.foldl Sha.advance (s, ws)).1
  ⟨Vector.zipWith (· + ·) s.left t.left, Vector.zipWith (· + ·) s.right t.right⟩

/-- Word `i` of a message, most significant byte first. -/
def wordOf (m : List Byte) (i : Nat) : Word := ofBytes 32 ((m.drop (4 * i)).take 4).reverse

/-- A message with a one bit, zeros and its length in bits behind it: whole blocks of 64 bytes. -/
def padded (m : List Byte) : List Byte :=
  m ++ 0x80 :: List.replicate ((119 - m.length % 64) % 64) 0 ++ (toBytes 8 (BitVec.ofNat 64 (8 * m.length))).reverse

/-- SHA-256, as 32 bytes. -/
def sha256 (m : List Byte) : List Byte :=
  let all := padded m
  let s := (List.range (all.length / 64)).foldl (fun s b => s.block ((List.range 16).map fun i => wordOf all (16 * b + i))) shaStart
  [s.left[0], s.left[1], s.left[2], s.left[3], s.right[0], s.right[1], s.right[2], s.right[3]].flatMap fun w => (toBytes 4 w).reverse

/-- HMAC-SHA-256 with a key of at most 64 bytes. -/
def hmac256 (key m : List Byte) : List Byte :=
  let padKey (x : Byte) : List Byte := (List.range 64).map fun i => key.getD i 0 ^^^ x
  sha256 (padKey 0x5C ++ sha256 (padKey 0x36 ++ m))

end Sys2Proof.Machine
end

