-- ==== Sys2Proof/Config.lean ====
section
/-! DEFINITION. What an implementation fixes and the spec does not print, and the free values: constants without a body,
of which no proof can know more than their type. -/

namespace Sys2Proof.Config

open Sys2Proof

/-- Free values: the `n`-th value the spec leaves open in a run, of the width asked for. A step that needs one reads the
counter `freeCtr` of State and advances it. -/
opaque freeWord : Nat → Word
opaque freeNat : Nat → Nat
opaque freeBool : Nat → Bool

/-- The control-store ROM word at a micro-address 0x000 to 0xBFF, bits [143:0]; fixed for REVISION 0x0001_0000 and not
printed by the spec (R157, R158). -/
opaque romWord : BitVec 12 → BitVec 144

/-- The dispatch table: index 0x000 to 0x0FD primary, 0x100 to 0x1FF the page byte after 0xFE (R157, R189). -/
opaque dispatchWord : BitVec 12 → BitVec 12

/-- Whether a run of the ROM routine with this start goes by a micro-address that it can reach. -/
opaque romUses : BitVec 12 → BitVec 12 → Bool

/-- Start addresses, within their parts of the ROM, of the spill and fill routines and of the entry routines (R157). -/
opaque spillStart : Nat → BitVec 12
opaque entryStart : Bool → BitVec 12

/-- The vertical store of the Ferpor-16 sequencer, 2,048 words of 24 bits, and the start address of each opcode
(R192); the spec prints neither. -/
opaque verticalWord : BitVec 11 → BitVec 24
opaque verticalStart : Byte → BitVec 11
/-- Whether a Ferpor-16 opcode addresses the timer, serial or raster-interrupt registers (R193). -/
opaque f16OwnRegs : Byte → Bool
/-- The stack action and the function that a vertical word's VA and VB fields name (R192 gives the fields, not their codes):
the horizontal microword into which a vertical word expands. -/
opaque verticalExpand : BitVec 24 → BitVec 144

/-- SERIAL of the die, set at test (R20). -/
opaque serial : Word
/-- Whether a Vesper tick falls in the `n`-th Vesper fast tick: the spec gives the two clocks no phase (R417, R420). -/
opaque slowTick : Nat → Bool
/-- What a byte of a bank that a STOP of a destroying run left undefined reads as: by generation of the STOP and address (R288). -/
opaque freeByte : Nat → Nat → Byte
/-- How the check of a word so left turns out: 0 good, 1 corrected, 2 uncorrectable. -/
opaque freeCheck : Nat → Nat → Fin 3
/-- At which of its trap points the ROM routine with this start stands after `n` of its steps. -/
opaque romPoint : BitVec 12 → Nat → BitVec 12
/-- The value a micro-register of a ROM routine holds at a trap point, U14 apart (R158, R181). -/
opaque romReg : Byte → Nat → Fin 16 → Word
/-- Whether Integrator and debug keys of the parameter store are the ones set at test: the 32 bytes of each key block (R402, R461). -/
opaque keyByte : Nat → Nat → Byte

end Sys2Proof.Config
end

