-- ==== Sys2Proof/Syntax.lean ====
section
/-! DEFINITION. The commands of the Hexnar-64: one constructor of Instr for each row of spec/opcode_table.json, with
its operands. A row that a core's context takes names that core `c` and context `x`; a row that is a register write names
the agent that writes. Facts that only the environment knows (a port's data, a sample, how long a pair of instructions
took) are operands. -/

namespace Sys2Proof

/-- Who makes a register access: a context, the ring agent or the debug path (R393, R460, R475), or the fabric
slave, which is a privileged context of no core (R445). -/
inductive Agent where
  | ctx (c : CoreId) (x : CtxId)
  | ring
  | debug
  | fabric
  deriving DecidableEq, Repr

/-- A line delivered by a port, or the error that ended its fill (R299). -/
inductive LineRes where
  | data (l : Line)
  | flashErr
  | fabricErr
  deriving DecidableEq, Repr

/-- The header fields of a Knadu command that the node reads (R362), and the port it came in on.
`len` is the LEN field, which need not equal the payload's length in a malformed command. -/
structure RingHdr where
  port  : PortId
  node  : BitVec 7
  seq   : BitVec 16
  index : BitVec 16
  sub   : BitVec 8
  flags : BitVec 8
  len   : Nat
  src   : BitVec 7
  hops  : BitVec 8
  deriving DecidableEq, Repr

/-- What a received frame is (R5, R361, R369). -/
inductive FrameKind where
  | knadu
  | ethernet
  | ferpor16
  deriving DecidableEq, Repr

/-- A frame on the ring as the repeater sees it (R360 to R362, R369): `ty` is its EtherType, or at gen1 its FTYPE in the low byte, `fcsOk`
that its frame check sequence fits it, `hcrc` the header CRC that it carries, and `size` its whole length in bytes. What lies at the
header's place in a frame that is no Knadu frame is not read. -/
structure Frame where
  ty      : BitVec 16
  fcsOk   : Bool
  hcrc    : BitVec 16
  rsp     : Bool
  cmd     : BitVec 8
  hdr     : RingHdr
  status  : BitVec 8
  credit  : BitVec 8
  payload : List Byte
  size    : Nat
  deriving DecidableEq, Repr

/-- The fields of a SYNC record that the block reads or changes (R252); `corr` is in 2^-16 ns. -/
structure SyncRec where
  beam   : BitVec 8
  frame  : BitVec 16
  line   : BitVec 16
  pos16  : Word
  dotper : Word
  corr   : Int
  glast  : BitVec 16
  slast  : BitVec 16
  seq    : BitVec 16
  genmin : BitVec 8
  hops   : BitVec 8
  deriving DecidableEq, Repr

/-- How a SYNC record came in: whether its FCS and HCRC are good, and its residence time in 2^-16 ns (R253). -/
structure Receipt where
  good  : Bool
  resid : Int
  deriving DecidableEq, Repr

/-- The receive errors that RPp_ERR counts (R380). -/
inductive RxError where
  | badFcs
  | badHcrc
  | endedEarly
  | symbol
  | badFtype
  deriving DecidableEq, Repr

/-- The commands: the rows of spec/opcode_table.json, in its order. -/
inductive Instr where
  -- R92: literals and stack
  | litN (c : CoreId) (x : CtxId) (n : Fin 32)
  | litM1 (c : CoreId) (x : CtxId)
  | lit8 (c : CoreId) (x : CtxId) (b : Byte)
  | lit16 (c : CoreId) (x : CtxId) (h : BitVec 16)
  | lit32 (c : CoreId) (x : CtxId) (w : Word)
  | lit16U (c : CoreId) (x : CtxId) (h : BitVec 16)
  | dup (c : CoreId) (x : CtxId)
  | drop (c : CoreId) (x : CtxId)
  | swap (c : CoreId) (x : CtxId)
  | over (c : CoreId) (x : CtxId)
  | rot (c : CoreId) (x : CtxId)
  | nip (c : CoreId) (x : CtxId)
  | tuck (c : CoreId) (x : CtxId)
  | twoDup (c : CoreId) (x : CtxId)
  | twoDrop (c : CoreId) (x : CtxId)
  | twoSwap (c : CoreId) (x : CtxId)
  /-- PICK.(n + 2): the opcode map has PICK.2 to PICK.6 -/
  | pickN (c : CoreId) (x : CtxId) (n : Fin 5)
  | depth (c : CoreId) (x : CtxId)
  /-- POKE.(n + 1): the opcode map has POKE.1 to POKE.6 -/
  | pokeN (c : CoreId) (x : CtxId) (n : Fin 6)
  -- R93, R40, R41: return stack and frames
  | toR (c : CoreId) (x : CtxId)
  | rFrom (c : CoreId) (x : CtxId)
  | rFetch (c : CoreId) (x : CtxId)
  | rdrop (c : CoreId) (x : CtxId)
  | enter (c : CoreId) (x : CtxId)
  | leave (c : CoreId) (x : CtxId)
  -- R94: arithmetic, logic, compares
  | add (c : CoreId) (x : CtxId)
  | sub (c : CoreId) (x : CtxId)
  | neg (c : CoreId) (x : CtxId)
  | abs (c : CoreId) (x : CtxId)
  | and (c : CoreId) (x : CtxId)
  | or (c : CoreId) (x : CtxId)
  | xor (c : CoreId) (x : CtxId)
  | not (c : CoreId) (x : CtxId)
  | shl (c : CoreId) (x : CtxId)
  | shr (c : CoreId) (x : CtxId)
  | sar (c : CoreId) (x : CtxId)
  | rol (c : CoreId) (x : CtxId)
  | ror (c : CoreId) (x : CtxId)
  | inc (c : CoreId) (x : CtxId)
  | dec (c : CoreId) (x : CtxId)
  | addsb (c : CoreId) (x : CtxId)
  | subsb (c : CoreId) (x : CtxId)
  | mul (c : CoreId) (x : CtxId)
  | min (c : CoreId) (x : CtxId)
  | max (c : CoreId) (x : CtxId)
  | minu (c : CoreId) (x : CtxId)
  | maxu (c : CoreId) (x : CtxId)
  | extb (c : CoreId) (x : CtxId)
  | clz (c : CoreId) (x : CtxId)
  | eq (c : CoreId) (x : CtxId)
  | ne (c : CoreId) (x : CtxId)
  | lt (c : CoreId) (x : CtxId)
  | gt (c : CoreId) (x : CtxId)
  | ltu (c : CoreId) (x : CtxId)
  | gtu (c : CoreId) (x : CtxId)
  | zeq (c : CoreId) (x : CtxId)
  | zlt (c : CoreId) (x : CtxId)
  | sel (c : CoreId) (x : CtxId)
  | addi8 (c : CoreId) (x : CtxId) (b : Byte)
  | shli (c : CoreId) (x : CtxId) (b : Byte)
  | shri (c : CoreId) (x : CtxId) (b : Byte)
  | sari (c : CoreId) (x : CtxId) (b : Byte)
  -- R95, R88: long operations
  | div (c : CoreId) (x : CtxId)
  | mod (c : CoreId) (x : CtxId)
  | divu (c : CoreId) (x : CtxId)
  | modu (c : CoreId) (x : CtxId)
  | sqrt (c : CoreId) (x : CtxId)
  | mulw (c : CoreId) (x : CtxId)
  | mulwu (c : CoreId) (x : CtxId)
  | ldf (c : CoreId) (x : CtxId)
  /-- the `i`-th outstanding long operation of the context, oldest first -/
  | longOpRetire (c : CoreId) (x : CtxId) (i : Nat)
  | impreciseFault (c : CoreId) (x : CtxId)
  -- R96, R100: memory
  | ld (c : CoreId) (x : CtxId)
  | ldh (c : CoreId) (x : CtxId)
  | ldhs (c : CoreId) (x : CtxId)
  | ldb (c : CoreId) (x : CtxId)
  | ldbs (c : CoreId) (x : CtxId)
  | st (c : CoreId) (x : CtxId)
  | sth (c : CoreId) (x : CtxId)
  | stb (c : CoreId) (x : CtxId)
  | ldp (c : CoreId) (x : CtxId)
  | stp (c : CoreId) (x : CtxId)
  | ldo (c : CoreId) (x : CtxId) (b : Byte)
  | sto (c : CoreId) (x : CtxId) (b : Byte)
  | ldl8 (c : CoreId) (x : CtxId) (b : Byte)
  | stl8 (c : CoreId) (x : CtxId) (b : Byte)
  | ldl16 (c : CoreId) (x : CtxId) (h : BitVec 16)
  | stl16 (c : CoreId) (x : CtxId) (h : BitVec 16)
  | ldgN (c : CoreId) (x : CtxId) (n : Fin 16)
  | stgN (c : CoreId) (x : CtxId) (n : Fin 16)
  | claim (c : CoreId) (x : CtxId)
  /-- `elapsed`: core cycles from the issue of the context's CLAIM to this issue (R103, item 5) -/
  | commit (c : CoreId) (x : CtxId) (elapsed : Nat)
  | fence (c : CoreId) (x : CtxId)
  | drain (c : CoreId) (x : CtxId)
  -- R111, R479: pins and stimulus
  | pinr (c : CoreId) (x : CtxId)
  | pinw (c : CoreId) (x : CtxId)
  | pinrw (c : CoreId) (x : CtxId)
  | pinwm (c : CoreId) (x : CtxId)
  | stim (c : CoreId) (x : CtxId) (b : Byte)
  -- R115: transit family and the beam
  | transit (c : CoreId) (x : CtxId)
  | twait (c : CoreId) (x : CtxId)
  | beam (c : CoreId) (x : CtxId)
  | frame (c : CoreId) (x : CtxId)
  -- R97: control transfer
  | br8 (c : CoreId) (x : CtxId) (o : Byte)
  | br16 (c : CoreId) (x : CtxId) (o : BitVec 16)
  /-- BZ8 (`wide` false, the offset is o[7:0]) and BZ16 -/
  | bz8 (c : CoreId) (x : CtxId) (wide : Bool) (o : BitVec 16)
  /-- BNZ8 (`wide` false, the offset is o[7:0]) and BNZ16 -/
  | bnz8 (c : CoreId) (x : CtxId) (wide : Bool) (o : BitVec 16)
  | bzfN (c : CoreId) (x : CtxId) (n : Fin 16)
  | call16 (c : CoreId) (x : CtxId) (o : BitVec 16)
  | call32 (c : CoreId) (x : CtxId) (w : Word)
  | callvN (c : CoreId) (x : CtxId) (n : Fin 16)
  | calli (c : CoreId) (x : CtxId)
  | jmpi (c : CoreId) (x : CtxId)
  | ret (c : CoreId) (x : CtxId)
  | rloop8 (c : CoreId) (x : CtxId) (o : Byte)
  | nop (c : CoreId) (x : CtxId)
  -- R98: system
  | sys (c : CoreId) (x : CtxId) (n : Byte)
  | rets (c : CoreId) (x : CtxId)
  | reti (c : CoreId) (x : CtxId)
  | sleep (c : CoreId) (x : CtxId)
  | yield (c : CoreId) (x : CtxId)
  | bkpt (c : CoreId) (x : CtxId)
  | vtime (c : CoreId) (x : CtxId)
  | coreid (c : CoreId) (x : CtxId)
  -- R105: block moves; `words` trap-point units (words moved) pass in this step before a trap point is used
  | move (c : CoreId) (x : CtxId) (words : Nat)
  | fill (c : CoreId) (x : CtxId) (words : Nat)
  | blit (c : CoreId) (x : CtxId) (words : Nat)
  | blitk (c : CoreId) (x : CtxId) (words : Nat)
  /-- user page byte `p` with its operand bytes, `words` microwords of it in this step (R119) -/
  | userInstruction (c : CoreId) (x : CtxId) (p : Byte) (opnd : Word) (words : Nat)
  /-- the Ferpor-16 instruction with opcode `op` and operand `opnd`, `len` bytes long (R193) -/
  | f16Instruction (c : CoreId) (x : CtxId) (op : Byte) (opnd : BitVec 16) (len : Fin 4) (words : Nat)
  | ucodeRamRewrite (c : CoreId) (a : BitVec 12)
  | waitEnd (c : CoreId) (x : CtxId)
  | quantumExpiry (c : CoreId)
  /-- the write of the `n` bytes at `a` reaches core `c` -/
  | fetchInvalidate (c : CoreId) (a : Word) (n : Nat)
  /-- the refill of the line that holds `a` -/
  | fetchRefill (c : CoreId) (x : CtxId) (a : Word)
  -- R64: thread control. `v` is the whole word written to THR_CTL; its bits [3:0] are those of the row
  | thrCtlStart (w : Agent) (c : CoreId) (x : CtxId) (v : Word)
  | thrCtlStop (w : Agent) (c : CoreId) (x : CtxId) (v : Word)
  | parkAtBoundary (c : CoreId) (x : CtxId)
  | thrCtlResume (w : Agent) (c : CoreId) (x : CtxId) (v : Word)
  | thrCtlReset (w : Agent) (c : CoreId) (x : CtxId) (v : Word)
  | thrCtlCntd (w : Agent) (c : CoreId) (x : CtxId) (v : Word)
  | cntdTakeEffect (c : CoreId) (x : CtxId)
  | thrStatPrivWrite (w : Agent) (c : CoreId) (x : CtxId) (v : Word)
  /-- SPILLP (`size` false) or SPILLSZ -/
  | spillAreaWrite (w : Agent) (c : CoreId) (x : CtxId) (size : Bool) (v : Word)
  | windatRead (c : CoreId) (x : CtxId)
  | windatWrite (c : CoreId) (x : CtxId) (v : Word)
  | pipeCtlBtbInv (w : Agent) (c : CoreId) (v : Word)
  | rcFieldRead (w : Agent) (a : Word)
  | registerWrite (w : Agent) (a : Word) (v : Word)
  -- R185 to R189: the load unit
  | ucLdctlHold (w : Agent) (cores : BitVec 16)
  | coreHeld (c : CoreId)
  | ucLdctlRelease (w : Agent)
  | ucLdctlLock (w : Agent)
  | ucCmdWrite (w : Agent)
  | ucCmdRead (w : Agent)
  -- 06: the transit engine
  /-- a transit cycle t with t mod 4 = `g` (R206) -/
  | transitAccept (g : Fin 4)
  | lateInsertMerge (t : TbId)
  /-- Bn_POS_LINE, Bn_POS_QUAD, Bn_RUN, Bn_HOLD and Bn_POS_PAR at a rising edge of Bn_QCLK (R235) -/
  | beamPositionSample (n : Fin 4) (line : BitVec 13) (quad : BitVec 12) (run hold par : Bool)
  | walkEnd (t : TbId)
  | sortEnd (t : TbId)
  /-- the inputs at an edge with Sm_SMPL at 1, and the ACLK cycles from it to the next such edge (R245, R246) -/
  | soundPositionSample (m : Fin 4) (blk : BitVec 13) (smp : BitVec 6) (run hold par : Bool) (aclks : Nat)
  | flushKey (w : Agent)
  | flushTb (w : Agent)
  | readEntry (w : Agent)
  | readQueue (w : Agent)
  | resetEph (w : Agent)
  | trnCmdDone
  | tbnCfgWrite (w : Agent) (t : TbId) (v : Word)
  | queueStateClearDone
  /-- BPn_CTL for ports 0 to 3 and SPm_CTL for ports 4 to 7 -/
  | bpnCtlWrite (w : Agent) (p : Fin 8) (v : Word)
  /-- a SYNC record from `src` on port `p`; `within`: how far each follower is into its present quad when the record arrives, in
  sixteenths of a dot (R254) -/
  | sync (p : PortId) (src : BitVec 7) (r : SyncRec) (came : Receipt) (within : Vector (BitVec 6) 4)
  | meridianMissExpiry (n : Fin 4)
  | meridianHoldoverExpiry (n : Fin 4)
  -- 11: the ring
  /-- `speed`: the generation whose speed the PHY shows with its link (R356); a gen1 port has no such status -/
  | linkUp (p : PortId) (speed : BitVec 2)
  | linkDown (p : PortId)
  /-- `turn` is t3 - t2 in 2^-16 ns as this node measures it for its answer (R251) -/
  | dlyReq (p : PortId) (num : BitVec 16) (turn : Int)
  /-- `t32` as received and `trip` = t4 - t1 as this node measured it (R251) -/
  | dlyRsp (p : PortId) (num : BitVec 16) (t32 : Int) (trip : Int)
  /-- a frame received on port `p` while `ahead` bytes of earlier frames stand in the forward buffer (R370) -/
  | frameForward (p : PortId) (f : Frame) (ahead : Nat)
  | frameError (p : PortId) (e : RxError)
  | ownFrameSend (p : PortId)
  | read (h : RingHdr) (data : List Byte)
  | write (h : RingHdr) (data : List Byte)
  | dread (h : RingHdr) (data : List Byte)
  | dwrite (h : RingHdr) (data : List Byte)
  | ping (h : RingHdr) (data : List Byte)
  | resync (h : RingHdr) (data : List Byte)
  | assign (h : RingHdr) (data : List Byte)
  | msg (h : RingHdr) (data : List Byte)
  | ringTclkLoss
  | ringTclkPresent
  | fastClockAbsent
  | nmsgSend (w : Agent) (v : Word)
  | nmsgSent
  | hmsgEmpty (w : Agent)
  | rppCtlWrite (w : Agent) (p : PortId) (v : Word)
  -- 12: the dictionary's own actions, as a command that passed the checks of R389 makes them
  | save
  | restore
  | start (mask : BitVec 16)
  | injWhen (v : Word)
  | intCode (v : BitVec 64)
  | intUnlock (v : BitVec 64)
  | intLock
  | flashCtlw (v : BitVec 64)
  | ucCtlBegin
  | ucCtlCommit
  | ucCtlAbandon
  /-- OP, sub-index, index and write data of the DACC register at Update-DR (R464) -/
  | dacc (op : BitVec 2) (sub : Byte) (index : BitVec 16) (data : Word)
  -- 13: power, clocks, start-up
  | pornAonAssert
  | pornAonRelease
  | mainOkFall
  | rstnMainFall
  | mainResetRelease
  | pllLock
  | cacheInvalidateDone (c : CoreId)
  /-- `failed`: the check met an uncorrectable error or a CRC mismatch (R161) -/
  | controlStoreCheckDone (c : CoreId) (failed : Bool)
  | mainWarnRise
  | dbgRstn
  | trstn
  | pwrReqNap (w : Agent)
  | napEntry
  | napExit
  | bankWake
  | pwrReqVesperOnly (w : Agent)
  | vesperOnlyEntry
  | pwrReqCancel (w : Agent)
  | dozeEntry (c : CoreId)
  | dozeExit (c : CoreId)
  | clkPllaWrite (w : Agent) (v : Word)
  | pllaRelock
  /-- CLK_CDIV0 (`hi` false) or CLK_CDIV1 -/
  | clkCdivWrite (w : Agent) (hi : Bool) (v : Word)
  | clkSdivWrite (w : Agent) (v : Word)
  | coreSoftReset (w : Agent) (c : CoreId)
  | vtLoWrite (w : Agent) (v : Word)
  | vtLoRead (w : Agent)
  | vesperAlarm
  -- 08: scratchpad
  | spadEccWriteback (a : Word)
  | wipeStart
  | wipeDone
  | zeroingDone
  | marchStart (w : Agent) (v : Word)
  | marchStop (w : Agent) (v : Word)
  /-- `got`: reads of the element whose cells did not answer with what was last written to them: the word's plain address, the place of
  the read among the element's operations, and the word read -/
  | marchElementEnd (got : List (Nat × Nat × Word))
  | marchSliceEnd
  | marchRunEnd
  -- 09: line cache, flash port, fabric
  | lineFillArrival (c : CoreId) (i : Fin 4)
  | lcAgeTick (c : CoreId)
  | lcPinWrite (w : Agent) (c : CoreId) (v : Word)
  | lcPinld (w : Agent) (c : CoreId) (v : Word)
  | pinldDone (c : CoreId)
  | lcCtlWrite (w : Agent) (c : CoreId) (v : Word)
  | fabWinWrite (w : Agent) (v : Word)
  | storeBufferSend (c : CoreId)
  /-- `err`: an error response under R442 -/
  | fabricWriteResponse (tag : Fin 32) (err : Bool)
  | fabricReadResponse (tag : Fin 32) (data : Line) (err : Bool)
  /-- FS_SNkADDR and whether its parity holds (R446) -/
  | snoop (a : Word) (parOk : Bool)
  | flashPortIssue
  | flashRequestGrant
  /-- a read beat: `err` is FL_RERR, `parOk` whether FL_RPAR agrees (R316) -/
  | flashReadBeat (tag : Fin 4) (data : Word) (err parOk : Bool)
  | flashWriteAck (tag : Fin 4) (err : Bool)
  | flCtlWrite (w : Agent) (v : Word)
  /-- `write`, FS_ADDR, FS_WDATA, FS_WBE, FS_ATAG and whether all request parity holds (R444) -/
  | fabricSlaveRequest (write : Bool) (a : Word) (d : Word) (be : BitVec 4) (tag : Fin 16) (parOk : Bool)
  -- 10: events
  /-- a cause of source `s` with its payload (R325, R329) -/
  | sourceRaise (s : SrcId) (payload : Word)
  | fastEntry (c : CoreId)
  | eventRecordWrite
  | normalEntry (c : CoreId)
  | holdoffExpiry (g : Fin 32)
  | timerExpiry (n : Fin 32)
  | evSwset (w : Agent) (v : Word)
  | evSrcWrite (w : Agent) (s : SrcId) (v : Word)
  | evqBaseWrite (w : Agent) (c : CoreId) (v : Word)
  | evqRdWrite (w : Agent) (c : CoreId) (v : Word)
  | evqWrRead (w : Agent) (c : CoreId)
  | fvecReload (c : CoreId) (k : Fin 8)
  -- 14: pins
  | pinInputChange (k : Fin 64) (level : Bool)
  | gpioFilterExpiry (k : Fin 64)
  | evtInChange (k : Fin 32) (level : Bool)
  | pinWriteApply
  | gpMuxWrite (w : Agent) (j : Fin 8) (v : Word)
  | gpFiltWrite (w : Agent) (k : Fin 64) (v : Word)
  /-- GP_OWNc_LO (`hi` false) or GP_OWNc_HI -/
  | gpOwnWrite (w : Agent) (c : CoreId) (hi : Bool) (v : Word)
  -- 15: debug, trace, counters, watchdogs
  | dbgUnreq (w : Agent) (v : Word)
  | dbgRespLo (w : Agent) (v : Word)
  | unlockCheckDone
  | dbgLock (w : Agent)
  | dbgCoreHalt (w : Agent) (c : CoreId)
  /-- member 0 to 15 is a core, 16 the transit engine, 17 the trace unit (R468) -/
  | haltArrival (m : Fin 18)
  | dbgCoreStep (w : Agent) (c : CoreId) (v : Word)
  | stepDone (c : CoreId)
  | xtmFire (w : Agent) (lines : BitVec 4)
  | dbgRel (w : Agent) (members : BitVec 18)
  | dbgMctlGo (w : Agent) (v : Word)
  /-- a read of DBG_VDATA, or a write of the value given -/
  | dbgVdataAccess (w : Agent) (v : Option Word)
  | tracePortPacket
  | traceBufferWrite
  | trcCtlWrite (w : Agent) (v : Word)
  | cntOverflow (n : Fin 80)
  | cntGctlClr (w : Agent) (v : Word)
  | cntnLoWrite (w : Agent) (n : Fin 80) (v : Word)
  | watchdogWarning (c : CoreId)
  | watchdogBite (c : CoreId)
  | wdtKick (w : Agent) (c : CoreId) (v : Word)
  -- 16: Nightlog, life cycle, tamper
  /-- the NVM row write in progress ends; `ok` is false where its read-back mismatched twice (R494) -/
  | nvmRowWriteEnd (ok : Bool)
  | nlCtlClear (w : Agent)
  | nlSwreq (w : Agent)
  | lcReq (w : Agent) (code : Byte)
  | tamperEvent
  | tmpForce (w : Agent)
  -- the last rows of the table
  /-- `ext`: an unassigned page byte after 0xFE, otherwise an unassigned primary opcode -/
  | unassignedOpcode (c : CoreId) (x : CtxId) (ext : Bool) (b : Byte)
  | mainWarnFall
  | fastClockPresent
  | vdbgLoss
  | vdbgReturn
  | fabricRequestAccept
  | errorWindowEnd (p : PortId)
  | traceBudgetWindow
  deriving DecidableEq, Repr

end Sys2Proof
end

