-- ==== Sys2Proof/Machine/State.lean ====
section
/-! DEFINITION. The state of the Hexnar-64: plain data, every piece of state that spec/ gives the block, with the value
each holds after reset; and the names of the model's stops. The state right after reset is the block before PORn_AON
has been released for the first time (R433, R435): every field has the value its register table gives, and a field
without one has the value that notes/assumptions/2.md names. -/

namespace Sys2Proof.Machine

open Sys2Proof

/-! ## Contexts (spec 02, 03, 04) -/

/-- THR_STAT.STATE (R31). READY and RUN are one state here: a context is in RUN when its core's `last` names it (R31, R126). -/
inductive CtxState where
  | idle | ready | wait | sleep | parked | fault | dfault | halt
  deriving DecidableEq, Repr

/-- A window tag: depth, live, dirty (R30, R67); DEPTH may hold 9 to 15 after a tag write (R509). -/
structure WinTag where
  depth : BitVec 4 := 0
  live  : Bool := false
  dirty : Bool := false
  deriving DecidableEq, Repr

/-- A return-group tag: count, live, dirty (R30, R67). -/
structure GrpTag where
  count : BitVec 4 := 0
  live  : Bool := false
  dirty : Bool := false
  deriving DecidableEq, Repr

/-- The micro-save slot (R57, R67); `valid` is THR_STAT.MSAVED. -/
structure SaveSlot where
  upc   : BitVec 12 := 0
  ucnt  : BitVec 4 := 0
  valid : Bool := false
  u     : Vector Word 16 := Vector.replicate 16 0
  deriving DecidableEq, Repr

/-- WINSEL of an accessing context (R66). -/
structure WinSel where
  entry  : BitVec 6 := 0
  area   : BitVec 2 := 0
  bank   : BitVec 4 := 0
  ainc   : Bool := false
  denied : Bool := false
  deriving DecidableEq, Repr

/-- Kinds of long operation (R88). -/
inductive LongKind where
  | div | mod | divu | modu | sqrt | mulw | mulwu | ldf
  deriving DecidableEq, Repr

/-- An outstanding long operation: its operands, the data-stack cells its result goes to (low cell first), the address of the
instruction, and whether its fault, if any, has become known (R85, R88). `tag` names the fabric read of an LDF, once sent;
`result` is what arrived for it. -/
structure LongOp where
  kind   : LongKind
  a      : Word
  b      : Word
  dest   : List (Fin 64)
  pc     : Word
  sent   : Bool := false
  result : Option (Except Byte Word) := none
  /-- a micro-register that its first result goes to as well, or alone (R167, R168, R173) -/
  ureg   : Option (Fin 16) := none
  deriving DecidableEq, Repr

/-- Why a context is in WAIT, or what the instruction it discarded waits for (R135, R137). -/
inductive WaitCause where
  /-- a data-stack entry still pending (R134) -/
  | cell (e : Fin 64)
  /-- a micro-register that a long operation of the routine still has to write (R173) -/
  | ureg (i : Fin 16)
  /-- a third long operation (R88) -/
  | longSlot
  /-- the line of this cached address is being filled for this context (R293) -/
  | line (a : Word)
  /-- no miss register is free (R293) -/
  | missReg
  /-- an uncached fabric load (R291) -/
  | fabric (a : Word)
  /-- a load of `n` bytes that a buffered store overlaps in part (R305) -/
  | storeOverlap (a : Word) (n : Nat)
  /-- the staging FIFO has no entry for the context (R23) -/
  | staging
  /-- the store buffer is full (R303) -/
  | storeBuffer
  /-- an access to a borrowed march slice (R285) -/
  | slice (a : Word)
  /-- a bank that is asleep, being wiped or being initialised (R278, R280, R281) -/
  | bank (a : Word)
  /-- FENCE and DRAIN (R90) -/
  | fence
  | drain
  /-- a pinned-window access during an LC_PIN write or copy (R300, R302) -/
  | pinBusy
  deriving DecidableEq, Repr

/-- What a registered access delivered while its context was in WAIT, for the instruction when it issues again (R137, R285, R294):
data or fault code for the line at an address, or leave to use the shadow buffer of a borrowed slice. -/
inductive Served where
  | line (a : Word) (r : Except Byte Line)
  | slice
  deriving DecidableEq, Repr

/-- An imprecise fault that has become known and is not yet taken (R85). -/
structure ImpFault where
  code  : Byte
  faddr : Word
  deriving DecidableEq, Repr

/-- Where a microcode routine stands: its next micro-address, the address WB NPC wrote last, whether a micro-trap may be taken here, and
UCNT as the last word left it after its step 6, which a save here keeps (R179). -/
structure UPos where
  upc  : BitVec 12
  npc  : Option Word := none
  trap : Bool := false
  ucnt : BitVec 4 := 0
  deriving DecidableEq, Repr

/-- A micro-routine that a context is inside of (R57, R105, R119, R193). -/
inductive Routine where
  /-- a block move: which, and the words or rows done so far; `row` and `col` for the blits -/
  | block (op : Byte) (done row col : Nat)
  /-- the spill or fill routine of the vendor instruction with these first bytes; its words done stand in `Ctx.moved` (R51) -/
  | stack (opcode page : Byte)
  /-- a user instruction or a patched instruction: its first bytes, operand, length, and where it stands -/
  | micro (opcode page : Byte) (opnd : Word) (width len : Nat) (at_ : UPos)
  /-- a Ferpor-16 instruction: opcode, operand, length, the next vertical address, where it is not in a helper, and where it stands -/
  | f16 (opcode : Byte) (opnd : BitVec 16) (len : Nat) (va : Option (BitVec 11)) (at_ : UPos)
  deriving DecidableEq, Repr

/-- A routine that a normal entry interrupted at a trap point: the routine, if it is known, the address of its instruction, and what the
micro-save slot held of it. -/
structure Held where
  routine : Option Routine
  pc      : Word
  slot    : SaveSlot
  /-- its `Ctx.moved` -/
  moved   : Option (List Word)
  deriving DecidableEq, Repr

/-- The stacks and the privilege of a context at the start of a Ferpor-16 instruction, which a precise fault inside it brings back (R83). -/
structure StackImage where
  dstk  : Vector Word 64
  rstk  : Vector Word 16
  wtag  : Vector WinTag 8
  rtag  : Vector GrpTag 2
  frame : Nat
  rtop  : Fin 2
  doff  : BitVec 20
  roff  : BitVec 20
  priv  : BitVec 2
  deriving DecidableEq, Repr

/-- A context: the storage of R30, its registers (R63, R64, R66, R191), and what the prose gives it beside them. -/
structure Ctx where
  dstk   : Vector Word 64 := Vector.replicate 64 0
  /-- the scoreboard (R134) -/
  dpend  : Vector Bool 64 := Vector.replicate 64 false
  rstk   : Vector Word 16 := Vector.replicate 16 0
  wtag   : Vector WinTag 8 := Vector.replicate 8 {}
  rtag   : Vector GrpTag 2 := Vector.replicate 2 {}
  /-- number k of the current frame; it lies in window k mod 8 (R39) -/
  frame  : Nat := 0
  /-- the return group that the next push goes to (R43) -/
  rtop   : Fin 2 := 0
  /-- in F16 mode: entries in the flat stack's older windows begin at this window (R62) -/
  fbase  : Fin 8 := 0
  st     : CtxState := .idle
  /-- the state before a debug halt (R33) -/
  preHalt : CtxState := .idle
  priv   : BitVec 2 := 0
  cntdErr : Bool := false
  maband : Bool := false
  imprec : Bool := false
  fcode  : Byte := 0
  cntd   : Bool := false
  f16    : Bool := false
  privInit : BitVec 2 := 1
  /-- a CNTD change that waits for the next instruction boundary (R154) -/
  cntdNext : Option Bool := none
  pc     : Word := 0x10000000
  faddr  : Word := 0
  prog   : BitVec 16 := 0
  progUpc : BitVec 12 := 0
  spillp : Word := 0
  spillsz : BitVec 20 := 0
  doff   : BitVec 20 := 0
  roff   : BitVec 20 := 0
  f16win : BitVec 2 := 0
  slot   : SaveSlot := {}
  winsel : WinSel := {}
  /-- the reservation: the 32-byte granule (plain address / 32) that a CLAIM watches (R101) -/
  rsv    : Option Nat := none
  /-- the wake flag (R228) -/
  wake   : Bool := false
  /-- STOP was written and the context has not reached a boundary yet (R64) -/
  stopReq : Bool := false
  /-- the instruction at THR_PC is being tried again after RESUME from DFAULT (R54, R492) -/
  redo   : Bool := false
  longs  : List LongOp := []
  impKnown : List ImpFault := []
  routine : Option Routine := none
  /-- the routine that a normal entry interrupted; it goes on when the handler returns to its instruction -/
  held   : Option Held := none
  /-- inside a spill or fill routine: the words it has written or read so far, oldest first (R51) -/
  moved  : Option (List Word) := none
  /-- which routine that is: data spill, data fill, return spill, return fill -/
  spillKind : Fin 4 := 0
  /-- how many of them the instruction, begun again, has passed -/
  seen   : Nat := 0
  /-- the stacks at the start of the Ferpor-16 instruction in progress -/
  image  : Option StackImage := none
  waitFor : Option WaitCause := none
  served : Option Served := none
  /-- lines in the fetch buffer, at most two line addresses (R130) -/
  fbuf   : List Word := []
  /-- the target of the last taken branch, while the 16 bytes that a branch-target-buffer entry holds of it serve the decoder (R132) -/
  btbAt  : Option Word := none
  /-- the line that a fetch refill has asked for ahead of its need (R130) -/
  ahead  : Option Word := none
  deriving DecidableEq, Repr

/-! ## Transit entries (spec 06) -/

/-- The fields of an Ephemeris entry (R200); its check bits follow from them (R202). -/
structure EphEntry where
  target : BitVec 20 := 0
  data   : Word := 0
  be     : BitVec 4 := 0
  grain  : BitVec 14 := 0
  tag    : BitVec 4 := 0
  mode   : BitVec 4 := 0
  link   : BitVec 17 := 0
  deriving DecidableEq, Repr

/-- An entry waiting in a staging FIFO or the ring FIFO, with its queue key and the mark of its enable period (R204). -/
structure Staged where
  tb     : TbId
  slot   : BitVec 13
  cls    : BitVec 2
  e      : EphEntry
  period : Nat
  /-- it stands in the counted lane (R205) -/
  lane   : Bool := false
  deriving DecidableEq, Repr

/-- An entry held by a buffer, sort store or carry queue: its index, class and the occurrence it targets (R213, R216, R224). -/
structure BufItem where
  idx    : Nat
  cls    : BitVec 2
  e      : EphEntry
  frame  : BitVec 16
  slot   : Nat
  deriving DecidableEq, Repr

/-! ## Cores (spec 02 to 05, 09, 10, 15) -/

/-- A branch-target-buffer entry (R132). Its 16 bytes are a copy of memory from the target on, as a line of the fetch buffer is; the
commands name their instructions, so the copy is known by its address, and what the entry gives is that the decoder needs no line. -/
structure BtbEntry where
  branch : Word
  target : Word
  deriving DecidableEq, Repr

/-- A line-cache entry (R291). `ok` is its parity. -/
structure LcEntry where
  valid : Bool := false
  line  : BitVec 27 := 0
  age   : BitVec 2 := 0
  data  : Line := 0
  /-- bit i: the parity of word i does not fit it (R291, R292) -/
  badPar : BitVec 8 := 0
  deriving DecidableEq, Repr

/-- A miss register (R293, R309): the contexts whose loads joined it, in order; `got` is what its fill delivered. -/
structure Miss where
  line     : BitVec 27
  users    : List CtxId := []
  prefetch : Bool := false
  joined   : Bool := false
  snooped  : Bool := false
  /-- a debug load through the halted core has joined (R291, R293, R473) -/
  debug    : Bool := false
  got      : Option LineRes := none
  deriving DecidableEq, Repr

/-- A store-buffer entry (R303, R304): its fabric word address, the address the store used, the bytes it writes and the issuing
context; whether it has been sent to the fabric master port. `id` tells the entries of a core apart. -/
structure SbEntry where
  id    : Nat
  addr  : Word
  from_ : Word
  data  : Word
  be    : BitVec 4
  ctx   : CtxId
  sent  : Bool := false
  /-- a debug store through the halted core (R473) -/
  debug : Bool := false
  deriving DecidableEq, Repr

/-- A copy that LC_PINLD has started (R302). -/
structure PinLd where
  slot : Fin 32
  line : BitVec 27
  got  : Option LineRes := none
  deriving DecidableEq, Repr

/-- A core. -/
structure Core where
  ctx      : Vector Ctx 9 := Vector.replicate 9 {}
  sysBase  : Word := 0x10000100
  secBase  : Word := 0x10000200
  btbEn    : Bool := true
  switchEn : Bool := true
  quantum  : BitVec 4 := 3
  stolen   : Word := 0
  /-- the thread in the shared decode register (R124) -/
  holder   : Option (Fin 8) := none
  /-- issues in a row while another non-counted thread was READY, and the QUANTUM loaded with the register (R124, R156) -/
  qcount   : Nat := 0
  qload    : BitVec 4 := 3
  /-- where the round-robin search starts (R124, R512) -/
  search   : Fin 8 := 0
  /-- the context that issued last, which is in RUN -/
  last     : Option CtxId := none
  btb      : List BtbEntry := []
  /-- requests waiting for the divider or in it, oldest first, by context (R89) -/
  divq     : List CtxId := []
  staging  : List Staged := []
  -- microcode (spec 05)
  u        : Vector Word 16 := Vector.replicate 16 0
  ucnt     : BitVec 4 := 0
  /-- a vendor routine has run since the micro-registers were last known: what they hold is open (R178) -/
  uFree    : Bool := false
  flagZ    : Bool := false
  flagN    : Bool := false
  flagC    : Bool := false
  flagV    : Bool := false
  flagF0   : Bool := false
  mdr      : Word := 0
  mullo    : Word := 0
  xin      : Word := 0
  opnd     : Word := 0
  /-- what VTLO latched (R169) -/
  vtLatch  : BitVec 48 := 0
  /-- the RAM words that are not zero, by micro-address, ascending -/
  ram      : List (Nat × BitVec 144) := []
  /-- user vector entries that are not zero, by index, ascending -/
  uvec     : List (Nat × BitVec 16) := []
  patch    : Vector Word 64 := Vector.replicate 64 0
  /-- micro-addresses whose stored word has a single-bit or an uncorrectable error (R160) -/
  csCorr   : List Nat := []
  csBad    : List Nat := []
  /-- the same of the vertical store (R192) -/
  vsCorr   : List Nat := []
  vsBad    : List Nat := []
  cErrAddr : BitVec 12 := 0
  cUncorr  : Bool := false
  chkFail  : Bool := false
  chkDone  : Bool := false
  ccnt     : BitVec 16 := 0
  /-- held by the load unit, what it received during the hold (R185, R186) -/
  held     : Bool := false
  wroteAny : Bool := false
  wrotePatch : Bool := false
  -- line cache and store buffer (spec 09)
  lc       : Vector LcEntry 48 := Vector.replicate 48 {}
  victims  : List LcEntry := []
  miss     : Vector (Option Miss) 4 := Vector.replicate 4 none
  lookups  : Byte := 0
  /-- a 256th lookup whose aging has not run yet (R295) -/
  ageDue   : Bool := false
  prevFill : Option (BitVec 27) := none
  pinData  : Vector Line 32 := Vector.replicate 32 0
  sb       : List SbEntry := []
  sbNext   : Nat := 0
  lcEn     : Bool := true
  pfEn     : Bool := true
  strmEn   : Bool := true
  vcEn     : Bool := true
  invBusy  : Bool := true
  pinBusy  : Bool := false
  pinErr   : Bool := false
  fillErr  : Bool := false
  parErr   : Bool := false
  lcPin    : BitVec 32 := 0
  lcFaddr  : BitVec 27 := 0
  pinld    : Option PinLd := none
  -- events (spec 10)
  nmask    : Bool := true
  fmask    : Bool := true
  hthr     : Fin 8 := 0
  hpriv    : BitVec 2 := 1
  tsel     : BitVec 4 := 8
  active   : Bool := false
  rdErr    : Bool := false
  evOvf    : Bool := false
  evSpur   : Bool := false
  evDrop   : Bool := false
  htErr    : Bool := false
  qsize    : BitVec 4 := 0
  evqOffs  : BitVec 14 := 0
  evqVec   : Word := 0x10000300
  evqWr    : BitVec 13 := 0
  evqRd    : BitVec 13 := 0
  evSeq    : BitVec 16 := 0
  evWake   : BitVec 8 := 0
  dropCnt  : Word := 0
  spurCnt  : Word := 0
  fvecOffs : BitVec 10 := 0
  fvecOk   : Vector Bool 8 := Vector.replicate 8 false
  -- power and debug of the core (spec 13, 15)
  dozed    : Bool := false
  /-- a cause of R426 has come while the core was in DOZE -/
  dozeWake : Bool := false
  /-- a software reset that waits for the store buffer (R310, R434) -/
  rstWait  : Bool := false
  halted   : Bool := false
  stepCtx  : BitVec 4 := 0
  rhalt    : Bool := false
  stepping : Bool := false
  /-- the instruction of the step has ended (R470) -/
  stepRan  : Bool := false
  stepDone : Bool := false
  stepErr  : Bool := false
  hcause   : BitVec 2 := 0
  bkptEn   : Bool := false
  /-- halt requested and not yet arrived, with its cause (R467) -/
  haltReq  : Option (BitVec 2) := none
  deriving DecidableEq, Repr

/-! ## Transit engine (spec 06) -/

/-- A queue: its entries' indices from HEAD to TAIL, and its flags (R199). `par` is false after a parity error (R230). -/
structure Queue where
  items    : List Nat := []
  standing : Bool := false
  edit     : Bool := false
  ovf      : Bool := false
  walk     : Bool := false
  parOk    : Bool := true
  deriving DecidableEq, Repr

/-- A walk in progress: its occurrence, whether it is a late walk (R511), and the queue contents it reads (R211, R212):
key and items as they stood at its start. -/
structure Walk where
  frame : BitVec 16
  slot  : Nat
  late  : Bool
  reads : List (Nat × List Nat)
  deriving DecidableEq, Repr

/-- A pause of a timebase: position and frame counter at its start (R229). -/
structure Pause where
  frame : BitVec 16
  slot  : Nat
  grain : Nat
  deriving DecidableEq, Repr

/-- A class 3 entry on its way to the occurrence and the unit (quad or sample) in which it acts (R217, R227). -/
structure Armed where
  item  : BufItem
  frame : BitVec 16
  slot  : Nat
  unit  : Nat
  deriving DecidableEq, Repr

/-- A timebase (R195, R232). -/
structure Tb where
  en     : Bool := false
  glast  : BitVec 14 := 0x3FFF
  slast  : BitVec 13 := 0x1FFF
  run    : Bool := false
  slot   : Nat := 0
  grain  : Nat := 0
  frame  : BitVec 16 := 0
  geomErr : Bool := false
  alias_ : Bool := false
  /-- the enable period in progress or the last one (R204) -/
  period : Nat := 0
  /-- R511: enabled and not yet running -/
  starting : Bool := false
  live   : List BufItem := []
  store  : List BufItem := []
  carry  : List BufItem := []
  /-- the occurrence that the live buffer, and the sort store, hold -/
  liveOf : Option (BitVec 16 × Nat) := none
  storeOf : Option (BitVec 16 × Nat) := none
  /-- entry counts of R216 -/
  liveCnt : Nat := 0
  storeCnt : Nat := 0
  /-- late inserts placed and not yet merged (R216) -/
  merging : List BufItem := []
  walk   : Option Walk := none
  sorting : Bool := false
  cleanup : Bool := false
  /-- the swap of the store waits and has been counted by SLATE (R215, R511) -/
  swapDue : Bool := false
  /-- occurrences of the current and the next frame whose walk has started or that a cleanup walk has taken (R197, R211, R212) -/
  ran    : List (BitVec 16 × Nat) := []
  /-- class 3 entries that the event lane has presented and whose quad or sample has not begun (R227) -/
  armed  : List Armed := []
  /-- a FLUSH_TB has ended in the current slot: nothing is presented and no walk starts until the next slot (R233) -/
  holdWalk : Bool := false
  pause  : Option Pause := none
  /-- a FLUSH_TB is running (R233) -/
  flushing : Bool := false
  drop   : Word := 0
  now    : Word := 0
  hold   : Word := 0
  lost   : Word := 0
  latein : Word := 0
  ovf    : Word := 0
  slate  : Word := 0
  deriving DecidableEq, Repr

/-- TRN_CMD operations (R233). -/
inductive TrnOp where
  | flushKey | flushTb | readEntry | readQueue | resetEph
  deriving DecidableEq, Repr

structure Transit where
  tb      : Vector Tb 8 := Vector.ofFn fun i => if i.val < 4 then {} else { glast := 0x3F }
  /-- Ephemeris contents: entries written since the main supply came up, by index, ascending -/
  eph     : List (Nat × EphEntry) := []
  /-- the lowest untouched index, and the free list, last freed first (R202) -/
  ephNext : Nat := 0
  ephFree : List Nat := []
  /-- entries with a single-bit and with an uncorrectable error (R230) -/
  ephCorr : List Nat := []
  ephBad  : List Nat := []
  /-- queues that differ from an empty one, by key, ascending -/
  queues  : List (Nat × Queue) := []
  rsvent  : BitVec 9 := 0x40
  ringEn  : Bool := false
  ready   : Bool := false
  /-- operations in progress with their arguments: a TRN_CMD, and the flushes that EN writes started (R233) -/
  cmds    : List (TrnOp × Nat) := []
  cmdErr  : Bool := false
  halted  : Bool := false
  ephErr  : Bool := false
  arg     : BitVec 18 := 0
  dat     : Vector Word 4 := Vector.replicate 4 0
  widle   : Word := 0
  ecnt    : BitVec 16 := 0
  stale   : Word := 0
  /-- round-robin pointer of each group: the core within it (R206) -/
  rr      : Vector (Fin 4) 4 := Vector.replicate 4 0
  ringFifo : List Staged := []
  deriving DecidableEq, Repr

/-! ## Beam ports, sound ports and Meridian sync (spec 07) -/

/-- A commit on a beam port (R235, R241) or on a sound port (R247). -/
structure Commit where
  addr : BitVec 20
  data : Word
  be   : BitVec 4
  ofs  : BitVec 2 := 0
  lead : BitVec 2 := 0
  cls  : BitVec 2
  deriving DecidableEq, Repr

/-- Ports 0 to 3 are B0 to B3, 4 to 7 are S0 to S3 (R261). -/
structure Port where
  pen    : Bool := false
  parchk : Bool := true
  runIn  : Bool := false
  holdIn : Bool := false
  /-- the port was held at the last sample (R239) -/
  held   : Bool := false
  jump   : Bool := false
  parErr : Bool := false
  shortp : Bool := false
  poserr : Word := 0
  jumps  : Word := 0
  /-- the last position taken, from which the next one is predicted (R237); none where no prediction exists -/
  last   : Option (Nat × Nat) := none
  /-- a sample with good parity has been accepted since PEN was set (R238) -/
  seen   : Bool := false
  /-- commits presented in the present quad cycle or sample period -/
  out    : List Commit := []
  /-- Bn_TRIM (R244) -/
  trim   : BitVec 2 := 0
  /-- a restart was driven and this many edges remain until line 0, quad 0 is expected (R244) -/
  restart : Option Nat := none
  deriving DecidableEq, Repr

inductive MsState where
  | off | acquire | locked | holdover | lost
  deriving DecidableEq, Repr

structure Ms where
  mode   : BitVec 2 := 0
  fadopt : Bool := false
  rsten  : Bool := true
  psh    : BitVec 4 := 4
  kish   : BitVec 4 := 2
  rstsh  : BitVec 4 := 6
  miss   : BitVec 4 := 4
  ports  : BitVec 4 := 0xF
  node   : BitVec 7 := 0x40
  beam   : BitVec 2 := 0
  lbeam  : BitVec 2 := 0
  dotper : Word := 0xD77D
  state  : MsState := .off
  geom   : Bool := false
  fadopted : Bool := false
  restarted : Bool := false
  gen    : BitVec 2 := 0
  hops   : BitVec 6 := 0
  dotErr : Bool := false
  err    : Word := 0
  rate   : Word := 0
  drop   : Word := 0
  acc    : Int := 0
  pend   : Int := 0
  lastSeq : Option (BitVec 16) := none
  inRow  : Nat := 0
  outRow : Nat := 0
  /-- lines since the last accepted record, and frames in HOLDOVER (R257) -/
  lines  : Nat := 0
  frames : Nat := 0
  /-- a change of MODE, PSH or MSn_SRC that waits for quad 0, and the values in effect until then (R257) -/
  change : Bool := false
  useMode : BitVec 2 := 0
  usePsh  : Nat := 4
  useNode : BitVec 7 := 0x40
  useBeam : BitVec 2 := 0
  useLbeam : BitVec 2 := 0
  /-- SEQ of the next record sent (R252) -/
  seq    : BitVec 16 := 0
  /-- the master's number for the follower's present frame, as the last record gave it, and whether the next frame change
  may load it (R259) -/
  adopt  : Option (BitVec 16) := none
  adoptDue : Bool := false
  /-- RESTART is to be driven at this position of the beam: (line, quad) (R258) -/
  restartAt : Option (Nat × Nat) := none
  /-- a trim code has left in the present line: at most one does (R244) -/
  coded  : Bool := false
  deriving DecidableEq, Repr

structure Ports where
  port : Vector Port 8 := Vector.replicate 8 {}
  ms   : Vector Ms 4 := Vector.replicate 4 {}
  deriving DecidableEq, Repr

/-! ## Scratchpads and the march engine (spec 08) -/

/-- The slice that a preserving run has borrowed (R284, R285). -/
structure Slice where
  bank   : Nat
  index  : Nat
  /-- the 64 words as saved, and as written since (R285) -/
  shadow : List Word
  /-- 0 saving, 1 to 6 element in progress, 7 restoring -/
  phase  : Nat
  /-- an uncorrectable word was met while saving: the slice is neither tested nor written -/
  skip   : Bool := false
  /-- master 16 waits for the slice, and may use the shadow buffer once (R285) -/
  asks16 : Bool := false
  serves16 : Bool := false
  /-- an element has ended and the waiting accesses of masters 17 and 19 are being served (R285) -/
  window : Bool := false
  deriving DecidableEq, Repr

structure March where
  alg    : Bool := false
  mode   : Bool := false
  gap    : Byte := 0
  cont   : Bool := false
  busy   : Bool := false
  done   : Bool := false
  fail   : Bool := false
  refused : Bool := false
  defer  : BitVec 16 := 0
  startup : Bool := false
  bank   : BitVec 7 := 0
  sel    : Vector Word 3 := Vector.replicate 3 0
  failed : Vector Word 3 := Vector.replicate 3 0
  faddr  : Word := 0
  /-- MARCH_FADDR holds the first failure since FAIL was cleared -/
  faddrSet : Bool := false
  fails  : BitVec 16 := 0
  skip   : BitVec 16 := 0
  /-- the run in progress is destroying; it, or the last one, has this algorithm and began on these banks (R288, R289) -/
  destroying : Bool := false
  runAlg : Bool := false
  runBanks : List Nat := []
  /-- elements that a destroying run has ended -/
  elem   : Nat := 0
  /-- banks of the run not finished, and slices of the current bank still to take, in order -/
  banks  : List Nat := []
  slices : List Nat := []
  slice  : Option Slice := none
  /-- abort counts of slices in this run (bank, slice, count) (R286) -/
  aborts : List (Nat × Nat × Nat) := []
  /-- STOP was written during a slice (R288) -/
  stopping : Bool := false
  deriving DecidableEq, Repr

structure Spad where
  /-- the bytes, in canonical form: plain addresses strictly rising, no zero byte listed -/
  mem    : List Host.Cell := []
  /-- plain word addresses with a single-bit and with an uncorrectable error (R265) -/
  corr   : List Nat := []
  bad    : List Nat := []
  /-- corrected words whose write-back is due (R265) -/
  wback  : List Nat := []
  /-- words written whole in an undefined bank since the STOP that left it so -/
  sound  : List Nat := []
  /-- banks left undefined by a STOP of a destroying run, with the number of that STOP (R288) -/
  undef  : List (Nat × Nat) := []
  /-- those of them whose part of the secure region a wipe has zeroed since -/
  clean  : List Nat := []
  stops  : Nat := 0
  initDone : Bool := false
  wiping : Bool := false
  /-- a wipe cause has come, and its wipe has not ended (R278, R279) -/
  wipeDue : Bool := false
  uncorr : Bool := false
  secErr : Bool := false
  ecnt   : BitVec 16 := 0
  eaddr  : Word := 0
  serrOffs : BitVec 23 := 0
  serrMaster : BitVec 5 := 0
  coll   : Vector Word 16 := Vector.replicate 16 0
  conf   : Vector Word 20 := Vector.replicate 20 0
  /-- round-robin pointers: port B of bank 4c + k, and bank 64 + b (R268) -/
  rr     : Vector (Fin 20) 96 := Vector.replicate 96 0
  /-- the last write through port A of each core's banks: word, data, byte enables (R272) -/
  wrote  : Vector (Option (Nat × Word × BitVec 4)) 16 := Vector.replicate 16 none
  /-- banks that wait for VDDM after NAP (R281) -/
  asleep : Bool := false
  deriving DecidableEq, Repr

/-! ## Flash port and fabric (spec 09, 14) -/

/-- Who asked the flash or fabric port: a core for a line or a copy, or the ring agent. -/
inductive Requester where
  /-- for miss register `i` of the core, or for its LC_PINLD copy -/
  | fill (c : CoreId) (i : Fin 4)
  | pin (c : CoreId)
  | ring
  deriving DecidableEq, Repr

/-- A flash request (R312, R313): command 0 line read, 1 word write, 2 control write. `beats` are the words received so far. -/
structure FlashReq where
  cmd   : BitVec 2
  addr  : BitVec 26
  data  : Word := 0
  be    : BitVec 4 := 0
  users : List Requester
  beats : List Word := []
  err   : Bool := false
  /-- its line was snooped after the request was made: later requests do not join (R317) -/
  snooped : Bool := false
  deriving DecidableEq, Repr

structure Flash where
  pen    : Bool := true
  parchk : Bool := true
  rerr   : Bool := false
  parErr : Bool := false
  werr   : Bool := false
  errAddr : BitVec 26 := 0
  tags   : Vector (Option FlashReq) 4 := Vector.replicate 4 none
  /-- the request on FL_REQ, with its tag (R313) -/
  shown  : Option (Fin 4) := none
  /-- requests waiting, each requester's in order (R317) -/
  queue  : List FlashReq := []
  /-- C0 to C15 and the ring agent as 16 (R317, R512) -/
  rr     : Fin 17 := 0
  deriving DecidableEq, Repr

/-- A request at the fabric master port (R304, R306, R442). -/
inductive FabKind where
  /-- for miss register `i` -/
  | fill (line : BitVec 27) (i : Fin 4)
  | load (ctx : CtxId) (addr : Word)
  | ldf (ctx : CtxId) (addr : Word)
  | write (id : Nat) (data : Word) (be : BitVec 4) (ctx : CtxId)
  | pinld (line : BitVec 27)
  /-- a debug load through the uncached alias (R473) -/
  | debug
  /-- a read whose access or long operation was discarded: its response goes nowhere (R87, R139) -/
  | dead (ctx : CtxId) (ldf : Bool)
  deriving DecidableEq, Repr

structure FabReq where
  core : CoreId
  kind : FabKind
  /-- fabric address -/
  addr : Word
  /-- the tag given to it when it is presented -/
  tag  : Fin 32 := 0
  deriving DecidableEq, Repr

/-- A response of the fabric slave (R444, R445). -/
structure SlaveResp where
  write : Bool
  tag   : Fin 16
  data  : Word
  err   : Bool
  deriving DecidableEq, Repr

structure Fabric where
  win    : BitVec 5 := 0b00100
  /-- requests waiting to be presented, oldest first -/
  queue  : List FabReq := []
  shown  : Option FabReq := none
  /-- accepted and unanswered, by tag -/
  out    : List FabReq := []
  rr     : Fin 16 := 0
  resp   : List SlaveResp := []
  /-- slave requests that wait for the scratchpad banks: write, word address, data, byte enables, tag (R280, R281) -/
  held   : List (Bool × Word × Word × BitVec 4 × Fin 16) := []
  deriving DecidableEq, Repr

/-! ## Event unit (spec 10) -/

/-- One event source (R325 to R340). -/
structure Source where
  en     : Bool := false
  cls    : Bool := false
  fslot  : Fin 8 := 0
  core   : CoreId := 0
  kind   : BitVec 2 := 0
  inv    : Bool := false
  pend   : Bool := false
  mrg    : BitVec 4 := 0
  ovf    : BitVec 16 := 0
  /-- a raise merged while the ring was full: the next record's OVF (R339) -/
  merged : Bool := false
  /-- the input or condition before INV -/
  level  : Bool := false
  /-- the outstanding record of a level source: its core and index, and whether it was delivered (R340) -/
  out    : Option (CoreId × BitVec 13) := none
  delivered : Bool := false
  payload : Word := 0
  /-- the latched timestamp: TSK, TS, TSH (R336) -/
  tsk    : Bool := false
  ts     : Word := 0
  tsh    : BitVec 16 := 0
  deriving DecidableEq, Repr

structure Timer where
  en     : Bool := false
  per    : Bool := false
  clk    : BitVec 2 := 0
  tbsel  : TbId := 0
  load   : Word := 0
  cnt    : Word := 0
  deriving DecidableEq, Repr

structure Events where
  /-- sources that differ from their reset state, by number, ascending -/
  src    : List (Nat × Source) := []
  hold   : Vector (BitVec 16) 32 := Vector.replicate 32 0
  /-- Vesper fast ticks left of each group's hold-off; 0 when over (R341) -/
  holdRun : Vector Nat 32 := Vector.replicate 32 0
  routeErr : Bool := false
  /-- where the record writer's search starts (R338, R512) -/
  next   : SrcId := 0
  timer  : Vector Timer 32 := Vector.replicate 32 {}
  /-- EVT_IN as sampled -/
  evtIn  : BitVec 32 := 0
  deriving DecidableEq, Repr

/-! ## Knadu ring (spec 11) -/

/-- A response of the node (R362, R365). `cmd` is its command's code; `port` the port the command came in on. -/
structure Resp where
  port    : PortId
  cmd     : BitVec 8
  seq     : BitVec 16
  index   : BitVec 16
  sub     : BitVec 8
  status  : BitVec 8
  credit  : BitVec 8
  /-- FLAGS: RESTARTED, REPLAY, VONLY, QUIET (R362) -/
  flags   : BitVec 8
  payload : List Byte
  /-- the command was a broadcast one, sequenced in BEXPSEQ (R373) -/
  bcast   : Bool
  deriving DecidableEq, Repr

/-- Frames of the node's own that wait for a port (R370). -/
inductive OwnFrame where
  | dlyReq (num : BitVec 16)
  | dlyRsp (num : BitVec 16) (t32 : Int)
  | sync (r : SyncRec)
  | resp (r : Resp)
  | nmsg (data : List Byte)
  deriving DecidableEq, Repr

/-- A command in a command buffer, with its code (R363, R371). -/
structure RingCmd where
  code : BitVec 8
  h    : RingHdr
  data : List Byte
  /-- it is answered BADCMD when it runs (R365) -/
  bad  : Bool := false
  deriving DecidableEq, Repr

/-- What the command at the front, or the DACC operation, has begun and waits for (R397, R403, R413, R414, R502). -/
inductive Busy where
  | start (mask : BitVec 16)
  /-- parameter-store rows still to be written -/
  | nvm
  /-- a transition to the life-cycle state given -/
  | lifecycle (next : BitVec 2)
  /-- flash words of a DWRITE or a control write not acknowledged yet, and lines of a DREAD -/
  | flash
  /-- a debug memory access through a halted core (R473) -/
  | debugMem
  /-- a microcode image waits for its cores to be held (R408) -/
  | commit
  deriving DecidableEq, Repr

structure RingPort where
  gen    : BitVec 2 := 3
  wrapEn : Bool := true
  errth  : Byte := 0x10
  link   : Bool := false
  genUse : BitVec 2 := 0
  burst  : Bool := false
  genErr : Bool := false
  err    : Word := 0
  fwdrop : Word := 0
  oversz : Word := 0
  hopdrop : Word := 0
  /-- errors in the present window, and whether a burst may be recognised (R380) -/
  winErr : Nat := 0
  armed  : Bool := true
  /-- MS_PORTp_DLY and MS_PORTp_ASYM, and the exchanges made since link-up with the smallest delay (R251) -/
  ldly   : BitVec 31 := 0
  dlyOk  : Bool := false
  asym   : BitVec 24 := 0
  exch   : Nat := 0
  best   : Option Int := none
  /-- NUM of the first of the 8 DLY_REQ records -/
  dlyNum : BitVec 16 := 0
  /-- own frames waiting, and the last own and forwarded frame handed to the transmitter -/
  txq    : List OwnFrame := []
  ownOut : Option OwnFrame := none
  fwdOut : Option Frame := none
  deriving DecidableEq, Repr

structure Ring where
  node     : BitVec 7 := 0x7F
  assignLk : Bool := false
  ident    : Bool := false
  restarted : Bool := true
  expSeq   : BitVec 16 := 0
  bexpSeq  : BitVec 16 := 0
  etype    : BitVec 16 := 0x88B5
  errwin   : BitVec 16 := 0x8000
  port     : Vector RingPort 4 := Vector.replicate 4 {}
  hmsg     : Vector Word 8 := Vector.replicate 8 0
  hlen     : BitVec 6 := 0
  hfull    : Bool := false
  nmsg     : Vector Word 8 := Vector.replicate 8 0
  nlen     : BitVec 6 := 0
  nbusy    : Bool := false
  nlost    : Bool := false
  /-- the pair that the NMSG waits on: false P0 and P1, true P2 and P3 -/
  npair    : Bool := false
  /-- one of its two frames has been sent -/
  nsent    : Bool := false
  /-- commands in the 8 buffers, the one being run first (R371) -/
  cmds     : List RingCmd := []
  busy     : Option Busy := none
  /-- what `busy` names was begun without a command at the front: no response follows -/
  solo     : Bool := false
  /-- the command at the front has begun in the main domain (R374) -/
  begun    : Bool := false
  history  : List Resp := []
  resync   : Option RingCmd := none
  /-- RING_TCLK is present (R377) -/
  tclk     : Bool := false
  /-- sources raised while the main domain does not run, latest of each (R380): number and payload -/
  deferred : List (SrcId × Word) := []
  deriving DecidableEq, Repr

/-! ## Object dictionary (spec 12) -/

structure Dict where
  bootAuto : Bool := false
  marchStartup : Byte := 0x01
  injData  : Word := 0
  injWhere : Word := 0
  nlSel    : BitVec 16 := 0
  intUnlocked : Bool := false
  intFails : Nat := 0
  ucSize   : Nat := 0
  ucState  : BitVec 2 := 0
  ucReason : Byte := 0
  ucStage  : Word := 0x0277A000
  /-- held values of the 43 saved entries in the order of R411 -/
  held     : Vector Word 43 := Vector.replicate 43 0
  stValid  : Bool := false
  fallback : Bool := false
  skip     : Bool := false
  nvmErr   : Bool := false
  stLen    : BitVec 16 := 0
  stGen    : Word := 0
  /-- BOOT_AUTO waits for C0's check (R436) -/
  bootWait : Bool := false
  -- the DACC register (R464)
  daccStat : BitVec 2 := 0
  daccData : Word := 0
  daccBusy : Option Busy := none
  /-- a DACC operation that has been shifted in and has not run: OP, sub-index, index, write data -/
  daccWait : Option (BitVec 2 × Byte × BitVec 16 × Word) := none
  /-- a flash access of the running command ended in an error -/
  flashErr : Bool := false
  /-- flash words of the running command that are still to be asked for: address and data, or a line read -/
  flashTodo : List (BitVec 26 × Option Word) := []
  flashGot : List Word := []
  flashSkip : Nat := 0
  flashWant : Nat := 0
  deriving DecidableEq, Repr

/-! ## Power, clocks and reset (spec 13) -/

inductive PowerState where
  | run | nap | vesperOnly | off
  deriving DecidableEq, Repr

structure Power where
  -- inputs and outputs of R417
  pornAon  : Bool := false
  mainOk   : Bool := false
  vddmOk   : Bool := false
  mainWarn : Bool := false
  rstnMain : Bool := false
  dbgRstn  : Bool := true
  vdbg     : Bool := true
  mainEn   : Bool := false
  /-- the block wants its main supply, which MAIN_EN shows once the fast clock is present (R420, R432, R435) -/
  wantMain : Bool := false
  vddmLow  : Bool := false
  state    : PowerState := .off
  /-- step 1 of R435 is done: Vesper registers restored -/
  restored : Bool := false
  /-- the Vesper fast clock is present (R420) -/
  fastClk  : Bool := true
  /-- the internal main reset is asserted (R433) -/
  mainRst  : Bool := true
  lockA    : Bool := false
  lockB    : Bool := false
  /-- main-domain held values have been written (R412) -/
  heldDone : Bool := false
  /-- NAP entry has begun; a wake cause has ended NAP and the exit runs -/
  napWake  : Bool := false
  /-- PLLA relocks after an AMUL write (R422) -/
  relock   : Bool := false
  /-- the wipe-pending flag (R279) -/
  wipePend : Bool := false
  pend     : BitVec 2 := 0
  vcause   : BitVec 2 := 0
  wcause   : BitVec 2 := 0
  clkErr   : Bool := false
  awake    : Bool := false
  mwake    : Bool := true
  dozeEn   : BitVec 16 := 0xFFFF
  dozeDly  : Byte := 0x10
  /-- per-core software resets that have not reached step 5's end (R434) -/
  crst     : BitVec 16 := 0
  amul     : BitVec 6 := 0x20
  cdiv     : Vector (BitVec 4) 16 := Vector.replicate 16 0
  sdiv     : BitVec 5 := 0
  vt       : BitVec 48 := 0
  vtHold   : BitVec 16 := 0
  vtLatch  : BitVec 16 := 0
  vtLatchDbg : BitVec 16 := 0
  almLo    : Word := 0
  almHi    : BitVec 16 := 0
  almEn    : Bool := false
  bocnt    : Word := 0
  disc     : Word := 0
  deriving DecidableEq, Repr

/-! ## Pins (spec 14) -/

structure Gpio where
  mux    : Vector (BitVec 3) 64 := Vector.replicate 64 0
  oe     : BitVec 64 := 0
  out    : BitVec 64 := 0
  /-- filtered and synchronised inputs -/
  fin    : BitVec 64 := 0
  sync   : BitVec 64 := 0
  /-- a filter count runs for the pin (R452) -/
  frun   : BitVec 64 := 0
  conflict : Bool := false
  calt   : BitVec 3 := 0
  cinst  : BitVec 4 := 0
  capNew : BitVec 4 := 0
  cap    : Vector Word 4 := Vector.replicate 4 0
  slh    : BitVec 64 := BitVec.allOnes 64
  slp    : Vector (BitVec 3) 64 := Vector.replicate 64 3
  fcnt   : Vector Byte 64 := Vector.replicate 64 0
  fmode  : Vector (BitVec 2) 64 := Vector.replicate 64 0
  own    : Vector (BitVec 64) 16 := Vector.ofFn fun c => if c.val = 0 then BitVec.allOnes 64 else 0
  latOut : BitVec 64 := 0
  latOe  : BitVec 64 := 0
  /-- the hold latches are frozen (R457) -/
  frozen : Bool := false
  timout : BitVec 32 := 0
  /-- the value each CAPT instance saw last (R453, R454) -/
  capPrev : BitVec 4 := 0
  /-- private-port writes on their way: core, mask and data over the 64 pins (R451) -/
  writes : List (CoreId × BitVec 64 × BitVec 64) := []
  deriving DecidableEq, Repr

/-! ## Debug, trace, counters, watchdogs (spec 15) -/

structure Xtm where
  haltl  : BitVec 4 := 0
  firel  : BitVec 4 := 0
  rell   : BitVec 4 := 0
  deriving DecidableEq, Repr

/-- A trace packet (R480) with the sinks that have taken it. `halt`: it goes ahead of stimulus packets. -/
structure Packet where
  bits   : BitVec 128
  halt   : Bool := false
  byPort : Bool := false
  byBuf  : Bool := false
  deriving DecidableEq, Repr

structure TrcEn where
  plo    : BitVec 5 := 0x1F
  phi    : BitVec 5 := 0
  ctxm   : BitVec 9 := 0x1FF
  budget : BitVec 4 := 0
  /-- packets made in the present window (R479) -/
  spent  : Nat := 0
  deriving DecidableEq, Repr

structure Counter where
  evsel  : BitVec 7 := 0
  en     : Bool := false
  ctxm   : BitVec 9 := 0x1FF
  core   : BitVec 5 := 0
  hfrz   : Bool := false
  trig   : Bool := false
  tline  : BitVec 2 := 0
  ovf    : Bool := false
  cnt    : BitVec 48 := 0
  /-- the held write of CNTn_HI -/
  hi     : BitVec 16 := 0
  /-- it has wrapped and its overflow step is due (R486) -/
  wrapped : Bool := false
  deriving DecidableEq, Repr

structure Wdt where
  en     : Bool := false
  lock   : Bool := false
  pre    : BitVec 4 := 0
  warn   : BitVec 5 := 0
  act    : BitVec 2 := 0
  kickErr : Bool := false
  bite   : Bool := false
  load   : Word := 0xFFFFFFFF
  cnt    : Word := 0
  deriving DecidableEq, Repr

structure Debug where
  level  : BitVec 2 := 2
  barred : Bool := false
  fails  : BitVec 4 := 0
  failed : Bool := false
  busy   : Bool := false
  chal   : BitVec 64 := 0
  chalCnt : BitVec 16 := 0
  /-- a challenge is outstanding, for this level -/
  chalOut : Bool := false
  reqLevel : BitVec 2 := 0
  respHi : Word := 0
  respLo : Word := 0
  xtm    : Vector Xtm 18 := Vector.replicate 18 {}
  /-- halt requests on their way to members 16 and 17 -/
  haltTrn : Bool := false
  haltTrc : Bool := false
  mCore  : CoreId := 0
  mSize  : BitVec 2 := 2
  mPriv  : BitVec 2 := 1
  mWrite : Bool := false
  mAinc  : Bool := false
  maddr  : Word := 0
  mdata  : Word := 0
  mErr   : Bool := false
  /-- the last access was refused (R474) -/
  mFailed : Bool := false
  mFcode : Byte := 0
  vaddr  : Word := 0
  vdata  : Word := 0
  -- trace
  trEn   : Bool := false
  sink   : BitVec 2 := 0
  tsel   : BitVec 4 := 8
  bmode  : Bool := false
  bsz    : BitVec 4 := 0
  stopped : Bool := false
  berr   : Bool := false
  portOff : Bool := false
  bbase  : BitVec 22 := 0
  bwr    : BitVec 24 := 0
  brd    : BitVec 24 := 0
  bmark  : BitVec 24 := 0
  drop   : Word := 0
  trc    : Vector TrcEn 16 := Vector.replicate 16 {}
  fifo   : List Packet := []
  seq    : BitVec 16 := 0
  /-- packets dropped since the last DROP packet (R480) -/
  dropped : Word := 0
  /-- packets since the last SYNC packet; a SYNC packet is due when none follows the enabling of the sink (R482) -/
  sinceSync : Nat := 0
  syncDue : Bool := false
  /-- the packet on TRC_D (R482) -/
  portOut : BitVec 128 := 0
  /-- a debug load or store of flash or fabric is under way (R473) -/
  mBusy  : Bool := false
  deriving DecidableEq, Repr

structure Counters where
  cnt    : Vector Counter 80 := Vector.replicate 80 {}
  run    : Bool := true
  wdt    : Vector Wdt 16 := Vector.replicate 16 {}
  /-- latches of bits [47:32]: C0 to C15, the ring agent 16, the debug path 17 (R484) -/
  latch  : Vector (BitVec 16) 18 := Vector.replicate 18 0
  deriving DecidableEq, Repr

/-! ## Nightlog, life cycle, tamper (spec 16) -/

/-- A cause captured into a staging slot (R491, R493); LOSTB is set when it is written. -/
structure Cause where
  seq    : Word
  time   : BitVec 48
  code   : Byte
  ctx    : Byte
  pc     : Word
  status : BitVec 16
  detail : BitVec 96
  deriving DecidableEq, Repr

/-- A life-cycle row: all zero, valid, or torn (R500). -/
inductive LcRow where
  | zero | valid | torn
  deriving DecidableEq, Repr

/-- What the NVM writer writes (R494). -/
inductive NvmRow where
  | row0 (set : Bool)
  | lc (row : Fin 3)
  | record (slot : Nat) (seq : Word) (data : Line)
  | param (row : Nat) (data : Line)
  | clear (slot : Nat)
  deriving DecidableEq, Repr

/-- A life-cycle transition in progress (R502). -/
structure LcMove where
  next : BitVec 2
  ctx  : Byte
  path : Byte
  src  : Byte
  deriving DecidableEq, Repr

structure Night where
  -- the NVM (R490): rows that are not all zero
  slots  : List (Nat × Line) := []
  param  : List (Nat × Line) := []
  row0   : Bool := false
  lcRows : Vector LcRow 3 := Vector.replicate 3 .zero
  -- the writer
  cur    : Option NvmRow := none
  /-- the row in progress is being written once more (R494) -/
  again  : Bool := false
  wantRow0 : Option Bool := none
  wantLc : Option (Fin 3) := none
  wantParam : List (Nat × Line) := []
  -- registers and the log
  stop   : Bool := false
  count  : Nat := 0
  newest : Nat := 1791
  torn   : Bool := false
  nvmErr : Bool := false
  lost   : Bool := false
  seq    : Word := 1
  lostCnt : BitVec 16 := 0
  rsel   : BitVec 11 := 0
  swdata : Vector Word 3 := Vector.replicate 3 0
  staged : List Cause := []
  lostb  : Bool := false
  epoch  : Byte := 0
  /-- a CLEAR runs: NEWEST at the CLEAR, records written since, rows done (R499) -/
  clr    : Option (Nat × Nat × Nat) := none
  -- life cycle
  lcState : BitVec 2 := 0
  lcTorn : Bool := false
  reqErr : Bool := false
  move   : Option LcMove := none
  -- tamper
  pinen  : Bool := true
  act    : Bool := false
  filt   : Byte := 0
  pin    : Bool := true
  event  : Bool := false
  tcnt   : Word := 0
  deriving DecidableEq, Repr

/-! ## The load unit (spec 05) -/

structure LoadUnit where
  cores  : BitVec 16 := 0
  hold   : Bool := false
  lock   : Bool := false
  notHeld : Bool := false
  badWord : Bool := false
  protect : Bool := false
  selfHold : Bool := false
  /-- false: a core context owns the unit; true: the ring agent -/
  owner  : Bool := false
  addr   : BitVec 12 := 0
  space  : BitVec 2 := 0
  ainc   : Bool := false
  data   : Vector Word 5 := Vector.replicate 5 0
  deriving DecidableEq, Repr

/-! ## The block -/

/-- Named reasons for which the model stops. No command of the table needs one: every row has an effect in spec/, so no
meaning ends in a fault; the type stands for the interface. -/
inductive Fault where
  /-- Raised by nothing: a run is never stopped by a fault. Safe. -/
  | none
  deriving DecidableEq, Repr

/-- Refusals. -/
inductive Refusal where
  /-- Raised by `exec` for a command without a meaning. Safe: nothing is claimed of it. -/
  | notModelled (mnemonic : String)
  deriving DecidableEq, Repr

/-- The state of the block. `freeCtr` is the model's own: how many free values a run has drawn (Config.freeWord). -/
structure State where
  pending  : List Instr := []
  freeCtr  : Nat := 0
  core     : Vector Core 16 := Vector.replicate 16 {}
  transit  : Transit := {}
  ports    : Ports := {}
  spad     : Spad := {}
  march    : March := {}
  flash    : Flash := {}
  fabric   : Fabric := {}
  ev       : Events := {}
  ring     : Ring := {}
  dict     : Dict := {}
  power    : Power := {}
  gpio     : Gpio := {}
  dbg      : Debug := {}
  counters : Counters := {}
  night    : Night := {}
  load     : LoadUnit := {}
  deriving DecidableEq, Repr

/-- The state right after reset. -/
def State.reset : State := {}

end Sys2Proof.Machine
end

