-- ==== Sys2Proof/Machine/Ops.lean ====
section
/-! DEFINITION. The operations every unit uses: reaching a core or a context, free values, event counters, raising an
event source, and capturing a Nightlog cause. -/

namespace Sys2Proof.Machine

open Sys2Proof

/-- What a meaning answers. -/
abbrev Ans := Host.Outcome State Fault Refusal

/-! ## Reaching state -/

def State.ctx (s : State) (c : CoreId) (x : CtxId) : Ctx := s.core[c].ctx[x]

def State.modCore (s : State) (c : CoreId) (f : Core → Core) : State :=
  { s with core := s.core.set c (f s.core[c]) }

def Core.modCtx (k : Core) (x : CtxId) (f : Ctx → Ctx) : Core :=
  { k with ctx := k.ctx.set x (f k.ctx[x]) }

def State.modCtx (s : State) (c : CoreId) (x : CtxId) (f : Ctx → Ctx) : State :=
  s.modCore c fun k => k.modCtx x f

def State.modTb (s : State) (t : TbId) (f : Tb → Tb) : State :=
  { s with transit := { s.transit with tb := s.transit.tb.set t (f s.transit.tb[t]) } }

def State.modPort (s : State) (p : Fin 8) (f : Port → Port) : State :=
  { s with ports := { s.ports with port := s.ports.port.set p (f s.ports.port[p]) } }

def State.modMs (s : State) (n : Fin 4) (f : Ms → Ms) : State :=
  { s with ports := { s.ports with ms := s.ports.ms.set n (f s.ports.ms[n]) } }

def State.modRing (s : State) (f : Ring → Ring) : State := { s with ring := f s.ring }

def State.modRp (s : State) (p : PortId) (f : RingPort → RingPort) : State :=
  { s with ring := { s.ring with port := s.ring.port.set p (f s.ring.port[p]) } }

/-- Every core changed alike. -/
def State.allCores (s : State) (f : CoreId → Core → Core) : State :=
  { s with core := Vector.ofFn fun c => f c s.core[c] }

/-- Every context of a core changed alike. -/
def Core.allCtx (k : Core) (f : CtxId → Ctx → Ctx) : Core := { k with ctx := Vector.ofFn fun x => f x k.ctx[x] }

/-! ## States of contexts and the shared decode register (R31, R124, R125) -/

/-- The thread that a context is; none for F. -/
def threadOf (x : CtxId) : Option (Fin 8) := if h : x.val < 8 then some ⟨x.val, h⟩ else none

/-- Thread `t` may take the shared decode register. -/
def Core.wants (k : Core) (t : Fin 8) : Bool := k.ctx[t.castSucc].st == .ready && !k.ctx[t.castSucc].cntd

/-- Another thread than `x` waits for the shared decode register. -/
def Core.rival (k : Core) (x : CtxId) : Bool := (List.finRange 8).any fun t => t.castSucc != x && k.wants t

/-- The search of R124: an empty register takes the first thread that wants it. -/
def Core.seat (k : Core) : Core :=
  match k.holder with
  | some _ => k
  | none =>
    match ((List.finRange 8).map fun i => k.search + i).find? k.wants with
    | some t => { k with holder := some t, qcount := 0, qload := k.quantum }
    | none => k

/-- Context `x` gives the register up. -/
def Core.giveUp (k : Core) (x : CtxId) : Core :=
  match threadOf x with
  | some t => if k.holder = some t then { k with holder := none, search := t + 1 } else k
  | none => k

/-- Contexts have changed together: a holder that is no longer READY gives the register up, and one search follows (R124). -/
def Core.settle (k : Core) : Core :=
  let k := match k.holder with
    | some t => if k.ctx[t.castSucc].st == CtxState.ready then k else k.giveUp t.castSucc
    | none => k
  k.seat

/-- The state of a context changes; one that is not READY gives the register up, though no other thread takes it, and its return to
READY loads it anew: R124 says so, and what R126 says of a thread that still holds it then has no case (DESIGN CHOICE, log 45). -/
def Core.setSt (k : Core) (x : CtxId) (st : CtxState) : Core :=
  let k := k.modCtx x fun t => { t with st := st }
  (if st = .ready then k else k.giveUp x).seat

/-- `f` applied for each number in turn. -/
def forEach {α : Type} (l : List α) (f : State → α → State) (s : State) : State := l.foldl f s

/-- Context F. -/
def fCtx : CtxId := 8

/-- Threads T0 to T7 among the contexts. -/
def thr (t : Fin 8) : CtxId := t.castSucc

/-- The main domain runs: internal main reset released and both PLLs locked (R421). -/
def State.mainRuns (s : State) : Bool := !s.power.mainRst && s.power.lockA && s.power.lockB

/-- The event unit runs: with the main domain, and in NAP from VCLK_FAST (R349, R419). -/
def State.eventsRun (s : State) : Bool := s.mainRuns || (!s.power.mainRst && s.power.state == .nap)

/-! ## Free values (spec silent or open on a value) -/

/-- The next free word, and the state after drawing it. -/
def State.free (s : State) : Word × State := (Config.freeWord s.freeCtr, { s with freeCtr := s.freeCtr + 1 })

/-! ## Event counters (R484 to R487) -/

/-- Whether counter `n` counts event `ev` (0x01 to 0x3F) of core `c` by context `x`. -/
def counts (s : State) (n : Fin 80) (k : Counter) (c : CoreId) (x : Option CtxId) (ev : Nat) : Bool :=
  k.en && s.counters.run && k.evsel.toNat == ev &&
  (match x with | some x => k.ctxm.getLsbD x.val | none => true) &&
  (!k.hfrz || !s.core[c].halted) &&
  (if n.val < 64 then n.val / 4 == c.val && !s.core[c].dozed
   else k.core.toNat == c.val || 16 ≤ k.core.toNat)

/-- A counter with `m` occurrences added; a wrap is kept for its overflow step (R486). -/
def Counter.bump (k : Counter) (m : Nat) : Counter :=
  { k with cnt := k.cnt + BitVec.ofNat 48 m, wrapped := k.wrapped || decide (2 ^ 48 ≤ k.cnt.toNat + m) }

/-- `m` occurrences of a per-core event of core `c` (by context `x`, for an event tied to a context). -/
def State.countN (s : State) (c : CoreId) (x : Option CtxId) (ev m : Nat) : State :=
  let cs := Vector.ofFn fun n =>
    let k := s.counters.cnt[n]
    if counts s n k c x ev then k.bump m else k
  { s with counters := { s.counters with cnt := cs } }

def State.count (s : State) (c : CoreId) (x : CtxId) (ev : Nat) : State := s.countN c (some x) ev 1
def State.countC (s : State) (c : CoreId) (ev : Nat) : State := s.countN c none ev 1

/-- `m` occurrences of a block event (0x40 to 0x5F): only block-wide counters count it. -/
def State.countB (s : State) (ev : Nat) (m : Nat := 1) : State :=
  let cs := Vector.ofFn fun n =>
    let k := s.counters.cnt[n]
    if 64 ≤ n.val && k.en && s.counters.run && k.evsel.toNat == ev then k.bump m else k
  { s with counters := { s.counters with cnt := cs } }

/-- A change of a core in which the shared decode register may be loaded (R124). -/
def State.seating (s : State) (c : CoreId) (f : Core → Core) : State :=
  let h := s.core[c].holder
  let s := s.modCore c f
  if s.core[c].holder.isSome && s.core[c].holder != h then s.countC c 0x09 else s

def State.setSt (s : State) (c : CoreId) (x : CtxId) (st : CtxState) : State := s.seating c fun k => k.setSt x st

/-! ## Positions and timestamps (R116, R240, R336) -/

/-- The receiving port of a timebase: beam port n for TBn, sound port m for TB(4 + m) (R195, R245). -/
def portOf (t : TbId) : Fin 8 := t

/-- The pins that select input alternative `alt` with instance `n` (R449). -/
def State.instPins (s : State) (alt : BitVec 3) (n : Fin 4) : List (Fin 64) :=
  (List.finRange 64).filter fun k => s.gpio.mux[k] == alt && k.val % 4 == n.val

/-- What input instance `n` of an alternative sees: the filtered input of the one pin that serves it, else 0 (R449, R453). -/
def State.instIn (s : State) (alt : BitVec 3) (n : Fin 4) : Bool :=
  match s.instPins alt n with
  | [k] => s.gpio.fin.getLsbD k.val
  | _ => false

/-- TBn is running: enabled, not starting, its port enabled, and RUN at 1 at the last sample (R196, R240, R511). -/
def State.tbRuns (s : State) (t : TbId) : Bool :=
  s.transit.tb[t].en && !s.transit.tb[t].starting && s.ports.port[portOf t].pen && s.transit.tb[t].run

/-- The value BEAM returns for TBn, which TBn_POS shows (R116, R240). -/
def State.beamValue (s : State) (t : TbId) : Word :=
  let b := s.transit.tb[t]
  if s.tbRuns t then
    fld (BitVec.ofNat 3 t.val) 29 ||| fld (BitVec.ofNat 13 b.slot) 16 ||| fld (BitVec.ofNat 14 b.grain) 0
  else fld (BitVec.ofNat 3 t.val) 29 ||| fld (3#2) 14

/-- TSK, TS and TSH as TSEL selects (R336). -/
def State.stamp (s : State) (tsel : BitVec 4) : Bool × Word × BitVec 16 :=
  if h : tsel.toNat < 8 then
    let t : TbId := ⟨tsel.toNat, h⟩
    (true, s.beamValue t, s.transit.tb[t].frame)
  else (false, bits s.power.vt 0 32, bits s.power.vt 32 16)

/-! ## Event sources (R325 to R340) -/

inductive SrcKind where
  | pulse | level | prog | reserved
  deriving DecidableEq, Repr

/-- The kind of a source (R325). -/
def srcKind (n : Nat) : SrcKind :=
  if n < 64 then .prog
  else if n < 176 then .pulse
  else if n = 176 then .level
  else if n < 187 then .pulse
  else if n < 192 then .reserved
  else if n < 216 then .pulse
  else if n < 224 then .reserved
  else if n < 233 then .pulse
  else if n < 256 then .reserved
  else if n < 357 then .pulse
  else if n < 368 then .reserved
  else if n < 400 then .prog
  else if n < 416 then .pulse
  else .reserved

def State.src (s : State) (n : Nat) : Source := (alGet s.ev.src n).getD {}

/-- A source in its reset state is not listed. -/
def State.setSrc (s : State) (n : Nat) (v : Source) : State :=
  { s with ev := { s.ev with src := if v = {} then alErase s.ev.src n else alSet s.ev.src n v } }

/-- The ring size of R337: 64 records times 2 to the QSIZE, where 7 to 15 act as 6. -/
def Core.qrecs (k : Core) : Nat := 64 * 2 ^ (min k.qsize.toNat 6)

def Core.qfull (k : Core) : Bool := (k.evqWr - k.evqRd).toNat == k.qrecs

/-- The source behaves as a level source: the fixed kind, or KIND 0b11 (R326). -/
def isLevel (n : Nat) (v : Source) : Bool := srcKind n == .level || (srcKind n == .prog && v.kind == 3)

/-- The input or condition after INV (R326, R336). -/
def lvlOf (n : Nat) (v : Source) : Bool :=
  match srcKind n with
  | .level => v.level
  | .prog => v.level ^^ v.inv
  | _ => false

/-- Wakes core `c` from DOZE, and the block from NAP (R347, R429): the causes are kept for the exit steps. -/
def State.wakeFor (s : State) (c : CoreId) (core : Bool) : State :=
  let s := if s.power.state = .nap then { s with power := { s.power with napWake := true } } else s
  if core && s.core[c].dozed then s.modCore c fun k => { k with dozeWake := true } else s

/-- A core in DOZE is to leave it (R426). -/
def State.rouse (s : State) (c : CoreId) : State := s.modCore c fun k => { k with dozeWake := k.dozeWake || k.dozed }

/-- A raise of a pulse or edge source, or a level source becoming pending, with a given timestamp (R326, R329, R339). -/
def State.raiseAt (s : State) (n : Nat) (payload : Word) (ts : Bool × Word × BitVec 16) : State :=
  let v := s.src n
  if !v.en || srcKind n == .reserved then s
  else
    let k := s.core[v.core]
    let full := !v.cls && k.qfull
    let v' : Source := { v with payload := payload, tsk := ts.1, ts := ts.2.1, tsh := ts.2.2, pend := true }
    let s := s.wakeFor v.core v.cls
    if v.pend then
      let s := s.countB 0x4D
      if full then
        (s.setSrc n { v' with mrg := satInc v.mrg, ovf := satInc v.ovf, merged := true }).modCore v.core
          fun k => { k with evOvf := true }
      else s.setSrc n { v' with mrg := satInc v.mrg }
    else s.setSrc n v'

/-- A raise with the timestamp of the moment, as TSEL of the target core selects (R336). -/
def State.raiseNow (s : State) (n : Nat) (payload : Word) : State :=
  s.raiseAt n payload (s.stamp s.core[(s.src n).core].tsel)

/-- Sources whose raises outlive the absence of the main domain, the latest of each (R380, R494, R505). -/
def kept (n : Nat) : Bool := (224 ≤ n && n ≤ 232) || n == 353 || n == 355

/-- A raise of a pulse source by any unit. The event unit is in the main domain: without it only the kept sources are held back. -/
def State.raise (s : State) (n : Fin 512) (payload : Word) : State :=
  if s.power.mainRst then
    if kept n.val then
      { s with ring := { s.ring with deferred := s.ring.deferred.filter (fun d => d.1 ≠ n) ++ [(n, payload)] } }
    else s
  else s.raiseNow n.val payload

/-- A level source that was `v` has become inactive: where its record is outstanding and not yet delivered, EVC_SPUR counts (R340). -/
def State.wentQuiet (s : State) (v : Source) : State :=
  match v.out with
  | some (c, _) =>
    if v.delivered then s
    else (s.modCore c fun k => { k with evSpur := true, spurCnt := satInc k.spurCnt }).countB 0x4F
  | none => s

/-- The input or the condition of a programmable or level source takes a new value (R326, R329, R340). -/
def State.setLevel (s : State) (n : Fin 512) (lvl : Bool) (payload : Word) : State :=
  if s.power.mainRst then s
  else
    let v := s.src n.val
    let was := lvlOf n.val v
    let s := s.setSrc n.val { v with level := lvl }
    let now := lvlOf n.val { v with level := lvl }
    if was = now then s
    else if isLevel n.val v then
      if now then (if v.out.isNone then s.raiseNow n.val payload else s)
      else (s.setSrc n.val { s.src n.val with pend := false, mrg := 0 }).wentQuiet v
    else if srcKind n.val == .prog && (v.kind == 2 || (v.kind == 0 && now) || (v.kind == 1 && !now)) then
      s.raiseNow n.val payload
    else s

/-! ## Nightlog causes (R491 to R494) -/

/-- Place of a cause in the capture order of R493, TAMPER first. -/
def causeRank (code : Byte) : Nat :=
  match code.toNat with
  | 3 => 0 | 4 => 1 | 5 => 2 | 1 => 3 | 2 => 4 | 8 => 5 | 6 => 6 | _ => 7

/-- STATUS[2:0]: the power state (R491). -/
def State.powerCode (s : State) : BitVec 3 :=
  if s.power.mainRst then 2 else if s.power.state = .nap then 1 else 0

/-- The bytes of a record but for its CRC (R491). -/
def causeBytes (k : Cause) (lostb : Bool) : List Byte :=
  let st := k.status ||| (if lostb then 0x40#16 else 0)
  toBytes 4 k.seq ++ toBytes 6 k.time ++ [k.code, k.ctx] ++ toBytes 4 k.pc ++ toBytes 2 st ++ toBytes 12 k.detail

/-- A record's 32 bytes, CRC last and least significant byte first (R491). -/
def recordOf (k : Cause) (lostb : Bool) : Line :=
  let bs := causeBytes k lostb
  ofBytes 256 (bs ++ toBytes 2 (crc16 bs))

/-- A cause is lost: counted, flagged, and the next record carries LOSTB (R493). -/
def Night.lose (n : Night) : Night := { n with lostCnt := satInc n.lostCnt, lost := true, lostb := true }

/-- The row a CLEAR writes next, if it has one left: slots from NEWEST at the CLEAR downward, until one written since (R499). -/
def Night.clearNext (n : Night) : Option Nat :=
  match n.clr with
  | none => none
  | some (from_, since, done) =>
    if 1792 ≤ done + since then none else some ((from_ + 1792 - done) % 1792)

/-- The 32 bytes of a slot; one that is not listed is all zero. -/
def Night.slot (n : Night) (k : Nat) : Line := (alGet n.slots k).getD 0

/-- A slot is valid when its CRC agrees and it is not all zero (R491). -/
def validSlot (d : Line) : Bool :=
  d != 0 && crc16 ((List.range 30).map (lineByte d)) == (lineWord d 30 2).setWidth 16

/-- The slot holds a record that NL_COUNT counts: a valid one, which no CLEAR is on its way to (R495, R499). -/
def Night.counted (n : Night) (k : Nat) : Bool := n.clr.isNone && validSlot (n.slot k)

/-- The NVM writer, when idle, starts the next row in the order of R494. A staged record that a full log with STOP at 1
cannot take is lost when the writer reaches it; a record that is overwritten is gone from the moment its slot's write begins (R495). -/
def Night.kick : Nat → Night → Night
  | 0, n => n
  | fuel + 1, n =>
    if n.cur.isSome then n
    else match n.wantRow0 with
    | some b => { n with cur := some (.row0 b), wantRow0 := none }
    | none =>
      match n.wantLc with
      | some r => { n with cur := some (.lc r), wantLc := none }
      | none =>
        match n.staged with
        | k :: rest =>
          if n.stop && n.count == 1792 then Night.kick fuel { (n.lose) with staged := rest }
          else
            let slot := (n.newest + 1) % 1792
            { n with cur := some (.record slot k.seq (recordOf k n.lostb))
                     lostb := false
                     count := if n.counted slot then n.count - 1 else n.count }
        | [] =>
          match n.wantParam with
          | (r, d) :: rest => { n with cur := some (.param r d), wantParam := rest }
          | [] =>
            match n.clearNext with
            | some slot => { n with cur := some (.clear slot) }
            | none => { n with clr := none }

def State.nvmKick (s : State) : State := { s with night := Night.kick 4 s.night }

/-- The SEQ of the record whose row is being written. -/
def Night.writing (n : Night) : Option Word :=
  match n.cur with
  | some (.record _ q _) => some q
  | _ => none

/-- The staged record that a TAMPER or LIFECYCLE cause replaces: of lowest order, neither of those two itself, and not the one
whose row is being written (R493). -/
def Night.victim (n : Night) : Option Cause :=
  (n.staged.filter fun k => decide (2 ≤ causeRank k.code) && n.writing != some k.seq).foldl
    (fun b k => match b with
      | none => some k
      | some m => if causeRank m.code < causeRank k.code then some k else some m) none

/-- Captures a cause: a free staging slot and the next SEQ, or a replacement, or it is lost (R493). -/
def State.cause (s : State) (code ctx : Byte) (pc : Word) (detail : BitVec 96) : State :=
  let n := s.night
  let status : BitVec 16 := (s.powerCode.setWidth 16) ||| (n.lcState.setWidth 16 <<< 3) |||
    (if s.power.wipePend then 0x20#16 else 0) ||| (n.epoch.setWidth 16 <<< 8)
  let mk (q : Word) : Cause := ⟨q, s.power.vt, code, ctx, pc, status, detail⟩
  let n' :=
    if n.staged.length < 2 then { n with staged := n.staged ++ [mk n.seq], seq := n.seq + 1 }
    else if causeRank code < 2 then
      match n.victim with
      | some v => { n.lose with staged := n.staged.map fun k => if k.seq = v.seq then mk v.seq else k }
      | none => n.lose
    else n.lose
  State.nvmKick { s with night := n' }

/-- The CTX byte of a context: core and context (R99, R491). -/
def ctxByte (c : CoreId) (x : CtxId) : Byte := BitVec.ofNat 8 (16 * c.val + x.val)

/-- Sets or clears the wipe-pending flag and asks for its row-0 write (R505, R506). -/
def State.setWipePend (s : State) (b : Bool) : State :=
  State.nvmKick { s with power := { s.power with wipePend := b }, night := { s.night with wantRow0 := some b } }

end Sys2Proof.Machine
end

