-- ==== Sys2Proof/Machine/Spad.lean ====
section
/-! DEFINITION. The address map, the scratchpad banks and what one bank access does: check bits, the secure region, borrowed
slices, reservations (spec 08; R101 to R103). -/

namespace Sys2Proof.Machine

open Sys2Proof

/-! ## The address map (R34, R63, R78, R262, R276, R290) -/

/-- How a scratchpad address names its word: plainly, or through the bit-set or bit-clear alias (R276). -/
inductive Via where
  | plain | set | clear
  deriving DecidableEq, Repr

/-- What an address reaches. `own`: own local scratchpad through port A (R266). -/
inductive Target where
  | spad (plain : Nat) (via : Via) (own : Bool)
  | pinned (off : Nat)
  | flash
  | fabric (cached : Bool)
  | ctl
  | unmapped
  deriving DecidableEq, Repr

/-- The plain address of byte 0 of Cc's local scratchpad. -/
def localBase (c : CoreId) : Nat := 0x01000000 + c.val * 0x40000

/-- Scratchpad addresses below one alias base `b`: own local at b, all locals at b + 0x0100_0000, shared at b + 0x0200_0000. -/
def spadTarget (c : Option CoreId) (a base : Nat) (via : Via) : Target :=
  let o := a - base
  if o < 0x40000 then
    match c with
    | some c => .spad (localBase c + o) via true
    | none => .unmapped
  else if 0x01000000 ≤ o ∧ o < 0x01400000 then
    .spad o via (match c with | some c => decide ((o - 0x01000000) / 0x40000 = c.val) | none => false)
  else if 0x02000000 ≤ o ∧ o < 0x02800000 then .spad o via false
  else .unmapped

/-- What address `a` reaches from core `c`, or from no core. -/
def target (c : Option CoreId) (a : Word) : Target :=
  let n := a.toNat
  if n < 0x08000000 then spadTarget c n 0 .plain
  else if n < 0x0C000000 then spadTarget c n 0x08000000 .set
  else if n < 0x10000000 then spadTarget c n 0x0C000000 .clear
  else if n < 0x20000000 then .flash
  else if n < 0x28000000 then .fabric true
  else if n < 0x30000000 then .fabric false
  else if n < 0x3F000000 then .ctl
  else if n < 0x3F000400 then .pinned (n - 0x3F000000)
  else .unmapped

/-! ## Banks and slices (R262, R284) -/

def isShared (w : Nat) : Bool := 0x02000000 ≤ w

/-- The secure region by plain address (R277). -/
def isSecure (w : Nat) : Bool := 0x02780000 ≤ w && w < 0x02800000

/-- Bank number of R288. -/
def bankOf (w : Nat) : Nat :=
  if isShared w then 64 + (w - 0x02000000) / 64 % 32 else (w - 0x01000000) / 0x10000

/-- Slice of the bank, and the word's place 0 to 63 in it (R284). -/
def sliceOf (w : Nat) : Nat × Nat :=
  if isShared w then
    let o := w - 0x02000000
    (o / 0x2000, o / 0x800 % 4 * 16 + o / 4 % 16)
  else
    let o := w % 0x10000
    (o / 256, o / 4 % 64)

/-- The plain address of place `i` of slice `k` of bank `b`. -/
def sliceWord (b k i : Nat) : Nat :=
  if 64 ≤ b then 0x02000000 + k * 0x2000 + (b - 64) * 64 + i / 16 * 0x800 + i % 16 * 4
  else 0x01000000 + b * 0x10000 + k * 256 + i * 4

/-- Slices of a bank. -/
def sliceCount (b : Nat) : Nat := if 64 ≤ b then 1024 else 256

/-! ## Bytes (R280, R288) -/

/-- What an unlisted address reads as: 0, as zeroing left it, or a free byte in a bank that a STOP left undefined. -/
def Spad.dflt (m : Spad) (a : Nat) : Byte :=
  match alGet m.undef (bankOf a) with
  | some g => if isSecure a && m.clean.contains (bankOf a) then 0 else Config.freeByte g a
  | none => 0

def Spad.byte (m : Spad) (a : Nat) : Byte := (alGet m.mem a).getD (m.dflt a)

/-- Writes a byte, keeping the canonical form. -/
def Spad.setByte (m : Spad) (a : Nat) (v : Byte) : Spad :=
  { m with mem := if v = m.dflt a then alErase m.mem a else alSet m.mem a v }

/-- Strictly rising keys. -/
def rising : List (Nat × Byte) → Bool
  | [] => true
  | [_] => true
  | a :: b :: l => decide (a.1 < b.1) && rising (b :: l)

/-- The canonical form of the scratchpad's memory. -/
def Spad.wf (m : Spad) : Bool := rising m.mem && m.mem.all fun c => c.2 != m.dflt c.1

/-- The word at a word address of the bank itself. -/
def Spad.word (m : Spad) (w : Nat) : Word := ofBytes 32 ((List.range 4).map fun i => m.byte (w + i))

/-- Bytes of a word, those enabled. -/
def Spad.setBytes (m : Spad) (w : Nat) (v : Word) (be : BitVec 4) : Spad :=
  (List.range 4).foldl (fun m i => if be.getLsbD i then m.setByte (w + i) (bits v (8 * i) 8) else m) m

/-- Every word of the banks that `p` names becomes zero with valid check bits (R278, R280, R282). -/
def Spad.zeroWhere (m : Spad) (p : Nat → Bool) : Spad :=
  { m with mem := m.mem.filter (fun c => !p c.1), corr := m.corr.filter (fun w => !p w),
           bad := m.bad.filter (fun w => !p w), wback := m.wback.filter (fun w => !p w) }

/-- How the check of a stored word turns out: 0 good, 1 a single-bit error, 2 uncorrectable (R265). -/
def Spad.check (m : Spad) (w : Nat) : Nat :=
  if m.bad.contains w then 2
  else if m.corr.contains w then 1
  else match alGet m.undef (bankOf w) with
    | some g => if m.sound.contains w || (isSecure w && m.clean.contains (bankOf w)) then 0 else (Config.freeCheck g w).val
    | none => 0

/-! ## Reservations and copies that a write reaches (R103, R335) -/

/-- Clears every reservation on granule `g` but that of the context named. -/
def State.clearRsv (s : State) (g : Nat) (but : Option (CoreId × CtxId)) : State :=
  s.allCores fun c k => k.allCtx fun x t =>
    if t.rsv = some g ∧ but ≠ some (c, x) then { t with rsv := none } else t

/-- A write of word `w` invalidates the fast-vector copies that hold it (R335). -/
def State.dropVectors (s : State) (w : Nat) : State :=
  if isShared w then s
  else
    let o := (w - 0x01000000) % 0x40000
    s.allCores fun c k =>
      if (w - 0x01000000) / 0x40000 = c.val then
        { k with fvecOk := Vector.ofFn fun i =>
                   k.fvecOk[i] && (k.fvecOffs.toNat * 0x100 + i.val * 0x20) / 0x20 != o / 0x20 }
      else k

/-! ## One bank access -/

/-! ### Bank ports (R266 to R275) -/

/-- Word `w` lies in a local bank of core `c`, which it reaches through port A (R266). -/
def portA (c : CoreId) (w : Nat) : Bool := !isShared w && decide ((w - 0x01000000) / 0x40000 = c.val)

/-- The requesting master that a port grants under item 4 of R268: the first at or after the pointer, wrapping from 19 to 0. -/
def grantFirst (ptr : Fin 20) (l : List (Fin 20)) : Option (Fin 20) :=
  ((List.finRange 20).map fun i => ptr + i).find? fun m => l.contains m

/-- A request of master `m` for word `w` is not granted in the cycle in which it reaches its port (R275, R487). -/
def State.contend (s : State) (m : Fin 20) (w : Nat) : State :=
  let s := if isShared w then s.countB 0x51 else s
  { s with spad := { s.spad with conf := s.spad.conf.set m (satInc s.spad.conf[m]) } }

/-- The port of word `w` grants master `m` under item 4 of R268: its pointer moves on. Rows have no common clock, so whether another request
held the port in the cycle in which this one reached it is free (log 64). A shared bank's grant is counted (R487). -/
def State.granted (s : State) (m : Fin 20) (w : Nat) : State :=
  let b : Fin 96 := ⟨bankOf w % 96, Nat.mod_lt _ (by decide)⟩
  let late := Config.freeBool s.freeCtr
  let k := if isShared w then 1 else 0
  let s := (s.countB 0x51 (if late then k else 0)).countB 0x50 k
  let conf := if late then satInc s.spad.conf[m] else s.spad.conf[m]
  { s with freeCtr := s.freeCtr + 1, spad := { s.spad with conf := s.spad.conf.set m conf, rr := s.spad.rr.set b (m + 1) } }

/-- The bytes that `be` enables. -/
def laneMask (be : BitVec 4) : Word := ofBytes 32 ((List.range 4).map fun j => if be.getLsbD j then 0xFF#8 else 0)

/-- A write reaches a local bank: through port A it is remembered, and one to the same word through port B may have come in the same cycle,
which is free; it is then a collision if a byte that both enable differs (R272, R275). -/
def State.noteWrite (s : State) (w : Nat) (v : Word) (be : BitVec 4) (by_ : Option (CoreId × CtxId)) : State :=
  if isShared w then s
  else
    let c : Fin 16 := ⟨(w - 0x01000000) / 0x40000 % 16, Nat.mod_lt _ (by decide)⟩
    if (by_.map (·.1)) = some c then { s with spad := { s.spad with wrote := s.spad.wrote.set c (some (w, v, be)) } }
    else match s.spad.wrote[c] with
      | some (w', v', be') =>
        if w' = w then
          let differ := (v ^^^ v') &&& laneMask (be &&& be') != 0
          let coll := if Config.freeBool s.freeCtr && differ then satInc s.spad.coll[c] else s.spad.coll[c]
          { s with freeCtr := s.freeCtr + 1, spad := { s.spad with wrote := s.spad.wrote.set c none, coll := s.spad.coll.set c coll } }
        else s
      | none => s

/-! ### Reads and writes -/

/-- The slice in progress holds the word (R285). -/
def State.borrowed (s : State) (w : Nat) : Option (Slice × Nat) :=
  match s.march.slice with
  | some sl => if sl.bank = bankOf w ∧ sl.index = (sliceOf w).1 then some (sl, (sliceOf w).2) else none
  | none => none

/-- The word's bank is under a destroying march run (R283). -/
def State.destroyed (s : State) (w : Nat) : Bool :=
  s.march.busy && s.march.destroying && s.march.banks.contains (bankOf w)

/-- The word as a reader finds it: in the shadow buffer of a borrowed slice, or in the bank. -/
def State.spadData (s : State) (w : Nat) : Word :=
  match s.borrowed w with
  | some (sl, i) => if sl.skip then s.spad.word w else sl.shadow.getD i 0
  | none => s.spad.word w

/-- An uncorrectable word was read: SPAD_EADDR, UNCORR and the scratchpad-error source (R265). -/
def State.spadUncorr (s : State) (w : Nat) : State :=
  { s with spad := { s.spad with uncorr := true, eaddr := BitVec.ofNat 32 w } }.raise 208 (BitVec.ofNat 32 w)

/-- The check of a word as a reader finds it; the shadow buffer holds words that were read good or corrected (R265, R285). -/
def State.wordCheck (s : State) (w : Nat) : Nat :=
  match s.borrowed w with
  | some (sl, _) => if sl.skip then s.spad.check w else 0
  | none => s.spad.check w

/-- The 7 check bits of a word (R264). -/
def spadEcc (d : Word) : BitVec 7 := BitVec.ofNat 7 (eccOf 32 6 d.toNat)

/-- The check bits that a bank holds with word `w`, where they are the code's (R264, R280). -/
def Spad.checkBits (m : Spad) (w : Nat) : Option (BitVec 7) := if m.check w = 0 then some (spadEcc (m.word w)) else none

/-- A checked read of one word: none when it is uncorrectable (R265). -/
def State.spadRead (s : State) (w : Nat) : Option Word × State :=
  match s.wordCheck w with
  | 0 => (some (s.spadData w), s)
  | 1 => (some (s.spadData w),
      { s with spad := { s.spad with ecnt := satInc s.spad.ecnt, wback := addNat s.spad.wback w } })
  | _ => (none, s.spadUncorr w)

/-- The bank's bytes and check bits after a write: a whole word clears every error, a part of a word merges with it; a part of an
uncorrectable word leaves it failing (R264, R265). -/
def Spad.store (m : Spad) (w : Nat) (v : Word) (be : BitVec 4) : Spad :=
  let ck := m.check w
  let m := m.setBytes w v be
  if be = 0 then m
  else if be = 0xF then
    { m with bad := m.bad.filter (· ≠ w), corr := m.corr.filter (· ≠ w), wback := m.wback.filter (· ≠ w),
             sound := addNat m.sound w }
  else if ck = 2 then { m with bad := addNat m.bad w }
  else { m with corr := m.corr.filter (· ≠ w), wback := m.wback.filter (· ≠ w), sound := addNat m.sound w }

/-- A store into the shadow buffer of the slice in progress (R285). -/
def Slice.store (sl : Slice) (i : Nat) (v : Word) (be : BitVec 4) : Slice :=
  { sl with shadow := sl.shadow.set i (mixBits (sl.shadow.getD i 0) v (laneMask be)) }

/-- The read of the word that a sub-word store merges with, or that an alias update changes: checked like any other (R264, R265). -/
def State.mergeRead (s : State) (w : Nat) : State :=
  match s.wordCheck w with
  | 0 => s
  | 1 => { s with spad := { s.spad with ecnt := satInc s.spad.ecnt } }
  | _ => s.spadUncorr w

/-- The enabled bytes of one word are written: into the shadow buffer when the slice is borrowed; reservations on the granule and
fast-vector copies follow (R103, R285, R335). -/
def State.spadSet (s : State) (w : Nat) (v : Word) (be : BitVec 4) (by_ : Option (CoreId × CtxId)) : State :=
  let s := (s.clearRsv (w / 32) by_).dropVectors w
  match s.borrowed w with
  | some (sl, i) =>
    if sl.skip then { s with spad := s.spad.store w v be }
    else { s with march := { s.march with slice := some (sl.store i v be) } }
  | none => { s with spad := s.spad.store w v be }

/-- A write of the enabled bytes of one word by the context named, or by another master. One with no byte enabled changes nothing. -/
def State.spadPut (s : State) (w : Nat) (v : Word) (be : BitVec 4) (by_ : Option (CoreId × CtxId)) : State :=
  if be = 0 then s
  else ((if be = 0xF then s else s.mergeRead w).noteWrite w v be by_).spadSet w v be by_

/-- The word a store leaves when it goes through `via` (R276): x, word OR x, word AND NOT x. -/
def viaWord (via : Via) (old x : Word) : Word :=
  match via with
  | .plain => x
  | .set => old ||| x
  | .clear => old &&& ~~~x

/-- A store through a plain address or an alias. An alias update of an uncorrectable word leaves it failing (R265, R276). -/
def State.spadStore (s : State) (w : Nat) (via : Via) (x : Word) (be : BitVec 4)
    (by_ : Option (CoreId × CtxId)) : State :=
  if via = .plain then s.spadPut w x be by_
  else if be = 0 then s
  else
    let ck := s.wordCheck w
    let s' := (s.mergeRead w).spadSet w (viaWord via (s.spadData w) x) be by_
    if ck = 2 then { s' with spad := { s'.spad with bad := addNat s'.spad.bad w } } else s'

/-- Banks can grant: zeroed since power-up and awake (R280, R281). -/
def State.banksReady (s : State) : Bool := s.spad.initDone && !s.spad.asleep

/-- No bank grants the word to any master yet: the banks are not ready, or a wipe of it is due or running (R278, R279, R281). -/
def State.wordShut (s : State) (w : Nat) : Bool :=
  !s.banksReady || ((s.spad.wiping || s.spad.wipeDue) && isSecure w)

/-- A master other than a context may have the word now: it is not shut, and lies in no borrowed slice whose waiting accesses are not being
served (R285). -/
def State.wordFree (s : State) (w : Nat) : Bool :=
  !s.wordShut w && (match s.borrowed w with | some (sl, _) => sl.window | none => true)

/-- A refused access to the secure region is recorded (R277). -/
def State.secRefuse (s : State) (w : Nat) (master : Fin 20) : State :=
  { s with spad := { s.spad with secErr := true, serrOffs := BitVec.ofNat 23 (w - 0x02000000),
                                 serrMaster := BitVec.ofNat 5 master.val } }

/-- Pulls the words of a bank's slice (R284 step 1). -/
def State.sliceWords (s : State) (b k : Nat) : List Word :=
  (List.range 64).map fun i => s.spad.word (sliceWord b k i)

/-- Restores the shadow buffer to the bank and ends the borrowing: what a master wrote meanwhile reaches the bank here (R284, R285).
No reservation is cleared. -/
def State.sliceRestore (s : State) : State :=
  match s.march.slice with
  | none => s
  | some sl =>
    let m := if sl.skip then s.spad else
      ((List.range 64).zip sl.shadow).foldl
        (fun (m : Spad) iw =>
          let w := sliceWord sl.bank sl.index iw.1
          if m.word w = iw.2 ∧ m.check w = 0 then m else m.store w iw.2 0xF) s.spad
    { s with spad := m, march := { s.march with slice := none } }

end Sys2Proof.Machine
end

