-- ==== Sys2Proof/Machine/Cache.lean ====
section
/-! DEFINITION. The line cache, its victim cache and miss registers, the store buffer, and the queues of the flash port and
the fabric master port behind them (spec 09; R442). -/

namespace Sys2Proof.Machine

open Sys2Proof

/-! ## Addresses -/

/-- The fabric address that a fabric-range address reaches (R290). -/
def State.fabAddr (s : State) (a : Word) : Word := fld s.fabric.win 27 ||| (a &&& 0x07FFFFFF)

/-- The cached form of a fabric-range address (R290, R291). -/
def cachedForm (a : Word) : Word := if 0x28000000 ≤ a.toNat ∧ a.toNat < 0x30000000 then a - 0x08000000 else a

/-- Line number, bits [31:5]. -/
def lineOf (a : Word) : BitVec 27 := bits a 5 27

def lineBase (l : BitVec 27) : Word := fld l 5

/-- The line lies in the flash range, or in the cached fabric range. -/
def isFlashLine (l : BitVec 27) : Bool := 0x1000000 ≤ 2 * l.toNat && 2 * l.toNat < 0x2000000
def isFabLine (l : BitVec 27) : Bool := 0x2000000 ≤ 2 * l.toNat && 2 * l.toNat < 0x2800000

/-! ## The line cache (R291 to R298) -/

def pinned (k : Core) (i : Fin 48) : Bool := i.val < 32 && k.lcPin.getLsbD i.val

/-- The unpinned entry that holds the line. -/
def Core.find (k : Core) (l : BitVec 27) : Option (Fin 48) :=
  (List.finRange 48).find? fun i => !pinned k i && k.lc[i].valid && k.lc[i].line == l

def Core.findVictim (k : Core) (l : BitVec 27) : Option LcEntry := k.victims.find? fun e => e.line == l

/-- The miss register fetching the line that an access may join (R293, R309). -/
def Core.findMiss (k : Core) (l : BitVec 27) : Option (Fin 4) :=
  (List.finRange 4).find? fun i => match k.miss[i] with | some m => m.line == l && !m.snooped | none => false

def Core.freeMiss (k : Core) : Option (Fin 4) := (List.finRange 4).find? fun i => k.miss[i].isNone

/-- The entry an allocation takes: the lowest invalid unpinned one, else the lowest of the highest age (R294). -/
def Core.choose (k : Core) : Fin 48 :=
  match (List.finRange 48).find? (fun i => !pinned k i && !k.lc[i].valid) with
  | some i => i
  | none =>
    ((List.finRange 48).filter fun i => !pinned k i).foldl
      (fun b i => if k.lc[b].age.toNat < k.lc[i].age.toNat then i else b) 47
  -- entry 47 is never pinned; a lower entry of the same age replaces it below

/-- As `choose`, the lowest-numbered among equal ages. -/
def Core.chooseLow (k : Core) : Fin 48 :=
  let b := k.choose
  ((List.finRange 48).find? fun i => !pinned k i && k.lc[i].valid == k.lc[b].valid &&
    k.lc[i].age == k.lc[b].age).getD b

/-- A line leaves for the victim cache: the oldest victim goes when it is full (R294, R298). -/
def Core.evict (k : Core) (e : LcEntry) : Core :=
  if e.valid && k.vcEn then
    { k with victims := (if k.victims.length < 8 then k.victims else k.victims.drop 1) ++ [e] }
  else k

/-- Allocates a line (R294). -/
def Core.alloc (k : Core) (l : BitVec 27) (d : Line) (age : BitVec 2) : Core :=
  let i := k.chooseLow
  let k := k.evict k.lc[i]
  { k with lc := k.lc.set i { valid := true, line := l, age := age, data := d } }

/-- The cache may be looked up and filled (R310, R311). -/
def Core.cacheOn (k : Core) : Bool := k.lcEn && !k.invBusy

/-- One more lookup; every 256th asks for the ages to rise (R295). -/
def Core.lookup (k : Core) : Core :=
  { k with lookups := k.lookups + 1, ageDue := k.ageDue || k.lookups + 1 == 0 }

/-- An entry or a victim that holds the line, and a word of it among `words` whose parity fails: it is invalidated, and PARERR set (R292). -/
def Core.spoil (k : Core) (l : BitVec 27) (words : BitVec 8) : Core :=
  match k.find l with
  | some i =>
    if k.lc[i].badPar &&& words = 0 then k else { k with lc := k.lc.set i { k.lc[i] with valid := false }, parErr := true }
  | none =>
    match k.findVictim l with
    | some e => if e.badPar &&& words = 0 then k else { k with victims := k.victims.filter (fun v => v.line != l), parErr := true }
    | none => k

/-- A hit of an access to `words` of the line, in the line cache or the victim cache, with what it does: the age becomes 0, a victim moves
back. One on a word whose parity fails is a miss (R292, R295, R298). -/
def Core.hit (k : Core) (l : BitVec 27) (words : BitVec 8) : Option (Line × Bool) × Core :=
  if !k.cacheOn then (none, k)
  else
    let k := k.spoil l words
    match k.find l with
    | some i => (some (k.lc[i].data, false), { k with lc := k.lc.set i { k.lc[i] with age := 0 } })
    | none =>
      match k.findVictim l with
      | some e =>
        let i := k.chooseLow
        let old := k.lc[i]
        let vs := k.victims.flatMap fun v => if v.line = l then (if old.valid then [old] else []) else [v]
        (some (e.data, true), { k with lc := k.lc.set i { e with age := 0 }, victims := vs })
      | none => (none, k)

/-- The word of a line in which an aligned access at `a` lies. -/
def wordIn (a : Word) : BitVec 8 := 1#8 <<< (a.toNat / 4 % 8)

/-! ## The store buffer (R303 to R306) -/

/-- What the buffer says of `n` bytes at fabric address `a`: nothing, the bytes, or wait (R305). -/
inductive Forward where
  | none
  | data (w : Word)
  | wait
  deriving DecidableEq, Repr

def byteMask (a : Word) (n : Nat) : BitVec 4 := bits (((1#8 <<< n) - 1) <<< (a.toNat % 4)) 0 4

def Core.forward (k : Core) (fa : Word) (n : Nat) : Forward :=
  let be := byteMask fa n
  match k.sb.reverse.find? (fun e => e.addr == (fa &&& 0xFFFFFFFC) && (e.be &&& be) != 0) with
  | none => .none
  | some e => if e.be &&& be = be then .data (e.data >>> (8 * (fa.toNat % 4)) &&& ((1#32 <<< (8 * n)) - 1)) else .wait

/-- A buffered store lies in the line of fabric address `fa`, for a fetch refill (R305). -/
def Core.lineBuffered (k : Core) (fa : Word) : Bool := k.sb.any fun e => lineOf e.addr == lineOf fa

/-- Bytes of a line written by one store. -/
def patchLine (l : Line) (a d : Word) (be : BitVec 4) : Line :=
  (List.range 4).foldl
    (fun l i => if be.getLsbD i then lineSet l ((a.toNat / 4 * 4 + i) % 32) (bits d (8 * i) 8) else l) l

/-- The core's own copies of the line take the stored bytes (R303, R320). A word written whole has its parity again; the age of an entry
that the store hits becomes 0, as with any hit (R295; DEDUCED, log 67). -/
def Core.updateOwn (k : Core) (a d : Word) (be : BitVec 4) : Core :=
  let l := lineOf a
  let up (e : LcEntry) : LcEntry :=
    if e.valid && e.line == l then
      { e with data := patchLine e.data a d be, badPar := if be = 0xF then e.badPar &&& ~~~wordIn a else e.badPar }
    else e
  let hit (e : LcEntry) : LcEntry := if e.valid && e.line == l then { up e with age := 0 } else e
  { k with lc := Vector.ofFn fun i => if pinned k i then k.lc[i] else hit k.lc[i],
           victims := k.victims.map up }

/-! ## The fabric master port (R304, R306, R442) -/

def FabReq.isWrite (r : FabReq) : Bool := match r.kind with | .write .. => true | _ => false

def fabLine (r : FabReq) : BitVec 27 := lineOf r.addr

/-- Requests that hold a tag. -/
def Fabric.busy (f : Fabric) : List FabReq := f.shown.toList ++ f.out

/-- The first request of core `c` that may be presented: at most 4 tags for the core, and no request of the same line that is
outstanding or earlier with the other direction (R306, R442). A store never passes an earlier store of its core (R304). -/
def Fabric.ready (f : Fabric) (c : CoreId) : Option FabReq :=
  if 4 ≤ (f.busy.filter fun r => r.core = c).length then none
  else
    let rec go (passed : List FabReq) : List FabReq → Option FabReq
      | [] => none
      | r :: rs =>
        if r.core = c ∧ !((f.busy ++ passed).any fun q => fabLine q = fabLine r ∧ q.isWrite != r.isWrite) ∧
            !(r.isWrite && passed.any fun q => q.core == c && q.isWrite) then some r
        else go (r :: passed) rs
    go [] f.queue

/-- The lowest free tag. -/
def Fabric.tag (f : Fabric) : Option (Fin 32) := (List.finRange 32).find? fun t => !(f.busy.any fun r => r.tag = t)

/-- Presents a request when none is presented: round robin over the cores (R442). -/
def Fabric.present (f : Fabric) : Fabric :=
  match f.shown, f.tag with
  | none, some t =>
    match ((List.finRange 16).map fun i => f.rr + i).find? (fun c => (f.ready c).isSome) with
    | some c =>
      match f.ready c with
      | some r => { f with shown := some { r with tag := t }, queue := f.queue.erase r, rr := c + 1 }
      | none => f
    | none => f
  | _, _ => f

def State.fabAsk (s : State) (r : FabReq) : State :=
  { s with fabric := Fabric.present { s.fabric with queue := s.fabric.queue ++ [r] } }

/-! ## The flash queue (R313, R317) -/

/-- A line read joins a waiting or outstanding one for the same line that no snoop has passed; otherwise it queues (R317). -/
def State.flashAsk (s : State) (l : BitVec 27) (who : Requester) : State :=
  let addr : BitVec 26 := bits (lineBase l) 2 26
  let same (r : FlashReq) : Bool := r.cmd == 0 && r.addr == addr && !r.snooped
  let join (r : FlashReq) : FlashReq := { r with users := r.users ++ [who] }
  match (List.finRange 4).find? (fun t => match s.flash.tags[t] with | some r => same r | none => false) with
  | some t =>
    { s with flash := { s.flash with tags := s.flash.tags.set t ((s.flash.tags[t]).map join) } }
  | none =>
    if s.flash.queue.any same then
      { s with flash := { s.flash with queue := s.flash.queue.map fun r => if same r then join r else r } }
    else { s with flash := { s.flash with queue := s.flash.queue ++ [{ cmd := 0, addr := addr, users := [who] }] } }

/-- Asks the port behind a cached line, for a miss register or for a copy. -/
def State.askLine (s : State) (c : CoreId) (l : BitVec 27) (kind : FabKind) : State :=
  if isFlashLine l then s.flashAsk l (match kind with | .fill _ i => .fill c i | _ => .pin c)
  else s.fabAsk { core := c, kind := kind, addr := s.fabAddr (lineBase l) }

/-! ## Misses (R293, R297, R316) -/

/-- A fill that ended in an error: FILLERR and LC_FADDR (R299). -/
def State.fillError (s : State) (c : CoreId) (l : BitVec 27) : State :=
  s.modCore c fun k => { k with fillErr := true, lcFaddr := l }

/-- The next line is prefetched after a demand miss (R297). -/
def State.prefetch (s : State) (c : CoreId) (l : BitVec 27) : State :=
  let k := s.core[c]
  let n := l + 1
  let same := (isFlashLine l && isFlashLine n) || (isFabLine l && isFabLine n)
  let buffered := isFabLine n && k.sb.any fun e => lineOf e.addr == lineOf (s.fabAddr (lineBase n))
  if k.pfEn && k.cacheOn && same && (k.find n).isNone && (k.findVictim n).isNone && !buffered &&
      !((List.finRange 4).any fun i => match k.miss[i] with | some m => m.line == n | none => false) &&
      !(isFlashLine n && !s.flash.pen) then
    match k.freeMiss with
    | some i =>
      ((s.modCore c fun k => { k with miss := k.miss.set i (some { line := n, prefetch := true }) }).askLine c n
        (.fill n i)).countC c 0x1B
    | none => s
  else s

/-- What a lookup of a cached line answers: the line, or the wait it leads to, or a fault code at once. -/
inductive Fill where
  | line (l : Line)
  | wait (w : WaitCause)
  | err (code : Byte)
  deriving DecidableEq, Repr

/-- An access of context `x`, or of debug through the halted core, to words of a cached line (R291 to R293, R297, R311, R316). -/
def State.lineAccess (s : State) (c : CoreId) (x : Option CtxId) (l : BitVec 27) (words : BitVec 8) : Fill × State :=
  let s := (s.modCore c Core.lookup).countN c x 0x16 1
  let r := s.core[c].hit l words
  let s := s.modCore c fun _ => r.2
  match r.1 with
  | some (d, victim) => (.line d, (s.countN c x (if victim then 0x18 else 0x17) 1))
  | none =>
    let k := s.core[c]
    match k.findMiss l with
    | some i =>
      (.wait (.line (lineBase l)),
        (s.modCore c fun k =>
          { k with miss := k.miss.set i ((k.miss[i]).map fun m =>
                     { m with users := m.users ++ x.toList, joined := true, debug := m.debug || x.isNone }) }).countN
          c x (if ((k.miss[i]).map (·.prefetch)).getD false then 0x1C else 0x1A) 1)
    | none =>
      if isFlashLine l && !s.flash.pen then (.err 0x07, s.fillError c l)
      else
        match k.freeMiss with
        | none => (.wait .missReg, s)
        | some i =>
          let m : Miss := { line := l, users := x.toList, debug := x.isNone }
          let s := (s.modCore c fun k => { k with miss := k.miss.set i (some m) }).countN c x 0x19 1
          (.wait (.line (lineBase l)), (s.askLine c l (.fill l i)).prefetch c l)

/-- Bytes of the core's buffered stores laid over a line that arrives. None of them can have been presented at the port while the line's read
was outstanding, so that whatever the buffer still holds for the line is younger than what was read (R306). -/
def State.overlay (s : State) (c : CoreId) (l : BitVec 27) (d : Line) : Line :=
  if isFabLine l then
    s.core[c].sb.foldl (fun d e =>
      if lineOf e.addr == lineOf (s.fabAddr (lineBase l)) then patchLine d e.addr e.data e.be else d) d
  else d

/-- The line at `a` joins the fetch buffer beside the line of the current instruction (R130). -/
def Ctx.buffer (t : Ctx) (a : Word) : Ctx :=
  let cur := t.pc &&& 0xFFFFFFE0
  let keep := if t.fbuf.contains cur && cur != a then [cur] else (t.fbuf.filter (· != a)).take 1
  { t with fbuf := a :: keep, ahead := if t.ahead = some a then none else t.ahead }

/-- A line that a refill asked for ahead has come, as `ok` says. -/
def Ctx.refilled (t : Ctx) (l : BitVec 27) (ok : Bool) : Ctx :=
  match t.ahead with
  | some a => if lineOf (cachedForm a) = l then (if ok then t.buffer a else { t with ahead := none }) else t
  | none => t

/-- Delivers a line or an error to the contexts that wait for it (R294, R299). -/
def Core.serve (k : Core) (l : BitVec 27) (users : List CtxId) (r : Except Byte Line) : Core :=
  users.foldl (fun k x => k.modCtx x fun t =>
    let t := t.refilled l (match r with | .ok _ => true | .error _ => false)
    match t.waitFor with
    | some (.line a) => if lineOf a = l then { t with served := some (.line (lineBase l) r) } else t
    | _ => t) k

def errCode : LineRes → Byte
  | .fabricErr => 0x08
  | _ => 0x07

/-- LINE_FILL_ARRIVAL: the fill of miss register `i` (R294, R296, R299, R306, R309, R311). -/
def State.fillArrival (s : State) (c : CoreId) (i : Fin 4) : State :=
  match s.core[c].miss[i] with
  | none => s
  | some m =>
    match m.got with
    | none => s
    | some (.data d) =>
      let d := s.overlay c m.line d
      s.modCore c fun k =>
        let age : BitVec 2 :=
          if m.prefetch then (if m.joined then 0 else 3)
          else if k.strmEn && k.prevFill == some (m.line - 1) then 3 else 0
        let k := { k with miss := k.miss.set i none }
        let k := k.serve m.line m.users (.ok d)
        let k := if k.cacheOn && !m.snooped then k.alloc m.line d age else k
        { k with prevFill := some m.line }
    | some e =>
      let s := s.modCore c fun k =>
        (({ k with miss := k.miss.set i none } : Core).serve m.line m.users (.error (errCode e)))
      if m.users.isEmpty && !m.debug then s else s.fillError c m.line

/-- What a port read reaches the miss register that asked for it (R309). -/
def Core.fillGot (k : Core) (i : Fin 4) (l : BitVec 27) (r : LineRes) : Core :=
  match k.miss[i] with
  | some m => if m.line = l ∧ m.got.isNone then { k with miss := k.miss.set i (some { m with got := some r }) } else k
  | none => k

/-- What a port read reaches the copy that asked for it (R302). -/
def Core.pinGot (k : Core) (l : BitVec 27) (r : LineRes) : Core :=
  match k.pinld with
  | some p => if p.line = l ∧ p.got.isNone then { k with pinld := some { p with got := some r } } else k
  | none => k

/-! ## Invalidation (R307, R309) -/

/-- A line leaves the caches of a core and marks its miss registers. Pinned slots are not touched. -/
def Core.drop (k : Core) (p : BitVec 27 → Bool) : Core :=
  { k with lc := Vector.ofFn fun i =>
             if !pinned k i && p k.lc[i].line then { k.lc[i] with valid := false } else k.lc[i],
           victims := k.victims.filter fun e => !p e.line,
           miss := Vector.ofFn fun i => (k.miss[i]).map fun m => if p m.line then { m with snooped := true } else m }

/-- The lines that `p` names are invalidated in the cores that `q` names, and queued port requests for them are not joined any more. -/
def State.invalidate (s : State) (q : CoreId → Bool) (p : BitVec 27 → Bool) : State :=
  let s := s.allCores fun c k => if q c then k.drop p else k
  let mark (r : FlashReq) : FlashReq :=
    if r.cmd = 0 ∧ p (lineOf (0x10000000#32 ||| fld r.addr 2)) then { r with snooped := true } else r
  { s with flash := { s.flash with queue := s.flash.queue.map mark,
                                   tags := Vector.ofFn fun t => (s.flash.tags[t]).map mark } }

/-- Every unpinned entry and the victim cache of a core become invalid (R310, R311). -/
def Core.invalAll (k : Core) : Core :=
  { k with lc := Vector.ofFn fun i => if pinned k i then k.lc[i] else { k.lc[i] with valid := false }, victims := [] }

/-- An address in the cached form for a fabric address inside the window FAB_WIN selects (R446). -/
def State.fabToCached (s : State) (fa : Word) : Option Word :=
  if bits fa 27 5 = s.fabric.win then some (0x20000000#32 ||| (fa &&& 0x07FFFFFF)) else none

/-! ## Stores to the fabric ranges (R303) -/

/-- Acceptance of a store: none when the buffer is full. One to the cached range is a lookup (R295). -/
def State.sbStore (s : State) (c : CoreId) (x : CtxId) (a d : Word) (be : BitVec 4) : Option State :=
  let k := s.core[c]
  if 4 ≤ k.sb.length then none
  else
    let e : SbEntry := { id := k.sbNext, addr := s.fabAddr a &&& 0xFFFFFFFC, from_ := a, data := d, be := be, ctx := x }
    let k := k.updateOwn (cachedForm a) d be
    let k := if a.toNat < 0x28000000 then k.lookup else k
    some (s.modCore c fun _ => { k with sb := k.sb ++ [e], sbNext := k.sbNext + 1 })

end Sys2Proof.Machine
end

