-- ==== Sys2Proof/Machine/March.lean ====
section
/-! DEFINITION. The march engine (spec 08, R282 to R288; R153). -/

namespace Sys2Proof.Machine

open Sys2Proof

/-- A core has a counted thread in a state other than IDLE (R153). -/
def Core.countedBusy (k : Core) : Bool :=
  (List.finRange 8).any fun t => k.ctx[thr t].cntd && k.ctx[thr t].st != .idle

/-- Bank `b` is a local bank of a core with such a thread. -/
def State.bankCounted (s : State) (b : Nat) : Bool :=
  if h : b / 4 < 16 then decide (b < 64) && s.core[(⟨b / 4, h⟩ : CoreId)].countedBusy else false

/-- The banks that MARCH_SEL selects, ascending (R288). -/
def March.selected (m : March) : List Nat :=
  (List.range 96).filter fun b => (m.sel[(BitVec.ofNat 2 (b / 32)).toNat % 3]'(by omega)).getLsbD (b % 32)

/-- MARCH_STAT (R289). -/
def March.stat (m : March) : Word :=
  flag m.busy 0 ||| flag m.done 1 ||| flag m.fail 2 ||| flag m.refused 3 ||| fld m.defer 4 ||| flag m.startup 20 |||
  fld m.bank 21

def March.ctlWord (m : March) : Word := flag m.alg 2 ||| flag m.mode 3 ||| fld m.gap 8 ||| flag m.cont 16

def State.modMarch (s : State) (f : March → March) : State := { s with march := f s.march }

/-! ## The algorithms (R282) -/

inductive MarchOp where
  | r0 | r1 | w0 | w1
  deriving DecidableEq, Repr

/-- The word that a read expects. -/
def MarchOp.expects (o : MarchOp) : Option Word :=
  match o with
  | .r0 => some 0
  | .r1 => some 0xFFFFFFFF
  | .w0 => none
  | .w1 => none

/-- The order in which an element takes its words. -/
inductive MarchDir where
  | up | down | either
  deriving DecidableEq, Repr

/-- March C-, or March SS where `ss`. -/
def marchElements (ss : Bool) : List (MarchDir × List MarchOp) :=
  let one : List MarchOp := if ss then [.r0, .r0, .w0, .r0, .w1] else [.r0, .w1]
  let zero : List MarchOp := if ss then [.r1, .r1, .w1, .r1, .w0] else [.r1, .w0]
  [(.either, [.w0]), (.up, one), (.up, zero), (.down, one), (.down, zero), (.either, [.r0])]

/-- Reads of element `e`, given as word, operation and the value read, that do not match, in the order of the element. -/
def misread (ss : Bool) (e : Nat) (got : List (Nat × Nat × Word)) : List Nat :=
  match (marchElements ss)[e]? with
  | none => []
  | some (dir, ops) =>
    let bad := got.filter fun r => match (ops[r.2.1]?).bind MarchOp.expects with | some v => v != r.2.2 | none => false
    let sorted := match dir with
      | .up => bad.mergeSort fun a b => a.1 < b.1 || (a.1 == b.1 && a.2.1 ≤ b.2.1)
      | .down => bad.mergeSort fun a b => b.1 < a.1 || (a.1 == b.1 && a.2.1 ≤ b.2.1)
      | .either => bad
    sorted.map (·.1)

/-! ## Failures (R288) -/

/-- A failing read of word `w`. -/
def State.marchFail (s : State) (w : Nat) : State :=
  let b := bankOf w
  let i : Fin 3 := ⟨b / 32 % 3, by omega⟩
  let a : Word := BitVec.ofNat 32 w
  let s := s.modMarch fun m =>
    { m with fail := true, failed := m.failed.set i (m.failed[i] ||| (1#32 <<< (b % 32))),
             fails := satInc m.fails, faddr := if m.faddrSet then m.faddr else a, faddrSet := true }
  s.raise 208 s.march.faddr

/-! ## Slices (R284 to R287) -/

/-- The engine borrows slice `k` of bank `b` and begins to save it (R284). -/
def State.borrow (s : State) (b k : Nat) : State :=
  let words := s.sliceWords b k
  s.modMarch fun m => { m with bank := BitVec.ofNat 7 b, slice := some { bank := b, index := k, shadow := words, phase := 0 } }

/-- The next slice of a preserving run: banks ascending, those of cores with a counted thread deferred behind the others. Nothing begins
where every bank left is deferred (R284, R287). -/
def State.nextSlice (s : State) : State :=
  let away := s.march.banks.takeWhile s.bankCounted
  let rest := s.march.banks.dropWhile s.bankCounted
  let s := s.modMarch fun m => { m with defer := away.foldl (fun d b => d ||| (1#16 <<< (b / 4))) m.defer }
  match rest with
  | [] => s
  | b :: _ =>
    match (if away.isEmpty && !s.march.slices.isEmpty then s.march.slices else List.range (sliceCount b)) with
    | k :: ks =>
      (s.modMarch fun m =>
        { m with banks := rest ++ away, slices := ks, defer := if b < 64 then m.defer &&& ~~~(1#16 <<< (b / 4)) else m.defer }).borrow b k
    | [] => s

/-- The slice in progress is over: the bank leaves the list with its last slice, and a STOP ends the run. -/
def State.sliceLeft (s : State) : State :=
  s.modMarch fun m =>
    if m.stopping then { m with banks := [], slices := [] } else if m.slices.isEmpty then { m with banks := m.banks.drop 1 } else m

/-- The words of the slice are read into the shadow buffer: single-bit errors are counted, uncorrectable ones recorded (R265, R284). With the
uncorrectable words. -/
def State.saveSlice (s : State) (sl : Slice) : State × List Nat :=
  let ws := (List.range 64).map fun i => sliceWord sl.bank sl.index i
  let n := (ws.filter fun w => s.spad.check w == 1).length
  let bad := ws.filter fun w => s.spad.check w == 2
  let s := { s with spad := { s.spad with ecnt := satAdd s.spad.ecnt n } }
  (match bad.getLast? with
   | some w => { s with spad := { s.spad with uncorr := true, eaddr := BitVec.ofNat 32 w } }
   | none => s, bad)

/-- An access by context F aborts the borrowed slice: it is restored, and tested again after the last slice of its bank, at
most four times. F's access is made to the bank before the engine borrows again (R286). -/
def State.sliceAbort (s : State) : State :=
  match s.march.slice with
  | none => s
  | some sl =>
    let cnt := ((s.march.aborts.find? fun a => a.1 = sl.bank ∧ a.2.1 = sl.index).map (·.2.2)).getD 0 + 1
    let s := (if sl.phase = 0 then s.modMarch fun m => { m with slice := none } else s.sliceRestore).countB 0x54
    let s := s.modMarch fun m =>
      { m with aborts := (sl.bank, sl.index, cnt) :: m.aborts.filter (fun a => !(a.1 = sl.bank ∧ a.2.1 = sl.index)),
               slices := if cnt < 4 then m.slices ++ [sl.index] else m.slices,
               skip := if cnt < 4 then m.skip else satInc m.skip }
    s.sliceLeft

/-! ## Runs (R287, R288) -/

/-- A destroying run writes every word of its banks: reservations there and fast-vector copies of local banks go (R103, R283, R335). -/
def State.bankWrites (s : State) (banks : List Nat) : State :=
  s.allCores fun c k =>
    let k := if banks.any fun b => b / 4 == c.val && b < 64 then { k with fvecOk := Vector.replicate 8 false } else k
    k.allCtx fun _ t =>
      match t.rsv with
      | some g => if banks.contains (bankOf (32 * g)) then { t with rsv := none } else t
      | none => t

/-- A run begins on `banks`. -/
def State.marchRun (s : State) (banks : List Nat) (ss destroying : Bool) : State :=
  let s := s.modMarch fun m =>
    { m with busy := true, startup := false, destroying := destroying, runAlg := ss, runBanks := banks, banks := banks, slices := [],
             aborts := [], stopping := false, slice := none, elem := 0, defer := 0 }
  if destroying then s.bankWrites banks else s.nextSlice

/-- A START on the selected banks, with the ALG and MODE then in MARCH_CTL. -/
def State.marchStart (s : State) : State :=
  let m := s.march
  if m.busy || (m.mode && m.selected.any s.bankCounted) then s.modMarch fun m => { m with refused := true }
  else s.marchRun m.selected m.alg m.mode

/-- A STOP: a preserving run ends after the current slice; a destroying run at once, its banks left undefined. -/
def State.marchStop (s : State) : State :=
  if !s.march.busy then s
  else if s.march.destroying then
    let banks := s.march.banks
    let g := s.spad.stops + 1
    let inBanks (a : Nat) : Bool := banks.contains (bankOf a)
    let sp := { s.spad with
      stops := g, undef := banks.foldl (fun l b => alSet l b g) s.spad.undef,
      clean := s.spad.clean.filter (fun b => !banks.contains b),
      mem := s.spad.mem.filter (fun c => !inBanks c.1), corr := s.spad.corr.filter (fun w => !inBanks w),
      bad := s.spad.bad.filter (fun w => !inBanks w), wback := s.spad.wback.filter (fun w => !inBanks w),
      sound := s.spad.sound.filter fun w => !inBanks w }
    { s with spad := sp, march := { s.march with banks := [], stopping := true } }
  else
    let s := s.modMarch fun m => { m with stopping := true, defer := 0 }
    if s.march.slice.isNone then s.modMarch fun m => { m with banks := [], slices := [] } else s

/-- A write of MARCH_CTL (R288, R289). -/
def State.marchCtl (s : State) (v : Word) : State :=
  let s := s.modMarch fun m => { m with alg := v.getLsbD 2, mode := v.getLsbD 3, gap := bits v 8 8, cont := v.getLsbD 16 }
  match (bits v 0 2).toNat with
  | 1 => s.marchStart
  | 2 => s.marchStop
  | _ => s

/-- The run ends (R282, R288): a destroying one leaves its banks zero. CONT starts a preserving run again, as it began. -/
def State.marchEnd (s : State) : State :=
  let banks := s.march.banks
  let again := s.march.cont && !s.march.destroying && !s.march.stopping
  let s := if s.march.destroying then
      { s with spad := { (s.spad.zeroWhere fun a => banks.contains (bankOf a)) with
                         undef := s.spad.undef.filter (fun b => !banks.contains b.1) } }
    else s
  let s := s.modMarch fun m =>
    { m with busy := false, done := true, banks := [], slices := [], slice := none, stopping := false, destroying := false, defer := 0 }
  let s := s.raise 209 s.march.stat
  if again then s.marchRun s.march.runBanks s.march.runAlg false else s

/-- Whether MARCH_RUN_END can come: a destroying run that has ended its six elements or was stopped, or a preserving one with no bank left.
The engine pauses while a wipe runs (R270). -/
def State.marchMayEnd (s : State) : Bool :=
  s.march.busy && !s.spad.wiping &&
    (if s.march.destroying then s.march.stopping || s.march.elem == 6 else s.march.banks.isEmpty && s.march.slice.isNone)

/-! ## Accesses that wait for a borrowed slice (R285) -/

/-- Contexts that wait on the borrowed slice may issue again now. -/
def State.serveSlice (s : State) : State :=
  let mine (a : Word) (c : CoreId) : Bool :=
    match target (some c) a with
    | .spad w _ _ => (s.borrowed (w / 4 * 4)).isSome
    | _ => false
  s.allCores fun c k => k.allCtx fun _ t =>
    match t.waitFor with
    | some (.slice a) => if mine a c then { t with served := some .slice } else t
    | _ => t

/-- Master 16 may have the row at `a` now: it is free, or it waited when the last element ended. -/
def State.rowFree (s : State) (a : Nat) : Bool :=
  s.wordFree a || (!s.wordShut a && (match s.borrowed a with | some (sl, _) => sl.serves16 | none => false))

/-- Master 16 has had the row at `a`, or waits for it. -/
def State.rowAsked (s : State) (a : Nat) (had : Bool) : State :=
  match s.borrowed a with
  | some _ => s.modMarch fun m => { m with slice := m.slice.map fun x => { x with asks16 := !had, serves16 := false } }
  | none => s

end Sys2Proof.Machine
end

