-- ==== Sys2Proof/Machine/Access.lean ====
section
/-! DEFINITION. What an instruction's access can end in, the address checks in the order of R84, and a context's accesses to the
scratchpads (R35, R50, R61, R79, R148, R277, R283, R285). -/

namespace Sys2Proof.Machine

open Sys2Proof

/-! ## Results -/

/-- How a piece of an instruction ends. `fault`: a precise fault, with its FCODE and THR_FADDR (R83). `dfault`: a double fault
(R53). `wait`: it cannot go on yet, for the cause given; the access is registered in the state (R135, R137). `hold`: it cannot
issue now, and nothing says when (a stall inside the decode stage). -/
inductive Res (α : Type) where
  | ok (v : α) (s : State)
  | fault (s : State) (code : Byte) (faddr : Word)
  | dfault (s : State) (code : Byte) (faddr : Word)
  | wait (s : State) (w : WaitCause)
  | hold (s : State)

def Res.bind {α β : Type} (r : Res α) (f : α → State → Res β) : Res β :=
  match r with
  | .ok v s => f v s
  | .fault s c a => .fault s c a
  | .dfault s c a => .dfault s c a
  | .wait s w => .wait s w
  | .hold s => .hold s

/-- The same result with its state changed where the instruction does not complete. -/
def Res.onStop {α : Type} (r : Res α) (f : State → State) : Res α :=
  match r with
  | .ok v s => .ok v s
  | .fault s c a => .fault (f s) c a
  | .dfault s c a => .dfault (f s) c a
  | .wait s w => .wait (f s) w
  | .hold s => .hold (f s)

/-! ## Fault codes (R56, R82) -/

def fcIllegal : Byte := 0x01
def fcPriv : Byte := 0x02
def fcAlign : Byte := 0x03
def fcUnmapped : Byte := 0x04
def fcRdonly : Byte := 0x05
def fcEcc : Byte := 0x06
def fcFlash : Byte := 0x07
def fcFabric : Byte := 0x08
def fcCounted : Byte := 0x09
def fcPinOwn : Byte := 0x0A
def fcRsvRange : Byte := 0x0B
def fcRange : Byte := 0x0C
def fcUserOp : Byte := 0x0D
def fcBkpt : Byte := 0x0E
def fcDivZero : Byte := 0x0F
def fcFrameOver : Byte := 0x10
def fcFrameUnder : Byte := 0x11
def fcSpillArea : Byte := 0x12
def fcFillEmpty : Byte := 0x13
def fcRstkUnder : Byte := 0x14
def fcFStack : Byte := 0x15
def fcSpillAccess : Byte := 0x16
def fcFillAccess : Byte := 0x17

/-! ## Checks (R84, items 4 and 5) -/

/-- A context that runs in counted mode now: T0 to T7 only, and until a pending change takes effect the old value (R154). -/
def Ctx.counted (t : Ctx) : Bool := t.cntd

/-- Addresses that a counted thread may reach with data accesses (R148). -/
def countedData (g : Target) (claim : Bool) : Bool :=
  match g with
  | .spad _ via own => own && (!claim || via == .plain)
  | .pinned _ => !claim
  | _ => false

/-- Privilege 0b11. -/
def isSecPriv (p : BitVec 2) : Bool := p == 3

/-- The access checks of a load, store or CLAIM of `n` bytes, up to the kind of target: ALIGN, COUNTED_RANGE, PRIV of the secure
region, UNMAPPED, RSV_RANGE, RDONLY. Registers of the control region check privilege themselves (R34, R63). -/
def State.checkData (s : State) (c : CoreId) (t : Ctx) (a : Word) (n : Nat) (store claim : Bool) : Option Byte :=
  let g := target (some c) a
  let aligned := a.toNat % n = 0
  let sub := n < 4 && store && g == .ctl
  let secure := match g with | .spad w _ _ => isSecure w | _ => false
  let gone := match g with | .unmapped => true | .spad w _ _ => s.destroyed (w / 4 * 4) | _ => false
  let rsvOk := match g with | .spad _ .plain _ => true | _ => false
  if !aligned || sub then some fcAlign
  else if t.counted && !countedData g claim then some fcCounted
  else if secure && !isSecPriv t.priv then some fcPriv
  else if claim && (g == .ctl && t.priv == 0) then some fcPriv
  else if gone then some fcUnmapped
  else if claim && !rsvOk then some fcRsvRange
  else if store && g == .flash then some fcRdonly
  else none

/-- SPAD_SECERR for a core access refused in the secure region (R277). -/
def State.noteSecure (s : State) (c : CoreId) (a : Word) (code : Byte) : State :=
  match target (some c) a with
  | .spad w _ _ => if isSecure w && code == fcPriv then s.secRefuse w ⟨c.val, by omega⟩ else s
  | _ => s

/-! ## The scratchpad for a context -/

/-- The number of a core as a master (R267). -/
def coreMaster (c : CoreId) : Fin 20 := c.castLE (by omega)

/-- Whether a word can be reached now: banks ready, no wipe of it, and no borrowed slice in the way. Context F aborts the slice
(R278, R281, R285, R286). An access through the core's own port A is never arbitrated (R266, R267). -/
def State.spadGate (s : State) (c : CoreId) (x : CtxId) (a : Word) (w : Nat) : Res Unit :=
  let own := portA c w
  let held (s : State) : State := if own then s else s.contend (coreMaster c) w
  let go (s : State) : Res Unit := .ok () (if own then s else s.granted (coreMaster c) w)
  if s.wordShut w then .wait (held s) (.bank a)
  else if (s.borrowed w).isSome then
    if x = fCtx then go s.sliceAbort
    else if (s.ctx c x).served = some .slice then go s
    else .wait (held (s.countC c 0x23)) (.slice a)
  else go s

/-- A checked read of the word at plain word address `w`; an uncorrectable one faults with ECC at `a` (R265). -/
def State.ctxRead (s : State) (c : CoreId) (x : CtxId) (a : Word) (w : Nat) : Res Word :=
  (s.spadGate c x a w).bind fun _ s =>
    match s.spadRead w with
    | (some v, s) => .ok v s
    | (none, s) => .fault s fcEcc a

/-- A write of the enabled bytes of the word at `w` (R103, R265, R276). -/
def State.ctxWrite (s : State) (c : CoreId) (x : CtxId) (a : Word) (w : Nat) (via : Via) (v : Word) (be : BitVec 4) :
    Res Unit :=
  (s.spadGate c x a w).bind fun _ s => .ok () (s.spadStore w via v be (some (c, x)))

/-! ## Code that changes under the pipeline (R144, R146, R147) -/

/-- Bytes of a written range lie in a line. -/
def touches (line : Word) (a : Word) (n : Nat) : Bool := line.toNat < a.toNat + n && a.toNat < line.toNat + 32

/-- The plain name of a scratchpad address, so that an alias and its plain address name one place. -/
def plainOf (c : CoreId) (a : Word) : Word :=
  match target (some c) a with
  | .spad w _ _ => BitVec.ofNat 32 w
  | .fabric _ => cachedForm a
  | _ => a

/-- BTB entries whose branch address or 16 bytes cover a written byte go (R144, R146). The spec does not say how many bytes the branch
address covers: 6, the length of the longest instruction, are taken from it (DESIGN CHOICE, log 48). -/
def Core.btbDrop (k : Core) (c : CoreId) (a : Word) (n : Nat) : Core :=
  let hit (p : Word) (len : Nat) : Bool := (plainOf c p).toNat < a.toNat + n && a.toNat < (plainOf c p).toNat + len
  { k with btb := k.btb.filter fun e => !(hit e.branch 6 || hit e.target 16) }

/-- The decoder loses the 16 bytes that it has from a BTB entry when one of them is written (R144, R146). -/
def Ctx.btbLose (t : Ctx) (c : CoreId) (a : Word) (n : Nat) : Ctx :=
  match t.btbAt with
  | some p => if (plainOf c p).toNat < a.toNat + n && a.toNat < (plainOf c p).toNat + 16 then { t with btbAt := none } else t
  | none => t

/-- A refill under way of a line that is written is not awaited any more. -/
def Ctx.aheadLose (t : Ctx) (c : CoreId) (a : Word) (n : Nat) : Ctx :=
  match t.ahead with
  | some l => if touches (plainOf c l) a n then { t with ahead := none } else t
  | none => t

/-- A write of `n` bytes at plain address `a` reaches the fetch buffers and BTB of core `c` (R146, R147); a context's own write
empties its whole buffer (R144). -/
def State.fetchInval (s : State) (c : CoreId) (a : Word) (n : Nat) (own : Option CtxId) : State :=
  s.modCore c fun k =>
    (k.allCtx fun x t =>
      if own = some x then
        (if t.fbuf.any fun l => touches (plainOf c l) a n then { t with fbuf := [] } else t).btbLose c a n |>.aheadLose c a n
      else ({ t with fbuf := t.fbuf.filter fun l => !touches (plainOf c l) a n } : Ctx).btbLose c a n |>.aheadLose c a n).btbDrop c a n

/-- The bytes written, by a context, into its own and the others' view of code (R144). -/
def State.ownCode (s : State) (c : CoreId) (x : CtxId) (a : Word) (n : Nat) : State :=
  let hit := (s.ctx c x).fbuf.any fun l => touches (plainOf c l) (plainOf c a) n
  let s := s.fetchInval c (plainOf c a) n (some x)
  if hit then s.count c x 0x12 else s

end Sys2Proof.Machine
end

