-- ==== Sys2Proof/Machine/Stack.lean ====
section
/-! DEFINITION. The stack caches: cells, frames and return entries, and their spill and fill (spec 02, R39 to R53; R88, R91,
R134). -/

namespace Sys2Proof.Machine

open Sys2Proof

/-! ## The current frame (R39, R67) -/

/-- The window of the current frame. -/
def Ctx.win (t : Ctx) : Fin 8 := ⟨t.frame % 8, by omega⟩

/-- Depth of the current frame; 9 to 15 after a tag write (R509). -/
def Ctx.depth (t : Ctx) : Nat := t.wtag[t.win].depth.toNat

/-- The physical entry that place `i` of window `w` names. -/
def entryOf (w : Fin 8) (i : Nat) : Fin 64 := ⟨8 * w.val + i % 8, by omega⟩

/-- The entry `i` places below the top. -/
def Ctx.topEntry (t : Ctx) (i : Nat) : Fin 64 := entryOf t.win (t.depth + 7 - i)

/-- What a data-stack entry reads as: in F16 mode its bits [31:16] are 0 (R62). -/
def Ctx.entry (t : Ctx) (e : Fin 64) : Word := if t.f16 then t.dstk[e] &&& 0xFFFF else t.dstk[e]

/-- The cell `i` places below the top. -/
def Ctx.cell (t : Ctx) (i : Nat) : Word := t.dstk[t.topEntry i]

/-- Writes cells upward from place `i` of window `w`. -/
def Ctx.putCells (t : Ctx) (w : Fin 8) (i : Nat) : List Word → Ctx
  | [] => t
  | v :: l => ({ t with dstk := t.dstk.set (entryOf w i) v } : Ctx).putCells w (i + 1) l

/-- A window's tag after a change of its cells or depth: dirty (R45). -/
def Ctx.setDepth (t : Ctx) (w : Fin 8) (d : Nat) : Ctx :=
  { t with wtag := t.wtag.set w { depth := BitVec.ofNat 4 d, live := true, dirty := true } }

/-- Replaces the top `pops` cells by `vs`, lowest first. -/
def Ctx.replace (t : Ctx) (pops : Nat) (vs : List Word) : Ctx :=
  if pops = 0 ∧ vs.isEmpty then t
  else (t.putCells t.win (t.depth - pops) vs).setDepth t.win (t.depth - pops + vs.length)

/-! ## The scoreboard (R88, R134, R135) -/

/-- The outstanding long operation whose result goes to entry `e`. -/
def Ctx.pendingOp (t : Ctx) (e : Fin 64) : Option LongOp := t.longs.find? fun o => o.dest.contains e

def LongKind.multiply (k : LongKind) : Bool := k == .mulw || k == .mulwu

/-- A wait for the result of long operation `o` (R135): a multiply stalls, LDF switches, and so does a division behind others. How far
the division in the divider has come is time, which the model does not have: whether its rest is above 3 core cycles is a free value
(log 47). -/
def State.longWait {α : Type} (s : State) (c : CoreId) (x : CtxId) (o : LongOp) (w : WaitCause) : Res α :=
  if o.kind.multiply then .hold s
  else if o.kind ≠ .ldf ∧ s.core[c].divq.head? = some x then
    let s' := { s with freeCtr := s.freeCtr + 1 }
    if Config.freeBool s.freeCtr then .wait s' w else .hold s'
  else .wait s w

/-- An instruction that needs pending entry `e` waits (R135). -/
def State.pendingWait {α : Type} (s : State) (c : CoreId) (x : CtxId) (e : Fin 64) : Res α :=
  match (s.ctx c x).pendingOp e with
  | some o => s.longWait c x o (.cell e)
  | none => .wait s (.cell e)

/-- Goes on when none of the entries is pending. -/
def State.ready (s : State) (c : CoreId) (x : CtxId) (es : List (Fin 64)) : Res Unit :=
  match es.find? fun e => (s.ctx c x).dpend[e] with
  | some e => s.pendingWait c x e
  | none => .ok () s

/-- The entries that `pushes` new cells above all but the top `pops` take. -/
def Ctx.newEntries (t : Ctx) (pops pushes : Nat) : List (Fin 64) := (List.range pushes).map fun i => entryOf t.win (t.depth - pops + i)

/-- The checks of an instruction whose stack effect needs `need` cells, touches those `touch` places below the top, pops `pops` and
pushes `pushes`: no cell it touches or overwrites is pending (R39, R88, R91, R509). -/
def State.need (s : State) (c : CoreId) (x : CtxId) (need : Nat) (touch : List Nat) (pops pushes : Nat) : Res Unit :=
  let t := s.ctx c x
  if 8 < t.depth then .fault s fcFrameOver 0
  else if t.depth < need then .fault s fcFrameUnder 0
  else if 8 < t.depth - pops + pushes then .fault s fcFrameOver 0
  else s.ready c x (touch.map t.topEntry ++ t.newEntries pops pushes)

/-- `need` for an instruction that touches exactly what it pops. -/
def State.needPops (s : State) (c : CoreId) (x : CtxId) (pops pushes : Nat) : Res Unit :=
  s.need c x pops (List.range pops) pops pushes

def State.replace (s : State) (c : CoreId) (x : CtxId) (pops : Nat) (vs : List Word) : State :=
  s.modCtx c x fun t => t.replace pops vs

/-- An instruction that is nothing but a stack effect: the new cells are computed from the cells by their place below the top. -/
def State.stackOp (s : State) (c : CoreId) (x : CtxId) (need : Nat) (touch : List Nat) (pops : Nat)
    (vs : (Nat → Word) → List Word) : Res (Option Word) :=
  let out := vs (s.ctx c x).cell
  (s.need c x need touch pops out.length).bind fun _ s => .ok none (s.replace c x pops out)

/-! ## Spill and fill words (R50, R51, R53, R61) -/

/-- Why a spill or fill word at `a` is refused: PRIV where the context may not reach the secure region there, another code outside the
scratchpads, outside the counted range, and in a bank under a destroying run. -/
def State.spillRefused (s : State) (c : CoreId) (x : CtxId) (a : Word) : Option Byte :=
  let t := s.ctx c x
  match target (some c) a with
  | .spad w .plain own =>
    if t.counted && !own then some fcCounted
    else if isSecure w && !isSecPriv t.priv then some fcPriv
    else if s.destroyed (w / 4 * 4) then some fcUnmapped else none
  | _ => some fcUnmapped

def spillPlain (c : CoreId) (a : Word) : Nat :=
  match target (some c) a with
  | .spad w _ _ => w / 4 * 4
  | _ => 0

/-- The first reason for which one of the words must wait (R278, R281, R285). -/
def State.spillWait (s : State) (c : CoreId) (x : CtxId) : List Word → Option WaitCause
  | [] => none
  | a :: l =>
    if (s.spillRefused c x a).isSome then none
    else match s.spadGate c x a (spillPlain c a) with
      | .wait _ w => some w
      | _ => s.spillWait c x l

/-- The spill or fill routine `k` begins, or begins again (R51). -/
def Ctx.beginSpill (k : Fin 4) (t : Ctx) : Ctx := { t with moved := some (t.moved.getD []), spillKind := k }

/-- A word of the routine is done: it joins the words done so far. -/
def Ctx.spilled (t : Ctx) (v : Word) : Ctx := { t with moved := t.moved.map (· ++ [v]), seen := t.seen + 1 }

/-- A word that the routine had done before a micro-trap took it: it is passed over (R51). -/
def Ctx.doneWord (t : Ctx) : Option Word := (t.moved.getD [])[t.seen]?

/-- One word of a spill or fill at address `a`: passed over where it was done before a micro-trap; else refused as a double fault of
`code`, waited for, or done by `act` (R51, R53). -/
def State.spillStep (s : State) (c : CoreId) (x : CtxId) (code : Byte) (a : Word) (act : State → Res Word) : Res Word :=
  match (s.ctx c x).doneWord with
  | some v => .ok v (s.modCtx c x fun t => { t with seen := t.seen + 1 })
  | none =>
    match s.spillRefused c x a with
    | some why => .dfault (s.noteSecure c a why) code a
    | none =>
      (s.spadGate c x a (spillPlain c a)).bind fun _ s =>
        (act s).bind fun v s => .ok v (s.modCtx c x fun t => t.spilled v)

/-- Writes spill words in turn; what was written before a refused one stays (R53). They are data accesses of the context (R127), so its
own code follows them (R144). -/
def State.spillWrite (s : State) (c : CoreId) (x : CtxId) : List (Word × Word) → Res Unit
  | [] => .ok () s
  | (a, v) :: l =>
    (s.spillStep c x fcSpillAccess a fun s => .ok v ((s.spadPut (spillPlain c a) v 0xF (some (c, x))).ownCode c x a 4)).bind fun _ s =>
      State.spillWrite s c x l

/-- Reads fill words in turn; one that `good` refuses, or that is uncorrectable, is a double fault there (R53, R265). -/
def State.fillRead (s : State) (c : CoreId) (x : CtxId) : List (Word × (Word → Bool)) → Res (List Word)
  | [] => .ok [] s
  | (a, good) :: l =>
    (s.spillStep c x fcFillAccess a fun s =>
      match s.spadRead (spillPlain c a) with
      | (none, s) => .dfault s fcFillAccess a
      | (some v, s) => if good v then .ok v s else .dfault s fcFillAccess a).bind fun v s =>
        (State.fillRead s c x l).bind fun vs s => .ok (v :: vs) s

def wordsFrom (a : Word) (n : Nat) : List Word := (List.range n).map fun i => a + BitVec.ofNat 32 (4 * i)

/-- Writes a spill record at `a`. -/
def State.spillRecord (s : State) (c : CoreId) (x : CtxId) (k : Fin 4) (a : Word) (vs : List Word) : Res Unit :=
  (s.modCtx c x (Ctx.beginSpill k)).spillWrite c x ((wordsFrom a vs.length).zip vs)

/-- Reads a record of `n` words at `a`, the first of which `head` must accept. -/
def State.fillRecord (s : State) (c : CoreId) (x : CtxId) (k : Fin 4) (a : Word) (n : Nat) (head : Word → Bool) : Res (List Word) :=
  (s.modCtx c x (Ctx.beginSpill k)).fillRead c x
    ((wordsFrom a n).mapIdx fun i b => (b, fun v => i != 0 || head v))

/-! ## Data windows (R40 to R42, R46 to R48) -/

def winEntries (w : Fin 8) : List (Fin 64) := (List.range 8).map (entryOf w)

/-- Word 0 of a data record (R47). -/
def recordHead (depth : BitVec 4) : Word := 0x57AC0000#32 ||| fld depth 0

/-- Spills window `w` (R46 to R48). -/
def State.spillWindow (s : State) (c : CoreId) (x : CtxId) (w : Fin 8) : Res Unit :=
  let t := s.ctx c x
  if t.roff.toNat < t.doff.toNat + 36 then .fault s fcSpillArea 0
  else (s.ready c x (winEntries w)).bind fun _ s =>
    let done (s : State) : State := s.modCtx c x fun t => { t with doff := t.doff + 36 }
    if t.wtag[w].dirty then
      let vs := recordHead t.wtag[w].depth :: (winEntries w).map t.entry
      (s.spillRecord c x 0 (t.spillp + t.doff.setWidth 32) vs).bind fun _ s => .ok () ((done s).count c x 0x2B)
    else .ok () ((done s).count c x 0x2C)

/-- A word 0 that a fill accepts (R47, R53). -/
def headGood (h : Word) : Bool := (bits h 16 16 : BitVec 16) == 0x57AC && decide ((bits h 0 4 : BitVec 4).toNat ≤ 8)

/-- Fills window `w` from the newest record (R48, R53). -/
def State.fillWindow (s : State) (c : CoreId) (x : CtxId) (w : Fin 8) : Res Unit :=
  let t := s.ctx c x
  if t.doff = 0 then .fault s fcFillEmpty 0
  else
    let a := t.spillp + (t.doff - 36).setWidth 32
    (s.fillRecord c x 1 a 9 headGood).bind fun vs s =>
      let s := s.modCtx c x fun t =>
        let t := t.putCells w 0 vs.tail
        { t with doff := t.doff - 36, wtag := t.wtag.set w { depth := bits (vs.headD 0) 0 4, live := true, dirty := false } }
      .ok () (s.count c x 0x2D)

/-- ENTER (R40, R55); bank F never spills, so a live window that it would need is F_STACK too (R56). -/
def State.enter (s : State) (c : CoreId) (x : CtxId) : Res (Option Word) :=
  let t := s.ctx c x
  (s.need c x 2 [0, 1] 2 0).bind fun _ s =>
    let w : Fin 8 := ⟨(t.frame + 1) % 8, by omega⟩
    if x = fCtx ∧ (1 ≤ t.frame ∨ t.wtag[w].live) then .fault s fcFStack 0
    else
      (s.ready c x [entryOf w 0, entryOf w 1]).bind fun _ s =>
      (if t.wtag[w].live then s.spillWindow c x w else .ok () s).bind fun _ s =>
        .ok none (s.modCtx c x fun t =>
          let t := t.setDepth t.win (t.depth - 2)
          let t := (t.putCells w 0 [(s.ctx c x).cell 1, (s.ctx c x).cell 0]).setDepth w 2
          { t with frame := t.frame + 1 })

/-- LEAVE (R41, R42). -/
def State.leave (s : State) (c : CoreId) (x : CtxId) : Res (Option Word) :=
  let t := s.ctx c x
  if 8 < t.depth then .fault s fcFrameOver 0
  else if t.depth < 2 ∨ t.frame = 0 then .fault s fcFrameUnder 0
  else
    let caller : Fin 8 := ⟨(t.frame - 1) % 8, by omega⟩
    let d := t.wtag[caller].depth.toNat
    if 6 < d then .fault s fcFrameOver 0
    else (s.ready c x ((List.range t.depth).map t.topEntry ++ [entryOf caller d, entryOf caller (d + 1)])).bind fun _ s =>
      let older : Fin 8 := ⟨(t.frame - 2) % 8, by omega⟩
      (if 2 ≤ t.frame ∧ !t.wtag[older].live ∧ x ≠ fCtx then s.fillWindow c x older else .ok () s).bind fun _ s =>
        .ok none (s.modCtx c x fun u =>
          let u := { u with wtag := u.wtag.set t.win {} }
          let u := (u.putCells caller d [t.cell 1, t.cell 0]).setDepth caller (d + 2)
          { u with frame := t.frame - 1 })

/-! ## The return stack (R43, R46, R55) -/

/-- Place `i` of return group `g`. -/
def rEntry (g : Fin 2) (i : Nat) : Fin 16 := ⟨8 * g.val + i % 8, by omega⟩

def rOther (g : Fin 2) : Fin 2 := 1 - g

/-- Pushes onto group `g`, which holds `n` entries. -/
def Ctx.rput (t : Ctx) (g : Fin 2) (n : Nat) (v : Word) : Ctx :=
  { t with rstk := t.rstk.set (rEntry g n) v, rtop := g,
           rtag := t.rtag.set g { count := BitVec.ofNat 4 (n + 1), live := true, dirty := true } }

/-- Spills return group `g` (R43, R46, R48). -/
def State.spillGroup (s : State) (c : CoreId) (x : CtxId) (g : Fin 2) : Res Unit :=
  let t := s.ctx c x
  if t.roff.toNat < t.doff.toNat + 32 then .fault s fcSpillArea 0
  else
    let off := t.roff - 32
    let done (s : State) : State := (s.modCtx c x fun t => { t with roff := off }).count c x 0x2E
    if t.rtag[g].dirty then
      (s.spillRecord c x 2 (t.spillp + off.setWidth 32) ((List.range 8).map fun i => t.rstk[rEntry g i])).bind
        fun _ s => .ok () (done s)
    else .ok () (done s)

/-- A push (R43, R55). -/
def State.rpush (s : State) (c : CoreId) (x : CtxId) (v : Word) : Res Unit :=
  let t := s.ctx c x
  let g := t.rtop
  let n := t.rtag[g].count.toNat
  if n < 8 then .ok () (s.modCtx c x fun t => t.rput g n v)
  else if x = fCtx then .fault s fcFStack 0
  else
    let o := rOther g
    (if t.rtag[o].live then s.spillGroup c x o else .ok () s).bind fun _ s =>
      .ok () (s.modCtx c x fun t => t.rput o 0 v)

/-- Makes the newest entry present: fills a spilled group where the cache is empty (R43). -/
def State.rready (s : State) (c : CoreId) (x : CtxId) : Res Unit :=
  let t := s.ctx c x
  if t.rtag[t.rtop].count ≠ 0 then .ok () s
  else if x = fCtx then .fault s fcRstkUnder 0
  else if t.rtag[rOther t.rtop].live ∧ t.rtag[rOther t.rtop].count ≠ 0 then
    .ok () (s.modCtx c x fun t => { t with rtop := rOther t.rtop })
  else if t.spillsz.toNat ≤ t.roff.toNat then .fault s fcRstkUnder 0
  else
    (s.fillRecord c x 3 (t.spillp + t.roff.setWidth 32) 8 fun _ => true).bind fun vs s =>
      let s := s.modCtx c x fun t =>
        let t := ((List.range 8).zip vs).foldl
          (fun (t : Ctx) (iv : Nat × Word) => { t with rstk := t.rstk.set (rEntry t.rtop iv.1) iv.2 }) t
        { t with roff := t.roff + 32, rtag := t.rtag.set t.rtop { count := 8, live := true, dirty := false } }
      .ok () (s.count c x 0x2F)

/-- The newest return entry, once present. -/
def Ctx.rtopVal (t : Ctx) : Word := t.rstk[rEntry t.rtop (t.rtag[t.rtop].count.toNat + 7)]

/-- Takes the newest entry away. A pop writes no entry, so the group's dirty bit stays (R45). -/
def Ctx.rdropTop (t : Ctx) : Ctx :=
  let n := t.rtag[t.rtop].count.toNat - 1
  let t : Ctx := { t with rtag := t.rtag.set t.rtop (if n = 0 then {} else { t.rtag[t.rtop] with count := BitVec.ofNat 4 n, live := true }) }
  if n == 0 && t.rtag[rOther t.rtop].live then { t with rtop := rOther t.rtop } else t

/-- A pop (R43, R55). -/
def State.rpop (s : State) (c : CoreId) (x : CtxId) : Res Word :=
  (s.rready c x).bind fun _ s =>
    .ok (s.ctx c x).rtopVal (s.modCtx c x Ctx.rdropTop)

/-- Two pops: the newest entry, and the one below it. -/
def State.rpop2 (s : State) (c : CoreId) (x : CtxId) : Res (Word × Word) :=
  (s.rpop c x).bind fun a s => (s.rpop c x).bind fun b s => .ok (a, b) s

/-! ## A context's stacks after START, RESET and fast entry (R39, R55, R59) -/

/-- Frame 0 at depth 0 and no return entry. An entry that a long operation still has to write stays pending (R88, R134). -/
def Ctx.freshStacks (t : Ctx) : Ctx :=
  { t with wtag := (Vector.replicate 8 {}).set 0 { depth := 0, live := true, dirty := false },
           rtag := Vector.replicate 2 {}, frame := 0, rtop := 0, fbase := 0 }

end Sys2Proof.Machine
end

