-- ==== Sys2Proof/Machine/Transit.lean ====
section
/-! DEFINITION. The transit engine: entries, queues, acceptance, walks, late policies, lanes and pauses (spec 06). -/

namespace Sys2Proof.Machine

open Sys2Proof

/-! ## Entries and queues (R198 to R202) -/

/-- The queue key of R198. -/
def qkey (t : TbId) (slot : Nat) (cls : BitVec 2) : Nat := t.val * 0x8000 + slot * 4 + cls.toNat

/-- Class, slot and timebase of a key. -/
def keyCls (k : Nat) : BitVec 2 := BitVec.ofNat 2 k
def keySlot (k : Nat) : Nat := k / 4 % 0x2000
def keyTb (k : Nat) : Nat := k / 0x8000

/-- Entry bits [95:0] (R200). -/
def EphEntry.bits (e : EphEntry) : BitVec 96 :=
  e.target.setWidth 96 ||| (e.data.setWidth 96 <<< 20) ||| (e.be.setWidth 96 <<< 52) ||| (e.grain.setWidth 96 <<< 56) |||
  (e.tag.setWidth 96 <<< 70) ||| (e.mode.setWidth 96 <<< 74) ||| (e.link.setWidth 96 <<< 78)

/-- Kinds of R201. -/
inductive EntryKind where
  | oneShot | standing | replace | withdraw
  deriving DecidableEq, Repr

/-- Late policies of R201. -/
inductive Policy where
  | drop | now | hold
  deriving DecidableEq, Repr

/-- MODE (R201): none where the value is refused. -/
def modeOf (m : BitVec 4) : Option (EntryKind × Policy) :=
  match m.toNat with
  | 0 => some (.oneShot, .drop)
  | 1 => some (.oneShot, .now)
  | 2 => some (.oneShot, .hold)
  | 4 => some (.standing, .drop)
  | 5 => some (.standing, .now)
  | 8 => some (.replace, .drop)
  | 9 => some (.replace, .now)
  | 12 => some (.withdraw, .drop)
  | _ => none

def EphEntry.kind (e : EphEntry) : EntryKind := ((modeOf e.mode).map (·.1)).getD .oneShot
def EphEntry.policy (e : EphEntry) : Policy := ((modeOf e.mode).map (·.2)).getD .drop

/-- It stays in its queue when placed: standing or standing replace (R201). -/
def EphEntry.stands (e : EphEntry) : Bool := e.kind == .standing || e.kind == .replace

def Transit.entry (x : Transit) (i : Nat) : EphEntry := (alGet x.eph i).getD {}

def Transit.setEntry (x : Transit) (i : Nat) (e : EphEntry) : Transit := { x with eph := alSet x.eph i e }

def Transit.queue (x : Transit) (k : Nat) : Queue := (alGet x.queues k).getD {}

/-- A queue in the state of an empty one is not listed. -/
def Transit.setQueue (x : Transit) (k : Nat) (q : Queue) : Transit :=
  { x with queues := if q = {} then alErase x.queues k else alSet x.queues k q }

/-- Free and untouched entries (R202). -/
def Transit.free (x : Transit) : Nat := x.ephFree.length + (0x20000 - x.ephNext)

/-- TRN_STAT.RSVONLY. -/
def Transit.rsvOnly (x : Transit) : Bool := x.free ≤ x.rsvent.toNat

/-- Writes the LINK fields of a chain: each names the next, the last itself (R200). -/
def Transit.relink (x : Transit) : List Nat → Transit
  | [] => x
  | [i] => x.setEntry i { x.entry i with link := BitVec.ofNat 17 i }
  | i :: j :: l => (x.setEntry i { x.entry i with link := BitVec.ofNat 17 j }).relink (j :: l)

/-- The LINK fields of the end of a chain after an append. -/
def Transit.relinkTail (x : Transit) (items : List Nat) : Transit := x.relink (items.drop (items.length - 2))

/-- A freed entry becomes the head of the free list (R202). -/
def Transit.freeEntry (x : Transit) (i : Nat) : Transit :=
  let next := x.ephFree.headD i
  { x.setEntry i { x.entry i with link := BitVec.ofNat 17 next } with ephFree := i :: x.ephFree }

/-- Allocation: the entry freed most recently, else the lowest untouched one; written whole (R202). -/
def Transit.alloc (x : Transit) (e : EphEntry) : Nat × Transit :=
  match x.ephFree with
  | i :: l => (i, { x.setEntry i { e with link := BitVec.ofNat 17 i } with
                      ephFree := l, ephCorr := x.ephCorr.filter (· ≠ i), ephBad := x.ephBad.filter (· ≠ i) })
  | [] => (x.ephNext, { x.setEntry x.ephNext { e with link := BitVec.ofNat 17 x.ephNext } with
                          ephNext := x.ephNext + 1, ephCorr := x.ephCorr.filter (· ≠ x.ephNext),
                          ephBad := x.ephBad.filter (· ≠ x.ephNext) })

def State.modTransit (s : State) (f : Transit → Transit) : State := { s with transit := f s.transit }

/-- The Ephemeris-low source is active while FREE is at or below RSVENT (R208, R325). -/
def State.ephLevel (s : State) : State :=
  s.setLevel 176 s.transit.rsvOnly (BitVec.ofNat 32 s.transit.free)

/-- An uncorrectable entry or a queue-state error (R230). -/
def State.ephError (s : State) : State :=
  (s.modTransit fun x => { x with ephErr := true }).raise 177 0

/-- A queue state as the engine reads it: after a parity error the queue is empty from then on (R230). -/
def State.readQueue (s : State) (k : Nat) : Queue × State :=
  let q := s.transit.queue k
  if q.parOk then (q, s) else ({}, (s.modTransit fun x => x.setQueue k {}).ephError)

/-! ## Geometry (R195) -/

def isBeam (t : TbId) : Bool := t.val < 4

/-- Grains of a position unit: a quad has 4, a sample 1. -/
def unitOf (t : TbId) (grain : Nat) : Nat := if isBeam t then grain / 4 else grain

/-- Grains per slot. -/
def Tb.grains (t : TbId) (b : Tb) : Nat := if isBeam t then b.glast.toNat + 1 else 64

/-- Quads or samples per slot. -/
def Tb.units (t : TbId) (b : Tb) : Nat := unitOf t (b.grains t)

/-- Entries per slot, at most. -/
def slotLimit (t : TbId) : Nat := if isBeam t then 512 else 256

/-- Reads of a walk, at most (R214). -/
def readLimit (t : TbId) : Nat := if isBeam t then 1024 else 512

/-- The late margin in grains (R216). -/
def lateMargin (t : TbId) : Nat := if isBeam t then 64 else 4

def classesOf (t : TbId) : List (BitVec 2) := if isBeam t then [0, 1, 3] else [2, 3]

/-- Position and frame counter as the engine takes them: slot 0, grain 0 while stopped (R196). -/
def State.posOf (s : State) (t : TbId) : BitVec 16 × Nat × Nat :=
  let b := s.transit.tb[t]
  if s.tbRuns t then (b.frame, b.slot, b.grain) else (b.frame, 0, 0)

/-- The occurrence after (f, s). -/
def Tb.nextOcc (b : Tb) (f : BitVec 16) (s : Nat) : BitVec 16 × Nat :=
  if s < b.slast.toNat then (f, s + 1) else (f + 1, 0)

/-- Signed distance of two frame numbers modulo 2^16. -/
def frameDiff (a b : BitVec 16) : Int := (a - b).toInt

/-- Units of occurrence (f, s), unit `u`, counted from the start of the present slot. -/
def Tb.relUnit (t : TbId) (b : Tb) (f : BitVec 16) (s u : Nat) : Int :=
  (frameDiff f b.frame * (b.slast.toNat + 1) + s - b.slot) * b.units t + u

/-! ## Wakes and posts of class 3 entries (R226 to R228, R427) -/

/-- A wake of context `x` of core `c` (R228). -/
def State.wakeCtx (s : State) (c : CoreId) (x : CtxId) : State :=
  let set (s : State) : State :=
    let s := s.countC c 0x35
    if s.core[c].dozed then s.modCore c fun k => { k with dozeWake := true } else s
  match (s.ctx c x).st with
  | .sleep => set ((s.modCtx c x fun t => { t with wake := false }).setSt c x .ready)
  | .idle => s.modTransit fun tr => { tr with widle := satInc tr.widle }
  | _ => set (s.modCtx c x fun t => { t with wake := true })

def isWake (i : BufItem) : Bool := i.cls == 3 && bits i.e.target 18 2 == 0

/-- Core and context that a class 3 wake names. -/
def wakeCore (e : EphEntry) : CoreId := (bits e.target 4 4).toFin
def wakeThread (e : EphEntry) : CtxId := thr (bits e.target 0 3).toFin

/-- A wake entry that enters a buffer starts the exit of its core from DOZE (R427). -/
def State.preWake (s : State) (i : BufItem) : State :=
  if isWake i && s.core[wakeCore i.e].dozed then s.modCore (wakeCore i.e) fun k => { k with dozeWake := true } else s

/-- A class 3 entry acts at its grain: a wake, or a post with the position of the grain (R226, R227). -/
def State.actClass3 (s : State) (t : TbId) (i : BufItem) : State :=
  if bits i.e.target 18 2 = 0 then s.wakeCtx (wakeCore i.e) (wakeThread i.e)
  else
    let src := 144 + (bits i.e.target 0 5).toNat
    let pos := fld (BitVec.ofNat 3 t.val) 29 ||| fld (BitVec.ofNat 13 i.slot) 16 ||| fld i.e.grain 0
    s.raiseAt src i.e.data (true, pos, i.frame)

/-! ## Refused values (R203, R226) -/

/-- A queue key, GRAIN, TAG, MODE, BE and TARGET that R203 accepts. `issuer`: the core that issues at user PRIV. -/
def State.transitOk (s : State) (issuer : Option CoreId) (when_ : Word) (be : BitVec 4) (tag mode : BitVec 4)
    (target : BitVec 20) : Bool :=
  let t : TbId := (bits when_ 29 3).toFin
  let b := s.transit.tb[t]
  let cls := bits when_ 14 2
  let slot := bits when_ 16 13
  let grain := bits when_ 0 14
  let action := bits target 18 2
  b.en && (classesOf t).contains cls && decide (slot.toNat ≤ b.slast.toNat) && decide (grain.toNat < b.grains t) &&
  (match modeOf mode with
   | none => false
   | some (.oneShot, _) => true
   | some _ => tag == 0) &&
  (if cls = 3 then
     bits target 8 10 == 0 &&
     ((action == 0 && bits target 3 1 == 0 &&
        (match issuer with | some c => bits target 4 4 == BitVec.ofNat 4 c.val | none => true)) ||
      (action == 1 && bits target 5 3 == 0))
   else be != 0)

/-- The staged form of a checked entry (R204). -/
def State.mkStaged (s : State) (when_ : Word) (be tag mode : BitVec 4) (target : BitVec 20) (data : Word)
    (lane : Bool) : Staged :=
  let t : TbId := (bits when_ 29 3).toFin
  { tb := t, slot := bits when_ 16 13, cls := bits when_ 14 2,
    e := { target := target, data := data, be := be, grain := bits when_ 0 14, tag := tag, mode := mode },
    period := s.transit.tb[t].period, lane := lane }

/-! ## Counters of a timebase (R222, R225) -/

/-- TBn_DROP, TBn_LOST and TBn_OVF raise the transit-loss source (R225, R325). -/
def State.tbDrop (s : State) (t : TbId) : State :=
  ((s.modTb t fun b => { b with drop := satInc b.drop }).countB 0x43).raise ⟨178 + t.val, by omega⟩ 1
def State.tbLost (s : State) (t : TbId) : State :=
  ((s.modTb t fun b => { b with lost := satInc b.lost }).countB 0x46).raise ⟨178 + t.val, by omega⟩ 2
def State.tbOvf (s : State) (t : TbId) : State :=
  ((s.modTb t fun b => { b with ovf := satInc b.ovf }).countB 0x47).raise ⟨178 + t.val, by omega⟩ 4
def State.tbSlate (s : State) (t : TbId) : State :=
  (s.modTb t fun b => { b with slate := satInc b.slate, swapDue := true }).countB 0x48

/-! ## Where an entry goes, and late policies (R211, R216, R222 to R224) -/

/-- The walk of an occurrence has started, or a cleanup has taken it (R211). -/
def Tb.started (b : Tb) (f : BitVec 16) (s : Nat) : Bool := b.ran.contains (f, s)

/-- Frees the entry of an item that its buffer alone held; a standing entry stays in its queue (R220, R224). -/
def State.freeItem (s : State) (i : BufItem) : State :=
  if i.e.stands then s else s.modTransit fun x => x.freeEntry i.idx

/-- Links an entry at the tail of its queue (R211). -/
def State.link (s : State) (t : TbId) (slot : Nat) (cls : BitVec 2) (i : Nat) : State :=
  let k := qkey t slot cls
  let r := s.readQueue k
  let e := r.2.transit.entry i
  let items := r.1.items ++ [i]
  let q := { r.1 with items := items, standing := r.1.standing || e.stands,
                      edit := r.1.edit || e.kind == .replace || e.kind == .withdraw }
  r.2.modTransit fun x => (x.setQueue k q).relinkTail items

/-- The entry enters the carry queue, or is lost where 16 are in it (R223, R224). -/
def State.carry (s : State) (t : TbId) (i : BufItem) : State :=
  if s.transit.tb[t].carry.length < 16 then
    (s.modTb t fun b => { b with carry := b.carry ++ [i], now := satInc b.now }).countB 0x44
  else (s.freeItem i).tbLost t

/-- What R211 decides of an entry with index `i`. -/
inductive Path where
  /-- linked -/
  | link
  /-- late insert into the buffer of an occurrence -/
  | insert (f : BitVec 16) (s : Nat)
  /-- its slot in the target frame has ended -/
  | past (f : BitVec 16) (s : Nat)
  deriving DecidableEq, Repr

/-- The table of R211, from the position and frame counter of the moment. -/
def State.path (s : State) (t : TbId) (slot : Nat) (e : EphEntry) : Path :=
  let b := s.transit.tb[t]
  let p := s.posOf t
  match e.kind with
  | .oneShot =>
    let d := e.tag - bits p.1 0 4
    let f := p.1 + d.setWidth 16
    if b.starting then .link
    else if d = 0 ∧ slot < p.2.1 then .past f slot
    else if b.started f slot then .insert f slot
    else .link
  | .standing =>
    let f := if p.2.1 ≤ slot then p.1 else p.1 + 1
    if b.started f slot && !b.starting then .insert f slot else .link
  | _ => .link

/-- The entry count of an occurrence (R216): that of the live slot, with what its store holds while its swap waits, or that of the slot
of the store. -/
def Tb.count (b : Tb) (f : BitVec 16) (slot : Nat) : Nat :=
  (if (f, slot) = (b.frame, b.slot) then b.liveCnt else 0) + (if b.storeOf = some (f, slot) then b.storeCnt else 0)

/-- The conditions of R216 for the occurrence (f, slot). -/
def State.insertOk (s : State) (t : TbId) (f : BitVec 16) (slot : Nat) (grain : Nat) : Bool :=
  let b := s.transit.tb[t]
  let p := s.posOf t
  let cnt := b.count f slot
  let dist : Int :=
    (frameDiff f p.1 * (b.slast.toNat + 1) + slot - p.2.1) * b.grains t + grain - p.2.2
  decide (cnt < slotLimit t) && decide ((lateMargin t : Int) ≤ dist)

/-- A placed late insert: counted in the entry count of its slot, and merged later (R216). -/
def State.placeLate (s : State) (t : TbId) (i : BufItem) : State :=
  let s := s.modTb t fun b =>
    let b := { b with merging := b.merging ++ [i], latein := satInc b.latein }
    if b.liveOf = some (i.frame, i.slot) then { b with liveCnt := b.liveCnt + 1 }
    else if b.storeOf = some (i.frame, i.slot) then { b with storeCnt := b.storeCnt + 1 } else b
  (s.countB 0x42).preWake i

mutual
/-- The path of a linked or accepted entry, decided now (R211, R216). `n` bounds how often a HOLD may come back. -/
def State.decidePath : Nat → State → TbId → Nat → BitVec 2 → Nat → State
  | 0, s, t, slot, cls, i => s.link t slot cls i
  | n + 1, s, t, slot, cls, i =>
    let e := s.transit.entry i
    match s.path t slot e with
    | .link => s.link t slot cls i
    | .past f sl => State.late n s t false ⟨i, cls, e, f, sl⟩
    | .insert f sl =>
      let s := if e.stands then s.link t slot cls i else s
      if s.insertOk t f sl e.grain.toNat then s.placeLate t ⟨i, cls, e, f, sl⟩
      else State.late n s t false ⟨i, cls, e, f, sl⟩

/-- The late policy of an item (R222 to R224); `ovr` is the overflow row, every other row acts alike. -/
def State.late : Nat → State → TbId → Bool → BufItem → State
  | 0, s, _, _, _ => s
  | n + 1, s, t, ovr, i =>
    match i.e.policy with
    | .drop => (s.freeItem i).tbDrop t
    | .now =>
      if ovr then
        -- move to next slot (R222)
        let b := s.transit.tb[t]
        let last := i.slot = b.slast.toNat
        let e := { i.e with grain := 0, tag := if last then i.e.tag + 1 else i.e.tag }
        let s := (s.modTransit fun x => x.setEntry i.idx { e with link := BitVec.ofNat 17 i.idx }).modTb t
          fun b => { b with now := satInc b.now }
        State.decidePath n (s.countB 0x44) t (if last then 0 else i.slot + 1) i.cls i.idx
      else s.carry t i
    | .hold =>
      let e := { i.e with tag := i.e.tag + 1 }
      let s := (s.modTransit fun x => x.setEntry i.idx { e with link := BitVec.ofNat 17 i.idx }).modTb t
        fun b => { b with hold := satInc b.hold }
      State.decidePath n (s.countB 0x45) t i.slot i.cls i.idx
end

/-- The late policy of each item in turn. -/
def State.lateAll (s : State) (t : TbId) (l : List BufItem) : State := l.foldl (fun s i => s.late 8 t false i) s

/-! ## Walks (R212 to R215) -/

/-- What a walk has done so far. -/
structure WalkAcc where
  store  : List BufItem
  placed : Nat
  reads  : Nat
  deriving DecidableEq, Repr

/-- How a walk treats entries: placing those that match; in cleanup under the slot-end row; or, after a pause of 16 frames or more, all
one-shot entries late and the others left alone (R197, R213, R214, R229). -/
inductive WalkMode where
  | place | cleanup | shots
  deriving DecidableEq, Repr

/-- One queue of a walk while its items are read: survivors so far, entries freed, entries late, whether it met overflow. -/
structure QueueAcc where
  w     : WalkAcc
  kept  : List Nat := []
  freed : List Nat := []
  late  : List BufItem := []
  met   : Bool := false
  ended : Bool := false
  ecnt  : Nat := 0
  deriving DecidableEq, Repr

/-- Removes the older standing entries of the queue with the same TARGET, and their copies in the store (R213). One that was skipped or
took its late policy when it was read has done so. -/
def QueueAcc.remove (x : Transit) (a : QueueAcc) (target : BitVec 20) : QueueAcc :=
  let gone := a.kept.filter fun i => (x.entry i).stands && (x.entry i).target == target
  { a with kept := a.kept.filter (fun i => !gone.contains i), freed := a.freed ++ gone,
           w := { a.w with store := a.w.store.filter fun b => !gone.contains b.idx } }

/-- One entry read by the walk of (f, slot) (R213, R214). -/
def walkEntry (x : Transit) (t : TbId) (m : WalkMode) (f : BitVec 16) (slot : Nat) (cls : BitVec 2) (a : QueueAcc)
    (i : Nat) : QueueAcc :=
  if a.ended then a
  else if x.ephBad.contains i then { a with ended := true }
  else
    let e := x.entry i
    let ovr := slotLimit t ≤ a.w.placed || readLimit t ≤ a.w.reads
    let item : BufItem := ⟨i, cls, e, f, slot⟩
    let a := { a with w := { a.w with reads := a.w.reads + 1 }, ecnt := a.ecnt + if x.ephCorr.contains i then 1 else 0 }
    let place (a : QueueAcc) : QueueAcc :=
      { a with w := { a.w with store := a.w.store ++ [item], placed := a.w.placed + 1 } }
    match e.kind with
    | .oneShot =>
      if m = .shots then { a with late := a.late ++ [item] }
      else if e.tag ≠ bits f 0 4 then { a with kept := a.kept ++ [i] }
      else if m = .cleanup then { a with late := a.late ++ [item] }
      else if ovr then { a with late := a.late ++ [item], met := true }
      else place a
    | .standing =>
      let a := { a with kept := a.kept ++ [i] }
      if m = .shots then a
      else if m = .cleanup then { a with late := a.late ++ [item] }
      else if ovr then { a with met := true, late := a.late ++ [item] } else place a
    | .replace =>
      let a := if m = .shots then a else a.remove x e.target
      let a := { a with kept := a.kept ++ [i] }
      if m = .shots then a
      else if m = .cleanup then { a with late := a.late ++ [item] }
      else if ovr then { a with met := true, late := a.late ++ [item] } else place a
    | .withdraw =>
      if m = .shots then { a with kept := a.kept ++ [i] }
      else
      let a := a.remove x e.target
      { a with freed := a.freed ++ [i] }

/-- The walk of one queue: its items as they stood at the start of the walk are read; entries linked since stay behind them.
Late policies are applied once the queue is finished (R213, R214, R230). -/
def State.walkQueue (s : State) (t : TbId) (m : WalkMode) (f : BitVec 16) (slot : Nat) (w : WalkAcc)
    (q : Nat × List Nat) : State × WalkAcc :=
  let r := s.readQueue q.1
  let s := r.2
  let x := s.transit
  let cur := r.1
  let items := q.2.filter fun i => cur.items.contains i
  let a := items.foldl (walkEntry x t m f slot (keyCls q.1)) { w := w }
  let newer := if a.ended then [] else cur.items.filter fun i => !q.2.contains i
  let kept := a.kept ++ newer
  let has (p : EphEntry → Bool) (l : List Nat) : Bool := l.any fun i => p (x.entry i)
  let q' : Queue := { cur with
    items := kept, walk := false, ovf := if m = .shots then cur.ovf else a.met, standing := has EphEntry.stands kept,
    edit := has (fun e => e.kind == .replace || e.kind == .withdraw) (if m = .shots then kept else newer) }
  let s := s.modTransit fun x =>
    a.freed.foldl Transit.freeEntry
      { (x.setQueue q.1 q').relink kept with ecnt := satAdd x.ecnt a.ecnt }
  let s := if a.ended then s.ephError else s
  let s := a.late.foldl (fun s i =>
    if m = .place then
      let s := s.tbOvf t
      if i.e.stands then s else s.late 8 t true i
    else s.late 8 t false i) s
  (s, a.w)

/-- The queues of a slot, in ascending class order, with their items (R212). -/
def State.slotQueues (s : State) (t : TbId) (slot : Nat) : List (Nat × List Nat) :=
  ((classesOf t).map fun c => (qkey t slot c, (s.transit.queue (qkey t slot c)).items)).filter fun q =>
    !q.2.isEmpty || !(s.transit.queue q.1).parOk || (s.transit.queue q.1).ovf

/-- A cleanup walk of one slot, made at once (R197, R229). -/
def State.cleanup (s : State) (t : TbId) (f : BitVec 16) (slot : Nat) : State :=
  (s.slotQueues t slot).foldl (fun s q => (s.walkQueue t .cleanup f slot ⟨[], 0, 0⟩ q).1) s

/-- A walk of (f, slot) starts: it reads each queue as it now stands, and the store is its (R211, R212). -/
def State.startWalk (s : State) (t : TbId) (f : BitVec 16) (slot : Nat) (lateWalk : Bool) : State :=
  let qs := s.slotQueues t slot
  let s := s.modTransit fun x => qs.foldl (fun x q => x.setQueue q.1 { x.queue q.1 with walk := true }) x
  s.modTb t fun b => { b with walk := some ⟨f, slot, lateWalk, qs⟩, storeOf := some (f, slot), store := [],
                              storeCnt := if (f, slot) = (b.frame, b.slot) then 0 else b.storeCnt, ran := b.ran ++ [(f, slot)] }

/-- Stable insertion behind every item of the same or a lower grain. -/
def insertGrain (l : List BufItem) (i : BufItem) : List BufItem :=
  l.takeWhile (fun b => b.e.grain.toNat ≤ i.e.grain.toNat) ++ i ::
    l.dropWhile (fun b => b.e.grain.toNat ≤ i.e.grain.toNat)

/-- The stable sort by GRAIN of R215. -/
def sortGrain (l : List BufItem) : List BufItem := l.foldl insertGrain []

/-- The engine may walk and present for a timebase: running, not paused, not flushed (R196, R229, R233). -/
def State.tbActive (s : State) (t : TbId) : Bool :=
  let b := s.transit.tb[t]
  s.tbRuns t && b.pause.isNone && !b.flushing && !b.holdWalk && !s.transit.halted && s.power.state == .run

/-- Swaps, late walks and walks that are due at the present position (R211, R215, R511). -/
def State.pump : Nat → State → TbId → State
  | 0, s, _ => s
  | n + 1, s, t =>
    let b := s.transit.tb[t]
    let here := (b.frame, b.slot)
    let next := b.nextOcc b.frame b.slot
    let idle := b.walk.isNone && !b.sorting
    if !s.tbActive t then s
    else match b.storeOf with
    | some o =>
      if o = here then
        if idle then
          State.pump n (s.modTb t fun b =>
            { b with live := b.store, liveOf := some here, liveCnt := b.liveCnt + b.storeCnt, store := [], storeOf := none, storeCnt := 0,
                     swapDue := false }) t
        else if b.swapDue then s else s.tbSlate t
      else if o = next then s
      else if idle then
        -- the slot of the store has been passed ovr (R237)
        let items := b.store ++ b.merging.filter (fun i => (i.frame, i.slot) = o)
        let s := s.modTb t fun b =>
          { b with store := [], storeOf := none, storeCnt := 0, swapDue := false,
                   merging := b.merging.filter (fun i => (i.frame, i.slot) ≠ o) }
        State.pump n (s.lateAll t items) t
      else s
    | none =>
      if b.slot ≤ b.slast.toNat && !b.started b.frame b.slot then
        (s.tbSlate t).startWalk t b.frame b.slot true
      else if b.slot ≤ b.slast.toNat && !b.started next.1 next.2 then s.startWalk t next.1 next.2 false
      else s

/-- WALK_END: the queues are handled, with the late inserts and carried commits of the slot in the count of its entries; the sort begins;
cleanup of an overflowing slot runs beside it (R213 to R215). -/
def State.walkEnd (s : State) (t : TbId) : State :=
  match s.transit.tb[t].walk with
  | none => s
  | some w =>
    if s.transit.tb[t].pause.isSome || s.transit.tb[t].flushing then s
    else
      let r := w.reads.foldl (fun (r : State × WalkAcc) q => r.1.walkQueue t .place w.frame w.slot r.2 q)
        (s, ⟨[], s.transit.tb[t].storeCnt, 0⟩)
      let ovr := slotLimit t ≤ r.2.placed || readLimit t ≤ r.2.reads
      let s := r.1.modTb t fun b =>
        { b with walk := none, store := r.2.store, storeCnt := r.2.placed, sorting := true, cleanup := ovr }
      (r.2.store.foldl State.preWake s).ephLevel

/-- SORT_END (R215). -/
def State.sortEnd (s : State) (t : TbId) : State :=
  if s.transit.tb[t].sorting then
    ((s.modTb t fun b => { b with store := sortGrain b.store, sorting := false, cleanup := false }).pump 6 t).ephLevel
  else s

/-- LATE_INSERT_MERGE: placed late inserts join the buffer that holds their occurrence (R216). -/
def State.lateMerge (s : State) (t : TbId) : State :=
  s.modTb t fun b =>
    let live := b.merging.filter fun i => b.liveOf == some (i.frame, i.slot)
    let toStore := b.merging.filter fun i =>
      b.liveOf != some (i.frame, i.slot) && b.storeOf == some (i.frame, i.slot) && b.walk.isNone && !b.sorting
    { b with live := live.foldl insertGrain b.live, store := toStore.foldl insertGrain b.store,
             merging := b.merging.filter fun i => !(live.contains i) && !(toStore.contains i) }

/-! ## Positions (R196, R197, R237, R511) -/

/-- Slots of a timebase that have a queue which is not empty. -/
def State.busySlots (s : State) (t : TbId) : List Nat :=
  (s.transit.queues.filterMap fun q => if keyTb q.1 = t.val then some (keySlot q.1) else none).dedup

/-- The timers that count this timebase's slots tick (R349). -/
def State.timerExpire (s : State) (n : Fin 32) : State :=
  let tm := s.ev.timer[n]
  let s := s.raise ⟨112 + n.val, by omega⟩ tm.load
  let s := { s with gpio := { s.gpio with timout := s.gpio.timout ^^^ (1#32 <<< n.val) } }
  let tm' := if tm.per then { tm with cnt := tm.load } else { tm with en := false }
  { s with ev := { s.ev with timer := s.ev.timer.set n tm' } }

/-- One tick of timer `n` (R349). -/
def State.timerTick (s : State) (n : Fin 32) : State :=
  let tm := s.ev.timer[n]
  if !tm.en then s
  else if tm.cnt = 0 then s.timerExpire n
  else { s with ev := { s.ev with timer := s.ev.timer.set n { tm with cnt := tm.cnt - 1 } } }

/-- The timers that count slots of `t`. -/
def State.slotTicks (s : State) (t : TbId) : State :=
  (List.finRange 32).foldl (fun s n =>
    if s.ev.timer[n].clk = 2 ∧ s.ev.timer[n].tbsel = t then s.timerTick n else s) s

/-- The master's number for the frame that begins at a frame change (R259). A restart that cuts back a follower that was ahead begins
again the frame whose number the last record gave; every other frame change begins the next one. -/
def Ms.nextAdopt (m : Ms) (restart : Bool) : Option (BitVec 16) :=
  m.adopt.map fun a => if restart ∧ 0 < m.err.toInt then a else a + 1

/-- The frame counter at a frame change: one more, or the master's number, which only the first frame change after LOCKED is entered, or
the one that a restart makes, loads (R196, R259). -/
def State.frameChange (s : State) (t : TbId) (restart : Bool) : State :=
  let b := s.transit.tb[t]
  let inc := b.frame + 1
  let load : Option (BitVec 16) :=
    if h : t.val < 4 then
      let m := s.ports.ms[(⟨t.val, h⟩ : Fin 4)]
      if m.fadopt && (m.adoptDue || restart) then m.nextAdopt restart else none
    else none
  let f := load.getD inc
  let re (o : BitVec 16 × Nat) : BitVec 16 × Nat := if o.1 = inc then (f, o.2) else o
  let s := s.modTb t fun b =>
    { b with frame := f, ran := b.ran.map re, storeOf := b.storeOf.map re,
             store := b.store.map (fun i => { i with frame := (re (i.frame, 0)).1 }),
             merging := b.merging.map (fun i => { i with frame := (re (i.frame, 0)).1 }),
             walk := b.walk.map fun w => { w with frame := (re (w.frame, 0)).1 } }
  if h : t.val < 4 then
    s.modMs ⟨t.val, h⟩ fun m =>
      { m with adopt := m.nextAdopt restart, adoptDue := false,
               fadopted := m.fadopted || (load.isSome && f != inc),
               frames := if m.state = .holdover then m.frames + 1 else m.frames }
  else s

/-- The position of a running timebase becomes (slot, grain): what is counted at a change of slot or frame, without walks. -/
def State.movePos (s : State) (t : TbId) (slot grain : Nat) (frameCh restart : Bool) : State :=
  let b := s.transit.tb[t]
  let s := if frameCh then s.frameChange t restart else s
  let s := s.modTb t fun b => { b with slot := slot, grain := grain }
  if slot ≠ b.slot ∨ frameCh then s.slotTicks t else s

/-- Whether the step from the present position to (slot, grain) is a frame change (R196, R258). -/
def Tb.isFrameChange (b : Tb) (slot grain : Nat) (restart : Bool) : Bool :=
  restart || (slot == 0 && b.slot != 0) || (b.slast == 0 && slot == 0 && b.slot == 0 && grain < b.grain)

/-- A running, unpaused timebase enters (slot, grain): slot end, skipped slots, then the walks and swaps that are due (R197, R215,
R221, R237). -/
def State.enterPos (s : State) (t : TbId) (slot grain : Nat) (restart : Bool) : State :=
  let b := s.transit.tb[t]
  let frameCh := b.isFrameChange slot grain restart
  if slot = b.slot ∧ !frameCh then (s.movePos t slot grain false false).pump 6 t
  else
    let old := b.frame
    let ended := b.live ++ b.merging.filter fun i => (i.frame, i.slot) = (old, b.slot)
    let skipped :=
      if frameCh then ((s.busySlots t).mergeSort (fun a c => a ≤ c)).filter fun k =>
        k ≤ b.slast.toNat && !b.started old k
      else (List.range slot).filter fun k => b.slot < k && !b.started old k
    let s := s.movePos t slot grain frameCh restart
    let ran (b : Tb) : List (BitVec 16 × Nat) :=
      if frameCh then b.ran.filter (fun o => o.1 = b.frame ∨ o.1 = b.frame + 1)
      else b.ran ++ skipped.map (fun k => (old, k))
    let s := s.modTb t fun b =>
      { b with live := [], liveOf := none, liveCnt := if b.storeOf.isNone then b.storeCnt else 0,
               storeCnt := if b.storeOf.isNone then 0 else b.storeCnt, holdWalk := false,
               merging := b.merging.filter (fun i => !ended.contains i), ran := ran b }
    let s := s.lateAll t ended
    let s := skipped.foldl (fun s k => s.cleanup t old k) s
    s.pump 6 t

/-- The first running position of an enable period (R511). -/
def State.firstPos (s : State) (t : TbId) (slot grain : Nat) : State :=
  let f := s.transit.tb[t].frame
  let s := s.modTb t fun b =>
    { b with starting := false, slot := slot, grain := grain, liveOf := none, ran := (List.range slot).map fun k => (f, k) }
  let skipped := ((s.busySlots t).mergeSort (fun a c => a ≤ c)).filter fun k => decide (k < slot)
  let s := skipped.foldl (fun s k => s.cleanup t f k) s
  s.pump 6 t

/-! ## Lanes (R217 to R220, R223) -/

/-- The look-ahead of a lane: 3 quads on a beam, none on a sound port (R195). -/
def lookAhead (t : TbId) : Nat := if isBeam t then 3 else 0

/-- Takes the first entry of a class set whose unit, counted from `base`, lies in c to c plus the look-ahead. -/
def takeItem (t : TbId) (set : List (BitVec 2)) (base c : Nat) : List BufItem → Option (BufItem × List BufItem)
  | [] => none
  | i :: l =>
    let u := base + unitOf t i.e.grain.toNat
    if set.contains i.cls ∧ c ≤ u ∧ u ≤ c + lookAhead t then some (i, l)
    else (takeItem t set base c l).map fun r => (r.1, i :: r.2)

/-- What a lane presents: the entry, its lead and dot offset, and the occurrence and unit in which it takes effect. -/
structure Presented where
  item  : BufItem
  lead  : Nat
  ofs   : BitVec 2
  frame : BitVec 16
  slot  : Nat
  unit  : Nat
  deriving DecidableEq, Repr

/-- The occurrence and unit that lie `c` units after the start of the present slot. -/
def Tb.unitAt (t : TbId) (b : Tb) (c : Nat) : BitVec 16 × Nat × Nat :=
  if c < b.units t then (b.frame, b.slot, c)
  else
    let o := b.nextOcc b.frame b.slot
    (o.1, o.2, c - b.units t)

/-- The store holds the next slot, sorted, so that the look-ahead runs into it (R217). -/
def Tb.storeNext (b : Tb) : Bool :=
  b.storeOf == some (b.nextOcc b.frame b.slot) && b.walk.isNone && !b.sorting

/-- The entry that a lane presents in unit `c`, taken out of its buffer (R217, R223). At a slot above SLAST or a grain above GLAST
nothing is committed (R197). A carried commit counts in the slot in which it takes effect; for the next slot that is the count of the
store, which holds it from before its walk starts. -/
def Tb.present (t : TbId) (b : Tb) (set : List (BitVec 2)) (c : Nat) (carried : Bool) : Option Presented × Tb :=
  let u := b.units t
  if b.slast.toNat < b.slot ∨ u < c then (none, b)
  else
  let mk (i : BufItem) (base : Nat) : Presented :=
    let at_ := base + unitOf t i.e.grain.toNat
    let o := b.unitAt t at_
    ⟨i, at_ - c, if isBeam t then bits i.e.grain 0 2 else 0, o.1, o.2.1, o.2.2⟩
  match takeItem t set 0 c b.live with
  | some (i, l) => (some (mk i 0), { b with live := l })
  | none =>
    match (if b.storeNext then takeItem t set u c b.store else none) with
    | some (i, l) => (some (mk i u), { b with store := l })
    | none =>
      match b.carry.find? (fun i => set.contains i.cls) with
      | some i =>
        let target := b.relUnit t i.frame i.slot (unitOf t i.e.grain.toNat)
        let here := c < u
        let cnt := if here then b.count b.frame b.slot else b.storeCnt
        if carried && target ≤ c && cnt < slotLimit t then
          let o := b.unitAt t c
          let ofs := if isBeam t ∧ target = c then bits i.e.grain 0 2 else 0
          (some ⟨i, 0, ofs, o.1, o.2.1, o.2.2⟩,
            { b with carry := b.carry.erase i, liveCnt := if here then b.liveCnt + 1 else b.liveCnt,
                     storeCnt := if here then b.storeCnt else b.storeCnt + 1 })
        else (none, b)
      | none => (none, b)

/-- Up to `n` entries of one lane in one unit; a carried one only where no buffer entry is presented (R219, R223). -/
def Tb.presentMany (t : TbId) (set : List (BitVec 2)) (c : Nat) : Nat → Bool → Tb → List Presented × Tb
  | 0, _, b => ([], b)
  | n + 1, first, b =>
    match b.present t set c first with
    | (none, b) => ([], b)
    | (some p, b') =>
      if b'.carry.length < b.carry.length then ([p], b')
      else
        let r := Tb.presentMany t set c n false b'
        (p :: r.1, r.2)

/-- Unpresented entries whose unit has ended before `c`, or, on a sound port, that exceed four in the sample `c` (R217, R219). No unit of
the next slot ends before that slot begins. -/
def Tb.overRate (t : TbId) (b : Tb) (c : Nat) : List BufItem × Tb :=
  let gone := b.live.filter fun i => decide (unitOf t i.e.grain.toNat < c)
  (gone, { b with live := b.live.filter fun i => !gone.contains i })

/-- Class 3 entries whose unit has begun act (R227). One that its lane presented with a lead above 0 is held until its unit begins, and a
pause that falls between does not make it late: it has been presented (DESIGN CHOICE, log 59). -/
def State.actArmed (s : State) (t : TbId) : State :=
  let b := s.transit.tb[t]
  let due := b.armed.filter fun a => b.relUnit t a.frame a.slot a.unit ≤ unitOf t b.grain
  let s := s.modTb t fun b => { b with armed := b.armed.filter fun a => !due.contains a }
  due.foldl (fun s a => s.actClass3 t a.item) s

/-- The commit of a presented entry of class 0, 1 or 2 (R235, R247). -/
def Presented.commit (p : Presented) : Commit :=
  { addr := p.item.e.target, data := p.item.e.data, be := p.item.e.be, ofs := p.ofs, lead := BitVec.ofNat 2 p.lead,
    cls := p.item.cls }

/-- Both lanes of a timebase present for the unit after the current one: the one that the video units sample at the next edge, or the
next sample (R217, R219, R241, R247). `none_`: a short sample period presents nothing (R246). -/
def State.presentLanes (s : State) (t : TbId) (none_ : Bool) : State :=
  if !s.tbActive t then s.modPort (portOf t) fun p => { p with out := [] }
  else
    let s := s.actArmed t
    let b := s.transit.tb[t]
    let c := unitOf t b.grain + 1
    let n := if none_ then 0 else if isBeam t then 1 else 4
    let set : List (BitVec 2) := if isBeam t then [0, 1] else [2]
    let o := b.overRate t c
    let s := (s.modTb t fun _ => o.2).lateAll t o.1
    let b := s.transit.tb[t]
    let ev := b.presentMany t [3] c n true
    let cm := ev.2.presentMany t set c n true
    let armed := ev.1.map fun p => (⟨{ p.item with frame := p.item.frame }, p.frame, p.slot, p.unit⟩ : Armed)
    let s := s.modTb t fun _ => { cm.2 with armed := cm.2.armed ++ armed }
    let s := (ev.1 ++ cm.1).foldl (fun s p => s.freeItem p.item) s
    let s := s.countB (if isBeam t then 0x49 else 0x4A) cm.1.length
    s.modPort (portOf t) fun p => { p with out := cm.1.map Presented.commit }

/-! ## Pauses (R229) -/

/-- The receiving port of a timebase is held (R239, R243, R449). -/
def State.portHeld (s : State) (t : TbId) : Bool :=
  let p := s.ports.port[portOf t]
  !p.pen || !p.runIn || p.holdIn ||
  (if h : t.val < 4 then s.instIn 6 ⟨t.val, h⟩ else false)

/-- A cause of a pause holds. -/
def State.pauseCause (s : State) (t : TbId) : Bool := s.portHeld t || s.transit.halted || s.power.state != .run

/-- A pause begins, for a timebase that has run in its enable period (R229, R243, R511). -/
def State.beginPause (s : State) (t : TbId) : State :=
  let b := s.transit.tb[t]
  let s := s.modPort (portOf t) fun p => { p with out := [] }
  if b.en && !b.starting && b.pause.isNone then
    s.modTb t fun b => { b with pause := some ⟨b.frame, b.slot, b.grain⟩ }
  else s

/-- (frame, slot, grain) of an item lies before the present position, frames counted from the start of the pause. -/
def Tb.passed (b : Tb) (f0 : BitVec 16) (i : BufItem) : Bool :=
  let n := frameDiff i.frame f0
  let m := frameDiff b.frame f0
  n < m || (n == m && (i.slot < b.slot || (i.slot == b.slot && i.e.grain.toNat < b.grain)))

/-- A pause ends (R229). Class 3 entries that were presented before it are not late (log 59). -/
def State.endPause (s : State) (t : TbId) : State :=
  let b := s.transit.tb[t]
  match b.pause with
  | none => s
  | some p0 =>
    let n := (b.frame - p0.frame).toNat
    let f := b.frame
    let before := (List.range b.slot).map fun k => (f, k)
    if n < 16 && s.tbRuns t then
      let stale (o : Option (BitVec 16 × Nat)) : Bool := o != some (f, b.slot)
      let past := b.passed p0.frame
      let live := b.live.filter fun i => past i || stale b.liveOf
      let store := b.store.filter past
      let merging := b.merging.filter past
      -- occurrences whose walk the pause prevented, in the order in which they fell
      let slots := (s.busySlots t).mergeSort (fun a c => a ≤ c)
      let due := (List.range (n + 1)).flatMap fun k =>
        let fk := p0.frame + BitVec.ofNat 16 k
        (slots.filter fun sl =>
          sl ≤ b.slast.toNat && (k ≠ 0 || p0.slot ≤ sl) && (k ≠ n || sl < b.slot) && !b.started fk sl).map fun sl => (fk, sl)
      let s := s.modTb t fun b =>
        { b with pause := none, live := b.live.filter (fun i => !live.contains i),
                 liveOf := if stale b.liveOf then none else b.liveOf,
                 store := b.store.filter (fun i => !past i), merging := b.merging.filter (fun i => !past i),
                 ran := (b.ran ++ before.filter (fun o => !b.ran.contains o)).filter fun o =>
                   o.1 = b.frame ∨ o.1 = b.frame + 1 }
      let s := s.lateAll t (live ++ store ++ merging)
      let s := due.foldl (fun s o => s.cleanup t o.1 o.2) s
      s.pump 6 t
    else
      let keys := ((s.transit.queues.map (·.1)).filter fun k => keyTb k = t.val).map fun k => (k, (s.transit.queue k).items)
      let all := (b.live ++ b.store ++ b.merging).filter fun i => !i.e.stands
      let s := s.modTb t fun b =>
        { b with pause := none, alias_ := true, live := [], liveOf := none, liveCnt := 0, store := [], storeOf := none,
                 storeCnt := 0, merging := [], walk := none, sorting := false, cleanup := false, swapDue := false,
                 ran := before }
      let s := keys.foldl (fun s q => (s.walkQueue t .shots f (keySlot q.1) ⟨[], 0, 0⟩ q).1) (s.lateAll t all)
      s.pump 6 t

/-- Pauses end where no cause is left (R229). -/
def State.resumeAll (s : State) : State :=
  ((List.finRange 8).foldl (fun s t => if s.pauseCause t then s else s.endPause t) s).ephLevel

/-- Every timebase pauses (R229): a halt of the engine, or NAP. -/
def State.pauseAll (s : State) : State := (List.finRange 8).foldl (fun s t => s.beginPause t) s

/-! ## A position sample as the engine takes it -/

/-- The engine's side of a sample: RUN, the position, and whether a restart made it (R196, R229, R511). `short`: a short sample
period (R246). -/
def State.tbSample (s : State) (t : TbId) (run : Bool) (slot grain : Nat) (restart short : Bool) : State :=
  let b := s.transit.tb[t]
  let geom := run && (b.slast.toNat < slot || b.grains t ≤ grain)
  let s := if geom then s.modTb t fun b => { b with geomErr := true } else s
  if !b.en then s.modTb t fun b => { b with run := run, slot := slot, grain := grain }
  else if !run then (s.modTb t fun b => { b with run := false }).beginPause t
  else if b.starting then
    let s := s.modTb t fun b => { b with run := true, slot := slot, grain := grain }
    if s.transit.halted || s.power.state != .run then s
    else
      let s := s.firstPos t slot grain
      if s.portHeld t then s.beginPause t else s.presentLanes t short
  else
    let fresh := !b.run
    let s := s.modTb t fun b => { b with run := true }
    let frameCh :=
      if fresh then decide (slot < b.slot) || (slot == b.slot && decide (grain ≤ b.grain))
      else b.isFrameChange slot grain restart
    if b.pause.isSome then
      let s := s.movePos t slot grain frameCh restart
      if s.pauseCause t then s else (s.endPause t).presentLanes t short
    else
      let s := s.enterPos t slot grain restart
      if s.pauseCause t then s.beginPause t else s.presentLanes t short

/-! ## Acceptance (R204 to R211) -/

/-- A lane head waits: its timebase is paused, or a FLUSH_TB holds the offer (R229, R233). -/
def State.offerWaits (s : State) (g : Staged) : Bool :=
  s.transit.tb[g.tb].pause.isSome || s.transit.tb[g.tb].flushing

/-- What core `c` offers: the head of its counted lane when that holds an entry, else of its other lane (R205, R206). -/
def State.offer (s : State) (c : CoreId) : Option Staged :=
  let l := s.core[c].staging
  match (match l.find? (·.lane) with | some g => some g | none => l.head?) with
  | some g => if s.offerWaits g then none else some g
  | none => none

/-- Entries can be accepted at all (R23, R199, R208, R229). -/
def State.accepts (s : State) : Bool :=
  s.mainRuns && s.power.state == .run && s.transit.ready && !s.transit.halted && s.transit.free != 0

/-- The acceptance of an entry that has left its lane: discarded as stale, or given an Ephemeris entry and a path (R204, R208, R211). -/
def State.accept (s : State) (g : Staged) : State :=
  let b := s.transit.tb[g.tb]
  if !b.en || b.period != g.period then s.modTransit fun x => { x with stale := satInc x.stale }
  else
    let r := s.transit.alloc g.e
    let s := ({ s with transit := r.2 } : State).countB 0x41
    (s.decidePath 8 g.tb g.slot.toNat g.cls r.1).ephLevel

/-- TRANSIT_ACCEPT for group `g` (R206, R207). -/
def State.transitAccept (s : State) (g : Fin 4) : State :=
  if !s.accepts then s
  else
    let core (i : Fin 4) : CoreId := ⟨4 * g.val + i.val, by omega⟩
    let order := (List.finRange 4).map fun i => s.transit.rr[g] + i
    let offers := order.filter fun i => (s.offer (core i)).isSome
    let isLane (i : Fin 4) : Bool := match s.offer (core i) with | some e => e.lane | none => false
    match (match offers.find? isLane with
           | some i => some i
           | none => if s.transit.rsvOnly then none else offers.head?) with
    | some i =>
      match s.offer (core i) with
      | some e =>
        let s := s.modCore (core i) fun k => { k with staging := k.staging.erase e }
        let s := s.modTransit fun x => { x with rr := x.rr.set g (i + 1) }
        s.accept e
      | none => s
    | none =>
      if !offers.isEmpty then s
      else match s.transit.ringFifo with
      | e :: l =>
        if s.offerWaits e || s.transit.rsvOnly then s
        else (s.modTransit fun x => { x with ringFifo := l }).accept e
      | [] => s

/-! ## Commands of TRN_CMD (R233) -/

/-- CMDBUSY. -/
def Transit.busy (x : Transit) : Bool := !x.cmds.isEmpty

/-- Frees every entry linked in a queue, up to an uncorrectable one (R230, R233). -/
def State.flushQueue (s : State) (k : Nat) : State :=
  let r := s.readQueue k
  let s := r.2
  let good := r.1.items.takeWhile fun i => !s.transit.ephBad.contains i
  let corr := (good.filter fun i => s.transit.ephCorr.contains i).length
  let s := s.modTransit fun x =>
    good.foldl Transit.freeEntry { x.setQueue k {} with ecnt := satAdd x.ecnt corr }
  (if good.length < r.1.items.length then s.ephError else s).ephLevel

/-- Every entry of a timebase's buffers, store and carry queue is freed, its walks stop, then its queues (R233). -/
def State.flushTb (s : State) (t : TbId) : State :=
  let b := s.transit.tb[t]
  let held := (b.live ++ b.store ++ b.merging ++ b.carry).filter fun i => !i.e.stands
  let s := s.modTb t fun b =>
    { b with live := [], store := [], merging := [], carry := [], armed := [], liveCnt := 0, storeCnt := 0, storeOf := none,
             liveOf := some (b.frame, b.slot), walk := none, sorting := false, cleanup := false, swapDue := false,
             flushing := true }
  let s := s.modTransit fun x => held.foldl (fun x i => x.freeEntry i.idx) x
  let s := ((s.transit.queues.map (·.1)).filter fun k => keyTb k = t.val).foldl State.flushQueue s
  (s.modPort (portOf t) fun p => { p with out := [] }).ephLevel

/-- RESET_EPH (R233). -/
def State.resetEph (s : State) : State :=
  let s := s.modTransit fun x =>
    { x with queues := [], ephFree := [], ephNext := 0,
             tb := Vector.ofFn fun t => { x.tb[t] with
               live := [], store := [], merging := [], carry := [], armed := [], liveCnt := 0, storeCnt := 0, storeOf := none,
               walk := none, sorting := false, cleanup := false, swapDue := false } }
  s.ephLevel

/-- READ_ENTRY: the entry as stored. What is undefined, or not known bit for bit, is free (R233). -/
def State.readEntry (s : State) (i : Nat) : State :=
  let x := s.transit
  if (alGet x.eph i).isNone || x.ephCorr.contains i || x.ephBad.contains i then
    let a := s.free
    let b := a.2.free
    let c := b.2.free
    let d := c.2.free
    d.2.modTransit fun x => { x with dat := #v[a.1, b.1, c.1, d.1 &&& 0xFF] }
  else
    let e := (x.entry i).bits
    let d := #v[bits e 0 32, bits e 32 32, bits e 64 32, BitVec.ofNat 32 (eccOf 96 7 e.toNat)]
    s.modTransit fun x => { x with dat := d }

/-- The queue-state word's flags, bits [39:34] (R199). -/
def Queue.flags (q : Queue) : BitVec 6 :=
  let ne := !q.items.isEmpty
  let low : BitVec 39 :=
    (if ne then (BitVec.ofNat 39 (q.items.headD 0)) ||| (BitVec.ofNat 39 (q.items.getLastD 0) <<< 17) else 0) |||
    (if ne then 1#39 <<< 34 else 0) ||| (if q.standing then 1#39 <<< 35 else 0) ||| (if q.edit then 1#39 <<< 36 else 0) |||
    (if q.ovf then 1#39 <<< 37 else 0) ||| (if q.walk then 1#39 <<< 38 else 0)
  (bits low 34 5).setWidth 6 ||| (if parity low = q.parOk then 0x20#6 else 0)

/-- READ_QUEUE (R233). TRN_DAT3, which the operation does not name, keeps its value (DESIGN CHOICE, log 60). -/
def State.readQueueCmd (s : State) (k : Nat) : State :=
  let q := s.transit.queue k
  let h := BitVec.ofNat 32 (q.items.headD 0)
  let l := BitVec.ofNat 32 (q.items.getLastD 0)
  s.modTransit fun x => { x with dat := #v[h, l, fld q.flags 0, x.dat[3]] }

/-- A write of TRN_CMD with OP `op` (R233). -/
def State.trnCmd (s : State) (op : BitVec 4) : State :=
  let err (s : State) : State := s.modTransit fun x => { x with cmdErr := true }
  let arg := s.transit.arg.toNat
  let begin_ (o : TrnOp) (a : Nat) (s : State) : State := s.modTransit fun x => { x with cmds := x.cmds ++ [(o, a)] }
  if s.transit.busy then err s
  else match op.toNat with
  | 1 => begin_ .flushKey arg (if (s.transit.queue arg).walk then s else s.flushQueue arg)
  | 2 => begin_ .flushTb (arg % 8) (s.flushTb ⟨arg % 8, by omega⟩)
  | 3 => begin_ .readEntry (arg % 0x20000) (s.readEntry (arg % 0x20000))
  | 4 => begin_ .readQueue arg (s.readQueueCmd arg)
  | 5 => begin_ .resetEph 0 s.resetEph
  | _ => err s

/-- The oldest operation is a FLUSH_KEY of a queue that a walk still reads (R233). -/
def Transit.waitsWalk (x : Transit) : Bool :=
  match x.cmds with
  | (.flushKey, a) :: _ => (x.queue a).walk
  | _ => false

/-- TRN_CMD_DONE: the oldest operation ends; CMDBUSY falls with the last one and its source is raised (R233, R325). A FLUSH_KEY waits for
a walk of its queue; entries linked since its write are freed as well (DESIGN CHOICE, log 61). -/
def State.trnCmdDone (s : State) : State :=
  match s.transit.cmds with
  | [] => s
  | (o, a) :: l =>
    if s.transit.waitsWalk then s
    else
    let s := s.modTransit fun x => { x with cmds := l }
    let (s, op) : State × Word :=
      match o with
      | .flushKey => (s.flushQueue a, 1)
      | .flushTb =>
        if h : a < 8 then
          (s.modTb ⟨a, h⟩ fun b =>
            { b with flushing := false, holdWalk := b.en && !b.starting,
                     ran := if b.en && !b.starting then b.ran.filter (fun o => o.1 = b.frame ∧ o.2 ≤ b.slot) else b.ran }, 2)
        else (s, 2)
      | .readEntry => (s, 3)
      | .readQueue => (s, 4)
      | .resetEph => (s, 5)
    if l.isEmpty then s.raise 186 op else s

/-- A write of TBn_CFG (R204, R233, R234, R511). -/
def State.tbCfgWrite (s : State) (t : TbId) (v : Word) : State :=
  let b := s.transit.tb[t]
  let en := v.getLsbD 0
  if b.en then
    if en then s
    else
      let s := (s.flushTb t).modTb t fun b =>
        { b with en := false, starting := false, pause := none, holdWalk := false }
      s.modTransit fun x => { x with cmds := x.cmds ++ [(.flushTb, t.val)] }
  else
    s.modTb t fun b =>
      let b := { b with slast := bits v 16 13, glast := if isBeam t then bits v 2 14 ||| 3 else b.glast }
      if en then { b with en := true, starting := true, period := b.period + 1, ran := [], liveOf := none, armed := [],
                          pause := none, holdWalk := false }
      else b

/-! ## Register words (R232) -/

def Transit.ctl (x : Transit) : Word := fld x.rsvent 0 ||| flag x.ringEn 16

def Transit.stat (x : Transit) : Word :=
  fld (BitVec.ofNat 18 x.free) 0 ||| flag x.rsvOnly 18 ||| flag x.ready 19 ||| flag x.busy 20 ||| flag x.cmdErr 21 |||
  flag x.halted 22 ||| flag x.ephErr 23

def Tb.cfg (t : TbId) (b : Tb) : Word :=
  flag b.en 0 ||| flag (!isBeam t) 1 ||| fld b.glast 2 ||| fld b.slast 16

def Tb.frameReg (b : Tb) : Word := fld b.frame 0 ||| flag b.geomErr 16 ||| flag b.alias_ 17

def Tb.mstat (b : Tb) : Word :=
  fld (BitVec.ofNat 10 b.live.length) 0 ||| fld (BitVec.ofNat 10 b.store.length) 10 |||
  fld (BitVec.ofNat 5 b.carry.length) 20 ||| flag b.sorting 25 ||| flag b.cleanup 26

/-! ## The rows -/

def execTransitAccept (g : Fin 4) (s : State) : Host.Outcome State Fault Refusal := .next (s.transitAccept g)

def execLateInsertMerge (t : TbId) (s : State) : Host.Outcome State Fault Refusal := .next (s.lateMerge t)

def execWalkEnd (t : TbId) (s : State) : Host.Outcome State Fault Refusal := .next (s.walkEnd t)

def execSortEnd (t : TbId) (s : State) : Host.Outcome State Fault Refusal := .next (s.sortEnd t)

def execTrnCmdDone (s : State) : Host.Outcome State Fault Refusal := .next s.trnCmdDone

/-- QUEUE_STATE_CLEAR_DONE (R199): every queue state is clear and READY sets. -/
def execQueueStateClearDone (s : State) : Host.Outcome State Fault Refusal :=
  .next (if s.mainRuns && !s.transit.ready then s.modTransit fun x => { x with queues := [], ready := true } else s)

end Sys2Proof.Machine
end

