-- ==== Sys2Proof/Machine/Ports.lean ====
section
/-! DEFINITION. Beam ports, sound ports and Meridian sync (spec 07). The forwarding of a SYNC record and the link-delay
exchange belong to the ring. -/

namespace Sys2Proof.Machine

open Sys2Proof

/-! ## Register words (R261) -/

def Port.ctl (p : Port) : Word := flag p.pen 0 ||| flag p.parchk 1

def Port.stat (p : Port) : Word :=
  flag p.runIn 0 ||| flag p.holdIn 1 ||| flag p.held 2 ||| flag p.jump 3 ||| flag p.parErr 4 ||| flag p.shortp 5

def Ms.ctl (m : Ms) : Word :=
  fld m.mode 0 ||| flag m.fadopt 2 ||| flag m.rsten 3 ||| fld m.psh 4 ||| fld m.kish 8 ||| fld m.rstsh 12 |||
  fld m.miss 16 ||| fld m.ports 20

def Ms.src (m : Ms) : Word := fld m.node 0 ||| fld m.beam 8 ||| fld m.lbeam 10

def MsState.code : MsState → BitVec 3
  | .off => 0 | .acquire => 1 | .locked => 2 | .holdover => 3 | .lost => 4

def Ms.stat (m : Ms) : Word :=
  fld m.state.code 0 ||| flag m.geom 3 ||| flag m.fadopted 4 ||| flag m.restarted 5 ||| fld m.gen 6 ||| fld m.hops 8 |||
  flag m.dotErr 14

/-- MSn_RATE: RATE, signed (R256). -/
def Ms.rateWord (m : Ms) : Word := m.rate

/-! ## Meridian states (R256, R257) -/

/-- The range of R255. -/
def dotperOk (v : Word) : Bool := 0xD555 ≤ v.toNat && v.toNat ≤ 0xFFFFFF

/-- PSH as it acts: 9 to 15 as 8, and 0 for a local follower (R254, R261). -/
def Ms.pshOf (m : Ms) : Nat := if m.useMode = 3 then 0 else min m.usePsh 8

/-- Lines without an accepted record that end LOCKED or ACQUIRE (R257). -/
def Ms.missLines (m : Ms) : Nat := max 1 m.miss.toNat * 2 ^ m.pshOf

def Ms.follows (m : Ms) : Bool := m.state != .off

/-- A local follower that is told to follow itself stays in ACQUIRE (R261). -/
def Ms.ownBeam (m : Ms) (n : Fin 4) : Bool := m.useMode == 3 && m.useLbeam.toNat == n.val

/-- Entry to ACQUIRE: RATE, ACC and PEND are 0 (R256). -/
def Ms.toAcquire (m : Ms) : Ms :=
  { m with state := .acquire, rate := 0, acc := 0, pend := 0, inRow := 0, outRow := 0 }

/-- MODE, PSH and MSn_SRC take effect at quad 0 (R254, R257). -/
def Ms.applyChange (m : Ms) : Ms :=
  if !m.change then m
  else
    let m := { m with change := false, useMode := m.mode, usePsh := m.psh.toNat, useNode := m.node, useBeam := m.beam,
                      useLbeam := m.lbeam, lastSeq := none, lines := 0, frames := 0, restartAt := none, adoptDue := false }
    if 2 ≤ m.mode.toNat then m.toAcquire else { m with state := .off }

/-- A write of MSn_CTL (R257, R261). -/
def Ms.ctlWrite (m : Ms) (v : Word) : Ms :=
  let mode := bits v 0 2
  let psh := bits v 4 4
  { m with mode := mode, fadopt := v.getLsbD 2, rsten := v.getLsbD 3, psh := psh, kish := bits v 8 4, rstsh := bits v 12 4,
           miss := bits v 16 4, ports := bits v 20 4,
           change := m.change || mode != m.mode || psh != m.psh }

/-- A write of MSn_SRC (R257, R261). -/
def Ms.srcWrite (m : Ms) (v : Word) : Ms :=
  let node := bits v 0 7
  let beam := bits v 8 2
  let lbeam := bits v 10 2
  { m with node := node, beam := beam, lbeam := lbeam,
           change := m.change || node != m.node || beam != m.beam || lbeam != m.lbeam }

/-- RATE after a record: e × 2^(16 - PSH - KISH) added, and clamped (R256). Where the exponent is negative and the product is no
integer, the spec does not say which of its two neighbours is taken: `up` is free. -/
def Ms.nextRate (m : Ms) (e : Int) (up : Bool) : Int :=
  let k : Int := 16 - (m.pshOf : Int) - m.kish.toNat
  let step : Int :=
    if 0 ≤ k then e * 2 ^ k.toNat
    else
      let d : Int := 2 ^ (-k).toNat
      e.fdiv d + if e.fmod d ≠ 0 ∧ up then 1 else 0
  max (-(2 ^ 20)) (min (2 ^ 20) (m.rate.toInt + step))

/-- The bound of R257 and R260 in 1/16 dot. -/
def Ms.bound (m : Ms) (grains genmin : Nat) : Int :=
  if m.useMode = 3 then 16
  else match genmin with
    | 3 => 32
    | 2 => 256
    | _ => grains * 16

/-- An accepted record with phase error `e`, and what it raises (R254, R256 to R258). `aligned`: the master's number for the
follower's present frame; `pf`, `total`: own position and frame length, in 1/16 dot; `units`: quads per line. -/
def State.msRecord (s : State) (n : Fin 4) (e : Int) (aligned : BitVec 16) (genmin hops : Nat) (total units : Nat) : State :=
  let m := s.ports.ms[n]
  let b := m.bound (s.transit.tb[(n.castLE (by omega) : TbId)].glast.toNat + 1) genmin
  let ok := decide (e.natAbs ≤ b.natAbs)
  let up := Config.freeBool s.freeCtr
  let s := { s with freeCtr := s.freeCtr + 1 }
  let m : Ms := { m with err := BitVec.ofInt 32 e, gen := BitVec.ofNat 2 genmin, hops := BitVec.ofNat 6 hops, lines := 0,
                         adopt := some aligned }
  let restart := m.state = .acquire && m.rsten && decide (16 * 2 ^ m.rstsh.toNat < e.natAbs)
  let m : Ms :=
    if restart then
      -- line 0, quad 0 is due when the follower would be at e of its frame; the code is driven three edges before (R244, R258)
      let q := ((e.emod total).toNat + 32) / 64 % (total / 64)
      let q := (q + total / 64 - 3) % (total / 64)
      { m with restartAt := some (q / units, q % units) }
    else
      let m := { m with rate := BitVec.ofInt 32 (m.nextRate e up) }
      if m.state = .holdover ∨ m.state = .lost then m else { m with pend := e }
  let m : Ms := { m with inRow := if ok then m.inRow + 1 else 0, outRow := if ok then 0 else m.outRow + 1 }
  let lock (m : Ms) : Ms := { m with state := .locked, inRow := 0, outRow := 0, adoptDue := true }
  let m' : Ms := match m.state with
    | .acquire => if 4 ≤ m.inRow then lock m else m
    | .locked => if 2 ≤ m.outRow then m.toAcquire else m
    | .holdover => if ok then lock m else m.toAcquire
    | .lost => m.toAcquire
    | .off => m
  let s := s.modMs n fun _ => m'
  if m'.state == .locked && m.state != .locked then s.raise ⟨192 + n.val, by omega⟩ m'.err else s

/-- Brings a phase difference into the range of R254: the error, and the turns added. -/
def phase (raw : Int) (total : Nat) : Int × Int :=
  if (total : Int) < 2 * raw then (raw - total, -1)
  else if 2 * raw ≤ -(total : Int) then (raw + total, 1) else (raw, 0)

/-- The position of a beam in sixteenths of a dot: the grain that its last sample began, and the sixteenths since (R240, R254). -/
def Tb.pos16 (b : Tb) (within : BitVec 6) : Nat := (b.slot * (b.glast.toNat + 1) + b.grain) * 16 + within.toNat

/-- A SYNC record at follower `n` (R254, R255). `within`: how far the follower is into its present quad, in sixteenths of a dot. A DOTPER
outside the range of R255 sets DOTERR whatever the record's source. -/
def State.msSync (s : State) (n : Fin 4) (p : PortId) (src : BitVec 7) (r : SyncRec) (within : BitVec 6) : State :=
  let m := s.ports.ms[n]
  let b := s.transit.tb[(n.castLE (by omega) : TbId)]
  let dot := !(dotperOk r.dotper) || !(dotperOk m.dotper)
  if m.useMode ≠ 2 ∨ !m.follows then s
  else if src ≠ m.useNode ∨ r.beam ≠ m.useBeam.setWidth 8 then s.modMs n fun m => { m with dotErr := m.dotErr || dot }
  else
    let geom := r.glast != b.glast.setWidth 16 || r.slast != b.slast.setWidth 16
    let rp := s.ring.port[p]
    let newer := match m.lastSeq with
      | none => true
      | some q => let d := (r.seq - q).toNat; 1 ≤ d && d ≤ 32767
    if geom || dot || decide (0x40 < m.useNode.toNat) || !m.ports.getLsbD p.val || !rp.dlyOk || r.genmin = 0 || !newer then
      s.modMs n fun m =>
        { m with geom := m.geom || geom, dotErr := m.dotErr || dot, drop := satInc m.drop }
    else
      let grains := b.glast.toNat + 1
      let total := grains * 16 * (b.slast.toNat + 1)
      let d : Int := r.corr + rp.ldly.toNat
      let x : Int := r.line.toNat * grains * 16 + r.pos16.toNat + (d * 16).fdiv r.dotper.toNat
      let ph := phase ((b.pos16 within : Int) - x.emod total) total
      let aligned := r.frame + BitVec.ofInt 16 (x.ediv total + ph.2)
      let s := s.modMs n fun m => { m with lastSeq := some r.seq }
      s.msRecord n ph.1 aligned r.genmin.toNat r.hops.toNat total (grains / 4)

/-- A local follower forms its error from the two positions sampled (R254). -/
def State.msLocal (s : State) (n : Fin 4) : State :=
  let m := s.ports.ms[n]
  let l : TbId := ⟨m.useLbeam.toNat, by omega⟩
  if m.useMode ≠ 3 ∨ !m.follows ∨ m.ownBeam n ∨ !s.tbRuns l then s
  else
    let b := s.transit.tb[(n.castLE (by omega) : TbId)]
    let a := s.transit.tb[l]
    let grains := b.glast.toNat + 1
    let total := grains * 16 * (b.slast.toNat + 1)
    let ph := phase ((b.pos16 0 : Int) - (a.pos16 0 : Int).emod total) total
    s.msRecord n ph.1 (a.frame + BitVec.ofInt 16 ph.2) 0 0 total (grains / 4)

/-- A master's SYNC record at quad 0 of a line, queued on each linked port of PORTS. It is one record, with one SEQ, and where no port
is linked none is sent (R253, R255). FRAME, LINE and POS16 are those of its departure, when they are set. -/
def State.syncSend (s : State) (n : Fin 4) (line : Nat) : State :=
  let m := s.ports.ms[n]
  let b := s.transit.tb[(n.castLE (by omega) : TbId)]
  if m.useMode ≠ 1 ∨ line % 2 ^ m.pshOf ≠ 0 then s
  else if !(dotperOk m.dotper) then s.modMs n fun m => { m with dotErr := true }
  else
    let r : SyncRec :=
      { beam := BitVec.ofNat 8 n.val, frame := b.frame, line := BitVec.ofNat 16 line, pos16 := 0, dotper := m.dotper,
        corr := 0, glast := b.glast.setWidth 16, slast := b.slast.setWidth 16, seq := m.seq, genmin := 0, hops := 0 }
    let out := (List.finRange 4).filter fun p => m.ports.getLsbD p.val && s.ring.port[p].link
    let s := if out.isEmpty then s else s.modMs n fun m => { m with seq := m.seq + 1 }
    out.foldl (fun s p => s.modRp p fun rp => { rp with txq := rp.txq ++ [.sync r] }) s

/-- The trim law at quad 0 of a line (R256): the code driven. -/
def Ms.trim (m : Ms) : BitVec 2 × Ms :=
  let acc := m.acc + m.rate.toInt
  if 2 ^ 20 ≤ acc then (1, { m with acc := acc - 2 ^ 20 })
  else if acc ≤ -(2 ^ 20) then (2, { m with acc := acc + 2 ^ 20 })
  else if 8 ≤ m.pend then (1, { m with acc := acc, pend := m.pend - 16 })
  else if m.pend ≤ -8 then (2, { m with acc := acc, pend := m.pend + 16 })
  else (0, { m with acc := acc })

/-- What Meridian sync does at a position of a running beam (R253, R254, R256 to R258). At most one trim code leaves in a line (R244): a
RESTART that falls in a line whose quad 0 had a code waits for its place in the next frame. RESTART leaves in the quad cycle that R258
asks for, which need not be the one after quad 0 (DEDUCED, log 62). -/
def State.msQuad (s : State) (n : Fin 4) (line quad : Nat) : State :=
  let t : TbId := n.castLE (by omega)
  if !s.tbRuns t || s.power.state != .run then s
  else
    let s :=
      if quad = 0 then
        let s := s.modMs n fun m =>
          { (if m.change then m.applyChange else { m with lines := m.lines + 1 } : Ms) with coded := false }
        let s := (s.syncSend n line).msLocal n
        let m := s.ports.ms[n]
        if m.follows && m.restartAt.isNone then
          let r := m.trim
          (s.modMs n fun _ => { r.2 with coded := r.1 != 0 }).modPort t fun p => { p with trim := r.1 }
        else s
      else s
    if s.ports.ms[n].restartAt = some (line, quad) ∧ !s.ports.ms[n].coded then
      let s := s.modMs n fun m =>
        { m with restartAt := none, pend := 0, acc := 0, restarted := true, coded := true }
      s.modPort t fun p => { p with trim := 3, restart := some 3 }
    else s

/-! ## Position samples (R235 to R240, R246) -/

/-- The prediction of a port (R237, R244). -/
def Port.predict (p : Port) (lastUnit lastSlot : Nat) : Option (Nat × Nat) :=
  if p.restart = some 1 then some (0, 0)
  else p.last.map fun q =>
    if q.2 < lastUnit then (q.1, q.2 + 1) else if q.1 < lastSlot then (q.1 + 1, 0) else (0, 0)

/-- A sample at port `n`, whose position is (slot, unit) and whose parity bit makes it `good` (R237, R238): what the engine is told,
and the port's own part. A position above SLAST or GLAST is a jump wherever a prediction exists. -/
def State.portSample (s : State) (n : Fin 8) (slot unit : Nat) (run hold good short : Bool) : State :=
  let p := s.ports.port[n]
  let b := s.transit.tb[n]
  let lastUnit := b.units n - 1
  let pred := p.predict lastUnit b.slast.toNat
  let bad := p.parchk && !good
  let (run, hold, pos) : Bool × Bool × (Nat × Nat) :=
    if !bad then (run, hold, (slot, unit))
    else if p.seen then (p.runIn, p.holdIn, pred.getD (0, 0))
    else (false, false, (0, 0))
  let above := decide (b.slast.toNat < pos.1) || decide (lastUnit < pos.2)
  let jump := !bad && run && (match pred with | some q => q != pos || above | none => false)
  let restart := p.restart = some 1 && run && pos == (0, 0)
  let p' := { p with
    runIn := run, holdIn := hold, held := hold || !run || (if h : n.val < 4 then s.instIn 6 ⟨n.val, h⟩ else false),
    jump := p.jump || jump, jumps := if jump then satInc p.jumps else p.jumps,
    parErr := p.parErr || bad, poserr := if bad then satInc p.poserr else p.poserr,
    shortp := p.shortp || short, seen := p.seen || !bad,
    last := if run then some pos else none,
    restart := match p.restart with | some 1 => none | some k => some (k - 1) | none => none,
    out := [], trim := 0 }
  let s := s.modPort n fun _ => p'
  let s := if jump || bad then
      s.raise (if h : n.val < 4 then ⟨204 + n.val, by omega⟩ else ⟨208 + n.val, by omega⟩) p'.stat
    else s
  s.tbSample n run pos.1 (if isBeam n then 4 * pos.2 else pos.2) restart short

/-- BEAM_POSITION_SAMPLE (R235 to R241, R253, R256). -/
def State.beamSample (s : State) (n : Fin 4) (line : BitVec 13) (quad : BitVec 12) (run hold par : Bool) : State :=
  let k : Fin 8 := n.castLE (by omega)
  if s.power.mainRst || !s.ports.port[k].pen then s
  else
    let odd := parity line ^^ parity quad ^^ run ^^ hold ^^ par
    let s := s.portSample k line.toNat quad.toNat run hold (!odd) false
    match s.ports.port[k].last with
    | some q => s.msQuad n q.1 q.2
    | none => s

def execBeamPositionSample (n : Fin 4) (line : BitVec 13) (quad : BitVec 12) (run hold par : Bool) (s : State) :
    Host.Outcome State Fault Refusal := .next (s.beamSample n line quad run hold par).ephLevel

/-- SOUND_POSITION_SAMPLE (R245 to R247). -/
def execSoundPositionSample (m : Fin 4) (blk : BitVec 13) (smp : BitVec 6) (run hold par : Bool) (aclks : Nat)
    (s : State) : Host.Outcome State Fault Refusal :=
  let k : Fin 8 := ⟨4 + m.val, by omega⟩
  if s.power.mainRst || !s.ports.port[k].pen then .next s
  else
    let odd := parity blk ^^ parity smp ^^ run ^^ hold ^^ par
    .next (s.portSample k blk.toNat smp.toNat run hold (!odd) (decide (aclks < 32))).ephLevel

/-! ## Output pins (R235, R241, R243 to R245, R247) -/

/-- Bn_PEN and Sm_PEN, and whether the port drives anything: in NAP, and without the main domain, as though PEN were 0 (R243, R248). -/
def State.portDrives (s : State) (n : Fin 8) : Bool := s.ports.port[n].pen && !s.power.mainRst && s.power.state == .run

/-- The outputs of a beam port. -/
structure BeamPins where
  stb  : Bool := false
  addr : BitVec 20 := 0
  data : Word := 0
  be   : BitVec 4 := 0
  ofs  : BitVec 2 := 0
  lead : BitVec 2 := 0
  cls  : Bool := false
  par  : Bool := false
  trim : BitVec 2 := 0
  pen  : Bool := false
  deriving DecidableEq, Repr

/-- Even parity over a beam commit's fields (R235). -/
def Commit.beamPar (k : Commit) : Bool :=
  parity k.addr ^^ parity k.data ^^ parity k.be ^^ parity k.ofs ^^ parity k.lead ^^ (k.cls == 1)

/-- What beam port `n` drives in the present quad cycle; without a commit every commit output is 0 (R241). -/
def State.beamPins (s : State) (n : Fin 4) : BeamPins :=
  let k : Fin 8 := n.castLE (by omega)
  let p := s.ports.port[k]
  if !s.portDrives k then {}
  else match p.out with
    | c :: _ => { stb := true, addr := c.addr, data := c.data, be := c.be, ofs := c.ofs, lead := c.lead, cls := c.cls == 1,
                  par := c.beamPar, trim := p.trim, pen := true }
    | [] => { trim := p.trim, pen := true }

/-- One beat of a sound commit, with CMT_V at 1. -/
structure Beat where
  first : Bool
  d     : Word
  par   : Bool
  deriving DecidableEq, Repr

def Beat.of (first : Bool) (d : Word) : Beat := ⟨first, d, parity d⟩

/-- The two beats of a sound commit (R247). -/
def Commit.beats (k : Commit) : List Beat :=
  [.of true ((k.be.setWidth 32 <<< 28) ||| k.addr.setWidth 32), .of false k.data]

/-- The beats that sound port `m` launches in the present sample period, in order. -/
def State.soundBeats (s : State) (m : Fin 4) : List Beat :=
  let k : Fin 8 := ⟨4 + m.val, by omega⟩
  if s.portDrives k then s.ports.port[k].out.flatMap Commit.beats else []

/-! ## The other rows -/

/-- A write of BPn_CTL or SPm_CTL (R237, R243). -/
def State.portCtl (s : State) (n : Fin 8) (v : Word) : State :=
  let p := s.ports.port[n]
  let pen := v.getLsbD 0
  if p.pen == pen then s.modPort n fun p => { p with parchk := v.getLsbD 1 }
  else
    let s := s.modPort n fun p =>
      { p with pen := pen, parchk := v.getLsbD 1, out := [], trim := 0, last := none, seen := false, restart := none }
    if pen then s else (s.beginPause n).modTb n fun b => { b with run := false }

/-- MERIDIAN_MISS_EXPIRY (R257). -/
def execMeridianMissExpiry (n : Fin 4) (s : State) : Host.Outcome State Fault Refusal :=
  let m := s.ports.ms[n]
  .next (if (m.state = .locked ∨ m.state = .acquire) ∧ m.missLines ≤ m.lines ∧ !m.ownBeam n then
    (s.modMs n fun m => { m with state := .holdover, pend := 0, frames := 0, restartAt := none }).raise
      ⟨196 + n.val, by omega⟩ m.err
  else s)

/-- MERIDIAN_HOLDOVER_EXPIRY (R254, R257). -/
def execMeridianHoldoverExpiry (n : Fin 4) (s : State) : Host.Outcome State Fault Refusal :=
  let m := s.ports.ms[n]
  .next (if m.state = .holdover ∧ 4 ≤ m.frames then
    (s.modMs n fun m => { m with state := .lost, pend := 0, lastSeq := none }).raise ⟨200 + n.val, by omega⟩ 0
  else s)

end Sys2Proof.Machine
end

