-- ==== Sys2Proof/Machine/Rom.lean ====
section
/-! DEFINITION. Microwords: their fields, check bits and reserved encodings, the ROM part of the control store, what a routine's extent
and trap points are, and the vertical store (spec 05, R157 to R163, R174, R175, R179, R182, R192). -/

namespace Sys2Proof.Machine

open Sys2Proof

abbrev UWord := BitVec 144

/-! ## Fields, check bits and encodings (R159, R163, R165, R171, R175) -/

/-- A field of a microword as a number. -/
def ufield (w : UWord) (k n : Nat) : Nat := (bits w k n : BitVec n).toNat

/-- A micro-register field. -/
def ureg (w : UWord) (k : Nat) : Fin 16 := (bits w k 4 : BitVec 4).toFin

/-- The word with its check bits computed (R159, R184). -/
def withEcc (w : UWord) : UWord :=
  let body := w &&& (BitVec.allOnes 136).setWidth 144
  body ||| ((BitVec.ofNat 144 (eccOf 118 7 (bits w 18 118).toNat)) <<< 136)

/-- Fields with reserved encodings: lowest bit, width, and the encodings that are not reserved. -/
def encodings : List (Nat × Nat × (Nat → Bool)) :=
  [(120, 4, (· ≤ 8)), (108, 6, (· ≤ 0x1E)), (104, 4, (· ≠ 7)), (100, 4, (· ≠ 7)), (94, 3, (· ≤ 4)), (89, 5, (· ≤ 0x0C)),
   (85, 4, (· ≤ 9)), (80, 5, (· ≤ 0x0B)), (55, 4, (· ≤ 6)), (51, 4, (· ≤ 8)), (48, 3, (· ≤ 5)), (43, 3, (· ≤ 6)), (39, 4, (· ≤ 3)),
   (23, 3, (· ≠ 7)), (20, 3, (· ≤ 4))]

def condAssigned (i : Nat) : Bool := i < 0x15 || (0x20 ≤ i && i < 0x40)

/-- Every condition index that the word's branch mode uses is assigned. -/
def condsGood (w : UWord) : Bool :=
  let cond := ufield w 114 6
  let used := match ufield w 120 4 with
    | 2 => [0, 1]
    | 3 => [0, 1, 2, 3]
    | 4 => [0, 1, 2, 3, 7]
    | _ => [0]
  used.all fun i => condAssigned (cond + i)

def clearField (w : UWord) (k n : Nat) : UWord := w &&& ~~~(((BitVec.allOnes n).setWidth 144) <<< k)

/-- A word without reserved encodings and without bits in [17:0]: what holds of every ROM word (R163). -/
def legalRom (w : UWord) : UWord :=
  let w := encodings.foldl (fun (w : UWord) (e : Nat × Nat × (Nat → Bool)) =>
    if e.2.2 (ufield w e.1 e.2.1) then w else clearField w e.1 e.2.1) (clearField w 0 18)
  if condsGood w then w else clearField w 114 6

/-! ## The ROM (R157, R158) -/

def isRam (a : BitVec 12) : Bool := 0xC00 ≤ a.toNat

/-- The ROM word at a micro-address. The words from 0xA00 to 0xBFC hold what 0xBFF holds. -/
def romAt (a : BitVec 12) : UWord :=
  withEcc (legalRom (Config.romWord (if 0xA00 ≤ a.toNat ∧ a.toNat < 0xBFD then 0xBFF else a)))

/-- An assigned primary opcode (the opcode map under R75). -/
def opAssigned (b : Byte) : Bool :=
  let n := b.toNat
  n < 0x25 || (0x28 ≤ n && n < 0x37) || (0x38 ≤ n && n < 0x3F) || (0x40 ≤ n && n < 0x46) || (0x48 ≤ n && n < 0x6D) ||
  (0x70 ≤ n && n < 0x8A) || (0x90 ≤ n && n < 0xA3) || (0xB0 ≤ n && n < 0xF0)

/-- An assigned page byte after 0xFE. -/
def extAssigned (b : Byte) : Bool :=
  let n := b.toNat
  n < 0x07 || (0x10 ≤ n && n < 0x14) || (0x20 ≤ n && n < 0x22) || (0x30 ≤ n && n < 0x32) || (0x40 ≤ n && n < 0x42)

/-- The part of the ROM that holds an instruction's routine: its first address, and the size of the part less 1 (R157; DEDUCED, log 15). -/
def romPart (i : BitVec 12) : BitVec 12 × BitVec 12 :=
  let b := i.toNat
  if b < 0x100 then (if 0x9B ≤ b ∧ b ≤ 0x9D then (0x700, 0xFF) else (0, 0x1FF))
  else if 0x110 ≤ b ∧ b < 0x114 then (0x400, 0x1FF)
  else (0x200, 0x1FF)

/-- The start micro-address at a dispatch index: an unassigned one has 0xBFF (R157, R189). -/
def dispatch (i : BitVec 12) : BitVec 12 :=
  let b : Byte := bits i 0 8
  if (if i.toNat < 0x100 then opAssigned b else extAssigned b) then
    (romPart i).1 ||| (Config.dispatchWord i &&& (romPart i).2)
  else 0xBFF

/-- Starts of the spill and fill routines: data spill, data fill, return spill, return fill (R157). -/
def spillStart (k : Fin 4) : BitVec 12 := 0x600#12 ||| (Config.spillStart k.val &&& 0xFF)

/-- Starts of the entry routines, of the fast class and of the normal class (R157). -/
def entryStart (fast : Bool) : BitVec 12 := 0x700#12 ||| (Config.entryStart fast &&& 0xFF)

/-! ## What a routine reaches (R158, R174, R179) -/

/-- The micro-addresses to which the word `w` at `a` can lead; a RET leads to where a CALL of the routine left off, which the CALL
gives. -/
def uNext (w : UWord) (a : BitVec 12) : List (BitVec 12) :=
  let next : BitVec 12 := bits w 124 12
  let ways (n : Nat) : List (BitVec 12) := (List.range n).map fun i => next ||| BitVec.ofNat 12 i
  if ufield w 59 2 ≠ 0 then []
  else match ufield w 120 4 with
  | 0 => [next]
  | 1 => ways 2
  | 2 => ways 4
  | 3 => ways 8
  | 4 => ways 16
  | 5 => ways 2
  | 6 => [next, a + 1]
  | 7 => []
  | _ => [next, a]

/-- The ROM addresses that a routine reaches from `todo`, beside those seen already. -/
def romReach : Nat → List (BitVec 12) → List (BitVec 12) → List (BitVec 12)
  | 0, _, seen => seen
  | _, [], seen => seen
  | fuel + 1, a :: todo, seen =>
    if seen.contains a || isRam a then romReach fuel todo seen
    else romReach fuel (uNext (romAt a) a ++ todo) (seen ++ [a])

/-- The routine that starts at `a`. Every word of it is visited once, and leads to at most 16 others. -/
def routineFrom (a : BitVec 12) : List (BitVec 12) := romReach (17 * 3072) [a] []

/-- Whether a run of the routine from `start` reads `a`: always its start; another word of it as its path goes, which is open. -/
def romUses (start a : BitVec 12) : Bool := a == start || (Config.romUses start a && (routineFrom start).contains a)

/-- The micro-addresses at which the routine from `start` can stand saved: what its TRAPOK words lead to. -/
def trapPoints (start : BitVec 12) : List (BitVec 12) :=
  ((routineFrom start).filter fun a => (romAt a).getLsbD 61).flatMap fun a => uNext (romAt a) a

/-- Where the routine from `start` stands after `n` of its steps: one of its trap points, which one is open. -/
def trapPoint (start : BitVec 12) (n : Nat) : BitVec 12 :=
  let l := trapPoints start
  l.getD ((Config.romPoint start n).toNat % l.length) start

/-! ## The vertical store (R192) -/

/-- A vertical word with its 6 check bits: the code of R159 over 24 bits. -/
def withCheck (w : BitVec 24) : BitVec 30 :=
  w.setWidth 30 ||| ((BitVec.ofNat 30 (eccOf 24 5 w.toNat)) <<< 24)

/-- The vertical word at an address, whatever its check says. -/
def vertAt (a : BitVec 11) : BitVec 30 := withCheck (Config.verticalWord a)

def setField (w : UWord) (k n v : Nat) : UWord := clearField w k n ||| ((BitVec.ofNat 144 (v % 2 ^ n)) <<< k)

/-- The horizontal microword into which a vertical word expands: CYC 0b00, of its class alone, and not the end of anything. What its VA
and VB fields select is not printed by the spec and is `Config.verticalExpand`. -/
def vertWord (v : BitVec 24) : UWord :=
  let op := ufield (v.setWidth 144) 20 4
  let vx := ufield (v.setWidth 144) 0 12
  let w := legalRom (Config.verticalExpand v)
  let w := [(62, 2), (59, 2), (120, 4), (43, 3), (55, 4), (51, 4), (61, 1)].foldl
    (fun (w : UWord) (f : Nat × Nat) => clearField w f.1 f.2) w
  let w := if op = 2 then w else clearField w 89 5
  let w := if op = 8 then w else clearField w 20 3
  let w := if op = 1 then w else clearField w 48 3
  let w := if op = 3 then setField (setField w 64 16 vx) 104 4 6 else w
  if op = 6 then setField w 80 5 9 else if ufield w 80 5 = 9 then clearField w 80 5 else w

end Sys2Proof.Machine
end

