-- ==== Sys2Proof/Machine/Trace.lean ====
section
/-! DEFINITION. The debug levels, trace packets and sinks, the cross-trigger matrix, and the halt and release of its members (spec 15,
R459 to R472, R479 to R483). -/

namespace Sys2Proof.Machine

open Sys2Proof

def State.modDbg (s : State) (f : Debug → Debug) : State := { s with dbg := f s.dbg }

/-! ## The trace FIFO (R479 to R482) -/

/-- Every selected sink has taken the packet (R481). -/
def Debug.taken (d : Debug) (p : Packet) : Bool :=
  (!d.sink.getLsbD 0 || p.byPort) && (!d.sink.getLsbD 1 || p.byBuf)

/-- A packet's 16 bytes (R480). `low` holds PORT, CTX, CORE and TYPE. -/
def packetBits (low : Word) (seq : BitVec 16) (st : Bool × Word × BitVec 16) (data : Word) : BitVec 128 :=
  let w0 : Word := low ||| flag st.1 13 ||| fld seq 16
  w0.setWidth 128 ||| (st.2.1.setWidth 128 <<< 32) ||| (st.2.2.setWidth 128 <<< 64) ||| (data.setWidth 128 <<< 96)

/-- A packet enters the FIFO, a HALT packet ahead of stimulus packets. -/
def Debug.enter (d : Debug) (halt : Bool) (bits : BitVec 128) : Debug :=
  let p : Packet := { bits := bits, halt := halt }
  { d with seq := d.seq + 1,
           fifo := if halt then (d.fifo.takeWhile (·.halt)) ++ [p] ++ (d.fifo.dropWhile (·.halt)) else d.fifo ++ [p] }

/-- Packets that every sink has taken leave; a DROP packet follows where room appears (R479, R481). -/
def State.traceSettle (s : State) : State :=
  let d := { s.dbg with fifo := s.dbg.fifo.filter fun p => !s.dbg.taken p }
  let d := if d.dropped ≠ 0 ∧ d.fifo.length < 64 then
      { (d.enter false (packetBits (fld (1#2) 14) d.seq (s.stamp d.tsel) d.dropped)) with dropped := 0 }
    else d
  { s with dbg := { d with fifo := d.fifo.filter fun p => !d.taken p } }

/-- A packet is made, or dropped where the FIFO is full (R479). -/
def State.packet (s : State) (halt : Bool) (low data : Word) : State :=
  if 64 ≤ s.dbg.fifo.length then
    s.modDbg fun d => { d with drop := satInc d.drop, dropped := satInc d.dropped }
  else (s.modDbg fun d => d.enter halt (packetBits low d.seq (s.stamp d.tsel) data)).traceSettle

/-- The trace unit takes packets. -/
def State.tracing (s : State) : Bool := s.dbg.trEn && !s.dbg.stopped && s.power.vdbg

/-- The HALT packet of a core; its CTX field is not stated by the spec and is a free value (R480). -/
def State.haltPacket (s : State) (c : CoreId) (halted : Bool) : State :=
  if s.tracing then
    let (w, s) := s.free
    s.packet true (flag halted 0 ||| fld (bits w 0 4) 5 ||| fld (BitVec.ofNat 4 c.val) 9 ||| fld (3#2) 14) 0
  else s

/-! ## Watchdog reload (R476, R478) -/

def Wdt.reload (w : Wdt) : Wdt := { w with cnt := if w.load = 0 then 1 else w.load }

def State.modWdt (s : State) (c : CoreId) (f : Wdt → Wdt) : State :=
  { s with counters := { s.counters with wdt := s.counters.wdt.set c (f s.counters.wdt[c]) } }

/-! ## Routines in X and the micro-trap save (R57, R121, R139, R179) -/

/-- A context inside a routine that has not been saved holds its core until a trap point (R121, R179). -/
def Core.midRoutine (k : Core) : Option CtxId :=
  (List.finRange 9).find? fun x => k.ctx[x].routine.isSome && !k.ctx[x].slot.valid

/-- A micro-trap may be taken where the routine stands, but for a spill or fill inside it: after each word of a block move, at every word
of a spill or fill, after a microword with TRAPOK set; in F16 mode at a helper's words only (R51, R81, R179, R194). -/
def Routine.trap (r : Routine) : Bool :=
  match r with
  | .block .. => true
  | .stack .. => true
  | .micro _ _ _ _ _ p => p.trap
  | .f16 _ _ _ va p => va.isNone && p.trap

/-- The progress count of a block move: rows for BLIT and BLITK, words for MOVE and FILL (R110). -/
def blockProgress (op : Byte) (done row : Nat) : Nat := if op = 0x12 ∨ op = 0x13 then row else done

/-- The micro-address of a block move after `n` words: a trap point of its routine (R158, R179). -/
def blockPoint (op : Byte) (n : Nat) : BitVec 12 := trapPoint (dispatch (0x100#12 ||| op.setWidth 12)) n

/-- Words that the spill or fill routine has done, where the context is inside one (R58). -/
def Ctx.spillDone (t : Ctx) : Option Nat := t.moved.map List.length

/-- The micro-address of the spill or fill routine that the context is inside of. -/
def Ctx.spillPoint (t : Ctx) (n : Nat) : BitVec 12 := trapPoint (spillStart t.spillKind) n

/-- U0 to U15 inside a spill or fill after `n` words: U12 to U15 are its own, U14 its progress count (R173, R181). -/
def spillRegs (u : Vector Word 16) (n : Nat) : Vector Word 16 :=
  Vector.ofFn fun i => if i = 14 then BitVec.ofNat 32 n else if 12 ≤ i.val then Config.romReg 0 n i else u[i]

/-- What the micro-save slot takes of a context inside a routine. -/
def Ctx.routineSlot (t : Ctx) (k : Core) : SaveSlot :=
  let at_ (p : UPos) : SaveSlot :=
    match t.spillDone with
    | some n => { upc := t.spillPoint n, ucnt := p.ucnt, u := spillRegs k.u n }
    | none => { upc := p.upc, ucnt := p.ucnt, u := k.u }
  match t.routine with
  | some (.block op n row _) =>
    { upc := blockPoint op n, ucnt := bits (Config.romReg op n 14) 0 4,
      u := Vector.ofFn fun i => if i = 14 then BitVec.ofNat 32 (blockProgress op n row) else Config.romReg op n i }
  | some (.stack ..) =>
    let n := t.spillDone.getD 0
    { upc := t.spillPoint n, ucnt := bits (Config.romReg 0 n 14) 0 4, u := spillRegs (Vector.ofFn (Config.romReg 0 n)) n }
  | some (.micro _ _ _ _ _ p) => at_ p
  | some (.f16 _ _ _ _ p) => at_ p
  | none => t.slot

/-- The micro-trap save (R57). -/
def State.saveSlot (s : State) (c : CoreId) (x : CtxId) : State :=
  (s.modCtx c x fun t => { t with slot := { t.routineSlot s.core[c] with valid := true } }).count c x 0x37

/-- The core's issue slot can be taken: no routine is in X, or the one in X stands at a trap point (R123, R179). -/
def Core.takeable (k : Core) : Bool :=
  match k.midRoutine with
  | some y => match k.ctx[y].routine with | some r => k.ctx[y].moved.isSome || r.trap | none => true
  | none => true

/-- Context `x` can be taken where it stands: it is not in X inside a routine, or is there at a trap point (R179). -/
def Core.stopsAt (k : Core) (x : CtxId) : Bool := k.midRoutine != some x || k.takeable

/-- The routine in X is saved, so that another context, or nothing, can follow it. -/
def State.takeX (s : State) (c : CoreId) : State :=
  match s.core[c].midRoutine with
  | some y => s.saveSlot c y
  | none => s

/-! ## Halt and release of members (R467 to R472) -/

def coreOf (m : Fin 18) : Option CoreId := if h : m.val < 16 then some ⟨m.val, h⟩ else none

def State.memberHalted (s : State) (m : Fin 18) : Bool :=
  match coreOf m with
  | some c => s.core[c].halted
  | none => if m.val = 16 then s.transit.halted else s.dbg.stopped

/-- DBG_HSTAT. -/
def State.hstat (s : State) : Word :=
  (List.finRange 18).foldl (fun w m => w ||| flag (s.memberHalted m) m.val) 0

/-- A halt request to a member (R467, R468): only at level FULL with VDBG on; it acts at its arrival. -/
def State.haltRequest (s : State) (m : Fin 18) (cause : BitVec 2) : State :=
  if s.dbg.level ≠ 2 ∨ !s.power.vdbg ∨ s.memberHalted m then s
  else match coreOf m with
    | some c => s.modCore c fun k =>
        { k with haltReq := if k.haltReq.isNone then some cause else k.haltReq, dozeWake := k.dozeWake || k.dozed }
    | none => if m.val = 16 then s.modDbg fun d => { d with haltTrn := true } else s.modDbg fun d => { d with haltTrc := true }

/-- The state to which a context returns at release (R33, R228). -/
def Ctx.released (t : Ctx) : Ctx × CtxState :=
  match t.preHalt with
  | .sleep => if t.wake then ({ t with wake := false }, .ready) else (t, .sleep)
  | st => (t, st)

/-- A core leaves its halt state (R469). -/
def State.coreRelease (s : State) (c : CoreId) : State :=
  if !s.core[c].halted then s
  else
    let s := s.seating c fun k =>
      Core.settle ({ k with halted := false, stepping := false, stepRan := false, stepDone := k.stepDone || k.stepping }.allCtx fun _ t =>
        if t.st == CtxState.halt then { t.released.1 with st := t.released.2 } else t)
    (s.modWdt c Wdt.reload).haltPacket c false

/-- A member is released (R469). -/
def State.release (s : State) (m : Fin 18) : State :=
  match coreOf m with
  | some c => s.coreRelease c
  | none =>
    if m.val = 16 then
      if s.transit.halted then (s.modTransit fun x => { x with halted := false }).resumeAll else s
    else s.modDbg fun d => { d with stopped := false }

/-- Trigger lines fire together and act on each member by its XTM register (R468). -/
def State.fireLines (s : State) (lines : BitVec 4) : State :=
  if lines = 0 then s
  else (List.finRange 18).foldl (fun s m =>
    let x := s.dbg.xtm[m]
    if s.memberHalted m then
      if lines &&& x.rell ≠ 0 ∧ lines &&& x.haltl &&& ~~~x.rell = 0 then s.release m else s
    else if lines &&& x.haltl ≠ 0 then s.haltRequest m 2 else s) s

/-- A context at the halt of its core (R33, R103, R467): HALT, its reservation cleared. -/
def Ctx.atHalt (t : Ctx) : Ctx :=
  match t.st with
  | .idle | .dfault | .halt => t
  | st => { t with preHalt := st, rsv := none, st := .halt }

/-- A core enters its halt state (R467): a routine at a trap point is saved, its contexts go to HALT all at once. -/
def State.coreHalt (s : State) (c : CoreId) (cause : BitVec 2) : State :=
  let s := (s.takeX c).seating c fun k =>
    Core.settle ({ k with halted := true, haltReq := none, hcause := cause, stepping := false, stepRan := false }.allCtx fun _ t => t.atHalt)
  ((s.countC c 0x3E).haltPacket c true).fireLines s.dbg.xtm[(⟨c.val, by omega⟩ : Fin 18)].firel

/-- A BKPT halts its core. In a step the core is halted already, and the request has no effect (R468, R470). -/
def State.bkptStop (s : State) (c : CoreId) : State := if s.core[c].halted then s else s.coreHalt c 1

/-- HALT_ARRIVAL (R467, R468, R472). -/
def State.haltArrive (s : State) (m : Fin 18) : State :=
  if s.dbg.level ≠ 2 then s
  else match coreOf m with
    | some c =>
      match s.core[c].haltReq with
      | some cause => if !s.core[c].takeable || s.core[c].halted then s else s.coreHalt c cause
      | none => s
    | none =>
      if m.val = 16 then
        if s.dbg.haltTrn && !s.transit.halted then
          let s := (s.modDbg fun d => { d with haltTrn := false }).pauseAll
          (s.modTransit fun x => { x with halted := true }).fireLines s.dbg.xtm[m].firel
        else s
      else if s.dbg.haltTrc && !s.dbg.stopped then
        (s.modDbg fun d => { d with haltTrc := false, stopped := true }).fireLines s.dbg.xtm[m].firel
      else s

/-! ## The debug level (R459, R462) -/

/-- The life-cycle default. -/
def lcDefault (st : BitVec 2) : BitVec 2 := match st.toNat with | 2 => 0 | 3 => 1 | _ => 2

/-- Every halted member is released, and no request is left. -/
def State.releaseAll (s : State) : State :=
  let s := (List.finRange 18).foldl State.release s
  let s := s.allCores fun _ k => { k with haltReq := none }
  s.modDbg fun d => { d with haltTrn := false, haltTrc := false }

/-- The level changes (R462). -/
def State.setDbgLevel (s : State) (n : BitVec 2) : State :=
  let s := s.modDbg fun d => { d with level := n }
  let s := if n ≠ 2 then s.releaseAll else s
  if n = 0 then (s.modDbg fun d => { d with sink := d.sink &&& 2#2 }).traceSettle else s

/-- The level becomes the life-cycle default. -/
def State.dbgDefault (s : State) : State := s.setDbgLevel (lcDefault s.night.lcState)

end Sys2Proof.Machine
end

