-- ==== Sys2Proof/Machine/Context.lean ====
section
/-! DEFINITION. Contexts: their status registers, faults, the WAIT state, thread control, imprecise faults (spec 02, 03, 04). -/

namespace Sys2Proof.Machine

open Sys2Proof

/-! ## Views (R31, R64, R67) -/

def CtxState.code : CtxState → BitVec 4
  | .idle => 0 | .ready => 1 | .wait => 3 | .sleep => 4 | .parked => 5 | .fault => 6 | .dfault => 7 | .halt => 8

/-- THR_STAT.STATE: the READY context that issued last is in RUN, and F whenever it is ready (R31). -/
def Core.stateCode (k : Core) (x : CtxId) : BitVec 4 :=
  let t := k.ctx[x]
  if t.st = .ready ∧ (k.last = some x ∨ x = fCtx) then 2 else t.st.code

def Ctx.isStopped (t : Ctx) : Bool :=
  match t.st with
  | .idle | .parked | .fault | .dfault | .halt => true
  | .ready | .wait | .sleep => false

/-- THR_CTL.CNTD as it reads: the value last written (R64, R154). -/
def Ctx.cntdBit (t : Ctx) : Bool := t.cntdNext.getD t.cntd

def Ctx.ctlWord (t : Ctx) (x : CtxId) : Word :=
  if x = fCtx then 0 else flag t.cntdBit 4 ||| flag t.f16 5 ||| fld t.privInit 8

/-- The micro-save slot as WINDAT shows it: what the innermost routine has in it, else what one that a handler interrupted has (R57,
R67). -/
def Ctx.shownSlot (t : Ctx) : SaveSlot :=
  match t.held with
  | some h => if t.slot.valid then t.slot else h.slot
  | none => t.slot

def Core.statWord (k : Core) (x : CtxId) : Word :=
  let t := k.ctx[x]
  fld (k.stateCode x) 0 ||| fld t.priv 4 ||| flag t.cntdErr 6 ||| flag t.maband 7 ||| flag t.imprec 8 |||
  flag t.shownSlot.valid 9 ||| fld t.fcode 16 ||| fld (BitVec.ofNat 3 t.win.val) 24 ||| fld t.wtag[t.win].depth 27

def Ctx.progWord (t : Ctx) : Word := fld t.prog 0 ||| fld t.progUpc 16

/-! ## Reads that were under way (R87, R139) -/

/-- The uncached reads of a context are dropped: those not yet presented go, the others answer to nothing. -/
def State.dropReads (s : State) (c : CoreId) (x : CtxId) (loads ldfs : Bool) : State :=
  let f := s.fabric
  let kill (r : FabReq) : Option (Bool) :=
    if r.core ≠ c then none
    else match r.kind with
      | .load y _ => if y = x ∧ loads then some false else none
      | .ldf y _ => if y = x ∧ ldfs then some true else none
      | _ => none
  let mark (r : FabReq) : FabReq := match kill r with | some l => { r with kind := .dead x l } | none => r
  let s := if loads then s.modCtx c x fun t => { t with ahead := none } else s
  { s with fabric := { f with queue := f.queue.filter (fun r => (kill r).isNone), shown := f.shown.map mark,
                              out := f.out.map mark } }

/-! ## Routines that are abandoned (R58, R181) -/

def Ctx.inRoutine (t : Ctx) : Bool := t.routine.isSome || t.slot.valid

/-- A handler has returned to the routine that its entry interrupted. -/
def Ctx.rejoin (t : Ctx) : Ctx :=
  match t.held with
  | some h => if t.pc = h.pc then { t with routine := h.routine, slot := h.slot, moved := h.moved, held := none } else t
  | none => t

/-- The micro-address and U14 at which the innermost routine of a context stands, saved or in X (R58, R181). -/
def Ctx.routineAt (t : Ctx) (k : Core) : BitVec 12 × BitVec 16 :=
  let sl := if t.slot.valid then t.slot else if t.routine.isSome then t.routineSlot k else t.shownSlot
  (sl.upc, bits sl.u[14] 0 16)

/-- A context's routines are abandoned: THR_PROG records where the innermost stood (R58, R181). -/
def State.abandon (s : State) (c : CoreId) (x : CtxId) : State :=
  let t := s.ctx c x
  if t.inRoutine || t.held.isSome then
    let p := t.routineAt s.core[c]
    (s.modCtx c x fun t =>
      { t with maband := true, progUpc := p.1, prog := p.2, routine := none, held := none, moved := none, seen := 0,
               slot := { t.slot with valid := false } }).count c x 0x38
  else s

/-- A handler gives way to the routine that its entry interrupted, which is to be abandoned (R186). -/
def Ctx.dropHandler (t : Ctx) : Ctx :=
  match t.held with
  | some h => { t with pc := h.pc, routine := h.routine, slot := h.slot, moved := h.moved, held := none }
  | none => t

/-! ## Faults (R32, R83, R53, R85) -/

/-- The payload of the thread-fault source (R325). -/
def faultPayload (x : CtxId) (code : Byte) (dbl imprec : Bool) : Word :=
  fld (BitVec.ofNat 4 x.val) 0 ||| fld code 8 ||| flag dbl 16 ||| flag imprec 17

def faultSrc (c : CoreId) : SrcId := ⟨64 + c.val, by omega⟩

/-- Imprecise faults known and not taken when the context is in FAULT already are not recorded (R85, R142). -/
def State.unrecorded (s : State) (c : CoreId) (x : CtxId) : State :=
  let n := (s.ctx c x).impKnown.length
  (s.modCtx c x fun t => { t with impKnown := [] }).countN c (some x) 0x28 n

/-- The context enters FAULT and the thread-fault source is raised (R32, R83, R85). THR_PC is as the caller left it. -/
def State.takeFault (s : State) (c : CoreId) (x : CtxId) (code : Byte) (faddr : Word) (imprec : Bool) : State :=
  let s := (s.dropReads c x true false).modCtx c x fun t =>
    { t with fcode := code, faddr := faddr, imprec := imprec, waitFor := none, served := none, redo := false }
  let s := if (s.ctx c x).st = .halt then s.modCtx c x fun t => { t with preHalt := .fault } else s.setSt c x .fault
  (s.unrecorded c x).raise (faultSrc c) (faultPayload x code false imprec)

/-- A precise fault of the instruction at THR_PC (R83). -/
def State.preciseFault (s : State) (c : CoreId) (x : CtxId) (code : Byte) (faddr : Word) : State :=
  let s := s.modCtx c x fun t => { t with routine := none, moved := none, seen := 0, image := none }
  (s.count c x 0x29).takeFault c x code faddr false

/-- A double fault (R53): DFAULT, a Nightlog cause, the thread-fault source. -/
def State.doubleFault (s : State) (c : CoreId) (x : CtxId) (code : Byte) (faddr : Word) : State :=
  let t := s.ctx c x
  let detail : BitVec 96 := faddr.setWidth 96 ||| (code.setWidth 96 <<< 32) |||
    (if t.redo then (1#96) <<< 40 else 0) ||| (t.spillp.setWidth 96 <<< 64)
  let s := (s.modCtx c x fun t =>
    { t with fcode := code, faddr := faddr, imprec := false, waitFor := none, served := none, redo := false,
             routine := none, moved := none, seen := 0, image := none }).setSt c x .dfault
  let s := (s.cause 0x01 (ctxByte c x) t.pc detail).count c x 0x2A
  (s.unrecorded c x).raise (faultSrc c) (faultPayload x code true false)

/-- An imprecise fault becomes known; what happens depends on the context's state (R85 to R87). -/
def State.knowFault (s : State) (c : CoreId) (x : CtxId) (code : Byte) (faddr : Word) : State :=
  let t := s.ctx c x
  let atFence := t.waitFor = some .fence ∨ t.waitFor = some .drain
  let now (s : State) : State := (s.count c x 0x27).takeFault c x code faddr true
  match t.st with
  | .ready =>
    if atFence then s.preciseFault c x code faddr
    else s.modCtx c x fun t => { t with impKnown := t.impKnown ++ [⟨code, faddr⟩] }
  | .wait => if atFence then s.preciseFault c x code faddr else now s
  | .sleep => now s
  | .parked => now s
  | .halt => if t.preHalt = .fault then s.count c x 0x28 else now s
  | .fault => s.count c x 0x28
  | .dfault => s.count c x 0x28
  | .idle => s.count c x 0x28

/-- IMPRECISE_FAULT: the fault is taken at the context's next instruction boundary, the one after an instruction that ends in SLEEP among
them (R85, R87). -/
def execImpreciseFault (c : CoreId) (x : CtxId) (s : State) : Host.Outcome State Fault Refusal :=
  let t := s.ctx c x
  match t.impKnown with
  | f :: rest =>
    if (t.st = .ready ∨ t.st = .sleep) ∧ !t.inRoutine ∧ s.core[c].midRoutine.isNone then
      let s := s.modCtx c x fun t => { t with impKnown := rest }
      .next ((s.count c x 0x27).takeFault c x f.code f.faddr true)
    else .next s
  | [] => .next s

/-! ## WAIT (R135 to R138, R152) -/

/-- The context gives way on long waits. -/
def Core.switches (k : Core) (x : CtxId) : Bool := k.switchEn && x != fCtx && !k.ctx[x].cntd

/-- Waits that are stalls at first: for a store-buffer entry, and for a scratchpad bank (R135). -/
def WaitCause.stalls (w : WaitCause) : Bool :=
  match w with
  | .storeBuffer => true
  | .bank _ => true
  | _ => false

/-- A switch can take the context where it stands: at an instruction boundary, or at a trap point of its routine (R179). -/
def Ctx.atTrap (t : Ctx) : Bool := match t.routine with | some r => t.slot.valid || t.moved.isSome || r.trap | none => true

/-- An instruction that cannot go on: the thread enters WAIT, with the micro-trap save where it is inside a routine (R139), or keeps its
place and stalls. A stall that lasts becomes a switch in its fourth core cycle (R136); without cycles, when the instruction, tried again,
still cannot go on (DESIGN CHOICE, log 47). -/
def State.enterWait (s : State) (c : CoreId) (x : CtxId) (w : WaitCause) : State :=
  let t := s.ctx c x
  let s := s.modCtx c x fun t => { t with waitFor := some w }
  if s.core[c].switches x && t.atTrap && (!w.stalls || t.waitFor == some w) then
    let s := if t.routine.isSome && !t.slot.valid then s.saveSlot c x else s
    (s.count c x 0x08).setSt c x .wait
  else s

/-- FIFO entries of the shared lane and of the counted lane (R117, R154). -/
def Core.shared (k : Core) : Nat := (k.staging.filter fun g => !g.lane).length

def Core.cntdThread (k : Core) : Option (Fin 8) := (List.finRange 8).find? fun t => k.ctx[thr t].cntd

/-- The staging FIFO has an entry for the context (R23, R117, R154). -/
def Core.stageFree (k : Core) (x : CtxId) : Bool :=
  if k.cntdThread.isSome then
    if k.ctx[x].cntd then
      let over_ := k.shared - 6
      decide ((k.staging.length - k.shared) + over_ < 2)
    else decide (k.shared < 6)
  else decide (k.staging.length < 8)

/-- The cause of a wait is over (R137). -/
def State.waitOver (s : State) (c : CoreId) (x : CtxId) : Bool :=
  let k := s.core[c]
  let t := k.ctx[x]
  match t.waitFor with
  | none => true
  | some w =>
    match w with
    | .cell e => !t.dpend[e]
    | .ureg i => !t.longs.any fun o => o.ureg == some i
    | .longSlot => decide (t.longs.length < 2)
    | .line _ => t.served.isSome
    | .missReg => k.freeMiss.isSome
    | .fabric _ => t.served.isSome
    | .storeOverlap a n => if n = 32 then !k.lineBuffered (s.fabAddr a) else k.forward (s.fabAddr a) n != .wait
    | .staging => k.stageFree x
    | .storeBuffer => decide (k.sb.length < 4)
    | .slice a => t.served == some .slice || (s.borrowed (spillPlain c a)).isNone
    | .bank a => !s.wordShut (spillPlain c a)
    | .fence => t.longs.isEmpty
    | .drain => k.sb.all fun e => e.ctx != x
    | .pinBusy => !k.pinBusy

/-- WAIT_END: a thread whose wait is over returns to READY (R126, R137). -/
def execWaitEnd (c : CoreId) (x : CtxId) (s : State) : Host.Outcome State Fault Refusal :=
  let t := s.ctx c x
  if s.waitOver c x then
    if t.st = .wait then .next ((s.modCtx c x fun t => { t with waitFor := none }).setSt c x .ready)
    else if t.st = .halt ∧ t.preHalt = .wait then
      .next (s.modCtx c x fun t => { t with waitFor := none, preHalt := .ready })
    else .next s
  else .next s

/-! ## QUANTUM and YIELD (R124) -/

/-- The holder passes the register on. -/
def State.passOn (s : State) (c : CoreId) (x : CtxId) : State := s.seating c fun k => (k.giveUp x).seat

def Core.spent (k : Core) : Bool := 16 * (k.qload.toNat + 1) ≤ k.qcount

/-- QUANTUM_EXPIRY. -/
def execQuantumExpiry (c : CoreId) (s : State) : Host.Outcome State Fault Refusal :=
  let k := s.core[c]
  match k.holder with
  | some t => if k.spent && k.rival (thr t) && k.midRoutine.isNone then .next (s.passOn c (thr t)) else .next s
  | none => .next s

/-! ## Thread control (R38, R55, R59, R60, R64, R65, R154) -/

/-- A context becomes READY, or, in a halted core, is HALT with READY as its state before it (R471). -/
def State.makeReady (s : State) (c : CoreId) (x : CtxId) : State :=
  if s.core[c].halted then (s.modCtx c x fun t => { t with preHalt := .ready }).setSt c x .halt else s.setSt c x .ready

/-- The core can ever issue (R161). -/
def Core.alive (k : Core) : Bool := !k.chkFail

/-- A context is started in frame 0 at THR_PC with privilege `p` (R38, R39, R228, R471). A core in DOZE leaves it: START and BOOT_AUTO reach
its context as a write of its block would (DEDUCED, log 68). -/
def State.startCtx (s : State) (c : CoreId) (x : CtxId) (p : BitVec 2) : State :=
  if (s.ctx c x).st ≠ .idle ∨ !s.core[c].alive then s
  else
    let s := s.modCtx c x fun t =>
      { t.freshStacks with priv := p, wake := false, stopReq := false, routine := none, waitFor := none, served := none,
                           fbuf := [], btbAt := none, ahead := none, redo := false }
    let s := (s.makeReady c x).rouse c
    if s.core[c].rhalt && !s.core[c].halted && s.dbg.level == 2 && s.power.vdbg then s.coreHalt c 3 else s

/-- PRIV at a START by THR_CTL (R38). -/
def startPriv (init writer : BitVec 2) : BitVec 2 :=
  let p : BitVec 2 := if init = 2 then 1 else init
  let w : BitVec 2 := if writer = 2 then 1 else writer
  if w.toNat < p.toNat then w else p

/-- Outstanding divisions by zero, whose faults nothing records any more once they are discarded (R87). -/
def Ctx.faulting (t : Ctx) : Nat :=
  (t.longs.filter fun o => o.b == 0 && (o.kind == .div || o.kind == .mod || o.kind == .divu || o.kind == .modu)).length

/-- RESET (R59, R87, R103): the context is IDLE, its routine abandoned, its long operations discarded. -/
def State.resetCtx (s : State) (c : CoreId) (x : CtxId) : State :=
  let s := ((s.abandon c x).dropReads c x true true).unrecorded c x
  let s := s.countN c (some x) 0x28 (s.ctx c x).faulting
  let s := s.modCtx c x fun t =>
    { t with wtag := Vector.replicate 8 {}, rtag := Vector.replicate 2 {}, dpend := Vector.replicate 64 false, frame := 0,
             rtop := 0, fbase := 0, doff := 0, roff := t.spillsz, rsv := none, wake := false, stopReq := false, longs := [],
             waitFor := none, served := none, redo := false, routine := none, held := none, slot := { t.slot with valid := false } }
  (s.modCore c fun k => { k with divq := k.divq.filter (· ≠ x) }).setSt c x .idle

/-- RESUME (R54, R55, R64): the instruction at THR_PC starts again, or the saved routine goes on. -/
def State.resumeCtx (s : State) (c : CoreId) (x : CtxId) : State :=
  match (s.ctx c x).st with
  | .parked => s.makeReady c x
  | .fault => s.makeReady c x
  | .dfault => (s.modCtx c x fun t => { t with redo := true }).makeReady c x
  | _ => s

/-- STOP (R64): the context is parked at its next instruction boundary or trap point. -/
def State.stopCtx (s : State) (c : CoreId) (x : CtxId) : State :=
  match (s.ctx c x).st with
  | .ready => s.modCtx c x fun t => { t with stopReq := true }
  | .wait => s.modCtx c x fun t => { t with stopReq := true }
  | .sleep => s.modCtx c x fun t => { t with stopReq := true }
  | _ => s

/-- CNTD takes effect (R154): the fetch buffer is refilled, and the thread leaves or joins the shared decode register. Without a counted
thread the staging FIFO is one lane again, in issue order (R205). -/
def State.setCntd (s : State) (c : CoreId) (x : CtxId) (b : Bool) : State :=
  s.seating c fun k =>
    let k : Core := if k.ctx[x].cntd && !b then { k with staging := k.staging.map fun g => { g with lane := false } } else k
    let k := k.modCtx x fun t =>
      { t with cntd := b, cntdNext := none, fbuf := if t.cntd = b then t.fbuf else [], btbAt := if t.cntd = b then t.btbAt else none,
               ahead := if t.cntd = b then t.ahead else none }
    (if b then k.giveUp x else k).seat

/-- The attribute fields that a write of THR_CTL carries (R60, R64, R65). F has none. -/
def State.thrAttr (s : State) (c : CoreId) (x : CtxId) (v : Word) : State :=
  if x = fCtx then s
  else
    let k := s.core[c]
    let want := v.getLsbD 4
    let held := (List.finRange 8).any fun t => thr t != x && k.ctx[thr t].cntdBit
    let s :=
      if want && held then s.modCtx c x fun t => { t with cntdErr := true, cntdNext := if t.cntd then some false else none }
      else if (k.ctx[x]).st = .idle then s.setCntd c x want
      else s.modCtx c x fun t => { t with cntdNext := if t.cntd = want then none else some want }
    s.modCtx c x fun t => { t with f16 := if t.st = .idle then v.getLsbD 5 else t.f16, privInit := bits v 8 2 }

/-- A write of THR_CTL by a writer of privilege `wp`: the attributes first, then the highest of START, STOP, RESUME and RESET
(R65). -/
def State.thrCtl (s : State) (c : CoreId) (x : CtxId) (v : Word) (wp : BitVec 2) : State :=
  let s := s.thrAttr c x v
  if v.getLsbD 3 then s.resetCtx c x
  else if v.getLsbD 2 then s.resumeCtx c x
  else if v.getLsbD 1 then s.stopCtx c x
  else if v.getLsbD 0 ∧ x ≠ fCtx then s.startCtx c x (startPriv (s.ctx c x).privInit wp)
  else s

/-- PARK_AT_BOUNDARY: a STOP takes effect (R64). -/
def execParkAtBoundary (c : CoreId) (x : CtxId) (s : State) : Host.Outcome State Fault Refusal :=
  let t := s.ctx c x
  if t.stopReq && s.core[c].stopsAt x && !s.core[c].halted then
    match t.st with
    | .ready | .wait | .sleep =>
      let s := if s.core[c].midRoutine = some x then s.saveSlot c x else s
      .next (((s.dropReads c x true false).modCtx c x fun t =>
        { t with stopReq := false, waitFor := none, served := none }).setSt c x .parked)
    | _ => .next (s.modCtx c x fun t => { t with stopReq := false })
  else .next s

/-- CNTD_TAKE_EFFECT: at the next instruction boundary of the thread (R154). -/
def execCntdTakeEffect (c : CoreId) (x : CtxId) (s : State) : Host.Outcome State Fault Refusal :=
  match (s.ctx c x).cntdNext with
  | some b => if x = fCtx ∨ (s.ctx c x).inRoutine then .next s else .next (s.setCntd c x b)
  | none => .next s

/-- A write of THR_STAT: PRIV may only fall, and the two W1C flags clear (R37, R64). -/
def Ctx.statWrite (t : Ctx) (v : Word) : Ctx :=
  let p : BitVec 2 := if bits v 4 2 = (2 : BitVec 2) then 1 else bits v 4 2
  { t with priv := if p.toNat < t.priv.toNat then p else t.priv, cntdErr := t.cntdErr && !v.getLsbD 6,
           maband := t.maband && !v.getLsbD 7 }

/-- SPILLP or SPILLSZ is written: what was spilled is abandoned (R52). -/
def Ctx.spillWrite (t : Ctx) (size : Bool) (v : Word) : Ctx :=
  let t : Ctx := if size then { t with spillsz := bits v 0 20 &&& 0xFFFFC } else { t with spillp := v &&& 0xFFFFFFFC }
  { t with doff := 0, roff := t.spillsz }

/-- F returns to IDLE at the end of its handler (R334). -/
def State.fIdle (s : State) (c : CoreId) : State := s.setSt c fCtx .idle

/-! ## PIPE_STAT, PIPE_CTL (R155) -/

def Core.pipeCtl (k : Core) : Word := flag k.btbEn 0 ||| flag k.switchEn 1 ||| fld k.quantum 8

def Core.pipeStat (k : Core) : Word :=
  let nib (o : Option (Fin 8)) : BitVec 4 := match o with | some t => BitVec.ofNat 4 t.val | none => 0xF
  let mask (p : Ctx → Bool) : Word := (List.finRange 8).foldl (fun w t => w ||| flag (p k.ctx[thr t]) t.val) 0
  let cn := (List.finRange 8).find? fun t => k.ctx[thr t].cntdBit
  fld (nib cn) 0 ||| fld (nib k.holder) 4 ||| (mask fun t => t.st == .wait) <<< 8 |||
  (mask fun t => t.st == .ready) <<< 16 ||| flag (k.ctx[fCtx].st == .ready) 24

def Core.pipeCtlWrite (k : Core) (v : Word) : Core :=
  { k with btbEn := v.getLsbD 0, switchEn := v.getLsbD 1, quantum := bits v 8 4,
           btb := if v.getLsbD 2 then [] else k.btb }

end Sys2Proof.Machine
end

