-- ==== Sys2Proof/Machine/Events.lean ====
section
/-! DEFINITION. The event unit: routing, fast and normal entry, records, levels, hold-off, timers (spec 10). -/

namespace Sys2Proof.Machine

open Sys2Proof

def State.modEv (s : State) (f : Events → Events) : State := { s with ev := f s.ev }

/-! ## May a core issue (R123, R161, R185, R421, R422, R434, R436) -/

def State.coreRuns (s : State) (c : CoreId) : Bool :=
  let k := s.core[c]
  s.mainRuns && !s.power.relock && s.power.state == .run && s.spad.initDone && k.chkDone && k.alive && !k.dozed && !k.held &&
    !(s.power.crst.getLsbD c.val && !k.rstWait)

/-! ## Registers of a source (R328, R351) -/

def Source.word (n : Nat) (v : Source) : Word :=
  if srcKind n = .reserved then 0
  else
    let kind : BitVec 2 := match srcKind n with | .prog => v.kind | .level => 3 | _ => 0
    flag v.en 0 ||| flag v.cls 1 ||| fld (BitVec.ofNat 3 v.fslot.val) 2 ||| fld (BitVec.ofNat 4 v.core.val) 8 |||
    fld kind 12 ||| flag (v.inv && srcKind n == .prog) 14

def Source.cnt (n : Nat) (v : Source) : Word :=
  fld v.ovf 0 ||| fld v.mrg 16 ||| flag v.pend 20 ||| flag v.out.isSome 21 ||| flag (lvlOf n v) 22

/-- EV_STATg. -/
def State.evStat (s : State) (g : Fin 32) : Word :=
  (List.range 16).foldl (fun w i =>
    let n := 16 * g.val + i
    w ||| flag (s.src n).pend i ||| flag (lvlOf n (s.src n)) (16 + i)) 0

/-- The payload of a level or programmable source at this moment (R325). -/
def State.levelPayload (s : State) (n : Nat) : Word :=
  if n < 32 then bits s.gpio.fin 0 32
  else if n < 64 then bits s.gpio.fin 32 32
  else if n = 176 then BitVec.ofNat 32 s.transit.free
  else s.ev.evtIn

/-- A level source that is active, enabled and without an outstanding record is pending (R329, R340). -/
def State.levelCheck (s : State) (n : Nat) : State :=
  let v := s.src n
  if isLevel n v && v.en && lvlOf n v && v.out.isNone && !v.pend then s.raiseNow n (s.levelPayload n) else s

/-- A write of EV_SRCs (R328, R335): refused in whole where two enabled fast sources would share a slot. A change of INV or KIND that makes
an active level source inactive counts as its going quiet (R340); the write is no edge of a pulse source (DEDUCED, log entry 70). -/
def State.evSrcWrite (s : State) (n : SrcId) (w : Word) : State :=
  if srcKind n.val = .reserved then s
  else
    let v := s.src n.val
    let prog := srcKind n.val == .prog
    let v' : Source :=
      { v with en := w.getLsbD 0, cls := w.getLsbD 1, fslot := (bits w 2 3).toFin, core := (bits w 8 4).toFin,
               kind := if prog then bits w 12 2 else v.kind, inv := prog && w.getLsbD 14 }
    let clash := v'.en && v'.cls && s.ev.src.any fun q =>
      q.1 != n.val && q.2.en && q.2.cls && q.2.core == v'.core && q.2.fslot == v'.fslot
    if clash then s.modEv fun e => { e with routeErr := true }
    else
      let v' : Source := if v'.en then v' else { v' with pend := false, mrg := 0, merged := false }
      let v' : Source := if isLevel n.val v' && !lvlOf n.val v' then { v' with pend := false, mrg := 0 } else v'
      let active (v : Source) : Bool := isLevel n.val v && lvlOf n.val v
      let s := if active v && !active v' then (s.setSrc n.val v').wentQuiet v else s.setSrc n.val v'
      let s := if v'.en && v'.cls then
          s.modCore v'.core fun k => { k with fvecOk := k.fvecOk.set v'.fslot false }
        else s
      s.levelCheck n.val

/-- SOURCE_RAISE: a cause of the source, with its payload (R326, R329). -/
def execSourceRaise (n : SrcId) (payload : Word) (s : State) : Host.Outcome State Fault Refusal :=
  let v := s.src n.val
  if isLevel n.val v then .next (s.setLevel n (!v.inv) payload) else .next (s.raise n payload)

/-! ## EVC registers (R351) -/

def Core.evcCtl (k : Core) : Word :=
  flag k.nmask 0 ||| flag k.fmask 1 ||| fld (BitVec.ofNat 3 k.hthr.val) 4 ||| fld k.hpriv 8 ||| fld k.tsel 12

def Core.evcStat (k : Core) : Word :=
  flag k.active 0 ||| flag k.qfull 1 ||| flag k.rdErr 2 ||| flag k.evOvf 3 ||| flag k.evSpur 4 ||| flag k.evDrop 5 |||
  flag k.htErr 6

def Core.evcCtlWrite (k : Core) (v : Word) : Core :=
  { k with nmask := v.getLsbD 0, fmask := v.getLsbD 1, hthr := (bits v 4 3).toFin, hpriv := bits v 8 2, tsel := bits v 12 4 }

def Core.evcStatWrite (k : Core) (v : Word) : Core :=
  { k with rdErr := k.rdErr && !v.getLsbD 2, evOvf := k.evOvf && !v.getLsbD 3, evSpur := k.evSpur && !v.getLsbD 4,
           evDrop := k.evDrop && !v.getLsbD 5, htErr := k.htErr && !v.getLsbD 6 }

/-- Enabled fast-class sources of a core. -/
def State.fastOf (s : State) (c : CoreId) : List (Nat × Source) := s.ev.src.filter fun q => q.2.en && q.2.cls && q.2.core == c

/-- EVC_FPEND. -/
def State.fpend (s : State) (c : CoreId) : Word :=
  (s.fastOf c).foldl (fun w q => w ||| flag q.2.pend q.2.fslot.val ||| flag true (8 + q.2.fslot.val)) 0

/-! ## Outstanding level records (R340) -/

/-- The records of core `c` that `p` names by index: their sources are free to be pending again. -/
def State.passRecords (s : State) (c : CoreId) (p : BitVec 13 → Bool) : State :=
  s.ev.src.foldl (fun s q =>
    match q.2.out with
    | some (d, i) =>
      if d = c ∧ p i then (s.setSrc q.1 { s.src q.1 with out := none, delivered := false }).levelCheck q.1 else s
    | none => s) s

/-- Outstanding level records of core `c` are delivered. -/
def State.deliver (s : State) (c : CoreId) : State :=
  s.modEv fun e => { e with src := e.src.map fun q =>
    match q.2.out with
    | some (d, _) => if d = c then (q.1, { q.2 with delivered := true }) else q
    | none => q }

/-- A write of EVQ_RD (R337, R340). -/
def State.evqRdWrite (s : State) (c : CoreId) (v : Word) : State :=
  let k := s.core[c]
  let rd := bits v 0 13
  if k.qrecs < (k.evqWr - rd).toNat then s.modCore c fun k => { k with rdErr := true }
  else
    let s := s.modCore c fun k => { k with evqRd := rd }
    s.passRecords c fun i => (k.evqWr - rd).toNat ≤ (k.evqWr - 1 - i).toNat

/-- A write of EVQ_BASE resets the ring (R337). -/
def State.evqBaseWrite (s : State) (c : CoreId) (v : Word) : State :=
  let s := s.modCore c fun k =>
    { k with qsize := bits v 0 4, evqOffs := bits v 4 14, evqWr := 0, evqRd := 0, evSeq := 0 }
  s.passRecords c fun _ => true

/-! ## The record writer (R338, R339, R341) -/

/-- Every thread of the core is in IDLE or SLEEP and F is IDLE. -/
def Core.quiet (k : Core) : Bool :=
  ((List.finRange 8).all fun t => k.ctx[thr t].st == .idle || k.ctx[thr t].st == .sleep) && k.ctx[fCtx].st == .idle

def groupOf (n : Nat) : Fin 32 := ⟨n / 16 % 32, by omega⟩

/-- A pending normal-class source whose record may be written now. -/
def State.recordReady (s : State) (n : Nat) : Bool :=
  let v := s.src n
  let k := s.core[v.core]
  v.en && !v.cls && v.pend && !k.qfull && (s.ev.holdRun[groupOf n] == 0 || k.quiet)

/-- The next source in ascending order after the last one written. -/
def State.nextRecord (s : State) : Option Nat :=
  let ns := s.ev.src.map (·.1)
  match (ns.filter fun n => s.ev.next.val ≤ n).find? s.recordReady with
  | some n => some n
  | none => ns.find? s.recordReady

/-- The plain address of a record slot (R337). -/
def Core.recordAddr (k : Core) (c : CoreId) : Nat :=
  let size := 16 * k.qrecs
  localBase c + 16 * k.evqOffs.toNat / size * size + 16 * (k.evqWr.toNat % k.qrecs)

/-- The four words of a record (R336). -/
def State.recordWords (s : State) (n : Nat) : List Word :=
  let v := s.src n
  let k := s.core[v.core]
  [fld (BitVec.ofNat 9 n) 0 ||| flag (lvlOf n v) 9 ||| flag v.tsk 10 ||| flag v.merged 11 ||| fld v.mrg 12 ||| fld k.evSeq 16,
   v.ts, fld v.tsh 0, v.payload]

/-- Threads whose EVC_WAKE bit is set leave SLEEP (R346). -/
def State.evcWake (s : State) (c : CoreId) : State :=
  s.seating c fun k =>
    (k.allCtx fun x t => if k.evWake.getLsbD x.val && t.st == .sleep then { t with st := .ready } else t).seat

/-- EVENT_RECORD_WRITE (R338 to R341, R346, R347). A record whose bank is under a destroying march run is dropped; a level source that is
still active is then pending again, as R329 has it of one without an outstanding record (DEDUCED). -/
def execEventRecordWrite (s : State) : Host.Outcome State Fault Refusal :=
  if !s.mainRuns then .next s
  else match s.nextRecord with
  | none => .next s
  | some n =>
    let v := s.src n
    let c := v.core
    let a := s.core[c].recordAddr c
    let clear (v : Source) : Source := { v with pend := false, mrg := 0, merged := false }
    if s.destroyed a then
      let s := (s.setSrc n (clear v)).modCore c fun k => { k with evDrop := true, dropCnt := satInc k.dropCnt }
      .next (((s.countB 0x4E).modEv fun e => { e with next := BitVec.toFin (BitVec.ofNat 9 (n + 1)) }).levelCheck n)
    else if !s.rowFree a then .next (s.rowAsked a false)
    else
      let s := (s.rowAsked a true).granted 16 a
      let s := ((List.range 4).zip (s.recordWords n)).foldl (fun s iw => s.spadPut (a + 4 * iw.1) iw.2 0xF none) s
      let i := s.core[c].evqWr
      let v' := if isLevel n v then { clear v with out := some (c, i), delivered := false } else clear v
      let s := (s.setSrc n v').modCore c fun k => { k with evqWr := k.evqWr + 1, evSeq := k.evSeq + 1 }
      let s := s.modEv fun e =>
        { e with next := BitVec.toFin (BitVec.ofNat 9 (n + 1)),
                 holdRun := e.holdRun.set (groupOf n) e.hold[groupOf n].toNat }
      .next (((s.evcWake c).wakeFor c true).countB 0x4C)

/-- HOLDOFF_EXPIRY (R341). -/
def execHoldoffExpiry (g : Fin 32) (s : State) : Host.Outcome State Fault Refusal :=
  .next (s.modEv fun e => { e with holdRun := e.holdRun.set g 0 })

/-! ## Fast class (R330 to R335) -/

/-- The pending fast source of the lowest slot. -/
def State.fastNext (s : State) (c : CoreId) : Option (Nat × Source) :=
  (s.fastOf c).foldl (fun b q =>
    if q.2.pend then
      match b with
      | some r => if q.2.fslot.val < r.2.fslot.val then some q else some r
      | none => some q
    else b) none

/-- The vector of a slot (R332). -/
def Core.fastVector (k : Core) (slot : Fin 8) : Word := fld k.fvecOffs 8 + BitVec.ofNat 32 (0x20 * slot.val)

/-- The status word of a fast entry (R333). -/
def fastStatus (slot : Fin 8) (n : Nat) : Word := 9#32 ||| fld (BitVec.ofNat 3 slot.val) 8 ||| fld (BitVec.ofNat 9 n) 16

/-- F enters the handler of source `n` (R332, R346). A level source that is still active stays pending (R329). -/
def State.enterFast (s : State) (c : CoreId) (n : Nat) : State :=
  let v := s.src n
  let a := s.core[c].fastVector v.fslot
  let keep := isLevel n v && lvlOf n v
  let s := s.setSrc n { v with pend := keep, mrg := 0, merged := false }
  let ok := s.core[c].fvecOk[v.fslot]
  let s := s.modCtx c fCtx fun t =>
    let t : Ctx := { t.freshStacks with priv := 1, pc := a, routine := none, waitFor := none, served := none, wake := false,
                                        stopReq := false, fbuf := if ok then [a &&& 0xFFFFFFE0] else [], held := none,
                                        moved := none, seen := 0, btbAt := none, slot := { t.slot with valid := false } }
    (t.rput 0 0 a).rput 0 1 (fastStatus v.fslot n)
  (s.setSt c fCtx .ready).evcWake c

/-- Conditions 2 to 6 of R330, but for F's own state. -/
def State.fastOpen (s : State) (c : CoreId) : Bool :=
  s.coreRuns c && !s.core[c].fmask && !s.core[c].halted

/-- A fast entry waits for nothing but a trap point of the context in X (R330). -/
def State.fastDue (s : State) (c : CoreId) : Bool :=
  s.fastOpen c && (s.ctx c fCtx).st == .idle && (s.fastNext c).isSome

/-- FVEC_RELOAD: the copy of slot `k`'s vector is loaded through port A (R335), every word checked (R265). One with an uncorrectable word is
not valid, so that a fast entry fetches the line itself (DEDUCED, log 65). -/
def execFvecReload (c : CoreId) (k : Fin 8) (s : State) : Host.Outcome State Fault Refusal :=
  let used := (s.fastOf c).any fun q => q.2.fslot == k
  let a := localBase c + (s.core[c].fastVector k).toNat % 0x40000
  if s.mainRuns && used && s.wordFree a && !s.destroyed a then
    let r := (List.range 8).foldl (fun (r : Bool × State) i =>
      let v := r.2.spadRead (a + 4 * i)
      (r.1 && v.1.isSome, v.2)) (true, s)
    .next (r.2.modCore c fun q => { q with fvecOk := q.fvecOk.set k r.1 })
  else .next s

def Core.fvecBase (k : Core) : Word := fld k.fvecOffs 8

def Core.fvecBaseWrite (k : Core) (v : Word) : Core := { k with fvecOffs := bits v 8 10, fvecOk := Vector.replicate 8 false }

/-! ## Normal class (R342, R343) -/

/-- EVC_CTL.HPRIV as it acts. -/
def Core.hprivOf (k : Core) : BitVec 2 := if k.hpriv = 3 then 3 else 1

/-- A normal entry of core `c` is due, but for the state of the handler thread (R342). -/
def State.normalDue (s : State) (c : CoreId) : Bool :=
  let k := s.core[c]
  s.coreRuns c && !k.halted && k.evqWr != k.evqRd && !k.nmask && !k.active

/-- A normal entry can be made for context `x`: no routine is in X but one of its own that stands at a trap point (R342). -/
def Core.entryOpen (k : Core) (x : CtxId) : Bool := (k.midRoutine.isNone || k.midRoutine == some x) && k.stopsAt x

/-- The pushes of a normal entry go to the return stack, with a spill where one is needed (R343). The entry begins when none of its
spill words has to wait (DESIGN CHOICE, log 46). -/
def State.entryPush (s : State) (c : CoreId) (x : CtxId) (a word : Word) : Res Unit :=
  let s := s.modCtx c x fun t => { t with moved := none, seen := 0 }
  let t := s.ctx c x
  let o := rOther t.rtop
  let as := wordsFrom (t.spillp + (t.roff - 32).setWidth 32) 8
  let spills := decide (6 < t.rtag[t.rtop].count.toNat) && t.rtag[o].live && t.rtag[o].dirty && decide (t.doff.toNat + 32 ≤ t.roff.toNat)
  match (if spills then s.spillWait c x as else none) with
  | some w => .wait s w
  | none => (s.rpush c x a).bind fun _ s => s.rpush c x word

/-- What the handler of a normal entry begins with (R343): a routine that stood in the micro-save slot, as in `old`, is kept until the
handler returns to it. -/
def Ctx.enterNormal (t old : Ctx) (k : Core) : Ctx :=
  { t with priv := k.hprivOf, pc := k.evqVec, rsv := none, waitFor := none, served := none, routine := none, moved := none, seen := 0,
           held := if old.slot.valid then some ⟨old.routine, old.pc, old.slot, old.moved⟩ else t.held,
           slot := { t.slot with valid := false } }

/-! ## Timers (R349) -/

def Timer.ctl (t : Timer) : Word :=
  flag t.en 0 ||| flag t.per 1 ||| fld t.clk 2 ||| fld (BitVec.ofNat 3 t.tbsel.val) 4

def Timer.ctlWrite (t : Timer) (v : Word) : Timer :=
  let en := v.getLsbD 0
  { t with en := en, per := v.getLsbD 1, clk := bits v 2 2, tbsel := (bits v 4 3).toFin,
           cnt := if en && !t.en then t.load else t.cnt }

/-- TIMER_EXPIRY: a tick of the timer's clock that finds CNT at 0. -/
def execTimerExpiry (n : Fin 32) (s : State) : Host.Outcome State Fault Refusal :=
  let tm := s.ev.timer[n]
  if s.eventsRun && tm.en && tm.cnt == 0 then .next (s.timerExpire n) else .next s

/-! ## Software sources (R350) -/

/-- COREID of a context (R99). -/
def State.coreId (s : State) (c : CoreId) (x : CtxId) : Word :=
  fld (BitVec.ofNat 4 x.val) 0 ||| fld (BitVec.ofNat 4 c.val) 4 ||| fld s.ring.node 8

/-- A write of EV_SWSET. -/
def State.swset (s : State) (w : Agent) (v : Word) : State :=
  let payload : Word := match w with | .ctx c x => s.coreId c x | _ => 0x7F00
  (List.finRange 16).foldl (fun s k => if v.getLsbD k.val then s.raise ⟨400 + k.val, by omega⟩ payload else s) s

/-! ## EVT_IN (R325, R326) -/

/-- EVT_IN_CHANGE: the input as sampled. -/
def execEvtInChange (k : Fin 32) (level : Bool) (s : State) : Host.Outcome State Fault Refusal :=
  if s.power.mainRst then .next s
  else
    let w := if level then s.ev.evtIn ||| (1#32 <<< k.val) else s.ev.evtIn &&& ~~~(1#32 <<< k.val)
    let s := s.modEv fun e => { e with evtIn := w }
    .next (s.setLevel ⟨368 + k.val, by omega⟩ level w)

end Sys2Proof.Machine
end

