-- ==== Sys2Proof/Machine/Pins.lean ====
section
/-! DEFINITION. The 64 general-purpose pins: alternatives, filters, ownership, private-port writes, sleep states (spec 14, R448 to
R458; R111 to R113). -/

namespace Sys2Proof.Machine

open Sys2Proof

def State.modGpio (s : State) (f : Gpio → Gpio) : State := { s with gpio := f s.gpio }

/-- A 64-bit vector with bit `k` set to `b`. -/
def putBit (v : BitVec 64) (k : Nat) (b : Bool) : BitVec 64 :=
  if b then v ||| (1#64 <<< k) else v &&& ~~~(1#64 <<< k)

/-! ## What a pin drives (R448, R449, R456, R457) -/

/-- Any context of the core is in FAULT or DFAULT. -/
def Core.faulted (k : Core) : Bool :=
  (List.finRange 9).any fun x => k.ctx[x].st == .fault || k.ctx[x].st == .dfault

def coreMod (k : Nat) : CoreId := ⟨k % 16, by omega⟩

/-- GP_OE and GP_OUT by the pin's alternative. VSLOW carries the Vesper slow clock, whose phase is free. -/
def State.pinAlt (s : State) (k : Fin 64) : Bool × Bool :=
  let g := s.gpio
  let d := g.out.getLsbD k.val
  match g.mux[k].toNat with
  | 0 => (g.oe.getLsbD k.val, d)
  | 1 => (true, g.timout.getLsbD (k.val % 32))
  | 3 =>
    let t : TbId := ⟨k.val % 4, by omega⟩
    (true, s.tbRuns t && s.transit.tb[t].slot == 0)
  | 4 => (true, s.core[coreMod k.val].faulted)
  | 5 => (true, Config.freeBool s.freeCtr)
  | 7 => (true, s.core[coreMod k.val].dozed)
  | _ => (false, d)

/-- GP_OE and GP_OUT of a pin: its sleep state while GP_SLH has its bit. -/
def State.pinDrive (s : State) (k : Fin 64) : Bool × Bool :=
  if s.gpio.slh.getLsbD k.val then
    match s.gpio.slp[k].toNat with
    | 0 => (s.gpio.latOe.getLsbD k.val, s.gpio.latOut.getLsbD k.val)
    | 1 => (true, false)
    | 2 => (true, true)
    | 4 => (false, true)
    | _ => (false, false)
  else s.pinAlt k

/-- The hold latches freeze with the values that GP_OUT and GP_OE have now (R457). -/
def State.freezePins (s : State) : State :=
  if s.gpio.frozen then s
  else
    let drive := Vector.ofFn fun k => s.pinDrive k
    let oe := (List.finRange 64).foldl (fun v k => putBit v k.val (drive[k]).1) (0#64)
    let out := (List.finRange 64).foldl (fun v k => putBit v k.val (drive[k]).2) (0#64)
    let s := { s with freeCtr := s.freeCtr + 1 }
    s.modGpio fun g => { g with frozen := true, latOe := oe, latOut := out }

/-- The latches track again. -/
def State.thawPins (s : State) : State := s.modGpio fun g => { g with frozen := false }

/-- The pins in `m` leave their sleep state (R457). -/
def Gpio.wakePins (g : Gpio) (m : BitVec 64) : Gpio := { g with slh := g.slh &&& ~~~m }

/-! ## Input instances (R449, R453, R454) -/

/-- Conflicts are recorded, and the capture inputs take their present values; an edge captures only when `edge` is set. -/
def State.pinInputs (s : State) (edge : Bool) : State :=
  let conf := ([2, 6] : List (BitVec 3)).flatMap fun alt =>
    (List.finRange 4).filterMap fun n => if 2 ≤ (s.instPins alt n).length then some (alt, n) else none
  let s := match conf.getLast? with
    | some (alt, n) => s.modGpio fun g => { g with conflict := true, calt := alt, cinst := BitVec.ofNat 4 n.val }
    | none => s
  (List.finRange 4).foldl (fun s n =>
    let was := s.gpio.capPrev.getLsbD n.val
    let now := s.instIn 2 n
    let s := s.modGpio fun g =>
      { g with capPrev := if now then g.capPrev ||| (1#4 <<< n.val) else g.capPrev &&& ~~~(1#4 <<< n.val) }
    if edge && now && !was then
      let pos := s.beamValue ⟨n.val, by omega⟩
      s.modGpio fun g => { g with cap := g.cap.set n pos, capNew := g.capNew ||| (1#4 <<< n.val) }
    else s) s

/-- The filtered input of a pin takes a level: its source and its input instance see it (R325, R448, R449). -/
def State.pinTake (s : State) (k : Fin 64) (level : Bool) : State :=
  if s.gpio.fin.getLsbD k.val = level then s
  else
    let s := s.modGpio fun g => { g with fin := putBit g.fin k.val level }
    (s.setLevel ⟨k.val, by omega⟩ level (s.levelPayload k.val)).pinInputs true

/-! ## The filter (R452) -/

/-- The filter is off: mode 0b00, or a count that acts as off. -/
def Gpio.filterOff (g : Gpio) (k : Fin 64) : Bool :=
  match g.fmode[k].toNat with
  | 0 => true
  | 2 => g.fcnt[k] == 0
  | _ => g.fcnt[k].toNat ≤ 1

def State.filterRun (s : State) (k : Fin 64) (b : Bool) : State := s.modGpio fun g => { g with frun := putBit g.frun k.val b }

/-- The synchronised input and the filter meet. -/
def State.filterSee (s : State) (k : Fin 64) : State :=
  let level := s.gpio.sync.getLsbD k.val
  if s.gpio.filterOff k then (s.filterRun k false).pinTake k level
  else if s.gpio.fmode[k] = 2 then
    if s.gpio.frun.getLsbD k.val ∨ s.gpio.fin.getLsbD k.val = level then s else (s.pinTake k level).filterRun k true
  else s.filterRun k (s.gpio.fin.getLsbD k.val != level)

/-- PIN_INPUT_CHANGE: the synchronised input of a pin has a new level. -/
def execPinInputChange (k : Fin 64) (level : Bool) (s : State) : Host.Outcome State Fault Refusal :=
  if s.power.mainRst then .next s
  else .next ((s.modGpio fun g => { g with sync := putBit g.sync k.val level }).filterSee k)

/-- GPIO_FILTER_EXPIRY: the pin's filter count ends. -/
def execGpioFilterExpiry (k : Fin 64) (s : State) : Host.Outcome State Fault Refusal :=
  if s.power.mainRst || !s.gpio.frun.getLsbD k.val then .next s
  else .next ((s.filterRun k false).pinTake k (s.gpio.sync.getLsbD k.val))

/-! ## Private-port writes (R112, R113, R451, R455, R457) -/

/-- PIN_WRITE_APPLY: the writes that have reached the unit are applied in ascending core order. -/
def execPinWriteApply (s : State) : Host.Outcome State Fault Refusal :=
  if s.power.mainRst then .next s
  else
    let ws := (List.finRange 16).flatMap fun c => s.gpio.writes.filter fun w => w.1 == c
    .next (s.modGpio fun g =>
      let g := ws.foldl (fun (g : Gpio) w => { g with out := mixBits g.out w.2.2 w.2.1 }.wakePins w.2.1) g
      { g with writes := [] })

/-! ## Registers (R450, R458) -/

/-- The pins whose fields a writer may change. The fabric slave is a privileged context of no core and owns none. -/
def State.pinMask (s : State) (w : Agent) : BitVec 64 :=
  match w with
  | .ctx c x => if (s.ctx c x).priv = 3 then BitVec.allOnes 64 else s.gpio.own[c]
  | .ring => BitVec.allOnes 64
  | .debug => BitVec.allOnes 64
  | .fabric => 0

/-- The eight pins of GP_MUXj. -/
def pinOf (j i : Fin 8) : Fin 64 := ⟨8 * j.val + i.val, by omega⟩

def muxWord (f : Vector (BitVec 3) 64) (j : Fin 8) : Word :=
  (List.finRange 8).foldl (fun w i => w ||| fld f[pinOf j i] (4 * i.val)) 0

/-- Fields of eight pins taken from a register word, for the pins in `m`. -/
def muxTake (f : Vector (BitVec 3) 64) (j : Fin 8) (m : BitVec 64) (v : Word) : Vector (BitVec 3) 64 :=
  (List.finRange 8).foldl (fun f i =>
    if m.getLsbD (pinOf j i).val then f.set (pinOf j i) (bits v (4 * i.val) 3) else f) f

/-- A write of GP_MUXj (R450, R454, R457). -/
def State.gpMuxWrite (s : State) (w : Agent) (j : Fin 8) (v : Word) : State :=
  let m := s.pinMask w &&& ((0xFF#64) <<< (8 * j.val))
  (s.modGpio fun g => { g with mux := muxTake g.mux j m v }.wakePins m).pinInputs false

/-- A write of GP_SLEEPj. -/
def State.gpSleepWrite (s : State) (w : Agent) (j : Fin 8) (v : Word) : State :=
  s.modGpio fun g => { g with slp := muxTake g.slp j (s.pinMask w) v }

/-- The 64-bit mask and data of a 32-bit register, low or high half. -/
def half (hi : Bool) (v : Word) : BitVec 64 := if hi then v.setWidth 64 <<< 32 else v.setWidth 64

/-- A write of GP_OE (`oe`) or GP_OUT. -/
def State.gpOutWrite (s : State) (w : Agent) (oe hi : Bool) (v : Word) : State :=
  let m := s.pinMask w &&& half hi 0xFFFFFFFF
  s.modGpio fun g =>
    let g := if oe then { g with oe := mixBits g.oe (half hi v) m } else { g with out := mixBits g.out (half hi v) m }
    g.wakePins m

/-- A write of GP_FILTk keeps the filtered value and restarts the count (R452). -/
def State.gpFiltWrite (s : State) (w : Agent) (k : Fin 64) (v : Word) : State :=
  if (s.pinMask w).getLsbD k.val then
    let mode : BitVec 2 := bits v 8 2
    let s := if mode = s.gpio.fmode[k] then s else s.filterRun k false
    (s.modGpio fun g => { g with fcnt := g.fcnt.set k (bits v 0 8), fmode := g.fmode.set k mode }).filterSee k
  else s

/-- A write of GP_OWNc: for secure-privileged contexts, the ring agent and debug; a privileged context's is ignored. -/
def State.gpOwnWrite (s : State) (w : Agent) (c : CoreId) (hi : Bool) (v : Word) : State :=
  let may := match w with
    | .ctx d x => (s.ctx d x).priv == 3
    | .ring => true
    | .debug => true
    | .fabric => false
  if may then s.modGpio fun g => { g with own := g.own.set c (mixBits g.own[c] (half hi v) (half hi 0xFFFFFFFF)) } else s

def Gpio.stat (g : Gpio) : Word := flag g.conflict 0 ||| fld g.calt 1 ||| fld g.cinst 4 ||| fld g.capNew 8

/-- A write of GP_STAT; a conflict that lasts sets CONFLICT again (R453). -/
def State.gpStatWrite (s : State) (v : Word) : State :=
  (s.modGpio fun g =>
    { g with conflict := g.conflict && !v.getLsbD 0, capNew := g.capNew &&& ~~~(bits v 8 4) }).pinInputs false

end Sys2Proof.Machine
end

