-- ==== Sys2Proof/Machine/Reset.lean ====
section
/-! DEFINITION. The per-core software reset (R434), the secure wipe (R278, R279), and what main-supply power-up does to the scratchpads
(R280, R283, R435, R436, R507). -/

namespace Sys2Proof.Machine

open Sys2Proof

/-! ## The end of a debug access through a halted core (R473, R474) -/

/-- SIZE in bytes. -/
def Debug.mBytes (d : Debug) : Nat := match d.mSize.toNat with | 0 => 1 | 1 => 2 | _ => 4

/-- The access is done; a load puts its result into DBG_MDATA, and AINC advances the address. -/
def Debug.mDone (d : Debug) (v : Option Word) : Debug :=
  { d with mBusy := false, mFailed := false, mdata := v.getD d.mdata, maddr := if d.mAinc then d.maddr + BitVec.ofNat 32 d.mBytes else d.maddr }

/-- The access is refused. -/
def Debug.mFail (d : Debug) (code : Byte) : Debug := { d with mBusy := false, mFailed := true, mErr := true, mFcode := code }

/-- A debug load that waits for a line of core `c` ends with an error where the core's reset discards the fill (DESIGN CHOICE, log 66). -/
def State.dropDebug (s : State) (c : CoreId) : State :=
  match (List.finRange 4).findSome? fun i => (s.core[c].miss[i]).bind fun m => if m.debug then some m.line else none with
  | some l => { s with dbg := s.dbg.mFail (if isFlashLine l then 0x07 else 0x08) }
  | none => s

/-! ## Per-core software reset (R434) -/

/-- A context after the reset of its core: cells keep their contents, everything with a reset value has it. -/
def Ctx.afterReset (t : Ctx) : Ctx := { dstk := t.dstk, rstk := t.rstk, slot := { t.slot with valid := false } }

/-- Steps 2 to 5 of R434: registers reset, long operations, fills, copies and staged entries discarded, the invalidation begun. -/
def Core.softReset (k : Core) : Core :=
  ({ k with
     ctx := Vector.ofFn fun x => (k.ctx[x]).afterReset,
     sysBase := 0x10000100, secBase := 0x10000200, btbEn := true, switchEn := true, quantum := 3, stolen := 0,
     holder := none, qcount := 0, qload := 3, search := 0, last := none, btb := [], divq := [], staging := [],
     miss := Vector.replicate 4 none, prevFill := none, lcEn := true, pfEn := true, strmEn := true, vcEn := true,
     invBusy := true, pinBusy := false, pinErr := false, fillErr := false, parErr := false, lcFaddr := 0, pinld := none,
     nmask := true, fmask := true, hthr := 0, hpriv := 1, tsel := 8, active := false, rdErr := false, evOvf := false,
     evSpur := false, evDrop := false, htErr := false, qsize := 0, evqOffs := 0, evqVec := 0x10000300, evqWr := 0,
     evqRd := 0, evSeq := 0, evWake := 0, dropCnt := 0, spurCnt := 0, fvecOffs := 0, fvecOk := Vector.replicate 8 false,
     rstWait := false, halted := false, stepping := false, stepRan := false, haltReq := none } : Core).invalAll

/-- The fills and copies of a core that the ports still hold answer to nothing. -/
def State.dropFills (s : State) (c : CoreId) : State :=
  let mark (r : FabReq) : FabReq :=
    if r.core ≠ c then r
    else match r.kind with
      | .fill .. => { r with kind := .dead fCtx false }
      | .pinld _ => { r with kind := .dead fCtx false }
      | _ => r
  let part (r : FlashReq) : FlashReq :=
    { r with users := r.users.filter fun u => match u with | .fill d _ => d != c | .pin d => d != c | .ring => true }
  { s with fabric := { s.fabric with queue := s.fabric.queue.map mark, shown := s.fabric.shown.map mark,
                                     out := s.fabric.out.map mark },
           flash := { s.flash with queue := (s.flash.queue.map part).filter fun r => !r.users.isEmpty,
                                   tags := Vector.ofFn fun t => (s.flash.tags[t]).map part } }

/-- The reset acts on core `c`. -/
def State.softReset (s : State) (c : CoreId) : State :=
  let n := s.core[c].staging.length
  let s := (s.dropDebug c).dropFills c
  let s := (List.finRange 9).foldl (fun s x => (s.dropReads c x true true).countN c (some x) 0x28 (s.ctx c x).faulting) s
  let s := { s with power := { s.power with disc := satAdd s.power.disc n } }
  let s := (s.modCore c Core.softReset).modWdt c Wdt.reload
  s.passRecords c fun _ => true

/-- A write of 1 to a bit of PWR_CRST: the reset waits for the core's store buffer (R310, R434). -/
def State.askReset (s : State) (c : CoreId) : State :=
  let s := { s with power := { s.power with crst := s.power.crst ||| (1#16 <<< c.val) } }
  if s.core[c].sb.isEmpty then s.softReset c else s.modCore c fun k => { k with rstWait := true }

/-- A store buffer that has drained lets a waiting reset act. -/
def State.drained (s : State) (c : CoreId) : State :=
  if s.core[c].rstWait && s.core[c].sb.isEmpty then s.softReset c else s

/-- Every core (R477, R505). -/
def State.askResetAll (s : State) : State := (List.finRange 16).foldl State.askReset s

/-! ## The wipe (R278, R279) -/

/-- A wipe cause: the flag is set with its row-0 write, and NAP ends (R429, R506). A wipe that runs starts again from its first row. -/
def State.wipeCause (s : State) : State :=
  let s := s.setWipePend true
  let s := { s with spad := { s.spad with wipeDue := true } }
  if s.power.state = .nap then { s with power := { s.power with napWake := true } } else s

/-- The secure region is zero with valid check bits. -/
def Spad.wiped (m : Spad) : Spad :=
  let m := m.zeroWhere isSecure
  { m with clean := m.undef.map (·.1), wiping := false, wipeDue := false }

/-! ## Step 6 of R435: zeroing or the start-up march -/

/-- The destroying march run of every bank that power-up makes (R283). -/
def State.startupMarch (s : State) : State :=
  s.modMarch fun m =>
    { m with runAlg := s.dict.marchStartup.getLsbD 1, busy := true, startup := true, destroying := true, runBanks := List.range 96,
             banks := List.range 96, slices := [], slice := none, stopping := false, elem := 0, defer := 0 }

/-- Step 6 begins when any wipe has ended. -/
def State.step6 (s : State) : State :=
  if s.spad.initDone || s.power.wipePend || s.march.busy then s
  else if s.dict.marchStartup.getLsbD 0 then s.startupMarch else s

/-- Step 6 ends: INITDONE, and a SELFTEST record if anything failed (R492, R507). -/
def State.step6End (s : State) (marched : Bool) : State :=
  let chk : BitVec 16 := (List.finRange 16).foldl
    (fun v c => if s.core[c].chkFail then v ||| (1#16 <<< c.val) else v) 0
  let s := { s with spad := { s.spad with initDone := true } }
  if chk ≠ 0 ∨ (marched ∧ s.march.fail) then
    s.cause 0x08 0xFF 0 (chk.setWidth 96 ||| (s.march.faddr.setWidth 96 <<< 16) ||| (s.march.fails.setWidth 96 <<< 48) |||
      (if marched then 1#96 <<< 64 else 0))
  else s

end Sys2Proof.Machine
end

