-- ==== Sys2Proof/Machine/Night.lean ====
section
/-! DEFINITION. The Nightlog, the life cycle and the tamper input (spec 16). -/

namespace Sys2Proof.Machine

open Sys2Proof

def State.modNight (s : State) (f : Night → Night) : State := { s with night := f s.night }

/-! ## The log (R490, R496, R497) -/

def Night.setSlot (n : Night) (k : Nat) (d : Line) : Night :=
  { n with slots := if d = 0 then alErase n.slots k else alSet n.slots k d }

/-- The start-up scan (R491, R496): count, newest, next SEQ, TORN and EPOCH. -/
def Night.scan (n : Night) : Night :=
  let good := n.slots.filter fun p => validSlot p.2
  let top := good.foldl (fun (b : Option (Nat × Line)) p =>
    match b with
    | some q => if (lineWord q.2 0 4).toNat ≤ (lineWord p.2 0 4).toNat then some p else some q
    | none => some p) none
  let torn := n.slots.any fun p => p.2 != 0 && !validSlot p.2
  match top with
  | some p => { n with count := good.length, newest := p.1, seq := lineWord p.2 0 4 + 1, torn := torn,
                       epoch := lineByte p.2 17 + 1 }
  | none => { n with count := 0, newest := 1791, seq := 1, torn := torn, epoch := 0 }

/-- The life-cycle state: valid rows from row 1 upward (R500). -/
def lcOf (rows : Vector LcRow 3) : BitVec 2 :=
  if rows[0] ≠ .valid then 0 else if rows[1] ≠ .valid then 1 else if rows[2] ≠ .valid then 2 else 3

/-! ## SOFTWARE records and CLEAR (R498, R499) -/

/-- A GO write of NL_SWREQ. -/
def State.swreq (s : State) (w : Agent) : State :=
  let d := s.night.swdata
  let detail : BitVec 96 := d[0].setWidth 96 ||| (d[1].setWidth 96 <<< 32) ||| (d[2].setWidth 96 <<< 64)
  match w with
  | .ctx c x => s.cause 0x07 (bits (s.coreId c x) 0 8) (s.ctx c x).pc detail
  | _ => s.cause 0x07 0xFF 0 detail

/-- A write of 1 to NL_CTL.CLEAR, refused in SEALED and RETURNED. -/
def State.nlClear (s : State) : State :=
  if 2 ≤ s.night.lcState.toNat then s
  else (s.modNight fun n => { n with count := 0, clr := some (n.newest, 0, 0) }).nvmKick

/-! ## Life-cycle transitions (R501 to R503) -/

/-- INT_STATE is NOCODE: the key block holds no valid code (R403, R410). -/
def Night.keyRow (n : Night) (i : Nat) : Line := (alGet n.param i).getD 0

/-- The Integrator code: the first copy whose CRC-32 agrees; the key block is rows 254 and 255 of the store (R410). -/
def Night.intCode (n : Night) : Option (BitVec 64) :=
  let bytes := (List.range 64).map fun i => lineByte (n.keyRow (254 + i / 32)) (i % 32)
  let copy (k : Nat) : Option (BitVec 64) :=
    let code := (bytes.drop (12 * k)).take 8
    let sum : Word := ofBytes 32 ((bytes.drop (12 * k + 8)).take 4)
    if crc32 code = sum then some (ofBytes 64 code) else none
  match copy 0 with
  | some v => some v
  | none => copy 1

/-- A request that passes R501 begins; none where it is refused. `code` has been compared with no state yet. -/
def State.lcBegin (s : State) (code : Byte) (ctx path src : Byte) (allowed : Bool) : Option State :=
  let n := s.night
  if code.toNat = n.lcState.toNat + 1 ∧ n.move.isNone ∧ allowed ∧ (n.lcState ≠ 1 ∨ n.intCode.isSome) then
    let s := s.modNight fun n => { n with move := some ⟨bits code 0 2, ctx, path, src⟩ }
    let s := s.setWipePend true
    some (s.modNight fun n => { n with wantLc := some ⟨n.lcState.toNat % 3, by omega⟩ }).nvmKick
  else none

/-- INT_STATE is UNLOCKED or NOCODE: a ring command holds the Integrator role (R387, R403). -/
def State.integrator (s : State) : Bool := s.dict.intUnlocked || s.night.intCode.isNone

/-- A ring command's request: Host up to SEALED, then Integrator (R501). SRC is that of the command being run. -/
def State.lcReqRing (s : State) (code : Byte) : Option State :=
  let src : Byte := match s.ring.cmds.head? with | some k => k.h.src.setWidth 8 | none => 0xFF
  s.lcBegin code 0xFF 1 src (decide (s.night.lcState.toNat < 2) || s.integrator)

/-- LC_REQ on the register path (R501): contexts only up to SEALED. A refusal sets REQERR. -/
def State.lcReqReg (s : State) (w : Agent) (code : Byte) : State :=
  let r := match w with
    | .ctx c x => s.lcBegin code (ctxByte c x) 2 0xFF ((s.ctx c x).priv == 3 && decide (s.night.lcState.toNat < 2))
    | .debug => s.lcBegin code 0xFF 3 0xFF (s.dbg.level == 2)
    | .ring => s.lcReqRing code
    | .fabric => none
  match r with
  | some s => s
  | none => s.modNight fun n => { n with reqErr := true }

/-- Patch registers into the protected range are disabled (R503). -/
def Core.sealPatches (k : Core) : Core :=
  { k with patch := Vector.ofFn fun i =>
      if k.patch[i].getLsbD 31 && decide (0x700 ≤ (bits k.patch[i] 0 12).toNat) &&
         decide ((bits k.patch[i] 0 12).toNat < 0x800) then
        k.patch[i] &&& 0x7FFFFFFF
      else k.patch[i] }

/-- The life-cycle row is written: the new state takes effect with its wipe (R502, R503). -/
def State.lcChange (s : State) : State :=
  match s.night.move with
  | none => s
  | some m =>
    let old := s.night.lcState
    let s := s.modNight fun n => { n with lcState := m.next, move := none }
    let s := s.dbgDefault
    let s := { s with dict := { s.dict with intUnlocked := false } }
    let s := if m.next = 2 then s.allCores fun _ k => k.sealPatches else s
    let s := s.wipeCause
    let detail : BitVec 96 := old.setWidth 96 ||| (m.next.setWidth 96 <<< 8) ||| (m.path.setWidth 96 <<< 16) |||
      (m.src.setWidth 96 <<< 24)
    let x : CtxId := ⟨(bits m.ctx 0 4).toNat % 9, by omega⟩
    let pc : Word := if m.ctx = 0xFF then 0 else (s.ctx (bits m.ctx 4 4).toFin x).pc
    (s.cause 0x04 m.ctx pc detail).raise 354 (fld m.next 0 ||| fld old 2)

/-! ## Row writes (R494, R495, R499) -/

/-- The row in progress has been written. `ok` is false where its read-back mismatched twice: NVMERR is set, a record is lost, and
what the row holds is free. -/
def State.rowWritten (s : State) (ok : Bool) : State :=
  let n := s.night
  match n.cur with
  | none => s
  | some row =>
    let s := s.modNight fun n => { n with cur := none, nvmErr := n.nvmErr || !ok }
    let (junk, s) : Line × State := if ok then (0, s) else
      let ws := (List.range 8).map fun i => Config.freeWord (s.freeCtr + i)
      (ofBytes 256 (ws.flatMap (toBytes 4)), { s with freeCtr := s.freeCtr + 8 })
    match row with
    | .row0 b => s.modNight fun n => { n with row0 := if ok then b else junk.getLsbD 0 }
    | .lc r =>
      let s := s.modNight fun n => { n with lcRows := n.lcRows.set r (if ok then .valid else .torn) }
      if ok then s.lcChange else s.modNight fun n => { n with move := none }
    | .record slot q d =>
      let s := s.modNight fun n =>
        { (n.setSlot slot (if ok then d else junk)) with
          staged := n.staged.filter fun k => k.seq ≠ q,
          clr := n.clr.map fun c => (c.1, c.2.1 + 1, c.2.2) }
      if ok then
        (s.modNight fun n => { n with count := n.count + 1, newest := slot }).raise 355 q
      else s.modNight Night.lose
    | .param r d => s.modNight fun n =>
        { n with param := let v := if ok then d else junk; if v = 0 then alErase n.param r else alSet n.param r v }
    | .clear slot => s.modNight fun n =>
        { (n.setSlot slot (if ok then 0 else junk)) with clr := n.clr.map fun c => (c.1, c.2.1, c.2.2 + 1) }

/-! ## Tamper (R504, R505) -/

/-- A tamper event. Its wipe is deferred where the main domain is in reset, so that the next main-supply power-up makes it (R279). -/
def State.tamper (s : State) (pin forced : Bool) : State :=
  let main := !s.power.mainRst
  let cnt := satInc s.night.tcnt
  let s := (s.wipeCause).modNight fun n => { n with tcnt := cnt, event := true }
  let detail : BitVec 96 := (flag pin 0 ||| flag forced 1 ||| flag (!main) 8).setWidth 96 ||| (cnt.setWidth 96 <<< 32)
  let s := (s.cause 0x03 0xFF 0 detail).raise 353 (flag pin 0 ||| flag forced 1)
  if s.night.act && main then s.askResetAll else s

/-- TAMPER_EVENT: TAMPERn has been low for the filter time. The Vesper domain sees none under PORn_AON. -/
def execTamperEvent (s : State) : Host.Outcome State Fault Refusal :=
  let s' := s.modNight fun n => { n with pin := false }
  if !s.power.pornAon then .next s
  else if s.night.pinen then .next (s'.tamper true false) else .next s'

/-! ## Registers (R508) -/

def Night.stat (n : Night) : Word :=
  fld (BitVec.ofNat 11 n.count) 0 ||| fld (BitVec.ofNat 11 n.newest) 11 ||| fld (BitVec.ofNat 2 n.staged.length) 22 |||
  flag n.cur.isSome 24 ||| flag n.clr.isSome 25 ||| flag (n.count == 1792) 26 ||| flag n.torn 27 ||| flag n.nvmErr 28 |||
  flag n.lost 29

def Night.statWrite (n : Night) (v : Word) : Night :=
  { n with torn := n.torn && !v.getLsbD 27, nvmErr := n.nvmErr && !v.getLsbD 28, lost := n.lost && !v.getLsbD 29 }

def Night.lcStat (n : Night) : Word :=
  fld n.lcState 0 ||| flag n.move.isSome 2 ||| flag n.lcTorn 3 ||| flag n.reqErr 4

def Night.lcStatWrite (n : Night) (v : Word) : Night :=
  { n with lcTorn := n.lcTorn && !v.getLsbD 3, reqErr := n.reqErr && !v.getLsbD 4 }

def Night.tmpCtl (n : Night) : Word := flag n.pinen 0 ||| flag n.act 1 ||| fld n.filt 8

/-- Ignored in SEALED and RETURNED (R503). -/
def Night.tmpCtlWrite (n : Night) (v : Word) : Night :=
  if 2 ≤ n.lcState.toNat then n else { n with pinen := v.getLsbD 0, act := v.getLsbD 1, filt := bits v 8 8 }

end Sys2Proof.Machine
end

