-- ==== Sys2Proof/Machine/Lines.lean ====
section
/-! DEFINITION. What the line caches, the pinned window, the store buffers, the flash port and the fabric master port do on their own
(spec 09, R295 to R317; R442). -/

namespace Sys2Proof.Machine

open Sys2Proof

/-! ## Line cache (R294, R295, R300, R302, R310, R311) -/

/-- The ages of every valid unpinned entry rise (R295). -/
def Core.ageTick (k : Core) : Core :=
  { k with ageDue := false,
           lc := Vector.ofFn fun i =>
             if !pinned k i && k.lc[i].valid then { k.lc[i] with age := satInc k.lc[i].age } else k.lc[i] }

/-- LC_AGE_TICK: due at every 256th lookup. -/
def execLcAgeTick (c : CoreId) (s : State) : Host.Outcome State Fault Refusal :=
  if s.core[c].ageDue then .next (s.modCore c Core.ageTick) else .next s

def entryIdx (i : Fin 32) : Fin 48 := i.castLE (by omega)

/-- One bit of LC_PIN takes a new value (R300). -/
def Core.pinBit (k : Core) (i : Fin 32) (b : Bool) : Core :=
  if k.lcPin.getLsbD i.val = b then k
  else if b then
    let k := k.evict k.lc[entryIdx i]
    { k with lc := k.lc.set (entryIdx i) {}, pinData := k.pinData.set i 0, lcPin := k.lcPin ||| (1#32 <<< i.val) }
  else
    { k with lc := k.lc.set (entryIdx i) {}, pinData := k.pinData.set i 0, lcPin := k.lcPin &&& ~~~(1#32 <<< i.val) }

/-- A write of LC_PIN. -/
def Core.pinWrite (k : Core) (v : Word) : Core := (List.finRange 32).foldl (fun k i => k.pinBit i (v.getLsbD i.val)) k

/-- A write of LC_PINLD: all eight words of a line that is held are read, and checked (R292, R302, R316). -/
def State.pinLoad (s : State) (c : CoreId) (v : Word) : State :=
  let k := s.core[c]
  let slot : Fin 32 := (bits v 0 5).toFin
  let l := lineOf v
  let start (got : Option LineRes) : State :=
    s.modCore c fun k => { k with pinBusy := true, pinld := some { slot := slot, line := l, got := got } }
  if k.pinBusy || !k.lcPin.getLsbD slot.val || !(isFlashLine l || isFabLine l) then
    s.modCore c fun k => { k with pinErr := true }
  else
    let k := k.spoil l (BitVec.allOnes 8)
    let held := match k.find l with | some i => some k.lc[i].data | none => (k.findVictim l).map (·.data)
    match held with
    | some d => start (some (.data d))
    | none =>
      let start (got : Option LineRes) : State := (start got).modCore c fun q => { q with lc := k.lc, victims := k.victims, parErr := k.parErr }
      if isFlashLine l && !s.flash.pen then start (some .flashErr)
      else (start none).askLine c l (.pinld l)

/-- PINLD_DONE: the copy ends, or is refused (R302). -/
def execPinldDone (c : CoreId) (s : State) : Host.Outcome State Fault Refusal :=
  match s.core[c].pinld with
  | none => .next s
  | some p =>
    match p.got with
    | none => .next s
    | some (.data d) => .next (s.modCore c fun k =>
        let k : Core := { k with pinld := none, pinBusy := false }
        if k.lcPin.getLsbD p.slot.val then { k with pinData := k.pinData.set p.slot d } else { k with pinErr := true })
    | some _ => .next (s.modCore c fun k => { k with pinld := none, pinBusy := false, pinErr := true })

/-- A write of LC_CTL (R298, R311). -/
def Core.lcCtlWrite (k : Core) (v : Word) : Core :=
  let off := k.lcEn && !v.getLsbD 0
  let k : Core := { k with lcEn := v.getLsbD 0, pfEn := v.getLsbD 1, strmEn := v.getLsbD 2, vcEn := v.getLsbD 3,
                           victims := if v.getLsbD 3 then k.victims else [] }
  if off then { k.invalAll with invBusy := true } else k

/-- CACHE_INVALIDATE_DONE: the invalidation of R310 or R311 ends; a per-core software reset ends with it (R434). -/
def execCacheInvalidateDone (c : CoreId) (s : State) : Host.Outcome State Fault Refusal :=
  if s.mainRuns && s.core[c].invBusy then
    let s := s.modCore c fun k => { k with invBusy := false }
    .next (if s.core[c].rstWait then s
      else { s with power := { s.power with crst := s.power.crst &&& ~~~(1#16 <<< c.val) } })
  else .next s

/-- A write of FAB_WIN (R290, R307). -/
def State.fabWinWrite (s : State) (v : Word) : State :=
  { s with fabric := { s.fabric with win := bits v 27 5 } }.invalidate (fun _ => true) isFabLine

def Core.lcCtl (k : Core) : Word := flag k.lcEn 0 ||| flag k.pfEn 1 ||| flag k.strmEn 2 ||| flag k.vcEn 3

def Core.lcStat (k : Core) : Word :=
  flag k.invBusy 0 ||| fld (BitVec.ofNat 3 k.sb.length) 1 |||
  (List.finRange 4).foldl (fun w i => w ||| flag k.miss[i].isSome (4 + i.val)) 0 |||
  flag k.pinBusy 8 ||| flag k.pinErr 9 ||| flag k.fillErr 10 ||| flag k.parErr 11

def Core.lcStatWrite (k : Core) (v : Word) : Core :=
  { k with pinErr := k.pinErr && !v.getLsbD 9, fillErr := k.fillErr && !v.getLsbD 10, parErr := k.parErr && !v.getLsbD 11 }

/-! ## Store buffer and fabric master port (R304, R306, R307, R442) -/

/-- STORE_BUFFER_SEND: the oldest unsent entry goes to the fabric master port. -/
def execStoreBufferSend (c : CoreId) (s : State) : Host.Outcome State Fault Refusal :=
  if !s.mainRuns then .next s
  else match s.core[c].sb.find? (fun e => !e.sent) with
    | none => .next s
    | some e =>
      let s := s.modCore c fun k => { k with sb := k.sb.map fun q => if q.id = e.id then { q with sent := true } else q }
      .next (s.fabAsk { core := c, kind := .write e.id e.data e.be e.ctx, addr := e.addr })

/-- FABRIC_REQUEST_ACCEPT: the fabric takes the presented request. -/
def execFabricRequestAccept (s : State) : Host.Outcome State Fault Refusal :=
  let f := s.fabric
  match f.shown with
  | none => .next s
  | some r => .next ({ s with fabric := Fabric.present { f with shown := none, out := f.out ++ [r] } }.countB 0x57)

/-- The outputs of the fabric master port that a request drives. -/
structure FabricPins where
  av    : Bool := false
  aw    : Bool := false
  addr  : BitVec 27 := 0
  tag   : BitVec 5 := 0
  wdata : Line := 0
  wbe   : Word := 0
  wpar  : Word := 0
  apar  : Bool := false
  deriving DecidableEq, Repr

/-- Even parity of each byte of a line. -/
def linePar (d : Line) : Word := (List.range 32).foldl (fun w i => w ||| flag (parity (lineByte d i)) i) 0

/-- What the port drives: the request presented, a write's data and byte enables in line position, with even parity; 0 for a read, and 0
where none is presented (R442, R443, R456). -/
def State.fabricPins (s : State) : FabricPins :=
  match s.fabric.shown with
  | none => {}
  | some r =>
    let o := r.addr.toNat % 32 / 4
    let w : Line × Word := match r.kind with
      | .write _ d be _ => (d.setWidth 256 <<< (32 * o), be.setWidth 32 <<< (4 * o))
      | _ => (0, 0)
    let tag : BitVec 5 := BitVec.ofNat 5 r.tag.val
    { av := true, aw := r.isWrite, addr := fabLine r, tag := tag, wdata := w.1, wbe := w.2, wpar := linePar w.1,
      apar := r.isWrite ^^ parity (fabLine r) ^^ parity tag }

/-- The long operation that an LDF response belongs to gets its result (R85). -/
def Ctx.ldfResult (t : Ctx) (a : Word) (r : Except Byte Word) : Ctx :=
  match t.longs.findIdx? fun o => o.kind == .ldf && o.sent && o.result.isNone && o.a == a with
  | some i => { t with longs := t.longs.modify i fun o => { o with result := some r } }
  | none => t

/-- An uncached load's data, or its error, reaches the context that waits for it (R137). -/
def Ctx.loadResult (t : Ctx) (a : Word) (r : Except Byte Line) : Ctx :=
  let t := t.refilled (lineOf (cachedForm a)) (match r with | .ok _ => true | .error _ => false)
  match t.waitFor with
  | some (.fabric b) => if a = b then { t with served := some (.line (lineBase (lineOf a)) r) } else t
  | _ => t

/-! ## The end of a debug access through a halted core (R473, R474) -/

/-- A line for a debug load has arrived, or its error. -/
def State.debugLine (s : State) (r : LineRes) : State :=
  s.modDbg fun d => match r with
    | .data l => d.mDone (some (lineWord l (d.maddr.toNat % 32) d.mBytes))
    | e => d.mFail (errCode e)

/-- A response to an outstanding request: `write` is FM_RW, `err` an error response (R442). -/
def State.fabricResponse (s : State) (tag : Fin 32) (write : Bool) (data : Line) (err : Bool) : State :=
  match s.fabric.out.find? fun r => r.tag = tag with
  | none => s
  | some r =>
    let s := { s with fabric := Fabric.present { s.fabric with out := s.fabric.out.erase r } }
    let err := err || write != r.isWrite
    let c := r.core
    let line : LineRes := if err then .fabricErr else .data data
    let word (a : Word) : Except Byte Word := if err then .error fcFabric else .ok (lineWord data (a.toNat % 32) 4)
    match r.kind with
    | .fill l i => s.modCore c fun k => k.fillGot i l line
    | .pinld l => s.modCore c fun k => k.pinGot l line
    | .load x a => s.modCtx c x fun t => t.loadResult a (if err then .error fcFabric else .ok data)
    | .ldf x a => s.modCtx c x fun t => t.ldfResult a (word a)
    | .debug => s.debugLine line
    | .dead x ldf => if ldf && err then s.count c x 0x28 else s
    | .write id _ _ x =>
      let entry := s.core[c].sb.find? fun e => e.id = id
      let from_ := (entry.map (·.from_)).getD r.addr
      let debug := (entry.map (·.debug)).getD false
      let s := s.modCore c fun k => { k with sb := k.sb.filter fun e => e.id ≠ id }
      let s := match s.fabToCached r.addr with
        | some a => s.invalidate (fun d => d != c) fun l => l == lineOf a
        | none => s
      let s :=
        if debug then s.modDbg fun d => if err then d.mFail fcFabric else d.mDone none
        else if err then s.knowFault c x fcFabric from_ else s
      s.drained c

/-- SNOOP (R307, R446): a bad lane invalidates every unpinned fabric line; an address outside the window is ignored. -/
def execSnoop (a : Word) (parOk : Bool) (s : State) : Host.Outcome State Fault Refusal :=
  if s.power.mainRst then .next s
  else
    let s := s.countB 0x5A
    if !parOk then .next (s.invalidate (fun _ => true) isFabLine)
    else match s.fabToCached a with
      | some b => .next (s.invalidate (fun _ => true) fun l => l == lineOf b)
      | none => .next s

/-! ## The flash port (R313 to R317) -/

def State.modFlash (s : State) (f : Flash → Flash) : State := { s with flash := f s.flash }

/-- Line of a flash request, as cores name it. -/
def FlashReq.line (r : FlashReq) : BitVec 27 := lineOf (0x10000000#32 ||| fld r.addr 2)

def reqNo (r : Requester) : Fin 17 :=
  match r with
  | .fill c _ => c.castLE (by omega)
  | .pin c => c.castLE (by omega)
  | .ring => 16

def FlashReq.owner (r : FlashReq) : Fin 17 := ((r.users.head?).map reqNo).getD 16

/-- A read and a write of one line are never presented together; a control write may change any line (R314). -/
def FlashReq.clash (a b : FlashReq) : Bool :=
  if a.cmd = 0 then b.cmd = 1 && a.line == b.line else if a.cmd = 1 then b.cmd = 0 && a.line == b.line else false

/-- What a requester may present: its oldest pending request. -/
def Flash.offer (f : Flash) (q : Fin 17) : Option FlashReq :=
  match f.queue.find? fun r => r.owner = q with
  | some r => if (List.finRange 4).any fun t => match f.tags[t] with | some o => r.clash o | none => false then none else some r
  | none => none

/-- The port takes a request when it presents none and a tag is free, round robin (R317). -/
def Flash.issue (f : Flash) : Flash :=
  if !f.pen || f.shown.isSome then f
  else match (List.finRange 4).find? (fun t => f.tags[t].isNone),
      ((List.finRange 17).map fun i => f.rr + i).find? (fun q => (f.offer q).isSome) with
    | some t, some q =>
      match f.offer q with
      | some r => { f with tags := f.tags.set t (some r), shown := some t, queue := f.queue.erase r, rr := q + 1 }
      | none => f
    | _, _ => f

/-- The outputs of the flash port (R312). -/
structure FlashPins where
  req  : Bool := false
  cmd  : BitVec 2 := 0
  addr : BitVec 26 := 0
  tag  : Fin 4 := 0
  data : Word := 0
  be   : BitVec 4 := 0
  par  : Bool := false
  pen  : Bool := false
  rstN : Bool := false
  deriving DecidableEq, Repr

/-- What the port drives: the request shown, with even parity over its fields; FL_RSTn is 0 in reset and while PEN is 0. -/
def State.flashPins (s : State) : FlashPins :=
  let on := s.flash.pen && !s.power.mainRst
  match s.flash.shown with
  | some t =>
    match s.flash.tags[t] with
    | some r =>
      { req := true, cmd := r.cmd, addr := r.addr, tag := t, data := r.data, be := r.be,
        par := parity r.cmd ^^ parity r.addr ^^ parity (BitVec.ofNat 2 t.val) ^^ parity r.data ^^ parity r.be, pen := on, rstN := on }
    | none => { pen := on, rstN := on }
  | none => { pen := on, rstN := on }

/-- FLASH_PORT_ISSUE. -/
def execFlashPortIssue (s : State) : Host.Outcome State Fault Refusal :=
  if s.mainRuns then
    let f := s.flash.issue
    let reads := f.shown != s.flash.shown && (match f.shown with
      | some t => (match f.tags[t] with | some r => r.cmd == 0 | none => false)
      | none => false)
    .next ((s.modFlash fun _ => f).countB 0x55 (if reads then 1 else 0))
  else .next s

/-- FLASH_REQUEST_GRANT: FL_GNT at 1 while a request is presented. -/
def execFlashRequestGrant (s : State) : Host.Outcome State Fault Refusal := .next (s.modFlash fun f => { f with shown := none })

/-- The accepted request of a tag. -/
def Flash.live (f : Flash) (t : Fin 4) : Option FlashReq := if f.shown = some t then none else f.tags[t]

def Flash.ctl (f : Flash) : Word := flag f.pen 0 ||| flag f.parchk 1

def Flash.stat (f : Flash) : Word :=
  let busy (t : Fin 4) : Bool := (f.live t).isSome
  let wr := (List.finRange 4).any fun t => match f.live t with | some r => r.cmd != 0 | none => false
  flag f.rerr 0 ||| flag f.parErr 1 ||| flag f.werr 2 |||
  (List.finRange 4).foldl (fun w t => w ||| flag (busy t) (3 + t.val)) 0 ||| flag wr 7

/-- A flag of FL_STAT is set, which raises the flash port error source (R325). -/
def State.flashFlag (s : State) (f : Flash → Flash) : State :=
  let s := s.modFlash f
  s.raise 211 s.flash.stat

/-- A finished line read goes to every core that asked; the ring agent's goes to the running dictionary transfer (R404). -/
def State.lineDone (s : State) (r : FlashReq) (res : LineRes) : State :=
  r.users.foldl (fun s u => match u with
    | .fill c i => s.modCore c fun k => k.fillGot i r.line res
    | .pin c => s.modCore c fun k => k.pinGot r.line res
    | .ring =>
      match res with
      | .data d => { s with dict := { s.dict with flashGot := s.dict.flashGot ++ (List.range 8).map fun i => lineWord d (4 * i) 4 } }
      | _ => { s with dict := { s.dict with flashErr := true } }) s

/-- A read beat (R313, R315, R316). -/
def State.flashBeat (s : State) (t : Fin 4) (data : Word) (err parOk : Bool) : State :=
  let stray : State := s.flashFlag fun f => { f with parErr := true }
  match s.flash.live t with
  | none => stray
  | some r =>
    if r.cmd ≠ 0 then stray
    else
      let bad := s.flash.parchk && !parOk
      let r : FlashReq := { r with beats := r.beats ++ [data], err := r.err || err || bad }
      let s := if bad then s.flashFlag fun f => { f with parErr := true } else s
      if r.beats.length < 8 then s.modFlash fun f => { f with tags := f.tags.set t (some r) }
      else if r.err then
        (s.flashFlag fun f => { f with tags := f.tags.set t none, rerr := true, errAddr := r.addr }).lineDone r .flashErr
      else
        (s.modFlash fun f => { f with tags := f.tags.set t none }).lineDone r (.data (ofBytes 256 (r.beats.flatMap (toBytes 4))))

/-- A completion of a write or a control write (R307, R313, R315, R316). -/
def State.flashAck (s : State) (t : Fin 4) (err : Bool) : State :=
  let stray : State := s.flashFlag fun f => { f with parErr := true }
  match s.flash.live t with
  | none => stray
  | some r =>
    if r.cmd = 0 then stray
    else
      let s := s.modFlash fun f => { f with tags := f.tags.set t none }
      let s := s.invalidate (fun _ => true) fun l => if r.cmd = 1 then l == r.line else isFlashLine l
      if err then
        let s := s.flashFlag fun f => { f with werr := true, errAddr := r.addr }
        { s with dict := { s.dict with flashErr := true } }
      else s

/-- Every request at the port ends in the FLASH_ERR error (R315, R316). -/
def State.flashEndAll (s : State) : State :=
  let rs := s.flash.queue ++ (List.finRange 4).filterMap fun t => s.flash.tags[t]
  let s := s.modFlash fun f => { f with queue := [], tags := Vector.replicate 4 none, shown := none }
  rs.foldl (fun s r => s.lineDone r .flashErr) s

/-- A write of FL_CTL. -/
def State.flCtl (s : State) (v : Word) : State :=
  let s := s.modFlash fun f => { f with pen := v.getLsbD 0, parchk := v.getLsbD 1 }
  if v.getLsbD 0 then s else s.flashEndAll

def Flash.statWrite (f : Flash) (v : Word) : Flash :=
  { f with rerr := f.rerr && !v.getLsbD 0, parErr := f.parErr && !v.getLsbD 1, werr := f.werr && !v.getLsbD 2 }

end Sys2Proof.Machine
end

