-- ==== Sys2Proof/Machine/Load.lean ====
section
/-! DEFINITION. The control store of a core and the load unit that writes its RAM (spec 05, R157 to R163, R170, R175, R182 to R190). -/

namespace Sys2Proof.Machine

open Sys2Proof

/-! ## What the control store holds (R157 to R160) -/

/-- The word at a micro-address, whatever its check says. -/
def Core.storeWord (k : Core) (a : BitVec 12) : UWord := if isRam a then (alGet k.ram a.toNat).getD 0 else romAt a

def Core.vector (k : Core) (i : Byte) : BitVec 16 := (alGet k.uvec i.toNat).getD 0

def Core.cstat (k : Core) : Word :=
  fld k.cErrAddr 0 ||| flag k.cUncorr 12 ||| flag k.chkFail 13 ||| flag k.chkDone 14

def csSrc (c : CoreId) : SrcId := ⟨80 + c.val, by omega⟩

/-- A word is read and checked: a single-bit error is corrected and counted; an uncorrectable one answers none, is recorded, and
raises the control-store error source (R160). A corrected RAM word is rewritten later. -/
def State.readStore (s : State) (c : CoreId) (a : BitVec 12) : Option UWord × State :=
  let k := s.core[c]
  if k.csBad.contains a.toNat then
    let s := s.modCore c fun k => { k with cErrAddr := a, cUncorr := true }
    (none, s.raise (csSrc c) s.core[c].cstat)
  else if k.csCorr.contains a.toNat then
    (some (k.storeWord a), (s.modCore c fun k => { k with ccnt := satInc k.ccnt }).countC c 0x39)
  else (some (k.storeWord a), s)

/-- UCODE_RAM_REWRITE: a corrected RAM word goes back in a cycle in which nothing is read. -/
def execUcodeRamRewrite (c : CoreId) (a : BitVec 12) (s : State) : Host.Outcome State Fault Refusal :=
  if isRam a then .next (s.modCore c fun k => { k with csCorr := k.csCorr.filter (· ≠ a.toNat) }) else .next s

/-- The redirection of R182: the lowest-numbered enabled patch register whose MATCH is the ROM address. -/
def Core.patched (k : Core) (a : BitVec 12) : BitVec 12 :=
  if isRam a then a
  else
    match k.patch.toList.find? fun p => p.getLsbD 31 && (bits p 0 12 : BitVec 12) == a with
    | some p => 0xC00#12 + (bits p 12 10 : BitVec 10).setWidth 12
    | none => a

/-! ## What may be stored (R163, R170, R175, R184) -/

/-- A microword that the check before storing accepts: no reserved encoding, none of the ROM-only codes, and the rules of R175. -/
def legalWord (w : UWord) : Bool :=
  let f := ufield w
  f 0 18 == 0 && condsGood w && encodings.all (fun e => e.2.2 (f e.1 e.2.1)) && f 80 5 != 0x0A && f 51 4 ≤ 4 &&
  (f 120 4 != 5 || f 39 4 == 0) &&
  (f 120 4 != 8 || (f 97 3 == 0 && f 94 3 == 0 && f 89 5 == 0 && !([1, 2, 3, 4, 6, 7, 0xB].contains (f 80 5))))

/-- A user vector entry that may be stored (R190). -/
def legalVector (v : BitVec 16) : Bool := (bits v 14 2 : BitVec 2) == 0

/-- Life-cycle states that protect the range 0x700 to 0x7FF (R183). -/
def State.sealed (s : State) : Bool := 2 ≤ s.night.lcState.toNat

def inProtected (a : BitVec 12) : Bool := 0x700 ≤ a.toNat && a.toNat < 0x800

def State.patchOk (s : State) (v : Word) : Bool := !(s.sealed && inProtected (bits v 0 12))

/-! ## Storing -/

def Core.putWord (k : Core) (a : BitVec 12) (w : UWord) : Core :=
  let v := withEcc w
  { k with ram := if v = 0 then alErase k.ram a.toNat else alSet k.ram a.toNat v, csCorr := k.csCorr.filter (· ≠ a.toNat),
           csBad := k.csBad.filter (· ≠ a.toNat), wroteAny := true }

def Core.putVector (k : Core) (i : Byte) (v : BitVec 16) : Core :=
  { k with uvec := if v = 0 then alErase k.uvec i.toNat else alSet k.uvec i.toNat v, wroteAny := true }

def Core.putPatch (k : Core) (i : Fin 64) (v : Word) : Core :=
  { k with patch := k.patch.set i (v &&& 0x803FFFFF), wroteAny := true, wrotePatch := true }

/-! ## Hold and release (R185 to R187) -/

def State.modLoad (s : State) (f : LoadUnit → LoadUnit) : State := { s with load := f s.load }

/-- A routine that a release abandons parks its context (R186). -/
def State.parkAbandoned (s : State) (c : CoreId) (x : CtxId) : State :=
  let s := s.abandon c x
  let s := s.modCtx c x fun t => { t with waitFor := none, served := none }
  if (s.ctx c x).st = .halt then s.modCtx c x fun t => { t with preHalt := .parked } else s.setSt c x .parked

/-- HOLD is cleared for one core. -/
def State.releaseHeld (s : State) (c : CoreId) : State :=
  let k := s.core[c]
  if !k.held then s
  else
    let lost (sl : SaveSlot) : Bool := k.wroteAny && sl.valid && (k.wrotePatch || isRam sl.upc)
    let s := (List.finRange 9).foldl (fun s x =>
      let t := k.ctx[x]
      if (t.held.map fun h => lost h.slot).getD false then (s.modCtx c x Ctx.dropHandler).parkAbandoned c x
      else if lost t.slot then s.parkAbandoned c x
      else s) s
    (s.modCore c fun k => { k with held := false, wroteAny := false, wrotePatch := false }).modWdt c Wdt.reload

def State.releaseHold (s : State) : State :=
  (List.finRange 16).foldl State.releaseHeld (s.modLoad fun l => { l with hold := false })

/-- The other kind of writer is shut out while HOLD is 1 (R187). -/
def LoadUnit.shut (l : LoadUnit) (ring : Bool) : Bool := l.hold && l.owner != ring

/-- A write of UC_LDCTL (R185, R187). `own` is the core of a context that writes. -/
def State.ldctlWrite (s : State) (ring : Bool) (own : Option CoreId) (v : Word) : State :=
  if s.load.shut ring then s
  else
    let s := s.modLoad fun l => if l.hold then l else { l with cores := bits v 0 16 }
    let self := match own with | some c => s.load.cores.getLsbD c.val | none => false
    let s :=
      if v.getLsbD 16 then
        if s.load.hold || s.load.lock then s
        else if self then s.modLoad fun l => { l with selfHold := true }
        else s.modLoad fun l => { l with hold := true, owner := ring }
      else if s.load.hold then s.releaseHold else s
    s.modLoad fun l => { l with lock := l.lock || v.getLsbD 17 }

/-! ## UC_CMD (R184, R185, R189) -/

def LoadUnit.word (l : LoadUnit) : UWord :=
  l.data[0].setWidth 144 ||| (l.data[1].setWidth 144 <<< 32) ||| (l.data[2].setWidth 144 <<< 64) |||
  (l.data[3].setWidth 144 <<< 96) ||| (l.data[4].setWidth 144 <<< 128)

def LoadUnit.setWord (l : LoadUnit) (w : UWord) : LoadUnit :=
  { l with data := Vector.ofFn fun i => bits w (32 * i.val) 32 }

/-- ADDR advances after an action. -/
def LoadUnit.advance (l : LoadUnit) : LoadUnit := if l.ainc then { l with addr := l.addr + 1 } else l

/-- ADDR lies in the range of SPACE, for a write or a read. -/
def LoadUnit.inRange (l : LoadUnit) (write : Bool) : Bool :=
  match l.space.toNat with
  | 0 => !write || isRam l.addr
  | 1 => l.addr.toNat < 256
  | 2 => l.addr.toNat < 64
  | _ => !write && (l.addr.toNat < 0xFE || (0x100 ≤ l.addr.toNat && l.addr.toNat < 0x200))

/-- What a write stores in a held core; none where the value is refused. -/
def State.loadPut (s : State) : Option (Core → Core) :=
  let l := s.load
  match l.space.toNat with
  | 0 => if legalWord l.word then some fun k => k.putWord l.addr l.word else none
  | 1 => if legalVector (bits l.data[0] 0 16) then some fun k => k.putVector (bits l.addr 0 8) (bits l.data[0] 0 16) else none
  | _ => if s.patchOk l.data[0] then some fun k => k.putPatch (bits l.addr 0 6).toFin l.data[0] else none

/-- The WRITE action. Where only some of the target cores are held, those are written and NOTHELD is set for the others; ADDR advances
after a write that was refused for its value or for a core that is not held, and not after one whose ADDR is out of the range of its
SPACE; the dispatch table is out of range for every write (DESIGN CHOICE, log 58). -/
def State.ucWrite (s : State) (ring : Bool) : State :=
  let l := s.load
  if l.shut ring || l.lock then s
  else if !l.inRange true then s.modLoad fun l => { l with notHeld := true }
  else
    let target (c : CoreId) : Bool := l.cores.getLsbD c.val
    let s := if (List.finRange 16).any fun c => target c && !s.core[c].held then s.modLoad fun l => { l with notHeld := true } else s
    let s := match s.loadPut with
      | some f => s.allCores fun c k => if target c && k.held then f k else k
      | none => s.modLoad fun l => if l.space = 2 then { l with protect := true } else { l with badWord := true }
    s.modLoad LoadUnit.advance

/-- The READ action; the data of an uncorrectable word is not stated and is free. -/
def State.ucRead (s : State) (ring : Bool) : State :=
  let l := s.load
  if l.shut ring then s
  else if !l.inRange false then s.modLoad fun l => { l with notHeld := true }
  else match (List.finRange 16).find? fun c => l.cores.getLsbD c.val with
    | none => s
    | some c =>
      let k := s.core[c]
      let put (v : Word) : State := s.modLoad fun l => { l with data := l.data.set 0 v }
      let s := match l.space.toNat with
        | 0 =>
          match s.readStore c l.addr with
          | (some w, s) => s.modLoad fun l => l.setWord w
          | (none, s) =>
            let ws := (List.range 5).map fun i => Config.freeWord (s.freeCtr + i)
            { s with freeCtr := s.freeCtr + 5, load := s.load.setWord (ofBytes 144 (ws.flatMap (toBytes 4))) }
        | 1 => put (fld (k.vector (bits l.addr 0 8)) 0)
        | 2 => put (k.patch[(bits l.addr 0 6 : BitVec 6).toFin])
        | _ => put (fld (dispatch l.addr) 0)
      s.modLoad LoadUnit.advance

/-- A write of UC_CMD: READ alone acts where both bits are 1. -/
def State.ucCmd (s : State) (ring : Bool) (v : Word) : State :=
  if v.getLsbD 1 then s.ucRead ring else if v.getLsbD 0 then s.ucWrite ring else s

def LoadUnit.ctl (l : LoadUnit) : Word := fld l.cores 0 ||| flag l.hold 16 ||| flag l.lock 17

def State.ldstat (s : State) : Word :=
  (List.finRange 16).foldl (fun w c => w ||| flag s.core[c].held c.val) 0 ||| flag s.load.notHeld 16 ||| flag s.load.badWord 17 |||
  flag s.load.protect 18 ||| flag s.load.selfHold 19 ||| flag s.load.lock 20 ||| flag s.load.owner 21

def LoadUnit.statWrite (l : LoadUnit) (v : Word) : LoadUnit :=
  { l with notHeld := l.notHeld && !v.getLsbD 16, badWord := l.badWord && !v.getLsbD 17, protect := l.protect && !v.getLsbD 18,
           selfHold := l.selfHold && !v.getLsbD 19 }

def LoadUnit.addrWord (l : LoadUnit) : Word := fld l.addr 0 ||| fld l.space 12 ||| flag l.ainc 16

def LoadUnit.addrWrite (l : LoadUnit) (v : Word) : LoadUnit :=
  { l with addr := bits v 0 12, space := bits v 12 2, ainc := v.getLsbD 16 }

/-! ## The start-up check and booting (R161, R436) -/

/-- BOOT_AUTO starts C0 T0 once C0's check has passed. -/
def State.bootAuto (s : State) : State :=
  if s.dict.bootWait && s.core[(0 : CoreId)].chkDone then
    let s := { s with dict := { s.dict with bootWait := false } }
    s.startCtx 0 0 3
  else s

end Sys2Proof.Machine
end

