-- ==== Sys2Proof/Machine/Power.lean ====
section
/-! DEFINITION. Supplies, clocks, power states and the resets' effect on State (spec 13; R279, R281, R456, R457). -/

namespace Sys2Proof.Machine

open Sys2Proof

def State.modPower (s : State) (f : Power → Power) : State := { s with power := f s.power }

/-! ## Registers (R438) -/

def State.pwrStat (s : State) : Word :=
  let p := s.power
  fld p.pend 0 ||| flag p.mainOk 2 ||| flag p.vddmOk 3 ||| flag p.mainWarn 4 ||| flag (p.lockA && !p.relock) 5 |||
  flag p.lockB 6 ||| fld p.vcause 7 ||| fld p.wcause 9 ||| flag p.clkErr 11 |||
  (List.finRange 16).foldl (fun w c => w ||| flag s.core[c].dozed (16 + c.val)) 0

def Power.ctl (p : Power) : Word := flag p.awake 2 ||| flag p.mwake 3

/-- A power request (R428, R431): a new one replaces a pending one, 0b11 cancels it, 0b00 asks for nothing. -/
def Power.request (p : Power) (r : BitVec 2) : Power :=
  { p with pend := if r = 0 then p.pend else if r = 3 then 0 else r }

def Power.ctlWrite (p : Power) (v : Word) : Power := { p.request (bits v 0 2) with awake := v.getLsbD 2, mwake := v.getLsbD 3 }

def Power.dozeWord (p : Power) : Word := fld p.dozeEn 0 ||| fld p.dozeDly 16

/-- A write of PWR_DOZE: a cleared EN bit ends its core's DOZE (R426). -/
def State.dozeWrite (s : State) (v : Word) : State :=
  let s := s.modPower fun p => { p with dozeEn := bits v 0 16, dozeDly := bits v 16 8 }
  s.allCores fun c k => if k.dozed && !v.getLsbD c.val then { k with dozeWake := true } else k

/-- A write of PWR_CRST (W1S). -/
def State.crstWrite (s : State) (v : Word) : State :=
  (List.finRange 16).foldl (fun s c => if v.getLsbD c.val then s.askReset c else s) s

/-- A write of CLK_PLLA (R422). -/
def State.pllaWrite (s : State) (v : Word) : State :=
  let a : BitVec 6 := bits v 0 6
  if 0x10 ≤ a.toNat ∧ a.toNat ≤ 0x20 then s.modPower fun p => { p with amul := a, relock := true }
  else s.modPower fun p => { p with clkErr := true }

def cdivIdx (hi : Bool) (k : Fin 8) : Fin 16 := ⟨k.val + if hi then 8 else 0, by split <;> omega⟩

def Power.cdivWord (p : Power) (hi : Bool) : Word :=
  (List.finRange 8).foldl (fun w k => w ||| fld p.cdiv[cdivIdx hi k] (4 * k.val)) 0

/-- A write of CLK_CDIV0 or CLK_CDIV1 (R422). -/
def Power.cdivWrite (p : Power) (hi : Bool) (v : Word) : Power :=
  { p with cdiv := (List.finRange 8).foldl (fun (d : Vector (BitVec 4) 16) k => d.set (cdivIdx hi k) (bits v (4 * k.val) 4)) p.cdiv }

def Power.sdivWrite (p : Power) (v : Word) : Power := { p with sdiv := bits v 0 5 }

/-- VT_LO and VT_HI (R423). A debug read latches into the debug path's own latch (R466). -/
def Power.vtLoRead (p : Power) (debug : Bool) : Word × Power :=
  let hi : BitVec 16 := bits p.vt 32 16
  (bits p.vt 0 32, if debug then { p with vtLatchDbg := hi } else { p with vtLatch := hi })

def Power.vtLoWrite (p : Power) (v : Word) : Power := { p with vt := v.setWidth 48 ||| (p.vtHold.setWidth 48 <<< 32) }

def Power.almHiWord (p : Power) : Word := fld p.almHi 0 ||| flag p.almEn 31

/-! ## MAIN_EN (R420, R432, R435) -/

/-- The block wants its main supply from now on. -/
def Power.want (p : Power) : Power := { p with wantMain := true, mainEn := p.mainEn || p.fastClk }

/-- A cause of R432 ends a VESPER-ONLY that was asked for. -/
def State.vesperWake (s : State) (cause : BitVec 2) : State :=
  if s.power.state = .vesperOnly ∧ !s.power.wantMain then s.modPower fun p => { p.want with wcause := cause } else s

/-- VESPER_ALARM: the count equals VT_ALM (R423, R432). -/
def execVesperAlarm (s : State) : Host.Outcome State Fault Refusal :=
  let p := s.power
  if p.almEn && p.vt == p.almLo.setWidth 48 ||| (p.almHi.setWidth 48 <<< 32) then
    let s := s.raise 356 (bits p.vt 0 32)
    .next (if p.awake then s.vesperWake 2 else s)
  else .next s

/-- FAST_CLOCK_ABSENT and FAST_CLOCK_PRESENT. -/
def execFastClockAbsent (s : State) : Host.Outcome State Fault Refusal := .next (s.modPower fun p => { p with fastClk := false })

def execFastClockPresent (s : State) : Host.Outcome State Fault Refusal :=
  .next (s.modPower fun p => { p with fastClk := true, mainEn := p.mainEn || p.wantMain })

/-! ## DOZE (R425 to R427) -/

/-- A wake entry for core `c` is held in a buffer or a carry queue (R427). -/
def State.preWaking (s : State) (c : CoreId) : Bool :=
  (List.finRange 8).any fun t =>
    let b := s.transit.tb[t]
    (b.live ++ b.store ++ b.carry ++ b.merging ++ b.armed.map (·.item)).any fun i => isWake i && wakeCore i.e == c

/-- Everything that R425 asks of core `c` but the delay. -/
def State.mayDoze (s : State) (c : CoreId) : Bool :=
  let k := s.core[c]
  s.mainRuns && s.power.state == .run && s.power.dozeEn.getLsbD c.val && !k.dozed &&
  ((List.finRange 8).all fun t =>
    let x := k.ctx[thr t]
    (x.st == .idle || x.st == .sleep || x.st == .parked || x.st == .fault || x.st == .dfault) && (x.st == .idle || !x.cntd)) &&
  k.ctx[fCtx].st == .idle && ((List.finRange 9).all fun x => (k.ctx[x]).longs.isEmpty) && k.sb.isEmpty &&
  ((List.finRange 4).all fun i => k.miss[i].isNone) && k.staging.isEmpty && !k.pinBusy && !k.held &&
  !(s.load.hold && s.load.cores.getLsbD c.val) && !s.preWaking c

/-- DOZE_ENTRY: the idle delay has passed. -/
def execDozeEntry (c : CoreId) (s : State) : Host.Outcome State Fault Refusal :=
  if s.mayDoze c then .next (s.modCore c fun k => { k with dozed := true, dozeWake := false }) else .next s

/-- DOZE_EXIT: a cause of R426 has come. -/
def execDozeExit (c : CoreId) (s : State) : Host.Outcome State Fault Refusal :=
  if s.mainRuns && s.power.state == .run && s.core[c].dozed && s.core[c].dozeWake then
    .next ((s.modCore c fun k => { k with dozed := false, dozeWake := false }).countC c 0x3D)
  else .next s

/-! ## NAP (R281, R428, R429) -/

/-- What NAP loses of a core (R424): control-store RAM, user vectors, patch registers, cache lines, pinned slots, fetch buffers, BTB. -/
def Core.afterNap (k : Core) : Core :=
  { k with ram := [], uvec := [], patch := Vector.replicate 64 0,
           csCorr := k.csCorr.filter (· < 0xC00), csBad := k.csBad.filter (· < 0xC00),
           lc := Vector.replicate 48 {}, victims := [], pinData := Vector.replicate 32 0, lcPin := 0, btb := [],
           fvecOk := Vector.replicate 8 false, ctx := Vector.ofFn fun x => { k.ctx[x] with fbuf := [], btbAt := none, ahead := none } }

/-- No main-domain master has a request outstanding. -/
def State.quietMasters (s : State) : Bool :=
  s.flash.queue.isEmpty && ((List.finRange 4).all fun t => (s.flash.tags[t]).isNone) && s.fabric.queue.isEmpty &&
  s.fabric.shown.isNone && s.fabric.out.isEmpty && s.fabric.held.isEmpty && s.march.slice.isNone &&
  !(s.march.busy && s.march.destroying) && !s.spad.wiping && s.dict.daccBusy.isNone && s.ring.busy.isNone

/-- NAP_ENTRY. -/
def execNapEntry (s : State) : Host.Outcome State Fault Refusal :=
  if s.power.pend == 1 && s.mainRuns && s.power.state == .run && !s.power.relock && s.spad.initDone &&
      (List.finRange 16).all (fun c => s.core[c].dozed && !s.core[c].dozeWake) && s.quietMasters then
    let s := s.modPower fun p => { p with pend := 0, state := .nap, napWake := false, lockA := false, lockB := false,
                                          vddmLow := true, vddmOk := false }
    let s := s.pauseAll.allCores fun _ k => k.afterNap
    let follow (n : Fin 4) (m : Ms) : Ms :=
      if (m.state == .locked || m.state == .acquire) && !m.ownBeam n then
        { m with state := .holdover, pend := 0, frames := 0, restartAt := none }
      else m
    let s := { s with ports := { s.ports with ms := Vector.ofFn fun n => follow n s.ports.ms[n],
                                              port := s.ports.port.map fun (p : Port) => { p with out := [], trim := 0 } } }
    .next { s with spad := { s.spad with asleep := true } }
  else .next s

/-! ## Clock changes (R422) -/

/-- PLLA_RELOCK. -/
def execPllaRelock (s : State) : Host.Outcome State Fault Refusal := .next (s.modPower fun p => { p with relock := false })

/-! ## MAIN_WARN (R437, R457) -/

/-- MAIN_WARN_RISE. Under PORn_AON nothing is counted and no record is written. -/
def execMainWarnRise (s : State) : Host.Outcome State Fault Refusal :=
  if s.power.mainWarn then .next s
  else if !s.power.pornAon then .next (s.modPower fun p => { p with mainWarn := true })
  else
    let s := s.freezePins.modPower fun p => { p with mainWarn := true, bocnt := satInc p.bocnt }
    let n := s.power.bocnt
    let s := s.raise 352 (1 ||| (n <<< 16))
    .next (s.cause 0x05 0xFF 0 (n.setWidth 96 ||| (s.powerCode.setWidth 96 <<< 32)))

/-- MAIN_WARN_FALL. -/
def execMainWarnFall (s : State) : Host.Outcome State Fault Refusal :=
  let s' := s.modPower fun p => { p with mainWarn := false }
  if s.power.mainRst then .next s' else .next s'.thawPins

/-! ## The internal main reset (R424, R433, R471) -/

/-- A core in reset; its debug fields belong to the debug domain, and errors of ROM words stay with the words. -/
def Core.inReset (k : Core) : Core :=
  { stepCtx := k.stepCtx, rhalt := k.rhalt, bkptEn := k.bkptEn, hcause := k.hcause, stepDone := k.stepDone, stepErr := k.stepErr,
    csCorr := k.csCorr.filter (· < 0xC00), csBad := k.csBad.filter (· < 0xC00), vsCorr := k.vsCorr, vsBad := k.vsBad }

/-- The transit engine after its reset: every entry is untouched, and holds what its last write left (R202, R233). -/
def Transit.afterReset (x : Transit) : Transit := { eph := x.eph, ephCorr := x.ephCorr, ephBad := x.ephBad }

/-- Every main-domain register and array takes its reset value; the Vesper and debug domains keep theirs. -/
def State.mainReset (s : State) : State :=
  let s := s.freezePins
  let d : Dict := {}
  let p := s.power
  { s with
    core := s.core.map Core.inReset, transit := s.transit.afterReset, ports := {}, spad := {}, march := {}, flash := {}, fabric := {}, ev := {},
    gpio := { slp := s.gpio.slp, latOut := s.gpio.latOut, latOe := s.gpio.latOe, frozen := true },
    counters := {}, load := {},
    dict := { s.dict with injData := 0, injWhere := 0, ucSize := 0, ucState := 0, ucReason := 0, ucStage := d.ucStage,
                          bootWait := false, flashErr := false, flashTodo := [], flashGot := [] },
    power := { p with mainRst := true, lockA := false, lockB := false, heldDone := false, napWake := false, relock := false,
                      vddmLow := false, clkErr := p.clkErr, dozeEn := 0xFFFF, dozeDly := 0x10, crst := 0, amul := 0x20,
                      cdiv := Vector.replicate 16 0, sdiv := 0, disc := 0 } }

end Sys2Proof.Machine
end

