-- ==== Sys2Proof/Machine/Debug.lean ====
section
/-! DEFINITION. Debug unlock, steps, the trace sinks, the event counters and the watchdogs (spec 15, R459 to R461, R468 to R471, R476
to R489). -/

namespace Sys2Proof.Machine

open Sys2Proof

/-! ## Levels and unlock (R459, R461) -/

def State.dbgLvl (s : State) : Word :=
  let d := s.dbg
  fld d.level 0 ||| fld (lcDefault s.night.lcState) 2 ||| flag d.barred 4 ||| fld d.fails 5 ||| flag d.busy 9 ||| flag d.failed 10

/-- A write of DBG_UNREQ forms a challenge. -/
def State.unreqWrite (s : State) (v : Word) : State :=
  let lv : BitVec 2 := bits v 0 2
  if s.dbg.busy || lv == 0 || lv == 3 then s
  else
    let n := s.dbg.chalCnt + 1
    s.modDbg fun d => { d with chal := s.power.vt.setWidth 64 ||| (n.setWidth 64 <<< 48), chalCnt := n, chalOut := true, reqLevel := lv }

def Debug.respHiWrite (d : Debug) (v : Word) : Debug := if d.busy then d else { d with respHi := v }

/-- A write of DBG_RESP_LO starts the check. -/
def Debug.respLoWrite (d : Debug) (v : Word) : Debug := if d.busy then d else { d with respLo := v, busy := true }

/-- Levels that an unlock can grant in a life-cycle state. -/
def canGrant (st lv : BitVec 2) : Bool :=
  match st.toNat with
  | 2 => lv == 1 || lv == 2
  | 3 => lv == 2
  | _ => false

/-- The response that the challenge outstanding asks for. -/
def State.expectedResp (s : State) : List Byte :=
  let d := s.dbg
  let key := toBytes 8 (s.night.intCode.getD 0)
  (hmac256 key (toBytes 8 d.chal ++ toBytes 4 Config.serial ++ [d.reqLevel.setWidth 8])).take 8

/-- UNLOCK_CHECK_DONE. -/
def execUnlockCheckDone (s : State) : Host.Outcome State Fault Refusal :=
  let d := s.dbg
  if !d.busy then .next s
  else
    let good := !d.barred && d.chalOut && canGrant s.night.lcState d.reqLevel &&
      (toBytes 4 d.respLo ++ toBytes 4 d.respHi == s.expectedResp)
    let d : Debug := { d with busy := false, chalOut := false }
    .next { s with dbg :=
      if good then { d with fails := 0, level := if d.level.toNat < d.reqLevel.toNat then d.reqLevel else d.level }
      else { d with failed := true, fails := satInc d.fails, barred := d.barred || decide (7 ≤ d.fails.toNat) } }

/-! ## Halt, step, cross-trigger (R467 to R471) -/

def Xtm.word (x : Xtm) (bkpt : Bool) : Word := fld x.haltl 0 ||| fld x.firel 4 ||| fld x.rell 8 ||| flag bkpt 12

def State.xtmWord (s : State) (m : Fin 18) : Word :=
  s.dbg.xtm[m].word (match coreOf m with | some c => s.core[c].bkptEn | none => false)

def State.xtmWrite (s : State) (m : Fin 18) (v : Word) : State :=
  let s := s.modDbg fun d => { d with xtm := d.xtm.set m { haltl := bits v 0 4, firel := bits v 4 4, rell := bits v 8 4 } }
  match coreOf m with
  | some c => s.modCore c fun k => { k with bkptEn := v.getLsbD 12 }
  | none => s

/-- A write of DBG_REL. -/
def State.relWrite (s : State) (ms : BitVec 18) : State :=
  (List.finRange 18).foldl (fun s m => if ms.getLsbD m.val then s.release m else s) s

/-- STEP (R470): the context named may issue one instruction. -/
def State.stepWrite (s : State) (c : CoreId) : State :=
  let k := s.core[c]
  if !k.halted || k.stepping then s
  else if h : k.stepCtx.toNat < 9 then
    let x : CtxId := ⟨k.stepCtx.toNat, h⟩
    if k.ctx[x].st == .halt && k.ctx[x].preHalt == .ready then
      ((s.modCore c fun k => { k with stepping := true, stepRan := false }).setSt c x .ready).countC c 0x3F
    else s.modCore c fun k => { k with stepErr := true }
  else s

def Core.dbgCore (k : Core) : Word := fld k.stepCtx 2 ||| flag k.rhalt 5

def member (c : CoreId) : Fin 18 := c.castLE (by omega)

/-- A write of DBG_COREc. -/
def State.dbgCoreWrite (s : State) (c : CoreId) (v : Word) : State :=
  let s := s.modCore c fun k => { k with stepCtx := (bits v 2 3 : BitVec 3).setWidth 4, rhalt := v.getLsbD 5 }
  let s := if v.getLsbD 0 then s.haltRequest (member c) 0 else s
  if v.getLsbD 1 then s.stepWrite c else s

def Core.dbgCstat (k : Core) : Word :=
  flag k.halted 0 ||| flag k.stepping 1 ||| flag k.stepDone 2 ||| flag k.stepErr 3 ||| fld k.hcause 4

/-- STEP_DONE: the stepped instruction has ended (R470). -/
def execStepDone (c : CoreId) (s : State) : Host.Outcome State Fault Refusal :=
  let k := s.core[c]
  if k.stepping && k.stepRan then
    let s := s.modCore c fun k => { k with stepping := false, stepRan := false, stepDone := true }
    if h : k.stepCtx.toNat < 9 then
      let x : CtxId := ⟨k.stepCtx.toNat, h⟩
      let back (st : CtxState) : State := (s.modCtx c x fun t => { t with preHalt := st }).setSt c x .halt
      match k.ctx[x].st with
      | .ready => .next (back .ready)
      | .wait => .next (back .wait)
      | .sleep => .next (back .sleep)
      | .parked => .next (back .parked)
      | _ => .next s
    else .next s
  else .next s

/-- HALT_ARRIVAL. -/
def execHaltArrival (m : Fin 18) (s : State) : Host.Outcome State Fault Refusal := .next (s.haltArrive m)

/-! ## The debug domain's reset and supply (R433, R462, R463) -/

/-- DBG_RSTN: the debug domain takes its reset values; halted members are released and the level falls. -/
def execDbgRstn (s : State) : Host.Outcome State Fault Refusal :=
  let s := s.releaseAll
  let d := s.dbg
  let s := { s with dbg := { level := d.level, barred := d.barred, fails := d.fails, failed := d.failed, busy := d.busy, chal := d.chal,
                             chalCnt := d.chalCnt, chalOut := d.chalOut, reqLevel := d.reqLevel, respHi := d.respHi,
                             respLo := d.respLo } }
  let s := s.allCores fun _ k => { k with stepCtx := 0, rhalt := false, bkptEn := false, hcause := 0, stepDone := false, stepErr := false }
  .next s.dbgDefault

/-- TRSTN resets the TAP only, whose state the model does not hold. -/
def execTrstn (s : State) : Host.Outcome State Fault Refusal := .next s

/-- VDBG_LOSS and VDBG_RETURN. -/
def execVdbgLoss (s : State) : Host.Outcome State Fault Refusal := .next (s.modPower fun p => { p with vdbg := false })

def execVdbgReturn (s : State) : Host.Outcome State Fault Refusal := .next (s.modPower fun p => { p with vdbg := true })

/-! ## Trace registers and sinks (R479 to R483) -/

def Debug.trcCtl (d : Debug) : Word := flag d.trEn 0 ||| fld d.sink 1 ||| fld d.tsel 3 ||| flag d.bmode 7 ||| fld d.bsz 8

/-- A write of TRC_CTL; a core context may not change the port sink bit. -/
def State.trcCtlWrite (s : State) (core : Bool) (v : Word) : State :=
  let old := s.dbg.sink
  let want := v.getLsbD 1
  let port := if core then old.getLsbD 0 else want && s.dbg.level != 0
  let sink : BitVec 2 := (if port then 1 else 0) ||| (if v.getLsbD 2 then 2 else 0)
  (s.modDbg fun d =>
    { d with trEn := v.getLsbD 0, sink := sink, tsel := bits v 3 4, bmode := v.getLsbD 7, bsz := bits v 8 4,
             portOff := d.portOff || (!core && want && d.level == 0), syncDue := d.syncDue || (port && !old.getLsbD 0) }).traceSettle

def State.trcStat (s : State) : Word :=
  let d := s.dbg
  flag d.stopped 0 ||| fld (BitVec.ofNat 7 d.fifo.length) 1 ||| flag d.berr 8 ||| flag d.portOff 9

def TrcEn.word (t : TrcEn) : Word := fld t.plo 0 ||| fld t.phi 8 ||| fld t.ctxm 16 ||| fld t.budget 28

def TrcEn.write (t : TrcEn) (v : Word) : TrcEn :=
  { t with plo := bits v 0 5, phi := bits v 8 5, ctxm := bits v 16 9, budget := bits v 28 4 }

/-- TRACE_PORT_PACKET: the port sink sends the next packet, a SYNC packet first where one is due (R482). -/
def execTracePortPacket (s : State) : Host.Outcome State Fault Refusal :=
  let d := s.dbg
  if !d.sink.getLsbD 0 || !s.power.vdbg then .next s
  else if d.syncDue then
    .next (({ s with dbg := { d with syncDue := false, sinceSync := 0, seq := d.seq + 1,
                                     portOut := packetBits (fld (2#2) 14) d.seq (s.stamp d.tsel) 0xFFFFFFFF } }).countB 0x5F)
  else match d.fifo.findIdx? fun p => !p.byPort with
    | none => .next s
    | some i =>
      let s := s.modDbg fun d =>
        { d with portOut := ((d.fifo[i]?).map (·.bits)).getD 0, fifo := d.fifo.modify i fun p => { p with byPort := true },
                 sinceSync := d.sinceSync + 1, syncDue := decide (1024 ≤ d.sinceSync + 1) }
      .next (s.traceSettle.countB 0x5F)

/-- The eight beats of a packet at the trace port: TRC_CTL, and two bytes on TRC_D (R482). -/
def traceBeats (p : BitVec 128) : List (BitVec 2 × BitVec 16) :=
  (List.range 8).map fun i => (if i = 0 then 1 else 2, bits p (16 * i) 16)

/-- Packets that the trace ring holds (R483). -/
def Debug.ringSize (d : Debug) : Nat := 64 * 2 ^ (min d.bsz.toNat 12)

def Debug.ringBase (d : Debug) : Nat :=
  let size := 16 * d.ringSize
  d.bbase.toNat * 1024 / size * size

/-- TRACE_BUFFER_WRITE: the buffer sink writes one packet, or drops it where the ring cannot take it (R283, R483). -/
def execTraceBufferWrite (s : State) : Host.Outcome State Fault Refusal :=
  let d := s.dbg
  if !d.sink.getLsbD 1 || !s.power.vdbg || !s.mainRuns then .next s
  else match d.fifo.findIdx? fun p => !p.byBuf with
    | none => .next s
    | some i =>
      let size := d.ringSize
      let base := d.ringBase
      let a := base + 16 * (d.bwr.toNat % size)
      let took (s : State) : State := (s.modDbg fun d => { d with fifo := d.fifo.modify i fun p => { p with byBuf := true } })
      let dropped (s : State) : State := s.modDbg fun d => { d with drop := satInc d.drop, dropped := satInc d.dropped }
      if base < 0x02000000 || 0x02780000 < base + 16 * size then
        .next ((dropped (took (s.modDbg fun d => { d with berr := true }))).traceSettle)
      else if d.bmode && decide (size ≤ (d.bwr - d.brd).toNat) then .next s
      else if s.destroyed a then .next ((dropped (took s)).traceSettle)
      else if !s.rowFree a then .next (s.rowAsked a false)
      else
        let s := (s.rowAsked a true).granted 16 a
        let v := ((d.fifo[i]?).map (·.bits)).getD 0
        let s := (List.range 4).foldl (fun s k => s.spadPut (a + 4 * k) (bits v (32 * k) 32) 0xF none) s
        let s := (took s).modDbg fun d => { d with bwr := d.bwr + 1 }
        let s := s.traceSettle.countB 0x5F
        .next (if d.bwr = d.bmark then s.fireLines s.dbg.xtm[(17 : Fin 18)].firel else s)

/-- TRACE_BUDGET_WINDOW: a new window of 1,024 Vesper fast ticks begins (R479). -/
def execTraceBudgetWindow (s : State) : Host.Outcome State Fault Refusal :=
  .next (s.modDbg fun d => { d with trc := d.trc.map fun t => { t with spent := 0 } })

/-! ## Event counters (R484 to R489) -/

def State.modCnt (s : State) (n : Fin 80) (f : Counter → Counter) : State :=
  { s with counters := { s.counters with cnt := s.counters.cnt.set n (f s.counters.cnt[n]) } }

def Counter.ctl (k : Counter) : Word :=
  fld k.evsel 0 ||| flag k.en 7 ||| fld k.ctxm 8 ||| fld k.core 17 ||| flag k.hfrz 22 ||| flag k.trig 23 ||| fld k.tline 24 |||
  flag k.ovf 26

/-- CORE is a field of the block-wide counters only. -/
def Counter.ctlWrite (n : Fin 80) (k : Counter) (v : Word) : Counter :=
  { k with evsel := bits v 0 7, en := v.getLsbD 7, ctxm := bits v 8 9, core := if 64 ≤ n.val then bits v 17 5 else k.core,
           hfrz := v.getLsbD 22, trig := v.getLsbD 23, tline := bits v 24 2, ovf := k.ovf && !v.getLsbD 26 }

def Counter.loWrite (k : Counter) (v : Word) : Counter := { k with cnt := v.setWidth 48 ||| (k.hi.setWidth 48 <<< 32) }

/-- A write of CNT_GCTL. -/
def Counters.gctlWrite (k : Counters) (v : Word) : Counters :=
  { k with run := v.getLsbD 0, cnt := if v.getLsbD 1 then k.cnt.map fun n => { n with cnt := 0 } else k.cnt }

/-- CNT_OVERFLOW: the counter has wrapped. -/
def execCntOverflow (n : Fin 80) (s : State) : Host.Outcome State Fault Refusal :=
  let k := s.counters.cnt[n]
  if k.wrapped then
    let s := s.modCnt n fun k => { k with wrapped := false, ovf := true }
    let s := s.raise ⟨256 + n.val, by omega⟩ 0
    .next (if k.trig then s.fireLines (1#4 <<< k.tline.toNat) else s)
  else .next s

/-! ## Watchdogs (R476 to R478) -/

def Wdt.ctl (w : Wdt) : Word :=
  flag w.en 0 ||| flag w.lock 1 ||| fld w.pre 2 ||| fld w.warn 6 ||| fld w.act 11 ||| flag w.kickErr 13 ||| flag w.bite 14

/-- Setting EN reloads the count. -/
def Wdt.ctlWrite (w : Wdt) (v : Word) : Wdt :=
  let w' : Wdt := { w with en := v.getLsbD 0, lock := w.lock || v.getLsbD 1, pre := bits v 2 4, warn := bits v 6 5, act := bits v 11 2,
                           kickErr := w.kickErr && !v.getLsbD 13, bite := w.bite && !v.getLsbD 14 }
  if w'.en && !w.en then w'.reload else w'

def Wdt.kick (w : Wdt) (v : Word) : Wdt := if v = 0xC35A then w.reload else { w with kickErr := true }

/-- The watchdog counts (R478). -/
def State.wdtRuns (s : State) (c : CoreId) : Bool :=
  let k := s.core[c]
  s.counters.wdt[c].en && s.mainRuns && s.power.state == .run && !k.halted && !k.held && !k.dozed

/-- WATCHDOG_WARNING: the count reaches 2^WARN. -/
def execWatchdogWarning (c : CoreId) (s : State) : Host.Outcome State Fault Refusal :=
  let w := s.counters.wdt[c]
  let at_ := 2 ^ w.warn.toNat
  if s.wdtRuns c && w.warn != 0 && decide (at_ < w.cnt.toNat) then
    .next ((s.modWdt c fun w => { w with cnt := BitVec.ofNat 32 at_ }).raise ⟨336 + c.val, by omega⟩ 0)
  else .next s

/-- WATCHDOG_BITE: the count reaches 0. Where no context has issued since reset, the record's context is free. -/
def execWatchdogBite (c : CoreId) (s : State) : Host.Outcome State Fault Refusal :=
  if s.wdtRuns c then
    let w := s.counters.wdt[c]
    let (x, s) : CtxId × State := match s.core[c].last with
      | some x => (x, s)
      | none => let r := s.free; (⟨r.1.toNat % 9, by omega⟩, r.2)
    let detail : BitVec 96 := w.load.setWidth 96 ||| (w.act.setWidth 96 <<< 32) ||| (w.pre.setWidth 96 <<< 40) |||
      ((s.core[c].statWord x).setWidth 96 <<< 64)
    let s := s.cause 0x02 (ctxByte c x) (s.ctx c x).pc detail
    let s := s.modWdt c fun w => { w with bite := true }.reload
    match w.act.toNat with
    | 0 => .next s
    | 2 => .next s.askResetAll
    | _ => .next (s.askReset c)
  else .next s

end Sys2Proof.Machine
end

