-- ==== Sys2Proof/Machine/Ring.lean ====
section
/-! DEFINITION. The Knadu ring's ports: links, forwarding, delay measurement, own frames, errors, messages and registers (spec 11, R352
to R370, R375, R377, R380, R381, R383; R251 to R254). -/

namespace Sys2Proof.Machine

open Sys2Proof

/-- The other port of the pair (R352). -/
def partner (p : PortId) : PortId := if p.val % 2 = 0 then p + 1 else p - 1

/-- The repeater forwards (R377, R420). -/
def State.forwarding (s : State) : Bool := s.power.pornAon && s.ring.tclk && s.power.restored && s.power.fastClk

/-- BYP_HOLD: the external bypass switches are held open while the repeater forwards, and at no other time (R24, R355, R377). -/
def State.bypHold (s : State) : Bool := s.forwarding

/-- RING_PHYRSTn (R355). -/
def State.phyRstN (s : State) : Bool := s.power.pornAon && s.power.restored && s.ring.tclk

/-- RING_IDENT (R355). -/
def State.identOut (s : State) : Bool := s.ring.ident

/-- RPp_STAT.WRAPPED: frames for `p` leave on its partner (R354). -/
def Ring.wrapped (r : Ring) (p : PortId) : Bool :=
  let q := r.port[partner p]
  !r.port[p].link && q.link && q.wrapEn && 2 ≤ q.gen.toNat && 2 ≤ r.port[p].gen.toNat

/-- The port on which a frame for `p` leaves, if any. -/
def Ring.outFor (r : Ring) (p : PortId) : Option PortId :=
  if r.port[p].link then some p else if r.wrapped p then some (partner p) else none

/-- D, the data limit of a generation (R363). -/
def limitD (gen : BitVec 2) : Nat := match gen.toNat with | 3 => 1024 | 2 => 256 | _ => 64

/-! ## Links (R356, R357, R375, R380) -/

/-- Link changes of ports are raised (R380). -/
def State.linkEvents (s : State) (old : Ring) : State :=
  (List.finRange 4).foldl (fun s p =>
    let r := s.ring
    if r.port[p].link != old.port[p].link || r.wrapped p != old.wrapped p then
      s.raise ⟨224 + p.val, by omega⟩ (flag r.port[p].link 0 ||| fld r.port[p].genUse 1 ||| flag (r.wrapped p) 3)
    else s) s

def OwnFrame.isResp (f : OwnFrame) : Bool := match f with | .resp _ => true | _ => false

/-- The port loses link: VALID clears, and what waits for it is discarded, but responses that can leave wrapped (R251, R375). -/
def State.linkDown (s : State) (p : PortId) : State :=
  if !s.ring.port[p].link then s
  else
    let old := s.ring
    let q := s.ring.port[p].txq
    let s := s.modRp p fun rp => { rp with link := false, genUse := 0, dlyOk := false, exch := 8, best := none, txq := [] }
    let s := if s.ring.wrapped p then
        s.modRp (partner p) fun rp => { rp with txq := rp.txq ++ q.filter OwnFrame.isResp }
      else s
    s.linkEvents old

/-- LINK_UP: the line comes up. At the speed of GEN the port has link, and its 8 delay exchanges begin; the NUM of the first is free
(R251, R363). At the other speed of gen2 and gen3 it has no link, and GENERR is set (R356). -/
def execLinkUp (p : PortId) (speed : BitVec 2) (s : State) : Host.Outcome State Fault Refusal :=
  let rp := s.ring.port[p]
  if !s.power.pornAon || !s.power.restored || !s.ring.tclk || rp.gen == 0 then .next s
  else if 2 ≤ rp.gen.toNat ∧ speed ≠ rp.gen then
    if 2 ≤ speed.toNat then .next ((s.linkDown p).modRp p fun rp => { rp with genErr := true }) else .next s
  else if rp.link then .next s
  else
    let old := s.ring
    let (w, s) := s.free
    let n : BitVec 16 := bits w 0 16
    let asks := (List.range 8).map fun i => OwnFrame.dlyReq (n + BitVec.ofNat 16 i)
    let s := s.modRp p fun rp =>
      { rp with link := true, genUse := rp.gen, dlyOk := false, exch := 0, best := none, dlyNum := n, txq := rp.txq ++ asks }
    .next (s.linkEvents old)

/-- LINK_DOWN. -/
def execLinkDown (p : PortId) (s : State) : Host.Outcome State Fault Refusal := .next (s.linkDown p)

/-- DLY_REQ (R251, R364): answered on the port it came in on, with the same NUM. -/
def execDlyReq (p : PortId) (num : BitVec 16) (turn : Int) (s : State) : Host.Outcome State Fault Refusal :=
  if s.forwarding && s.ring.port[p].link then .next (s.modRp p fun rp => { rp with txq := rp.txq ++ [.dlyRsp num turn] })
  else .next s

/-- DLY_RSP (R251): one exchange's delay; the eighth writes LDLY and sets VALID. -/
def execDlyRsp (p : PortId) (num : BitVec 16) (t32 trip : Int) (s : State) : Host.Outcome State Fault Refusal :=
  let rp := s.ring.port[p]
  if !s.forwarding || !rp.link || 8 ≤ rp.exch || 8 ≤ (num - rp.dlyNum).toNat then .next s
  else
    let d := (trip - t32).fdiv 2
    let best := match rp.best with | some b => if d < b then d else b | none => d
    let last := rp.exch == 7
    .next (s.modRp p fun rp =>
      { rp with exch := rp.exch + 1, best := some best, dlyOk := last,
                ldly := if last then BitVec.ofInt 31 (best + rp.asym.toInt) else rp.ldly })

/-! ## Forwarding (R352 to R354, R367 to R370) -/

/-- A number with its most significant byte first, as header fields are sent (R7, R362). -/
def bytesBE (n : Nat) {w : Nat} (v : BitVec w) : List Byte := (toBytes n v).reverse

/-- Bytes 0 to 12 of the Knadu header (R362). -/
def frameHead (f : Frame) : List Byte :=
  [((if f.rsp then 0x80#8 else 0) ||| f.hdr.node.setWidth 8), f.cmd] ++ bytesBE 2 f.hdr.seq ++ bytesBE 2 f.hdr.index ++
  [f.hdr.sub, f.hdr.flags] ++ bytesBE 2 (BitVec.ofNat 16 f.hdr.len) ++ [f.hdr.src.setWidth 8, f.status, f.credit]

/-- The Knadu header and payload, in the order in which they are sent (R360 to R362). -/
def framePdu (f : Frame) : List Byte := (frameHead f) ++ [f.hdr.hops] ++ bytesBE 2 f.hcrc ++ f.payload

/-- The HCRC of a frame is that of its header (R362). -/
def frameHcrcOk (f : Frame) : Bool := f.hcrc == crc16 (frameHead f)

/-- The frame, with the HCRC of its header. -/
def frameSealed (f : Frame) : Frame := { f with hcrc := crc16 (frameHead f) }

/-- The frame whose header and payload arrived as these bytes on port `p` (R362). -/
def frameOfPdu (p : PortId) (ty : BitVec 16) (fcsOk : Bool) (size : Nat) (l : List Byte) : Option Frame :=
  match l with
  | b0 :: cmd :: s1 :: s0 :: i1 :: i0 :: sub :: flags :: l1 :: l0 :: src :: status :: credit :: hops :: c1 :: c0 :: payload =>
    some { ty := ty, fcsOk := fcsOk, hcrc := c1 ++ c0, rsp := b0.getLsbD 7, cmd := cmd,
           hdr := { port := p, node := bits b0 0 7, seq := s1 ++ s0, index := i1 ++ i0, sub := sub, flags := flags,
                    len := (l1 ++ l0 : BitVec 16).toNat, src := bits src 0 7, hops := hops },
           status := status, credit := credit, payload := payload, size := size }
  | _ => none

/-- What a frame received on port `p` is (R5, R360, R361). A gen1 frame with another FTYPE is nothing: it is discarded, and FRAME_ERROR
counts it. -/
def Ring.kindOf (r : Ring) (p : PortId) (f : Frame) : Option FrameKind :=
  if r.port[p].genUse = 1 then
    let t := f.ty.toNat % 256
    if t = 0x4B then some .knadu else if 1 ≤ t ∧ t ≤ 0x3F then some .ferpor16 else none
  else some (if f.ty = r.etype then .knadu else .ethernet)

/-- Port `p` is the receiving end of a gen1 hop: it begins DLY_REQ and DLY_RSP only, in the owning end's reply slots (R359). -/
def Ring.repliesOnly (r : Ring) (p : PortId) : Bool := r.port[p].genUse == 1 && p.val % 2 == 0

/-- The EtherType, or the FTYPE, of a Knadu frame that leaves on port `o`. -/
def Ring.knaduTy (r : Ring) (o : PortId) : BitVec 16 := if r.port[o].genUse = 1 then 0x4B else r.etype

/-- A frame is handed to the transmitter. -/
def State.forwardOut (s : State) (q : PortId) (f : Frame) : State := s.modRp q fun rp => { rp with fwdOut := some f }

/-- The node takes the address of an ASSIGN: its new number is NEXT (R367). -/
def Ring.takes (r : Ring) (f : Frame) : Bool :=
  let next := f.payload.headD 0xFF
  let mode := f.payload.getD 1 0xFF
  f.fcsOk && frameHcrcOk f && f.hdr.node == 0x7F && !r.assignLk && decide (next.toNat ≤ 63) &&
    (mode == 1 || (mode == 0 && r.node == 0x7F))

/-- A frame received on `p` goes on while `ahead` bytes stand in the forward buffer. Its check sequence is adjusted by what changes, so
one that arrived bad leaves bad (R369). One that would leave on the receiving end of a gen1 hop, which no ring frame may (R359), is
discarded like one that its port cannot carry (DESIGN CHOICE, log 29). -/
def State.forward (s : State) (p : PortId) (k : FrameKind) (f : Frame) (ahead : Nat) : State :=
  let q := partner p
  let knadu := k == .knadu
  let fwDrop : State := s.modRp p fun rp => { rp with fwdrop := satInc rp.fwdrop }
  if knadu && !f.rsp && (f.cmd == 0x11 || f.cmd == 0x12) then s
  else if knadu && f.hdr.hops == 0xFF then s.modRp p fun rp => { rp with hopdrop := satInc rp.hopdrop }
  else match s.ring.outFor q with
    | none => fwDrop
    | some o =>
      let gen := s.ring.port[o].genUse
      if (k == .ethernet && gen == 1) || (k == .ferpor16 && gen != 1) || s.ring.repliesOnly o then fwDrop
      else if knadu && decide (limitD gen + 4 < f.hdr.len) then s.modRp o fun rp => { rp with oversz := satInc rp.oversz }
      else if 16384 < ahead + f.size then fwDrop
      else if knadu then
        s.forwardOut o { f with ty := s.ring.knaduTy o, hdr := { f.hdr with hops := f.hdr.hops + 1 } }
      else s.forwardOut o f

/-- An ASSIGN, as the node takes and forwards it. -/
def State.assign (s : State) (p : PortId) (f : Frame) (ahead : Nat) : State :=
  if s.ring.takes f then
    let next := f.payload.headD 0
    let s := s.modRing fun r => { r with node := bits next 0 7 }
    s.forward p .knadu { f with payload := (next + 1) :: f.payload.drop 1 } ahead
  else s.forward p .knadu f ahead

/-- ASSIGN (R367, R368): the frame arrived good, with nothing ahead of it. -/
def execAssign (h : RingHdr) (data : List Byte) (s : State) : Host.Outcome State Fault Refusal :=
  if s.forwarding && s.ring.port[h.port].link then
    let f : Frame := { ty := s.ring.knaduTy h.port, fcsOk := true, hcrc := 0, rsp := false, cmd := 0x07, hdr := h, status := 0, credit := 0,
                       payload := data, size := 64 }
    .next (s.assign h.port (frameSealed f) 0)
  else .next s

/-- The record as a frame's payload (R252). -/
def syncBytes (r : SyncRec) : List Byte :=
  [1, r.beam] ++ toBytes 2 r.frame ++ toBytes 2 r.line ++ [0, 0] ++ toBytes 4 r.pos16 ++ toBytes 4 r.dotper ++
  toBytes 8 (BitVec.ofInt 64 r.corr) ++ toBytes 2 r.glast ++ toBytes 2 r.slast ++ toBytes 2 r.seq ++ [r.genmin, r.hops]

/-- SYNC (R253, R254): forwarded with its corrections, bad if it came bad, and taken by the followers that accept it. -/
def execSync (p : PortId) (src : BitVec 7) (r : SyncRec) (came : Receipt) (within : Vector (BitVec 6) 4) (s : State) :
    Host.Outcome State Fault Refusal :=
  let rp := s.ring.port[p]
  if !s.forwarding || !rp.link then .next s
  else
    let gen : BitVec 8 := rp.genUse.setWidth 8
    let r' : SyncRec :=
      { r with corr := r.corr + came.resid + (if rp.dlyOk then (rp.ldly.toNat : Int) else 0), hops := r.hops + 1,
               genmin := if !rp.dlyOk then 0 else if gen.toNat < r.genmin.toNat then gen else r.genmin }
    let h : RingHdr := { port := p, node := 0x7F, seq := 0, index := 0, sub := 0, flags := 0, len := 32, src := src, hops := r.hops }
    let f : Frame := { ty := s.ring.knaduTy p, fcsOk := came.good, hcrc := 0, rsp := false, cmd := 0x10, hdr := h, status := 0, credit := 0,
                       payload := syncBytes r', size := 66 }
    let s := s.forward p .knadu (frameSealed f) 0
    if came.good ∧ s.power.state = .run ∧ s.mainRuns then
      .next ((List.finRange 4).foldl (fun s n => s.msSync n p src r within[n]) s)
    else .next s

/-! ## Own frames (R370, R253) -/

def OwnFrame.rank (f : OwnFrame) : Nat :=
  match f with
  | .dlyReq _ => 0 | .dlyRsp .. => 0 | .sync _ => 1 | .resp _ => 2 | .nmsg _ => 3

/-- The own frame that is sent next: lowest rank, then oldest. -/
def RingPort.next (rp : RingPort) : Option OwnFrame :=
  rp.txq.foldl (fun b f => match b with
    | some g => if f.rank < g.rank then some f else some g
    | none => some f) none

/-- The frame that carries an own frame's record, as it leaves on port `p` (R253, R360 to R365, R381). -/
def Ring.ownFrame (r : Ring) (p : PortId) (o : OwnFrame) : Frame :=
  let mk (rsp : Bool) (cmd : Byte) (node : BitVec 7) (seq index : BitVec 16) (sub flags status credit : Byte) (data : List Byte) :
      Frame :=
    frameSealed { ty := r.knaduTy p, fcsOk := true, hcrc := 0, rsp := rsp, cmd := cmd,
                   hdr := { port := p, node := node, seq := seq, index := index, sub := sub, flags := flags, len := data.length,
                            src := r.node, hops := 0 },
                   status := status, credit := credit, payload := data, size := max 64 (34 + data.length) }
  match o with
  | .dlyReq n => mk false 0x11 0x7F 0 0 0 0 0 0 (toBytes 2 n)
  | .dlyRsp n t => mk false 0x12 0x7F 0 0 0 0 0 0 (toBytes 2 n ++ toBytes 8 (BitVec.ofInt 64 t))
  | .sync x => mk false 0x10 0x7F 0 0 0 0 0 0 (syncBytes x)
  | .resp x => mk true x.cmd 0x40 x.seq x.index x.sub x.flags x.status x.credit x.payload
  | .nmsg d => mk false 0x09 0x40 0 0 0 0 0 0 d

/-- OWN_FRAME_SEND: the port and its forward buffer allow. At the receiving end of a gen1 hop only a DLY frame does (R359). A SYNC record carries the master's position at departure, known to the
quad: the dots and sixteenths within it are free. -/
def execOwnFrameSend (p : PortId) (s : State) : Host.Outcome State Fault Refusal :=
  let rp := s.ring.port[p]
  if !s.forwarding || !rp.link then .next s
  else match rp.next with
    | none => .next s
    | some f =>
      if s.ring.repliesOnly p && f.rank != 0 then .next s else
      let s := s.modRp p fun rp => { rp with txq := rp.txq.erase f }
      match f with
      | .sync r =>
        let (w, s) := s.free
        let t : TbId := ⟨r.beam.toNat % 4, by omega⟩
        let b := s.transit.tb[t]
        let r' : SyncRec := { r with frame := b.frame, line := BitVec.ofNat 16 b.slot, pos16 := BitVec.ofNat 32 (b.grain * 16 + w.toNat % 64),
                                     genmin := rp.genUse.setWidth 8 }
        .next (s.modRp p fun rp => { rp with ownOut := some (.sync r') })
      | .nmsg d => .next ((s.modRing fun r => { r with nsent := true }).modRp p fun rp => { rp with ownOut := some (.nmsg d) })
      | f => .next (s.modRp p fun rp => { rp with ownOut := some f })

/-! ## Errors (R380) -/

/-- FRAME_ERROR. A port that GEN disables ignores its inputs (R3, R357), and one without link receives no frame
(DEDUCED, log 63). -/
def execFrameError (p : PortId) (_e : RxError) (s : State) : Host.Outcome State Fault Refusal :=
  if !s.forwarding || s.ring.port[p].gen == 0 || !s.ring.port[p].link then .next s
  else
    let s := (s.modRp p fun rp => { rp with err := satInc rp.err, winErr := rp.winErr + 1 }).countB 0x5E
    let rp := s.ring.port[p]
    if rp.armed && decide (max 1 rp.errth.toNat ≤ rp.winErr) then
      let n : BitVec 16 := BitVec.ofNat 16 rp.winErr
      let s := s.modRp p fun rp => { rp with burst := true, armed := false }
      let s := s.cause 0x06 0xFF 0 ((BitVec.ofNat 96 p.val) ||| (rp.genUse.setWidth 96 <<< 8) ||| (n.setWidth 96 <<< 16))
      .next (s.raise ⟨228 + p.val, by omega⟩ (fld n 0))
    else .next s

/-- ERROR_WINDOW_END: a window with fewer than ERRTH errors lets the port recognise a burst again. -/
def execErrorWindowEnd (p : PortId) (s : State) : Host.Outcome State Fault Refusal :=
  .next (s.modRp p fun rp => { rp with armed := rp.armed || decide (rp.winErr < max 1 rp.errth.toNat), winErr := 0 })

/-! ## RING_TCLK (R377) -/

def execRingTclkLoss (s : State) : Host.Outcome State Fault Refusal := .next (s.modRing fun r => { r with tclk := false })

def execRingTclkPresent (s : State) : Host.Outcome State Fault Refusal := .next (s.modRing fun r => { r with tclk := true })

/-! ## Node messages (R381) -/

def OwnFrame.isNmsg (f : OwnFrame) : Bool := match f with | .nmsg _ => true | _ => false

/-- A write of RING_NMSGCTL. -/
def State.nmsgCtl (s : State) (v : Word) : State :=
  let s := s.modRing fun r => { r with nlen := bits v 0 6, nlost := r.nlost && !v.getLsbD 10 }
  if !v.getLsbD 8 || s.ring.nbusy then s
  else
    let n := s.ring.nlen.toNat
    let both (p q : PortId) : Bool := s.ring.port[p].link && s.ring.port[q].link
    let lost : State := s.modRing fun r => { r with nlost := true }
    if n = 0 ∨ 32 < n then lost
    else if !(both 0 1) && !(both 2 3) then lost
    else
      let hi := !(both 0 1)
      let data := ((List.finRange 8).flatMap fun k => toBytes 4 s.ring.nmsg[k]).take n
      let put (s : State) (p : PortId) : State := s.modRp p fun rp => { rp with txq := rp.txq ++ [.nmsg data] }
      let s := s.modRing fun r => { r with nbusy := true, npair := hi, nsent := false }
      if hi then put (put s 2) 3 else put (put s 0) 1

/-- NMSG_SENT: neither port of the pair holds the message any more. -/
def execNmsgSent (s : State) : Host.Outcome State Fault Refusal :=
  let r := s.ring
  let waits (p : PortId) : Bool := r.port[p].txq.any OwnFrame.isNmsg
  let left := if r.npair then waits 2 || waits 3 else waits 0 || waits 1
  if r.nbusy && !left then .next (s.modRing fun r => { r with nbusy := false, nlost := r.nlost || !r.nsent })
  else .next s

/-! ## Registers (R383) -/

def Ring.ctl (r : Ring) : Word := fld r.node 0 ||| flag r.assignLk 8 ||| flag r.ident 9

def Ring.ctlWrite (r : Ring) (v : Word) : Ring :=
  let n : BitVec 7 := bits v 0 7
  { r with node := if n.toNat ≤ 63 ∨ n = 0x7F then n else r.node, assignLk := v.getLsbD 8, ident := v.getLsbD 9 }

/-- Free command buffers (R371). -/
def Ring.credit (r : Ring) : Nat := 8 - r.cmds.length

def State.ringStat (s : State) : Word :=
  fld (BitVec.ofNat 4 s.ring.credit) 0 ||| flag s.ring.restarted 4 ||| flag s.forwarding 5

def RingPort.ctl (rp : RingPort) : Word := fld rp.gen 0 ||| flag rp.wrapEn 2 ||| fld rp.errth 8

/-- A write of RPp_CTL: a change of GEN drops the link. -/
def State.rpCtlWrite (s : State) (p : PortId) (v : Word) : State :=
  let g : BitVec 2 := bits v 0 2
  let s := if g ≠ s.ring.port[p].gen then s.linkDown p else s
  let old := s.ring
  (s.modRp p fun rp => { rp with gen := g, wrapEn := v.getLsbD 2, errth := bits v 8 8 }).linkEvents old

def Ring.rpStat (r : Ring) (p : PortId) : Word :=
  let rp := r.port[p]
  flag rp.link 0 ||| fld rp.genUse 1 ||| flag (r.wrapped p) 3 ||| flag rp.burst 4 ||| flag rp.genErr 5

def RingPort.statWrite (rp : RingPort) (v : Word) : RingPort :=
  { rp with burst := rp.burst && !v.getLsbD 4, genErr := rp.genErr && !v.getLsbD 5 }

def Ring.hmsgSt (r : Ring) : Word := fld r.hlen 0 ||| flag r.hfull 6

def Ring.nmsgSt (r : Ring) : Word := fld r.nlen 0 ||| flag r.nbusy 9 ||| flag r.nlost 10

end Sys2Proof.Machine
end

