-- ==== Sys2Proof/Machine/Mctl.lean ====
section
/-! DEFINITION. Memory as debug reaches it through a halted core (spec 15, R473, R474). -/

namespace Sys2Proof.Machine

open Sys2Proof

/-! ## The pinned window (R301, R302) -/

def pinSlot (off : Nat) : Fin 32 := ⟨off / 32 % 32, by omega⟩

def Core.pinOn (k : Core) (off : Nat) : Bool := k.lcPin.getLsbD (off / 32)

/-- A copy into the slot is running. -/
def Core.pinCopying (k : Core) (off : Nat) : Bool :=
  match k.pinld with
  | some p => p.slot == pinSlot off
  | none => false

/-- The enabled bytes of the word at `off` are written. -/
def Core.pinPut (k : Core) (off : Nat) (d : Word) (be : BitVec 4) : Core :=
  let i := pinSlot off
  { k with pinData := k.pinData.set i (patchLine k.pinData[i] (BitVec.ofNat 32 off) d be) }

/-! ## Fetch buffers and branch targets of every core (R146, R474) -/

/-- A write of `n` bytes at address `a`, as core `c` names it, reaches every core. -/
def State.fetchInvalAll (s : State) (c : CoreId) (a : Word) (n : Nat) : State :=
  match target (some c) a with
  | .pinned _ => s.fetchInval c a n none
  | _ => (List.finRange 16).foldl (fun s d => s.fetchInval d (plainOf c a) n none) s

/-! ## One access (R473) -/

/-- DBG_MCTL.PRIV as it acts. -/
def State.mctlPriv (s : State) : BitVec 2 :=
  let p := s.dbg.mPriv
  if p = 2 ∨ (p = 3 ∧ s.sealed) then 1 else p

/-- A store's data in word position. -/
def placed (a d : Word) : Word := d <<< (8 * (a.toNat % 4))

/-- `n` bytes of a word from address `a`, zero-extended. -/
def picked (a d : Word) (n : Nat) : Word := (d >>> (8 * (a.toNat % 4))) &&& ((1#32 <<< (8 * n)) - 1)

/-- The fault code of an access that R84 refuses. -/
def State.mctlRefused (s : State) (c : CoreId) (a : Word) (n : Nat) (store : Bool) : Option Byte :=
  let p := s.mctlPriv
  if a.toNat % n ≠ 0 then some fcAlign
  else match target (some c) a with
    | .unmapped => some fcUnmapped
    | .ctl => some fcUnmapped
    | .spad w _ _ => if isSecure w ∧ !isSecPriv p then some fcPriv else if s.destroyed w then some fcUnmapped else none
    | .pinned off => if s.core[c].pinOn off then none else some fcUnmapped
    | .flash => if store then some fcRdonly else none
    | .fabric _ => none

/-- A load through the line cache of the core, which it looks up and misses in like any other access, or a read on the fabric path; none
where all four miss registers are busy (R291, R293). -/
def State.mctlLine (s : State) (c : CoreId) (a : Word) (n : Nat) : Option State :=
  let asked (s : State) : State := s.modDbg fun g => { g with mBusy := true }
  match target (some c) a with
  | .fabric false => some ((asked s).fabAsk { core := c, kind := .debug, addr := s.fabAddr (lineBase (lineOf a)) })
  | _ =>
    match s.lineAccess c none (lineOf a) (wordIn a) with
    | (.line d, s) => some (s.modDbg fun g => g.mDone (some (lineWord d (a.toNat % 32) n)))
    | (.wait .missReg, _) => none
    | (.wait _, s) => some (asked s)
    | (.err code, s) => some (s.modDbg fun g => g.mFail code)

/-- The access goes through the memory port of core `c`: port A for its own banks, else the crossbar as that core's master (R266, R473). -/
def State.mctlGrant (s : State) (c : CoreId) (w : Nat) : State := if portA c w then s else s.granted (coreMaster c) w

/-- A load; none where it cannot be made yet. -/
def State.mctlLoad (s : State) (c : CoreId) (a : Word) (n : Nat) : Option State :=
  match target (some c) a with
  | .spad w _ _ =>
    let w := w / 4 * 4
    if !s.wordFree w then none
    else some (match (s.mctlGrant c w).spadRead w with
      | (some v, s) => s.modDbg fun g => g.mDone (some (picked a v n))
      | (none, s) => s.modDbg fun g => g.mFail fcEcc)
  | .pinned off =>
    if s.core[c].pinCopying off then none
    else some (s.modDbg fun g => g.mDone (some (lineWord s.core[c].pinData[pinSlot off] (a.toNat % 32) n)))
  | .fabric _ =>
    match s.core[c].forward (s.fabAddr a) n with
    | .data w => some (s.modDbg fun g => g.mDone (some w))
    | .wait => none
    | .none => s.mctlLine c a n
  | _ => s.mctlLine c a n

/-- A store; none where it cannot be made yet. One to the fabric ranges completes with its response. -/
def State.mctlStore (s : State) (c : CoreId) (a d : Word) (n : Nat) : Option State :=
  let be := byteMask a n
  match target (some c) a with
  | .spad w via _ =>
    let w := w / 4 * 4
    if !s.wordFree w then none
    else some ((((s.mctlGrant c w).spadStore w via (placed a d) be none).fetchInvalAll c a n).modDbg fun g => g.mDone none)
  | .pinned off =>
    if s.core[c].pinCopying off then none
    else some (((s.modCore c fun k => k.pinPut off (placed a d) be).fetchInvalAll c a n).modDbg fun g => g.mDone none)
  | _ =>
    match s.sbStore c fCtx a (placed a d) be with
    | none => none
    | some s =>
      let last (k : Core) : Core := { k with sb := k.sb.dropLast ++ (k.sb.getLast?.toList.map fun e => { e with debug := true }) }
      some (((s.modCore c last).fetchInvalAll c a n).modDbg fun g => { g with mBusy := true })

/-- GO (R473): one access through core CORE; none where it cannot be made yet, or while another access is under way. -/
def State.mctlTry (s : State) : Option State :=
  let g := s.dbg
  let c := g.mCore
  let n := g.mBytes
  if g.mBusy then none
  else match s.mctlRefused c g.maddr n g.mWrite with
    | some code => some ((s.noteSecure c g.maddr code).modDbg fun g => g.mFail code)
    | none => if g.mWrite then s.mctlStore c g.maddr g.mdata n else s.mctlLoad c g.maddr n

/-- GO by a register write: the core must be halted. An access that cannot be made leaves everything as it is. -/
def State.mctlGo (s : State) : State := if s.core[s.dbg.mCore].halted then s.mctlTry.getD s else s

/-- DBG_MCTL as it reads, and a write of its fields. -/
def Debug.mctlWord (g : Debug) : Word :=
  fld (BitVec.ofNat 4 g.mCore.val) 0 ||| fld g.mSize 4 ||| fld g.mPriv 6 ||| flag g.mWrite 8 ||| flag g.mAinc 9

def Debug.mctlFields (g : Debug) (v : Word) : Debug :=
  { g with mCore := (bits v 0 4).toFin, mSize := bits v 4 2, mPriv := bits v 6 2, mWrite := v.getLsbD 8, mAinc := v.getLsbD 9 }

/-- A write of DBG_MCTL. -/
def State.mctlWrite (s : State) (v : Word) : State :=
  if s.dbg.mBusy then s
  else
    let s := s.modDbg fun g => g.mctlFields v
    if v.getLsbD 10 then s.mctlGo else s

end Sys2Proof.Machine
end

