-- ==== Sys2Proof/Machine/Regs.lean ====
section
/-! DEFINITION. The registers of the block control region by name, where each lies, and its access class (spec 02 to 16, "Registers";
R63, R155, R189, R232, R261, R289, R324, R351, R383, R392, R438, R458, R488, R489, R508). -/

namespace Sys2Proof.Machine

open Sys2Proof

/-- The registers. -/
inductive Reg where
  -- per core: threads, pipeline, control store, line cache, events
  | sysBase (c : CoreId)
  | secBase (c : CoreId)
  | thrCtl (c : CoreId) (x : CtxId)
  | thrStat (c : CoreId) (x : CtxId)
  | thrPc (c : CoreId) (x : CtxId)
  | thrFaddr (c : CoreId) (x : CtxId)
  | thrProg (c : CoreId) (x : CtxId)
  | spillp (c : CoreId) (x : CtxId)
  | spillsz (c : CoreId) (x : CtxId)
  | spillDoff (c : CoreId) (x : CtxId)
  | spillRoff (c : CoreId) (x : CtxId)
  | f16Base (c : CoreId) (x : CtxId)
  | winsel (c : CoreId)
  | windat (c : CoreId)
  | pipeCtl (c : CoreId)
  | pipeStat (c : CoreId)
  | cntStolen (c : CoreId)
  | ucCstat (c : CoreId)
  | ucCcnt (c : CoreId)
  | ucPatch (c : CoreId) (n : Fin 64)
  | lcCtl (c : CoreId)
  | lcStat (c : CoreId)
  | lcPin (c : CoreId)
  | lcPinld (c : CoreId)
  | lcFaddr (c : CoreId)
  | evcCtl (c : CoreId)
  | evcStat (c : CoreId)
  | evqBase (c : CoreId)
  | evqVec (c : CoreId)
  | evqWr (c : CoreId)
  | evqRd (c : CoreId)
  | evcWake (c : CoreId)
  | evcFpend (c : CoreId)
  | evcDrop (c : CoreId)
  | evcSpur (c : CoreId)
  | fvecBase (c : CoreId)
  -- load unit
  | ucLdctl
  | ucLdstat
  | ucAddr
  | ucData (k : Fin 5)
  | ucCmd
  -- transit engine
  | trnCtl
  | trnStat
  | trnCmd
  | trnArg
  | trnDat (k : Fin 4)
  | trnWidle
  | trnEcnt
  | trnStale
  | tbCfg (t : TbId)
  | tbPos (t : TbId)
  | tbFrame (t : TbId)
  | tbMstat (t : TbId)
  /-- TBn_DROP, TBn_NOW, TBn_HOLD, TBn_LOST, TBn_LATEIN, TBn_OVF, TBn_SLATE -/
  | tbCount (t : TbId) (k : Fin 7)
  -- beam ports 0 to 3, sound ports 4 to 7, Meridian sync
  | portCtl (p : Fin 8)
  | portStat (p : Fin 8)
  | portPoserr (p : Fin 8)
  | portJumps (p : Fin 8)
  | msCtl (n : Fin 4)
  | msSrc (n : Fin 4)
  | msDotper (n : Fin 4)
  | msStat (n : Fin 4)
  | msErr (n : Fin 4)
  | msRate (n : Fin 4)
  | msDrop (n : Fin 4)
  | msDly (p : PortId)
  | msAsym (p : PortId)
  -- scratchpad and march engine
  | spadStat
  | spadEcnt
  | spadEaddr
  | spadSecerr
  | spadColl (c : CoreId)
  | spadConf (m : Fin 20)
  | marchCtl
  | marchStat
  | marchSel (i : Fin 3)
  | marchFail (i : Fin 3)
  | marchFaddr
  | marchFcnt
  -- flash port and fabric window
  | flCtl
  | flStat
  | flErraddr
  | fabWin
  -- events and timers
  | evSrc (n : SrcId)
  | evCnt (n : SrcId)
  | evHold (g : Fin 32)
  | evStatG (g : Fin 32)
  | evSwset
  | evStat
  | timCtl (n : Fin 32)
  | timLoad (n : Fin 32)
  | timCnt (n : Fin 32)
  -- ring
  | ringCtl
  | ringStat
  | ringSeq
  | ringEtype
  | ringErrwin
  | rpCtl (p : PortId)
  | rpStat (p : PortId)
  /-- RPp_ERR, RPp_FWDROP, RPp_OVERSZ, RPp_HOPDROP -/
  | rpCount (p : PortId) (k : Fin 4)
  | hmsg (k : Fin 8)
  | hmsgSt
  | nmsg (k : Fin 8)
  | nmsgCtl
  -- power and clocks
  | pwrCtl
  | pwrStat
  | pwrDoze
  | pwrCrst
  | clkPlla
  | clkCdiv (hi : Bool)
  | clkSdiv
  | vtLo
  | vtHi
  | vtAlmLo
  | vtAlmHi
  | pwrBocnt
  | pwrDisc
  -- pins
  | gpMux (j : Fin 8)
  | gpOe (hi : Bool)
  | gpOut (hi : Bool)
  | gpIn (hi : Bool)
  | gpStat
  | gpCap (n : Fin 4)
  | gpSlh (hi : Bool)
  | gpSleep (j : Fin 8)
  | gpFilt (k : Fin 64)
  | gpOwn (c : CoreId) (hi : Bool)
  -- debug and trace
  | dbgLvl
  | dbgChal (hi : Bool)
  | dbgUnreq
  | dbgResp (hi : Bool)
  | dbgLock
  | xtmFire
  | dbgRel
  | dbgHstat
  | xtm (m : Fin 18)
  | dbgCore (c : CoreId)
  | dbgCstat (c : CoreId)
  | dbgMctl
  | dbgMaddr
  | dbgMdata
  | dbgMstat
  | dbgVaddr
  | dbgVdata
  | trcCtl
  | trcStat
  | trcBbase
  | trcBwr
  | trcBrd
  | trcBmark
  | trcDrop
  | trcEn (c : CoreId)
  -- counters and watchdogs
  | cntCtl (n : Fin 80)
  | cntLo (n : Fin 80)
  | cntHi (n : Fin 80)
  | cntGctl
  | wdtCtl (c : CoreId)
  | wdtLoad (c : CoreId)
  | wdtCnt (c : CoreId)
  | wdtKick (c : CoreId)
  -- Nightlog, life cycle, tamper
  | nlCtl
  | nlStat
  | nlSeq
  | nlLost
  | nlRsel
  | nlRd (k : Fin 8)
  | nlSwdata (k : Fin 3)
  | nlSwreq
  | lcyStat
  | lcyReq
  | tmpCtl
  | tmpStat
  | tmpForce
  | tmpCnt
  deriving DecidableEq, Repr

/-! ## Where the registers lie -/

/-- Word `o` (offset over 4) of the block of core `c`. -/
def coreReg (c : CoreId) (o : Nat) : Option Reg :=
  if 0x40 ≤ o ∧ o < 0xD0 then
    let x : CtxId := ⟨(o - 0x40) / 16 % 9, by omega⟩
    match o % 16 with
    | 0 => some (.thrCtl c x)
    | 1 => some (.thrStat c x)
    | 2 => some (.thrPc c x)
    | 3 => some (.thrFaddr c x)
    | 4 => some (.thrProg c x)
    | 5 => some (.spillp c x)
    | 6 => some (.spillsz c x)
    | 7 => some (.spillDoff c x)
    | 8 => some (.spillRoff c x)
    | 9 => if x.val < 8 then some (.f16Base c x) else none
    | _ => none
  else if 0x100 ≤ o ∧ o < 0x140 then some (.ucPatch c ⟨o % 64, by omega⟩)
  else match o with
    | 0x4 => some (.sysBase c)
    | 0x5 => some (.secBase c)
    | 0x8 => some (.pipeCtl c)
    | 0x9 => some (.pipeStat c)
    | 0xA => some (.cntStolen c)
    | 0xC => some (.ucCstat c)
    | 0xD => some (.ucCcnt c)
    | 0x10 => some (.lcCtl c)
    | 0x11 => some (.lcStat c)
    | 0x12 => some (.lcPin c)
    | 0x13 => some (.lcPinld c)
    | 0x14 => some (.lcFaddr c)
    | 0xE0 => some (.winsel c)
    | 0xE1 => some (.windat c)
    | 0x180 => some (.evcCtl c)
    | 0x181 => some (.evcStat c)
    | 0x182 => some (.evqBase c)
    | 0x183 => some (.evqVec c)
    | 0x184 => some (.evqWr c)
    | 0x185 => some (.evqRd c)
    | 0x186 => some (.evcWake c)
    | 0x187 => some (.evcFpend c)
    | 0x188 => some (.evcDrop c)
    | 0x189 => some (.evcSpur c)
    | 0x18A => some (.fvecBase c)
    | _ => none

def loadReg (o : Nat) : Option Reg :=
  match o with
  | 0 => some .ucLdctl
  | 1 => some .ucLdstat
  | 2 => some .ucAddr
  | 4 => some (.ucData 0)
  | 5 => some (.ucData 1)
  | 6 => some (.ucData 2)
  | 7 => some (.ucData 3)
  | 8 => some (.ucData 4)
  | 9 => some .ucCmd
  | _ => none

def transitReg (o : Nat) : Option Reg :=
  if 0x40 ≤ o ∧ o < 0xC0 then
    let t : TbId := ⟨(o - 0x40) / 16 % 8, by omega⟩
    let k := o % 16
    match k with
    | 0 => some (.tbCfg t)
    | 1 => some (.tbPos t)
    | 2 => some (.tbFrame t)
    | 3 => some (.tbMstat t)
    | _ => if k < 11 then some (.tbCount t ⟨(k - 4) % 7, by omega⟩) else none
  else match o with
    | 0 => some .trnCtl
    | 1 => some .trnStat
    | 2 => some .trnCmd
    | 3 => some .trnArg
    | 4 => some (.trnDat 0)
    | 5 => some (.trnDat 1)
    | 6 => some (.trnDat 2)
    | 7 => some (.trnDat 3)
    | 8 => some .trnWidle
    | 9 => some .trnEcnt
    | 10 => some .trnStale
    | _ => none

def portReg (o : Nat) : Option Reg :=
  if o < 0x20 then
    let p : Fin 8 := ⟨o / 4 % 8, by omega⟩
    match o % 4 with
    | 0 => some (.portCtl p)
    | 1 => some (.portStat p)
    | 2 => some (.portPoserr p)
    | _ => some (.portJumps p)
  else if 0x40 ≤ o ∧ o < 0x60 then
    let n : Fin 4 := ⟨(o - 0x40) / 8 % 4, by omega⟩
    match o % 8 with
    | 0 => some (.msCtl n)
    | 1 => some (.msSrc n)
    | 2 => some (.msDotper n)
    | 3 => some (.msStat n)
    | 4 => some (.msErr n)
    | 5 => some (.msRate n)
    | 6 => some (.msDrop n)
    | _ => none
  else if 0x80 ≤ o ∧ o < 0x90 then
    let p : PortId := ⟨o / 4 % 4, by omega⟩
    match o % 4 with
    | 0 => some (.msDly p)
    | 1 => some (.msAsym p)
    | _ => none
  else none

def spadReg (o : Nat) : Option Reg :=
  if 0x10 ≤ o ∧ o < 0x20 then some (.spadColl ⟨o % 16, by omega⟩)
  else if 0x20 ≤ o ∧ o < 0x34 then some (.spadConf ⟨(o - 0x20) % 20, by omega⟩)
  else match o with
    | 0 => some .spadStat
    | 1 => some .spadEcnt
    | 2 => some .spadEaddr
    | 3 => some .spadSecerr
    | 0x40 => some .marchCtl
    | 0x41 => some .marchStat
    | 0x42 => some (.marchSel 0)
    | 0x43 => some (.marchSel 1)
    | 0x44 => some (.marchSel 2)
    | 0x45 => some (.marchFail 0)
    | 0x46 => some (.marchFail 1)
    | 0x47 => some (.marchFail 2)
    | 0x48 => some .marchFaddr
    | 0x49 => some .marchFcnt
    | _ => none

def flashReg (o : Nat) : Option Reg :=
  match o with
  | 0 => some .flCtl
  | 1 => some .flStat
  | 2 => some .flErraddr
  | 3 => some .fabWin
  | _ => none

def eventReg (o : Nat) : Option Reg :=
  if o < 0x200 then some (.evSrc ⟨o % 512, by omega⟩)
  else if o < 0x400 then some (.evCnt ⟨o % 512, by omega⟩)
  else if o < 0x420 then some (.evHold ⟨o % 32, by omega⟩)
  else if o < 0x440 then some (.evStatG ⟨o % 32, by omega⟩)
  else if o = 0x440 then some .evSwset
  else if o = 0x441 then some .evStat
  else if 0x480 ≤ o ∧ o < 0x500 then
    let n : Fin 32 := ⟨(o - 0x480) / 4 % 32, by omega⟩
    match o % 4 with
    | 0 => some (.timCtl n)
    | 1 => some (.timLoad n)
    | 2 => some (.timCnt n)
    | _ => none
  else none

def ringReg (o : Nat) : Option Reg :=
  if 0x10 ≤ o ∧ o < 0x30 then
    let p : PortId := ⟨(o - 0x10) / 8 % 4, by omega⟩
    match o % 8 with
    | 0 => some (.rpCtl p)
    | 1 => some (.rpStat p)
    | 2 => some (.rpCount p 0)
    | 3 => some (.rpCount p 1)
    | 4 => some (.rpCount p 2)
    | 5 => some (.rpCount p 3)
    | _ => none
  else if 0x40 ≤ o ∧ o < 0x48 then some (.hmsg ⟨o % 8, by omega⟩)
  else if 0x50 ≤ o ∧ o < 0x58 then some (.nmsg ⟨o % 8, by omega⟩)
  else match o with
    | 0 => some .ringCtl
    | 1 => some .ringStat
    | 2 => some .ringSeq
    | 3 => some .ringEtype
    | 4 => some .ringErrwin
    | 0x48 => some .hmsgSt
    | 0x58 => some .nmsgCtl
    | _ => none

def powerReg (o : Nat) : Option Reg :=
  match o with
  | 0 => some .pwrCtl
  | 1 => some .pwrStat
  | 2 => some .pwrDoze
  | 3 => some .pwrCrst
  | 4 => some .clkPlla
  | 5 => some (.clkCdiv false)
  | 6 => some (.clkCdiv true)
  | 7 => some .clkSdiv
  | 8 => some .vtLo
  | 9 => some .vtHi
  | 10 => some .vtAlmLo
  | 11 => some .vtAlmHi
  | 12 => some .pwrBocnt
  | 13 => some .pwrDisc
  | _ => none

def gpioReg (o : Nat) : Option Reg :=
  if o < 8 then some (.gpMux ⟨o % 8, by omega⟩)
  else if 0x20 ≤ o ∧ o < 0x28 then some (.gpSleep ⟨o % 8, by omega⟩)
  else if 0x40 ≤ o ∧ o < 0x80 then some (.gpFilt ⟨o % 64, by omega⟩)
  else if 0x80 ≤ o ∧ o < 0xA0 then some (.gpOwn ⟨(o - 0x80) / 2 % 16, by omega⟩ (o % 2 == 1))
  else match o with
    | 8 => some (.gpOe false)
    | 9 => some (.gpOe true)
    | 10 => some (.gpOut false)
    | 11 => some (.gpOut true)
    | 12 => some (.gpIn false)
    | 13 => some (.gpIn true)
    | 14 => some .gpStat
    | 16 => some (.gpCap 0)
    | 17 => some (.gpCap 1)
    | 18 => some (.gpCap 2)
    | 19 => some (.gpCap 3)
    | 20 => some (.gpSlh false)
    | 21 => some (.gpSlh true)
    | _ => none

def debugReg (o : Nat) : Option Reg :=
  if 0x10 ≤ o ∧ o < 0x22 then some (.xtm ⟨(o - 0x10) % 18, by omega⟩)
  else if 0x40 ≤ o ∧ o < 0x60 then
    let c : CoreId := ⟨(o - 0x40) / 2 % 16, by omega⟩
    some (if o % 2 = 0 then .dbgCore c else .dbgCstat c)
  else if 0xD0 ≤ o ∧ o < 0xE0 then some (.trcEn ⟨o % 16, by omega⟩)
  else match o with
    | 0 => some .dbgLvl
    | 1 => some (.dbgChal false)
    | 2 => some (.dbgChal true)
    | 3 => some .dbgUnreq
    | 4 => some (.dbgResp false)
    | 5 => some (.dbgResp true)
    | 6 => some .dbgLock
    | 8 => some .xtmFire
    | 9 => some .dbgRel
    | 10 => some .dbgHstat
    | 0x80 => some .dbgMctl
    | 0x81 => some .dbgMaddr
    | 0x82 => some .dbgMdata
    | 0x83 => some .dbgMstat
    | 0x84 => some .dbgVaddr
    | 0x85 => some .dbgVdata
    | 0xC0 => some .trcCtl
    | 0xC1 => some .trcStat
    | 0xC2 => some .trcBbase
    | 0xC3 => some .trcBwr
    | 0xC4 => some .trcBrd
    | 0xC5 => some .trcBmark
    | 0xC6 => some .trcDrop
    | _ => none

def counterReg (o : Nat) : Option Reg :=
  if o < 0x140 then
    let n : Fin 80 := ⟨o / 4 % 80, by omega⟩
    match o % 4 with
    | 0 => some (.cntCtl n)
    | 1 => some (.cntLo n)
    | 2 => some (.cntHi n)
    | _ => none
  else if o = 0x140 then some .cntGctl
  else if 0x180 ≤ o ∧ o < 0x1C0 then
    let c : CoreId := ⟨(o - 0x180) / 4 % 16, by omega⟩
    match o % 4 with
    | 0 => some (.wdtCtl c)
    | 1 => some (.wdtLoad c)
    | 2 => some (.wdtCnt c)
    | _ => some (.wdtKick c)
  else none

def nightReg (o : Nat) : Option Reg :=
  if 8 ≤ o ∧ o < 16 then some (.nlRd ⟨o % 8, by omega⟩)
  else match o with
    | 0 => some .nlCtl
    | 1 => some .nlStat
    | 2 => some .nlSeq
    | 3 => some .nlLost
    | 4 => some .nlRsel
    | 0x10 => some (.nlSwdata 0)
    | 0x11 => some (.nlSwdata 1)
    | 0x12 => some (.nlSwdata 2)
    | 0x13 => some .nlSwreq
    | 0x20 => some .lcyStat
    | 0x21 => some .lcyReq
    | 0x30 => some .tmpCtl
    | 0x31 => some .tmpStat
    | 0x32 => some .tmpForce
    | 0x33 => some .tmpCnt
    | _ => none

/-- Blocks of registers. -/
inductive Block where
  | core (c : CoreId)
  | load | transit | ports | spad | flash | events | ring | power | gpio | debug | counters | night
  deriving DecidableEq, Repr

/-- The register at word `o` of a block. -/
def Block.reg (b : Block) (o : Nat) : Option Reg :=
  match b with
  | .core c => coreReg c o
  | .load => loadReg o
  | .transit => transitReg o
  | .ports => portReg o
  | .spad => spadReg o
  | .flash => flashReg o
  | .events => eventReg o
  | .ring => ringReg o
  | .power => powerReg o
  | .gpio => gpioReg o
  | .debug => debugReg o
  | .counters => counterReg o
  | .night => nightReg o

/-- The block at 64 KiB page `p` of the block control region, counted from 0x3000_0000; page 0 holds the cores' blocks. -/
def blockAt (p : Nat) : Option Block :=
  match p with
  | 1 => some .load
  | 2 => some .transit
  | 3 => some .ports
  | 4 => some .spad
  | 5 => some .flash
  | 6 => some .events
  | 7 => some .ring
  | 8 => some .power
  | 9 => some .gpio
  | 10 => some .debug
  | 11 => some .counters
  | 12 => some .night
  | _ => none

/-- The register that holds address `a`; none at an unassigned offset (R15). -/
def regAt (a : Word) : Option Reg :=
  let o := a.toNat - 0x30000000
  if a.toNat < 0x30000000 ∨ 0x3F000000 ≤ a.toNat then none
  else if o < 0x10000 then coreReg ⟨o / 0x1000 % 16, by omega⟩ (o % 0x1000 / 4)
  else match blockAt (o / 0x10000) with
    | some b => b.reg (o % 0x10000 / 4)
    | none => none

/-! ## Access classes of mirrors (R392) -/

inductive Acc where
  | ro | wo | rwh | rw
  deriving DecidableEq, Repr

def Reg.acc (r : Reg) : Acc :=
  match r with
  | .thrPc .. | .spillp .. | .spillsz .. | .spillDoff .. | .spillRoff .. | .f16Base .. => .rwh
  | .trnCmd | .evSwset | .dbgUnreq | .dbgResp _ | .dbgLock | .xtmFire | .dbgRel | .wdtKick _ | .nlSwreq | .lcyReq | .tmpForce
  | .lcPinld _ | .ucCmd => .wo
  | .thrFaddr .. | .thrProg .. | .pipeStat _ | .cntStolen _ | .ucCcnt _ | .ucPatch .. | .lcFaddr _ | .evqWr _ | .evcFpend _
  | .evcDrop _ | .evcSpur _ | .trnDat _ | .trnWidle | .trnEcnt | .trnStale | .tbPos _ | .tbMstat _ | .tbCount .. | .portPoserr _
  | .portJumps _ | .msErr _ | .msRate _ | .msDrop _ | .msDly _ | .spadEcnt | .spadEaddr | .spadSecerr | .spadColl _ | .spadConf _
  | .marchFaddr | .marchFcnt | .flErraddr | .evCnt _ | .evStatG _ | .timCnt _ | .ringStat | .ringSeq | .rpCount .. | .hmsg _
  | .pwrBocnt | .pwrDisc | .gpIn _ | .gpCap _ | .gpSlh _ | .dbgChal _ | .dbgHstat | .trcBwr | .trcDrop | .wdtCnt _ | .nlSeq
  | .nlLost | .nlRd _ | .tmpCnt => .ro
  | _ => .rw

/-- The context whose state an RWH entry looks at. -/
def Reg.thread (r : Reg) : Option (CoreId × CtxId) :=
  match r with
  | .thrPc c x | .spillp c x | .spillsz c x | .spillDoff c x | .spillRoff c x | .f16Base c x => some (c, x)
  | _ => none

/-- The block a register belongs to. -/
def Reg.block (r : Reg) : Block :=
  match r with
  | .sysBase c | .secBase c | .thrCtl c _ | .thrStat c _ | .thrPc c _ | .thrFaddr c _ | .thrProg c _ | .spillp c _
  | .spillsz c _ | .spillDoff c _ | .spillRoff c _ | .f16Base c _ | .winsel c | .windat c | .pipeCtl c | .pipeStat c
  | .cntStolen c | .ucCstat c | .ucCcnt c | .ucPatch c _ | .lcCtl c | .lcStat c | .lcPin c | .lcPinld c | .lcFaddr c
  | .evcCtl c | .evcStat c | .evqBase c | .evqVec c | .evqWr c | .evqRd c | .evcWake c | .evcFpend c | .evcDrop c
  | .evcSpur c | .fvecBase c => .core c
  | .ucLdctl | .ucLdstat | .ucAddr | .ucData _ | .ucCmd => .load
  | .trnCtl | .trnStat | .trnCmd | .trnArg | .trnDat _ | .trnWidle | .trnEcnt | .trnStale | .tbCfg _ | .tbPos _ | .tbFrame _
  | .tbMstat _ | .tbCount .. => .transit
  | .portCtl _ | .portStat _ | .portPoserr _ | .portJumps _ | .msCtl _ | .msSrc _ | .msDotper _ | .msStat _ | .msErr _
  | .msRate _ | .msDrop _ | .msDly _ | .msAsym _ => .ports
  | .spadStat | .spadEcnt | .spadEaddr | .spadSecerr | .spadColl _ | .spadConf _ | .marchCtl | .marchStat | .marchSel _
  | .marchFail _ | .marchFaddr | .marchFcnt => .spad
  | .flCtl | .flStat | .flErraddr | .fabWin => .flash
  | .evSrc _ | .evCnt _ | .evHold _ | .evStatG _ | .evSwset | .evStat | .timCtl _ | .timLoad _ | .timCnt _ => .events
  | .ringCtl | .ringStat | .ringSeq | .ringEtype | .ringErrwin | .rpCtl _ | .rpStat _ | .rpCount .. | .hmsg _ | .hmsgSt
  | .nmsg _ | .nmsgCtl => .ring
  | .pwrCtl | .pwrStat | .pwrDoze | .pwrCrst | .clkPlla | .clkCdiv _ | .clkSdiv | .vtLo | .vtHi | .vtAlmLo | .vtAlmHi
  | .pwrBocnt | .pwrDisc => .power
  | .gpMux _ | .gpOe _ | .gpOut _ | .gpIn _ | .gpStat | .gpCap _ | .gpSlh _ | .gpSleep _ | .gpFilt _ | .gpOwn .. => .gpio
  | .dbgLvl | .dbgChal _ | .dbgUnreq | .dbgResp _ | .dbgLock | .xtmFire | .dbgRel | .dbgHstat | .xtm _ | .dbgCore _
  | .dbgCstat _ | .dbgMctl | .dbgMaddr | .dbgMdata | .dbgMstat | .dbgVaddr | .dbgVdata | .trcCtl | .trcStat | .trcBbase
  | .trcBwr | .trcBrd | .trcBmark | .trcDrop | .trcEn _ => .debug
  | .cntCtl _ | .cntLo _ | .cntHi _ | .cntGctl | .wdtCtl _ | .wdtLoad _ | .wdtCnt _ | .wdtKick _ => .counters
  | .nlCtl | .nlStat | .nlSeq | .nlLost | .nlRsel | .nlRd _ | .nlSwdata _ | .nlSwreq | .lcyStat | .lcyReq | .tmpCtl | .tmpStat
  | .tmpForce | .tmpCnt => .night

end Sys2Proof.Machine
end

