-- ==== Sys2Proof/Machine/RegOps.lean ====
section
/-! DEFINITION. Reading and writing a register: what each access does, who may make it, and the debug view (R12, R13, R34, R63 to R69,
R155, R187, R261, R289, R324, R351, R383, R438, R450, R458, R460, R466, R475, R488, R489, R508). -/

namespace Sys2Proof.Machine

open Sys2Proof

/-! ## Bank entries (R66 to R68, R398, R509) -/

/-- Whether an entry exists in a bank. -/
def bankHas (x : CtxId) (area : BitVec 2) (e : Nat) : Bool :=
  let f := x == fCtx
  match area.toNat with
  | 0 => decide (e < if f then 16 else 64)
  | 1 => decide (e < if f then 8 else 16)
  | 2 => decide (e < 17)
  | _ => if f then e < 2 || e == 8 else decide (e < 10)

def tagWord (depth : BitVec 4) (live dirty : Bool) : Word := fld depth 0 ||| flag live 4 ||| flag dirty 5

/-- An entry of a bank, as WINDAT reads it. -/
def Ctx.bankRead (t : Ctx) (x : CtxId) (area : BitVec 2) (e : Nat) : Word :=
  if !bankHas x area e then 0
  else match area.toNat with
  | 0 => t.entry (⟨e % 64, by omega⟩ : Fin 64)
  | 1 => t.rstk[(⟨e % 16, by omega⟩ : Fin 16)]
  | 2 =>
    if e = 0 then fld t.shownSlot.upc 0 ||| fld t.shownSlot.ucnt 12 ||| flag t.shownSlot.valid 16
    else t.shownSlot.u[(⟨(e - 1) % 16, by omega⟩ : Fin 16)]
  | _ =>
    if e < 8 then
      let g := t.wtag[(⟨e % 8, by omega⟩ : Fin 8)]
      tagWord g.depth g.live g.dirty
    else
      let g := t.rtag[(⟨e % 2, by omega⟩ : Fin 2)]
      tagWord g.count g.live g.dirty

/-- The same context with an entry written. A slot that is written holds no routine the model knows by name. -/
def Ctx.bankWrite (t : Ctx) (x : CtxId) (area : BitVec 2) (e : Nat) (v : Word) : Ctx :=
  if !bankHas x area e then t
  else match area.toNat with
  | 0 =>
    let w : Fin 8 := ⟨e / 8 % 8, by omega⟩
    { t with dstk := t.dstk.set (⟨e % 64, by omega⟩ : Fin 64) v, wtag := t.wtag.set w { t.wtag[w] with dirty := true } }
  | 1 =>
    let g : Fin 2 := ⟨e / 8 % 2, by omega⟩
    { t with rstk := t.rstk.set (⟨e % 16, by omega⟩ : Fin 16) v, rtag := t.rtag.set g { t.rtag[g] with dirty := true } }
  | 2 =>
    let s : SaveSlot :=
      if e = 0 then { t.shownSlot with upc := bits v 0 12, ucnt := bits v 12 4, valid := v.getLsbD 16 }
      else { t.shownSlot with u := t.shownSlot.u.set (⟨(e - 1) % 16, by omega⟩ : Fin 16) v }
    { t with slot := s, routine := none, held := none, moved := none, seen := 0 }
  | _ =>
    if e < 8 then
      { t with wtag := t.wtag.set (⟨e % 8, by omega⟩ : Fin 8) { depth := bits v 0 4, live := v.getLsbD 4, dirty := v.getLsbD 5 } }
    else
      { t with rtag := t.rtag.set (⟨e % 2, by omega⟩ : Fin 2) { count := bits v 0 4, live := v.getLsbD 4, dirty := v.getLsbD 5 } }

/-- Entries of an area, over which AINC wraps. -/
def areaSize (area : BitVec 2) : Nat := match area.toNat with | 0 => 64 | 1 => 16 | 2 => 17 | _ => 10

def WinSel.advance (w : WinSel) : WinSel :=
  if w.ainc then { w with entry := BitVec.ofNat 6 ((w.entry.toNat + 1) % areaSize w.area) } else w

def WinSel.word (w : WinSel) : Word :=
  fld w.entry 0 ||| fld w.area 8 ||| fld w.bank 12 ||| flag w.ainc 16 ||| flag w.denied 30

def WinSel.write (w : WinSel) (v : Word) : WinSel :=
  { entry := bits v 0 6, area := bits v 8 2, bank := bits v 12 4, ainc := v.getLsbD 16, denied := w.denied && !v.getLsbD 30 }

/-- The bank that WINSEL of context `x` selects; none for 0x9 to 0xF. -/
def WinSel.ctx (w : WinSel) : Option CtxId := if h : w.bank.toNat < 9 then some ⟨w.bank.toNat, h⟩ else none

/-- A WINDAT access by context `x` of core `c` is carried out (R68). -/
def State.winOk (s : State) (c : CoreId) (x : CtxId) : Bool :=
  match (s.ctx c x).winsel.ctx with
  | none => true
  | some y => (y == x || (s.ctx c y).isStopped) && !((s.ctx c y).priv == 3 && (s.ctx c x).priv != 3)

/-- One WINDAT access: a write of `v`, or a read (R66 to R69). -/
def State.windat (s : State) (c : CoreId) (x : CtxId) (v : Option Word) : Word × State :=
  let w := (s.ctx c x).winsel
  let step (s : State) : State := s.modCtx c x fun t => { t with winsel := t.winsel.advance }
  if !s.winOk c x then (0, s.modCtx c x fun t => { t with winsel := { t.winsel with denied := true } })
  else match w.ctx with
    | none => (0, step s)
    | some y =>
      match v with
      | some v => (0, step (s.modCtx c y fun t => t.bankWrite y w.area w.entry.toNat v))
      | none => ((s.ctx c y).bankRead y w.area w.entry.toNat, step s)

/-! ## Rights (R34, R63, R155, R393, R445, R460) -/

/-- How a register access is answered: it is made, it is ignored, or it is refused (a context faults with PRIV, the fabric slave gets an
error response, the dictionary aborts). -/
inductive Right where
  | ok | ignored | refused
  deriving DecidableEq, Repr

/-- The rights of a context: its core, if any, and its privilege. -/
structure Who where
  core : Option CoreId
  priv : BitVec 2
  deriving DecidableEq, Repr

/-- The context whose rights an agent has: the fabric slave is a privileged context of no core, the ring agent and debug have those of a
secure-privileged one (R393, R445, R475). -/
def State.who (s : State) (w : Agent) : Who :=
  match w with
  | .ctx c x => ⟨some c, (s.ctx c x).priv⟩
  | .fabric => ⟨none, 1⟩
  | .ring => ⟨none, 3⟩
  | .debug => ⟨none, 3⟩

def isThreadReg (r : Reg) : Bool :=
  match r with
  | .thrCtl .. | .thrStat .. | .thrPc .. | .thrFaddr .. | .thrProg .. | .spillp .. | .spillsz .. | .spillDoff .. | .spillRoff ..
  | .f16Base .. => true
  | _ => false

def Reg.threadOf (r : Reg) : Option (CoreId × CtxId) :=
  match r with
  | .thrCtl c x | .thrStat c x | .thrPc c x | .thrFaddr c x | .thrProg c x | .spillp c x | .spillsz c x | .spillDoff c x
  | .spillRoff c x | .f16Base c x => some (c, x)
  | _ => none

/-- Whether `u` may write register `r`. `free_`: the agent is the ring agent or debug, whom the per-core write rules admit. -/
def State.rightOf (s : State) (u : Who) (free_ : Bool) (r : Reg) : Right :=
  let need (n : Nat) : Right := if n ≤ u.priv.toNat then .ok else .refused
  let own (c : CoreId) : Right :=
    if u.priv = 0 then .refused else if free_ || u.core == some c then .ok else .ignored
  match r with
  | .evqRd c => if u.core = some c then .ok else own c
  | .sysBase _ => need 1
  | .secBase _ => need 3
  | .winsel _ => need 1
  | .windat _ => need 1
  | .ucCstat _ => need 1
  | .ucCcnt _ => need 1
  | .ucPatch .. => need 1
  | .hmsgSt => need 1
  | .nmsg _ => need 1
  | .nmsgCtl => need 1
  | .trcCtl | .trcStat | .trcBbase | .trcBwr | .trcBrd | .trcBmark | .trcDrop | .trcEn _ => need 3
  | .cntCtl n | .cntLo n | .cntHi n =>
    if u.priv = 3 then .ok else if u.priv = 0 then .refused
    else if n.val < 64 ∧ (u.core.map (·.val)) = some (n.val / 4) then .ok else .ignored
  | .wdtCtl c | .wdtLoad c =>
    if u.priv = 3 then .ok else if u.priv = 0 then .refused
    else if u.core = some c ∧ !s.counters.wdt[c].lock then .ok else .ignored
  | .wdtKick c =>
    if u.priv = 3 then .ok else if u.priv = 0 then .refused else if u.core = some c then .ok else .ignored
  | .nlCtl | .tmpCtl | .tmpForce => if u.priv = 3 then .ok else if u.priv = 0 then .refused else .ignored
  | r =>
    match r.threadOf with
    | some (c, x) => if (s.ctx c x).priv = 3 then need 3 else need 1
    | none =>
      match r.block with
      | .core c => own c
      | .load => need 3
      | .spad => need 3
      | .flash => need 3
      | .ring => need 3
      | .power => need 3
      | .debug => if u.priv = 3 then (if free_ then .ok else .ignored) else .refused
      | .counters => if u.priv = 3 then .ok else if u.priv = 0 then .refused else .ignored
      | .transit | .ports | .events | .gpio | .night => need 1

/-- Debug registers that every level may write, and those that NON-INVASIVE may (R460). -/
def dbgNeeds (r : Reg) : Nat :=
  match r with
  | .dbgUnreq | .dbgResp _ | .dbgLock => 0
  | .trcCtl | .trcStat | .trcBbase | .trcBwr | .trcBrd | .trcBmark | .trcDrop | .trcEn _ | .dbgVaddr => 1
  | _ => 2

/-- A debug-domain register, which needs VDBG (R463). -/
def Reg.inVdbg (r : Reg) : Bool :=
  match r with
  | .dbgLvl | .dbgChal _ | .dbgUnreq | .dbgResp _ | .dbgLock => false
  | r => r.block == .debug

/-- Whether the agent may write the register now. -/
def State.mayWrite (s : State) (w : Agent) (r : Reg) : Right :=
  match w with
  | .ctx .. => s.rightOf (s.who w) false r
  | .fabric => match s.rightOf (s.who w) false r with | .ok => .ok | _ => .refused
  | .debug => if dbgNeeds r ≤ s.dbg.level.toNat then s.rightOf (s.who w) true r else .refused
  | .ring => if r.block = .debug ∧ s.dbg.level.toNat < dbgNeeds r then .refused else s.rightOf (s.who w) true r

/-- Whether a context or the fabric slave may read the register (R34, R189, R261, R351). Others are admitted by the dictionary. -/
def State.mayRead (s : State) (w : Agent) (r : Reg) : Bool :=
  let u := s.who w
  match r with
  | .evqWr c => u.core == some c || 1 ≤ u.priv.toNat
  | r =>
    match r.block with
    | .core _ => 1 ≤ u.priv.toNat
    | .load => u.priv == 3
    | .transit => 1 ≤ u.priv.toNat
    | .ports => 1 ≤ u.priv.toNat
    | _ => true

/-! ## Reading -/

/-- The latch of CNTn_LO that a reader has (R484); the fabric slave has none. -/
def latchOf (w : Agent) : Option (Fin 18) :=
  match w with
  | .ctx c _ => some (c.castLE (by omega))
  | .ring => some 16
  | .debug => some 17
  | .fabric => none

def State.setLatch (s : State) (i : Fin 18) (v : BitVec 16) : State :=
  { s with counters := { s.counters with latch := s.counters.latch.set i v } }

/-- A read of EVQ_WR by a context delivers (R340). -/
def State.readEvqWr (s : State) (w : Agent) (c : CoreId) : Word × State :=
  let v := fld s.core[c].evqWr 0
  match w with
  | .ctx .. => (v, s.deliver c)
  | _ => (v, s)

/-- The bytes of slot NL_RSEL, or NL_SEL: a slot whose write is in progress reads as it will be (R497). -/
def Night.readSlot (n : Night) (k : Nat) : Line :=
  match n.cur with
  | some (.record j _ d) => if j = k then d else n.slot k
  | some (.clear j) => if j = k then 0 else n.slot k
  | _ => n.slot k

def State.spadStat (s : State) : Word :=
  flag s.spad.initDone 0 ||| flag s.spad.wiping 1 ||| flag s.power.wipePend 2 ||| flag s.spad.uncorr 3 ||| flag s.spad.secErr 4

/-- A register half of a 64-bit vector. -/
def halfOf (hi : Bool) (v : BitVec 64) : Word := if hi then bits v 32 32 else bits v 0 32

def Tb.counter (b : Tb) (k : Fin 7) : Word :=
  match k.val with
  | 0 => b.drop | 1 => b.now | 2 => b.hold | 3 => b.lost | 4 => b.latein | 5 => b.ovf | _ => b.slate

def Tb.clearCounter (b : Tb) (k : Fin 7) : Tb :=
  match k.val with
  | 0 => { b with drop := 0 } | 1 => { b with now := 0 } | 2 => { b with hold := 0 } | 3 => { b with lost := 0 }
  | 4 => { b with latein := 0 } | 5 => { b with ovf := 0 } | _ => { b with slate := 0 }

def RingPort.counter (p : RingPort) (k : Fin 4) : Word :=
  match k.val with
  | 0 => p.err | 1 => p.fwdrop | 2 => p.oversz | _ => p.hopdrop

def RingPort.clearCounter (p : RingPort) (k : Fin 4) : RingPort :=
  match k.val with
  | 0 => { p with err := 0 } | 1 => { p with fwdrop := 0 } | 2 => { p with oversz := 0 } | _ => { p with hopdrop := 0 }

/-- A register as it reads, without side effect. -/
def State.regWord (s : State) (w : Agent) (r : Reg) : Word :=
  match r with
  | .sysBase c => s.core[c].sysBase
  | .secBase c => s.core[c].secBase
  | .thrCtl c x => (s.ctx c x).ctlWord x
  | .thrStat c x => s.core[c].statWord x
  | .thrPc c x => (s.ctx c x).pc
  | .thrFaddr c x => (s.ctx c x).faddr
  | .thrProg c x => (s.ctx c x).progWord
  | .spillp c x => if x = fCtx then 0 else (s.ctx c x).spillp
  | .spillsz c x => if x = fCtx then 0 else fld (s.ctx c x).spillsz 0
  | .spillDoff c x => if x = fCtx then 0 else fld (s.ctx c x).doff 0
  | .spillRoff c x => if x = fCtx then 0 else fld (s.ctx c x).roff 0
  | .f16Base c x => fld (s.ctx c x).f16win 16
  | .winsel c => match w with | .ctx d x => if c = d then (s.ctx c x).winsel.word else 0 | _ => 0
  | .windat c => match w with | .ctx d x => if c = d then (s.windat c x none).1 else 0 | _ => 0
  | .pipeCtl c => s.core[c].pipeCtl
  | .pipeStat c => s.core[c].pipeStat
  | .cntStolen c => s.core[c].stolen
  | .ucCstat c => s.core[c].cstat
  | .ucCcnt c => fld s.core[c].ccnt 0
  | .ucPatch c n => s.core[c].patch[n]
  | .lcCtl c => s.core[c].lcCtl
  | .lcStat c => s.core[c].lcStat
  | .lcPin c => s.core[c].lcPin
  | .lcPinld _ => 0
  | .lcFaddr c => lineBase s.core[c].lcFaddr
  | .evcCtl c => s.core[c].evcCtl
  | .evcStat c => s.core[c].evcStat
  | .evqBase c => fld s.core[c].qsize 0 ||| fld s.core[c].evqOffs 4
  | .evqVec c => s.core[c].evqVec
  | .evqWr c => fld s.core[c].evqWr 0
  | .evqRd c => fld s.core[c].evqRd 0
  | .evcWake c => fld s.core[c].evWake 0
  | .evcFpend c => s.fpend c
  | .evcDrop c => s.core[c].dropCnt
  | .evcSpur c => s.core[c].spurCnt
  | .fvecBase c => s.core[c].fvecBase
  | .ucLdctl => s.load.ctl
  | .ucLdstat => s.ldstat
  | .ucAddr => s.load.addrWord
  | .ucData k => s.load.data[k]
  | .ucCmd => 0
  | .trnCtl => s.transit.ctl
  | .trnStat => s.transit.stat
  | .trnCmd => 0
  | .trnArg => fld s.transit.arg 0
  | .trnDat k => s.transit.dat[k]
  | .trnWidle => s.transit.widle
  | .trnEcnt => fld s.transit.ecnt 0
  | .trnStale => s.transit.stale
  | .tbCfg t => s.transit.tb[t].cfg t
  | .tbPos t => s.beamValue t
  | .tbFrame t => s.transit.tb[t].frameReg
  | .tbMstat t => s.transit.tb[t].mstat
  | .tbCount t k => s.transit.tb[t].counter k
  | .portCtl p => s.ports.port[p].ctl
  | .portStat p => s.ports.port[p].stat
  | .portPoserr p => s.ports.port[p].poserr
  | .portJumps p => s.ports.port[p].jumps
  | .msCtl n => s.ports.ms[n].ctl
  | .msSrc n => s.ports.ms[n].src
  | .msDotper n => s.ports.ms[n].dotper
  | .msStat n => s.ports.ms[n].stat
  | .msErr n => s.ports.ms[n].err
  | .msRate n => s.ports.ms[n].rateWord
  | .msDrop n => s.ports.ms[n].drop
  | .msDly p => fld s.ring.port[p].ldly 0 ||| flag s.ring.port[p].dlyOk 31
  | .msAsym p => fld s.ring.port[p].asym 0
  | .spadStat => s.spadStat
  | .spadEcnt => fld s.spad.ecnt 0
  | .spadEaddr => s.spad.eaddr
  | .spadSecerr => fld s.spad.serrOffs 0 ||| fld s.spad.serrMaster 23
  | .spadColl c => s.spad.coll[c]
  | .spadConf m => s.spad.conf[m]
  | .marchCtl => s.march.ctlWord
  | .marchStat => s.march.stat
  | .marchSel i => s.march.sel[i]
  | .marchFail i => s.march.failed[i]
  | .marchFaddr => s.march.faddr
  | .marchFcnt => fld s.march.fails 0 ||| fld s.march.skip 16
  | .flCtl => s.flash.ctl
  | .flStat => s.flash.stat
  | .flErraddr => fld s.flash.errAddr 2
  | .fabWin => fld s.fabric.win 27
  | .evSrc n => (s.src n.val).word n.val
  | .evCnt n => (s.src n.val).cnt n.val
  | .evHold g => fld s.ev.hold[g] 0
  | .evStatG g => s.evStat g
  | .evSwset => 0
  | .evStat => flag s.ev.routeErr 0
  | .timCtl n => s.ev.timer[n].ctl
  | .timLoad n => s.ev.timer[n].load
  | .timCnt n => s.ev.timer[n].cnt
  | .ringCtl => s.ring.ctl
  | .ringStat => s.ringStat
  | .ringSeq => fld s.ring.expSeq 0 ||| fld s.ring.bexpSeq 16
  | .ringEtype => fld s.ring.etype 0
  | .ringErrwin => fld s.ring.errwin 0
  | .rpCtl p => s.ring.port[p].ctl
  | .rpStat p => s.ring.rpStat p
  | .rpCount p k => s.ring.port[p].counter k
  | .hmsg k => s.ring.hmsg[k]
  | .hmsgSt => s.ring.hmsgSt
  | .nmsg k => s.ring.nmsg[k]
  | .nmsgCtl => s.ring.nmsgSt
  | .pwrCtl => s.power.ctl
  | .pwrStat => s.pwrStat
  | .pwrDoze => s.power.dozeWord
  | .pwrCrst => fld s.power.crst 0
  | .clkPlla => fld s.power.amul 0
  | .clkCdiv hi => s.power.cdivWord hi
  | .clkSdiv => fld s.power.sdiv 0
  | .vtLo => bits s.power.vt 0 32
  | .vtHi => fld (if w = .debug then s.power.vtLatchDbg else s.power.vtLatch) 0
  | .vtAlmLo => s.power.almLo
  | .vtAlmHi => s.power.almHiWord
  | .pwrBocnt => s.power.bocnt
  | .pwrDisc => s.power.disc
  | .gpMux j => muxWord s.gpio.mux j
  | .gpOe hi => halfOf hi s.gpio.oe
  | .gpOut hi => halfOf hi s.gpio.out
  | .gpIn hi => halfOf hi s.gpio.fin
  | .gpStat => s.gpio.stat
  | .gpCap n => s.gpio.cap[n]
  | .gpSlh hi => halfOf hi s.gpio.slh
  | .gpSleep j => muxWord s.gpio.slp j
  | .gpFilt k => fld s.gpio.fcnt[k] 0 ||| fld s.gpio.fmode[k] 8
  | .gpOwn c hi => halfOf hi s.gpio.own[c]
  | .dbgLvl => s.dbgLvl
  | .dbgChal hi => halfOf hi s.dbg.chal
  | .dbgUnreq => 0
  | .dbgResp _ => 0
  | .dbgLock => 0
  | .xtmFire => 0
  | .dbgRel => 0
  | .dbgHstat => s.hstat
  | .xtm m => s.xtmWord m
  | .dbgCore c => s.core[c].dbgCore
  | .dbgCstat c => s.core[c].dbgCstat
  | .dbgMctl => s.dbg.mctlWord
  | .dbgMaddr => s.dbg.maddr
  | .dbgMdata => s.dbg.mdata
  | .dbgMstat => flag s.dbg.mErr 0 ||| fld s.dbg.mFcode 1
  | .dbgVaddr => s.dbg.vaddr
  | .dbgVdata => s.dbg.vdata
  | .trcCtl => s.dbg.trcCtl
  | .trcStat => s.trcStat
  | .trcBbase => fld s.dbg.bbase 10
  | .trcBwr => fld s.dbg.bwr 0
  | .trcBrd => fld s.dbg.brd 0
  | .trcBmark => fld s.dbg.bmark 0
  | .trcDrop => s.dbg.drop
  | .trcEn c => s.dbg.trc[c].word
  | .cntCtl n => s.counters.cnt[n].ctl
  | .cntLo n => bits s.counters.cnt[n].cnt 0 32
  | .cntHi _ => match latchOf w with | some i => fld s.counters.latch[i] 0 | none => Config.freeWord s.freeCtr &&& 0xFFFF
  | .cntGctl => flag s.counters.run 0
  | .wdtCtl c => s.counters.wdt[c].ctl
  | .wdtLoad c => s.counters.wdt[c].load
  | .wdtCnt c => s.counters.wdt[c].cnt
  | .wdtKick _ => 0
  | .nlCtl => flag s.night.stop 0
  | .nlStat => s.night.stat
  | .nlSeq => s.night.seq
  | .nlLost => fld s.night.lostCnt 0
  | .nlRsel => fld s.night.rsel 0
  | .nlRd k =>
    if (s.who w).priv = 0 then 0 else lineWord (s.night.readSlot s.night.rsel.toNat) (4 * k.val) 4
  | .nlSwdata k => s.night.swdata[k]
  | .nlSwreq => 0
  | .lcyStat => s.night.lcStat
  | .lcyReq => 0
  | .tmpCtl => s.night.tmpCtl
  | .tmpStat => flag s.night.pin 0 ||| flag s.night.event 1 ||| flag s.power.wipePend 2
  | .tmpForce => 0
  | .tmpCnt => s.night.tcnt

/-- What an ordinary read does beside returning the word: RC fields clear (R12). -/
def State.regClear (s : State) (r : Reg) : State :=
  match r with
  | .cntStolen c => s.modCore c fun k => { k with stolen := 0 }
  | .ucCcnt c => s.modCore c fun k => { k with ccnt := 0 }
  | .evcDrop c => s.modCore c fun k => { k with dropCnt := 0 }
  | .evcSpur c => s.modCore c fun k => { k with spurCnt := 0 }
  | .trnWidle => s.modTransit fun x => { x with widle := 0 }
  | .trnEcnt => s.modTransit fun x => { x with ecnt := 0 }
  | .trnStale => s.modTransit fun x => { x with stale := 0 }
  | .tbCount t k => s.modTb t fun b => b.clearCounter k
  | .portPoserr p => s.modPort p fun q => { q with poserr := 0 }
  | .portJumps p => s.modPort p fun q => { q with jumps := 0 }
  | .msDrop n => s.modMs n fun m => { m with drop := 0 }
  | .spadEcnt => { s with spad := { s.spad with ecnt := 0 } }
  | .spadColl c => { s with spad := { s.spad with coll := s.spad.coll.set c 0 } }
  | .spadConf m => { s with spad := { s.spad with conf := s.spad.conf.set m 0 } }
  | .marchFcnt => s.modMarch fun m => { m with fails := 0, skip := 0 }
  | .evCnt n => s.setSrc n.val { s.src n.val with ovf := 0 }
  | .rpCount p k => s.modRp p fun q => q.clearCounter k
  | .pwrBocnt => s.modPower fun p => { p with bocnt := 0 }
  | .pwrDisc => s.modPower fun p => { p with disc := 0 }
  | .trcDrop => s.modDbg fun d => { d with drop := 0 }
  | .nlLost => s.modNight fun n => { n with lostCnt := 0 }
  | .tmpCnt => s.modNight fun n => { n with tcnt := 0 }
  | _ => s

/-- A read of a register by an agent, with its side effects (R12, R13, R340, R393, R423, R466, R484). -/
def State.regRead (s : State) (w : Agent) (r : Reg) : Word × State :=
  let v := s.regWord w r
  match r with
  | .vtLo => let r := s.power.vtLoRead (w == .debug); (r.1, s.modPower fun _ => r.2)
  | .cntLo n =>
    match latchOf w with
    | some i => (v, s.setLatch i (bits s.counters.cnt[n].cnt 32 16))
    | none => (v, s)
  | .cntHi _ => match latchOf w with | some _ => (v, s) | none => (v, { s with freeCtr := s.freeCtr + 1 })
  | .evqWr c => s.readEvqWr w c
  | .windat c => match w with | .ctx d x => if c = d then s.windat c x none else (0, s) | _ => (0, s)
  | _ => if w = .debug then (v, s) else (v, s.regClear r)

/-! ## Writing -/

/-- A field write of a stopped context only (R64, R191). -/
def State.thrField (s : State) (c : CoreId) (x : CtxId) (thread : Bool) (f : Ctx → Ctx) : State :=
  if (s.ctx c x).isStopped && !(thread && x == fCtx) then s.modCtx c x f else s

/-- A write of BPn, TRC or W1C fields of the scratchpad's status registers. -/
def Spad.statWrite (m : Spad) (v : Word) : Spad :=
  { m with uncorr := m.uncorr && !v.getLsbD 3, secErr := m.secErr && !v.getLsbD 4 }

/-- A write of MARCH_STAT (R288, R289): FAIL cleared lets MARCH_FADDR take the next failure. -/
def March.statWrite (m : March) (v : Word) : March :=
  { m with done := m.done && !v.getLsbD 1, fail := m.fail && !v.getLsbD 2, refused := m.refused && !v.getLsbD 3,
           faddrSet := m.faddrSet && !v.getLsbD 2 }

/-- A write of a W1C field of the transit engine's status. -/
def Transit.statWrite (x : Transit) (v : Word) : Transit :=
  { x with cmdErr := x.cmdErr && !v.getLsbD 21, ephErr := x.ephErr && !v.getLsbD 23 }

/-- The core of a context that writes. -/
def agentCore (w : Agent) : Option CoreId := match w with | .ctx c _ => some c | _ => none

/-- A write of TMP_FORCE. -/
def State.tmpForceWrite (s : State) (v : Word) : State := if v.getLsbD 0 then s.tamper false true else s

/-- A write of NL_CTL. -/
def State.nlCtlWrite (s : State) (v : Word) : State :=
  let s := s.modNight fun n => { n with stop := v.getLsbD 0 }
  if v.getLsbD 1 then s.nlClear else s

/-- A write of TRC_EN, TRC_BBASE and the other plain trace fields leaves the FIFO as it is. -/
def State.regWrite1 (s : State) (w : Agent) (r : Reg) (v : Word) : State :=
  match r with
  | .sysBase c => s.modCore c fun k => { k with sysBase := v &&& 0xFFFFFFF0 }
  | .secBase c => s.modCore c fun k => { k with secBase := v &&& 0xFFFFFFF0 }
  | .thrCtl c x => s.thrCtl c x v (s.who w).priv
  | .thrStat c x => s.modCtx c x fun t => t.statWrite v
  | .thrPc c x => s.thrField c x false fun t => { t with pc := v }
  | .spillp c x => s.thrField c x true fun t => t.spillWrite false v
  | .spillsz c x => s.thrField c x true fun t => t.spillWrite true v
  | .spillDoff c x => s.thrField c x true fun t => { t with doff := bits v 0 20 }
  | .spillRoff c x => s.thrField c x true fun t => { t with roff := bits v 0 20 }
  | .f16Base c x => if (s.ctx c x).st = .idle then s.modCtx c x fun t => { t with f16win := bits v 16 2 } else s
  | .winsel c => match w with | .ctx d x => if c = d then s.modCtx c x fun t => { t with winsel := t.winsel.write v } else s | _ => s
  | .windat c => match w with | .ctx d x => if c = d then (s.windat c x (some v)).2 else s | _ => s
  | .pipeCtl c => s.modCore c fun k => k.pipeCtlWrite v
  | .ucCstat c => s.modCore c fun k => { k with cUncorr := k.cUncorr && !v.getLsbD 12 }
  | .lcCtl c => s.modCore c fun k => k.lcCtlWrite v
  | .lcStat c => s.modCore c fun k => k.lcStatWrite v
  | .lcPin c => s.modCore c fun k => k.pinWrite v
  | .lcPinld c => s.pinLoad c v
  | .evcCtl c => s.modCore c fun k => k.evcCtlWrite v
  | .evcStat c => s.modCore c fun k => k.evcStatWrite v
  | .evqBase c => s.evqBaseWrite c v
  | .evqVec c => s.modCore c fun k => { k with evqVec := v }
  | .evqRd c => s.evqRdWrite c v
  | .evcWake c => s.modCore c fun k => { k with evWake := bits v 0 8 }
  | .fvecBase c => s.modCore c fun k => k.fvecBaseWrite v
  | .ucLdctl => s.ldctlWrite (w == .ring) (agentCore w) v
  | .ucLdstat => s.modLoad fun l => l.statWrite v
  | .ucAddr => if s.load.shut (w == .ring) then s else s.modLoad fun l => l.addrWrite v
  | .ucData k =>
    if s.load.shut (w == .ring) then s
    else s.modLoad fun l => { l with data := l.data.set k (if k = 4 then v &&& 0xFFFF else v) }
  | .ucCmd => s.ucCmd (w == .ring) v
  | .trnCtl => (s.modTransit fun x => { x with rsvent := bits v 0 9, ringEn := v.getLsbD 16 }).ephLevel
  | .trnStat => s.modTransit fun x => x.statWrite v
  | .trnCmd => s.trnCmd (bits v 0 4)
  | .trnArg => s.modTransit fun x => { x with arg := bits v 0 18 }
  | .tbCfg t => s.tbCfgWrite t v
  | .tbFrame t => s.modTb t fun b => { b with geomErr := b.geomErr && !v.getLsbD 16, alias_ := b.alias_ && !v.getLsbD 17 }
  | .portCtl p => s.portCtl p v
  | .portStat p => s.modPort p fun q =>
      { q with jump := q.jump && !v.getLsbD 3, parErr := q.parErr && !v.getLsbD 4, shortp := q.shortp && !v.getLsbD 5 }
  | .msCtl n => s.modMs n fun m => m.ctlWrite v
  | .msSrc n => s.modMs n fun m => m.srcWrite v
  | .msDotper n => s.modMs n fun m => { m with dotper := v }
  | .msStat n => s.modMs n fun m =>
      { m with geom := m.geom && !v.getLsbD 3, fadopted := m.fadopted && !v.getLsbD 4, restarted := m.restarted && !v.getLsbD 5,
               dotErr := m.dotErr && !v.getLsbD 14 }
  | .msAsym p => s.modRp p fun q => { q with asym := bits v 0 24 }
  | .spadStat => { s with spad := s.spad.statWrite v }
  | .marchCtl => s.marchCtl v
  | .marchStat => s.modMarch fun m => m.statWrite v
  | .marchSel i => s.modMarch fun m => { m with sel := m.sel.set i v }
  | .marchFail i => s.modMarch fun m => { m with failed := m.failed.set i (m.failed[i] &&& ~~~v) }
  | .flCtl => s.flCtl v
  | .flStat => s.modFlash fun f => f.statWrite v
  | .fabWin => s.fabWinWrite v
  | .evSrc n => s.evSrcWrite n v
  | .evHold g => s.modEv fun e => { e with hold := e.hold.set g (bits v 0 16) }
  | .evSwset => s.swset w v
  | .evStat => s.modEv fun e => { e with routeErr := e.routeErr && !v.getLsbD 0 }
  | .timCtl n => s.modEv fun e => { e with timer := e.timer.set n (e.timer[n].ctlWrite v) }
  | .timLoad n => s.modEv fun e => { e with timer := e.timer.set n { e.timer[n] with load := v } }
  | .ringCtl => s.modRing fun q => q.ctlWrite v
  | .ringEtype => s.modRing fun q => { q with etype := bits v 0 16 }
  | .ringErrwin => s.modRing fun q => { q with errwin := bits v 0 16 }
  | .rpCtl p => s.rpCtlWrite p v
  | .rpStat p => s.modRp p fun q => q.statWrite v
  | .hmsgSt => s.modRing fun q => { q with hfull := q.hfull && !v.getLsbD 6 }
  | .nmsg k => s.modRing fun q => { q with nmsg := q.nmsg.set k v }
  | .nmsgCtl => s.nmsgCtl v
  | _ => s

/-- The registers of the power, pin, debug, counter and Nightlog blocks. -/
def State.regWrite2 (s : State) (w : Agent) (r : Reg) (v : Word) : State :=
  match r with
  | .pwrCtl => s.modPower fun p => p.ctlWrite v
  | .pwrStat => s.modPower fun p => { p with clkErr := p.clkErr && !v.getLsbD 11 }
  | .pwrDoze => s.dozeWrite v
  | .pwrCrst => s.crstWrite v
  | .clkPlla => s.pllaWrite v
  | .clkCdiv hi => s.modPower fun p => p.cdivWrite hi v
  | .clkSdiv => s.modPower fun p => p.sdivWrite v
  | .vtLo => s.modPower fun p => p.vtLoWrite v
  | .vtHi => s.modPower fun p => { p with vtHold := bits v 0 16 }
  | .vtAlmLo => s.modPower fun p => { p with almLo := v }
  | .vtAlmHi => s.modPower fun p => { p with almHi := bits v 0 16, almEn := v.getLsbD 31 }
  | .gpMux j => s.gpMuxWrite w j v
  | .gpOe hi => s.gpOutWrite w true hi v
  | .gpOut hi => s.gpOutWrite w false hi v
  | .gpStat => s.gpStatWrite v
  | .gpSleep j => s.gpSleepWrite w j v
  | .gpFilt k => s.gpFiltWrite w k v
  | .gpOwn c hi => s.gpOwnWrite w c hi v
  | .dbgLvl => s.modDbg fun d => { d with failed := d.failed && !v.getLsbD 10 }
  | .dbgUnreq => s.unreqWrite v
  | .dbgResp hi => s.modDbg fun d => if hi then d.respHiWrite v else d.respLoWrite v
  | .dbgLock => if v.getLsbD 0 then s.dbgDefault else s
  | .xtmFire => s.fireLines (bits v 0 4)
  | .dbgRel => s.relWrite (bits v 0 18)
  | .xtm m => s.xtmWrite m v
  | .dbgCore c => s.dbgCoreWrite c v
  | .dbgCstat c => s.modCore c fun k => { k with stepDone := k.stepDone && !v.getLsbD 2, stepErr := k.stepErr && !v.getLsbD 3 }
  | .dbgMctl => s.mctlWrite v
  | .dbgMaddr => s.modDbg fun d => { d with maddr := v }
  | .dbgMdata => s.modDbg fun d => { d with mdata := v }
  | .dbgMstat => s.modDbg fun d => { d with mErr := d.mErr && !v.getLsbD 0 }
  | .dbgVaddr => s.modDbg fun d => { d with vaddr := v &&& 0xFFFFFFFC }
  | .trcCtl => s.trcCtlWrite ((agentCore w).isSome) v
  | .trcStat => s.modDbg fun d => { d with berr := d.berr && !v.getLsbD 8, portOff := d.portOff && !v.getLsbD 9 }
  | .trcBbase => s.modDbg fun d => { d with bbase := bits v 10 22 }
  | .trcBrd => s.modDbg fun d => { d with brd := bits v 0 24 }
  | .trcBmark => s.modDbg fun d => { d with bmark := bits v 0 24 }
  | .trcEn c => s.modDbg fun d => { d with trc := d.trc.set c (d.trc[c].write v) }
  | .cntCtl n => s.modCnt n fun k => k.ctlWrite n v
  | .cntLo n => s.modCnt n fun k => k.loWrite v
  | .cntHi n => s.modCnt n fun k => { k with hi := bits v 0 16 }
  | .cntGctl => { s with counters := s.counters.gctlWrite v }
  | .wdtCtl c => s.modWdt c fun k => k.ctlWrite v
  | .wdtLoad c => s.modWdt c fun k => { k with load := v }
  | .wdtKick c => s.modWdt c fun k => k.kick v
  | .nlCtl => s.nlCtlWrite v
  | .nlStat => s.modNight fun n => n.statWrite v
  | .nlRsel => s.modNight fun n => if (bits v 0 11 : BitVec 11).toNat ≤ 1791 then { n with rsel := bits v 0 11 } else n
  | .nlSwdata k => s.modNight fun n => { n with swdata := n.swdata.set k v }
  | .nlSwreq => if v.getLsbD 0 then s.swreq w else s
  | .lcyStat => s.modNight fun n => n.lcStatWrite v
  | .lcyReq => s.lcReqReg w (bits v 0 8)
  | .tmpCtl => s.modNight fun n => n.tmpCtlWrite v
  | .tmpStat => s.modNight fun n => { n with event := n.event && !v.getLsbD 1 }
  | .tmpForce => s.tmpForceWrite v
  | _ => s

/-- A write of a register whose writer has the right. One into the block of a core in DOZE is another master's, and ends it (R426). -/
def State.regWriteRaw (s : State) (w : Agent) (r : Reg) (v : Word) : State :=
  match r.block with
  | .power | .gpio | .debug | .counters | .night => s.regWrite2 w r v
  | .core c => (s.rouse c).regWrite1 w r v
  | _ => s.regWrite1 w r v

/-- DBG_VDATA (R475): the register view at DBG_VADDR, read or written with the rights of a secure-privileged context of no core. -/
def State.viewAccess (s : State) (v : Option Word) : State :=
  let a := s.dbg.vaddr
  if a.toNat < 0x30000000 ∨ 0x3F000000 ≤ a.toNat then s
  else match v with
    | none =>
      let r := match regAt a with | some r => s.regRead .debug r | none => (0, s)
      r.2.modDbg fun d => { d with vdata := r.1 }
    | some v =>
      let s := s.modDbg fun d => { d with vdata := v }
      match regAt a with
      | some .dbgVdata => s
      | some r => match s.rightOf ⟨none, 3⟩ true r with | .ok => s.regWriteRaw .debug r v | _ => s
      | none => s

/-- A write by an agent that has the right to it; through DBG_VDATA it goes to the register view. -/
def State.regWrite (s : State) (w : Agent) (r : Reg) (v : Word) : State :=
  match r with
  | .dbgVdata => s.viewAccess (some v)
  | r => s.regWriteRaw w r v

/-! ## A register access as a command of its own -/

/-- Registers that answer without the main domain (R383, R415, R508). -/
def Reg.inVesper (r : Reg) : Bool :=
  match r with
  | .msDly _ | .msAsym _ => true
  | r => r.block == .ring || r.block == .night

/-- The access can be made now: a context must be one that issues; others need the unit's domain. -/
def State.canAccess (s : State) (w : Agent) (r : Reg) : Bool :=
  match w with
  | .ctx c x => s.coreRuns c && !s.core[c].halted && (s.ctx c x).st == .ready
  | .fabric => s.mainRuns && s.power.state == .run
  | .ring => s.power.pornAon && s.power.restored && (r.inVesper || s.mainRuns) && (s.power.vdbg || !r.inVdbg)
  | .debug => s.power.pornAon && s.power.restored && s.power.vdbg && (r.inVesper || s.mainRuns)

/-- In NAP an access by the ring agent or debug to a main-domain register ends NAP first (R429). -/
def State.napAccess (s : State) (w : Agent) (r : Reg) : Bool :=
  s.power.state == .nap && !s.power.mainRst && !r.inVesper && (w == .ring || w == .debug)

/-- One register write by an agent to address `a`. A context that may not make it faults with PRIV; a refused or ignored one, and
one to an unassigned offset, changes nothing. -/
def State.writeBy (s : State) (w : Agent) (a : Word) (v : Word) : State :=
  match regAt a with
  | none => s
  | some r =>
    if s.napAccess w r then s.modPower fun p => { p with napWake := true }
    else if !s.canAccess w r then s
    else match s.mayWrite w r with
      | .ok => s.regWrite w r v
      | .ignored => s
      | .refused => match w with | .ctx c x => s.preciseFault c x fcPriv a | _ => s

/-- One register read by an agent; the value goes to the reader. -/
def State.readBy (s : State) (w : Agent) (a : Word) : Word × State :=
  match regAt a with
  | none => (0, s)
  | some r =>
    if s.napAccess w r then (0, s.modPower fun p => { p with napWake := true })
    else if !s.canAccess w r then (0, s)
    else if s.mayRead w r then s.regRead w r
    else match w with | .ctx c x => (0, s.preciseFault c x fcPriv a) | _ => (0, s)

/-- Address of word `o` of a core's block. -/
def coreWord (c : CoreId) (o : Nat) : Word := BitVec.ofNat 32 (0x30000000 + c.val * 0x1000 + o)

/-- Address of a register of context `x`'s thread block. -/
def thrWord (c : CoreId) (x : CtxId) (o : Nat) : Word := coreWord c (0x100 + x.val * 0x40 + o)

end Sys2Proof.Machine
end

