-- ==== Sys2Proof/Machine/Mem.lean ====
section
/-! DEFINITION. The loads and stores of a context's instructions, to every kind of target (R78, R96, R101, R148, R290 to R306, R510). -/

namespace Sys2Proof.Machine

open Sys2Proof

/-! ## Results -/

/-- A change of the state that an instruction makes after everything else of it is done: a write of a register, which may stop or
reset the context that makes it. -/
abbrev Late := State → State

def Late.none : Late := fun s => s

/-- The value of `n` bytes at byte `k` of a word. -/
def wordPart (w : Word) (k n : Nat) : Word := (w >>> (8 * k)) &&& ((1#32 <<< (8 * n)) - 1)

/-- Results of a piece that faults get a change; waits do not. -/
def Res.onFault {α : Type} (r : Res α) (f : State → State) : Res α :=
  match r with
  | .ok v s => .ok v s
  | .fault s c a => .fault (f s) c a
  | .dfault s c a => .dfault s c a
  | .wait s w => .wait s w
  | .hold s => .hold s

/-- The state of a piece that goes well gets a change. -/
def Res.also {α : Type} (r : Res α) (f : State → State) : Res α := r.bind fun v s => .ok v (f s)

/-! ## The pinned window (R300 to R302) -/

/-- The slot and byte that a pinned-window offset names, when it is pinned and free to be used. -/
def State.pinSlot (s : State) (c : CoreId) (a : Word) (off : Nat) : Res (Fin 32) :=
  let k := s.core[c]
  let i : Fin 32 := ⟨off / 32 % 32, by omega⟩
  if !k.lcPin.getLsbD i.val then .fault s fcUnmapped a
  else if k.pinBusy && (k.pinld.isNone || (k.pinld.map (·.slot)) == some i) then .wait s .pinBusy
  else .ok i s

/-! ## Loads -/

/-- A line that an access got while its context waited (R137). -/
def Ctx.servedLine (t : Ctx) (l : BitVec 27) : Option (Except Byte Line) :=
  match t.served with
  | some (.line a r) => if lineOf a = l then some r else none
  | _ => none

/-- An access at `a` to a cached line, of one word or, for a refill, of the whole line (R291 to R293, R299). -/
def State.cachedLine (s : State) (c : CoreId) (x : CtxId) (a : Word) (l : BitVec 27) (whole : Bool) : Res Line :=
  match (s.ctx c x).servedLine l with
  | some (.ok d) => .ok d s
  | some (.error code) => .fault s code a
  | none =>
    match s.lineAccess c (some x) l (if whole then BitVec.allOnes 8 else wordIn a) with
    | (.line d, s) => .ok d s
    | (.wait w, s) => .wait s w
    | (.err code, s) => .fault s code a

/-- The bytes of a fabric load after the store buffer has been asked (R305): the cached path through the line cache, the uncached
one by a read of its own (R291). -/
def State.fabricLoad (s : State) (c : CoreId) (x : CtxId) (a : Word) (n : Nat) (cached : Bool) : Res Word :=
  match s.core[c].forward (s.fabAddr a) n with
  | .data w => .ok w (s.count c x 0x1F)
  | .wait => .wait (s.count c x 0x1E) (.storeOverlap a n)
  | .none =>
    if cached then (s.cachedLine c x a (lineOf a) false).bind fun d s => .ok (lineWord d (a.toNat % 32) n) s
    else
      match (s.ctx c x).servedLine (lineOf a) with
      | some (.ok d) => .ok (lineWord d (a.toNat % 32) n) s
      | some (.error code) => .fault s code a
      | none => .wait (s.fabAsk { core := c, kind := .load x a, addr := s.fabAddr a }) (.fabric a)

/-- A read of a register of the block control region: the whole register, of which the bytes are taken (R510). -/
def State.ctlLoad (s : State) (c : CoreId) (x : CtxId) (a : Word) (n : Nat) : Res Word :=
  match regAt (a &&& 0xFFFFFFFC) with
  | none => .ok 0 s
  | some r =>
    if s.mayRead (.ctx c x) r then
      let (w, s) := s.regRead (.ctx c x) r
      .ok (wordPart w (a.toNat % 4) n) s
    else .fault s fcPriv a

/-- A load of `n` bytes at `a`, zero-extended; `claim` for CLAIM's load (R84, R96, R101). -/
def State.loadBytes (s : State) (c : CoreId) (x : CtxId) (a : Word) (n : Nat) (claim : Bool) : Res Word :=
  match s.checkData c (s.ctx c x) a n false claim with
  | some code => .fault (s.noteSecure c a code) code a
  | none =>
    (match target (some c) a with
     | .spad w _ own =>
       ((s.ctxRead c x a (w / 4 * 4)).bind fun v s => .ok (wordPart v (w % 4) n) s).also fun s =>
         if own then s else s.count c x 0x21
     | .pinned off =>
       ((s.pinSlot c a off).bind fun i s => .ok (lineWord s.core[c].pinData[i] (off % 32) n) s).also fun s => s.count c x 0x20
     | .flash => (s.cachedLine c x a (lineOf a) false).bind fun d s => .ok (lineWord d (a.toNat % 32) n) s
     | .fabric cached => s.fabricLoad c x a n cached
     | .ctl => s.ctlLoad c x a n
     | .unmapped => .fault s fcUnmapped a).also fun s => s.count c x 0x14

/-! ## Stores -/

/-- A store of the enabled bytes of the word at `a` into memory; the data stand in their byte lanes. A register write is left to the
caller, as the change to be made when the instruction is done. `n` is the size of the access (R84, R96, R265, R276, R301, R303). -/
def State.storeLanes (s : State) (c : CoreId) (x : CtxId) (a : Word) (n : Nat) (v : Word) (be : BitVec 4) : Res Late :=
  let word := a &&& 0xFFFFFFFC
  match s.checkData c (s.ctx c x) a n true false with
  | some code => .fault (s.noteSecure c a code) code a
  | none =>
    let done (s : State) : State := if be = 0 then s else s.ownCode c x a n
    (match target (some c) a with
     | .spad w via own =>
       ((s.ctxWrite c x a (w / 4 * 4) via v be).bind fun _ s => .ok Late.none (done s)).also fun s =>
         if own then s else s.count c x 0x21
     | .pinned off =>
       ((s.pinSlot c a off).bind fun i s =>
         .ok Late.none (done (s.modCore c fun k => { k with pinData := k.pinData.set i (patchLine k.pinData[i] word v be) }))).also
         fun s => s.count c x 0x20
     | .fabric _ =>
       match s.sbStore c x a v be with
       | some s => .ok Late.none (done s)
       | none => .wait s .storeBuffer
     | .ctl =>
       if be ≠ 0xF then .fault s fcAlign a
       else match regAt word with
         | none => .ok Late.none s
         | some r =>
           match s.mayWrite (.ctx c x) r with
           | .ok => .ok (fun s => s.regWrite (.ctx c x) r v) s
           | .ignored => .ok Late.none s
           | .refused => .fault s fcPriv a
     | .flash => .fault s fcRdonly a
     | .unmapped => .fault s fcUnmapped a).also fun s => s.count c x 0x15

/-- Byte enables of an access of `n` bytes at `a`, and its data in their lanes. -/
def laneData (a v : Word) : Word := v <<< (8 * (a.toNat % 4))

/-- A store of the low `n` bytes of `v` at `a` (R96). -/
def State.storeBytes (s : State) (c : CoreId) (x : CtxId) (a : Word) (n : Nat) (v : Word) : Res Late :=
  s.storeLanes c x a n (laneData a v) (byteMask a n)

/-! ## COMMIT (R101 to R104) -/

/-- COMMIT's checks, test and store as one bank operation; the result is its flag. -/
def State.commitAt (s : State) (c : CoreId) (x : CtxId) (a v : Word) (elapsed : Nat) : Res Word :=
  match s.checkData c (s.ctx c x) a 4 false true with
  | some code => .fault (s.noteSecure c a code) code a
  | none =>
    match target (some c) a with
    | .spad w _ _ =>
      (s.spadGate c x a w).bind fun _ s =>
        let good := (s.ctx c x).rsv == some (w / 32) && decide (elapsed ≤ 255)
        let s := s.modCtx c x fun t => { t with rsv := none }
        if good then .ok 0xFFFFFFFF (((s.spadPut w v 0xF (some (c, x))).ownCode c x a 4).count c x 0x31)
        else .ok 0 (s.count c x 0x32)
    | _ => .fault s fcRsvRange a

/-- CLAIM's load and reservation; a fault clears the reservation (R101). -/
def State.claimAt (s : State) (c : CoreId) (x : CtxId) (a : Word) : Res Word :=
  ((s.loadBytes c x a 4 true).bind fun v s =>
    match target (some c) a with
    | .spad w _ _ => .ok v ((s.modCtx c x fun t => { t with rsv := some (w / 32) }).count c x 0x30)
    | _ => .ok v s)

end Sys2Proof.Machine
end

