-- ==== Sys2Proof/Machine/Operands.lean ====
section
/-! DEFINITION. The operand forms of a microword: its fields, its sources, its address, its cells, in native and in F16 mode (spec 05,
R62, R163, R164, R171, R191). -/

namespace Sys2Proof.Machine

open Sys2Proof

/-- What a routine knows of its instruction: opcode and page byte, operand bytes and their number, the address after it. -/
structure UEnv where
  op    : Byte
  page  : Byte := 0
  opnd  : Word := 0
  width : Nat := 0
  npc   : Word
  deriving DecidableEq, Repr

/-! ## Immediates (R164) -/

def signFrom (n : Nat) (v : Word) : Word := if 32 ≤ n ∨ n = 0 then v else (v <<< (32 - n)).sshiftRight (32 - n)

/-- LIT or OPND, `n` bits wide, as IMMSEL shapes it. -/
def shaped (imm n : Nat) (v : Word) : Word :=
  match imm with
  | 0 => v
  | 1 => signFrom n v
  | 2 => v <<< 16
  | _ => (v &&& 0xFF) * 0x01010101#32

/-! ## Addresses of an F16 thread (R191) -/

/-- The window's base, an address of own local scratchpad. -/
def Ctx.f16Base (t : Ctx) : Word := fld t.f16win 16

/-- The address that a 16-bit address names. -/
def Ctx.dataAddr (t : Ctx) (a : Word) : Word := if t.f16 then t.f16Base ||| (a &&& 0xFFFF) else a

/-- Byte `i` of the code at THR_PC; an F16 thread's wraps within its window. -/
def Ctx.codeAddr (t : Ctx) (i : Nat) : Word :=
  if t.f16 then t.f16Base ||| ((t.pc + BitVec.ofNat 32 i) &&& 0xFFFF) else t.pc + BitVec.ofNat 32 i

/-! ## The flat stack of F16 mode (R62) -/

/-- The entry `i` cells below the top, through the windows below the newest. -/
def Ctx.flatEntry (t : Ctx) (i : Nat) : Fin 64 :=
  if i < t.depth then entryOf t.win (t.depth - 1 - i)
  else
    let j := i - t.depth
    entryOf ⟨(t.frame + 7 - j / 8 % 8) % 8, by omega⟩ (7 - j % 8)

/-- Cells present in the cache, counted from the top: those of the newest window and of the one below it. -/
def Ctx.flatHave (t : Ctx) : Nat :=
  t.depth + if t.wtag[(⟨(t.frame + 7) % 8, by omega⟩ : Fin 8)].live then 8 else 0

/-- The cell `i` places below the top, where there is one. -/
def Ctx.cellAt (t : Ctx) (i : Nat) : Option Word :=
  if t.f16 then (if i < t.flatHave then some (t.entry (t.flatEntry i)) else none)
  else if i < t.depth then some (t.cell i) else none

def Ctx.cellEntry (t : Ctx) (i : Nat) : Fin 64 := if t.f16 then t.flatEntry i else t.topEntry i

/-- Makes the window below the newest one present where `n` cells reach it; with nothing spilled that is FILL_EMPTY, and a tag with a
DEPTH above 8 is FRAME_OVER (R509). -/
def State.flatFill (s : State) (c : CoreId) (x : CtxId) (n : Nat) : Res Unit :=
  let t := s.ctx c x
  let below : Fin 8 := ⟨(t.frame + 7) % 8, by omega⟩
  if n ≤ t.depth then .ok () s
  else if !t.wtag[below].live then s.fillWindow c x below
  else if 8 < t.wtag[below].depth.toNat then .fault s fcFrameOver 0
  else .ok () s

/-- One cell leaves the flat stack. -/
def State.flatPop (s : State) (c : CoreId) (x : CtxId) : Res Unit :=
  (s.flatFill c x 1).bind fun _ s =>
    .ok () (s.modCtx c x fun t =>
      if t.depth = 0 then
        let t : Ctx := { t with wtag := t.wtag.set t.win {}, frame := if t.frame = 0 then 7 else t.frame - 1 }
        t.setDepth t.win (t.depth - 1)
      else t.setDepth t.win (t.depth - 1))

/-- One cell joins the flat stack; with all windows full the oldest one spills, unless its tag holds a DEPTH above 8 (R62, R509). -/
def State.flatPush (s : State) (c : CoreId) (x : CtxId) (v : Word) : Res Unit :=
  let t := s.ctx c x
  if t.depth < 8 then .ok () (s.modCtx c x fun t => (t.putCells t.win t.depth [v &&& 0xFFFF]).setDepth t.win (t.depth + 1))
  else
    let w : Fin 8 := ⟨(t.frame + 1) % 8, by omega⟩
    (if !t.wtag[w].live then .ok () s
     else if 8 < t.wtag[w].depth.toNat then .fault s fcFrameOver 0
     else s.spillWindow c x w).bind fun _ s =>
      .ok () (s.modCtx c x fun t => { (t.putCells w 0 [v &&& 0xFFFF]).setDepth w 1 with frame := t.frame + 1 })

def State.flatPops (c : CoreId) (x : CtxId) : Nat → State → Res Unit
  | 0, s => .ok () s
  | n + 1, s => (s.flatPop c x).bind fun _ s => State.flatPops c x n s

def State.flatPushes (c : CoreId) (x : CtxId) : List Word → State → Res Unit
  | [], s => .ok () s
  | v :: l, s => (s.flatPush c x v).bind fun _ s => State.flatPushes c x l s

/-- Pops and pushes of a microword's stack field, in either mode (R163, R172). -/
def State.cellsMove (s : State) (c : CoreId) (x : CtxId) (pops : Nat) (vs : List Word) : Res Unit :=
  if (s.ctx c x).f16 then (State.flatPops c x pops s).bind fun _ s => State.flatPushes c x vs s
  else .ok () (s.replace c x pops vs)

/-- The checks made before a microword acts: the cells its stack field needs, and that nothing it names is pending. `effect`: the word
pops, pushes, reads or writes a cell, which a DEPTH above 8 forbids (R509). -/
def State.cellsReady (s : State) (c : CoreId) (x : CtxId) (effect : Bool) (pops pushes : Nat) (named : List Nat) : Res Unit :=
  let t := s.ctx c x
  if 8 < t.depth then (if effect then .fault s fcFrameOver 0 else .ok () s)
  else if t.f16 then (s.flatFill c x pops).bind fun _ s => s.ready c x (named.map (s.ctx c x).flatEntry)
  else s.need c x pops named pops pushes

/-- The cell `i` places below the top is there, and not pending: FRAME_UNDER in native mode, a fill in F16 mode (R62, R172). -/
def State.cellThere (s : State) (c : CoreId) (x : CtxId) (i : Nat) : Res Unit :=
  (if (s.ctx c x).f16 then s.flatFill c x (i + 1)
   else if i < (s.ctx c x).depth then .ok () s else .fault s fcFrameUnder 0).bind fun _ s =>
    s.ready c x [(s.ctx c x).cellEntry i]

/-- A cell named by the WB field after the stack has moved (R172). -/
def State.cellWrite (s : State) (c : CoreId) (x : CtxId) (i : Nat) (v : Word) : Res Unit :=
  (s.cellThere c x i).bind fun _ s =>
    let e := (s.ctx c x).cellEntry i
    let w : Fin 8 := ⟨e.val / 8, by omega⟩
    .ok () (s.modCtx c x fun t =>
      { t with dstk := t.dstk.set e (if t.f16 then v &&& 0xFFFF else v), wtag := t.wtag.set w { t.wtag[w] with dirty := true } })

/-! ## Sources (R164) -/

/-- What ASEL, BSEL and MADDR read: the state at the start of a word. A cell or return entry that does not exist reads as a free value,
of those from `n` on. -/
structure USrc where
  cell : Nat → Word
  ret  : Word

def State.usrc (s : State) (c : CoreId) (x : CtxId) (n : Nat) : USrc :=
  let t := s.ctx c x
  { cell := fun i => (t.cellAt i).getD (Config.freeWord (n + i))
    ret := if t.rtag[t.rtop].count = 0 then Config.freeWord (n + 3) else t.rtopVal }

/-- The value of a source code. -/
def State.source (s : State) (c : CoreId) (x : CtxId) (e : UEnv) (w : BitVec 144) (q : USrc) (sel : Nat) : Word :=
  let k := s.core[c]
  let imm := ufield w 18 2
  match sel with
  | 0x0 => q.cell 0
  | 0x1 => q.cell 1
  | 0x2 => q.cell 2
  | 0x3 => q.ret
  | 0x4 => k.u[ureg w 35]
  | 0x5 => k.u[ureg w 31]
  | 0x6 => shaped imm 16 (BitVec.ofNat 32 (ufield w 64 16))
  | 0x8 => e.npc
  | 0x9 => shaped imm (8 * e.width) k.opnd
  | 0xB => fld k.ucnt 0
  | 0xC => k.mullo
  | 0xD => k.mdr
  | 0xE => k.xin
  | 0xF => s.coreId c x
  | _ => 0

/-- The address that MADDR selects; `r` is the word's result. -/
def State.uaddr (s : State) (c : CoreId) (x : CtxId) (w : BitVec 144) (q : USrc) (r : Word) : Word :=
  let k := s.core[c]
  let imm := shaped (ufield w 18 2) 16 (BitVec.ofNat 32 (ufield w 64 16))
  (s.ctx c x).dataAddr (match ufield w 85 4 with
    | 0x0 => q.cell 0
    | 0x1 => q.cell 1
    | 0x2 => q.cell 2
    | 0x3 => k.u[ureg w 35]
    | 0x4 => k.u[ureg w 31]
    | 0x5 => k.u[ureg w 27]
    | 0x6 => r
    | 0x7 => q.cell 0 + imm
    | 0x8 => k.u[ureg w 35] + imm
    | _ => imm)

/-- Pops and pushes of the data part. -/
def dataPart (w : UWord) : Nat × Nat :=
  match ufield w 97 3 with
  | 1 => (0, 1)
  | 2 => (0, 2)
  | 3 => (1, 0)
  | 4 => (2, 0)
  | 5 => (3, 0)
  | 6 => (4, 0)
  | 7 => (5, 0)
  | _ => (0, 0)

/-- The condition indices that the word samples (R174). -/
def condsRead (w : UWord) : List Nat :=
  if ufield w 59 2 ≠ 0 then []
  else (match ufield w 120 4 with
    | 1 => [0]
    | 2 => [0, 1]
    | 3 => [0, 1, 2]
    | 4 => [0, 1, 2, 3]
    | 8 => [0]
    | _ => []).map (ufield w 114 6 + ·)

/-- The cells that ASEL and BSEL name, by their place below the top. -/
def sourceCells (w : UWord) : List Nat :=
  let sel (k : Nat) : List Nat := match ufield w k 4 with | 0 => [0] | 1 => [1] | 2 => [2] | _ => []
  sel 104 ++ sel 100

/-- The cells that a word's address, side units and conditions name. The conditions see T after the stack has moved (R172). -/
def namedCells (w : UWord) : List Nat :=
  let mem := if ufield w 89 5 = 0 then [] else match ufield w 85 4 with | 0 => [0] | 1 => [1] | 2 => [2] | 7 => [0] | _ => []
  let trn := match ufield w 55 4 with | 1 => [0, 1, 2] | 2 => [0, 1] | 3 => [0] | 4 => [0] | _ => []
  let pin := match ufield w 20 3 with | 0 => [] | 2 => [0, 1] | 4 => [0, 1, 2] | _ => [0]
  let evt := if ufield w 51 4 = 3 then [0] else []
  let tos := if (condsRead w).any (fun i => i == 7 || i == 8) && (dataPart w).2 == 0 then [(dataPart w).1] else []
  mem ++ trn ++ pin ++ evt ++ tos

/-- Something uses the word's result. -/
def resultUsed (w : UWord) : Bool :=
  w.getLsbD 26 || ufield w 80 5 != 0 || ufield w 43 3 != 0 || ufield w 51 4 == 4 ||
  (ufield w 89 5 != 0 && (6 ≤ ufield w 89 5 || ufield w 85 4 == 6))

/-- The word pops, pushes, reads or writes a data-stack cell (R509). -/
def cellEffect (w : UWord) : Bool :=
  dataPart w != (0, 0) || 3 ≤ ufield w 94 3 || !(namedCells w).isEmpty || [1, 2, 3, 6, 7].contains (ufield w 80 5) ||
  (resultUsed w && !(sourceCells w).isEmpty)

/-! ## Conditions (R171) -/

/-- The condition of index `i`; `u` are the micro-registers at the start of the word (R172). -/
def State.condition (s : State) (c : CoreId) (x : CtxId) (e : UEnv) (w : BitVec 144) (u : Vector Word 16) (i : Nat) : Bool :=
  let k := s.core[c]
  let t := k.ctx[x]
  match i with
  | 0x00 => true
  | 0x01 => k.flagZ
  | 0x02 => k.flagN
  | 0x03 => k.flagC
  | 0x04 => k.flagV
  | 0x05 => k.flagF0
  | 0x06 => k.ucnt == 0
  | 0x07 => ((t.cellAt 0).getD (Config.freeWord s.freeCtr)) == 0
  | 0x08 => ((t.cellAt 0).getD (Config.freeWord s.freeCtr)).getLsbD 31
  | 0x09 => k.stageFree x
  | 0x0A => t.longs.isEmpty
  | 0x0B => k.sb.all fun q => q.ctx != x
  | 0x0C => t.rsv.isSome
  | 0x0D => decide (2 ≤ t.depth)
  | 0x0E => k.opnd == 0
  | 0x0F => t.priv == 1 || t.priv == 3
  | 0x10 => t.priv == 3
  | 0x11 => t.cntd
  | 0x12 => t.wake
  | 0x13 => x == fCtx
  | 0x14 => u[ureg w 31] == 0
  | i =>
    if 0x20 ≤ i ∧ i < 0x30 then u[ureg w 35].getLsbD (i - 0x20)
    else if 0x30 ≤ i ∧ i < 0x38 then e.op.getLsbD (i - 0x30)
    else if 0x38 ≤ i ∧ i < 0x40 then e.page.getLsbD (i - 0x38)
    else false

end Sys2Proof.Machine
end

