-- ==== Sys2Proof/Machine/Units.lean ====
section
/-! DEFINITION. The side units of a core as its instructions use them: staging FIFO, timebases, pins, stimulus ports, the debug halt and
the decode register (R98, R111 to R118, R124, R228, R479). -/

namespace Sys2Proof.Machine

open Sys2Proof

/-! ## Staging (R115 to R118, R154, R203, R204) -/

/-- An entry joins the core's staging FIFO, or waits for room in it; a counted context that waits slips (R117). -/
def State.stageEntry (s : State) (c : CoreId) (x : CtxId) (g : Staged) : Res Unit :=
  if s.core[c].stageFree x then
    .ok () ((s.modCore c fun k => { k with staging := k.staging ++ [g] }).count c x 0x33)
  else
    .wait (if (s.ctx c x).cntd && (s.ctx c x).waitFor != some .staging then s.count c x 0x06 else s) .staging

/-- TRANSIT's checks and staging. -/
def State.stageTransit (s : State) (c : CoreId) (x : CtxId) (data where_ when_ : Word) : Res Unit :=
  let t := s.ctx c x
  let target : BitVec 20 := bits where_ 0 20
  let be : BitVec 4 := bits where_ 20 4
  let tag : BitVec 4 := bits where_ 24 4
  let mode : BitVec 4 := bits where_ 28 4
  if !s.transitOk (if t.priv = 0 then some c else none) when_ be tag mode target then .fault s fcRange 0
  else s.stageEntry c x (s.mkStaged when_ be tag mode target data t.cntd)

/-- The target of a wake of context `x` of core `c` (R226). -/
def wakeTarget (c : CoreId) (x : CtxId) : BitVec 20 := BitVec.ofNat 20 (16 * c.val + x.val)

/-- TWAIT's checks and staging: a one-shot class 3 entry of policy NOW for the context itself; its wake flag clears first (R118, R228). -/
def State.stageWake (s : State) (c : CoreId) (x : CtxId) (when_ tag : Word) : Res Unit :=
  if (bits when_ 14 2 : BitVec 2) ≠ 3 ∨ !s.transitOk none when_ 0 (bits tag 0 4) 1 (wakeTarget c x) then .fault s fcRange 0
  else
    (s.stageEntry c x (s.mkStaged when_ 0 (bits tag 0 4) 1 (wakeTarget c x) 0 (s.ctx c x).cntd)).bind fun _ s =>
      .ok () (s.modCtx c x fun t => { t with wake := false })

/-! ## Timebases (R115, R116) -/

def State.beamRead (s : State) (u : Word) : Res Word :=
  if h : u.toNat < 8 then .ok (s.beamValue ⟨u.toNat, h⟩) s else .fault s fcRange 0

def State.frameRead (s : State) (u : Word) : Res Word :=
  if h : u.toNat < 8 then .ok (fld s.transit.tb[(⟨u.toNat, h⟩ : TbId)].frame 0) s else .fault s fcRange 0

/-! ## Pins (R111 to R113) -/

def State.pinRead (s : State) (u : Word) : Res Word :=
  if u.toNat < 64 then .ok (cellOf (s.gpio.fin.getLsbD u.toNat)) s else .fault s fcRange 0

def State.pinGroup (s : State) (u : Word) : Res Word :=
  if u.toNat < 2 then .ok (bits s.gpio.fin (32 * u.toNat) 32) s else .fault s fcRange 0

/-- Output data for the pins of a mask; a pin that the core does not own stops the whole write (R112). -/
def State.pinPut (s : State) (c : CoreId) (x : CtxId) (mask data : BitVec 64) : Res Unit :=
  if mask &&& ~~~s.gpio.own[c] ≠ 0 then .fault s fcPinOwn 0
  else .ok () ((s.modGpio fun g => { g with writes := g.writes ++ [(c, mask, data)] }).count c x 0x3C)

def State.pinWrite (s : State) (c : CoreId) (x : CtxId) (f u : Word) : Res Unit :=
  if u.toNat < 64 then s.pinPut c x ((1#64) <<< u.toNat) (if f = 0 then 0 else (1#64) <<< u.toNat) else .fault s fcRange 0

def State.pinWriteMask (s : State) (c : CoreId) (x : CtxId) (v m u : Word) : Res Unit :=
  if u.toNat < 2 then s.pinPut c x (m.setWidth 64 <<< (32 * u.toNat)) (v.setWidth 64 <<< (32 * u.toNat)) else .fault s fcRange 0

/-! ## Stimulus (R114, R479, R480) -/

/-- STIM to port `b`: a packet, a drop, or nothing. -/
def State.stimWrite (s : State) (c : CoreId) (x : CtxId) (b : BitVec 5) (v : Word) : State :=
  let s := s.count c x 0x3A
  let t := s.dbg.trc[c]
  if s.tracing && decide (t.plo.toNat ≤ b.toNat) && decide (b.toNat ≤ t.phi.toNat) && t.ctxm.getLsbD x.val then
    if t.budget ≠ 0 ∧ 2 ^ t.budget.toNat ≤ t.spent then
      (s.modDbg fun d => { d with drop := satInc d.drop, dropped := satInc d.dropped }).traceSettle.count c x 0x3B
    else
      let full := decide (64 ≤ s.dbg.fifo.length)
      let low := fld b 0 ||| fld (BitVec.ofNat 4 x.val) 5 ||| fld (BitVec.ofNat 4 c.val) 9
      let s := s.packet false low v
      if full then s.count c x 0x3B
      else s.modDbg fun d => { d with trc := d.trc.set c { d.trc[c] with spent := d.trc[c].spent + 1 } }
  else s

/-! ## BKPT, YIELD, SLEEP (R98, R124, R228, R467) -/

/-- BKPT halts here. -/
def State.bkptHalts (s : State) (c : CoreId) : Bool := s.core[c].bkptEn && s.dbg.level == 2 && s.power.vdbg

/-- The thread lets the next READY thread have the register, where there is one; a counted thread's YIELD does nothing. -/
def State.yieldNow (s : State) (c : CoreId) (x : CtxId) : State :=
  if s.core[c].holder == threadOf x && s.core[c].holder.isSome && s.core[c].rival x then s.passOn c x else s

/-- SLEEP, with THR_PC past it already: a set wake flag ends it at once and clears. -/
def State.sleepNow (s : State) (c : CoreId) (x : CtxId) : State :=
  if (s.ctx c x).wake then s.modCtx c x fun t => { t with wake := false }
  else (s.setSt c x .sleep).count c x 0x36

end Sys2Proof.Machine
end

