-- ==== Sys2Proof/Machine/Ucode.lean ====
section
/-! DEFINITION. One microword: what it checks, does and leads to (spec 05, R163 to R183; R36, R343, R344 for the ROM-only actions). -/

namespace Sys2Proof.Machine

open Sys2Proof

/-- How an instruction goes on when it is done: at the next instruction, at a target as a taken branch, or with THR_PC where it is. -/
inductive Flow where
  | seq
  | jump (a : Word)
  | stay
  deriving DecidableEq, Repr

/-- What a microword leads to; `sleep` for END 0b11. -/
inductive UEnd where
  | cont (p : UPos)
  | fin (f : Flow) (sleep : Bool)
  deriving DecidableEq, Repr

/-- An instruction that is done: how it goes on, and what is still to be changed. -/
structure Done where
  flow : Flow := .seq
  late : Late := Late.none

/-- A condition without which the instruction faults, with no data access. -/
def State.must (s : State) (b : Bool) (code : Byte) : Res Unit := if b then .ok () s else .fault s code 0

/-! ## Micro-registers (R166, R178) -/

/-- What a vendor routine left in the micro-registers is open. -/
def State.openRegs (s : State) (c : CoreId) : State :=
  if s.core[c].uFree then
    let n := s.freeCtr
    let w (i : Nat) : Word := Config.freeWord (n + i)
    ({ s with freeCtr := n + 21 }).modCore c fun k =>
      { k with u := Vector.ofFn fun i => w i.val, ucnt := bits (w 16) 0 4, flagZ := (w 17).getLsbD 0, flagN := (w 17).getLsbD 1,
               flagC := (w 17).getLsbD 2, flagV := (w 17).getLsbD 3, flagF0 := (w 17).getLsbD 4, mdr := w 18, mullo := w 19,
               xin := w 20, uFree := false }
  else s

def Core.setU (k : Core) (i : Fin 16) (v : Word) : Core := { k with u := k.u.set i v }

/-- Spill and fill routines have used U12 to U15 (R173): what they leave there is open. -/
def State.spilled (s s0 : State) (c : CoreId) (x : CtxId) : State :=
  if (s.ctx c x).doff = (s0.ctx c x).doff ∧ (s.ctx c x).roff = (s0.ctx c x).roff then s
  else
    let n := s.freeCtr
    ({ s with freeCtr := n + 4 }).modCore c fun k =>
      (((k.setU 12 (Config.freeWord n)).setU 13 (Config.freeWord (n + 1))).setU 14 (Config.freeWord (n + 2))).setU 15
        (Config.freeWord (n + 3))

/-! ## Long operations (R88, R89, R168) -/

/-- The divider's queue with one more request: a counted thread's is served next (R89). -/
def Core.queueDivider (k : Core) (x : CtxId) : Core :=
  { k with divq := if k.ctx[x].cntd then k.divq.take 1 ++ [x] ++ k.divq.drop 1 else k.divq ++ [x] }

def LongKind.divider (k : LongKind) : Bool :=
  match k with
  | .div | .mod | .divu | .modu | .sqrt => true
  | _ => false

/-- A long operation may issue: fewer than two outstanding, and for a counted thread none in the divider (R88, R89). -/
def State.longRoom (s : State) (c : CoreId) (x : CtxId) (kind : LongKind) : Res Unit :=
  let t := s.ctx c x
  if t.cntd && kind.divider && t.longs.any (fun o => o.kind.divider) then .hold s
  else if 2 ≤ t.longs.length then
    if t.longs.any fun o => o.kind == .mulw || o.kind == .mulwu then .hold s else .wait s .longSlot
  else .ok () s

/-- A long operation begins; its result cells are pending from now on. -/
def State.longStart (s : State) (c : CoreId) (x : CtxId) (o : LongOp) : State :=
  let s := if o.kind.divider then
      let s := if s.core[c].divq.isEmpty then s else s.count c x 0x25
      s.modCore c fun k => k.queueDivider x
    else s
  (s.modCtx c x fun t =>
    { t with longs := t.longs ++ [o], dpend := o.dest.foldl (fun (p : Vector Bool 64) (e : Fin 64) => p.set e true) t.dpend }).count c x 0x26

/-- LDF's checks at issue: ALIGN, COUNTED_RANGE, UNMAPPED outside the fabric range (R84, R95). -/
def State.ldfCheck (s : State) (c : CoreId) (x : CtxId) (a : Word) : Option Byte :=
  if a.toNat % 4 ≠ 0 then some fcAlign
  else if (s.ctx c x).counted then some fcCounted
  else match target (some c) a with
    | .fabric _ => none
    | _ => some fcUnmapped

/-- LDF begins, for cells and at most one micro-register: from the store buffer, or by a read of its own (R95, R305). -/
def State.ldfStart (s : State) (c : CoreId) (x : CtxId) (a : Word) (dest : List (Fin 64)) (reg : Option (Fin 16)) : Res Unit :=
  let o : LongOp := { kind := .ldf, a := a, b := 0, dest := dest, pc := (s.ctx c x).pc, ureg := reg }
  match s.core[c].forward (s.fabAddr a) 4 with
  | .wait => .wait (s.count c x 0x1E) (.storeOverlap a 4)
  | .data w => .ok () ((s.longStart c x { o with result := some (.ok w) }).count c x 0x1F)
  | .none => .ok () ((s.longStart c x { o with sent := true }).fabAsk { core := c, kind := .ldf x a, addr := s.fabAddr a })

/-- The cells that a long operation gives, low cell first, and whether it faults with DIV_ZERO. -/
def longResult (kind : LongKind) (a b : Word) : List Word × Bool :=
  match kind with
  | .div => if b = 0 then ([0], true) else ([divS a b], false)
  | .mod => if b = 0 then ([0], true) else ([modS a b], false)
  | .divu => if b = 0 then ([0], true) else ([divUW a b], false)
  | .modu => if b = 0 then ([0], true) else ([modUW a b], false)
  | .sqrt => ([sqrtW a], false)
  | .mulw => let p := mulWide true a b; ([p.1, p.2], false)
  | .mulwu => let p := mulWide false a b; ([p.1, p.2], false)
  | .ldf => ([0], false)

/-! ## Memory in a microword (R167, R191, R193) -/

/-- Bytes of an F16 halfword at an odd address are two accesses, which wrap within the window. -/
def Ctx.splitHalf (t : Ctx) (a : Word) : Bool := t.f16 && a.getLsbD 0

def State.uload (s : State) (c : CoreId) (x : CtxId) (a : Word) (n : Nat) : Res Word :=
  let t := s.ctx c x
  if n = 2 ∧ t.splitHalf a then
    (s.loadBytes c x a 1 false).bind fun lo s =>
      (s.loadBytes c x (t.dataAddr (a + 1)) 1 false).bind fun hi s => .ok (lo ||| (hi <<< 8)) s
  else s.loadBytes c x a n false

def State.ustore (s : State) (c : CoreId) (x : CtxId) (a : Word) (n : Nat) (v : Word) : Res Late :=
  let t := s.ctx c x
  if n = 2 ∧ t.splitHalf a then
    (s.storeBytes c x a 1 v).bind fun _ s => s.storeBytes c x (t.dataAddr (a + 1)) 1 (v >>> 8)
  else s.storeBytes c x a n v

/-- What the MEM field does: the value it delivers, which a load copies to MDR too, and a register write still to be made. `r` is the
word's result. -/
def State.umem (s : State) (c : CoreId) (x : CtxId) (w : BitVec 144) (a r : Word) : Res (Option Word × Late) :=
  let load (q : Res Word) (f : Word → Word) : Res (Option Word × Late) :=
    q.bind fun v s => .ok (some (f v), Late.none) s
  let store (q : Res Late) : Res (Option Word × Late) := q.bind fun l s => .ok (none, l) s
  match ufield w 89 5 with
  | 0x01 => load (s.uload c x a 1) id
  | 0x02 => load (s.uload c x a 1) sext8
  | 0x03 => load (s.uload c x a 2) id
  | 0x04 => load (s.uload c x a 2) sext16
  | 0x05 => load (s.uload c x a 4) id
  | 0x06 => store (s.ustore c x a 1 r)
  | 0x07 => store (s.ustore c x a 2 r)
  | 0x08 => store (s.ustore c x a 4 r)
  | 0x09 => store (s.storeLanes c x a 4 r (bits s.core[c].u[ureg w 31] 0 4))
  | 0x0A => load ((s.claimAt c x a).onFault fun s => s.modCtx c x fun t => { t with rsv := none }) id
  | 0x0B =>
    let n := Config.freeNat s.freeCtr
    (State.commitAt { s with freeCtr := s.freeCtr + 1 } c x a r n).bind fun v s => .ok (some v, Late.none) s
  | _ => .ok (none, Late.none) s

/-! ## Side units in a microword (R169) -/

/-- TRN: what goes to XIN. -/
def State.utrn (s : State) (c : CoreId) (x : CtxId) (w : BitVec 144) (q : USrc) : Res (Option Word) :=
  match ufield w 55 4 with
  | 1 => (s.stageTransit c x (q.cell 2) (q.cell 1) (q.cell 0)).bind fun _ s => .ok none s
  | 2 => if x = fCtx then .fault s fcIllegal 0 else (s.stageWake c x (q.cell 1) (q.cell 0)).bind fun _ s => .ok none s
  | 3 => (s.beamRead (q.cell 0)).bind fun v s => .ok (some v) s
  | 4 => (s.frameRead (q.cell 0)).bind fun v s => .ok (some v) s
  | 5 => .ok (some (bits s.power.vt 0 32)) (s.modCore c fun k => { k with vtLatch := s.power.vt })
  | 6 => .ok (some (fld (bits s.core[c].vtLatch 32 16 : BitVec 16) 0)) s
  | _ => .ok none s

/-- PIN: what goes to XIN. -/
def State.upin (s : State) (c : CoreId) (x : CtxId) (w : BitVec 144) (q : USrc) : Res (Option Word) :=
  match ufield w 20 3 with
  | 1 => (s.pinRead (q.cell 0)).bind fun v s => .ok (some v) s
  | 2 => (s.pinWrite c x (q.cell 1) (q.cell 0)).bind fun _ s => .ok none s
  | 3 => (s.pinGroup (q.cell 0)).bind fun v s => .ok (some v) s
  | 4 => (s.pinWriteMask c x (q.cell 2) (q.cell 1) (q.cell 0)).bind fun _ s => .ok none s
  | _ => .ok none s

/-- The handshakes of a normal entry or chain (R343, R344). -/
def State.handleEntry (s : State) (c : CoreId) (x : CtxId) : State :=
  (s.deliver c).modCtx c x fun t => { t with rsv := none }

/-- F's exit, or its chain to the lowest pending slot (R334). -/
def State.fastExit (s : State) (c : CoreId) : State :=
  match s.fastNext c with
  | some q => if s.fastOpen c then (s.enterFast c q.1).count c fCtx 0x0B else s.setSt c fCtx .idle
  | none => s.setSt c fCtx .idle

/-- EVT but for BKPT and YIELD: what is done now and what is done at the word's end. The last four are in ROM words only. -/
def State.uevt (s : State) (c : CoreId) (x : CtxId) (e : UEnv) (w : BitVec 144) (q : USrc) (r : Word) : Late × State :=
  match ufield w 51 4 with
  | 3 => (Late.none, s.stimWrite c x (bits w 64 5) (q.cell 0))
  | 4 => (Late.none, s.raise ⟨96 + c.val, by omega⟩ r)
  | 5 => (Late.none, s.modCtx c x fun t => { t with priv := if e.opnd.toNat < 240 then 1 else 3 })
  | 6 => (Late.none, ((s.handleEntry c x).modCore c fun k => { k with active := true }).modCtx c x
      fun t => { t with priv := s.core[c].hprivOf })
  | 7 => (Late.none, (s.modCore c fun k => { k with active := r.getLsbD 2 }).modCtx c x
      fun t => { t with priv := if (bits r 0 2 : BitVec 2) = 2 then 1 else bits r 0 2 })
  | 8 => (fun s => s.fastExit c, s)
  | _ => (Late.none, s)

/-! ## The next micro-address (R174, R183) -/

/-- The next micro-address from the word at `upc`; `u` are the micro-registers at its start. A word that a patch put in the place of a
ROM word stands in RAM, and a CALL of it stores the RAM address + 1 (DESIGN CHOICE, log 50). -/
def State.unext (s : State) (c : CoreId) (x : CtxId) (e : UEnv) (w : BitVec 144) (u : Vector Word 16) (upc : BitVec 12) :
    BitVec 12 × State :=
  let next : BitVec 12 := bits w 124 12
  let cond := ufield w 114 6
  let b (i : Nat) : BitVec 12 := if s.condition c x e w u (cond + i) then (1#12) <<< i else 0
  let k := s.core[c]
  match ufield w 120 4 with
  | 1 => (next ||| b 0, s)
  | 2 => (next ||| b 0 ||| b 1, s)
  | 3 => (next ||| b 0 ||| b 1 ||| b 2, s)
  | 4 => (next ||| b 0 ||| b 1 ||| b 2 ||| b 3, s)
  | 5 => if k.ucnt = 0 then (next ||| 1, s) else (next, s.modCore c fun k => { k with ucnt := k.ucnt - 1 })
  | 6 => (next, s.modCore c fun k => k.setU 15 (fld (upc + 1) 0))
  | 7 => (bits u[(15 : Fin 16)] 0 12, s)
  | _ => (next, s)

/-- A transfer out of RAM into the protected range goes to the service word that raises PRIV, in the life-cycle states of R183. -/
def State.guarded (s : State) (ram : Bool) (a : BitVec 12) : BitVec 12 :=
  if ram && s.sealed && inProtected a then 0xBFE else a

/-! ## Writing back (R170, R172) -/

/-- The WB destination takes a value. -/
def State.uwb (s : State) (c : CoreId) (x : CtxId) (w : BitVec 144) (ram : Bool) (v : Word) : Res Unit :=
  let mrw := ureg w 27
  let setU (s : State) : State := s.modCore c fun k => k.setU mrw v
  match ufield w 80 5 with
  | 0x01 => s.cellWrite c x 0 v
  | 0x02 => s.cellWrite c x 1 v
  | 0x03 => s.cellWrite c x 2 v
  | 0x04 => (s.rready c x).bind fun _ s => .ok () (s.modCtx c x fun t =>
      let g := t.rtop
      { t with rstk := t.rstk.set (rEntry g (t.rtag[g].count.toNat + 7)) v, rtag := t.rtag.set g { t.rtag[g] with dirty := true } })
  | 0x05 => .ok () (setU s)
  | 0x06 => (s.cellWrite c x 0 v).bind fun _ s => .ok () (setU s)
  | 0x07 => (s.cellWrite c x 1 v).bind fun _ s => .ok () (setU s)
  | 0x08 => .ok () (s.modCore c fun k => { k with ucnt := bits v 0 4 })
  | 0x0A => .ok () (s.modCtx c x fun t => { t with priv := if (bits v 0 2 : BitVec 2) = 2 then 1 else bits v 0 2 })
  | 0x0B => .fault s (if ram then bits v 0 8 ||| 0x80 else bits v 0 8) 0
  | _ => .ok () s

/-- The cells that WB names, by their place below the top. -/
def wbCells (w : UWord) : List Nat :=
  match ufield w 80 5 with
  | 0x01 => [0]
  | 0x02 => [1]
  | 0x03 => [2]
  | 0x06 => [0]
  | 0x07 => [1]
  | _ => []

/-- The micro-register that WB names (R163). -/
def wbUreg (w : UWord) : Option (Fin 16) := if [5, 6, 7].contains (ufield w 80 5) then some (ureg w 27) else none

/-- The kind of long operation that MUL or MEM starts. -/
def longKind (w : BitVec 144) : Option LongKind :=
  let rem := w.getLsbD 64
  match ufield w 43 3 with
  | 2 => some .mulw
  | 3 => some .mulwu
  | 4 => some (if rem then .mod else .div)
  | 5 => some (if rem then .modu else .divu)
  | 6 => some .sqrt
  | _ => if ufield w 89 5 = 0x0C then some .ldf else none

/-- The cells, by their place below the top, that the word writes after its stack part: the two of a wide product, else those of WB. -/
def destCells (w : UWord) : List Nat :=
  match longKind w with
  | some k => if k.multiply then [1, 0] else wbCells w
  | none => wbCells w

/-- Starts the word's long operation, after the stack has moved: its cells and its micro-register are pending (R167, R168, R173). One
whose result goes to neither is complete at once: the result goes where WB says, and a zero divisor's fault is known at once
(DESIGN CHOICE, log 51). -/
def State.ulong (s : State) (c : CoreId) (x : CtxId) (w : BitVec 144) (kind : LongKind) (a b addr : Word) : Res (Option Word) :=
  let t := s.ctx c x
  let dest := (destCells w).map t.cellEntry
  let reg := if kind.multiply then none else wbUreg w
  if dest.isEmpty && reg.isNone then
    if kind = .ldf then (s.fabricLoad c x addr 4 false).bind fun v s => .ok (some v) s
    else
      let r := longResult kind a b
      .ok r.1.head? (if r.2 then s.knowFault c x fcDivZero t.pc else s)
  else if kind = .ldf then (s.ldfStart c x addr dest reg).bind fun _ s => .ok none s
  else .ok none (s.longStart c x { kind := kind, a := a, b := b, dest := dest, pc := t.pc, ureg := reg })

/-- The faults of a word's LDF at issue. -/
def State.uldfCheck (s : State) (c : CoreId) (x : CtxId) (w : BitVec 144) (addr : Word) : Res Unit :=
  match (if longKind w = some .ldf then s.ldfCheck c x addr else none) with
  | some code => .fault s code addr
  | none => .ok () s

/-- A word that starts a long operation waits for room for it. -/
def State.ulongRoom (s : State) (c : CoreId) (x : CtxId) (w : BitVec 144) : Res Unit :=
  match longKind w with
  | some kind => s.longRoom c x kind
  | none => .ok () s

/-! ## Micro-registers that are pending (R173) -/

/-- The micro-registers that a word reads or writes. -/
def namedUregs (w : UWord) : List (Fin 16) :=
  let sel (n : Nat) : Bool := ufield w 104 4 == n || ufield w 100 4 == n
  let madr (n : Nat) : Bool := ufield w 89 5 != 0 && ufield w 85 4 == n
  let conds := condsRead w
  (if sel 4 || madr 3 || madr 8 || conds.any (fun i => 0x20 ≤ i && i < 0x30) then [ureg w 35] else []) ++
  (if sel 5 || madr 4 || ufield w 89 5 == 9 || (ufield w 48 3 != 0 && ufield w 46 2 == 2) || ufield w 39 4 == 3 ||
      conds.any (· == 0x14) then [ureg w 31] else []) ++
  (if madr 5 then [ureg w 27] else []) ++ (wbUreg w).toList ++
  (if ufield w 59 2 == 0 && (ufield w 120 4 == 6 || ufield w 120 4 == 7) then [15] else [])

/-- A word waits for a micro-register that a long operation of its context has still to write. -/
def State.uregsReady (s : State) (c : CoreId) (x : CtxId) (w : UWord) : Res Unit :=
  let late (i : Fin 16) : Option LongOp := (s.ctx c x).longs.find? fun o => o.ureg == some i
  match (namedUregs w).find? fun i => (late i).isSome with
  | some i => match late i with | some o => s.longWait c x o (.ureg i) | none => .ok () s
  | none => .ok () s

/-! ## The stack part (R172 step 4) -/

/-- Every one of the cells is there. -/
def State.cellsThere (c : CoreId) (x : CtxId) : List Nat → State → Res Unit
  | [], s => .ok () s
  | i :: l, s => (s.cellThere c x i).bind fun _ s => State.cellsThere c x l s

/-- The stack field: return part, after the data part (R172 step 4). A pushed return entry holds a free value until WB writes it. -/
def State.ustackRet (s : State) (c : CoreId) (x : CtxId) (w : BitVec 144) (v : Word) : Res Unit :=
  match ufield w 94 3 with
  | 1 => s.rpush c x v
  | 2 => (s.rpop c x).bind fun _ s => .ok () s
  | 3 => (s.enter c x).bind fun _ s => .ok () s
  | 4 => (s.leave c x).bind fun _ s => .ok () s
  | _ => .ok () s

/-- The stack field's two parts, and the presence of what WB names then. `n`: where the word's free values for pushed cells begin. -/
def State.ustack (s : State) (c : CoreId) (x : CtxId) (w : UWord) (n : Nat) : Res Unit :=
  let d := dataPart w
  (s.cellsMove c x d.1 ((List.range d.2).map fun i => Config.freeWord (n + i))).bind fun _ s =>
  (s.ustackRet c x w (Config.freeWord (n + 2))).bind fun _ s =>
  (State.cellsThere c x (destCells w) s).bind fun _ s => if ufield w 80 5 = 4 then s.rready c x else .ok () s

/-! ## Which fault is reported (R84) -/

/-- The place of a code in the order of R84, up to the checks of addresses and pins: a word that meets several reports the first. Data
errors and the faults of a spill or fill come after all of these. -/
def faultRank (code : Byte) : Option Nat :=
  [fcIllegal, fcUserOp, fcBkpt, fcFrameUnder, fcFrameOver, fcRstkUnder, fcFStack, fcRange, fcAlign, fcCounted, fcPriv, fcUnmapped,
   fcRsvRange, fcRdonly, fcPinOwn].findIdx? (· == code)

/-- The fault that a piece of a word ends in, where R84 has it among the checks. -/
def Res.check {α : Type} (r : Res α) : Option (Nat × Byte × Word) :=
  match r with
  | .fault _ code a => (faultRank code).map fun n => (n, code, a)
  | _ => none

/-- The first of them. -/
def firstFault (l : List (Option (Nat × Byte × Word))) : Option (Byte × Word) :=
  ((l.filterMap id).foldl (fun (b : Option (Nat × Byte × Word)) q =>
    match b with
    | some p => if q.1 < p.1 then some q else some p
    | none => some q) none).map (·.2)

/-- A piece that only waits is tried for its wait; nothing else of it is kept. -/
def Res.waits {α : Type} (r : Res α) (s : State) : Res Unit :=
  match r with
  | .wait s' w => .wait s' w
  | .hold s' => .hold s'
  | _ => .ok () s

/-! ## One word -/

/-- UCNT, and the flags from the word's result (R166); `u` are the micro-registers at its start. -/
def Core.uflags (k : Core) (w : BitVec 144) (u : Vector Word 16) (o : AluOut) (r : Word) : Core :=
  let k : Core := match ufield w 39 4 with
    | 1 => { k with ucnt := if k.ucnt = 0 then 0 else k.ucnt - 1 }
    | 2 => { k with ucnt := bits w 64 4 }
    | 3 => { k with ucnt := bits u[ureg w 31] 0 4 }
    | _ => k
  let k : Core := if w.getLsbD 26 then { k with flagZ := r == 0, flagN := r.msb, flagC := o.c, flagV := o.v } else k
  match ufield w 23 3 with
  | 1 => { k with flagF0 := true }
  | 2 => { k with flagF0 := false }
  | 3 => { k with flagF0 := k.flagZ }
  | 4 => { k with flagF0 := k.flagC }
  | 5 => { k with flagF0 := k.flagN }
  | 6 => { k with flagF0 := k.flagV }
  | _ => k

/-- Free values a word may draw: three cells, a return entry, two pushed cells, a pushed return entry, a product. -/
def drawn : Nat := 8

/-- What a word computes before it acts (R172, steps 1 and 2). -/
structure UCalc where
  q       : USrc
  a       : Word
  b       : Word
  alu     : AluOut
  /-- the word's result -/
  r       : Word
  addr    : Word
  product : Word

/-- Steps 1 and 2; `n` is where the word's free values begin. -/
def State.ucalc (s : State) (c : CoreId) (x : CtxId) (e : UEnv) (w : UWord) (n : Nat) : UCalc :=
  let k := s.core[c]
  let q := s.usrc c x n
  let a := s.source c x e w q (ufield w 104 4)
  let b := s.source c x e w q (ufield w 100 4)
  let o := alu (ufield w 108 6) a b k.flagC k.flagF0
  let amount : Word := match ufield w 46 2 with
    | 0 => b
    | 1 => BitVec.ofNat 32 (ufield w 64 5)
    | 2 => k.u[ureg w 31]
    | _ => 8
  let product : Word := if ufield w 62 2 = 0 then Config.freeWord (n + 7) else a * b
  let r := if ufield w 43 3 = 1 then product else shifter (ufield w 48 3) o.r amount
  { q := q, a := a, b := b, alu := o, r := r, addr := s.uaddr c x w q r, product := product }

/-- The cells whose results a word waits for: its sources, what it pops, what its parts name, and what WB writes. -/
def waitCells (w : UWord) : List Nat :=
  let d := dataPart w
  (sourceCells w ++ namedCells w ++ List.range d.1 ++
    (destCells w).filterMap fun i => if d.2 ≤ i then some (i - d.2 + d.1) else none).dedup

/-- The checks before a word acts: the first fault of R84, then everything it may have to wait for. -/
def State.wordChecks (s : State) (c : CoreId) (x : CtxId) (w : UWord) (v : UCalc) (n : Nat) : Res Unit :=
  let d := dataPart w
  let cells := s.cellsReady c x (cellEffect w) d.1 d.2 (waitCells w)
  let ret := if ufield w 104 4 = 3 ∨ ufield w 100 4 = 3 then s.rready c x else .ok () s
  match firstFault
      [(s.must (ufield w 59 2 != 3 || x != fCtx) fcIllegal).check, (s.must (ufield w 51 4 != 1 || s.bkptHalts c) fcBkpt).check,
       cells.check, ret.check, (s.ustack c x w n).check, (s.utrn c x w v.q).check, (s.upin c x w v.q).check,
       (s.uldfCheck c x w v.addr).check, (s.umem c x w v.addr v.r).check] with
  | some f => .fault s f.1 f.2
  | none =>
    cells.bind fun _ s =>
    (if ufield w 104 4 = 3 ∨ ufield w 100 4 = 3 then s.rready c x else .ok () s).bind fun _ s =>
    (s.uregsReady c x w).bind fun _ s =>
    (s.ulongRoom c x w).bind fun _ s =>
    ((s.utrn c x w v.q).waits s).bind fun _ s => (s.ustack c x w n).waits s

/-- BKPT and YIELD inside a routine act at a trap point only (R179): the core halts there, or the thread is saved and gives way. A YIELD
at another word does nothing (DESIGN CHOICE, log 52). -/
def State.uevtInside (s : State) (c : CoreId) (x : CtxId) (code : Nat) (trap : Bool) : State :=
  if code = 1 then
    if trap then s.coreHalt c 1 else s.modCore c fun k => { k with haltReq := some 1 }
  else if code = 2 ∧ trap ∧ s.core[c].holder = threadOf x ∧ s.core[c].holder.isSome ∧ s.core[c].rival x then
    (s.saveSlot c x).yieldNow c x
  else s

/-- A BKPT of an earlier word of the routine halts the core here. -/
def State.bkptDue (s : State) (c : CoreId) : State := if s.core[c].haltReq = some 1 then s.bkptStop c else s

/-- Steps 6 and 7 and the end of a word: `m` is what its memory access delivered. -/
def State.wordEnd (s : State) (c : CoreId) (x : CtxId) (e : UEnv) (w : UWord) (ram : Bool) (p : UPos) (u : Vector Word 16)
    (value : Word) (late : Late) : Res (UEnd × Late) :=
  let npc := if ufield w 80 5 = 0x09 then some value else p.npc
  let trap := w.getLsbD 61 && ufield w 120 4 != 8
  let evt := ufield w 51 4
  let atEnd : Late := fun s =>
    let s := late s
    if evt = 1 then s.bkptStop c else (if evt = 2 then s.yieldNow c x else s).bkptDue c
  let flow (f : Flow) : Flow := if evt = 1 then .stay else f
  match ufield w 59 2 with
  | 0 =>
    let count := s.core[c].ucnt
    let (next, s) := s.unext c x e w u p.upc
    .ok (.cont { upc := s.guarded ram next, npc := npc, trap := trap, ucnt := count },
      fun s => (late s).uevtInside c x evt trap) s
  | 1 => .ok (.fin (flow .seq) false, atEnd) s
  | 2 => .ok (.fin (flow (.jump (npc.getD e.npc))) false, atEnd) s
  | _ => .ok (.fin (flow .seq) (evt != 1), atEnd) s

/-- A word's work in the order of R172, to the end of step 7. A precise fault leaves it without effect: nothing but its memory access is
made before the last thing that can fault. -/
def State.microWord (s0 : State) (c : CoreId) (x : CtxId) (e : UEnv) (w : BitVec 144) (ram : Bool) (p : UPos) : Res (UEnd × Late) :=
  let n := s0.freeCtr
  let s : State := { s0 with freeCtr := n + drawn }
  let u := s.core[c].u
  let v := s.ucalc c x e w n
  (s.wordChecks c x w v (n + 4)).bind fun _ s =>
  (s.umem c x w v.addr v.r).bind fun m s =>
  (s.ustack c x w (n + 4)).bind fun _ s =>
  (match longKind w with | some kind => s.ulong c x w kind v.a v.b v.addr | none => .ok none s).bind fun lv s =>
    let value := match lv with | some l => l | none => m.1.getD v.r
    let writes (s : State) : Res Unit :=
      match longKind w, lv with
      | some _, none => .ok () s
      | _, _ => s.uwb c x w ram value
    (writes s).bind fun _ _ =>
    (s.utrn c x w v.q).bind fun xt s =>
    (s.upin c x w v.q).bind fun xp s =>
      let le := s.uevt c x e w v.q v.r
      (writes (le.2.spilled s0 c x)).bind fun _ s =>
        let s := s.modCore c fun k =>
          let k : Core := if ufield w 43 3 = 1 then { k with mullo := v.product } else k
          let k : Core := match m.1 with
            | some d => if ufield w 89 5 = 0x0B then k else { k with mdr := d }
            | none => k
          let k : Core := match xt, xp with
            | some d, _ => { k with xin := d }
            | none, some d => { k with xin := d }
            | none, none => k
          k.uflags w u v.alu v.r
        s.wordEnd c x e w ram p u value fun s => m.2 (le.1 s)

end Sys2Proof.Machine
end

