-- ==== Sys2Proof/Machine/Issue.lean ====
section
/-! DEFINITION. An instruction of a context: whether it may issue, its fetch, its routine in the control store, and how it ends
(R58, R72, R83 to R85, R119, R121 to R133, R135 to R139, R148, R160, R177 to R183, R190 to R194). -/

namespace Sys2Proof.Machine

open Sys2Proof


/-! ## Who issues (R123 to R126, R154, R185, R467, R470) -/

/-- A thread in a stall tries again, so that the stall may become a switch (R136). -/
def Ctx.retries (t : Ctx) (k : Core) (x : CtxId) : Bool :=
  match t.waitFor with
  | some w => w.stalls && k.switches x && t.atTrap
  | none => false

/-- Context `x` of core `c` may issue now, in native or in F16 mode (R75). A routine of another context in X gives way to F and to the
counted thread at a trap point (R123). While F is READY no thread issues, though F itself may be waiting (DESIGN CHOICE, log 53), and a
fast entry that can be made goes ahead of every thread. -/
def State.mayIssue (s : State) (c : CoreId) (x : CtxId) (f16 : Bool) : Bool :=
  let k := s.core[c]
  let t := k.ctx[x]
  let mine := k.midRoutine == some x
  s.coreRuns c && t.st == .ready && t.f16 == f16 && (s.waitOver c x || t.retries k x) &&
  (t.inRoutine || (t.impKnown.isEmpty && t.cntdNext.isNone)) && (!t.stopReq || mine) &&
  (!k.halted || (k.stepping && !k.stepRan && k.stepCtx == BitVec.ofNat 4 x.val)) &&
  (match k.midRoutine with | some y => y == x || ((x == fCtx || t.cntd) && k.takeable) | none => true) &&
  (x == fCtx ||
    ((k.ctx[fCtx]).st != .ready && !(s.fastDue c && k.takeable) &&
      (t.cntd || (k.holder == threadOf x && (mine || !(k.spent && k.rival x))))))

/-- The routine of another context in X, which stands at a trap point, is saved (R123, R139). -/
def State.makeRoom (s : State) (c : CoreId) (x : CtxId) : State := if s.core[c].midRoutine = some x then s else s.takeX c

/-! ## Fetch (R73, R84 item 1, R130, R131, R148, R305) -/

/-- A piece whose faults involve no data access. -/
def Res.noData {α : Type} (r : Res α) : Res α :=
  match r with
  | .fault s code _ => .fault s code 0
  | r => r

/-- Reads the words of a scratchpad line; an uncorrectable one is an ECC fault. -/
def State.readRow (c : CoreId) (x : CtxId) (a : Word) : List Nat → State → Res Unit
  | [], s => .ok () s
  | w :: l, s => (s.ctxRead c x a w).bind fun _ s => State.readRow c x a l s

/-- A context may not fetch from this line (R35, R82, R148). -/
def State.fetchBad (s : State) (c : CoreId) (t : Ctx) (a : Word) : Option Byte :=
  let g := target (some c) a
  if t.counted then
    match g with
    | .spad _ .plain true => none
    | .pinned _ => none
    | _ => some fcCounted
  else match g with
    | .spad w _ _ =>
      if isSecure w && !isSecPriv t.priv then some fcPriv else if s.destroyed w then some fcUnmapped else none
    | .ctl => some fcUnmapped
    | .unmapped => some fcUnmapped
    | _ => none

/-- A refill of the line at line address `a` (R130, R291, R305). -/
def State.refill (s : State) (c : CoreId) (x : CtxId) (a : Word) : Res Unit :=
  let t := s.ctx c x
  match s.fetchBad c t a with
  | some code => .fault (s.noteSecure c a code) code 0
  | none =>
    (match target (some c) a with
     | .spad w _ own =>
       (State.readRow c x a ((List.range 8).map fun i => w + 4 * i) s).also fun s => if own then s else s.count c x 0x21
     | .pinned off => (s.pinSlot c a off).bind fun _ s => .ok () s
     | .fabric cached =>
       if s.core[c].lineBuffered (s.fabAddr a) then .wait (s.count c x 0x1E) (.storeOverlap a 32)
       else if cached then (s.cachedLine c x a (lineOf a) true).bind fun _ s => .ok () s
       else
         match t.servedLine (lineOf a) with
         | some (.ok _) => .ok () s
         | some (.error code) => .fault s code a
         | none => .wait (if t.ahead = some a then s else s.fabAsk { core := c, kind := .load x a, addr := s.fabAddr a }) (.fabric a)
     | _ => (s.cachedLine c x a (lineOf a) true).bind fun _ s => .ok () s).noData.also fun s =>
      (s.modCtx c x fun t =>
        { (t.buffer a) with served := if (t.servedLine (lineOf (cachedForm a))).isSome then none else t.served }).count c x 0x11

/-- The 16 bytes that a branch-target-buffer entry holds serve the decoder for the `n` bytes at THR_PC (R132). -/
def Ctx.inEntry (t : Ctx) (n : Nat) : Bool :=
  match t.btbAt with
  | some p => decide ((t.codeAddr 0 - p).toNat + n ≤ 16)
  | none => false

/-- The lines that the first `n` bytes of the instruction need are in the fetch buffer, or the bytes come from a branch-target-buffer
entry, or the lines are refilled (R131, R132). A context that may not fetch there faults all the same. -/
def State.fetch (s : State) (c : CoreId) (x : CtxId) (n : Nat) : Res Unit :=
  let t := s.ctx c x
  let a := t.codeAddr 0 &&& 0xFFFFFFE0
  let b := t.codeAddr (n - 1) &&& 0xFFFFFFE0
  let need (l : Word) (s : State) : Res Unit :=
    if (s.ctx c x).fbuf.contains l then .ok () s
    else if t.inEntry n then
      match s.fetchBad c t l with
      | some code => .fault (s.noteSecure c l code) code 0
      | none => .ok () s
    else s.refill c x l
  (need a s).bind fun _ s => if a = b then .ok () s else need b s

/-! ## Taken branches (R132, R133, R156) -/

/-- The branch-target buffer serves a context: BTB_EN, which does not affect F (R156). -/
def Core.btbOn (k : Core) (x : CtxId) : Bool := k.btbEn || x == fCtx

/-- The branch-target buffer has the target of a taken branch. -/
def Core.btbHit (k : Core) (x : CtxId) (from_ to_ : Word) : Bool :=
  k.btbOn x && match k.btb.find? fun e => e.branch == from_ with | some e => e.target == to_ | none => false

/-- The branch-target buffer after a taken branch: a wrong target is replaced, a new branch joins, the oldest entry giving way; one whose
target the context may not fetch does not join. -/
def State.btbAfter (s : State) (c : CoreId) (x : CtxId) (from_ to_ : Word) : List BtbEntry :=
  let k := s.core[c]
  if !k.btbOn x then k.btb
  else match k.btb.find? fun e => e.branch == from_ with
  | some e => if e.target = to_ then k.btb else k.btb.map fun e => if e.branch = from_ then { e with target := to_ } else e
  | none =>
    if (s.fetchBad c k.ctx[x] (to_ &&& 0xFFFFFFE0)).isSome then k.btb
    else (if k.btb.length < 64 then k.btb else k.btb.drop 1) ++ [⟨from_, to_⟩]

/-- A taken branch, of SYS too, which R133 does not name beside the others (DESIGN CHOICE, log 54); a counted thread's leaves the buffer
alone (R149). -/
def State.tookBranch (s : State) (c : CoreId) (x : CtxId) (from_ to_ : Word) : State :=
  let s := s.count c x 0x0E
  if (s.ctx c x).cntd then s
  else
    let hit := s.core[c].btbHit x from_ to_
    let btb := s.btbAfter c x from_ to_
    ((s.modCore c fun k => { k with btb := btb }).modCtx c x fun t => { t with btbAt := if hit then some to_ else none }).count c x
      (if hit then 0x0F else 0x10)

/-! ## The end of an instruction (R83, R124, R135, R178) -/

/-- An issue by `x` counts against the quantum while another thread waits (R124, R125). -/
def Core.issued (k : Core) (x : CtxId) : Core :=
  let shared := x != fCtx && !k.ctx[x].cntd
  { k with last := some x, qcount := if shared then (if k.rival x then k.qcount + 1 else 0) else k.qcount }

/-- The core at the end of an instruction issued at privilege `p`, completed or faulted: a secure-privileged one clears the
micro-registers, a vendor routine's values in them are open (R178). -/
def Core.ended (k : Core) (x : CtxId) (p : BitVec 2) (vendor : Bool) : Core :=
  let k := k.issued x
  let k : Core := { k with stepRan := k.stepping }
  if p = 3 then { k with u := Vector.replicate 16 0, ucnt := 0, uFree := false }
  else if vendor then { k with uFree := true } else k

/-- The context at the end of an instruction, with THR_PC at `to_`. -/
def Ctx.ended (t : Ctx) (to_ : Word) : Ctx :=
  ({ t with pc := to_, waitFor := none, served := none, redo := false, routine := none, moved := none, seen := 0, image := none } :
    Ctx).rejoin

/-- The completed instruction is counted (R485). -/
def State.countEnd (s : State) (c : CoreId) (x : CtxId) : State :=
  let s := s.count c x 0x02
  if (s.ctx c x).cntd then s.count c x 0x05 else s

/-- The instruction at THR_PC is done; `npc` is the address after it, `p` the privilege it issued at, `vendor` says that its routine
was the vendor's. -/
def State.finish (s : State) (c : CoreId) (x : CtxId) (npc : Word) (p : BitVec 2) (vendor : Bool) (d : Done) : State :=
  let pc := (s.ctx c x).pc
  let to_ : Word := match d.flow with | .seq => npc | .jump a => a | .stay => pc
  let s := s.modCtx c x fun t => t.ended to_
  let s := match d.flow with | .jump a => s.tookBranch c x pc a | _ => s
  d.late ((s.countEnd c x).modCore c fun k => k.ended x p vendor)

/-- What an instruction that did not complete leaves of its context: its fetch buffer, a reservation it lost, and the words that a spill
or fill has done (R51, R83). -/
def State.undo (s s0 : State) (c : CoreId) (x : CtxId) : State :=
  (s.modCtx c x fun t => { s0.ctx c x with fbuf := t.fbuf, rsv := t.rsv, served := t.served, ahead := t.ahead,
                                           moved := t.moved, spillKind := t.spillKind, seen := 0 }).modCore c fun k =>
    { k with staging := (s0.core[c]).staging }

/-- A precise fault ends the instruction, as an issue. -/
def State.endFault (s : State) (c : CoreId) (x : CtxId) (code : Byte) (a : Word) (dbl vendor : Bool) : State :=
  let s := s.modCore c fun k => k.ended x (s.ctx c x).priv vendor
  if dbl then s.doubleFault c x code a else s.preciseFault c x code a

/-- The context stands inside the routine `r`; no micro-trap has taken it. -/
def State.standIn (s : State) (c : CoreId) (x : CtxId) (r : Routine) : State := s.modCtx c x fun t => { t with routine := some r }

/-- An instruction that cannot go on stands in `r` where its spill or fill has begun (R51), else it is discarded (R139). -/
def State.standing (s : State) (c : CoreId) (x : CtxId) (r : Routine) : State :=
  if (s.ctx c x).moved.isSome then s.standIn c x r else s

/-- The end of an instruction that issued in state `s0`, and stands in `r` inside a spill or fill of it. `keep`: what it did to its context
before a fault stays (R83). -/
def State.conclude (s0 : State) (c : CoreId) (x : CtxId) (npc : Word) (keep : Bool) (r : Routine) (q : Res Done) : State :=
  match q with
  | .ok d s => s.finish c x npc (s0.ctx c x).priv true d
  | .fault s code a => (if keep then s else s.undo s0 c x).endFault c x code a false true
  | .dfault s code a => (s.undo s0 c x).endFault c x code a true true
  | .wait s w => ((s.undo s0 c x).standing c x r).enterWait c x w
  | .hold s => (s.undo s0 c x).standing c x r

/-! ## Routines run word by word (R119, R160, R177 to R183) -/

/-- Resumption from the micro-save slot: what R166 lists is lost (R57, R180). A routine that nothing has taken goes on as it stands. -/
def State.unsave (s : State) (c : CoreId) (x : CtxId) : State :=
  let t := s.ctx c x
  if t.slot.valid then
    (s.modCore c fun k =>
      { k with u := t.slot.u, ucnt := t.slot.ucnt, flagZ := false, flagN := false, flagC := false, flagV := false, flagF0 := false,
               mdr := 0, mullo := 0, xin := 0, opnd := 0, uFree := false }).modCtx c x
      fun t => { t with slot := { t.slot with valid := false } }
  else s

/-- The service words (R157): what they raise. -/
def serviceFault (a : BitVec 12) : Option Byte :=
  if 0xA00 ≤ a.toNat ∧ a.toNat < 0xC00 then
    some (if a = 0xBFD then fcUserOp else if a = 0xBFE then fcPriv else fcIllegal)
  else none

/-- The context that read an uncorrectable word is parked (R160, R181). -/
def State.parkBad (s : State) (c : CoreId) (x : CtxId) (r : Routine) : State := (s.standIn c x r).parkAbandoned c x

/-- One word of a routine at `p`, from the store as patched. The result is the next place, or the state in which the run ends. -/
inductive UStep where
  | on (s : State) (p : UPos)
  | fin (s : State)

/-- The word's pass where it is a WAIT word whose condition is 0: the routine stands at it (R175, R179). END makes BRMODE ignored (R176). -/
def State.passes (s : State) (c : CoreId) (x : CtxId) (e : UEnv) (w : UWord) : Bool :=
  ufield w 59 2 == 0 && ufield w 120 4 == 8 && !s.condition c x e w s.core[c].u (ufield w 114 6)

/-- A word that cannot go on: the first word of an instruction leaves nothing, another one leaves the routine standing before it. -/
def State.wordHeld (s : State) (c : CoreId) (x : CtxId) (fresh : Bool) (r : Routine) : State :=
  if fresh then s.standing c x r else s.standIn c x r

def State.microStep (s : State) (c : CoreId) (x : CtxId) (e : UEnv) (r : UPos → Routine) (fresh : Bool) (p : UPos) : UStep :=
  let upc := s.core[c].patched p.upc
  match s.readStore c upc with
  | (none, s) => .fin (s.parkBad c x (r { p with upc := upc }))
  | (some w, s) =>
    match serviceFault upc with
    | some code => .fin (s.endFault c x code 0 false false)
    | none =>
      let s := s.count c x 0x04
      if s.passes c x e w then .fin (s.standIn c x (r { p with trap := w.getLsbD 61, ucnt := s.core[c].ucnt }))
      else match s.microWord c x e w (isRam upc) { p with upc := upc } with
        | .ok (.cont q, late) s' =>
          let s' := late ((s'.modCtx c x fun t =>
            { t with served := none, waitFor := none, moved := none, seen := 0 }).standIn c x (r q))
          let s' := if q.trap then s'.bkptDue c else s'
          if (s'.ctx c x).st = .ready ∧ !(s'.ctx c x).slot.valid then .on s' q else .fin s'
        | .ok (.fin f sleep, late) s' =>
          let f := match f with | .jump a => .jump ((s'.ctx c x).dataAddr a) | f => f
          .fin (s'.finish c x e.npc (s.ctx c x).priv false
            { flow := f, late := fun s => late (if sleep then s.sleepNow c x else s) })
        | .fault s' code a => .fin ((s'.undo s c x).endFault c x code a false false)
        | .dfault s' code a => .fin ((s'.undo s c x).endFault c x code a true false)
        | .wait s' v => .fin (((s'.undo s c x).wordHeld c x fresh (r p)).enterWait c x v)
        | .hold s' => .fin ((s'.undo s c x).wordHeld c x fresh (r p))

/-- Words of a routine one after another, `words` of them at most; `fuel` bounds one step. A routine that is not done goes on in the
next step, unless something takes it where it stands. -/
def State.microRun (c : CoreId) (x : CtxId) (e : UEnv) (r : UPos → Routine) : Nat → Nat → Bool → State → UPos → State
  | 0, _, _, s, _ => s
  | _, 0, _, s, _ => s
  | fuel + 1, words + 1, fresh, s, p =>
    match s.microStep c x e r fresh p with
    | .on s p => State.microRun c x e r fuel words false s p
    | .fin s => s

/-- Words run in one step, at most. -/
def microFuel : Nat := 64

/-! ## A native instruction -/

/-- The first bytes of an instruction: opcode, page byte, operand bytes and how many (R70, R71). -/
structure Enc where
  op    : Byte
  page  : Option Byte := none
  opnd  : Word := 0
  width : Nat := 0
  deriving DecidableEq, Repr

def Enc.len (e : Enc) : Nat := 1 + (if e.page.isSome then 1 else 0) + e.width

/-- Its index in the dispatch table (R157, R189). -/
def Enc.index (e : Enc) : BitVec 12 :=
  match e.page with
  | none => e.op.setWidth 12
  | some p => 0x100#12 ||| p.setWidth 12

def Enc.env (e : Enc) (npc : Word) : UEnv := { op := e.op, page := e.page.getD 0, opnd := e.opnd, width := e.width, npc := npc }

def Enc.routine (e : Enc) (p : UPos) : Routine := .micro e.op (e.page.getD 0) e.opnd e.width e.len p

/-- Where the instruction stands inside a spill or fill of it. -/
def Enc.inSpill (e : Enc) : Routine := .stack e.op (e.page.getD 0)

/-- An enabled patch register redirects the vendor routine that starts at `a`, at its start or inside it (R182). -/
def Core.redirects (k : Core) (a : BitVec 12) : Bool :=
  k.patch.toList.any fun p => p.getLsbD 31 && !isRam (bits p 0 12) && romUses a (bits p 0 12)

/-- A word of the routine that starts at `a` with an uncorrectable error (R160); a word that a patch replaces is not read. -/
def Core.badWord (k : Core) (a : BitVec 12) : Option (BitVec 12) :=
  ((k.csBad.filter fun b => b < 0xC00).map (BitVec.ofNat 12)).find? fun b => k.patched b == b && romUses a b

/-- Single-bit errors in the words that the routine from `a` reads are counted (R160). -/
def State.romReads (s : State) (c : CoreId) (a : BitVec 12) : State :=
  (s.core[c].csCorr.filter fun b => decide (b < 0xC00) && s.core[c].patched (BitVec.ofNat 12 b) == BitVec.ofNat 12 b &&
    romUses a (BitVec.ofNat 12 b)).foldl (fun s b => (s.readStore c (BitVec.ofNat 12 b)).2) s

/-- A routine begins at its first word. -/
def State.microStart (s : State) (c : CoreId) (x : CtxId) (e : Enc) (upc : BitVec 12) (words : Nat) : State :=
  let s := (s.openRegs c).modCore c fun k => { k with opnd := e.opnd }
  State.microRun c x (e.env ((s.ctx c x).codeAddr e.len)) e.routine microFuel words true s { upc := upc }

/-- A routine goes on where it stands: `e` gives the instruction it must be. A slot that WINDAT restored names none. -/
def State.microResume (s : State) (c : CoreId) (x : CtxId) (e : Enc) (words : Nat) : State :=
  let t := s.ctx c x
  match t.routine with
  | none => State.microRun c x (e.env (t.codeAddr e.len)) e.routine microFuel words false (s.unsave c x) { upc := t.slot.upc }
  | some (.micro op page opnd width len p) =>
    if op = e.op ∧ page = e.page.getD 0 then
      let e' : Enc := { op := op, page := e.page, opnd := opnd, width := width }
      State.microRun c x (e'.env (t.codeAddr len)) e'.routine microFuel words false (s.unsave c x) p
    else s
  | some _ => s

/-! ## Routines that the hardware enters by itself: spill, fill, entries (R160, R182) -/

/-- What the read of a routine's first words comes to: the routine runs, a word of it is not correctable, or a patch word at its start
faults. -/
inductive Reached where
  | runs (s : State)
  | bad (s : State) (a : BitVec 12)
  | fault (s : State) (code : Byte) (a : Word)

/-- RAM words that a patch puts at the start of such a routine, one after another, up to a transfer to ROM or an END: what they do comes
before the routine's own effect (DESIGN CHOICE, log 55). A word that would wait ends them. -/
def State.ramWords (c : CoreId) (x : CtxId) (e : UEnv) : Nat → State → UPos → Reached
  | 0, s, _ => .runs s
  | fuel + 1, s, p =>
    let upc := s.core[c].patched p.upc
    if !isRam upc then .runs s
    else match s.readStore c upc with
      | (none, s) => .bad s upc
      | (some w, s) =>
        let s := s.count c x 0x04
        match s.microWord c x e w true { p with upc := upc } with
        | .ok (.cont q, late) s => State.ramWords c x e fuel (late s) q
        | .ok (.fin _ _, late) s => .runs (late s)
        | .fault s' code a => .fault (s'.undo s c x) code a
        | .dfault s' code a => .fault (s'.undo s c x) code a
        | .wait _ _ => .runs s
        | .hold _ => .runs s

/-- The routine that starts at the ROM word `a` is entered by the hardware itself. -/
def State.reach (s : State) (c : CoreId) (x : CtxId) (e : UEnv) (a : BitVec 12) : Reached :=
  if s.core[c].redirects a && isRam (s.core[c].patched a) then State.ramWords c x e microFuel (s.openRegs c) { upc := a }
  else match s.core[c].badWord a with
    | some b =>
      let s := s.modCore c fun k => { k with cErrAddr := b, cUncorr := true }
      .bad (s.raise (csSrc c) s.core[c].cstat) b
    | none => .runs (s.romReads c a)

/-- The state in which a piece of an instruction ends. -/
def Res.state {α : Type} (r : Res α) : State :=
  match r with
  | .ok _ s => s
  | .fault s _ _ => s
  | .dfault s _ _ => s
  | .wait s _ => s
  | .hold s => s

/-- The meaning `body` of an instruction from `s1`. Where it begins a spill or fill, that routine's words are read first. -/
def State.runBody (s1 : State) (c : CoreId) (x : CtxId) (e : Enc) (npc : Word) (keep : Bool) (body : State → Res Done) : State :=
  let r := body s1
  if (s1.ctx c x).moved.isNone && (r.state.ctx c x).moved.isSome then
    match s1.reach c x (e.env npc) (spillStart (r.state.ctx c x).spillKind) with
    | .runs s2 => s2.conclude c x npc keep e.inSpill (body s2)
    | .bad s2 a => s2.parkBad c x (e.routine { upc := a })
    | .fault s2 code a => s1.conclude c x npc false e.inSpill (.fault s2 code a)
  else s1.conclude c x npc keep e.inSpill r

/-- The fetch of an instruction, and what follows it. -/
def State.afterFetch (s : State) (c : CoreId) (x : CtxId) (n : Nat) (go : State → State) : State :=
  match s.fetch c x n with
  | .ok _ s1 => go s1
  | .fault s1 code a => (s1.undo s c x).endFault c x code a false false
  | .dfault s1 code a => (s1.undo s c x).endFault c x code a true false
  | .wait s1 w => (s1.undo s c x).enterWait c x w
  | .hold s1 => s1.undo s c x

/-- A routine is not run: a word of it that it would read is not correctable (R160). -/
def State.parkRom (s : State) (c : CoreId) (x : CtxId) (e : Enc) (b : BitVec 12) : State :=
  let s := s.modCore c fun k => { k with cErrAddr := b, cUncorr := true }
  (s.raise (csSrc c) s.core[c].cstat).parkBad c x (e.routine { upc := b })

/-- The vendor instruction `e`: fetch, then its meaning, or its routine where a patch redirects it. -/
def State.vendor (s : State) (c : CoreId) (x : CtxId) (e : Enc) (keep : Bool) (body : State → Res Done) : State :=
  let npc := (s.ctx c x).codeAddr e.len
  let a := dispatch e.index
  s.afterFetch c x e.len fun s =>
    if s.core[c].redirects a then s.microStart c x e a microFuel
    else match s.core[c].badWord a with
      | some b => s.parkRom c x e b
      | none => (s.romReads c a).runBody c x e npc keep body

/-- The micro-address lies in the spill and fill part of the ROM (R157). -/
def inSpillPart (a : BitVec 12) : Bool := 0x600 ≤ a.toNat && a.toNat < 0x700

/-- An instruction that stands inside its spill or fill goes on with the next word (R51). Where WINDAT restored the slot, what the words
had read or written is not known any more, and the spill or fill begins again (DESIGN CHOICE, log 56). -/
def State.spillResume (s : State) (c : CoreId) (x : CtxId) (e : Enc) (body : State → Res Done) : Option State :=
  let t := s.ctx c x
  let go : State :=
    let s := (s.unsave c x).modCtx c x fun t =>
      { t with moved := if t.routine.isNone then some [] else t.moved, routine := none }
    s.conclude c x (t.codeAddr e.len) false e.inSpill (body s)
  match t.routine with
  | some (.stack op page) => some (if op = e.op ∧ page = e.page.getD 0 then go else s)
  | none => if inSpillPart t.slot.upc then some go else none
  | some _ => none

/-- An instruction of a native thread: nothing where it cannot issue; the routine it is inside of goes on. -/
def State.issue (s : State) (c : CoreId) (x : CtxId) (e : Enc) (body : State → Res Done) : Ans :=
  if !s.mayIssue c x false then .next s
  else
    let s := s.makeRoom c x
    if (s.ctx c x).inRoutine then
      match s.spillResume c x e body with
      | some s => .next s
      | none => .next (s.microResume c x e microFuel)
    else .next (s.vendor c x e false body)

/-- Meanings that give a target, or none. -/
def Res.done (r : Res (Option Word)) : Res Done :=
  r.bind fun o s => .ok { flow := match o with | some a => .jump a | none => .seq } s

/-- An instruction whose meaning is a change of the stacks, with a taken branch or without. -/
def State.simple (s : State) (c : CoreId) (x : CtxId) (e : Enc) (body : State → Res (Option Word)) : Ans :=
  s.issue c x e fun s => (body s).done

end Sys2Proof.Machine
end

