-- ==== Sys2Proof/Machine/Arith.lean ====
section
/-! DEFINITION. Arithmetic, logic, shifts and compares (R94). -/

namespace Sys2Proof.Machine

open Sys2Proof

/-- ( x -- x' ). -/
def State.unary (s : State) (c : CoreId) (x : CtxId) (e : Enc) (f : Word → Word) : Ans :=
  s.simple c x e fun s => s.stackOp c x 1 [0] 1 fun q => [f (q 0)]

/-- ( x1 x2 -- x3 ). -/
def State.binary (s : State) (c : CoreId) (x : CtxId) (e : Enc) (f : Word → Word → Word) : Ans :=
  s.simple c x e fun s => s.stackOp c x 2 [0, 1] 2 fun q => [f (q 1) (q 0)]

def execAdd (c : CoreId) (x : CtxId) (s : State) : Ans := s.binary c x { op := 0x48 } fun a b => a + b

def execSub (c : CoreId) (x : CtxId) (s : State) : Ans := s.binary c x { op := 0x49 } fun a b => a - b

def execNeg (c : CoreId) (x : CtxId) (s : State) : Ans := s.unary c x { op := 0x4A } fun a => -a

def execAbs (c : CoreId) (x : CtxId) (s : State) : Ans := s.unary c x { op := 0x4B } fun a => absW a

def execAnd (c : CoreId) (x : CtxId) (s : State) : Ans := s.binary c x { op := 0x4C } fun a b => a &&& b

def execOr (c : CoreId) (x : CtxId) (s : State) : Ans := s.binary c x { op := 0x4D } fun a b => a ||| b

def execXor (c : CoreId) (x : CtxId) (s : State) : Ans := s.binary c x { op := 0x4E } fun a b => a ^^^ b

def execNot (c : CoreId) (x : CtxId) (s : State) : Ans := s.unary c x { op := 0x4F } fun a => ~~~a

def execShl (c : CoreId) (x : CtxId) (s : State) : Ans := s.binary c x { op := 0x50 } fun a b => Shift.shl.run a b

def execShr (c : CoreId) (x : CtxId) (s : State) : Ans := s.binary c x { op := 0x51 } fun a b => Shift.shr.run a b

def execSar (c : CoreId) (x : CtxId) (s : State) : Ans := s.binary c x { op := 0x52 } fun a b => Shift.sar.run a b

def execRol (c : CoreId) (x : CtxId) (s : State) : Ans := s.binary c x { op := 0x53 } fun a b => Shift.rol.run a b

def execRor (c : CoreId) (x : CtxId) (s : State) : Ans := s.binary c x { op := 0x54 } fun a b => Shift.ror.run a b

def execInc (c : CoreId) (x : CtxId) (s : State) : Ans := s.unary c x { op := 0x55 } fun a => a + 1

def execDec (c : CoreId) (x : CtxId) (s : State) : Ans := s.unary c x { op := 0x56 } fun a => a - 1

def execAddsb (c : CoreId) (x : CtxId) (s : State) : Ans := s.binary c x { op := 0x57 } fun a b => bytewise addSat8 a b

def execSubsb (c : CoreId) (x : CtxId) (s : State) : Ans := s.binary c x { op := 0x58 } fun a b => bytewise subSat8 a b

def execMul (c : CoreId) (x : CtxId) (s : State) : Ans := s.binary c x { op := 0x59 } fun a b => a * b

def execMin (c : CoreId) (x : CtxId) (s : State) : Ans := s.binary c x { op := 0x5A } fun a b => minS a b

def execMax (c : CoreId) (x : CtxId) (s : State) : Ans := s.binary c x { op := 0x5B } fun a b => maxS a b

def execMinu (c : CoreId) (x : CtxId) (s : State) : Ans := s.binary c x { op := 0x5C } fun a b => minU a b

def execMaxu (c : CoreId) (x : CtxId) (s : State) : Ans := s.binary c x { op := 0x5D } fun a b => maxU a b

def execExtb (c : CoreId) (x : CtxId) (s : State) : Ans := s.binary c x { op := 0x5E } fun a b => extB a b

def execClz (c : CoreId) (x : CtxId) (s : State) : Ans := s.unary c x { op := 0x5F } fun a => clzW a

def execEq (c : CoreId) (x : CtxId) (s : State) : Ans := s.binary c x { op := 0x60 } fun a b => cellOf (a == b)

def execNe (c : CoreId) (x : CtxId) (s : State) : Ans := s.binary c x { op := 0x61 } fun a b => cellOf (a != b)

def execLt (c : CoreId) (x : CtxId) (s : State) : Ans := s.binary c x { op := 0x62 } fun a b => cellOf (a.slt b)

def execGt (c : CoreId) (x : CtxId) (s : State) : Ans := s.binary c x { op := 0x63 } fun a b => cellOf (b.slt a)

def execLtu (c : CoreId) (x : CtxId) (s : State) : Ans := s.binary c x { op := 0x64 } fun a b => cellOf (a.ult b)

def execGtu (c : CoreId) (x : CtxId) (s : State) : Ans := s.binary c x { op := 0x65 } fun a b => cellOf (b.ult a)

def execZeq (c : CoreId) (x : CtxId) (s : State) : Ans := s.unary c x { op := 0x66 } fun a => cellOf (a == 0)

def execZlt (c : CoreId) (x : CtxId) (s : State) : Ans := s.unary c x { op := 0x67 } fun a => cellOf a.msb

/-- SEL: x1 where the flag is true, else x2. -/
def execSel (c : CoreId) (x : CtxId) (s : State) : Ans :=
  s.simple c x { op := 0x68 } fun s => s.stackOp c x 3 [0, 1, 2] 3 fun q => [if q 0 ≠ 0 then q 2 else q 1]

def execAddi8 (c : CoreId) (x : CtxId) (b : Byte) (s : State) : Ans :=
  s.unary c x { op := 0x69, opnd := b.setWidth 32, width := 1 } fun a => a + b.signExtend 32

def execShli (c : CoreId) (x : CtxId) (b : Byte) (s : State) : Ans :=
  s.unary c x { op := 0x6A, opnd := b.setWidth 32, width := 1 } fun a => Shift.shl.run a (b.setWidth 32)

def execShri (c : CoreId) (x : CtxId) (b : Byte) (s : State) : Ans :=
  s.unary c x { op := 0x6B, opnd := b.setWidth 32, width := 1 } fun a => Shift.shr.run a (b.setWidth 32)

def execSari (c : CoreId) (x : CtxId) (b : Byte) (s : State) : Ans :=
  s.unary c x { op := 0x6C, opnd := b.setWidth 32, width := 1 } fun a => Shift.sar.run a (b.setWidth 32)

end Sys2Proof.Machine
end

