-- ==== Sys2Proof/Machine/Block.lean ====
section
/-! DEFINITION. MOVE, FILL, BLIT and BLITK (R105 to R110). -/

namespace Sys2Proof.Machine

open Sys2Proof

inductive BlockOp where
  | move | fill | blit | blitk
  deriving DecidableEq, Repr

def BlockOp.page (o : BlockOp) : Byte := match o with | .move => 0x10 | .fill => 0x11 | .blit => 0x12 | .blitk => 0x13

/-- Operand cells. -/
def BlockOp.cells (o : BlockOp) : Nat := match o with | .move => 3 | .fill => 3 | .blit => 4 | .blitk => 5

def BlockOp.rows (o : BlockOp) : Bool := o == .blit || o == .blitk

/-- The operands as they stand on the stack, by their place below the top. -/
structure BlockArgs where
  src    : Word
  dst    : Word
  /-- FILL's word, or the key -/
  x      : Word := 0
  /-- bytes of a MOVE or FILL; x-size of a BLIT -/
  size   : Word
  stride : Word := 0
  deriving DecidableEq, Repr

def blockArgs (o : BlockOp) (cell : Nat → Word) : BlockArgs :=
  match o with
  | .move => { src := cell 2, dst := cell 1, size := cell 0 }
  | .fill => { src := 0, x := cell 2, dst := cell 1, size := cell 0 }
  | .blit => { src := cell 3, dst := cell 2, size := cell 1, stride := cell 0 }
  | .blitk => { src := cell 4, dst := cell 3, size := cell 2, stride := cell 1, x := cell 0 }

def BlockArgs.cellList (o : BlockOp) (b : BlockArgs) : List Word :=
  match o with
  | .move => [b.src, b.dst, b.size]
  | .fill => [b.x, b.dst, b.size]
  | .blit => [b.src, b.dst, b.size, b.stride]
  | .blitk => [b.src, b.dst, b.size, b.stride, b.x]

def BlockArgs.width (b : BlockArgs) : Nat := (bits b.size 0 16 : BitVec 16).toNat
def BlockArgs.height (b : BlockArgs) : Nat := (bits b.size 16 16 : BitVec 16).toNat
def BlockArgs.srcStride (b : BlockArgs) : Nat := (bits b.stride 0 16 : BitVec 16).toNat
def BlockArgs.dstStride (b : BlockArgs) : Nat := (bits b.stride 16 16 : BitVec 16).toNat

/-- The limits of R106: RANGE before ALIGN (R84). -/
def blockBad (o : BlockOp) (b : BlockArgs) : Option Byte :=
  let odd (n : Nat) : Bool := n % 4 != 0
  if o.rows then
    if odd b.src.toNat || odd b.dst.toNat || odd b.width || odd b.srcStride || odd b.dstStride then some fcAlign else none
  else if 0x3FFFC < b.size.toNat then some fcRange
  else if odd b.src.toNat || odd b.dst.toNat || odd b.size.toNat then some fcAlign
  else none

/-- Words that the instruction moves. -/
def blockWords (o : BlockOp) (b : BlockArgs) : Nat :=
  if o.rows then b.height * (b.width / 4) else b.size.toNat / 4

/-- A MOVE in descending order (R107). -/
def BlockArgs.descends (b : BlockArgs) : Bool := b.src.toNat < b.dst.toNat && b.dst.toNat < b.src.toNat + b.size.toNat

/-- How far it has come: words for MOVE and FILL; rows, and words of the row, for the others. -/
structure BlockPos where
  done : Nat := 0
  row  : Nat := 0
  col  : Nat := 0
  deriving DecidableEq, Repr

/-- Addresses of the next word. -/
def moveAddrs (o : BlockOp) (b : BlockArgs) (p : BlockPos) : Word × Word :=
  let w (n : Nat) : Word := BitVec.ofNat 32 n
  if o.rows then
    (b.src + w (p.row * b.srcStride + 4 * p.col), b.dst + w (p.row * b.dstStride + 4 * p.col))
  else
    let off := if o == .move && b.descends then b.size.toNat - 4 - 4 * p.done else 4 * p.done
    (b.src + w off, b.dst + w off)

def BlockPos.next (p : BlockPos) (o : BlockOp) (b : BlockArgs) : BlockPos :=
  if o.rows then
    if p.col + 1 < b.width / 4 then { p with done := p.done + 1, col := p.col + 1 }
    else { done := p.done + 1, row := p.row + 1, col := 0 }
  else { p with done := p.done + 1 }

/-- The progress count (R110). -/
def BlockPos.progress (p : BlockPos) (o : BlockOp) : Nat := if o.rows then p.row else p.done

/-- The operand cells after a fault: the work that remains (R109). -/
def blockRest (o : BlockOp) (b : BlockArgs) (p : BlockPos) : BlockArgs :=
  let w (n : Nat) : Word := BitVec.ofNat 32 n
  if o.rows then
    { b with src := b.src + w (p.row * b.srcStride), dst := b.dst + w (p.row * b.dstStride), size := b.size - w (p.row * 0x10000) }
  else if o == .move && b.descends then { b with size := b.size - w (4 * p.done) }
  else { b with src := if o == .move then b.src + w (4 * p.done) else b.src, dst := b.dst + w (4 * p.done), size := b.size - w (4 * p.done) }

/-- Byte enables of a BLITK word: the bytes that differ from the key. -/
def keyLanes (v key : Word) : BitVec 4 :=
  BitVec.ofNat 4 ((List.range 4).foldl (fun n i => if (bits v (8 * i) 8 : Byte) = bits key 0 8 then n else n + 2 ^ i) 0)

/-- One word is moved. -/
def State.blockWord (s : State) (c : CoreId) (x : CtxId) (o : BlockOp) (b : BlockArgs) (p : BlockPos) : Res Late :=
  let a := moveAddrs o b p
  match o with
  | .fill => s.storeBytes c x a.2 4 b.x
  | .blitk => (s.loadBytes c x a.1 4 false).bind fun v s => s.storeLanes c x a.2 4 v (keyLanes v b.x)
  | _ => (s.loadBytes c x a.1 4 false).bind fun v s => s.storeBytes c x a.2 4 v

/-- Where the routine stands before the word at `p`. Its registers are the vendor routine's own (R158, R178). -/
def State.blockStand (s : State) (c : CoreId) (x : CtxId) (o : BlockOp) (p : BlockPos) : State :=
  (s.standIn c x (.block o.page p.done p.row p.col)).modCore c fun k => { k with uFree := true }

/-- Words one after another, `words` of them at most; every one leads to a trap point. `npc` is the address after the instruction. -/
def State.blockRun (c : CoreId) (x : CtxId) (o : BlockOp) (b : BlockArgs) (npc : Word) : Nat → State → BlockPos → State
  | 0, s, p => s.blockStand c x o p
  | words + 1, s, p =>
    match s.blockWord c x o b p with
    | .ok late s' =>
      let q := p.next o b
      let s' := late ((s'.modCtx c x fun t => { t with served := none, waitFor := none }).blockStand c x o q)
      if (s'.ctx c x).st ≠ .ready ∨ (s'.ctx c x).slot.valid then s'
      else if q.done = blockWords o b then
        (s'.replace c x o.cells []).finish c x npc (s'.ctx c x).priv true {}
      else State.blockRun c x o b npc words s' q
    | .fault s' code a => (s'.replace c x o.cells ((blockRest o b p).cellList o)).endFault c x code a false true
    | .dfault s' code a => s'.endFault c x code a true true
    | .wait s' w => (s'.blockStand c x o p).enterWait c x w
    | .hold s' => s'.blockStand c x o p

/-- The words of a fresh instruction, whose operands have passed their checks; with none to move it only pops them. -/
def State.blockStart (s : State) (c : CoreId) (x : CtxId) (o : BlockOp) (npc : Word) (words : Nat) : State :=
  let b := blockArgs o (s.ctx c x).cell
  if blockWords o b = 0 then (s.replace c x o.cells []).finish c x npc (s.ctx c x).priv true {}
  else State.blockRun c x o b npc (max 1 words) s {}

/-- The checks at issue. -/
def State.blockCheck (s : State) (c : CoreId) (x : CtxId) (o : BlockOp) : Res Unit :=
  (s.needPops c x o.cells 0).bind fun _ s =>
    match blockBad o (blockArgs o (s.ctx c x).cell) with
    | some code => .fault s code 0
    | none => .ok () s

/-- The routine goes on where it stands, or, where WINDAT restored the micro-save slot, from the progress in U14. -/
def State.blockResume (s : State) (c : CoreId) (x : CtxId) (o : BlockOp) (npc : Word) (words : Nat) : State :=
  let t := s.ctx c x
  let b := blockArgs o t.cell
  let go (p : BlockPos) : State :=
    let s := (s.unsave c x).modCtx c x fun t => { t with routine := none }
    if blockWords o b ≤ p.done then (s.replace c x o.cells []).finish c x npc t.priv true {}
    else State.blockRun c x o b npc (max 1 words) s p
  match t.routine with
  | some (.block page n row col) => if page = o.page then go { done := n, row := row, col := col } else s
  | none =>
    let n := t.slot.u[(14 : Fin 16)].toNat
    go (if o.rows then { done := n * (b.width / 4), row := n } else { done := n })
  | some _ => s

/-- A block move: its checks, or where it goes on; a patched one runs its routine's words. -/
def State.block (s : State) (c : CoreId) (x : CtxId) (o : BlockOp) (words : Nat) : Ans :=
  let e : Enc := { op := 0xFE, page := some o.page }
  if !s.mayIssue c x false then .next s
  else
    let s := s.makeRoom c x
    let npc := (s.ctx c x).codeAddr 2
    if (s.ctx c x).inRoutine then
      match (s.ctx c x).routine with
      | some (.micro ..) => .next (s.microResume c x e (max 1 words))
      | _ => .next (s.blockResume c x o npc words)
    else .next (s.afterFetch c x 2 fun s =>
      let a := dispatch e.index
      if s.core[c].redirects a then s.microStart c x e a (max 1 words)
      else match s.core[c].badWord a with
        | some w => s.parkRom c x e w
        | none =>
          let s := s.romReads c a
          match State.blockCheck s c x o with
          | .ok _ s => s.blockStart c x o npc words
          | .fault s' code a => s.conclude c x npc false e.inSpill (.fault s' code a)
          | .dfault s' code a => s.conclude c x npc false e.inSpill (.dfault s' code a)
          | .wait s' w => s.conclude c x npc false e.inSpill (.wait s' w)
          | .hold s' => s.conclude c x npc false e.inSpill (.hold s'))

def execMove (c : CoreId) (x : CtxId) (words : Nat) (s : State) : Ans := s.block c x .move words
def execFill (c : CoreId) (x : CtxId) (words : Nat) (s : State) : Ans := s.block c x .fill words
def execBlit (c : CoreId) (x : CtxId) (words : Nat) (s : State) : Ans := s.block c x .blit words
def execBlitk (c : CoreId) (x : CtxId) (words : Nat) (s : State) : Ans := s.block c x .blitk words

end Sys2Proof.Machine
end

