-- ==== Sys2Proof/Machine/Control.lean ====
section
/-! DEFINITION. Control transfer and system instructions (R36, R37, R73, R97, R98, R333, R334, R344). -/

namespace Sys2Proof.Machine

open Sys2Proof

/-! ## Branches (R73, R97) -/

/-- The address after an instruction of `n` bytes. -/
def State.npc (s : State) (c : CoreId) (x : CtxId) (n : Nat) : Word := (s.ctx c x).codeAddr n

/-- A target `off` bytes after the instruction. -/
def State.rel (s : State) (c : CoreId) (x : CtxId) (e : Enc) (off : Word) : Word := s.npc c x e.len + off

def execBr8 (c : CoreId) (x : CtxId) (o : Byte) (s : State) : Ans :=
  let e : Enc := { op := 0x90, opnd := o.setWidth 32, width := 1 }
  s.simple c x e fun s => .ok (some (s.rel c x e (o.signExtend 32))) s

def execBr16 (c : CoreId) (x : CtxId) (o : BitVec 16) (s : State) : Ans :=
  let e : Enc := { op := 0x91, opnd := o.setWidth 32, width := 2 }
  s.simple c x e fun s => .ok (some (s.rel c x e (o.signExtend 32))) s

/-- ( x -- ), a branch by `off` where the test on x holds. -/
def State.branchIf (s : State) (c : CoreId) (x : CtxId) (e : Enc) (test : Word → Bool) (off : Word) : Ans :=
  s.simple c x e fun s =>
    let v := (s.ctx c x).cell 0
    let to_ := s.rel c x e off
    (s.needPops c x 1 0).bind fun _ s => .ok (if test v then some to_ else none) (s.replace c x 1 [])

/-- Encoding and offset of a conditional branch with an 8-bit or a 16-bit operand. -/
def condEnc (narrow wide : Byte) (w : Bool) (o : BitVec 16) : Enc × Word :=
  if w then ({ op := wide, opnd := o.setWidth 32, width := 2 }, o.signExtend 32)
  else ({ op := narrow, opnd := (bits o 0 8 : Byte).setWidth 32, width := 1 }, (bits o 0 8 : Byte).signExtend 32)

def execBz8 (c : CoreId) (x : CtxId) (wide : Bool) (o : BitVec 16) (s : State) : Ans :=
  let e := condEnc 0x92 0x93 wide o
  s.branchIf c x e.1 (fun v => v == 0) e.2

def execBnz8 (c : CoreId) (x : CtxId) (wide : Bool) (o : BitVec 16) (s : State) : Ans :=
  let e := condEnc 0x94 0x95 wide o
  s.branchIf c x e.1 (fun v => v != 0) e.2

/-- BZF.n skips n + 1 bytes. -/
def execBzfN (c : CoreId) (x : CtxId) (n : Fin 16) (s : State) : Ans :=
  s.branchIf c x { op := BitVec.ofNat 8 (0xD0 + n.val) } (fun v => v == 0) (BitVec.ofNat 32 (n.val + 1))

/-! ## Calls and returns (R97) -/

/-- A call to `to_`: the next instruction's address goes to the return stack. -/
def State.callTo (s : State) (c : CoreId) (x : CtxId) (e : Enc) (to_ : Word) : Res (Option Word) :=
  (s.rpush c x (s.npc c x e.len)).bind fun _ s => .ok (some to_) s

def execCall16 (c : CoreId) (x : CtxId) (o : BitVec 16) (s : State) : Ans :=
  let e : Enc := { op := 0x96, opnd := o.setWidth 32, width := 2 }
  s.simple c x e fun s => s.callTo c x e (s.rel c x e (o.signExtend 32))

def execCall32 (c : CoreId) (x : CtxId) (w : Word) (s : State) : Ans :=
  let e : Enc := { op := 0x97, opnd := w, width := 4 }
  s.simple c x e fun s => s.callTo c x e w

/-- CALLV.n: the vector word is loaded first, at a wait point. In F a full return stack is found before the load's data errors (R84). -/
def execCallvN (c : CoreId) (x : CtxId) (n : Fin 16) (s : State) : Ans :=
  let e : Enc := { op := BitVec.ofNat 8 (0xE0 + n.val) }
  s.simple c x e fun s =>
    (if x = fCtx then (s.rpush c x 0).bind fun _ _ => .ok () s else .ok () s).bind fun _ s =>
    (s.loadBytes c x (BitVec.ofNat 32 (0x40 + 4 * n.val)) 4 false).bind fun v s => s.callTo c x e v

def execCalli (c : CoreId) (x : CtxId) (s : State) : Ans :=
  let e : Enc := { op := 0x98 }
  s.simple c x e fun s =>
    let a := (s.ctx c x).cell 0
    (s.needPops c x 1 0).bind fun _ s => (s.callTo c x e a).bind fun r s => .ok r (s.replace c x 1 [])

def execJmpi (c : CoreId) (x : CtxId) (s : State) : Ans :=
  s.simple c x { op := 0x99 } fun s =>
    let a := (s.ctx c x).cell 0
    (s.needPops c x 1 0).bind fun _ s => .ok (some a) (s.replace c x 1 [])

def execRet (c : CoreId) (x : CtxId) (s : State) : Ans :=
  s.simple c x { op := 0x9A } fun s => (s.rpop c x).bind fun a s => .ok (some a) s

/-- The newest return entry takes a value. -/
def Ctx.rsetTop (t : Ctx) (v : Word) : Ctx :=
  let g := t.rtop
  { t with rstk := t.rstk.set (rEntry g (t.rtag[g].count.toNat + 7)) v, rtag := t.rtag.set g { t.rtag[g] with dirty := true } }

/-- RLOOP8: a count of 1 is popped and ends the loop; any other is lowered by 1 and branches. -/
def execRloop8 (c : CoreId) (x : CtxId) (o : Byte) (s : State) : Ans :=
  let e : Enc := { op := 0x9E, opnd := o.setWidth 32, width := 1 }
  s.simple c x e fun s =>
    (s.rready c x).bind fun _ s =>
      let u := (s.ctx c x).rtopVal
      if u = 1 then .ok none (s.modCtx c x Ctx.rdropTop)
      else .ok (some (s.rel c x e (o.signExtend 32))) (s.modCtx c x fun t => t.rsetTop (u - 1))

def execNop (c : CoreId) (x : CtxId) (s : State) : Ans := s.simple c x { op := 0x9F } fun s => .ok none s

/-! ## SYS, RETS, RETI (R36, R37, R333, R334, R344) -/

/-- Entry address and privilege of SYS n. -/
def Core.sysEntry (k : Core) (n : Byte) : Word × BitVec 2 :=
  if n.toNat < 240 then (k.sysBase + BitVec.ofNat 32 (16 * n.toNat), 1) else (k.secBase + BitVec.ofNat 32 (16 * (n.toNat - 240)), 3)

/-- SYS: the return address, then the status word of R333, go to the return stack. -/
def execSys (c : CoreId) (x : CtxId) (n : Byte) (s : State) : Ans :=
  let e : Enc := { op := 0x9B, opnd := n.setWidth 32, width := 1 }
  s.simple c x e fun s =>
    let word := fld (s.ctx c x).priv 0 ||| flag s.core[c].active 2
    (s.rpush c x (s.npc c x e.len)).bind fun _ s =>
      (s.rpush c x word).bind fun _ s =>
        let to_ := s.core[c].sysEntry n
        .ok (some to_.1) (s.modCtx c x fun t => { t with priv := to_.2 })

/-- A privilege that a status word may restore (R37). -/
def privOk (word : Word) (now : BitVec 2) : Bool :=
  let p : BitVec 2 := bits word 0 2
  p != 2 && decide (p.toNat ≤ now.toNat)

/-- RETS: pops the status word and the address, restores PRIV. -/
def execRets (c : CoreId) (x : CtxId) (s : State) : Ans :=
  s.simple c x { op := 0x9C } fun s =>
    let now := (s.ctx c x).priv
    (s.rpop2 c x).bind fun p s =>
      if privOk p.1 now then .ok (some p.2) (s.modCtx c x fun t => { t with priv := bits p.1 0 2 }) else .fault s fcPriv 0

/-- RETI chains instead of leaving the handler (R344). -/
def State.chains (s : State) (c : CoreId) (x : CtxId) : Bool :=
  let k := s.core[c]
  thr k.hthr == x && k.active && k.evqWr != k.evqRd && !k.nmask

/-- RETI in a thread. -/
def State.retiThread (s : State) (c : CoreId) (x : CtxId) : Res Done :=
  let now := (s.ctx c x).priv
  if now = 0 then .fault s fcPriv 0
  else if s.chains c x then .ok { flow := .jump s.core[c].evqVec } ((s.handleEntry c x).count c x 0x0D)
  else
    (s.rpop2 c x).bind fun p s =>
      if privOk p.1 now then
        let s := (s.modCtx c x fun t => { t with priv := bits p.1 0 2 }).modCore c fun k => { k with active := p.1.getLsbD 2 }
        .ok { flow := .jump p.2, late := if p.1.getLsbD 4 then fun s => s.sleepNow c x else Late.none } s
      else .fault s fcPriv 0

/-- RETI; in F a fast exit or chain, whatever the two entries hold. -/
def execReti (c : CoreId) (x : CtxId) (s : State) : Ans :=
  s.issue c x { op := 0x9D } fun s =>
    if x = fCtx then (s.rpop2 c x).bind fun _ s => .ok { late := fun s => s.fastExit c } s
    else s.retiThread c x

/-! ## SLEEP, YIELD, BKPT, VTIME, COREID (R98, R99) -/

def execSleep (c : CoreId) (x : CtxId) (s : State) : Ans :=
  s.issue c x { op := 0xA0 } fun s => if x = fCtx then .fault s fcIllegal 0 else .ok { late := fun s => s.sleepNow c x } s

def execYield (c : CoreId) (x : CtxId) (s : State) : Ans :=
  s.issue c x { op := 0xA1 } fun s => .ok { late := fun s => s.yieldNow c x } s

/-- BKPT: the core halts with THR_PC on it, or it faults. -/
def execBkpt (c : CoreId) (x : CtxId) (s : State) : Ans :=
  s.issue c x { op := 0xA2 } fun s =>
    if s.bkptHalts c then .ok { flow := .stay, late := fun s => s.bkptStop c } s else .fault s fcBkpt 0

def execVtime (c : CoreId) (x : CtxId) (s : State) : Ans :=
  s.simple c x { op := 0xFE, page := some 0x40 } fun s =>
    s.stackOp c x 0 [] 0 fun _ => [bits s.power.vt 0 32, fld (bits s.power.vt 32 16 : BitVec 16) 0]

def execCoreid (c : CoreId) (x : CtxId) (s : State) : Ans :=
  s.simple c x { op := 0xFE, page := some 0x41 } fun s => s.stackOp c x 0 [] 0 fun _ => [s.coreId c x]

/-! ## Entries (R330, R332, R342, R343)

An entry runs a routine of the protected range, whose words are read and may be patched (R157, R160, R182). -/

/-- What the words of an entry routine know: no instruction. -/
def entryEnv (t : Ctx) : UEnv := { op := 0, npc := t.pc }

/-- An entry routine of context `x` begins, and goes on as `go` says. -/
def State.enterBy (s : State) (c : CoreId) (x : CtxId) (fast : Bool) (go : State → State) : State :=
  match s.reach c x (entryEnv (s.ctx c x)) (entryStart fast) with
  | .runs s => go (s.modCore c fun k => { k with uFree := true })
  | .bad s a => s.parkBad c x (.micro 0 0 0 0 0 { upc := a })
  | .fault s code a => s.preciseFault c x code a

/-- FAST_ENTRY. -/
def execFastEntry (c : CoreId) (s : State) : Ans :=
  if s.fastDue c && s.core[c].takeable then
    match s.fastNext c with
    | some q => .next ((s.takeX c).enterBy c fCtx true fun s => (s.enterFast c q.1).count c fCtx 0x0A)
    | none => .next s
  else .next s

/-- The entry of the handler of a normal-class event, once its routine runs. A push that needs a spill may fault or double-fault as any
other, and then leaves the context as it was (R53). -/
def State.enterHandler (s : State) (c : CoreId) (x : CtxId) : State :=
  let t := s.ctx c x
  match s.entryPush c x t.pc (fld t.priv 0 ||| flag (t.st == .sleep) 4) with
  | .ok _ s1 =>
    let s1 := ((s1.dropReads c x true false).modCtx c x fun u => u.enterNormal t s.core[c]).setSt c x .ready
    ((s1.modCore c fun k => { k with active := true }).deliver c).count c x 0x0C
  | .fault _ code a => s.preciseFault c x code a
  | .dfault s1 code a => (s1.modCtx c x fun _ => t).doubleFault c x code a
  | .wait .. => s
  | .hold _ => s

/-- NORMAL_ENTRY. -/
def execNormalEntry (c : CoreId) (s : State) : Ans :=
  let k := s.core[c]
  let x := thr k.hthr
  let t := k.ctx[x]
  let taken := t.st == .ready || t.st == .wait || t.st == .sleep
  if s.normalDue c && taken && k.entryOpen x && t.impKnown.isEmpty && !t.stopReq then
    if t.f16 then .next (s.modCore c fun k => { k with htErr := true })
    else .next ((s.takeX c).enterBy c x false fun s => s.enterHandler c x)
  else .next s

/-! ## Code that other masters write, and refills (R130, R146, R147) -/

/-- FETCH_INVALIDATE: the write of the `n` bytes at `a` reaches core `c`. -/
def execFetchInvalidate (c : CoreId) (a : Word) (n : Nat) (s : State) : Ans := .next (s.fetchInval c (plainOf c a) n none)

/-- FETCH_REFILL: the line of the instruction at THR_PC, or the one after it, joins the buffer; where it must be fetched it is asked for
and joins when it comes (R130). -/
def execFetchRefill (c : CoreId) (x : CtxId) (a : Word) (s : State) : Ans :=
  let t := s.ctx c x
  let l := a &&& 0xFFFFFFE0
  let here := t.codeAddr 0 &&& 0xFFFFFFE0
  let after := t.codeAddr 32 &&& 0xFFFFFFE0
  if s.mainRuns && t.st != .idle && (l == here || l == after) && !t.fbuf.contains l then
    if t.ahead = some l then .next s
    else match s.refill c x l with
    | .ok _ s => .next s
    | .wait s (.line _) => .next (s.modCtx c x fun t => { t with ahead := some l })
    | .wait s (.fabric _) => .next (s.modCtx c x fun t => { t with ahead := some l })
    | _ => .next s
  else .next s

end Sys2Proof.Machine
end

