-- ==== Sys2Proof/Machine/Long.lean ====
section
/-! DEFINITION. The long operations and their retirement (R85, R88, R89, R95). -/

namespace Sys2Proof.Machine

open Sys2Proof

/-- A long operation of a bytecode: its operands are popped, and its result cells are pushed pending. -/
def State.longOp (s : State) (c : CoreId) (x : CtxId) (kind : LongKind) (pops pushes : Nat) : Res (Option Word) :=
  (s.needPops c x pops pushes).bind fun _ s =>
    (s.longRoom c x kind).bind fun _ s =>
      let t := s.ctx c x
      let a := if pops = 1 then t.cell 0 else t.cell 1
      let b := if pops = 1 then 0 else t.cell 0
      let s := s.replace c x pops ((List.range pushes).map fun i => t.cell (pops - 1 - i))
      let u := s.ctx c x
      .ok none (s.longStart c x
        { kind := kind, a := a, b := b, dest := (List.range pushes).map fun i => u.topEntry (pushes - 1 - i), pc := t.pc })

def execDiv (c : CoreId) (x : CtxId) (s : State) : Ans :=
  s.simple c x { op := 0xFE, page := some 0x00 } fun s => s.longOp c x .div 2 1

def execMod (c : CoreId) (x : CtxId) (s : State) : Ans :=
  s.simple c x { op := 0xFE, page := some 0x01 } fun s => s.longOp c x .mod 2 1

def execDivu (c : CoreId) (x : CtxId) (s : State) : Ans :=
  s.simple c x { op := 0xFE, page := some 0x02 } fun s => s.longOp c x .divu 2 1

def execModu (c : CoreId) (x : CtxId) (s : State) : Ans :=
  s.simple c x { op := 0xFE, page := some 0x03 } fun s => s.longOp c x .modu 2 1

def execSqrt (c : CoreId) (x : CtxId) (s : State) : Ans :=
  s.simple c x { op := 0xFE, page := some 0x04 } fun s => s.longOp c x .sqrt 1 1

def execMulw (c : CoreId) (x : CtxId) (s : State) : Ans :=
  s.simple c x { op := 0xFE, page := some 0x05 } fun s => s.longOp c x .mulw 2 2

def execMulwu (c : CoreId) (x : CtxId) (s : State) : Ans :=
  s.simple c x { op := 0xFE, page := some 0x06 } fun s => s.longOp c x .mulwu 2 2

/-- LDF: alignment, counted range and the fabric range are checked at issue (R84, R95). -/
def execLdf (c : CoreId) (x : CtxId) (s : State) : Ans :=
  s.simple c x { op := 0x84 } fun s =>
    let a := (s.ctx c x).cell 0
    (s.needPops c x 1 1).bind fun _ s =>
      match s.ldfCheck c x a with
      | some code => .fault s code a
      | none =>
        (s.longRoom c x .ldf).bind fun _ s =>
          (s.ldfStart c x a [(s.ctx c x).topEntry 0] none).bind fun _ s =>
            .ok none (s.replace c x 1 [a])

/-! ## Retirement -/

/-- The cells of a long operation take its results and are ready. -/
def Ctx.retire (t : Ctx) (o : LongOp) (vs : List Word) : Ctx :=
  { t with dstk := (o.dest.zip vs).foldl (fun (d : Vector Word 64) (p : Fin 64 × Word) => d.set p.1 p.2) t.dstk,
           dpend := o.dest.foldl (fun (d : Vector Bool 64) (e : Fin 64) => d.set e false) t.dpend }

/-- The micro-register that an operation of a routine writes takes its result, where the routine's registers stand: in the micro-save slot
of the context, in that of the routine that a handler interrupted, or in the core (R173, R181). -/
def Core.retireReg (k : Core) (x : CtxId) (o : LongOp) (vs : List Word) : Core :=
  match o.ureg, vs.head? with
  | some i, some v =>
    let put (sl : SaveSlot) : SaveSlot := { sl with u := sl.u.set i v }
    let t := k.ctx[x]
    if t.pc != o.pc && t.held.any (fun h => h.pc == o.pc) then
      k.modCtx x fun t => { t with held := t.held.map fun h => { h with slot := put h.slot } }
    else if t.slot.valid then k.modCtx x fun t => { t with slot := put t.slot }
    else if t.routine.isSome then k.setU i v
    else k
  | _, _ => k

/-- What an operation's arrival gives: its cells, and the imprecise fault that becomes known (R85). -/
def LongOp.outcome (o : LongOp) : List Word × Option ImpFault :=
  match o.kind with
  | .ldf =>
    match o.result with
    | some (.ok w) => ([w], none)
    | some (.error code) => ([0], some ⟨code, o.a⟩)
    | none => ([0], none)
  | k =>
    let r := longResult k o.a o.b
    (r.1, if r.2 then some ⟨fcDivZero, o.pc⟩ else none)

/-- The result of the context's `i`-th outstanding operation has arrived: the divider serves its queue in order (R89), and an LDF needs
its response. -/
def State.longArrived (s : State) (c : CoreId) (x : CtxId) (i : Nat) (o : LongOp) : Bool :=
  if o.kind.divider then
    s.core[c].divq.head? == some x && !((s.ctx c x).longs.take i).any fun q => q.kind.divider
  else o.kind != .ldf || o.result.isSome

/-- LONG_OP_RETIRE. -/
def execLongOpRetire (c : CoreId) (x : CtxId) (i : Nat) (s : State) : Ans :=
  match (s.ctx c x).longs[i]? with
  | none => .next s
  | some o =>
    if s.mainRuns && s.longArrived c x i o then
      let r := o.outcome
      let s := s.modCore c fun k =>
        (k.retireReg x o r.1).modCtx x fun t => { t.retire o r.1 with longs := t.longs.eraseIdx i }
      let s := if o.kind.divider then s.modCore c fun k => { k with divq := k.divq.drop 1 } else s
      .next (match r.2 with | some f => s.knowFault c x f.code f.faddr | none => s)
    else .next s

end Sys2Proof.Machine
end

