-- ==== Sys2Proof/Machine/Memory.lean ====
section
/-! DEFINITION. Loads and stores, CLAIM and COMMIT, FENCE and DRAIN, pins, stimulus ports, transits and the beam (R90, R96, R100 to R104,
R111 to R118). -/

namespace Sys2Proof.Machine

open Sys2Proof

/-! ## Loads and stores (R96) -/

/-- ( a -- x ): `n` bytes at `f a`, through `g`. -/
def State.loadOp (s : State) (c : CoreId) (x : CtxId) (e : Enc) (n : Nat) (f g : Word → Word) : Ans :=
  s.simple c x e fun s =>
    let a := (s.ctx c x).cell 0
    (s.needPops c x 1 1).bind fun _ s =>
      (s.loadBytes c x (f a) n false).bind fun v s => .ok none (s.replace c x 1 [g v])

/-- ( x a -- ): the low `n` bytes of x, to `f a`. -/
def State.storeOp (s : State) (c : CoreId) (x : CtxId) (e : Enc) (n : Nat) (f : Word → Word) : Ans :=
  s.issue c x e fun s =>
    let t := s.ctx c x
    (s.needPops c x 2 0).bind fun _ s =>
      (s.storeBytes c x (f (t.cell 0)) n (t.cell 1)).bind fun l s => .ok { late := l } (s.replace c x 2 [])

/-- ( -- x ) from a fixed address. -/
def State.loadAt (s : State) (c : CoreId) (x : CtxId) (e : Enc) (a : Word) : Ans :=
  s.simple c x e fun s =>
    (s.need c x 0 [] 0 1).bind fun _ s =>
      (s.loadBytes c x a 4 false).bind fun v s => .ok none (s.replace c x 0 [v])

/-- ( x -- ) to a fixed address. -/
def State.storeAt (s : State) (c : CoreId) (x : CtxId) (e : Enc) (a : Word) : Ans :=
  s.issue c x e fun s =>
    let v := (s.ctx c x).cell 0
    (s.needPops c x 1 0).bind fun _ s =>
      (s.storeBytes c x a 4 v).bind fun l s => .ok { late := l } (s.replace c x 1 [])

def execLd (c : CoreId) (x : CtxId) (s : State) : Ans := s.loadOp c x { op := 0x70 } 4 id id
def execLdh (c : CoreId) (x : CtxId) (s : State) : Ans := s.loadOp c x { op := 0x71 } 2 id id
def execLdhs (c : CoreId) (x : CtxId) (s : State) : Ans := s.loadOp c x { op := 0x72 } 2 id sext16
def execLdb (c : CoreId) (x : CtxId) (s : State) : Ans := s.loadOp c x { op := 0x73 } 1 id id
def execLdbs (c : CoreId) (x : CtxId) (s : State) : Ans := s.loadOp c x { op := 0x74 } 1 id sext8
def execSt (c : CoreId) (x : CtxId) (s : State) : Ans := s.storeOp c x { op := 0x75 } 4 id
def execSth (c : CoreId) (x : CtxId) (s : State) : Ans := s.storeOp c x { op := 0x76 } 2 id
def execStb (c : CoreId) (x : CtxId) (s : State) : Ans := s.storeOp c x { op := 0x77 } 1 id

/-- LDP ( a -- x a' ). -/
def execLdp (c : CoreId) (x : CtxId) (s : State) : Ans :=
  s.simple c x { op := 0x78 } fun s =>
    let a := (s.ctx c x).cell 0
    (s.needPops c x 1 2).bind fun _ s =>
      (s.loadBytes c x a 4 false).bind fun v s => .ok none (s.replace c x 1 [v, a + 4])

/-- STP ( x a -- a' ). -/
def execStp (c : CoreId) (x : CtxId) (s : State) : Ans :=
  s.issue c x { op := 0x79 } fun s =>
    let t := s.ctx c x
    (s.needPops c x 2 1).bind fun _ s =>
      (s.storeBytes c x (t.cell 0) 4 (t.cell 1)).bind fun l s => .ok { late := l } (s.replace c x 2 [t.cell 0 + 4])

def byteEnc (op b : Byte) : Enc := { op := op, opnd := b.setWidth 32, width := 1 }
def halfEnc (op : Byte) (h : BitVec 16) : Enc := { op := op, opnd := h.setWidth 32, width := 2 }

def execLdo (c : CoreId) (x : CtxId) (b : Byte) (s : State) : Ans :=
  s.loadOp c x (byteEnc 0x7A b) 4 (fun a => a + fld b 2) id

def execSto (c : CoreId) (x : CtxId) (b : Byte) (s : State) : Ans := s.storeOp c x (byteEnc 0x7B b) 4 fun a => a + fld b 2

def execLdl8 (c : CoreId) (x : CtxId) (b : Byte) (s : State) : Ans := s.loadAt c x (byteEnc 0x7C b) (fld b 2)
def execStl8 (c : CoreId) (x : CtxId) (b : Byte) (s : State) : Ans := s.storeAt c x (byteEnc 0x7D b) (fld b 2)
def execLdl16 (c : CoreId) (x : CtxId) (h : BitVec 16) (s : State) : Ans := s.loadAt c x (halfEnc 0x7E h) (fld h 2)
def execStl16 (c : CoreId) (x : CtxId) (h : BitVec 16) (s : State) : Ans := s.storeAt c x (halfEnc 0x7F h) (fld h 2)

def execLdgN (c : CoreId) (x : CtxId) (n : Fin 16) (s : State) : Ans :=
  s.loadAt c x { op := BitVec.ofNat 8 (0xB0 + n.val) } (BitVec.ofNat 32 (4 * n.val))

def execStgN (c : CoreId) (x : CtxId) (n : Fin 16) (s : State) : Ans :=
  s.storeAt c x { op := BitVec.ofNat 8 (0xC0 + n.val) } (BitVec.ofNat 32 (4 * n.val))

/-! ## CLAIM and COMMIT (R100 to R104) -/

/-- CLAIM ( a -- x ); any fault of it clears the reservation. -/
def execClaim (c : CoreId) (x : CtxId) (s : State) : Ans :=
  s.simple c x { op := 0x80 } fun s =>
    let a := (s.ctx c x).cell 0
    ((s.needPops c x 1 1).bind fun _ s =>
      (s.claimAt c x a).bind fun v s => .ok none (s.replace c x 1 [v])).onFault
      fun s => s.modCtx c x fun t => { t with rsv := none }

/-- COMMIT ( x a -- f ). -/
def execCommit (c : CoreId) (x : CtxId) (elapsed : Nat) (s : State) : Ans :=
  s.simple c x { op := 0x81 } fun s =>
    let t := s.ctx c x
    (s.needPops c x 2 1).bind fun _ s =>
      (s.commitAt c x (t.cell 0) (t.cell 1) elapsed).bind fun v s => .ok none (s.replace c x 2 [v])

/-! ## FENCE and DRAIN (R86, R90) -/

def execFence (c : CoreId) (x : CtxId) (s : State) : Ans :=
  s.simple c x { op := 0x82 } fun s => if (s.ctx c x).longs.isEmpty then .ok none s else .wait s .fence

def execDrain (c : CoreId) (x : CtxId) (s : State) : Ans :=
  s.simple c x { op := 0x83 } fun s => if s.core[c].sb.all (fun e => e.ctx != x) then .ok none s else .wait s .drain

/-! ## Pins and stimulus ports (R111 to R114) -/

def execPinr (c : CoreId) (x : CtxId) (s : State) : Ans :=
  s.simple c x { op := 0x85 } fun s =>
    let u := (s.ctx c x).cell 0
    (s.needPops c x 1 1).bind fun _ s => (s.pinRead u).bind fun v s => .ok none (s.replace c x 1 [v])

def execPinw (c : CoreId) (x : CtxId) (s : State) : Ans :=
  s.simple c x { op := 0x86 } fun s =>
    let t := s.ctx c x
    (s.needPops c x 2 0).bind fun _ s => (s.pinWrite c x (t.cell 1) (t.cell 0)).bind fun _ s => .ok none (s.replace c x 2 [])

def execPinrw (c : CoreId) (x : CtxId) (s : State) : Ans :=
  s.simple c x { op := 0xFE, page := some 0x20 } fun s =>
    let u := (s.ctx c x).cell 0
    (s.needPops c x 1 1).bind fun _ s => (s.pinGroup u).bind fun v s => .ok none (s.replace c x 1 [v])

def execPinwm (c : CoreId) (x : CtxId) (s : State) : Ans :=
  s.simple c x { op := 0xFE, page := some 0x21 } fun s =>
    let t := s.ctx c x
    (s.needPops c x 3 0).bind fun _ s =>
      (s.pinWriteMask c x (t.cell 2) (t.cell 1) (t.cell 0)).bind fun _ s => .ok none (s.replace c x 3 [])

def execStim (c : CoreId) (x : CtxId) (b : Byte) (s : State) : Ans :=
  s.simple c x (byteEnc 0x87 b) fun s =>
    let v := (s.ctx c x).cell 0
    (s.needPops c x 1 0).bind fun _ s =>
      if b.toNat < 32 then .ok none ((s.stimWrite c x (bits b 0 5) v).replace c x 1 []) else .fault s fcRange 0

/-! ## Transits and the beam (R115 to R118) -/

/-- TRANSIT ( x-data x-where x-when -- ). -/
def execTransit (c : CoreId) (x : CtxId) (s : State) : Ans :=
  s.simple c x { op := 0x88 } fun s =>
    let t := s.ctx c x
    (s.needPops c x 3 0).bind fun _ s =>
      (s.stageTransit c x (t.cell 2) (t.cell 1) (t.cell 0)).bind fun _ s => .ok none (s.replace c x 3 [])

/-- TWAIT ( x-when x-tag -- ), then SLEEP. -/
def execTwait (c : CoreId) (x : CtxId) (s : State) : Ans :=
  s.issue c x { op := 0xFE, page := some 0x30 } fun s =>
    if x = fCtx then .fault s fcIllegal 0
    else
      let t := s.ctx c x
      (s.needPops c x 2 0).bind fun _ s =>
        (s.stageWake c x (t.cell 1) (t.cell 0)).bind fun _ s =>
          .ok { late := fun s => s.sleepNow c x } (s.replace c x 2 [])

def execBeam (c : CoreId) (x : CtxId) (s : State) : Ans :=
  s.simple c x { op := 0x89 } fun s =>
    let u := (s.ctx c x).cell 0
    (s.needPops c x 1 1).bind fun _ s => (s.beamRead u).bind fun v s => .ok none (s.replace c x 1 [v])

def execFrame (c : CoreId) (x : CtxId) (s : State) : Ans :=
  s.simple c x { op := 0xFE, page := some 0x31 } fun s =>
    let u := (s.ctx c x).cell 0
    (s.needPops c x 1 1).bind fun _ s => (s.frameRead u).bind fun v s => .ok none (s.replace c x 1 [v])

end Sys2Proof.Machine
end

