-- ==== Sys2Proof/Machine/RegRows.lean ====
section
/-! DEFINITION. The commands that are one register access by an agent (rows of spec 02, 04 to 11, 13 to 16). Each writes the register at
its address; the bits that name the row are set, the register's other fields are those of the value written or keep their values. -/

namespace Sys2Proof.Machine

open Sys2Proof


/-! ## Threads (R64 to R68, R155) -/

/-- THR_CTL with only the command bits `n`. -/
def ctlBits (v : Word) (n : Word) : Word := (v &&& 0xFFFFFFF0) ||| n

def execThrCtlStart (w : Agent) (c : CoreId) (x : CtxId) (v : Word) (s : State) : Ans :=
  .next (s.writeBy w (thrWord c x 0) (ctlBits v 1))

def execThrCtlStop (w : Agent) (c : CoreId) (x : CtxId) (v : Word) (s : State) : Ans :=
  .next (s.writeBy w (thrWord c x 0) (ctlBits v 2))

def execThrCtlResume (w : Agent) (c : CoreId) (x : CtxId) (v : Word) (s : State) : Ans :=
  .next (s.writeBy w (thrWord c x 0) (ctlBits v 4))

def execThrCtlReset (w : Agent) (c : CoreId) (x : CtxId) (v : Word) (s : State) : Ans :=
  .next (s.writeBy w (thrWord c x 0) (ctlBits v 8))

/-- A write of THR_CTL that only carries the attributes. -/
def execThrCtlCntd (w : Agent) (c : CoreId) (x : CtxId) (v : Word) (s : State) : Ans :=
  .next (s.writeBy w (thrWord c x 0) (ctlBits v 0))

def execThrStatPrivWrite (w : Agent) (c : CoreId) (x : CtxId) (v : Word) (s : State) : Ans :=
  .next (s.writeBy w (thrWord c x 4) v)

def execSpillAreaWrite (w : Agent) (c : CoreId) (x : CtxId) (size : Bool) (v : Word) (s : State) : Ans :=
  .next (s.writeBy w (thrWord c x (if size then 0x18 else 0x14)) v)

def execWindatRead (c : CoreId) (x : CtxId) (s : State) : Ans := .next (s.readBy (.ctx c x) (coreWord c 0x384)).2

def execWindatWrite (c : CoreId) (x : CtxId) (v : Word) (s : State) : Ans :=
  .next (s.writeBy (.ctx c x) (coreWord c 0x384) v)

def execPipeCtlBtbInv (w : Agent) (c : CoreId) (v : Word) (s : State) : Ans := .next (s.writeBy w (coreWord c 0x20) (v ||| 4))

/-! ## Any register (R12) -/

/-- RC_FIELD_READ: an ordinary read; a debug read clears nothing. -/
def execRcFieldRead (w : Agent) (a : Word) (s : State) : Ans := .next (s.readBy w (a &&& 0xFFFFFFFC)).2

/-! ## Load unit (R185 to R187) -/

def execUcLdctlHold (w : Agent) (cores : BitVec 16) (s : State) : Ans := .next (s.writeBy w 0x30010000 (fld cores 0 ||| 0x10000))

def execUcLdctlRelease (w : Agent) (s : State) : Ans := .next (s.writeBy w 0x30010000 (fld s.load.cores 0))

def execUcLdctlLock (w : Agent) (s : State) : Ans := .next (s.writeBy w 0x30010000 (s.load.ctl ||| 0x20000))

def execUcCmdWrite (w : Agent) (s : State) : Ans := .next (s.writeBy w 0x30010024 1)

def execUcCmdRead (w : Agent) (s : State) : Ans := .next (s.writeBy w 0x30010024 2)

/-! ## Transit engine, ports (R233, R243) -/

def execFlushKey (w : Agent) (s : State) : Ans := .next (s.writeBy w 0x30020008 1)

def execFlushTb (w : Agent) (s : State) : Ans := .next (s.writeBy w 0x30020008 2)

def execReadEntry (w : Agent) (s : State) : Ans := .next (s.writeBy w 0x30020008 3)

def execReadQueue (w : Agent) (s : State) : Ans := .next (s.writeBy w 0x30020008 4)

def execResetEph (w : Agent) (s : State) : Ans := .next (s.writeBy w 0x30020008 5)

def execTbnCfgWrite (w : Agent) (t : TbId) (v : Word) (s : State) : Ans :=
  .next (s.writeBy w (BitVec.ofNat 32 (0x30020100 + t.val * 0x40)) v)

def execBpnCtlWrite (w : Agent) (p : Fin 8) (v : Word) (s : State) : Ans :=
  .next (s.writeBy w (BitVec.ofNat 32 (0x30030000 + p.val * 0x10)) v)

/-! ## Ring (R381, R383) -/

def execNmsgSend (w : Agent) (v : Word) (s : State) : Ans := .next (s.writeBy w 0x30070160 (v ||| 0x100))

def execHmsgEmpty (w : Agent) (s : State) : Ans := .next (s.writeBy w 0x30070120 0x40)

def execRppCtlWrite (w : Agent) (p : PortId) (v : Word) (s : State) : Ans :=
  .next (s.writeBy w (BitVec.ofNat 32 (0x30070040 + p.val * 0x20)) v)

/-! ## Power and clocks (R422, R423, R428, R431, R434) -/

def execPwrReqNap (w : Agent) (s : State) : Ans := .next (s.writeBy w 0x30080000 (s.power.ctl ||| 1))

def execPwrReqVesperOnly (w : Agent) (s : State) : Ans := .next (s.writeBy w 0x30080000 (s.power.ctl ||| 2))

def execPwrReqCancel (w : Agent) (s : State) : Ans := .next (s.writeBy w 0x30080000 (s.power.ctl ||| 3))

def execClkPllaWrite (w : Agent) (v : Word) (s : State) : Ans := .next (s.writeBy w 0x30080010 v)

def execClkCdivWrite (w : Agent) (hi : Bool) (v : Word) (s : State) : Ans :=
  .next (s.writeBy w (if hi then 0x30080018 else 0x30080014) v)

def execClkSdivWrite (w : Agent) (v : Word) (s : State) : Ans := .next (s.writeBy w 0x3008001C v)

def execCoreSoftReset (w : Agent) (c : CoreId) (s : State) : Ans := .next (s.writeBy w 0x3008000C (1#32 <<< c.val))

def execVtLoWrite (w : Agent) (v : Word) (s : State) : Ans := .next (s.writeBy w 0x30080020 v)

def execVtLoRead (w : Agent) (s : State) : Ans := .next (s.readBy w 0x30080020).2

/-! ## March engine, line cache, fabric window (R288, R300, R302, R307, R311) -/

/-- MARCH_CTL with CMD `n`. -/
def marchBits (v n : Word) : Word := (v &&& 0xFFFFFFFC) ||| n

def execMarchStart (w : Agent) (v : Word) (s : State) : Ans := .next (s.writeBy w 0x30040100 (marchBits v 1))

def execMarchStop (w : Agent) (v : Word) (s : State) : Ans := .next (s.writeBy w 0x30040100 (marchBits v 2))

def execLcPinWrite (w : Agent) (c : CoreId) (v : Word) (s : State) : Ans := .next (s.writeBy w (coreWord c 0x48) v)

def execLcPinld (w : Agent) (c : CoreId) (v : Word) (s : State) : Ans := .next (s.writeBy w (coreWord c 0x4C) v)

def execLcCtlWrite (w : Agent) (c : CoreId) (v : Word) (s : State) : Ans := .next (s.writeBy w (coreWord c 0x40) v)

def execFabWinWrite (w : Agent) (v : Word) (s : State) : Ans := .next (s.writeBy w 0x3005000C v)

/-! ## Events (R328, R337, R340, R350) -/

def execEvSwset (w : Agent) (v : Word) (s : State) : Ans := .next (s.writeBy w 0x30061100 v)

def execEvSrcWrite (w : Agent) (n : SrcId) (v : Word) (s : State) : Ans :=
  .next (s.writeBy w (BitVec.ofNat 32 (0x30060000 + n.val * 4)) v)

def execEvqBaseWrite (w : Agent) (c : CoreId) (v : Word) (s : State) : Ans := .next (s.writeBy w (coreWord c 0x608) v)

def execEvqRdWrite (w : Agent) (c : CoreId) (v : Word) (s : State) : Ans := .next (s.writeBy w (coreWord c 0x614) v)

def execEvqWrRead (w : Agent) (c : CoreId) (s : State) : Ans := .next (s.readBy w (coreWord c 0x610)).2

/-! ## Pins (R450, R452, R454) -/

def execGpMuxWrite (w : Agent) (j : Fin 8) (v : Word) (s : State) : Ans :=
  .next (s.writeBy w (BitVec.ofNat 32 (0x30090000 + j.val * 4)) v)

def execGpFiltWrite (w : Agent) (k : Fin 64) (v : Word) (s : State) : Ans :=
  .next (s.writeBy w (BitVec.ofNat 32 (0x30090100 + k.val * 4)) v)

def execGpOwnWrite (w : Agent) (c : CoreId) (hi : Bool) (v : Word) (s : State) : Ans :=
  .next (s.writeBy w (BitVec.ofNat 32 (0x30090200 + c.val * 8 + if hi then 4 else 0)) v)

/-! ## Debug, trace, counters, watchdogs (R459, R461, R467 to R475, R481, R484, R476) -/

def execDbgUnreq (w : Agent) (v : Word) (s : State) : Ans := .next (s.writeBy w 0x300A000C v)

def execDbgRespLo (w : Agent) (v : Word) (s : State) : Ans := .next (s.writeBy w 0x300A0010 v)

def execDbgLock (w : Agent) (s : State) : Ans := .next (s.writeBy w 0x300A0018 1)

def dbgCoreAddr (c : CoreId) : Word := BitVec.ofNat 32 (0x300A0100 + c.val * 8)

def execDbgCoreHalt (w : Agent) (c : CoreId) (s : State) : Ans := .next (s.writeBy w (dbgCoreAddr c) (s.core[c].dbgCore ||| 1))

def execDbgCoreStep (w : Agent) (c : CoreId) (v : Word) (s : State) : Ans :=
  .next (s.writeBy w (dbgCoreAddr c) ((v &&& 0xFFFFFFFE) ||| 2))

def execXtmFire (w : Agent) (lines : BitVec 4) (s : State) : Ans := .next (s.writeBy w 0x300A0020 (fld lines 0))

def execDbgRel (w : Agent) (members : BitVec 18) (s : State) : Ans := .next (s.writeBy w 0x300A0024 (fld members 0))

def execDbgMctlGo (w : Agent) (v : Word) (s : State) : Ans := .next (s.writeBy w 0x300A0200 (v ||| 0x400))

/-- A read of DBG_VDATA makes a debug read of the register at DBG_VADDR. -/
def State.vdataRead (s : State) (w : Agent) : State :=
  let debug := w == .debug || w == .ring
  if debug && 1 ≤ s.dbg.level.toNat && s.canAccess w .dbgVdata then s.viewAccess none else s

def execDbgVdataAccess (w : Agent) (v : Option Word) (s : State) : Ans :=
  match v with
  | some v => .next (s.writeBy w 0x300A0214 v)
  | none => .next (s.vdataRead w)

def execTrcCtlWrite (w : Agent) (v : Word) (s : State) : Ans := .next (s.writeBy w 0x300A0300 v)

def execCntGctlClr (w : Agent) (v : Word) (s : State) : Ans := .next (s.writeBy w 0x300B0500 (v ||| 2))

def execCntnLoWrite (w : Agent) (n : Fin 80) (v : Word) (s : State) : Ans :=
  .next (s.writeBy w (BitVec.ofNat 32 (0x300B0004 + n.val * 0x10)) v)

def execWdtKick (w : Agent) (c : CoreId) (v : Word) (s : State) : Ans :=
  .next (s.writeBy w (BitVec.ofNat 32 (0x300B060C + c.val * 0x10)) v)

/-! ## Nightlog, life cycle, tamper (R498, R499, R501, R504) -/

def execNlCtlClear (w : Agent) (s : State) : Ans := .next (s.writeBy w 0x300C0000 (flag s.night.stop 0 ||| 2))

def execNlSwreq (w : Agent) (s : State) : Ans := .next (s.writeBy w 0x300C004C 1)

def execLcReq (w : Agent) (code : Byte) (s : State) : Ans := .next (s.writeBy w 0x300C0084 (fld code 0))

def execTmpForce (w : Agent) (s : State) : Ans := .next (s.writeBy w 0x300C00C8 1)

end Sys2Proof.Machine
end

