-- ==== Sys2Proof/Machine/DictTab.lean ====
section
/-! DEFINITION. The object dictionary's entries: where each lies, its type, its access and the roles it admits (spec 12, R384 to R404, R411;
R16, R20, R460, R501, R504, R508). -/

namespace Sys2Proof.Machine

open Sys2Proof

/-! ## Abort codes (R390) -/

def abNoIndex : Word := 0x0A010001
def abNoSub : Word := 0x0A010002
def abRdonly : Word := 0x0A020001
def abWronly : Word := 0x0A020002
def abNotHalted : Word := 0x0A020003
def abRole : Word := 0x0A030001
def abLifecycle : Word := 0x0A030002
def abLen : Word := 0x0A040001
def abRange : Word := 0x0A040002
def abType : Word := 0x0A040003
def abNoMain : Word := 0x0A050001
def abMainLost : Word := 0x0A050002
def abMemErr : Word := 0x0A060001
def abMemRefused : Word := 0x0A060002
def abFlash : Word := 0x0A060003
def abDomain : Word := 0x0A070001
def abImage : Word := 0x0A070002
def abLoadBusy : Word := 0x0A070003
def abLocked : Word := 0x0A070004
def abFifo : Word := 0x0A080001
def abStore : Word := 0x0A080002
def abUnlock : Word := 0x0A080003

/-! ## Entries -/

/-- An entry. -/
inductive Obj where
  /-- a U8 count of a record -/
  | count (n : Nat)
  | const (v : Word)
  | name
  | serial
  | save | restore | storeStat | storeGen
  | role | plim | vonly
  | bootAuto | start | marchStartup
  | mirror (r : Reg)
  | bank (c : CoreId) (x : CtxId) (area : BitVec 2) (e : Nat)
  | injData | injWhere | injWhen
  | nlCount | nlNewest | nlSel | nlRec
  | lcState | lcReq
  | intState | intCode | intUnlock | intLock
  | spadImg | flashImg | flashCtlw
  | ucImg | ucSize | ucCtl | ucState | ucStage
  deriving DecidableEq, Repr

/-- A record index: sub-index 0 holds the highest sub-index (R384). -/
def recordAt (l : List Obj) (sub : Byte) : Except Word Obj :=
  if sub = 0 then .ok (.count l.length)
  else match l[sub.toNat - 1]? with
    | some o => .ok o
    | none => .error abNoSub

/-- The block that a mirror index reaches and the index base (R391, R438, R458, R488, R489, R508). -/
def mirrorAt (index : Nat) : Option (Block × Nat) :=
  if 0x3000 ≤ index ∧ index < 0x3400 then
    (if index % 0x40 < 2 then some (.core ⟨(index - 0x3000) / 0x40 % 16, by omega⟩, index / 0x40 * 0x40) else none)
  else if index = 0x2010 then some (.flash, index)
  else if index = 0x2020 then some (.ring, index)
  else if index = 0x2030 then some (.power, index)
  else if index = 0x4000 then some (.transit, index)
  else if index = 0x4010 then some (.ports, index)
  else if 0x5000 ≤ index ∧ index < 0x5005 then some (.events, 0x5000)
  else if index = 0x5010 then some (.gpio, index)
  else if 0x5020 ≤ index ∧ index < 0x5022 then some (.counters, 0x5020)
  else if index = 0x6000 then some (.debug, index)
  else if index = 0x7040 then some (.spad, index)
  else if index = 0x7050 then some (.night, index)
  else none

/-- The context of a bank index (R398). -/
def bankAt (index : Nat) : Option (CoreId × CtxId) :=
  let k := index % 0x40 - 0x10
  if 0x3000 ≤ index ∧ index < 0x3400 ∧ 0x10 ≤ index % 0x40 then
    (if h : k < 9 then some (⟨(index - 0x3000) / 0x40 % 16, by omega⟩, ⟨k, h⟩) else none)
  else none

/-- The entry of a bank at a sub-index. -/
def bankSub (c : CoreId) (x : CtxId) (sub : Nat) : Except Word Obj :=
  let at_ (area : BitVec 2) (e : Nat) : Except Word Obj := if bankHas x area e then .ok (.bank c x area e) else .error abNoSub
  if sub < 0x40 then at_ 0 sub
  else if sub < 0x50 then at_ 1 (sub - 0x40)
  else if sub < 0x61 then at_ 2 (sub - 0x50)
  else if sub < 0x6B then at_ 3 (sub - 0x61)
  else .error abNoSub

/-- The entry at an index and sub-index, or the abort of checks 1 and 2 (R384, R389). -/
def dictAt (index : BitVec 16) (sub : Byte) : Except Word Obj :=
  let value (o : Obj) : Except Word Obj := if sub = 0 then .ok o else .error abNoSub
  match mirrorAt index.toNat with
  | some (b, base) =>
    match b.reg ((index.toNat - base) * 256 + sub.toNat) with
    | some (.winsel _) => .error abNoSub
    | some (.windat _) => .error abNoSub
    | some r => .ok (.mirror r)
    | none => .error abNoSub
  | none =>
    match bankAt index.toNat with
    | some (c, x) => bankSub c x sub.toNat
    | none =>
      match index.toNat with
      | 0x1000 => value (.const 0x48580040)
      | 0x1008 => value .name
      | 0x1010 => recordAt [.save] sub
      | 0x1011 => recordAt [.restore] sub
      | 0x1012 => recordAt [.storeStat, .storeGen] sub
      | 0x1018 => recordAt [.const 0x00000B57, .const 0x00480040, .const 0x00010000, .serial] sub
      | 0x1020 => recordAt [.role, .plim, .vonly] sub
      | 0x2000 => recordAt [.bootAuto, .start, .marchStartup] sub
      | 0x4020 => recordAt [.injData, .injWhere, .injWhen] sub
      | 0x7000 => recordAt [.nlCount, .nlNewest, .nlSel, .nlRec] sub
      | 0x7010 => recordAt [.lcState, .lcReq] sub
      | 0x7020 => recordAt [.intState, .intCode, .intUnlock, .intLock] sub
      | 0x8000 => recordAt [.spadImg] sub
      | 0x8010 => recordAt [.flashImg, .flashCtlw] sub
      | 0x8020 => recordAt [.ucImg, .ucSize, .ucCtl, .ucState, .ucStage] sub
      | _ => .error abNoIndex

/-! ## Types and access (R385, R386, R392) -/

inductive Ty where
  | bool | u8 | u16 | u32 | u64 | str | domain
  deriving DecidableEq, Repr

def Obj.ty (o : Obj) : Ty :=
  match o with
  | .count _ | .role | .marchStartup | .lcState | .lcReq | .intState | .ucCtl => .u8
  | .vonly | .bootAuto | .intLock => .bool
  | .plim | .start | .nlCount | .nlNewest | .nlSel => .u16
  | .intCode | .intUnlock | .flashCtlw => .u64
  | .name => .str
  | .nlRec | .spadImg | .flashImg | .ucImg => .domain
  | _ => .u32

/-- Payload bytes of a value. -/
def Ty.size (t : Ty) : Nat :=
  match t with
  | .bool | .u8 => 1 | .u16 => 2 | .u32 => 4 | .u64 => 8 | .str => 9 | .domain => 32

inductive Access where
  | ro | wo | rw | rwh | rws
  deriving DecidableEq, Repr

def Obj.access (o : Obj) : Access :=
  match o with
  | .mirror r => match r.acc with | .ro => .ro | .wo => .wo | .rwh => .rwh | .rw => .rw
  | .bank .. => .rws
  | .save | .restore | .start | .injWhen | .lcReq | .intCode | .intUnlock | .intLock | .flashCtlw | .ucCtl => .wo
  | .bootAuto | .marchStartup | .injData | .injWhere | .nlSel | .spadImg | .flashImg | .ucImg | .ucStage => .rw
  | _ => .ro

/-! ## Roles (R387, R388, R460, R465, R501, R504, R508) -/

/-- Who makes a dictionary access: the roles it holds, its debug level, the port it came in on and its sender. `jtag`: a DACC
operation. -/
structure Req where
  readHost : Bool
  writeHost : Bool
  integ : Bool
  lvl : Nat
  port : Option PortId
  src : Byte
  jtag : Bool
  deriving DecidableEq, Repr

/-- The Cfg role. -/
def State.cfg (s : State) (q : Req) : Bool := if s.sealed then q.integ else q.writeHost

/-- The role for a life-cycle request. -/
def State.lcRole (s : State) (q : Req) : Bool := q.lvl == 2 || (if s.sealed then q.integ else q.writeHost)

/-- The role of a write through a mirror of the Nightlog block. -/
def State.nightRole (s : State) (q : Req) (r : Reg) : Bool :=
  match r with
  | .nlCtl | .tmpCtl => s.cfg q || q.lvl == 2
  | .lcyReq => s.lcRole q
  | _ => q.writeHost

/-- Reads that the debug path may make at every level: DBG_LVL and the challenge. -/
def freeDebugRead (r : Reg) : Bool := match r with | .dbgLvl | .dbgChal _ => true | _ => false

/-- Check 3: the access holds the role that the area of the index, or the entry itself, asks for. -/
def State.roleOk (s : State) (q : Req) (index : BitVec 16) (o : Obj) (write : Bool) : Bool :=
  let page := index.toNat / 0x1000
  let full := q.integ || q.lvl == 2
  match o with
  | .bank .. => full
  | .ucImg | .ucSize | .ucCtl | .ucState | .ucStage => full
  | .lcReq => s.lcRole q
  | .intCode | .intUnlock | .intLock => q.writeHost
  | .mirror r =>
    match r.block with
    | .debug => if write then decide (dbgNeeds r ≤ q.lvl) else 1 ≤ q.lvl || freeDebugRead r
    | .night => if write then s.nightRole q r else q.readHost
    | .spad => if write then s.cfg q else q.readHost
    | _ => if !write then q.readHost else if page = 4 ∨ page = 5 then q.writeHost else s.cfg q
  | .count _ => if index = 0x8020 then full else q.readHost
  | _ =>
    if !write then q.readHost
    else if page = 1 ∨ page = 2 ∨ page = 8 then s.cfg q else q.writeHost

/-! ## Saved entries and held values (R411, R412) -/

/-- The saved registers, numbered 2 to 42 after BOOT_AUTO and MARCH_STARTUP; those from 13 on are in the main domain. -/
def heldRegs : List Reg :=
  [.ringCtl, .ringEtype, .ringErrwin] ++ (List.finRange 4).map Reg.rpCtl ++ (List.finRange 4).map Reg.msAsym ++
  (List.finRange 8).map Reg.tbCfg ++ (List.finRange 8).map Reg.portCtl ++
  ((List.finRange 4).flatMap fun n => [Reg.msCtl n, .msSrc n, .msDotper n]) ++ [.flCtl, .fabWin]

/-- The number of a saved register. -/
def heldIdx (r : Reg) : Option (Fin 43) :=
  match heldRegs.findIdx? (· == r) with
  | some i => if h : i + 2 < 43 then some ⟨i + 2, h⟩ else none
  | none => none

/-- The register of saved entry `i`. -/
def heldReg (i : Fin 43) : Option Reg := if i.val < 2 then none else heldRegs[i.val - 2]?

/-- A saved register of the main domain. -/
def mainHeld (r : Reg) : Option (Fin 43) :=
  match heldIdx r with
  | some i => if 13 ≤ i.val then some i else none
  | none => none

/-- Index, sub-index and size of saved entry `i`. -/
def heldAddr (i : Fin 43) : BitVec 16 × Byte × Nat :=
  let n := i.val
  if n = 0 then (0x2000, 1, 1)
  else if n = 1 then (0x2000, 3, 1)
  else if n < 5 then (0x2020, (if n = 2 then 0 else if n = 3 then 3 else 4), 4)
  else if n < 9 then (0x2020, BitVec.ofNat 8 (0x10 + 8 * (n - 5)), 4)
  else if n < 13 then (0x4010, BitVec.ofNat 8 (0x81 + 4 * (n - 9)), 4)
  else if n < 21 then (0x4000, BitVec.ofNat 8 (0x40 + 16 * (n - 13)), 4)
  else if n < 29 then (0x4010, BitVec.ofNat 8 (4 * (n - 21)), 4)
  else if n < 41 then (0x4010, BitVec.ofNat 8 (0x40 + 8 * ((n - 29) / 3) + (n - 29) % 3), 4)
  else (0x2010, (if n = 41 then 0 else 3), 4)

/-- The saved entry that a record names. -/
def heldAt (index : BitVec 16) (sub : Byte) : Option (Fin 43) :=
  (List.finRange 43).find? fun i => (heldAddr i).1 == index && (heldAddr i).2.1 == sub

/-- What a saved register's reset value is. -/
def heldDefault (i : Fin 43) : Word :=
  match heldReg i with
  | some r => State.reset.regWord .ring r
  | none => if i = 1 then 1 else 0

/-! ## Which entries need the main domain (R374, R415, R463) -/

inductive Need where
  /-- answered by the Vesper agent at any time -/
  | vesper
  /-- a saved register: its held value answers while the main domain is in reset -/
  | held (i : Fin 43)
  | main
  deriving DecidableEq, Repr

def Obj.need (index : BitVec 16) (o : Obj) : Need :=
  let area := index.toNat / 0x1000
  match o with
  | .mirror r =>
    if r.inVesper then .vesper
    else match mainHeld r with
      | some i => .held i
      | none => .main
  | .bootAuto => .vesper
  | .marchStartup => .vesper
  | _ => if area = 1 ∨ area = 7 then .vesper else .main

end Sys2Proof.Machine
end

