-- ==== Sys2Proof/Machine/Dict.lean ====
section
/-! DEFINITION. What a dictionary access does: values, actions, transfers of DOMAIN objects, the parameter store (spec 12). -/

namespace Sys2Proof.Machine

open Sys2Proof

def State.modDict (s : State) (f : Dict → Dict) : State := { s with dict := f s.dict }

/-- How an access, or a command, ends: done with a payload, aborted, answered with a STATUS of its own, begun and waiting for what
`busy` names, or unable to run yet. -/
inductive Ran where
  | ok (payload : List Byte)
  | abort (code : Word)
  | status (st : Byte)
  | busy (b : Busy)
  | wait
  deriving DecidableEq, Repr

abbrev RanS := Ran × State

/-! ## The parameter store (R410, R413, R414) -/

/-- Bytes of `n` rows of the store from row `r`. -/
def Night.storeBytes (n : Night) (r k : Nat) : List Byte :=
  (List.range k).flatMap fun i => (List.range 32).map fun j => lineByte (n.keyRow (r + i)) j

/-- A record of an image: index, sub-index, value. -/
structure StoreRec where
  index : BitVec 16
  sub   : Byte
  value : BitVec 64
  deriving DecidableEq, Repr

/-- The records in `bytes`, or none where the last does not fit. -/
def parseRecs : Nat → List Byte → Option (List StoreRec)
  | 0, l => if l.isEmpty then some [] else none
  | fuel + 1, l =>
    if l.isEmpty then some []
    else
      let size := (l.getD 3 0).toNat
      let full := 4 + if size ≤ 4 then 4 else 8
      if l.length < full ∨ 8 < size then none
      else
        let r : StoreRec := ⟨ofBytes 16 (l.take 2), l.getD 2 0, ofBytes 64 ((l.drop 4).take size)⟩
        (parseRecs fuel (l.drop full)).map (r :: ·)

/-- An image slot: its first row, generation, length and records. -/
structure Image where
  row  : Nat
  gen  : Word
  len  : BitVec 16
  recs : List StoreRec
  deriving DecidableEq, Repr

def storeMarker : Word := 0x53505848

/-- The header of a slot, where its MARKER agrees: GEN. -/
def Night.headerGen (n : Night) (row : Nat) : Option Word :=
  let h := n.storeBytes row 1
  if (ofBytes 32 (h.take 4) : Word) = storeMarker then some (ofBytes 32 ((h.drop 4).take 4)) else none

/-- The image in a slot, when it is valid: MARKER, LEN, COUNT and CRC agree. -/
def Night.image (n : Night) (row : Nat) : Option Image :=
  match n.headerGen row with
  | none => none
  | some gen =>
    let h := n.storeBytes row 1
    let len : BitVec 16 := ofBytes 16 ((h.drop 8).take 2)
    let count : BitVec 16 := ofBytes 16 ((h.drop 10).take 2)
    if 4032 < len.toNat then none
    else
      let body := (n.storeBytes (row + 1) ((len.toNat + 31) / 32)).take len.toNat
      match parseRecs 512 body with
      | none => none
      | some recs =>
        if recs.length = count.toNat ∧ crc32 body = ofBytes 32 ((h.drop 12).take 4) then some ⟨row, gen, len, recs⟩ else none

/-- The first rows of slots A and B. -/
def slotA : Nat := 0
def slotB : Nat := 127

/-- The current image, and whether the newer one was invalid and the older is used (R414). -/
def Night.current (n : Night) : Option Image × Bool :=
  let newer (row : Nat) (i : Image) : Bool := match n.headerGen row with | some g => decide (i.gen.toNat < g.toNat) | none => false
  match n.image slotA, n.image slotB with
  | some a, some b => (some (if a.gen.toNat < b.gen.toNat then b else a), false)
  | some a, none => (some a, newer slotB a)
  | none, some b => (some b, newer slotA b)
  | none, none => (none, false)

/-- STORE_GEN and STORE_STAT.LEN follow the current image. -/
def State.storeRefresh (s : State) : State :=
  match (s.night.current).1 with
  | some i => s.modDict fun d => { d with stGen := i.gen, stLen := i.len }
  | none => s.modDict fun d => { d with stGen := 0, stLen := 0 }

/-- Rows of 32 bytes. -/
def rowsOf (bytes : List Byte) (n : Nat) : List Line := (List.range n).map fun i => ofBytes 256 ((bytes.drop (32 * i)).take 32)

/-- The records of the 43 saved entries (R411). -/
def Dict.recordBytes (d : Dict) : List Byte :=
  (List.finRange 43).flatMap fun i =>
    let a := heldAddr i
    toBytes 2 a.1 ++ [a.2.1, BitVec.ofNat 8 a.2.2] ++ toBytes 4 d.held[i]

/-- An image's header (R410). -/
def headerBytes (gen : Word) (body : List Byte) : List Byte :=
  toBytes 4 storeMarker ++ toBytes 4 gen ++ toBytes 2 (BitVec.ofNat 16 body.length) ++ toBytes 2 (43#16) ++
  toBytes 4 (crc32 body) ++ List.replicate 16 0

/-- A write of rows of the store begins. -/
def State.storeRows (s : State) (rows : List (Nat × Line)) : State :=
  (({ s with night := { s.night with wantParam := rows } } : State).modDict fun d => { d with nvmErr := false }).nvmKick

/-- Each main-domain saved register is copied into its held value (R413); a Vesper entry keeps the held value it has (DEDUCED, log 25). -/
def State.copyHeld (s : State) : State :=
  if s.power.mainRst || !s.power.heldDone then s
  else s.modDict fun d =>
    { d with held := Vector.ofFn fun i =>
        match heldReg i with
        | some r => if 13 ≤ i.val then s.regWord .ring r else d.held[i]
        | none => d.held[i] }

/-- SAVE (R413): the records first, then the header. -/
def State.saveBegin (s : State) : State :=
  let s := s.copyHeld
  let cur := (s.night.current).1
  let row := match cur with | some i => if i.row = slotA then slotB else slotA | none => slotA
  let gen := match cur with | some i => i.gen + 1 | none => 1
  let body := s.dict.recordBytes
  let rows := ((List.range 11).map fun i => row + 1 + i).zip (rowsOf body 11)
  s.storeRows (rows ++ [(row, ofBytes 256 (headerBytes gen body))])

/-- RESTORE (R414): both headers become invalid. -/
def State.restoreBegin (s : State) : State := s.storeRows [(slotA, 0), (slotB, 0)]

/-- INT_CODE (R403, R410). -/
def State.codeBegin (s : State) (v : BitVec 64) : State :=
  let copy := toBytes 8 v ++ toBytes 4 (crc32 (toBytes 8 v))
  s.storeRows [(254, ofBytes 256 (copy ++ copy)), (255, 0)]

/-- The store's rows are written, or one failed (R413). -/
def State.storeDone (s : State) : Option RanS :=
  let busy := !s.night.wantParam.isEmpty || (match s.night.cur with | some (.param ..) => true | _ => false)
  if busy then none
  else some (if s.dict.nvmErr then .abort abStore else .ok [], s.storeRefresh)

/-! ## START (R397) -/

def startSel (mask : BitVec 16) : List CoreId := (List.finRange 16).filter fun c => mask.getLsbD c.val

def State.startReady (s : State) (mask : BitVec 16) : Bool := (startSel mask).all fun c => s.core[c].chkDone

/-- The selected cores that can start do; RANGE where any did not. -/
def State.startCores (s : State) (mask : BitVec 16) : RanS :=
  let can (s : State) (c : CoreId) : Bool := (s.ctx c 0).st == .idle && !s.core[c].chkFail
  let all := (startSel mask).all fun c => can s c
  let s := (startSel mask).foldl (fun s c => if can s c then s.startCtx c 0 3 else s) s
  (if all then .ok [] else .abort abRange, s)

/-! ## Ring transits (R207, R401) -/

/-- INJ_WHEN. -/
def State.inject (s : State) (v : Word) : RanS :=
  let w := s.dict.injWhere
  let target : BitVec 20 := bits w 0 20
  let be : BitVec 4 := bits w 20 4
  let tag : BitVec 4 := bits w 24 4
  let mode : BitVec 4 := bits w 28 4
  if !s.transitOk none v be tag mode target then (.abort abRange, s)
  else if !s.transit.ringEn || 8 ≤ s.transit.ringFifo.length then (.abort abFifo, s)
  else (.ok [], s.modTransit fun x => { x with ringFifo := x.ringFifo ++ [s.mkStaged v be tag mode target s.dict.injData false] })

/-! ## Integrator role (R403) -/

def State.intState (s : State) : Nat :=
  if s.night.intCode.isNone then 0 else if 8 ≤ s.dict.intFails then 3 else if s.dict.intUnlocked then 2 else 1

/-- INT_UNLOCK. -/
def State.unlock (s : State) (v : BitVec 64) : RanS :=
  if s.dict.intFails < 8 ∧ s.night.intCode = some v then (.ok [], s.modDict fun d => { d with intUnlocked := true, intFails := 0 })
  else
    let n := s.dict.intFails + 1
    (.abort abUnlock, s.modDict fun d => { d with intFails := n, intUnlocked := d.intUnlocked && decide (n < 8) })

/-! ## Transfers: scratchpad (R405) -/

/-- The whole span lies where SPAD_IMG reaches. -/
def spanOk (off n : Nat) : Bool :=
  (0x01000000 ≤ off && off + n ≤ 0x01400000) || (0x02000000 ≤ off && off + n ≤ 0x02780000)

/-- The words are read; one that is uncorrectable ends the transfer. -/
def State.readWords (s : State) : List Nat → List Byte → RanS
  | [], acc => (.ok acc, s)
  | w :: ws, acc =>
    if s.destroyed w then (.abort abMemRefused, s)
    else match (s.granted 17 w).spadRead w with
      | (some v, s) => s.readWords ws (acc ++ toBytes 4 v)
      | (none, s) => (.abort abMemErr, s)

/-- The words are written, each as one access of master 17, until one meets a destroying march run. -/
def State.writeWords (s : State) : List (Nat × Word) → RanS
  | [] => (.ok [], s)
  | (w, v) :: ws =>
    if s.destroyed w then (.abort abMemRefused, s) else ((s.granted 17 w).spadPut w v 0xF none).writeWords ws

/-- Whether a transfer must wait: one of its words that come before any bank under a destroying run, where it stops, cannot be had yet
(R281, R285, R405). -/
def State.imgWaits (s : State) (ws : List Nat) : Bool := (ws.takeWhile fun w => !s.destroyed w).any fun w => !s.wordFree w

def wordAddrs (off n : Nat) : List Nat := (List.range (n / 4)).map fun i => off + 4 * i

/-- The words of a payload. -/
def wordsOf (data : List Byte) : List Word := (List.range (data.length / 4)).map fun i => ofBytes 32 ((data.drop (4 * i)).take 4)

/-- The first word of a span that lies in the secure region. -/
def spanSecure (off n : Nat) : Option Nat :=
  if off < 0x02800000 ∧ 0x02780000 < off + n then some (max off 0x02780000) else none

/-- A transfer of `n` bytes at plain address `off`: a read, or a write of `data`. -/
def State.spadImg (s : State) (off n : Nat) (data : Option (List Byte)) : RanS :=
  if !spanOk off n then (.abort abMemRefused, match spanSecure off n with | some w => s.secRefuse w 17 | none => s)
  else if s.imgWaits (wordAddrs off n) then (.wait, s)
  else match data with
    | none => s.readWords (wordAddrs off n) []
    | some d => s.writeWords ((wordAddrs off n).zip (wordsOf d))

/-! ## Transfers: flash (R317, R406) -/

/-- A request of the ring agent is at the flash port. -/
def Flash.ringAsks (f : Flash) : Bool :=
  let mine (r : FlashReq) : Bool := r.users.contains .ring
  f.queue.any mine || (List.finRange 4).any fun t => match f.tags[t] with | some r => mine r | none => false

/-- The next flash access of the running transfer goes to the port. -/
def State.flashNext (s : State) : State :=
  match s.dict.flashTodo with
  | [] => s
  | (a, d) :: rest =>
    if s.flash.ringAsks || s.dict.flashErr then s
    else
      let s := s.modDict fun k => { k with flashTodo := rest }
      match d with
      | none => s.flashAsk (lineOf (0x10000000#32 ||| fld a 2)) .ring
      | some w => s.modFlash fun f => { f with queue := f.queue ++ [{ cmd := 1, addr := a, data := w, be := 0xF, users := [.ring] }] }

/-- A transfer begins: nothing is skipped or wanted of a write. -/
def State.flashBegin (s : State) (todo : List (BitVec 26 × Option Word)) (skip want : Nat) : RanS :=
  if !s.flash.pen then (.abort abFlash, s)
  else if todo.isEmpty then (.ok [], s)
  else
    let s := s.modDict fun d => { d with flashErr := false, flashTodo := todo, flashGot := [], flashSkip := skip, flashWant := want }
    (.busy .flash, s.flashNext)

/-- FLASH_IMG. -/
def State.flashImg (s : State) (off n : Nat) (data : Option (List Byte)) : RanS :=
  if 0x10000000 < off + n then (.abort abMemRefused, s)
  else match data with
    | some d =>
      s.flashBegin (((wordAddrs off n).zip (wordsOf d)).map fun p => (BitVec.ofNat 26 (p.1 / 4), some p.2)) 0 0
    | none =>
      let first := off / 32
      let lines := if n = 0 then 0 else (off + n - 1) / 32 - first + 1
      s.flashBegin ((List.range lines).map fun i => (BitVec.ofNat 26 (8 * (first + i)), none)) (off % 32 / 4) (n / 4)

/-- A control write. -/
def State.flashCtl (s : State) (v : BitVec 64) : RanS :=
  if !s.flash.pen then (.abort abFlash, s)
  else
    let s := s.modDict fun d => { d with flashErr := false, flashTodo := [], flashGot := [], flashSkip := 0, flashWant := 0 }
    let r : FlashReq := { cmd := 2, addr := bits v 32 26, data := bits v 0 32, be := 0xF, users := [.ring] }
    (.busy .flash, s.modFlash fun f => { f with queue := f.queue ++ [r] })

/-- The flash accesses of the running transfer: none while they go on. -/
def State.flashDone (s : State) : Option RanS :=
  let d := s.dict
  if d.flashErr then
    if s.flash.ringAsks then none
    else some (.abort abFlash, s.modDict fun d => { d with flashTodo := [], flashErr := false })
  else if s.flash.ringAsks || !d.flashTodo.isEmpty then none
  else some (.ok (((d.flashGot.drop d.flashSkip).take d.flashWant).flatMap (toBytes 4)), s)

/-! ## Transfers: microcode (R188, R407, R408) -/

def ucBytes : Nat := 24576

/-- The staging area lies where UC_STAGE must place it. -/
def stageOk (v : Word) : Bool := v.toNat % 4 == 0 && 0x02000000 ≤ v.toNat && v.toNat + ucBytes ≤ 0x02780000

/-- A microcode image as read. -/
structure UcImage where
  cores   : BitVec 16
  flags   : Byte
  words   : List (BitVec 12 × UWord)
  vectors : List (Byte × BitVec 16)
  patches : List (Fin 64 × Word)
  deriving DecidableEq, Repr

/-- `n` pieces of `k` bytes. -/
def pieces (n k : Nat) (l : List Byte) : List (List Byte) := (List.range n).map fun i => (l.drop (k * i)).take k

/-- The checks of R188, or the reason of R408. -/
def State.ucCheck (s : State) (b : List Byte) : Except Byte UcImage :=
  let u16 (i : Nat) : BitVec 16 := ofBytes 16 ((b.drop i).take 2)
  let nw := (u16 6).toNat
  let nv := (u16 8).toNat
  let np := (b.getD 10 0).toNat
  let flags := b.getD 11 0
  let body := b.drop 16
  if (ofBytes 32 (b.take 4) : Word) ≠ 0x43555848 then .error 1
  else if 1024 < nw ∨ 256 < nv ∨ 64 < np ∨ b.length ≠ 16 + 20 * nw + 4 * nv + 8 * np ∨ 4 ≤ flags.toNat then .error 2
  else if crc32 body ≠ ofBytes 32 ((b.drop 12).take 4) then .error 3
  else
    let ws := pieces nw 20 body
    let vs := pieces nv 4 (body.drop (20 * nw))
    let ps := pieces np 8 (body.drop (20 * nw + 4 * nv))
    let addr (w : List Byte) : BitVec 16 := ofBytes 16 (w.take 2)
    let word (w : List Byte) : UWord := ofBytes 144 (w.drop 2)
    let entry (v : List Byte) : BitVec 16 := ofBytes 16 (v.drop 2)
    let value (p : List Byte) : Word := ofBytes 32 (p.drop 4)
    let wordOk (w : List Byte) : Bool := 0xC00 ≤ (addr w).toNat && (addr w).toNat < 0x1000 && legalWord (word w)
    let vecOk (v : List Byte) : Bool := v.getD 1 0 == 0 && legalVector (entry v)
    let patOk (p : List Byte) : Bool :=
      decide ((p.headD 0).toNat < 64) && ((p.drop 1).take 3).all (· == 0) && s.patchOk (value p)
    if !ws.all wordOk then .error 4
    else if !vs.all vecOk then .error 4
    else if !ps.all patOk then .error 5
    else if u16 4 = 0 then .error 6
    else .ok { cores := u16 4, flags := flags, words := ws.map fun w => (bits (addr w) 0 12, word w),
               vectors := vs.map fun v => (v.headD 0, entry v),
               patches := ps.map fun p => ((bits (p.headD 0) 0 6 : BitVec 6).toFin, value p) }

/-- What an accepted image writes into a core. Vectors that FLAGS marks not valid are cleared whole: their other bits read 0 after
(DESIGN CHOICE, log 57). -/
def UcImage.put (m : UcImage) (k : Core) : Core :=
  let k : Core := if m.flags.getLsbD 0 then { k with patch := Vector.replicate 64 0, wroteAny := true, wrotePatch := true } else k
  let k : Core := if m.flags.getLsbD 1 then { k with uvec := [], wroteAny := true } else k
  let k := m.words.foldl (fun (k : Core) (w : BitVec 12 × UWord) => k.putWord w.1 w.2) k
  let k := m.vectors.foldl (fun (k : Core) (v : Byte × BitVec 16) => k.putVector v.1 v.2) k
  m.patches.foldl (fun (k : Core) (p : Fin 64 × Word) => k.putPatch p.1 p.2) k

/-- The staged bytes below UC_SIZE. -/
def State.staged (s : State) : RanS :=
  let n := (s.dict.ucSize + 3) / 4 * 4
  match s.readWords (wordAddrs s.dict.ucStage.toNat n) [] with
  | (.ok b, s) => (.ok (b.take s.dict.ucSize), s)
  | r => r

/-- The transfer is over: no byte is staged in an open one (R404, R408). -/
def State.ucIdle (s : State) (reason : Byte) : State := s.modDict fun d => { d with ucState := 0, ucSize := 0, ucReason := reason }

/-- A refused microword or patch of an image is shown in UC_LDSTAT as well (R183, R184). -/
def State.ucFlag (s : State) (reason : Byte) : State :=
  s.modLoad fun l => { l with badWord := l.badWord || reason == 4, protect := l.protect || reason == 5 }

/-- The checked image, or how COMMIT ends. -/
def State.ucImage (s : State) : Except Ran UcImage × State :=
  match s.staged with
  | (.ok b, s) =>
    match s.ucCheck b with
    | .ok m => (.ok m, s)
    | .error r => (.error (.abort abImage), (s.ucIdle r).ucFlag r)
  | (r, s) => (.error r, s.ucIdle s.dict.ucReason)

/-- COMMIT: the image is checked and its cores are held. -/
def State.ucCommit (s : State) : RanS :=
  if s.dict.ucState ≠ 1 then (.abort abDomain, s)
  else if s.imgWaits (wordAddrs s.dict.ucStage.toNat ((s.dict.ucSize + 3) / 4 * 4)) then (.wait, s)
  else match s.ucImage with
    | (.error r, s) => (r, s)
    | (.ok m, s) =>
      if s.load.lock then (.abort abLocked, s.ucIdle s.dict.ucReason)
      else if s.load.hold && !s.load.owner then (.abort abLoadBusy, s)
      else (.busy .commit, (s.modDict fun d => { d with ucState := 2 }).modLoad fun l => { l with cores := m.cores, hold := true, owner := true })

/-- The cores are held: the image is written and HOLD cleared. An image that no longer passes writes nothing. -/
def State.ucDone (s : State) : Option RanS :=
  let held := (List.finRange 16).all fun c => !s.load.cores.getLsbD c.val || s.core[c].held
  if !held || s.imgWaits (wordAddrs s.dict.ucStage.toNat ((s.dict.ucSize + 3) / 4 * 4)) then none
  else match s.ucImage with
    | (.error r, s) => some (r, s.releaseHold)
    | (.ok m, s) =>
      let s := s.allCores fun c k => if s.load.cores.getLsbD c.val then m.put k else k
      some (.ok [], s.releaseHold.ucIdle 0)

/-- A DWRITE of UC_IMG: RANGE is found first, by check 8 of R389. -/
def State.ucWriteImg (s : State) (off : Nat) (data : List Byte) : RanS :=
  if ucBytes < s.dict.ucSize + data.length then (.abort abRange, s)
  else if s.dict.ucState ≠ 1 ∨ off ≠ s.dict.ucSize then (.abort abDomain, s)
  else if s.imgWaits (wordAddrs (s.dict.ucStage.toNat + off) data.length) then (.wait, s)
  else match s.writeWords ((wordAddrs (s.dict.ucStage.toNat + off) data.length).zip (wordsOf data)) with
    | (.ok b, s) => (.ok b, s.modDict fun d => { d with ucSize := d.ucSize + data.length })
    | r => r

/-- A DREAD of UC_IMG. -/
def State.ucReadImg (s : State) (off n : Nat) : RanS :=
  if s.dict.ucState ≠ 1 then (.abort abDomain, s)
  else if s.dict.ucSize < off + n then (.abort abMemRefused, s)
  else if s.imgWaits (wordAddrs (s.dict.ucStage.toNat + off) n) then (.wait, s)
  else s.readWords (wordAddrs (s.dict.ucStage.toNat + off) n) []

/-- UC_CTL. -/
def State.ucCtl (s : State) (v : Byte) : RanS :=
  if v = 1 then (.ok [], s.modDict fun d => { d with ucState := 1, ucSize := 0 })
  else if v = 2 then s.ucCommit
  else if v = 3 then (.ok [], s.ucIdle s.dict.ucReason)
  else (.abort abRange, s)

/-! ## Life cycle (R501, R502) -/

/-- LC_REQ. -/
def State.lcReqDict (s : State) (q : Req) (code : Byte) : RanS :=
  let st := s.night.lcState
  if code.toNat ≠ st.toNat + 1 then (.abort abRange, s)
  else match s.lcBegin code 0xFF (if q.jtag then 3 else 1) (if q.jtag then 0xFF else q.src) true with
    | some s => (.busy (.lifecycle (bits code 0 2)), s)
    | none => (.abort abLifecycle, s)

/-- The transition has ended: LC_STATE has not changed where its row failed. -/
def State.lcDone (s : State) (code : BitVec 2) : Option RanS :=
  if s.night.move.isSome then none
  else some (if s.night.lcState = code then .ok [] else .abort abLifecycle, s)

/-! ## Memory through a halted core (R473, R474) -/

/-- The abort of a refused access. -/
def mctlAbort (code : Byte) : Word := if code = fcEcc then abMemErr else if code = fcFlash then abFlash else abMemRefused

def State.mctlEnd (s : State) : Ran := if s.dbg.mFailed then .abort (mctlAbort s.dbg.mFcode) else .ok []

def State.mctlDone (s : State) : Option RanS := if s.dbg.mBusy then none else some (s.mctlEnd, s)

/-- A write of DBG_MCTL through the dictionary. -/
def State.mctlDict (s : State) (v : Word) : RanS :=
  if s.dbg.mBusy then (.wait, s)
  else if !v.getLsbD 10 then (.ok [], s.modDbg fun g => g.mctlFields v)
  else if !s.core[(bits v 0 4 : BitVec 4).toFin].halted then (.abort abNotHalted, s)
  else match (s.modDbg fun g => g.mctlFields v).mctlTry with
    | none => (.wait, s)
    | some s => if s.dbg.mBusy then (.busy .debugMem, s) else (s.mctlEnd, s)

/-! ## What an operation under way has come to -/

/-- The end of an operation that was begun, if it has come. -/
def State.poll (s : State) (b : Busy) : Option RanS :=
  match b with
  | .start m => if s.startReady m then some (s.startCores m) else none
  | .nvm => s.storeDone
  | .lifecycle code => s.lcDone code
  | .flash => s.flashDone
  | .debugMem => s.mctlDone
  | .commit => s.ucDone

/-- An operation in the main domain (R374). -/
def Busy.inMain (b : Busy) : Bool := match b with | .nvm => false | .lifecycle _ => false | _ => true

/-! ## Values (R395 to R404) -/

def w8 (v : Word) : List Byte := toBytes 1 v
def w16 (v : Word) : List Byte := toBytes 2 v
def w32 (v : Word) : List Byte := toBytes 4 v
def ofBool (b : Bool) : List Byte := [if b then 1 else 0]
def ofNat8 (n : Nat) : List Byte := [BitVec.ofNat 8 n]

def deviceName : List Byte := [0x48, 0x65, 0x78, 0x6E, 0x61, 0x72, 0x2D, 0x36, 0x34]

def Req.roleByte (q : Req) (write : Bool) : Byte :=
  BitVec.ofNat 8 ((if (if write then q.writeHost else q.readHost) then 1 else 0) + (if q.integ then 2 else 0) +
    (if 1 ≤ q.lvl then 4 else 0) + if q.lvl = 2 then 8 else 0)

def Req.agent (q : Req) : Agent := if q.jtag then .debug else .ring

/-- A register as the dictionary reads it: a DACC read is a debug read, and DBG_VDATA reads the register view. -/
def State.mirrorRead (s : State) (q : Req) (r : Reg) : RanS :=
  match r with
  | .dbgVdata =>
    let a := s.dbg.vaddr.toNat
    if a < 0x30000000 ∨ 0x3F000000 ≤ a then (.abort abMemRefused, s)
    else
      let s := s.viewAccess none
      (.ok (w32 s.dbg.vdata), s)
  | r => let x := s.regRead q.agent r; (.ok (w32 x.1), x.2)

/-- The value of an entry that may be read now. -/
def State.objRead (s : State) (q : Req) (o : Obj) : RanS :=
  let d := s.dict
  let ok (l : List Byte) : RanS := (.ok l, s)
  match o with
  | .count n => ok (ofNat8 n)
  | .const v => ok (w32 v)
  | .name => ok deviceName
  | .serial => ok (w32 Config.serial)
  | .storeStat => ok (w32 (flag d.stValid 0 ||| flag d.fallback 1 ||| flag d.skip 2 ||| flag d.nvmErr 3 ||| fld d.stLen 16))
  | .storeGen => ok (w32 d.stGen)
  | .role => ok [q.roleByte false]
  | .plim =>
    match q.port with
    | some p => ok (w16 (BitVec.ofNat 32 (limitD s.ring.port[p].genUse)))
    | none => let x := s.free; (.ok (w16 x.1), x.2)
  | .vonly => ok (ofBool s.power.mainRst)
  | .bootAuto => ok (ofBool d.bootAuto)
  | .marchStartup => ok [d.marchStartup]
  | .mirror r => s.mirrorRead q r
  | .bank c x area e => ok (w32 ((s.ctx c x).bankRead x area e))
  | .injData => ok (w32 d.injData)
  | .injWhere => ok (w32 d.injWhere)
  | .nlCount => ok (w16 (BitVec.ofNat 32 s.night.count))
  | .nlNewest => ok (w16 (BitVec.ofNat 32 s.night.newest))
  | .nlSel => ok (toBytes 2 d.nlSel)
  | .nlRec => ok (toBytes 32 (s.night.readSlot d.nlSel.toNat))
  | .lcState => ok (ofNat8 s.night.lcState.toNat)
  | .intState => ok (ofNat8 s.intState)
  | .ucSize => ok (w32 (BitVec.ofNat 32 d.ucSize))
  | .ucState => ok (w32 (fld d.ucState 0 ||| fld d.ucReason 8))
  | .ucStage => ok (w32 d.ucStage)
  | _ => ok []

/-! ## Writes -/

/-- A saved entry's register takes a value, and its held value is what it reads as. -/
def State.noteHeld (s : State) (r : Reg) : State :=
  match heldIdx r with
  | some i => let v := s.regWord .ring r; s.modDict fun d => { d with held := d.held.set i v }
  | none => s

/-- A held value alone, as the register would keep it (R412). -/
def State.setHeld (s : State) (i : Fin 43) (v : Word) : State :=
  match heldReg i with
  | some r =>
    let kept := (State.reset.regWriteRaw .ring r v).regWord .ring r
    s.modDict fun d => { d with held := d.held.set i kept }
  | none => s

/-- A write through a mirror (R393). -/
def State.mirrorWrite (s : State) (q : Req) (r : Reg) (v : Word) : RanS :=
  match r with
  | .dbgMctl => s.mctlDict v
  | .dbgVdata =>
    let a := s.dbg.vaddr.toNat
    if a < 0x30000000 ∨ 0x3F000000 ≤ a then (.abort abMemRefused, s) else (.ok [], s.viewAccess (some v))
  | .tmpCtl => if s.sealed then (.abort abLifecycle, s) else (.ok [], s.regWrite q.agent r v)
  | r => (.ok [], match s.mayWrite q.agent r with | .ok => (s.regWrite q.agent r v).noteHeld r | _ => s)

/-- An entry that may be written now takes a value, whose bytes have the right number. -/
def State.objWrite (s : State) (q : Req) (o : Obj) (b : List Byte) : RanS :=
  let v : Word := ofBytes 32 b
  let v64 : BitVec 64 := ofBytes 64 b
  let range : RanS := (.abort abRange, s)
  match o with
  | .save => if v = 0x45564153 then (.busy .nvm, s.saveBegin) else range
  | .restore => if v = 0x44414F4C then (.busy .nvm, s.restoreBegin) else range
  | .bootAuto =>
    if 2 ≤ v.toNat then range
    else (.ok [], s.modDict fun d => { d with bootAuto := v == 1, held := d.held.set 0 v })
  | .start => let m : BitVec 16 := bits v 0 16; if s.startReady m then s.startCores m else (.busy (.start m), s)
  | .marchStartup =>
    if 4 ≤ v.toNat then range
    else (.ok [], s.modDict fun d => { d with marchStartup := bits v 0 8, held := d.held.set 1 v })
  | .mirror r => s.mirrorWrite q r v
  | .bank c x area e => (.ok [], s.modCtx c x fun t => t.bankWrite x area e v)
  | .injData => (.ok [], s.modDict fun d => { d with injData := v })
  | .injWhere => (.ok [], s.modDict fun d => { d with injWhere := v })
  | .injWhen => s.inject v
  | .nlSel => if 1791 < v.toNat then range else (.ok [], s.modDict fun d => { d with nlSel := bits v 0 16 })
  | .lcReq => s.lcReqDict q (bits v 0 8)
  | .intCode =>
    if s.sealed || s.night.intCode.isSome then (.abort abLifecycle, s) else (.busy .nvm, s.codeBegin v64)
  | .intUnlock => s.unlock v64
  | .intLock =>
    if 2 ≤ v.toNat then range
    else (.ok [], s.modDict fun d => { d with intUnlocked := d.intUnlocked && v == 0 })
  | .flashCtlw => if (bits v64 58 6 : BitVec 6) ≠ 0 then range else s.flashCtl v64
  | .ucCtl => s.ucCtl (bits v 0 8)
  | .ucStage =>
    if !stageOk v then range
    else if s.dict.ucState ≠ 0 then (.abort abDomain, s)
    else (.ok [], s.modDict fun d => { d with ucStage := v })
  | _ => (.ok [], s)

/-! ## The checks of R389 -/

/-- Check 6: NO_MAIN, a wait for the main domain, or go. -/
inductive Gate where
  | go | lost | wait
  deriving DecidableEq, Repr

/-- Whether an operation of the main domain can run: refused under the internal main reset, waiting until the held values are
written, and in NAP until it has ended (R374, R429). -/
def State.mainGate (s : State) : Gate :=
  if s.power.mainRst then .lost else if s.mainRuns && s.power.heldDone && s.power.state == .run then .go else .wait

/-- A command that waits in NAP ends it. -/
def State.wakeNap (s : State) : State :=
  if s.power.state = .nap ∧ !s.power.mainRst then s.modPower fun p => { p with napWake := true } else s

def inVdbgObj (o : Obj) : Bool := match o with | .mirror r => r.inVdbg | _ => false

/-- An access that must wait for the main domain runs `f` when it may. `held`: what answers while the domain is in reset. -/
def State.gated (s : State) (n : Need) (held : Fin 43 → RanS) (f : RanS) : RanS :=
  match n with
  | .vesper => f
  | .held i => match s.mainGate with | .lost => held i | .wait => (.wait, s.wakeNap) | .go => f
  | .main => match s.mainGate with | .lost => (.abort abNoMain, s) | .wait => (.wait, s.wakeNap) | .go => f

/-- Check 7. -/
def State.notStopped (s : State) (o : Obj) (write : Bool) : Bool :=
  match o with
  | .bank c x _ _ => !(s.ctx c x).isStopped
  | .mirror r => if write then (match r.thread with | some (c, x) => !(s.ctx c x).isStopped | none => false) else false
  | _ => false

/-- Checks 1 to 4. -/
def State.check14 (s : State) (q : Req) (index : BitVec 16) (sub : Byte) (write : Bool) : Except Word Obj :=
  match dictAt index sub with
  | .error e => .error e
  | .ok o =>
    if !s.roleOk q index o write then .error abRole
    else match o.access, write with
      | .ro, true => .error abRdonly
      | .wo, false => .error abWronly
      | _, _ => .ok o

/-- Domains of more than 64 bytes. -/
def Obj.long (o : Obj) : Bool := o.ty == .domain && o != .nlRec

/-- READ (R386, R389). `small`: a DACC operation takes only types of up to 32 bits (R465). -/
def State.dictRead (s : State) (q : Req) (index : BitVec 16) (sub : Byte) (small : Bool) : RanS :=
  match s.check14 q index sub false with
  | .error e => (.abort e, s)
  | .ok o =>
    if o.long || (small && 4 < o.ty.size) then (.abort abType, s)
    else if inVdbgObj o && !s.power.vdbg then (.abort abNoMain, s)
    else s.gated (o.need index) (fun i => (.ok (w32 s.dict.held[i]), s))
      (if s.notStopped o false then (.abort abNotHalted, s) else s.objRead q o)

/-- WRITE. A DACC operation gives the value in the low bits of its data field. -/
def State.dictWrite (s : State) (q : Req) (index : BitVec 16) (sub : Byte) (data : List Byte) (small : Bool) : RanS :=
  match s.check14 q index sub true with
  | .error e => (.abort e, s)
  | .ok o =>
    if o.long || (small && 4 < o.ty.size) then (.abort abType, s)
    else
      let data := if small then data.take o.ty.size else data
      if data.length ≠ o.ty.size then (.abort abLen, s)
      else if inVdbgObj o && !s.power.vdbg then (.abort abNoMain, s)
      else s.gated (o.need index) (fun i => (.ok [], s.setHeld i (ofBytes 32 data)))
        (if s.notStopped o true then (.abort abNotHalted, s) else s.objWrite q o data)

/-- DREAD and DWRITE: a read of `n` bytes, or a write of `data`. -/
def State.dictDomain (s : State) (q : Req) (index : BitVec 16) (sub : Byte) (off n : Nat) (data : Option (List Byte)) : RanS :=
  match s.check14 q index sub data.isSome with
  | .error e => (.abort e, s)
  | .ok o =>
    if !o.long then (.abort abType, s)
    else if off % 4 ≠ 0 ∨ n % 4 ≠ 0 then (.abort abLen, s)
    else s.gated .main (fun _ => (.ok [], s)) (match o with
      | .spadImg => s.spadImg off n data
      | .flashImg => s.flashImg off n data
      | _ => match data with | some d => s.ucWriteImg off d | none => s.ucReadImg off n)

end Sys2Proof.Machine
end

