-- ==== Sys2Proof/Machine/RingCmd.lean ====
section
/-! DEFINITION. The agent that takes, orders and runs the ring's commands, and the DACC operations between them (spec 11, R362 to R374, R381;
R464, R465). -/

namespace Sys2Proof.Machine

open Sys2Proof

/-! ## Requesters (R387, R465) -/

/-- A ring command holds Host, Integrator where INT_STATE gives it, and Debug at the level in force. -/
def State.ringReq (s : State) (h : RingHdr) : Req :=
  { readHost := true, writeHost := true, integ := s.integrator, lvl := s.dbg.level.toNat, port := some h.port,
    src := h.src.setWidth 8, jtag := false }

def State.jtagReq (s : State) : Req :=
  { readHost := decide (1 ≤ s.dbg.level.toNat), writeHost := s.dbg.level == 2, integ := false, lvl := s.dbg.level.toNat,
    port := none, src := 0xFF, jtag := true }

/-! ## Responses (R362, R365, R371 to R375) -/

/-- FLAGS of a response formed now. -/
def State.respFlags (s : State) : BitVec 8 :=
  (if s.ring.restarted then 1#8 else 0) ||| (if s.power.mainRst then 4#8 else 0)

def isBroadcast (h : RingHdr) : Bool := h.node == 0x7F

/-- A response goes to the port it leaves on, or is discarded where neither it nor a wrap has link. -/
def State.sendResp (s : State) (r : Resp) : State :=
  match s.ring.outFor (partner r.port) with
  | some o => s.modRp o fun rp => { rp with txq := rp.txq ++ [.resp r] }
  | none => s

def State.mkResp (s : State) (code : Byte) (h : RingHdr) (st : Byte) (payload : List Byte) : Resp :=
  { port := h.port, cmd := code, seq := h.seq, index := h.index, sub := h.sub, status := st,
    credit := BitVec.ofNat 8 s.ring.credit, flags := s.respFlags, payload := payload, bcast := isBroadcast h }

/-- A quiet broadcast command is not answered with OK or DUP (R373). -/
def quiet (h : RingHdr) (st : Byte) : Bool := isBroadcast h && h.flags.getLsbD 3 && (st == 0 || st == 1)

/-- An answer that is not kept in the history. -/
def State.answer (s : State) (code : Byte) (h : RingHdr) (st : Byte) (payload : List Byte) : State :=
  if quiet h st then s
  else
    let s := if st = 2 then s.countB 0x5C else if st = 3 then s.countB 0x5D else s
    s.sendResp (s.mkResp code h st payload)

/-- STATUS and payload of an end. -/
def Ran.coded (r : Ran) : Byte × List Byte :=
  match r with
  | .ok p => (0, p)
  | .abort c => (4, w32 c)
  | .status st => (st, [])
  | .busy _ => (0, [])
  | .wait => (0, [])

/-- The front command has completed: its buffer frees, and its response is formed and kept among the last 8. It is
sent unless the command was quiet (R373). -/
def State.complete (s : State) (r : Ran) : State :=
  match s.ring.cmds with
  | [] => s
  | k :: rest =>
    let s := s.modRing fun g => { g with cmds := rest, busy := none, begun := false }
    let c := r.coded
    let p := s.mkResp k.code k.h c.1 c.2
    let s := s.modRing fun g => { g with history := (g.history ++ [p]).drop (g.history.length + 1 - 8) }
    if quiet k.h c.1 then s else s.sendResp p

/-! ## Running a command (R363, R381) -/

/-- The payload fits the command (R363). -/
def shapeOk (code : Byte) (data : List Byte) (d : Nat) : Bool :=
  let n := data.length
  match code.toNat with
  | 1 => n == 0
  | 2 => n ≤ d
  | 3 => n == 8 && decide ((ofBytes 32 (data.drop 4) : Word).toNat ≤ d)
  | 4 => 5 ≤ n && n ≤ d + 4
  | 8 => 1 ≤ n && n ≤ 32
  | _ => false

/-- FLAGS that a command may have (R362). -/
def flagsOk (h : RingHdr) : Bool := h.flags &&& 0xF7 == 0 && (isBroadcast h || !h.flags.getLsbD 3)

/-- A command that is answered BADCMD (R365). -/
def State.malformed (s : State) (code : Byte) (h : RingHdr) (data : List Byte) : Bool :=
  let d := limitD s.ring.port[h.port].genUse
  !flagsOk h || h.len ≠ data.length || d + 4 < h.len || !shapeOk code data d

/-- MSG (R381). -/
def State.runMsg (s : State) (data : List Byte) : RanS :=
  if s.ring.hfull then (.status 6, s)
  else
    let w (k : Nat) : Word := ofBytes 32 ((data.drop (4 * k)).take 4)
    let s := s.modRing fun r => { r with hmsg := Vector.ofFn fun k => w k.val, hlen := BitVec.ofNat 6 data.length, hfull := true }
    let s := s.raise 232 (w 0)
    (.ok [], if s.power.mwake then s.vesperWake 1 else s)

def State.runCmd (s : State) (k : RingCmd) : RanS :=
  let q := s.ringReq k.h
  let off := (ofBytes 32 (k.data.take 4) : Word).toNat
  if k.bad then (.status 5, s)
  else match k.code.toNat with
    | 1 => s.dictRead q k.h.index k.h.sub false
    | 2 => s.dictWrite q k.h.index k.h.sub k.data false
    | 3 => s.dictDomain q k.h.index k.h.sub off (ofBytes 32 (k.data.drop 4) : Word).toNat none
    | 4 => s.dictDomain q k.h.index k.h.sub off (k.data.length - 4) (some (k.data.drop 4))
    | 8 => s.runMsg k.data
    | _ => (.status 5, s)

/-! ## DACC (R464, R465) -/

/-- A DACC operation has ended. -/
def State.daccEnd (s : State) (r : Ran) : State :=
  s.modDict fun d => match r with
    | .ok p => { d with daccBusy := none, daccStat := 0, daccData := ofBytes 32 p }
    | .abort c => { d with daccBusy := none, daccStat := 2, daccData := c }
    | _ => { d with daccBusy := none, daccStat := 0 }

/-- The operation shifted in is run; with whether anything happened. -/
def State.daccRun (s : State) (op : BitVec 2 × Byte × BitVec 16 × Word) : State × Bool :=
  let (o, sub, index, v) := op
  let r := if o = 1 then s.dictRead s.jtagReq index sub true else s.dictWrite s.jtagReq index sub (toBytes 4 v) true
  match r with
  | (.wait, s) => (s, false)
  | (.busy b, s) => (s.modDict fun d => { d with daccWait := none, daccBusy := some b }, true)
  | (x, s) => ((s.modDict fun d => { d with daccWait := none }).daccEnd x, true)

/-! ## RESYNC (R372) -/

def State.runResync (s : State) (k : RingCmd) : State :=
  let s := s.modRing fun r =>
    { r with expSeq := ofBytes 16 (k.data.take 2), bexpSeq := ofBytes 16 (k.data.drop 2), history := [], restarted := false,
             resync := none }
  s.answer k.code k.h 0 []

/-! ## The agent -/

/-- The Vesper agent answers. -/
def State.agentOn (s : State) : Bool := s.power.pornAon && s.power.restored

/-- The front command runs, or goes on. -/
def State.frontStep (s : State) : State × Bool :=
  match s.ring.cmds with
  | [] =>
    match s.ring.resync with
    | some k => (s.runResync k, true)
    | none => (s, false)
  | k :: _ =>
    match s.runCmd k with
    | (.wait, s) => (s, false)
    | (.busy b, s) => (s.modRing fun r => { r with busy := some b, solo := false, begun := b.inMain }, true)
    | (x, s) => (s.complete x, true)

/-- One thing the agent does, if there is one: an operation under way ends, a DACC operation runs, or a command does. -/
def State.agentStep (s : State) : State × Bool :=
  match s.ring.busy with
  | some b =>
    match s.poll b with
    | some (x, s) =>
      if s.ring.solo then (s.modRing fun r => { r with busy := none, solo := false }, true) else (s.complete x, true)
    | none => (s.flashNext, false)
  | none =>
    match s.dict.daccBusy with
    | some b =>
      match s.poll b with
      | some (x, s) => (s.daccEnd x, true)
      | none => (s.flashNext, false)
    | none =>
      match s.dict.daccWait with
      | some op =>
        let r := s.daccRun op
        if r.2 then r else r.1.frontStep
      | none => s.frontStep

def State.agentRun : Nat → State → State
  | 0, s => s
  | n + 1, s =>
    let r := s.agentStep
    if r.2 then r.1.agentRun n else r.1

/-- The agent goes on as far as it can. -/
def State.ringKick (s : State) : State := if s.agentOn then s.agentRun 32 else s

/-- No command, resynchronisation or DACC operation is in progress. -/
def State.agentFree (s : State) : Bool := s.ring.busy.isNone && s.dict.daccBusy.isNone && s.ring.cmds.isEmpty

/-- The main domain is lost: what has begun in it ends with MAIN_LOST (R374). -/
def State.mainLost (s : State) : State :=
  let s := match s.dict.daccBusy with
    | some b => if b.inMain then s.daccEnd (.abort abMainLost) else s
    | none => s
  match s.ring.busy with
  | some b =>
    if b.inMain then
      (if s.ring.solo then s.modRing fun r => { r with busy := none, solo := false } else s.complete (.abort abMainLost))
    else s
  | none => s

/-! ## Taking a command (R366, R371 to R373) -/

/-- The node acts on a command for it. -/
def State.forMe (s : State) (h : RingHdr) : Bool :=
  s.forwarding && s.ring.port[h.port].link && (isBroadcast h || h.node == s.ring.node)

/-- A response of the history is sent again, with REPLAY. -/
def State.replay (s : State) (h : RingHdr) (r : Resp) : State :=
  if quiet h r.status then s
  else s.sendResp { r with port := h.port, credit := BitVec.ofNat 8 s.ring.credit, flags := s.respFlags ||| 2 }

/-- A sequenced command that has arrived. -/
def State.takeCmd (s : State) (code : Byte) (h : RingHdr) (data : List Byte) : State :=
  if !s.forMe h then s
  else if s.ring.resync.isSome then s.answer code h 2 []
  else
    let b := isBroadcast h
    let exp := if b then s.ring.bexpSeq else s.ring.expSeq
    let d := (h.seq - exp).toNat
    if d = 0 then
      if 8 ≤ s.ring.cmds.length then s.answer code h 2 []
      else
        let k : RingCmd := ⟨code, h, data, s.malformed code h data⟩
        ((s.countB 0x5B).modRing fun r =>
          { r with cmds := r.cmds ++ [k], expSeq := if b then r.expSeq else exp + 1,
                   bexpSeq := if b then exp + 1 else r.bexpSeq }).ringKick
    else if d ≤ 65279 then s.answer code h 3 (toBytes 2 exp)
    else match s.ring.history.find? (fun r => r.seq == h.seq && r.bcast == b) with
      | some r => s.replay h r
      | none => s.answer code h 1 []


/-- The command codes of R363. -/
def assignedCmd (code : Byte) : Bool :=
  [0x01#8, 0x02, 0x03, 0x04, 0x05, 0x06, 0x07, 0x08, 0x09, 0x10, 0x11, 0x12].contains code

/-- FRAME_FORWARD. A good SYNC is forwarded by its own row, with its corrections. A frame whose HCRC fails is forwarded and not acted on
(R362). A good command with an unassigned code has no row of its own: it is sequenced here like any other, and answered BADCMD (R365). -/
def execFrameForward (p : PortId) (f : Frame) (ahead : Nat) (s : State) : Ans :=
  if !s.forwarding || !s.ring.port[p].link then .next s
  else match s.ring.kindOf p f with
    | none => .next s
    | some .knadu =>
      let good := f.fcsOk && frameHcrcOk f && !f.rsp
      if frameHcrcOk f && !f.rsp && f.cmd == 0x10 then .next s
      else if frameHcrcOk f && !f.rsp && f.cmd == 0x07 then .next (s.assign p f ahead)
      else
        let s := s.forward p .knadu f ahead
        .next (if good && !assignedCmd f.cmd then s.takeCmd f.cmd { f.hdr with port := p } f.payload else s)
    | some k => .next (s.forward p k f ahead)

/-- READ. -/
def execRead (h : RingHdr) (data : List Byte) (s : State) : Ans := .next (s.takeCmd 0x01 h data)

/-- WRITE. -/
def execWrite (h : RingHdr) (data : List Byte) (s : State) : Ans := .next (s.takeCmd 0x02 h data)

/-- DREAD. -/
def execDread (h : RingHdr) (data : List Byte) (s : State) : Ans := .next (s.takeCmd 0x03 h data)

/-- DWRITE. -/
def execDwrite (h : RingHdr) (data : List Byte) (s : State) : Ans := .next (s.takeCmd 0x04 h data)

/-- MSG. -/
def execMsg (h : RingHdr) (data : List Byte) (s : State) : Ans := .next (s.takeCmd 0x08 h data)

/-- A command without a sequence number that carries `n` bytes is well formed. -/
def plainOk (h : RingHdr) (data : List Byte) (n : Nat) : Bool := flagsOk h && h.len == data.length && data.length == n

/-- PING (R363, R372). -/
def execPing (h : RingHdr) (data : List Byte) (s : State) : Ans :=
  if !s.forMe h then .next s
  else if !plainOk h data 0 then .next (s.answer 0x05 h 5 [])
  else .next (s.answer 0x05 h 0 (w32 0x48580040 ++ toBytes 2 s.ring.expSeq ++ toBytes 2 s.ring.bexpSeq))

/-- RESYNC (R372). -/
def execResync (h : RingHdr) (data : List Byte) (s : State) : Ans :=
  if !s.forMe h then .next s
  else if isBroadcast h || !plainOk h data 4 then .next (s.answer 0x06 h 5 [])
  else if s.ring.resync.isSome then .next (s.answer 0x06 h 2 [])
  else .next ((s.countB 0x5B).modRing fun r => { r with resync := some ⟨0x06, h, data, false⟩ }).ringKick

end Sys2Proof.Machine
end

