-- ==== Sys2Proof/Machine/Slave.lean ====
section
/-! DEFINITION. The fabric slave port (spec 14, R444, R445; R277, R281, R283). -/

namespace Sys2Proof.Machine

open Sys2Proof

/-- A request at the slave port: write, word address, data, byte enables, tag. -/
abbrev SlaveReq := Bool × Word × Word × BitVec 4 × Fin 16

def slaveErr (write : Bool) (tag : Fin 16) : SlaveResp := ⟨write, tag, 0, true⟩

/-- FS_RPAR: parity of each byte of the data; 0 beside an error (R444, R445). -/
def SlaveResp.par (r : SlaveResp) : BitVec 4 :=
  (List.range 4).foldl (fun v i => if parity (bits r.data (8 * i) 8 : Byte) then v ||| (1#4 <<< i) else v) 0

/-- FS_ARDY: the port takes a request at every edge, but none in reset (R444, R456). -/
def State.slaveReady (s : State) : Bool := !s.power.mainRst

/-- A request to a scratchpad word that may be reached: none while the banks cannot grant. -/
def State.slaveSpad (s : State) (r : SlaveReq) (w : Nat) (via : Via) : Option (SlaveResp × State) :=
  let (write, _, d, be, tag) := r
  if isSecure w then some (slaveErr write tag, s.secRefuse w 19)
  else if s.destroyed w then some (slaveErr write tag, s)
  else if !s.wordFree w then none
  else if write then some (⟨true, tag, 0, false⟩, (s.granted 19 w).spadStore w via d be none)
  else match (s.granted 19 w).spadRead w with
    | (some v, s) => some (⟨false, tag, v, false⟩, s)
    | (none, s) => some (slaveErr write tag, s)

/-- A request to the block control region. -/
def State.slaveCtl (s : State) (r : SlaveReq) : SlaveResp × State :=
  let (write, a, d, be, tag) := r
  if write then
    if be ≠ 0xF then (slaveErr write tag, s)
    else match regAt a with
      | none => (⟨true, tag, 0, false⟩, s)
      | some g =>
        match s.mayWrite .fabric g with
        | .ok => (⟨true, tag, 0, false⟩, s.regWrite .fabric g d)
        | _ => (slaveErr write tag, s)
  else match regAt a with
    | none => (⟨false, tag, 0, false⟩, s)
    | some g =>
      if s.mayRead .fabric g then
        let x := s.regRead .fabric g
        (⟨false, tag, x.1, false⟩, x.2)
      else (slaveErr write tag, s)

/-- One request is accessed, or answered with an error, or waits. -/
def State.slaveServe (s : State) (r : SlaveReq) : Option (SlaveResp × State) :=
  if s.power.state ≠ .run ∨ !s.mainRuns then none
  else match target none r.2.1 with
    | .spad w via _ => s.slaveSpad r (w / 4 * 4) via
    | .ctl => some (s.slaveCtl r)
    | _ => some (slaveErr r.1 r.2.2.2.2, s)

/-- Requests that wait are served, oldest first; those that still cannot be go on waiting. -/
def State.slaveKick (s : State) : State :=
  s.fabric.held.foldl (fun s r =>
    match s.slaveServe r with
    | some (p, s) => { s with fabric := { s.fabric with resp := s.fabric.resp ++ [p], held := s.fabric.held.erase r } }
    | none => s) s

/-- What waits for the main domain or the banks goes on: slave requests, then the ring agent. -/
def State.kick (s : State) : State := s.slaveKick.ringKick

/-- FABRIC_SLAVE_REQUEST. One whose parity fails is answered with an error; one that must wait is kept, and in NAP ends it (R429).
The responses kept are those of the last request. -/
def execFabricSlaveRequest (write : Bool) (a d : Word) (be : BitVec 4) (tag : Fin 16) (parOk : Bool) (s : State) : Ans :=
  if s.power.mainRst then .next s
  else
    let s := s.countB 0x59
    let s := { s with fabric := { s.fabric with resp := [] } }
    let put (s : State) (p : SlaveResp) : State := { s with fabric := { s.fabric with resp := [p] } }
    let r : SlaveReq := (write, a &&& 0xFFFFFFFC, d, be, tag)
    if !parOk then .next (put s (slaveErr write tag))
    else match s.slaveServe r with
      | some (p, s) => .next (put s p)
      | none =>
        let s := { s with fabric := { s.fabric with held := s.fabric.held ++ [r] } }
        .next (if s.power.state = .nap then s.modPower fun p => { p with napWake := true } else s)

/-! ## Ports and steps that the ring agent waits on -/

/-- LINE_FILL_ARRIVAL: the fill of miss register `i` arrives, for the contexts that wait for it, and for a debug load. -/
def execLineFillArrival (c : CoreId) (i : Fin 4) (s : State) : Ans :=
  match s.core[c].miss[i] with
  | none => .next s
  | some m =>
    let t := s.fillArrival c i
    .next (match m.debug, m.got with | true, some r => (t.debugLine r).ringKick | _, _ => t)

/-- FABRIC_WRITE_RESPONSE. -/
def execFabricWriteResponse (tag : Fin 32) (err : Bool) (s : State) : Ans := .next (s.fabricResponse tag true 0 err).ringKick

/-- FABRIC_READ_RESPONSE. -/
def execFabricReadResponse (tag : Fin 32) (data : Line) (err : Bool) (s : State) : Ans :=
  .next (s.fabricResponse tag false data err).ringKick

/-- FLASH_READ_BEAT. -/
def execFlashReadBeat (tag : Fin 4) (data : Word) (err parOk : Bool) (s : State) : Ans :=
  if s.power.mainRst then .next s else .next (s.flashBeat tag data err parOk).ringKick

/-- FLASH_WRITE_ACK. -/
def execFlashWriteAck (tag : Fin 4) (err : Bool) (s : State) : Ans :=
  if s.power.mainRst then .next s else .next (s.flashAck tag err).ringKick

/-- A write of FL_CTL by an agent. -/
def execFlCtlWrite (w : Agent) (v : Word) (s : State) : Ans := .next (s.writeBy w 0x30050000 v).ringKick

/-- CORE_HELD: a target core has stopped at its contexts' boundaries or trap points (R185). -/
def execCoreHeld (c : CoreId) (s : State) : Ans :=
  if s.load.hold && s.load.cores.getLsbD c.val && s.core[c].takeable then
    .next ((s.takeX c).modCore c fun k => { k with held := true }).ringKick
  else .next s

/-- What the start-up check finds in the ROM and in the vertical store (R160, R161): corrected words are counted, and the last
uncorrectable one is recorded. The RAM is written, so that its errors are gone. -/
def Core.checkStore (k : Core) : Core :=
  let rom (l : List Nat) : List Nat := l.filter (· < 0xC00)
  let k : Core := { k with ccnt := satAdd k.ccnt ((rom k.csCorr).length + k.vsCorr.length), csCorr := rom k.csCorr, csBad := rom k.csBad }
  match (k.csBad ++ k.vsBad).getLast? with
  | some a => { k with cErrAddr := BitVec.ofNat 12 a, cUncorr := true }
  | none => k

/-- The check met a word that it could not correct. -/
def Core.storeBad (k : Core) : Bool := !k.csBad.isEmpty || !k.vsBad.isEmpty

/-- CONTROL_STORE_CHECK_DONE: the RAM, the user vectors and the patch registers are clear, and CHKDONE is set, or CHKFAIL with it, for an
uncorrectable word or a CRC mismatch, which `failed` tells. -/
def execControlStoreCheckDone (c : CoreId) (failed : Bool) (s : State) : Ans :=
  let k := s.core[c]
  if !s.mainRuns || k.chkDone || k.invBusy then .next s
  else
    let s := s.countN c none 0x39 ((k.csCorr.filter (· < 0xC00)).length + k.vsCorr.length)
    let s := s.modCore c fun k =>
      let k := k.checkStore
      { k with chkDone := true, chkFail := failed || k.storeBad, ram := [], uvec := [], patch := Vector.replicate 64 0 }
    let s := if s.core[c].chkFail then s.raise (csSrc c) s.core[c].cstat else s
    .next s.bootAuto.ringKick

/-- NVM_ROW_WRITE_END: a store row that failed drops the rows after it (R413); the writer starts its next row (R494). -/
def execNvmRowWriteEnd (ok : Bool) (s : State) : Ans :=
  match s.night.cur with
  | none => .next s
  | some row =>
    let store := match row with | .param .. => true | _ => false
    let s := s.rowWritten ok
    let s := if store && !ok then
        (s.modNight fun n => { n with wantParam := [] }).modDict fun d => { d with nvmErr := true }
      else s
    .next s.nvmKick.ringKick

/-! ## The dictionary's actions as commands of their own -/

/-- An action that passed the checks is made while no other command runs: what it begins, it goes on with. -/
def State.act (s : State) (f : State → RanS) : State :=
  if !s.agentFree || !s.agentOn then s
  else match f s with
    | (.busy b, s) => (s.modRing fun r => { r with busy := some b, solo := true }).ringKick
    | (.wait, _) => s
    | (_, s) => s

/-- The same for one in the main domain. -/
def State.actMain (s : State) (f : State → RanS) : State := match s.mainGate with | .go => s.act f | _ => s

/-- The requester of such an action. -/
def hostReq : Req :=
  { readHost := true, writeHost := true, integ := true, lvl := 2, port := none, src := 0x40, jtag := false }

def execSave (s : State) : Ans := .next (s.act fun s => s.objWrite hostReq .save (w32 0x45564153))

def execRestore (s : State) : Ans := .next (s.act fun s => s.objWrite hostReq .restore (w32 0x44414F4C))

def execStart (mask : BitVec 16) (s : State) : Ans := .next (s.actMain fun s => s.objWrite hostReq .start (toBytes 2 mask))

def execInjWhen (v : Word) (s : State) : Ans := .next (s.actMain fun s => s.objWrite hostReq .injWhen (w32 v))

def execIntCode (v : BitVec 64) (s : State) : Ans := .next (s.act fun s => s.objWrite hostReq .intCode (toBytes 8 v))

def execIntUnlock (v : BitVec 64) (s : State) : Ans := .next (s.act fun s => s.objWrite hostReq .intUnlock (toBytes 8 v))

def execIntLock (s : State) : Ans := .next (s.act fun s => s.objWrite hostReq .intLock [1])

def execFlashCtlw (v : BitVec 64) (s : State) : Ans := .next (s.actMain fun s => s.objWrite hostReq .flashCtlw (toBytes 8 v))

def execUcCtlBegin (s : State) : Ans := .next (s.actMain fun s => s.objWrite hostReq .ucCtl [1])

def execUcCtlCommit (s : State) : Ans := .next (s.actMain fun s => s.objWrite hostReq .ucCtl [2])

def execUcCtlAbandon (s : State) : Ans := .next (s.actMain fun s => s.objWrite hostReq .ucCtl [3])

/-- What Capture-DR takes into the DACC data register: STATUS, and the data or the abort code (R464). -/
def State.daccCapture (s : State) : BitVec 58 :=
  s.dict.daccStat.setWidth 58 ||| (s.dict.daccData.setWidth 58 <<< 26)

/-- DACC (R464): ignored while the last operation runs; OP 0b00 and 0b11 do nothing. -/
def execDacc (op : BitVec 2) (sub : Byte) (index : BitVec 16) (data : Word) (s : State) : Ans :=
  if !s.agentOn || !s.power.vdbg || s.dict.daccStat = 1 || op = 0 || op = 3 then .next s
  else .next (s.modDict fun d => { d with daccStat := 1, daccWait := some (op, sub, index, data) }).ringKick

end Sys2Proof.Machine
end

