-- ==== Sys2Proof/Machine/SpadRows.lean ====
section
/-! DEFINITION. The rows of the scratchpad banks, the wipe and the march engine (spec 08, R265, R278 to R288; R492, R507). -/

namespace Sys2Proof.Machine

open Sys2Proof

/-! ## The wipe (R278, R279) -/

/-- WIPE_START: a cause has come, or power-up finds the flag set, and the shared banks are clocked and awake. The flag alone, which a
life-cycle request sets before its row is written (R502), starts no wipe. A slice borrowed in the region is abandoned, with what the
shadow buffer held; the engine then pauses until the wipe has ended (R270). -/
def execWipeStart (s : State) : Ans :=
  if s.power.wipePend && (s.spad.wipeDue || !s.spad.initDone) && s.mainRuns && !s.spad.asleep && !s.spad.wiping then
    let s := s.allCores fun _ k => k.allCtx fun _ t =>
      match t.rsv with
      | some g => if isSecure (32 * g) then { t with rsv := none } else t
      | none => t
    let s := { s with spad := { s.spad with wiping := true } }
    match s.march.slice with
    | some sl => if isSecure (sliceWord sl.bank sl.index 0) then .next (s.modMarch fun m => { m with slice := none }).sliceLeft else .next s
    | none => .next s
  else .next s

/-- WIPE_DONE: the last row is written; the flag clears, the source is raised, and at power-up step 6 begins. -/
def execWipeDone (s : State) : Ans :=
  if s.spad.wiping then
    let s := ({ s with spad := s.spad.wiped }.setWipePend false).countB 0x52 8192
    .next ((s.raise 210 0).step6).kick
  else .next s

/-- ZEROING_DONE: without a start-up march every word is zeroed (R280). -/
def execZeroingDone (s : State) : Ans :=
  if s.mainRuns && !s.spad.initDone && !s.march.busy && !s.power.wipePend && !s.spad.wiping &&
      !s.dict.marchStartup.getLsbD 0 then
    .next ({ s with spad := { (s.spad.zeroWhere fun _ => true) with undef := [], clean := [] } }.step6End false).kick
  else .next s

/-- MARCH_RUN_END (R283, R288). -/
def execMarchRunEnd (s : State) : Ans :=
  if s.marchMayEnd then
    let startup := s.march.startup
    let s := s.marchEnd
    .next (if startup then s.step6End true else s).kick
  else .next s

/-- SPAD_ECC_WRITEBACK: a corrected word goes back to its bank in a cycle in which the bank grants no master, unless a newer write came
first (R265). -/
def execSpadEccWriteback (a : Word) (s : State) : Ans :=
  let w := a.toNat / 4 * 4
  if s.spad.wback.contains w && s.wordFree w then
    .next { s with spad := { s.spad with wback := s.spad.wback.filter (· ≠ w), corr := s.spad.corr.filter (· ≠ w),
                                         sound := addNat s.spad.sound w } }
  else .next s

/-! ## The march engine (R282 to R286) -/

/-- The accesses that wait for the borrowed slice are served from the shadow buffer: the contexts' when they issue again, master 16's when
its row comes again, and those of masters 17 and 19 now, in the order of the bank's pointer (R268, R285). -/
def State.serveAll (s : State) (bank : Nat) : State :=
  let s := s.serveSlice
  let s := s.modMarch fun m =>
    { m with slice := m.slice.map fun x => { x with serves16 := x.asks16, asks16 := false, window := true } }
  let s := match grantFirst s.spad.rr[(⟨bank % 96, Nat.mod_lt _ (by decide)⟩ : Fin 96)] [17, 19] with
    | some 17 => s.ringKick.slaveKick
    | _ => s.slaveKick.ringKick
  s.modMarch fun m => { m with slice := m.slice.map fun x => { x with window := false } }

/-- MARCH_ELEMENT_END (R282 to R285, R288): `got` holds the reads whose cells did not answer with what was last written to them. Every read
that does not match its element is a failure. -/
def execMarchElementEnd (got : List (Nat × Nat × Word)) (s : State) : Ans :=
  if !s.march.busy || s.spad.wiping || s.spad.asleep then .next s
  else
    let ss := s.march.runAlg
    match s.march.slice with
    | some sl =>
      let mine (r : Nat × Nat × Word) : Bool := bankOf r.1 == sl.bank && (sliceOf r.1).1 == sl.index
      if 7 ≤ sl.phase then .next s
      else if sl.phase = 0 then
        let r := s.saveSlice sl
        if r.2.isEmpty then .next ((r.1.modMarch fun m => { m with slice := some { sl with phase := 1 } }).serveAll sl.bank)
        else .next ((r.2.foldl State.marchFail r.1).modMarch fun m => { m with slice := some { sl with phase := 7, skip := true } })
      else
        let s := (misread ss (sl.phase - 1) (got.filter mine)).foldl State.marchFail s
        let s := s.modMarch fun m => { m with slice := some { sl with phase := sl.phase + 1 } }
        .next (if sl.phase < 6 then s.serveAll sl.bank else s)
    | none =>
      if s.march.destroying && decide (s.march.elem < 6) then
        let mine (r : Nat × Nat × Word) : Bool := s.march.banks.contains (bankOf r.1)
        let s := (misread ss s.march.elem (got.filter mine)).foldl State.marchFail s
        .next (s.modMarch fun m => { m with elem := m.elem + 1 })
      else .next s

/-- MARCH_SLICE_END (R284): the slice is restored, and what waited for it is made to the bank; the engine moves to the next one. -/
def execMarchSliceEnd (s : State) : Ans :=
  if !s.march.busy || s.march.destroying || s.spad.wiping || s.spad.asleep then .next s
  else match s.march.slice with
    | some sl => if sl.phase = 7 then .next (s.sliceRestore.countB 0x53).sliceLeft.kick else .next s
    | none => .next s.nextSlice

end Sys2Proof.Machine
end

