-- ==== Sys2Proof/Machine/Stacks.lean ====
section
/-! DEFINITION. Literals, data-stack, return-stack and frame instructions (R92, R93). -/

namespace Sys2Proof.Machine

open Sys2Proof

/-- Pushes one value that no cell is needed for. -/
def State.pushValue (s : State) (c : CoreId) (x : CtxId) (v : Word) : Res (Option Word) :=
  s.stackOp c x 0 [] 0 fun _ => [v]

/-! ## Literals (R92) -/

def execLitN (c : CoreId) (x : CtxId) (n : Fin 32) (s : State) : Ans :=
  s.simple c x { op := BitVec.ofNat 8 n.val } fun s => s.pushValue c x (BitVec.ofNat 32 n.val)

def execLitM1 (c : CoreId) (x : CtxId) (s : State) : Ans := s.simple c x { op := 0x20 } fun s => s.pushValue c x 0xFFFFFFFF

def execLit8 (c : CoreId) (x : CtxId) (b : Byte) (s : State) : Ans :=
  s.simple c x { op := 0x21, opnd := b.setWidth 32, width := 1 } fun s => s.pushValue c x (b.signExtend 32)

def execLit16 (c : CoreId) (x : CtxId) (h : BitVec 16) (s : State) : Ans :=
  s.simple c x { op := 0x22, opnd := h.setWidth 32, width := 2 } fun s => s.pushValue c x (h.signExtend 32)

def execLit32 (c : CoreId) (x : CtxId) (w : Word) (s : State) : Ans :=
  s.simple c x { op := 0x23, opnd := w, width := 4 } fun s => s.pushValue c x w

def execLit16U (c : CoreId) (x : CtxId) (h : BitVec 16) (s : State) : Ans :=
  s.simple c x { op := 0x24, opnd := h.setWidth 32, width := 2 } fun s => s.pushValue c x (h.setWidth 32)

/-! ## The data stack (R92) -/

def execDup (c : CoreId) (x : CtxId) (s : State) : Ans :=
  s.simple c x { op := 0x28 } fun s => s.stackOp c x 1 [0] 0 fun f => [f 0]

def execDrop (c : CoreId) (x : CtxId) (s : State) : Ans :=
  s.simple c x { op := 0x29 } fun s => s.stackOp c x 1 [0] 1 fun _ => []

def execSwap (c : CoreId) (x : CtxId) (s : State) : Ans :=
  s.simple c x { op := 0x2A } fun s => s.stackOp c x 2 [0, 1] 2 fun f => [f 0, f 1]

def execOver (c : CoreId) (x : CtxId) (s : State) : Ans :=
  s.simple c x { op := 0x2B } fun s => s.stackOp c x 2 [1] 0 fun f => [f 1]

def execRot (c : CoreId) (x : CtxId) (s : State) : Ans :=
  s.simple c x { op := 0x2C } fun s => s.stackOp c x 3 [0, 1, 2] 3 fun f => [f 1, f 0, f 2]

def execNip (c : CoreId) (x : CtxId) (s : State) : Ans :=
  s.simple c x { op := 0x2D } fun s => s.stackOp c x 2 [0, 1] 2 fun f => [f 0]

def execTuck (c : CoreId) (x : CtxId) (s : State) : Ans :=
  s.simple c x { op := 0x2E } fun s => s.stackOp c x 2 [0, 1] 2 fun f => [f 0, f 1, f 0]

def execTwoDup (c : CoreId) (x : CtxId) (s : State) : Ans :=
  s.simple c x { op := 0x2F } fun s => s.stackOp c x 2 [0, 1] 0 fun f => [f 1, f 0]

def execTwoDrop (c : CoreId) (x : CtxId) (s : State) : Ans :=
  s.simple c x { op := 0x30 } fun s => s.stackOp c x 2 [0, 1] 2 fun _ => []

def execTwoSwap (c : CoreId) (x : CtxId) (s : State) : Ans :=
  s.simple c x { op := 0x31 } fun s => s.stackOp c x 4 [0, 1, 2, 3] 4 fun f => [f 1, f 0, f 3, f 2]

/-- PICK.(n + 2) copies the cell n + 2 places below the top. -/
def execPickN (c : CoreId) (x : CtxId) (n : Fin 5) (s : State) : Ans :=
  s.simple c x { op := BitVec.ofNat 8 (0x32 + n.val) } fun s => s.stackOp c x (n.val + 3) [n.val + 2] 0 fun f => [f (n.val + 2)]

def execDepth (c : CoreId) (x : CtxId) (s : State) : Ans :=
  s.simple c x { op := 0x38 } fun s => s.pushValue c x (BitVec.ofNat 32 (s.ctx c x).depth)

/-- POKE.(n + 1) pops x and writes it over the cell n + 1 places below the new top; the cells between keep their places. -/
def execPokeN (c : CoreId) (x : CtxId) (n : Fin 6) (s : State) : Ans :=
  s.simple c x { op := BitVec.ofNat 8 (0x39 + n.val) } fun s =>
    s.stackOp c x (n.val + 3) [0, n.val + 2] (n.val + 3) fun f => f 0 :: ((List.range (n.val + 1)).map fun i => f (n.val + 1 - i))

/-! ## The return stack and frames (R40, R41, R43, R93) -/

def execToR (c : CoreId) (x : CtxId) (s : State) : Ans :=
  s.simple c x { op := 0x40 } fun s =>
    let v := (s.ctx c x).cell 0
    (s.needPops c x 1 0).bind fun _ s => (s.rpush c x v).bind fun _ s => .ok none (s.replace c x 1 [])

def execRFrom (c : CoreId) (x : CtxId) (s : State) : Ans :=
  s.simple c x { op := 0x41 } fun s =>
    (s.need c x 0 [] 0 1).bind fun _ s => (s.rpop c x).bind fun v s => .ok none (s.replace c x 0 [v])

def execRFetch (c : CoreId) (x : CtxId) (s : State) : Ans :=
  s.simple c x { op := 0x42 } fun s =>
    (s.need c x 0 [] 0 1).bind fun _ s => (s.rready c x).bind fun _ s => .ok none (s.replace c x 0 [(s.ctx c x).rtopVal])

def execRdrop (c : CoreId) (x : CtxId) (s : State) : Ans :=
  s.simple c x { op := 0x43 } fun s => (s.rpop c x).bind fun _ s => .ok none s

def execEnter (c : CoreId) (x : CtxId) (s : State) : Ans := s.simple c x { op := 0x44 } fun s => s.enter c x

def execLeave (c : CoreId) (x : CtxId) (s : State) : Ans := s.simple c x { op := 0x45 } fun s => s.leave c x

end Sys2Proof.Machine
end

