-- ==== Sys2Proof/Machine/PowerRows.lean ====
section
/-! DEFINITION. Start-up and the resets (spec 13, R418, R424, R428 to R436; R281, R380, R411 to R414, R457, R496, R500, R506). -/

namespace Sys2Proof.Machine

open Sys2Proof

/-! ## The internal main reset (R374, R431, R433) -/

/-- The main supply goes: the Ephemeris entries lose what their last writes left, which RSTn_MAIN alone keeps (R233, R424). -/
def State.supplyLost (s : State) : State := s.modTransit fun x => { x with eph := [], ephCorr := [], ephBad := [] }

/-- The internal main reset is asserted and the block enters VESPER-ONLY: the command in progress ends with MAIN_LOST. -/
def State.enterVesper (s : State) (cause : BitVec 2) : State :=
  (s.mainReset.modPower fun p => { p with state := .vesperOnly, vcause := cause, pend := 0 }).mainLost.ringKick

/-- MAIN_OK_FALL. -/
def execMainOkFall (s : State) : Ans :=
  let s' := s.modPower fun p => { p with mainOk := false }
  if s.power.mainRst then .next s'.supplyLost else .next (s'.enterVesper 2).supplyLost

/-- RSTN_MAIN_FALL. -/
def execRstnMainFall (s : State) : Ans :=
  let s' := s.modPower fun p => { p with rstnMain := false }
  if s.power.mainRst then .next s' else .next (s'.enterVesper 3)

/-- VESPER_ONLY_ENTRY: the request that is pending is met once the ring agent has no command in progress. -/
def execVesperOnlyEntry (s : State) : Ans :=
  if s.power.pend == 2 && !s.power.mainRst && s.agentFree then
    .next ((s.modPower fun p => { p with wantMain := false, mainEn := false }).enterVesper 1).supplyLost
  else .next s

/-! ## PORn_AON (R412, R414, R418, R433, R435) -/

/-- PORN_AON_ASSERT: the Vesper domain and the main domain take their reset values, and the block is in OFF. A row being written is
torn. The NVM, the wipe-pending flag, the debug domain and the levels of the inputs stay. -/
def execPornAonAssert (s : State) : Ans :=
  if !s.power.pornAon then .next s
  else
    let s := (s.rowWritten false).mainReset.supplyLost
    let p := s.power
    let n := s.night
    let d := s.dbg
    .next { s with
      night := { slots := n.slots, param := n.param, row0 := n.row0, lcRows := n.lcRows, lcState := lcOf n.lcRows, pin := n.pin }
      ring := { tclk := s.ring.tclk }
      dict := {}
      gpio := { slh := s.gpio.slh, frozen := true }
      power := { mainOk := p.mainOk, vddmOk := p.vddmOk, mainWarn := p.mainWarn, rstnMain := p.rstnMain, dbgRstn := p.dbgRstn,
                 vdbg := p.vdbg, fastClk := p.fastClk, wipePend := p.wipePend }
      dbg := { d with level := lcDefault (lcOf n.lcRows), barred := false, fails := 0, failed := false, busy := false, chal := 0,
                      chalCnt := 0, chalOut := false, reqLevel := 0, respHi := 0, respLo := 0 } }

/-- Held values from the current image, or the defaults (R412, R414). -/
def State.loadHeld (s : State) : State :=
  let cur := s.night.current
  let held : Vector Word 43 := Vector.ofFn heldDefault
  let recs := match cur.1 with | some i => i.recs | none => []
  let held := recs.foldl (fun (h : Vector Word 43) (r : StoreRec) =>
    match heldAt r.index r.sub with | some i => h.set i (bits r.value 0 32) | none => h) held
  let skip := recs.any fun r => (heldAt r.index r.sub).isNone
  s.modDict fun d =>
    { d with held := held, stValid := cur.1.isSome, fallback := cur.2, skip := skip,
             stLen := (cur.1.map (·.len)).getD 0, stGen := (cur.1.map (·.gen)).getD 0,
             bootAuto := held[0].getLsbD 0, marchStartup := bits held[1] 0 2 |>.setWidth 8 }

/-- The saved registers with numbers in `l` are written with their held values. -/
def State.writeHeld (s : State) (l : List (Fin 43)) : State :=
  l.foldl (fun s i => match heldReg i with | some r => s.regWriteRaw .ring r s.dict.held[i] | none => s) s

def vesperHeld : List (Fin 43) := (List.finRange 43).filter fun i => 2 ≤ i.val && i.val < 13
def mainHelds : List (Fin 43) := (List.finRange 43).filter fun i => 13 ≤ i.val

/-- PORN_AON_RELEASE: held values and Vesper registers are loaded, the NVM is scanned, the wipe-pending flag read, and the block wants
its main supply. -/
def execPornAonRelease (s : State) : Ans :=
  if s.power.pornAon then .next s
  else
    let s := s.modPower fun p => { p.want with pornAon := true, restored := true, state := .vesperOnly, wipePend := s.night.row0 }
    let s := s.loadHeld.writeHeld vesperHeld
    let s := s.modNight fun n =>
      { n.scan with lcState := lcOf n.lcRows, lcTorn := (List.finRange 3).any fun i => n.lcRows[i] == .torn }
    .next s.dbgDefault.nvmKick

/-! ## The main domain starts (R435) -/

/-- MAIN_RESET_RELEASE: step 4, while MAIN_EN is 1. -/
def execMainResetRelease (s : State) : Ans :=
  if s.power.pornAon && s.power.restored && s.power.mainEn && s.power.mainRst then
    let s := s.modPower fun p =>
      { p with mainOk := true, vddmOk := true, rstnMain := true, mainRst := false, state := .run,
               wcause := if 2 ≤ p.vcause.toNat then 3 else p.wcause }
    .next (if s.power.mainWarn then s else s.thawPins)
  else .next s

/-- Sources kept while the main domain did not run are raised (R380, R494, R505). -/
def State.raiseDeferred (s : State) : State :=
  let l := s.ring.deferred
  l.foldl (fun s d => s.raise d.1 d.2) (s.modRing fun r => { r with deferred := [] })

/-- PLL_LOCK: step 5. The held values are written and the waiting commands run; step 6 begins where no wipe is due. The wipe, the
queue clear, the invalidations and the checks end in steps of their own. -/
def execPllLock (s : State) : Ans :=
  if !s.power.mainRst && s.power.state == .run && !(s.power.lockA && s.power.lockB) then
    let s := s.modPower fun p => { p with lockA := true, lockB := true }
    let s := (s.writeHeld mainHelds).modPower fun p => { p with heldDone := true }
    let s := s.modDict fun d => { d with bootWait := d.bootAuto }
    .next s.raiseDeferred.step6.ringKick
  else .next s

/-! ## NAP ends (R281, R429) -/

/-- NAP_EXIT: the PLLs have locked again and the block returns to RUN. -/
def execNapExit (s : State) : Ans :=
  if s.power.state == .nap && s.power.napWake && !s.power.mainRst then
    let s := s.modPower fun p => { p with state := .run, napWake := false, lockA := true, lockB := true, vddmLow := false }
    .next s.resumeAll.kick
  else .next s

/-- BANK_WAKE: 30 µs after VDDM_OK rises. -/
def execBankWake (s : State) : Ans :=
  if s.spad.asleep && !s.power.mainRst && (s.power.state == .run || s.power.napWake) then
    .next ({ s with spad := { s.spad with asleep := false } }.modPower fun p => { p with vddmOk := true }).kick
  else .next s

/-! ## Any register (R12) -/

/-- REGISTER_WRITE. -/
def execRegisterWrite (w : Agent) (a v : Word) (s : State) : Ans := .next (s.writeBy w (a &&& 0xFFFFFFFC) v).ringKick

end Sys2Proof.Machine
end

