-- ==== Sys2Proof/Machine/Tick.lean ====
section
/-! DEFINITION. What an empty queue leaves to time: one Vesper fast tick (R341, R349, R420, R423, R479). The table has no row for a
tick; the choice that the step takes one where no command waits is notes/assumptions/4.md's (DESIGN CHOICE). -/

namespace Sys2Proof.Machine

open Sys2Proof

/-- Timer `n` counts this Vesper fast tick: CLK 0b00 and 0b11 every one, 0b01 one in which a Vesper tick falls (R349). -/
def Timer.onTick (t : Timer) (slow : Bool) : Bool := t.clk == 0 || t.clk == 3 || (t.clk == 1 && slow)

/-- The timers that a tick reaches. -/
def State.tickTimers (s : State) (slow : Bool) : State :=
  (List.finRange 32).foldl (fun s n => if s.ev.timer[n].onTick slow then s.timerTick n else s) s

/-- The hold-off of every group runs down by one (R341). -/
def State.tickHolds (s : State) : State := s.modEv fun e => { e with holdRun := Vector.ofFn fun g => e.holdRun[g] - 1 }

/-- Vesper time advances by one, and VT_ALM is compared (R423, R432). -/
def State.tickTime (s : State) : State :=
  let s := s.modPower fun p => { p with vt := p.vt + 1 }
  match execVesperAlarm s with
  | .next t => t
  | _ => s

/-- A packet-budget window begins at each multiple of 1,024 of Vesper time (R479). -/
def State.tickWindow (s : State) : State :=
  if s.power.vt.toNat % 1024 = 0 then
    match execTraceBudgetWindow s with
    | .next t => t
    | _ => s
  else s

/-- One Vesper fast tick. Without PORn_AON nothing runs; without the fast clock nothing is counted. -/
def State.tick (s : State) : State :=
  if !s.power.pornAon then s
  else
    let s := s.kick
    if !s.power.fastClk then s
    else
      let slow := Config.slowTick s.power.vt.toNat
      let s := s.tickTime.tickWindow
      if s.eventsRun then s.tickHolds.tickTimers slow else s

end Sys2Proof.Machine
end

