-- ==== Sys2Proof/Machine/User.lean ====
section
/-! DEFINITION. Instructions whose meaning is microcode: the user page, the Ferpor-16 bytecodes of an F16 thread, and unassigned opcodes
(R62, R72, R75, R119, R190 to R194). -/

namespace Sys2Proof.Machine

open Sys2Proof

/-! ## The user page (R119, R190) -/

/-- Operand bytes of a vector entry. -/
def vectorWidth (v : BitVec 16) : Nat := match (bits v 10 2 : BitVec 2).toNat with | 0 => 0 | 1 => 1 | 2 => 2 | _ => 4

def userEnc (p : Byte) (opnd : Word) (v : BitVec 16) : Enc :=
  let n := vectorWidth v
  { op := 0xFF, page := some p, opnd := if n = 4 then opnd else opnd &&& ((1#32 <<< (8 * n)) - 1), width := n }

/-- What a user page byte is refused for before any microword runs. -/
def userRefused (v : BitVec 16) (priv : BitVec 2) : Option Byte :=
  if !v.getLsbD 12 then some fcUserOp else if v.getLsbD 13 && priv == 0 then some fcPriv else none

/-- USER_INSTRUCTION: dispatch through the user vector table. -/
def execUserInstruction (c : CoreId) (x : CtxId) (p : Byte) (opnd : Word) (words : Nat) (s : State) : Ans :=
  let v := s.core[c].vector p
  let e := userEnc p opnd v
  if !s.mayIssue c x false then .next s
  else
    let s := s.makeRoom c x
    if (s.ctx c x).inRoutine then .next (s.microResume c x e (max 1 words))
    else .next (s.afterFetch c x 2 fun s =>
      match userRefused v (s.ctx c x).priv with
      | some code => s.endFault c x code 0 false false
      | none => s.afterFetch c x e.len fun s =>
          s.microStart c x e (0xC00#12 + (bits v 0 10 : BitVec 10).setWidth 12) (max 1 words))

/-! ## F16 mode (R191 to R194) -/

/-- Where a Ferpor-16 instruction stands: in the vertical store, or in a helper. -/
inductive FPos where
  | vert (va : BitVec 11) (npc : Option Word)
  | help (p : UPos)

/-- A micro-address below the helpers, as a RET of one forms it, is a vertical address. -/
def UPos.place (p : UPos) : FPos := if p.upc.toNat < 0x800 then .vert (bits p.upc 0 11) p.npc else .help p

/-- The place of a routine as State holds it. -/
def f16Routine (op : Byte) (opnd : BitVec 16) (len : Nat) (q : FPos) : Routine :=
  match q with
  | .vert va npc => .f16 op opnd len (some va) { upc := 0, npc := npc }
  | .help p => .f16 op opnd len none p

inductive FStep where
  | on (s : State) (q : FPos)
  | fin (s : State)

/-- The stacks and privilege as they stand, for a precise fault to bring back (R83). -/
def Ctx.takeImage (t : Ctx) : Ctx :=
  { t with image := some { dstk := t.dstk, rstk := t.rstk, wtag := t.wtag, rtag := t.rtag, frame := t.frame, rtop := t.rtop,
                           doff := t.doff, roff := t.roff, priv := t.priv } }

/-- A precise fault inside a Ferpor-16 instruction: its earlier words leave nothing in the stacks. -/
def Ctx.bringBack (t : Ctx) : Ctx :=
  match t.image with
  | some i => { t with dstk := i.dstk, rstk := i.rstk, wtag := i.wtag, rtag := i.rtag, frame := i.frame, rtop := i.rtop, doff := i.doff,
                       roff := i.roff, priv := i.priv }
  | none => t

/-- The end of a Ferpor-16 instruction in a precise fault or a double fault. -/
def State.f16Fault (s : State) (c : CoreId) (x : CtxId) (code : Byte) (a : Word) (dbl : Bool) : State :=
  (s.modCtx c x Ctx.bringBack).endFault c x code a dbl true

/-- A vertical word is read and checked (R160, R192): none where it is not correctable. -/
def State.readVert (s : State) (c : CoreId) (va : BitVec 11) : Option (BitVec 24) × State :=
  let k := s.core[c]
  if k.vsBad.contains va.toNat then
    let s := s.modCore c fun k => { k with cErrAddr := va.setWidth 12, cUncorr := true }
    (none, s.raise (csSrc c) s.core[c].cstat)
  else if k.vsCorr.contains va.toNat then
    (some (bits (vertAt va) 0 24), (s.modCore c fun k => { k with ccnt := satInc k.ccnt }).countC c 0x39)
  else (some (bits (vertAt va) 0 24), s)

/-- A word of a helper; a RET to an address below the helpers leads back into the vertical store. -/
def State.f16Help (s : State) (c : CoreId) (x : CtxId) (e : UEnv) (r : FPos → Routine) (p : UPos) : FStep :=
  match s.microStep c x e (fun p => r p.place) false p with
  | .on s q => .on s q.place
  | .fin s' =>
    if (s'.ctx c x).st = .fault ∨ (s'.ctx c x).st = .dfault then
      .fin (s'.modCtx c x fun t => { ({ t with image := (s.ctx c x).image } : Ctx).bringBack with image := none })
    else .fin s'

/-- A vertical word (R192). Jump, branch, call and end are the sequencer's own; any other is expanded into one horizontal microword. -/
def State.f16Vert (s : State) (c : CoreId) (x : CtxId) (e : UEnv) (r : FPos → Routine) (fresh : Bool) (va : BitVec 11)
    (npc : Option Word) : FStep :=
  match s.readVert c va with
  | (none, s) => .fin (s.parkBad c x (r (.vert va npc)))
  | (some v, s) =>
    let vx : BitVec 12 := bits v 0 12
    let held (s' : State) : State := (s'.undo s c x).wordHeld c x fresh (r (.vert va npc))
    match (bits v 20 4 : BitVec 4).toNat with
    | 0x4 => .on s (.vert (bits vx 0 11) npc)
    | 0x5 =>
      match s.cellThere c x 0 with
      | .ok _ s =>
        let t := s.ctx c x
        .on s (.vert (if t.entry (t.flatEntry 0) = 0 then bits vx 0 11 else va + 1) npc)
      | .fault s' code a => .fin ((s'.undo s c x).f16Fault c x code a false)
      | .dfault s' code a => .fin ((s'.undo s c x).f16Fault c x code a true)
      | .wait s' w => .fin ((held s').enterWait c x w)
      | .hold s' => .fin (held s')
    | 0x7 => .on (s.modCore c fun k => k.setU 15 (fld (va + 1) 0)) (.help { upc := 0x800#12 ||| (vx &&& 0x1FF), npc := npc })
    | 0x9 =>
      .fin (s.finish c x e.npc (s.ctx c x).priv true
        { flow := match npc with | some a => .jump ((s.ctx c x).dataAddr a) | none => .seq })
    | _ =>
      match s.microWord c x e (vertWord v) false { upc := 0, npc := npc } with
      | .ok (.cont q, late) s' => .on (late (s'.modCtx c x fun t => { t with served := none, waitFor := none, moved := none, seen := 0 }))
          (.vert (va + 1) q.npc)
      | .ok (.fin _ _, late) s' => .fin (late s')
      | .fault s' code a => .fin ((s'.undo s c x).f16Fault c x code a false)
      | .dfault s' code a => .fin ((s'.undo s c x).f16Fault c x code a true)
      | .wait s' w => .fin ((held s').enterWait c x w)
      | .hold s' => .fin (held s')

/-- Words of a Ferpor-16 instruction one after another, as `microRun`; only a helper has trap points inside the instruction. -/
def State.f16Run (c : CoreId) (x : CtxId) (e : UEnv) (r : FPos → Routine) : Nat → Nat → Bool → State → FPos → State
  | 0, _, _, s, q => s.standIn c x (r q)
  | fuel + 1, words, fresh, s, q =>
    match q with
    | .vert va npc =>
      match s.f16Vert c x e r fresh va npc with
      | .on s q => State.f16Run c x e r fuel words false (s.standIn c x (r q)) q
      | .fin s => s
    | .help p =>
      if words = 0 then s.standIn c x (r q)
      else
        match s.f16Help c x e r p with
        | .on s q => State.f16Run c x e r fuel (words - 1) false s q
        | .fin s => s

def f16Env (op : Byte) (opnd : BitVec 16) (len : Nat) (npc : Word) : UEnv :=
  { op := op, opnd := opnd.setWidth 32, width := if len ≤ 1 then 0 else if len = 2 then 1 else 2, npc := npc }

/-- A Ferpor-16 instruction in the middle of which the context stands. -/
def State.f16Resume (s : State) (c : CoreId) (x : CtxId) (op : Byte) (opnd : BitVec 16) (len words : Nat) : State :=
  let t := s.ctx c x
  let e := f16Env op opnd len (t.codeAddr len)
  match t.routine with
  | none =>
    let p : UPos := { upc := t.slot.upc }
    State.f16Run c x e (f16Routine op opnd len) microFuel words false (s.unsave c x) p.place
  | some (.f16 op' opnd' len' va p) =>
    if op' = op then
      let e' := f16Env op' opnd' len' (t.codeAddr len')
      let q : FPos := match va with | some va => .vert va p.npc | none => .help p
      State.f16Run c x e' (f16Routine op' opnd' len') microFuel words false (s.unsave c x) q
    else s
  | some _ => s

/-- F16_INSTRUCTION: opcodes of the Ferpor-16's own timer, serial and raster-interrupt registers fault; others run from the vertical
store. -/
def execF16Instruction (c : CoreId) (x : CtxId) (op : Byte) (opnd : BitVec 16) (len : Fin 4) (words : Nat) (s : State) : Ans :=
  let n := max 1 len.val
  if !s.mayIssue c x true then .next s
  else
    let s := s.makeRoom c x
    if (s.ctx c x).inRoutine then .next (s.f16Resume c x op opnd n (max 1 words))
    else .next (s.afterFetch c x n fun s =>
      if Config.f16OwnRegs op then s.endFault c x fcIllegal 0 false false
      else
        let npc := (s.ctx c x).codeAddr n
        let s := ((s.openRegs c).modCore c fun k => { k with opnd := opnd.setWidth 32 }).modCtx c x Ctx.takeImage
        State.f16Run c x (f16Env op opnd n npc) (f16Routine op opnd n) microFuel (max 1 words) true s
          (.vert (Config.verticalStart op) none))

/-! ## Unassigned opcodes (R72, R157) -/

/-- UNASSIGNED_OPCODE: the service word at 0xBFF, unless a patch redirects it. -/
def execUnassignedOpcode (c : CoreId) (x : CtxId) (ext : Bool) (b : Byte) (s : State) : Ans :=
  s.issue c x (if ext then { op := 0xFE, page := some b } else { op := b }) fun s => .fault s fcIllegal 0

end Sys2Proof.Machine
end

