-- ==== Sys2Proof/Machine/Dispatch.lean ====
section
/-! DEFINITION. The meaning of each command, one arm per constructor of Instr. -/

namespace Sys2Proof.Machine

open Sys2Proof

def exec (i : Instr) (s : State) : Host.Outcome State Fault Refusal :=
  match i with
  | .litN c x n => Sys2Proof.Machine.execLitN c x n s
  | .litM1 c x => Sys2Proof.Machine.execLitM1 c x s
  | .lit8 c x b => Sys2Proof.Machine.execLit8 c x b s
  | .lit16 c x h => Sys2Proof.Machine.execLit16 c x h s
  | .lit32 c x w => Sys2Proof.Machine.execLit32 c x w s
  | .lit16U c x h => Sys2Proof.Machine.execLit16U c x h s
  | .dup c x => Sys2Proof.Machine.execDup c x s
  | .drop c x => Sys2Proof.Machine.execDrop c x s
  | .swap c x => Sys2Proof.Machine.execSwap c x s
  | .over c x => Sys2Proof.Machine.execOver c x s
  | .rot c x => Sys2Proof.Machine.execRot c x s
  | .nip c x => Sys2Proof.Machine.execNip c x s
  | .tuck c x => Sys2Proof.Machine.execTuck c x s
  | .twoDup c x => Sys2Proof.Machine.execTwoDup c x s
  | .twoDrop c x => Sys2Proof.Machine.execTwoDrop c x s
  | .twoSwap c x => Sys2Proof.Machine.execTwoSwap c x s
  | .pickN c x n => Sys2Proof.Machine.execPickN c x n s
  | .depth c x => Sys2Proof.Machine.execDepth c x s
  | .pokeN c x n => Sys2Proof.Machine.execPokeN c x n s
  | .toR c x => Sys2Proof.Machine.execToR c x s
  | .rFrom c x => Sys2Proof.Machine.execRFrom c x s
  | .rFetch c x => Sys2Proof.Machine.execRFetch c x s
  | .rdrop c x => Sys2Proof.Machine.execRdrop c x s
  | .enter c x => Sys2Proof.Machine.execEnter c x s
  | .leave c x => Sys2Proof.Machine.execLeave c x s
  | .add c x => Sys2Proof.Machine.execAdd c x s
  | .sub c x => Sys2Proof.Machine.execSub c x s
  | .neg c x => Sys2Proof.Machine.execNeg c x s
  | .abs c x => Sys2Proof.Machine.execAbs c x s
  | .and c x => Sys2Proof.Machine.execAnd c x s
  | .or c x => Sys2Proof.Machine.execOr c x s
  | .xor c x => Sys2Proof.Machine.execXor c x s
  | .not c x => Sys2Proof.Machine.execNot c x s
  | .shl c x => Sys2Proof.Machine.execShl c x s
  | .shr c x => Sys2Proof.Machine.execShr c x s
  | .sar c x => Sys2Proof.Machine.execSar c x s
  | .rol c x => Sys2Proof.Machine.execRol c x s
  | .ror c x => Sys2Proof.Machine.execRor c x s
  | .inc c x => Sys2Proof.Machine.execInc c x s
  | .dec c x => Sys2Proof.Machine.execDec c x s
  | .addsb c x => Sys2Proof.Machine.execAddsb c x s
  | .subsb c x => Sys2Proof.Machine.execSubsb c x s
  | .mul c x => Sys2Proof.Machine.execMul c x s
  | .min c x => Sys2Proof.Machine.execMin c x s
  | .max c x => Sys2Proof.Machine.execMax c x s
  | .minu c x => Sys2Proof.Machine.execMinu c x s
  | .maxu c x => Sys2Proof.Machine.execMaxu c x s
  | .extb c x => Sys2Proof.Machine.execExtb c x s
  | .clz c x => Sys2Proof.Machine.execClz c x s
  | .eq c x => Sys2Proof.Machine.execEq c x s
  | .ne c x => Sys2Proof.Machine.execNe c x s
  | .lt c x => Sys2Proof.Machine.execLt c x s
  | .gt c x => Sys2Proof.Machine.execGt c x s
  | .ltu c x => Sys2Proof.Machine.execLtu c x s
  | .gtu c x => Sys2Proof.Machine.execGtu c x s
  | .zeq c x => Sys2Proof.Machine.execZeq c x s
  | .zlt c x => Sys2Proof.Machine.execZlt c x s
  | .sel c x => Sys2Proof.Machine.execSel c x s
  | .addi8 c x b => Sys2Proof.Machine.execAddi8 c x b s
  | .shli c x b => Sys2Proof.Machine.execShli c x b s
  | .shri c x b => Sys2Proof.Machine.execShri c x b s
  | .sari c x b => Sys2Proof.Machine.execSari c x b s
  | .div c x => Sys2Proof.Machine.execDiv c x s
  | .mod c x => Sys2Proof.Machine.execMod c x s
  | .divu c x => Sys2Proof.Machine.execDivu c x s
  | .modu c x => Sys2Proof.Machine.execModu c x s
  | .sqrt c x => Sys2Proof.Machine.execSqrt c x s
  | .mulw c x => Sys2Proof.Machine.execMulw c x s
  | .mulwu c x => Sys2Proof.Machine.execMulwu c x s
  | .ldf c x => Sys2Proof.Machine.execLdf c x s
  | .longOpRetire c x j => Sys2Proof.Machine.execLongOpRetire c x j s
  | .impreciseFault c x => Sys2Proof.Machine.execImpreciseFault c x s
  | .ld c x => Sys2Proof.Machine.execLd c x s
  | .ldh c x => Sys2Proof.Machine.execLdh c x s
  | .ldhs c x => Sys2Proof.Machine.execLdhs c x s
  | .ldb c x => Sys2Proof.Machine.execLdb c x s
  | .ldbs c x => Sys2Proof.Machine.execLdbs c x s
  | .st c x => Sys2Proof.Machine.execSt c x s
  | .sth c x => Sys2Proof.Machine.execSth c x s
  | .stb c x => Sys2Proof.Machine.execStb c x s
  | .ldp c x => Sys2Proof.Machine.execLdp c x s
  | .stp c x => Sys2Proof.Machine.execStp c x s
  | .ldo c x b => Sys2Proof.Machine.execLdo c x b s
  | .sto c x b => Sys2Proof.Machine.execSto c x b s
  | .ldl8 c x b => Sys2Proof.Machine.execLdl8 c x b s
  | .stl8 c x b => Sys2Proof.Machine.execStl8 c x b s
  | .ldl16 c x h => Sys2Proof.Machine.execLdl16 c x h s
  | .stl16 c x h => Sys2Proof.Machine.execStl16 c x h s
  | .ldgN c x n => Sys2Proof.Machine.execLdgN c x n s
  | .stgN c x n => Sys2Proof.Machine.execStgN c x n s
  | .claim c x => Sys2Proof.Machine.execClaim c x s
  | .commit c x elapsed => Sys2Proof.Machine.execCommit c x elapsed s
  | .fence c x => Sys2Proof.Machine.execFence c x s
  | .drain c x => Sys2Proof.Machine.execDrain c x s
  | .pinr c x => Sys2Proof.Machine.execPinr c x s
  | .pinw c x => Sys2Proof.Machine.execPinw c x s
  | .pinrw c x => Sys2Proof.Machine.execPinrw c x s
  | .pinwm c x => Sys2Proof.Machine.execPinwm c x s
  | .stim c x b => Sys2Proof.Machine.execStim c x b s
  | .transit c x => Sys2Proof.Machine.execTransit c x s
  | .twait c x => Sys2Proof.Machine.execTwait c x s
  | .beam c x => Sys2Proof.Machine.execBeam c x s
  | .frame c x => Sys2Proof.Machine.execFrame c x s
  | .br8 c x o => Sys2Proof.Machine.execBr8 c x o s
  | .br16 c x o => Sys2Proof.Machine.execBr16 c x o s
  | .bz8 c x wide o => Sys2Proof.Machine.execBz8 c x wide o s
  | .bnz8 c x wide o => Sys2Proof.Machine.execBnz8 c x wide o s
  | .bzfN c x n => Sys2Proof.Machine.execBzfN c x n s
  | .call16 c x o => Sys2Proof.Machine.execCall16 c x o s
  | .call32 c x w => Sys2Proof.Machine.execCall32 c x w s
  | .callvN c x n => Sys2Proof.Machine.execCallvN c x n s
  | .calli c x => Sys2Proof.Machine.execCalli c x s
  | .jmpi c x => Sys2Proof.Machine.execJmpi c x s
  | .ret c x => Sys2Proof.Machine.execRet c x s
  | .rloop8 c x o => Sys2Proof.Machine.execRloop8 c x o s
  | .nop c x => Sys2Proof.Machine.execNop c x s
  | .sys c x n => Sys2Proof.Machine.execSys c x n s
  | .rets c x => Sys2Proof.Machine.execRets c x s
  | .reti c x => Sys2Proof.Machine.execReti c x s
  | .sleep c x => Sys2Proof.Machine.execSleep c x s
  | .yield c x => Sys2Proof.Machine.execYield c x s
  | .bkpt c x => Sys2Proof.Machine.execBkpt c x s
  | .vtime c x => Sys2Proof.Machine.execVtime c x s
  | .coreid c x => Sys2Proof.Machine.execCoreid c x s
  | .move c x words => Sys2Proof.Machine.execMove c x words s
  | .fill c x words => Sys2Proof.Machine.execFill c x words s
  | .blit c x words => Sys2Proof.Machine.execBlit c x words s
  | .blitk c x words => Sys2Proof.Machine.execBlitk c x words s
  | .userInstruction c x p opnd words => Sys2Proof.Machine.execUserInstruction c x p opnd words s
  | .f16Instruction c x op opnd len words => Sys2Proof.Machine.execF16Instruction c x op opnd len words s
  | .ucodeRamRewrite c a => Sys2Proof.Machine.execUcodeRamRewrite c a s
  | .waitEnd c x => Sys2Proof.Machine.execWaitEnd c x s
  | .quantumExpiry c => Sys2Proof.Machine.execQuantumExpiry c s
  | .fetchInvalidate c a n => Sys2Proof.Machine.execFetchInvalidate c a n s
  | .fetchRefill c x a => Sys2Proof.Machine.execFetchRefill c x a s
  | .thrCtlStart w c x v => Sys2Proof.Machine.execThrCtlStart w c x v s
  | .thrCtlStop w c x v => Sys2Proof.Machine.execThrCtlStop w c x v s
  | .parkAtBoundary c x => Sys2Proof.Machine.execParkAtBoundary c x s
  | .thrCtlResume w c x v => Sys2Proof.Machine.execThrCtlResume w c x v s
  | .thrCtlReset w c x v => Sys2Proof.Machine.execThrCtlReset w c x v s
  | .thrCtlCntd w c x v => Sys2Proof.Machine.execThrCtlCntd w c x v s
  | .cntdTakeEffect c x => Sys2Proof.Machine.execCntdTakeEffect c x s
  | .thrStatPrivWrite w c x v => Sys2Proof.Machine.execThrStatPrivWrite w c x v s
  | .spillAreaWrite w c x size v => Sys2Proof.Machine.execSpillAreaWrite w c x size v s
  | .windatRead c x => Sys2Proof.Machine.execWindatRead c x s
  | .windatWrite c x v => Sys2Proof.Machine.execWindatWrite c x v s
  | .pipeCtlBtbInv w c v => Sys2Proof.Machine.execPipeCtlBtbInv w c v s
  | .rcFieldRead w a => Sys2Proof.Machine.execRcFieldRead w a s
  | .registerWrite w a v => Sys2Proof.Machine.execRegisterWrite w a v s
  | .ucLdctlHold w cores => Sys2Proof.Machine.execUcLdctlHold w cores s
  | .coreHeld c => Sys2Proof.Machine.execCoreHeld c s
  | .ucLdctlRelease w => Sys2Proof.Machine.execUcLdctlRelease w s
  | .ucLdctlLock w => Sys2Proof.Machine.execUcLdctlLock w s
  | .ucCmdWrite w => Sys2Proof.Machine.execUcCmdWrite w s
  | .ucCmdRead w => Sys2Proof.Machine.execUcCmdRead w s
  | .transitAccept g => Sys2Proof.Machine.execTransitAccept g s
  | .lateInsertMerge t => Sys2Proof.Machine.execLateInsertMerge t s
  | .beamPositionSample n line quad run hold par => Sys2Proof.Machine.execBeamPositionSample n line quad run hold par s
  | .walkEnd t => Sys2Proof.Machine.execWalkEnd t s
  | .sortEnd t => Sys2Proof.Machine.execSortEnd t s
  | .soundPositionSample m blk smp run hold par aclks => Sys2Proof.Machine.execSoundPositionSample m blk smp run hold par aclks s
  | .flushKey w => Sys2Proof.Machine.execFlushKey w s
  | .flushTb w => Sys2Proof.Machine.execFlushTb w s
  | .readEntry w => Sys2Proof.Machine.execReadEntry w s
  | .readQueue w => Sys2Proof.Machine.execReadQueue w s
  | .resetEph w => Sys2Proof.Machine.execResetEph w s
  | .trnCmdDone => Sys2Proof.Machine.execTrnCmdDone s
  | .tbnCfgWrite w t v => Sys2Proof.Machine.execTbnCfgWrite w t v s
  | .queueStateClearDone => Sys2Proof.Machine.execQueueStateClearDone s
  | .bpnCtlWrite w p v => Sys2Proof.Machine.execBpnCtlWrite w p v s
  | .sync p src r came within => Sys2Proof.Machine.execSync p src r came within s
  | .meridianMissExpiry n => Sys2Proof.Machine.execMeridianMissExpiry n s
  | .meridianHoldoverExpiry n => Sys2Proof.Machine.execMeridianHoldoverExpiry n s
  | .linkUp p g => Sys2Proof.Machine.execLinkUp p g s
  | .linkDown p => Sys2Proof.Machine.execLinkDown p s
  | .dlyReq p num turn => Sys2Proof.Machine.execDlyReq p num turn s
  | .dlyRsp p num t32 trip => Sys2Proof.Machine.execDlyRsp p num t32 trip s
  | .frameForward p f ahead => Sys2Proof.Machine.execFrameForward p f ahead s
  | .frameError p e => Sys2Proof.Machine.execFrameError p e s
  | .ownFrameSend p => Sys2Proof.Machine.execOwnFrameSend p s
  | .read h data => Sys2Proof.Machine.execRead h data s
  | .write h data => Sys2Proof.Machine.execWrite h data s
  | .dread h data => Sys2Proof.Machine.execDread h data s
  | .dwrite h data => Sys2Proof.Machine.execDwrite h data s
  | .ping h data => Sys2Proof.Machine.execPing h data s
  | .resync h data => Sys2Proof.Machine.execResync h data s
  | .assign h data => Sys2Proof.Machine.execAssign h data s
  | .msg h data => Sys2Proof.Machine.execMsg h data s
  | .ringTclkLoss => Sys2Proof.Machine.execRingTclkLoss s
  | .ringTclkPresent => Sys2Proof.Machine.execRingTclkPresent s
  | .fastClockAbsent => Sys2Proof.Machine.execFastClockAbsent s
  | .nmsgSend w v => Sys2Proof.Machine.execNmsgSend w v s
  | .nmsgSent => Sys2Proof.Machine.execNmsgSent s
  | .hmsgEmpty w => Sys2Proof.Machine.execHmsgEmpty w s
  | .rppCtlWrite w p v => Sys2Proof.Machine.execRppCtlWrite w p v s
  | .save => Sys2Proof.Machine.execSave s
  | .restore => Sys2Proof.Machine.execRestore s
  | .start mask => Sys2Proof.Machine.execStart mask s
  | .injWhen v => Sys2Proof.Machine.execInjWhen v s
  | .intCode v => Sys2Proof.Machine.execIntCode v s
  | .intUnlock v => Sys2Proof.Machine.execIntUnlock v s
  | .intLock => Sys2Proof.Machine.execIntLock s
  | .flashCtlw v => Sys2Proof.Machine.execFlashCtlw v s
  | .ucCtlBegin => Sys2Proof.Machine.execUcCtlBegin s
  | .ucCtlCommit => Sys2Proof.Machine.execUcCtlCommit s
  | .ucCtlAbandon => Sys2Proof.Machine.execUcCtlAbandon s
  | .dacc op sub index data => Sys2Proof.Machine.execDacc op sub index data s
  | .pornAonAssert => Sys2Proof.Machine.execPornAonAssert s
  | .pornAonRelease => Sys2Proof.Machine.execPornAonRelease s
  | .mainOkFall => Sys2Proof.Machine.execMainOkFall s
  | .rstnMainFall => Sys2Proof.Machine.execRstnMainFall s
  | .mainResetRelease => Sys2Proof.Machine.execMainResetRelease s
  | .pllLock => Sys2Proof.Machine.execPllLock s
  | .cacheInvalidateDone c => Sys2Proof.Machine.execCacheInvalidateDone c s
  | .controlStoreCheckDone c failed => Sys2Proof.Machine.execControlStoreCheckDone c failed s
  | .mainWarnRise => Sys2Proof.Machine.execMainWarnRise s
  | .dbgRstn => Sys2Proof.Machine.execDbgRstn s
  | .trstn => Sys2Proof.Machine.execTrstn s
  | .pwrReqNap w => Sys2Proof.Machine.execPwrReqNap w s
  | .napEntry => Sys2Proof.Machine.execNapEntry s
  | .napExit => Sys2Proof.Machine.execNapExit s
  | .bankWake => Sys2Proof.Machine.execBankWake s
  | .pwrReqVesperOnly w => Sys2Proof.Machine.execPwrReqVesperOnly w s
  | .vesperOnlyEntry => Sys2Proof.Machine.execVesperOnlyEntry s
  | .pwrReqCancel w => Sys2Proof.Machine.execPwrReqCancel w s
  | .dozeEntry c => Sys2Proof.Machine.execDozeEntry c s
  | .dozeExit c => Sys2Proof.Machine.execDozeExit c s
  | .clkPllaWrite w v => Sys2Proof.Machine.execClkPllaWrite w v s
  | .pllaRelock => Sys2Proof.Machine.execPllaRelock s
  | .clkCdivWrite w hi v => Sys2Proof.Machine.execClkCdivWrite w hi v s
  | .clkSdivWrite w v => Sys2Proof.Machine.execClkSdivWrite w v s
  | .coreSoftReset w c => Sys2Proof.Machine.execCoreSoftReset w c s
  | .vtLoWrite w v => Sys2Proof.Machine.execVtLoWrite w v s
  | .vtLoRead w => Sys2Proof.Machine.execVtLoRead w s
  | .vesperAlarm => Sys2Proof.Machine.execVesperAlarm s
  | .spadEccWriteback a => Sys2Proof.Machine.execSpadEccWriteback a s
  | .wipeStart => Sys2Proof.Machine.execWipeStart s
  | .wipeDone => Sys2Proof.Machine.execWipeDone s
  | .zeroingDone => Sys2Proof.Machine.execZeroingDone s
  | .marchStart w v => Sys2Proof.Machine.execMarchStart w v s
  | .marchStop w v => Sys2Proof.Machine.execMarchStop w v s
  | .marchElementEnd got => Sys2Proof.Machine.execMarchElementEnd got s
  | .marchSliceEnd => Sys2Proof.Machine.execMarchSliceEnd s
  | .marchRunEnd => Sys2Proof.Machine.execMarchRunEnd s
  | .lineFillArrival c j => Sys2Proof.Machine.execLineFillArrival c j s
  | .lcAgeTick c => Sys2Proof.Machine.execLcAgeTick c s
  | .lcPinWrite w c v => Sys2Proof.Machine.execLcPinWrite w c v s
  | .lcPinld w c v => Sys2Proof.Machine.execLcPinld w c v s
  | .pinldDone c => Sys2Proof.Machine.execPinldDone c s
  | .lcCtlWrite w c v => Sys2Proof.Machine.execLcCtlWrite w c v s
  | .fabWinWrite w v => Sys2Proof.Machine.execFabWinWrite w v s
  | .storeBufferSend c => Sys2Proof.Machine.execStoreBufferSend c s
  | .fabricWriteResponse tag err => Sys2Proof.Machine.execFabricWriteResponse tag err s
  | .fabricReadResponse tag data err => Sys2Proof.Machine.execFabricReadResponse tag data err s
  | .snoop a parOk => Sys2Proof.Machine.execSnoop a parOk s
  | .flashPortIssue => Sys2Proof.Machine.execFlashPortIssue s
  | .flashRequestGrant => Sys2Proof.Machine.execFlashRequestGrant s
  | .flashReadBeat tag data err parOk => Sys2Proof.Machine.execFlashReadBeat tag data err parOk s
  | .flashWriteAck tag err => Sys2Proof.Machine.execFlashWriteAck tag err s
  | .flCtlWrite w v => Sys2Proof.Machine.execFlCtlWrite w v s
  | .fabricSlaveRequest write a d be tag parOk => Sys2Proof.Machine.execFabricSlaveRequest write a d be tag parOk s
  | .sourceRaise st_ payload => Sys2Proof.Machine.execSourceRaise st_ payload s
  | .fastEntry c => Sys2Proof.Machine.execFastEntry c s
  | .eventRecordWrite => Sys2Proof.Machine.execEventRecordWrite s
  | .normalEntry c => Sys2Proof.Machine.execNormalEntry c s
  | .holdoffExpiry g => Sys2Proof.Machine.execHoldoffExpiry g s
  | .timerExpiry n => Sys2Proof.Machine.execTimerExpiry n s
  | .evSwset w v => Sys2Proof.Machine.execEvSwset w v s
  | .evSrcWrite w st_ v => Sys2Proof.Machine.execEvSrcWrite w st_ v s
  | .evqBaseWrite w c v => Sys2Proof.Machine.execEvqBaseWrite w c v s
  | .evqRdWrite w c v => Sys2Proof.Machine.execEvqRdWrite w c v s
  | .evqWrRead w c => Sys2Proof.Machine.execEvqWrRead w c s
  | .fvecReload c k => Sys2Proof.Machine.execFvecReload c k s
  | .pinInputChange k level => Sys2Proof.Machine.execPinInputChange k level s
  | .gpioFilterExpiry k => Sys2Proof.Machine.execGpioFilterExpiry k s
  | .evtInChange k level => Sys2Proof.Machine.execEvtInChange k level s
  | .pinWriteApply => Sys2Proof.Machine.execPinWriteApply s
  | .gpMuxWrite w j v => Sys2Proof.Machine.execGpMuxWrite w j v s
  | .gpFiltWrite w k v => Sys2Proof.Machine.execGpFiltWrite w k v s
  | .gpOwnWrite w c hi v => Sys2Proof.Machine.execGpOwnWrite w c hi v s
  | .dbgUnreq w v => Sys2Proof.Machine.execDbgUnreq w v s
  | .dbgRespLo w v => Sys2Proof.Machine.execDbgRespLo w v s
  | .unlockCheckDone => Sys2Proof.Machine.execUnlockCheckDone s
  | .dbgLock w => Sys2Proof.Machine.execDbgLock w s
  | .dbgCoreHalt w c => Sys2Proof.Machine.execDbgCoreHalt w c s
  | .haltArrival m => Sys2Proof.Machine.execHaltArrival m s
  | .dbgCoreStep w c v => Sys2Proof.Machine.execDbgCoreStep w c v s
  | .stepDone c => Sys2Proof.Machine.execStepDone c s
  | .xtmFire w lines => Sys2Proof.Machine.execXtmFire w lines s
  | .dbgRel w members => Sys2Proof.Machine.execDbgRel w members s
  | .dbgMctlGo w v => Sys2Proof.Machine.execDbgMctlGo w v s
  | .dbgVdataAccess w v => Sys2Proof.Machine.execDbgVdataAccess w v s
  | .tracePortPacket => Sys2Proof.Machine.execTracePortPacket s
  | .traceBufferWrite => Sys2Proof.Machine.execTraceBufferWrite s
  | .trcCtlWrite w v => Sys2Proof.Machine.execTrcCtlWrite w v s
  | .cntOverflow n => Sys2Proof.Machine.execCntOverflow n s
  | .cntGctlClr w v => Sys2Proof.Machine.execCntGctlClr w v s
  | .cntnLoWrite w n v => Sys2Proof.Machine.execCntnLoWrite w n v s
  | .watchdogWarning c => Sys2Proof.Machine.execWatchdogWarning c s
  | .watchdogBite c => Sys2Proof.Machine.execWatchdogBite c s
  | .wdtKick w c v => Sys2Proof.Machine.execWdtKick w c v s
  | .nvmRowWriteEnd ok => Sys2Proof.Machine.execNvmRowWriteEnd ok s
  | .nlCtlClear w => Sys2Proof.Machine.execNlCtlClear w s
  | .nlSwreq w => Sys2Proof.Machine.execNlSwreq w s
  | .lcReq w code => Sys2Proof.Machine.execLcReq w code s
  | .tamperEvent => Sys2Proof.Machine.execTamperEvent s
  | .tmpForce w => Sys2Proof.Machine.execTmpForce w s
  | .unassignedOpcode c x ext b => Sys2Proof.Machine.execUnassignedOpcode c x ext b s
  | .mainWarnFall => Sys2Proof.Machine.execMainWarnFall s
  | .fastClockPresent => Sys2Proof.Machine.execFastClockPresent s
  | .vdbgLoss => Sys2Proof.Machine.execVdbgLoss s
  | .vdbgReturn => Sys2Proof.Machine.execVdbgReturn s
  | .fabricRequestAccept => Sys2Proof.Machine.execFabricRequestAccept s
  | .errorWindowEnd p => Sys2Proof.Machine.execErrorWindowEnd p s
  | .traceBudgetWindow => Sys2Proof.Machine.execTraceBudgetWindow s

end Sys2Proof.Machine
end

