-- ==== Sys2Proof/Machine/Step.lean ====
section
/-! DEFINITION. One step: the command at the front of the queue, or a Vesper fast tick where none waits. -/

namespace Sys2Proof.Machine

open Sys2Proof

/-- The command at the front runs on the state with the queue's rest; without one a tick passes (notes/assumptions/4.md). -/
def step (s : State) : Host.Outcome State Fault Refusal :=
  match s.pending with
  | [] => .next s.tick
  | i :: rest => exec i { s with pending := rest }

/-- The state with the command that a table word spells in front of its queue: spec/opcode_table.json gives no row bits, so no
word spells one. -/
def State.withFetchWord (s : State) (_nbits _w : Nat) : State := s

end Sys2Proof.Machine
end

