-- ==== Sys2Proof/Safety.lean ====
section
/-! DEFINITION. What counts as a good state and as a completed command, in the terms that the statements use. -/

namespace Sys2Proof.Machine

open Sys2Proof

/-! ## An instruction that may issue -/

/-- Context `x` of core `c` may issue an instruction of `n` bytes (R123 to R126): it stands inside no routine, spill or fill, no other
context's routine is in X (R139), and the bytes are in its fetch buffer (R130, R131). -/
abbrev Fetched (s : State) (c : CoreId) (x : CtxId) (n : Nat) : Prop :=
  s.mayIssue c x false = true ∧ (s.ctx c x).inRoutine = false ∧ (s.ctx c x).moved = none ∧ s.core[c].midRoutine = none ∧
  (s.ctx c x).fbuf.contains ((s.ctx c x).codeAddr 0 &&& 0xFFFFFFE0) = true ∧
  (s.ctx c x).fbuf.contains ((s.ctx c x).codeAddr (n - 1) &&& 0xFFFFFFE0) = true

/-- Core `c` runs the routine that starts at `a` as the vendor stored it: no patch register redirects it (R182), and none of its words is
in error (R160). -/
abbrev AsStored (s : State) (c : CoreId) (a : BitVec 12) : Prop :=
  s.core[c].redirects a = false ∧ s.core[c].badWord a = none ∧ s.core[c].csCorr = []

/-- Context `x` of core `c` may issue the native instruction `e`, and its core has the routine as the vendor stored it. -/
abbrev Ready (s : State) (c : CoreId) (x : CtxId) (e : Enc) : Prop := Fetched s c x e.len ∧ AsStored s c (dispatch e.index)

/-- The `n` cells on top of the current frame are there and hold their values: none is waiting for a long operation (R39, R134), nor is an
entry of the frame's window above them, where an instruction puts new cells (R91). -/
abbrev Cells (s : State) (c : CoreId) (x : CtxId) (n : Nat) : Prop :=
  n ≤ (s.ctx c x).depth ∧ (s.ctx c x).depth ≤ 8 ∧ (∀ i < n, (s.ctx c x).dpend[(s.ctx c x).topEntry i] = false) ∧
  ∀ i < 8, (s.ctx c x).depth ≤ i → (s.ctx c x).dpend[entryOf (s.ctx c x).win i] = false

/-! ## What an instruction leaves unchanged -/

/-- Core `c` is as it was but for context `x`, its last issuer and quantum count (R124), the branch-target buffer (R132), the mark that a
step has run (R470), and the micro-registers, which a routine uses (R178). -/
def CoreKept (s t : State) (c : CoreId) (x : CtxId) : Prop :=
  (∀ d, d ≠ c → t.core[d] = s.core[d]) ∧ (∀ y, y ≠ x → t.ctx c y = s.ctx c y) ∧
  t.core[c] = { s.core[c] with
    ctx := t.core[c].ctx, last := some x, qcount := t.core[c].qcount, btb := t.core[c].btb, stepRan := s.core[c].stepping,
    u := t.core[c].u, ucnt := t.core[c].ucnt, uFree := t.core[c].uFree }

/-- Everything outside the cores is as it was, but for the event counters that count the instruction (R484). -/
def RestKept (s t : State) : Prop := t = { s with core := t.core, counters := { s.counters with cnt := t.counters.cnt } }

/-- A routine that the context's handler interrupted goes on being kept, or is the context's own again where the handler has returned to
it (R57); without one, the context stands inside no routine. -/
def RoutineKept (u v : Ctx) : Prop :=
  (v.held = none ∨ v.held = u.held) ∧ (u.held = none → v.routine = none ∧ v.moved = none ∧ v.slot = u.slot)

/-- The context is as it was but for THR_PC, the cells, tags and tops of its stacks, and what belongs to the instruction in progress. -/
def CtxKept (s t : State) (c : CoreId) (x : CtxId) : Prop :=
  let v := t.ctx c x
  v = { s.ctx c x with pc := v.pc, dstk := v.dstk, wtag := v.wtag, frame := v.frame, rstk := v.rstk, rtag := v.rtag, rtop := v.rtop,
                       waitFor := none, served := none, redo := false, routine := v.routine, held := v.held, slot := v.slot,
                       moved := v.moved, seen := 0, image := none, btbAt := v.btbAt } ∧
  RoutineKept (s.ctx c x) v

/-! ## What an instruction does to its stacks -/

/-- In the current frame the top `pops` cells have given way to `vs`, lowest first; every other window is as it was (R39, R67). -/
def StackDone (s t : State) (c : CoreId) (x : CtxId) (pops : Nat) (vs : List Word) : Prop :=
  let u := s.ctx c x
  let v := t.ctx c x
  v.frame = u.frame ∧ v.depth = u.depth - pops + vs.length ∧
  (∀ i < vs.length, v.cell i = vs.reverse.getD i 0) ∧
  (∀ i < u.depth - pops, v.cell (vs.length + i) = u.cell (pops + i)) ∧
  (∀ w : Fin 8, w ≠ u.win → v.wtag[w] = u.wtag[w] ∧ ∀ i, v.dstk[entryOf w i] = u.dstk[entryOf w i])

/-- The return stack is as it was. -/
def ReturnsKept (s t : State) (c : CoreId) (x : CtxId) : Prop :=
  (t.ctx c x).rstk = (s.ctx c x).rstk ∧ (t.ctx c x).rtag = (s.ctx c x).rtag ∧ (t.ctx c x).rtop = (s.ctx c x).rtop

/-- An instruction of the data stack is done: its cells are replaced, THR_PC is `to_`, and nothing else has changed. -/
def Completed (s t : State) (c : CoreId) (x : CtxId) (to_ : Word) (pops : Nat) (vs : List Word) : Prop :=
  (t.ctx c x).pc = to_ ∧ StackDone s t c x pops vs ∧ ReturnsKept s t c x ∧ CtxKept s t c x ∧ CoreKept s t c x ∧ RestKept s t

/-- The address after an instruction of `n` bytes (R70). -/
abbrev after (s : State) (c : CoreId) (x : CtxId) (n : Nat) : Word := (s.ctx c x).codeAddr n

/-! ## The return stack -/

/-- The entries of return group `g`, oldest first (R43). -/
def Ctx.group (t : Ctx) (g : Fin 2) : List Word := (List.range t.rtag[g].count.toNat).map fun i => t.rstk[rEntry g i]

/-- The entries of the return cache, oldest first (R43). -/
def Ctx.returns (t : Ctx) : List Word :=
  (if t.rtag[rOther t.rtop].live then t.group (rOther t.rtop) else []) ++ t.group t.rtop

/-- Tags of the return groups as pushes and pops leave them: at most 8 entries, and a group with entries is live. -/
abbrev GroupsOk (u : Ctx) : Prop :=
  ∀ g : Fin 2, u.rtag[g].count.toNat ≤ 8 ∧ (u.rtag[g].count.toNat ≠ 0 → u.rtag[g].live = true)

/-- The return cache holds `l`, oldest entry first; F has one group (R55). -/
abbrev Returns (s : State) (c : CoreId) (x : CtxId) (l : List Word) : Prop :=
  (s.ctx c x).returns = l ∧ GroupsOk (s.ctx c x) ∧ (x = fCtx → (s.ctx c x).rtag[rOther (s.ctx c x).rtop].live = false)

/-- `n` entries can be pushed without a spill: there is room in the newest group, or, for a thread, the other group is free (R43, R55). -/
abbrev RoomFor (s : State) (c : CoreId) (x : CtxId) (n : Nat) : Prop :=
  (s.ctx c x).rtag[(s.ctx c x).rtop].count.toNat + n ≤ 8 ∨
    (x ≠ fCtx ∧ n ≤ 8 ∧ (s.ctx c x).rtag[rOther (s.ctx c x).rtop].live = false)

/-- An instruction that uses the return stack is done: `Completed`, with `l` in the return cache. -/
def CompletedR (s t : State) (c : CoreId) (x : CtxId) (to_ : Word) (pops : Nat) (vs : List Word) (l : List Word) : Prop :=
  (t.ctx c x).pc = to_ ∧ StackDone s t c x pops vs ∧ Returns t c x l ∧ CtxKept s t c x ∧ CoreKept s t c x ∧ RestKept s t

/-- Command `i`, whose first bytes are `e`, completes on context `x` of core `c` whenever it may issue: the top `pops` cells give way to
`vs` and THR_PC is `to_`. -/
def Goes (s : State) (c : CoreId) (x : CtxId) (i : Instr) (e : Enc) (to_ : Word) (pops : Nat) (vs : List Word) : Prop :=
  Ready s c x e → ∃ t, exec i s = .next t ∧ Completed s t c x to_ pops vs

/-- `Goes`, with `l` in the return cache afterwards. -/
def GoesR (s : State) (c : CoreId) (x : CtxId) (i : Instr) (e : Enc) (to_ : Word) (pops : Nat) (vs l : List Word) : Prop :=
  Ready s c x e → ∃ t, exec i s = .next t ∧ CompletedR s t c x to_ pops vs l

/-- Command `i`, whose first bytes are `e`, completes on context `x` of core `c` whenever it may issue: the top `pops` cells give way to
`vs` and THR_PC is the address after it. -/
def Does (s : State) (c : CoreId) (x : CtxId) (i : Instr) (e : Enc) (pops : Nat) (vs : List Word) : Prop :=
  Ready s c x e → ∃ t, exec i s = .next t ∧ Completed s t c x (after s c x e.len) pops vs

/-- `Goes` for a command that also makes the change from `s` to `s'`. -/
def GoesTo (s s' : State) (c : CoreId) (x : CtxId) (i : Instr) (e : Enc) (to_ : Word) (pops : Nat) (vs : List Word) : Prop :=
  Ready s c x e → ∃ t, exec i s = .next t ∧ Completed s' t c x to_ pops vs

/-- `GoesR` for a command that also makes the change from `s` to `s'`. -/
def GoesRTo (s s' : State) (c : CoreId) (x : CtxId) (i : Instr) (e : Enc) (to_ : Word) (pops : Nat) (vs l : List Word) : Prop :=
  Ready s c x e → ∃ t, exec i s = .next t ∧ CompletedR s' t c x to_ pops vs l

/-- `Does` for a command that also makes the change from `s` to `s'`. -/
def DoesTo (s s' : State) (c : CoreId) (x : CtxId) (i : Instr) (e : Enc) (pops : Nat) (vs : List Word) : Prop :=
  GoesTo s s' c x i e (after s c x e.len) pops vs

/-- What an instruction of microcode leaves: as `CoreKept`, and the registers of its microwords may have changed. -/
def MicroKept (s t : State) (c : CoreId) (x : CtxId) : Prop :=
  (∀ d, d ≠ c → t.core[d] = s.core[d]) ∧ (∀ y, y ≠ x → t.ctx c y = s.ctx c y) ∧
  t.core[c] = { s.core[c] with
    ctx := t.core[c].ctx, last := some x, qcount := t.core[c].qcount, stepRan := s.core[c].stepping,
    u := t.core[c].u, ucnt := t.core[c].ucnt, uFree := t.core[c].uFree, opnd := t.core[c].opnd, mdr := t.core[c].mdr,
    mullo := t.core[c].mullo, xin := t.core[c].xin, flagZ := t.core[c].flagZ, flagN := t.core[c].flagN, flagC := t.core[c].flagC,
    flagV := t.core[c].flagV, flagF0 := t.core[c].flagF0 } ∧
  t = { s with core := t.core, counters := { s.counters with cnt := t.counters.cnt }, freeCtr := t.freeCtr }

/-! ## Faults -/

/-- Context `x` of core `c` took a fault: it is in FAULT with THR_PC where it was, FCODE and THR_FADDR as given (R32, R83, R85); its reads
under way are dropped (R87); the thread-fault source is raised if it is enabled (R325, R326), the decode register may have passed on
(R124), and the micro-registers may have changed (R178). -/
def TookFault (s t : State) (c : CoreId) (x : CtxId) (code : Byte) (faddr : Word) (imprec : Bool) : Prop :=
  let u := s.ctx c x
  t.ctx c x = { u with st := .fault, fcode := code, faddr := faddr, imprec := imprec, impKnown := [], waitFor := none,
                       served := none, redo := false, ahead := none, moved := if imprec then u.moved else none,
                       seen := if imprec then u.seen else 0, image := if imprec then u.image else none } ∧
  (∀ d y, (d ≠ c ∨ y ≠ x) → t.ctx d y = s.ctx d y) ∧
  (∀ d : CoreId, t.core[d] = { s.core[d] with
    ctx := t.core[d].ctx, last := t.core[d].last, qcount := t.core[d].qcount, holder := t.core[d].holder, search := t.core[d].search,
    qload := t.core[d].qload, stepRan := t.core[d].stepRan, evOvf := t.core[d].evOvf, dozeWake := t.core[d].dozeWake,
    u := t.core[d].u, ucnt := t.core[d].ucnt, uFree := t.core[d].uFree }) ∧
  ((s.src (64 + c.val)).en = true → (t.src (64 + c.val)).pend = true ∧
    (t.src (64 + c.val)).payload = BitVec.ofNat 32 (x.val + 256 * code.toNat + if imprec then 0x20000 else 0)) ∧
  (∀ n, n ≠ 64 + c.val → t.src n = s.src n) ∧
  t = { s with core := t.core, counters := { s.counters with cnt := t.counters.cnt }, ev := { s.ev with src := t.ev.src },
               fabric := { s.fabric with queue := t.fabric.queue, shown := t.fabric.shown, out := t.fabric.out } }

/-- Command `i`, whose first bytes are `e`, takes the precise fault `code` whenever it may issue. -/
def Faults (s : State) (c : CoreId) (x : CtxId) (i : Instr) (e : Enc) (code : Byte) (faddr : Word) : Prop :=
  Ready s c x e → ∃ t, exec i s = .next t ∧ TookFault s t c x code faddr false


/-! ## Registers -/

/-- Agent `w` may write register `r` now: it can make an access (R12, R429), and its rights admit the write (R34, R63, R155). -/
abbrev MayWrite (s : State) (w : Agent) (r : Reg) : Prop :=
  s.napAccess w r = false ∧ s.canAccess w r = true ∧ s.mayWrite w r = .ok

/-- Agent `w` may read register `r` now. -/
abbrev MayRead (s : State) (w : Agent) (r : Reg) : Prop :=
  s.napAccess w r = false ∧ s.canAccess w r = true ∧ s.mayRead w r = true

/-- The ring's agent has nothing to do: no command, resynchronisation or DACC operation waits or runs (R371, R372, R464). -/
abbrev AgentIdle (s : State) : Prop :=
  s.ring.busy = none ∧ s.ring.cmds = [] ∧ s.ring.resync = none ∧ s.dict.daccBusy = none ∧ s.dict.daccWait = none

/-- Event source `n` was raised with payload `p`, if it is enabled (R325, R326); no other source has changed, and of the cores only
what a raise marks in the source's core. -/
def Raised (s t : State) (n : Nat) (p : Word) : Prop :=
  ((s.src n).en = true → (t.src n).pend = true ∧ (t.src n).payload = p) ∧ (∀ m, m ≠ n → t.src m = s.src m) ∧
  (∀ d : CoreId, t.core[d] = { s.core[d] with evOvf := t.core[d].evOvf, dozeWake := t.core[d].dozeWake }) ∧
  t = { s with core := t.core, ev := { s.ev with src := t.ev.src }, counters := { s.counters with cnt := t.counters.cnt },
               power := { s.power with napWake := t.power.napWake } }

/-- Only event sources in `l` differ, with what a raise marks in the cores and counters. -/
def SourcesOnly (s t : State) (l : List Nat) : Prop :=
  (∀ m, m ∉ l → t.src m = s.src m) ∧
  (∀ d : CoreId, t.core[d] = { s.core[d] with evOvf := t.core[d].evOvf, dozeWake := t.core[d].dozeWake }) ∧
  t = { s with core := t.core, ev := { s.ev with src := t.ev.src }, counters := { s.counters with cnt := t.counters.cnt },
               power := { s.power with napWake := t.power.napWake } }

/-- `t` is `s` but for the log and the NVM writer, and the sources in `l`. -/
def LoggedOnly (s t : State) (l : List Nat) : Prop := SourcesOnly { s with night := t.night } t l

/-- The node takes the sequenced command `h`, with `n` bytes of payload, as the next one of its sender and runs it at once: nothing else
waits or runs (R362, R366, R371). -/
abbrev Taken (s : State) (h : RingHdr) (n : Nat) : Prop :=
  s.forMe h = true ∧ s.agentOn = true ∧ AgentIdle s ∧ h.node ≠ 0x7F ∧ h.seq = s.ring.expSeq ∧ h.flags = 0 ∧ h.len = n ∧
  n ≤ limitD s.ring.port[h.port].genUse

/-- The command ran with `st` and `payload` (R362, R371): its response is the newest of the history, and waits at the port it leaves on. -/
def Answered (s t : State) (code : Byte) (h : RingHdr) (st : Byte) (payload : List Byte) : Prop :=
  let r : Resp := { port := h.port, cmd := code, seq := h.seq, index := h.index, sub := h.sub, status := st, credit := 8,
                    flags := s.respFlags, payload := payload, bcast := false }
  AgentIdle t ∧ t.ring.expSeq = s.ring.expSeq + 1 ∧ t.ring.history = (s.ring.history ++ [r]).drop (s.ring.history.length - 7) ∧
  (∀ o, t.ring.outFor (partner h.port) = some o → t.ring.port[o] = { s.ring.port[o] with txq := s.ring.port[o].txq ++ [.resp r] }) ∧
  (∀ q, t.ring.outFor (partner h.port) ≠ some q → t.ring.port[q] = s.ring.port[q]) ∧
  t.ring = { s.ring with expSeq := t.ring.expSeq, cmds := [], busy := none, begun := false, history := t.ring.history,
                         port := t.ring.port, hmsg := t.ring.hmsg, hlen := t.ring.hlen, hfull := t.ring.hfull }

/-- `t` is `s` but for the ring, and the event counters. -/
def RingOnly (s t : State) : Prop := t = { s with ring := t.ring, counters := { s.counters with cnt := t.counters.cnt } }

/-- `t` is `u` but for the level of the Ephemeris-low source, which follows FREE (R208), and the counters. -/
def UptoEvents (u t : State) : Prop :=
  (∀ n, n ≠ 176 → t.src n = u.src n) ∧
  (∀ d : CoreId, t.core[d] = { u.core[d] with evOvf := t.core[d].evOvf, dozeWake := t.core[d].dozeWake, evSpur := t.core[d].evSpur,
                                              spurCnt := t.core[d].spurCnt }) ∧
  t = { u with core := t.core, ev := { u.ev with src := t.ev.src }, counters := { u.counters with cnt := t.counters.cnt },
               power := { u.power with napWake := t.power.napWake } }

/-- Only context `x` of core `c`, and who has or seeks the decode register of its core, differ. -/
def OnlyCtx (s t : State) (c : CoreId) (x : CtxId) : Prop :=
  (∀ d, d ≠ c → t.core[d] = s.core[d]) ∧ (∀ y, y ≠ x → t.ctx c y = s.ctx c y) ∧
  t.core[c] = { s.core[c] with ctx := t.core[c].ctx, holder := t.core[c].holder, search := t.core[c].search,
                               qcount := t.core[c].qcount, qload := t.core[c].qload } ∧
  t = { s with core := t.core, counters := { s.counters with cnt := t.counters.cnt } }

/-! ## Memory -/

/-- The `n` bytes at address `a` lie in the scratchpad at plain address `w` (R262, R276), and context `x` may reach them now: the address is
aligned (R79), a counted thread stays in its own local scratchpad (R148), the secure region asks for privilege 0b11 (R277), the bank
is zeroed, awake and under no destroying run (R280 to R283), no wipe has the word (R278), and no march slice has borrowed it (R285). -/
abbrev SpadFree (s : State) (c : CoreId) (x : CtxId) (a : Word) (n w : Nat) (via : Via) (own : Bool) : Prop :=
  target (some c) a = .spad w via own ∧ a.toNat % n = 0 ∧ ((s.ctx c x).cntd = true → own = true) ∧
  (isSecure w = true → (s.ctx c x).priv = 3) ∧ s.destroyed (w / 4 * 4) = false ∧ s.wordShut (w / 4 * 4) = false ∧
  s.borrowed (w / 4 * 4) = none

/-- The state once the port of word `w` has granted core `c`: its own local banks it reaches through port A, which arbitrates nothing
(R266, R267); elsewhere the pointer of the port's round-robin moves on (R268), and a late grant is counted (R275). -/
def State.reached (s : State) (c : CoreId) (w : Nat) : State := if portA c w then s else s.granted (coreMaster c) w

/-- The value of the `n` bytes at plain address `w`, lowest first, zero-extended (R7, R96). -/
def valueAt (s : State) (w n : Nat) : Word := ofBytes 32 ((List.range n).map fun i => s.spad.byte (w + i))

/-- The words that a context's block move reads and writes: word `k` of row `r` at plain addresses `f r k`. -/
abbrev RowsFree (s : State) (c : CoreId) (x : CtxId) (a : Word) (stride h n : Nat) (f : Nat → Nat → Nat) (via : Via) : Prop :=
  ∀ r < h, ∀ k < n, ∃ own, SpadFree s c x (a + BitVec.ofNat 32 (r * stride + 4 * k)) 4 (f r k) via own

/-- What a store of byte `v` leaves where `old` stood: the byte, or through an alias its bits set or cleared (R276). -/
def viaByte (via : Via) (old v : Byte) : Byte :=
  match via with
  | .plain => v
  | .set => old ||| v
  | .clear => old &&& ~~~v

/-- A store of `n` bytes of `v` at plain address `w` through `via`: those bytes take it, and every other byte is as before. -/
def Stored (s t : State) (w n : Nat) (via : Via) (v : Word) : Prop :=
  (∀ i < n, t.spad.byte (w + i) = viaByte via (s.spad.byte (w + i)) (bits v (8 * i) 8)) ∧
  ∀ a, (a < w ∨ w + n ≤ a) → t.spad.byte a = s.spad.byte a

/-- What a store to the scratchpad leaves: of other contexts all but a reservation on its granule (R103) and, in its own core, bytes of
code that the fetch buffers held of what was written (R144). Of the scratchpads the stored bytes, their check bits, and the ports' state
and counts change (R264, R268, R275). -/
def StoreKept (s t : State) (c : CoreId) (x : CtxId) : Prop :=
  (∀ d y, (d ≠ c ∨ y ≠ x) → t.ctx d y =
    { s.ctx d y with rsv := (t.ctx d y).rsv, fbuf := (t.ctx d y).fbuf, btbAt := (t.ctx d y).btbAt, ahead := (t.ctx d y).ahead }) ∧
  (∀ d, d ≠ c → t.core[d] = { s.core[d] with ctx := t.core[d].ctx, fvecOk := t.core[d].fvecOk }) ∧
  (∀ d, d ≠ c → ∀ y, t.ctx d y = { s.ctx d y with rsv := (t.ctx d y).rsv }) ∧
  t.core[c] = { s.core[c] with
    ctx := t.core[c].ctx, fvecOk := t.core[c].fvecOk, last := some x, qcount := t.core[c].qcount, btb := t.core[c].btb,
    stepRan := s.core[c].stepping, u := t.core[c].u, ucnt := t.core[c].ucnt, uFree := t.core[c].uFree } ∧
  t = { s with core := t.core, counters := { s.counters with cnt := t.counters.cnt }, freeCtr := t.freeCtr, spad := { s.spad with
    mem := t.spad.mem, bad := t.spad.bad, corr := t.spad.corr, wback := t.spad.wback, sound := t.spad.sound, ecnt := t.spad.ecnt,
    conf := t.spad.conf, coll := t.spad.coll, rr := t.spad.rr, wrote := t.spad.wrote } }

/-- `CtxKept` for an instruction that stores. -/
def StorerKept (s t : State) (c : CoreId) (x : CtxId) : Prop :=
  let v := t.ctx c x
  v = { s.ctx c x with pc := v.pc, dstk := v.dstk, wtag := v.wtag, fbuf := v.fbuf, rsv := v.rsv, waitFor := none, served := none,
                       redo := false, routine := v.routine, held := v.held, slot := v.slot, moved := v.moved, seen := 0, image := none,
                       btbAt := v.btbAt, ahead := v.ahead } ∧
  RoutineKept (s.ctx c x) v

/-- What an instruction that runs spill or fill routine `k` (data spill, data fill, return spill, return fill) leaves of its context: all
but its stacks with their offsets, THR_PC, the code it had fetched, and what belongs to the instruction in progress (R46, R48). -/
def SpillKept (s t : State) (c : CoreId) (x : CtxId) (k : Fin 4) : Prop :=
  let v := t.ctx c x
  v = { s.ctx c x with pc := v.pc, dstk := v.dstk, wtag := v.wtag, frame := v.frame, rstk := v.rstk, rtag := v.rtag, rtop := v.rtop,
                       doff := v.doff, roff := v.roff, fbuf := v.fbuf, btbAt := v.btbAt, ahead := v.ahead, waitFor := none,
                       served := none, redo := false, routine := v.routine, held := v.held, slot := v.slot, moved := v.moved, seen := 0,
                       image := none, spillKind := k } ∧
  RoutineKept (s.ctx c x) v

/-- A storing instruction is done, at `to_`, with its cells replaced. -/
def Storer (s t : State) (c : CoreId) (x : CtxId) (to_ : Word) (pops : Nat) (vs : List Word) : Prop :=
  (t.ctx c x).pc = to_ ∧ StackDone s t c x pops vs ∧ StorerKept s t c x ∧ StoreKept s t c x

/-- Command `i`, whose first bytes are `e`, completes whenever it may issue, storing the low `n` bytes of `v` at plain address `w`: the top
`pops` cells give way to `vs`, and THR_PC is the address after it. A store of less than a word, or through an alias, reads the word too;
where that word is not correctable, the read marks it and raises its source (R264, R265): the frame is then that of the state so marked. -/
def Stores (s : State) (c : CoreId) (x : CtxId) (i : Instr) (e : Enc) (pops : Nat) (vs : List Word) (w n : Nat) (via : Via) (v : Word) :
    Prop :=
  Ready s c x e → ∃ t, exec i s = .next t ∧
    Storer (if n = 4 ∧ via = .plain then s else s.mergeRead (w / 4 * 4)) t c x (after s c x e.len) pops vs ∧ Stored s t w n via v

end Sys2Proof.Machine
end

