-- ==== Sys2Proof/WellFormed.lean ====
section
/-! DEFINITION. Which terms of Instr are commands of the spec: operand values that no encoding and no access can carry are refused. -/

namespace Sys2Proof

open Sys2Proof.Machine

/-- A word address of the block control region (R12). -/
def ctlWord (a : Word) : Bool := bits a 0 2 == (0 : BitVec 2) && decide (0x30000000 ≤ a.toNat) && decide (a.toNat < 0x3F000000)

/-- A well-formed command. -/
def Instr.wellFormed (i : Instr) : Bool :=
  match i with
  | .bz8 _ _ wide o => wide || bits o 8 8 == (0 : Byte)
  | .bnz8 _ _ wide o => wide || bits o 8 8 == (0 : Byte)
  | .f16Instruction _ _ _ opnd len _ => len.val == 3 || (len.val == 2 && bits opnd 8 8 == (0 : Byte)) || (len.val == 1 && opnd == 0)
  | .ucodeRamRewrite _ a => decide (0xC00 ≤ a.toNat)
  | .fetchInvalidate _ _ n => decide (1 ≤ n)
  | .thrCtlStart _ _ _ v => bits v 0 4 == (1 : BitVec 4)
  | .thrCtlStop _ _ _ v => bits v 0 4 == (2 : BitVec 4)
  | .thrCtlResume _ _ _ v => bits v 0 4 == (4 : BitVec 4)
  | .thrCtlReset _ _ _ v => bits v 0 4 == (8 : BitVec 4)
  | .thrCtlCntd _ _ _ v => bits v 0 4 == (0 : BitVec 4)
  | .pipeCtlBtbInv _ _ v => v.getLsbD 2
  | .rcFieldRead _ a => ctlWord a
  | .registerWrite _ a _ => ctlWord a
  | .nmsgSend _ v => v.getLsbD 8
  | .marchStart _ v => bits v 0 2 == (1 : BitVec 2)
  | .marchStop _ v => bits v 0 2 == (2 : BitVec 2)
  | .marchElementEnd got => got.all fun r => r.1 % 4 == 0
  | .dbgCoreStep _ _ v => v.getLsbD 1 && !v.getLsbD 0
  | .dbgMctlGo _ v => v.getLsbD 10
  | .cntGctlClr _ v => v.getLsbD 1
  | .unassignedOpcode _ _ ext b => if ext then !extAssigned b else !opAssigned b && b != 0xFE && b != 0xFF
  | .litN _ _ _ | .litM1 _ _ | .lit8 _ _ _ | .lit16 _ _ _ | .lit32 _ _ _ | .lit16U _ _ _ | .dup _ _ | .drop _ _
  | .swap _ _ | .over _ _ | .rot _ _ | .nip _ _ | .tuck _ _ | .twoDup _ _ | .twoDrop _ _ | .twoSwap _ _
  | .pickN _ _ _ | .depth _ _ | .pokeN _ _ _ | .toR _ _ | .rFrom _ _ | .rFetch _ _ | .rdrop _ _ | .enter _ _
  | .leave _ _ | .add _ _ | .sub _ _ | .neg _ _ | .abs _ _ | .and _ _ | .or _ _ | .xor _ _ | .not _ _ | .shl _ _
  | .shr _ _ | .sar _ _ | .rol _ _ | .ror _ _ | .inc _ _ | .dec _ _ | .addsb _ _ | .subsb _ _ | .mul _ _ | .min _ _
  | .max _ _ | .minu _ _ | .maxu _ _ | .extb _ _ | .clz _ _ | .eq _ _ | .ne _ _ | .lt _ _ | .gt _ _ | .ltu _ _
  | .gtu _ _ | .zeq _ _ | .zlt _ _ | .sel _ _ | .addi8 _ _ _ | .shli _ _ _ | .shri _ _ _ | .sari _ _ _ | .div _ _
  | .mod _ _ | .divu _ _ | .modu _ _ | .sqrt _ _ | .mulw _ _ | .mulwu _ _ | .ldf _ _ | .longOpRetire _ _ _
  | .impreciseFault _ _ | .ld _ _ | .ldh _ _ | .ldhs _ _ | .ldb _ _ | .ldbs _ _ | .st _ _ | .sth _ _ | .stb _ _
  | .ldp _ _ | .stp _ _ | .ldo _ _ _ | .sto _ _ _ | .ldl8 _ _ _ | .stl8 _ _ _ | .ldl16 _ _ _ | .stl16 _ _ _
  | .ldgN _ _ _ | .stgN _ _ _ | .claim _ _ | .commit _ _ _ | .fence _ _ | .drain _ _ | .pinr _ _ | .pinw _ _
  | .pinrw _ _ | .pinwm _ _ | .stim _ _ _ | .transit _ _ | .twait _ _ | .beam _ _ | .frame _ _ | .br8 _ _ _
  | .br16 _ _ _ | .bzfN _ _ _ | .call16 _ _ _ | .call32 _ _ _ | .callvN _ _ _ | .calli _ _ | .jmpi _ _ | .ret _ _
  | .rloop8 _ _ _ | .nop _ _ | .sys _ _ _ | .rets _ _ | .reti _ _ | .sleep _ _ | .yield _ _ | .bkpt _ _ | .vtime _ _
  | .coreid _ _ | .move _ _ _ | .fill _ _ _ | .blit _ _ _ | .blitk _ _ _ | .userInstruction _ _ _ _ _ | .waitEnd _ _
  | .quantumExpiry _ | .fetchRefill _ _ _ | .parkAtBoundary _ _ | .cntdTakeEffect _ _ | .thrStatPrivWrite _ _ _ _
  | .spillAreaWrite _ _ _ _ _ | .windatRead _ _ | .windatWrite _ _ _ | .ucLdctlHold _ _ | .coreHeld _
  | .ucLdctlRelease _ | .ucLdctlLock _ | .ucCmdWrite _ | .ucCmdRead _ | .transitAccept _ | .lateInsertMerge _
  | .beamPositionSample _ _ _ _ _ _ | .walkEnd _ | .sortEnd _ | .soundPositionSample _ _ _ _ _ _ _ | .flushKey _
  | .flushTb _ | .readEntry _ | .readQueue _ | .resetEph _ | .trnCmdDone | .tbnCfgWrite _ _ _ | .queueStateClearDone
  | .bpnCtlWrite _ _ _ | .sync _ _ _ _ _ | .meridianMissExpiry _ | .meridianHoldoverExpiry _ | .linkUp _ _
  | .linkDown _ | .dlyReq _ _ _ | .dlyRsp _ _ _ _ | .frameForward _ _ _ | .frameError _ _ | .ownFrameSend _
  | .read _ _ | .write _ _ | .dread _ _ | .dwrite _ _ | .ping _ _ | .resync _ _ | .assign _ _ | .msg _ _
  | .ringTclkLoss | .ringTclkPresent | .fastClockAbsent | .nmsgSent | .hmsgEmpty _ | .rppCtlWrite _ _ _ | .save
  | .restore | .start _ | .injWhen _ | .intCode _ | .intUnlock _ | .intLock | .flashCtlw _ | .ucCtlBegin
  | .ucCtlCommit | .ucCtlAbandon | .dacc _ _ _ _ | .pornAonAssert | .pornAonRelease | .mainOkFall | .rstnMainFall
  | .mainResetRelease | .pllLock | .cacheInvalidateDone _ | .controlStoreCheckDone _ _ | .mainWarnRise | .dbgRstn
  | .trstn | .pwrReqNap _ | .napEntry | .napExit | .bankWake | .pwrReqVesperOnly _ | .vesperOnlyEntry
  | .pwrReqCancel _ | .dozeEntry _ | .dozeExit _ | .clkPllaWrite _ _ | .pllaRelock | .clkCdivWrite _ _ _
  | .clkSdivWrite _ _ | .coreSoftReset _ _ | .vtLoWrite _ _ | .vtLoRead _ | .vesperAlarm | .spadEccWriteback _
  | .wipeStart | .wipeDone | .zeroingDone | .marchSliceEnd | .marchRunEnd | .lineFillArrival _ _ | .lcAgeTick _
  | .lcPinWrite _ _ _ | .lcPinld _ _ _ | .pinldDone _ | .lcCtlWrite _ _ _ | .fabWinWrite _ _ | .storeBufferSend _
  | .fabricWriteResponse _ _ | .fabricReadResponse _ _ _ | .snoop _ _ | .flashPortIssue | .flashRequestGrant
  | .flashReadBeat _ _ _ _ | .flashWriteAck _ _ | .flCtlWrite _ _ | .fabricSlaveRequest _ _ _ _ _ _
  | .sourceRaise _ _ | .fastEntry _ | .eventRecordWrite | .normalEntry _ | .holdoffExpiry _ | .timerExpiry _
  | .evSwset _ _ | .evSrcWrite _ _ _ | .evqBaseWrite _ _ _ | .evqRdWrite _ _ _ | .evqWrRead _ _ | .fvecReload _ _
  | .pinInputChange _ _ | .gpioFilterExpiry _ | .evtInChange _ _ | .pinWriteApply | .gpMuxWrite _ _ _
  | .gpFiltWrite _ _ _ | .gpOwnWrite _ _ _ _ | .dbgUnreq _ _ | .dbgRespLo _ _ | .unlockCheckDone | .dbgLock _
  | .dbgCoreHalt _ _ | .haltArrival _ | .stepDone _ | .xtmFire _ _ | .dbgRel _ _ | .dbgVdataAccess _ _
  | .tracePortPacket | .traceBufferWrite | .trcCtlWrite _ _ | .cntOverflow _ | .cntnLoWrite _ _ _
  | .watchdogWarning _ | .watchdogBite _ | .wdtKick _ _ _ | .nvmRowWriteEnd _ | .nlCtlClear _ | .nlSwreq _
  | .lcReq _ _ | .tamperEvent | .tmpForce _ | .mainWarnFall | .fastClockPresent | .vdbgLoss | .vdbgReturn
  | .fabricRequestAccept | .errorWindowEnd _ | .traceBudgetWindow => true

end Sys2Proof
end

