-- ==== Sys2Proof/Certificates/Slice0/Obligations.lean ====
section
/-! DEFINITION. The statements about the model. Each completion statement says, for commands of one shape, that exec answers a next
state, what that state holds, and what it leaves unchanged. -/

open Sys2Proof Sys2Proof.Machine

/-! ## Literals, stacks, arithmetic (R92, R93, R94) -/

/-- R92: a literal pushes its value. -/
def Obligations.LiteralsPush : Prop :=
  ∀ (s : State) (c : CoreId) (x : CtxId), Cells s c x 0 → (s.ctx c x).depth ≤ 7 →
    (∀ n : Fin 32, Does s c x (.litN c x n) { op := BitVec.ofNat 8 n.val } 0 [BitVec.ofNat 32 n.val]) ∧
    Does s c x (.litM1 c x) { op := 0x20 } 0 [0xFFFFFFFF] ∧
    (∀ b : Byte, Does s c x (.lit8 c x b) { op := 0x21, opnd := b.setWidth 32, width := 1 } 0 [b.signExtend 32]) ∧
    (∀ h : BitVec 16, Does s c x (.lit16 c x h) { op := 0x22, opnd := h.setWidth 32, width := 2 } 0 [h.signExtend 32]) ∧
    (∀ w : Word, Does s c x (.lit32 c x w) { op := 0x23, opnd := w, width := 4 } 0 [w]) ∧
    (∀ h : BitVec 16, Does s c x (.lit16U c x h) { op := 0x24, opnd := h.setWidth 32, width := 2 } 0 [h.setWidth 32])

/-- R92: the stack instructions: those that leave at most as many cells as they find, and those that push copies. -/
def Obligations.StackInstructionsMove : Prop :=
  (∀ (s : State) (c : CoreId) (x : CtxId),
     let f := (s.ctx c x).cell
     (Cells s c x 1 → Does s c x (.drop c x) { op := 0x29 } 1 []) ∧
     (Cells s c x 2 → Does s c x (.swap c x) { op := 0x2A } 2 [f 0, f 1]) ∧
     (Cells s c x 3 → Does s c x (.rot c x) { op := 0x2C } 3 [f 1, f 0, f 2]) ∧
     (Cells s c x 2 → Does s c x (.nip c x) { op := 0x2D } 2 [f 0]) ∧
     (Cells s c x 2 → Does s c x (.twoDrop c x) { op := 0x30 } 2 []) ∧
     (Cells s c x 4 → Does s c x (.twoSwap c x) { op := 0x31 } 4 [f 1, f 0, f 3, f 2]) ∧
     (Cells s c x 3 → Does s c x (.pokeN c x 0) { op := 0x39 } 3 [f 0, f 1]) ∧
     ∀ n : Fin 6, Cells s c x (n.val + 3) →
       Does s c x (.pokeN c x n) { op := BitVec.ofNat 8 (0x39 + n.val) } (n.val + 3)
         (f 0 :: (List.range (n.val + 1)).map fun i => f (n.val + 1 - i))) ∧
  (∀ (s : State) (c : CoreId) (x : CtxId),
     let f := (s.ctx c x).cell
     let d := (s.ctx c x).depth
     (Cells s c x 1 → d ≤ 7 → Does s c x (.dup c x) { op := 0x28 } 0 [f 0]) ∧
     (Cells s c x 2 → d ≤ 7 → Does s c x (.over c x) { op := 0x2B } 0 [f 1]) ∧
     (Cells s c x 2 → d ≤ 7 → Does s c x (.tuck c x) { op := 0x2E } 2 [f 0, f 1, f 0]) ∧
     (Cells s c x 2 → d ≤ 6 → Does s c x (.twoDup c x) { op := 0x2F } 0 [f 1, f 0]) ∧
     (∀ n : Fin 5, Cells s c x (n.val + 3) → d ≤ 7 →
       Does s c x (.pickN c x n) { op := BitVec.ofNat 8 (0x32 + n.val) } 0 [f (n.val + 2)]) ∧
     (Cells s c x 0 → d ≤ 7 → Does s c x (.depth c x) { op := 0x38 } 0 [BitVec.ofNat 32 d]))

/-- R94: the instructions that compute one cell from one, two or three. -/
def Obligations.ArithmeticResults : Prop :=
  (∀ (s : State) (c : CoreId) (x : CtxId), Cells s c x 1 →
     let a := (s.ctx c x).cell 0
     Does s c x (.neg c x) { op := 0x4A } 1 [-a] ∧
     Does s c x (.abs c x) { op := 0x4B } 1 [if a.toInt < 0 then -a else a] ∧
     Does s c x (.not c x) { op := 0x4F } 1 [~~~a] ∧
     Does s c x (.inc c x) { op := 0x55 } 1 [a + 1] ∧
     Does s c x (.dec c x) { op := 0x56 } 1 [a - 1] ∧
     Does s c x (.clz c x) { op := 0x5F } 1 [a.clz] ∧
     Does s c x (.zeq c x) { op := 0x66 } 1 [if a = 0 then 0xFFFFFFFF else 0] ∧
     Does s c x (.zlt c x) { op := 0x67 } 1 [if a.toInt < 0 then 0xFFFFFFFF else 0] ∧
     (∀ b : Byte, Does s c x (.addi8 c x b) { op := 0x69, opnd := b.setWidth 32, width := 1 } 1 [a + b.signExtend 32]) ∧
     (∀ b : Byte, Does s c x (.shli c x b) { op := 0x6A, opnd := b.setWidth 32, width := 1 } 1 [a <<< (b.toNat % 32)]) ∧
     (∀ b : Byte, Does s c x (.shri c x b) { op := 0x6B, opnd := b.setWidth 32, width := 1 } 1 [a >>> (b.toNat % 32)]) ∧
     (∀ b : Byte, Does s c x (.sari c x b) { op := 0x6C, opnd := b.setWidth 32, width := 1 } 1 [a.sshiftRight (b.toNat % 32)])) ∧
  (∀ (s : State) (c : CoreId) (x : CtxId), Cells s c x 2 →
     let a := (s.ctx c x).cell 1
     let b := (s.ctx c x).cell 0
     let yes (p : Prop) [Decidable p] : Word := if p then 0xFFFFFFFF else 0
     Does s c x (.add c x) { op := 0x48 } 2 [a + b] ∧
     Does s c x (.sub c x) { op := 0x49 } 2 [a - b] ∧
     Does s c x (.and c x) { op := 0x4C } 2 [a &&& b] ∧
     Does s c x (.or c x) { op := 0x4D } 2 [a ||| b] ∧
     Does s c x (.xor c x) { op := 0x4E } 2 [a ^^^ b] ∧
     Does s c x (.shl c x) { op := 0x50 } 2 [a <<< (b.toNat % 32)] ∧
     Does s c x (.shr c x) { op := 0x51 } 2 [a >>> (b.toNat % 32)] ∧
     Does s c x (.sar c x) { op := 0x52 } 2 [a.sshiftRight (b.toNat % 32)] ∧
     Does s c x (.rol c x) { op := 0x53 } 2 [a.rotateLeft (b.toNat % 32)] ∧
     Does s c x (.ror c x) { op := 0x54 } 2 [a.rotateRight (b.toNat % 32)] ∧
     Does s c x (.mul c x) { op := 0x59 } 2 [BitVec.ofNat 32 (a.toNat * b.toNat)] ∧
     Does s c x (.min c x) { op := 0x5A } 2 [if a.toInt < b.toInt then a else b] ∧
     Does s c x (.max c x) { op := 0x5B } 2 [if a.toInt < b.toInt then b else a] ∧
     Does s c x (.minu c x) { op := 0x5C } 2 [if a.toNat < b.toNat then a else b] ∧
     Does s c x (.maxu c x) { op := 0x5D } 2 [if a.toNat < b.toNat then b else a] ∧
     Does s c x (.eq c x) { op := 0x60 } 2 [yes (a = b)] ∧
     Does s c x (.ne c x) { op := 0x61 } 2 [yes (a ≠ b)] ∧
     Does s c x (.lt c x) { op := 0x62 } 2 [yes (a.toInt < b.toInt)] ∧
     Does s c x (.gt c x) { op := 0x63 } 2 [yes (b.toInt < a.toInt)] ∧
     Does s c x (.ltu c x) { op := 0x64 } 2 [yes (a.toNat < b.toNat)] ∧
     Does s c x (.gtu c x) { op := 0x65 } 2 [yes (b.toNat < a.toNat)]) ∧
  (∀ (s : State) (c : CoreId) (x : CtxId), Cells s c x 2 →
     let a := (s.ctx c x).cell 1
     let b := (s.ctx c x).cell 0
     let byte (w : Word) (k : Nat) : Nat := w.toNat / 256 ^ k % 256
     (∃ r : Word, (∀ k < 4, byte r k = min 255 (byte a k + byte b k)) ∧ Does s c x (.addsb c x) { op := 0x57 } 2 [r]) ∧
     (∃ r : Word, (∀ k < 4, byte r k = byte a k - byte b k) ∧ Does s c x (.subsb c x) { op := 0x58 } 2 [r]) ∧
     Does s c x (.extb c x) { op := 0x5E } 2 [BitVec.ofNat 32 (byte a (b.toNat % 4))] ∧
     (Cells s c x 3 → Does s c x (.sel c x) { op := 0x68 } 3 [if b = 0 then a else (s.ctx c x).cell 2]))

/-! ## Return stack and control transfer (R43, R93, R97) -/

/-- R93: the return-stack instructions, while nothing is spilled or filled. R43, R46, R48: a push into a full cache spills the older group,
changed since its fill, below the return offset; a pop from an empty cache fills a group from there. -/
def Obligations.ReturnStackMoves : Prop :=
  (∀ (s : State) (c : CoreId) (x : CtxId) (l : List Word) (v : Word),
    (Cells s c x 1 → Returns s c x l → RoomFor s c x 1 →
      GoesR s c x (.toR c x) { op := 0x40 } (after s c x 1) 1 [] (l ++ [(s.ctx c x).cell 0])) ∧
    (Cells s c x 0 → (s.ctx c x).depth ≤ 7 → Returns s c x (l ++ [v]) →
      GoesR s c x (.rFrom c x) { op := 0x41 } (after s c x 1) 0 [v] l ∧
      GoesR s c x (.rFetch c x) { op := 0x42 } (after s c x 1) 0 [v] (l ++ [v])) ∧
    (Returns s c x (l ++ [v]) → GoesR s c x (.rdrop c x) { op := 0x43 } (after s c x 1) 0 [] l)) ∧
  (∀ (s : State) (c : CoreId) (x : CtxId) (w : Nat) (own : Bool),
     let u := s.ctx c x
     let o := rOther u.rtop
     x ≠ fCtx → Cells s c x 1 → u.rtag[u.rtop].count = 8 → u.rtag[o].live = true → u.rtag[o].dirty = true →
     u.doff.toNat + 32 ≤ u.roff.toNat →
     (∀ i < 8, SpadFree s c x (u.spillp + (u.roff - 32).setWidth 32 + BitVec.ofNat 32 (4 * i)) 4 (w + 4 * i) .plain own) →
     Ready s c x { op := 0x40 } → AsStored s c (spillStart 2) →
     ∃ t, exec (.toR c x) s = .next t ∧ StackDone s t c x 1 [] ∧ SpillKept s t c x 2 ∧ StoreKept s t c x ∧
       (t.ctx c x).pc = after s c x 1 ∧ (t.ctx c x).roff = u.roff - 32 ∧ (t.ctx c x).doff = u.doff ∧
       (t.ctx c x).rtop = o ∧ (t.ctx c x).group o = [u.cell 0] ∧ (t.ctx c x).group u.rtop = u.group u.rtop ∧
       (∀ i < 8, valueAt t (w + 4 * i) 4 = u.rstk[rEntry o i]) ∧
       ∀ b, (b < w ∨ w + 32 ≤ b) → t.spad.byte b = s.spad.byte b) ∧
  (∀ (s : State) (c : CoreId) (x : CtxId) (w : Nat) (own : Bool),
     let u := s.ctx c x
     let word (i : Nat) : Word := valueAt s (w + 4 * i) 4
     x ≠ fCtx → Cells s c x 0 → u.depth ≤ 7 → u.rtag[u.rtop].count = 0 → (u.rtag[rOther u.rtop].live = false ∨ u.rtag[rOther u.rtop].count = 0) →
     u.roff.toNat < u.spillsz.toNat →
     (∀ i < 8, SpadFree s c x (u.spillp + u.roff.setWidth 32 + BitVec.ofNat 32 (4 * i)) 4 (w + 4 * i) .plain own ∧
       s.spad.check (w + 4 * i) = 0) →
     Ready s c x { op := 0x41 } → AsStored s c (spillStart 3) →
     ∃ t, exec (.rFrom c x) s = .next t ∧ StackDone s t c x 0 [word 7] ∧ SpillKept s t c x 3 ∧ StoreKept s t c x ∧
       (t.ctx c x).pc = after s c x 1 ∧ (t.ctx c x).roff = u.roff + 32 ∧ (t.ctx c x).doff = u.doff ∧
       (t.ctx c x).rtop = u.rtop ∧ (t.ctx c x).returns = (List.range 7).map word ∧ (∀ b, t.spad.byte b = s.spad.byte b))

/-- R73, R97: branches that do not use the return stack. An offset counts from the address after the branch. -/
def Obligations.BranchesGo : Prop :=
  ∀ (s : State) (c : CoreId) (x : CtxId),
    let v := (s.ctx c x).cell 0
    (∀ o : Byte, Goes s c x (.br8 c x o) { op := 0x90, opnd := o.setWidth 32, width := 1 } (after s c x 2 + o.signExtend 32) 0 []) ∧
    (∀ o : BitVec 16, Goes s c x (.br16 c x o) { op := 0x91, opnd := o.setWidth 32, width := 2 } (after s c x 3 + o.signExtend 32) 0 []) ∧
    Goes s c x (.nop c x) { op := 0x9F } (after s c x 1) 0 [] ∧
    (Cells s c x 1 →
      (∀ o : Byte,
        Goes s c x (.bz8 c x false (o.setWidth 16)) { op := 0x92, opnd := o.setWidth 32, width := 1 }
          (if v = 0 then after s c x 2 + o.signExtend 32 else after s c x 2) 1 [] ∧
        Goes s c x (.bnz8 c x false (o.setWidth 16)) { op := 0x94, opnd := o.setWidth 32, width := 1 }
          (if v = 0 then after s c x 2 else after s c x 2 + o.signExtend 32) 1 []) ∧
      (∀ o : BitVec 16,
        Goes s c x (.bz8 c x true o) { op := 0x93, opnd := o.setWidth 32, width := 2 }
          (if v = 0 then after s c x 3 + o.signExtend 32 else after s c x 3) 1 [] ∧
        Goes s c x (.bnz8 c x true o) { op := 0x95, opnd := o.setWidth 32, width := 2 }
          (if v = 0 then after s c x 3 else after s c x 3 + o.signExtend 32) 1 []) ∧
      (∀ n : Fin 16, Goes s c x (.bzfN c x n) { op := BitVec.ofNat 8 (0xD0 + n.val) }
          (if v = 0 then after s c x 1 + BitVec.ofNat 32 (n.val + 1) else after s c x 1) 1 []) ∧
      Goes s c x (.jmpi c x) { op := 0x99 } v 1 [])

/-- R97: calls push the address after them, RET pops it, RLOOP8 counts in the newest entry. -/
def Obligations.CallsReturnLoop : Prop :=
  ∀ (s : State) (c : CoreId) (x : CtxId) (l : List Word) (v : Word),
    (Returns s c x l → RoomFor s c x 1 →
      (∀ o : BitVec 16, GoesR s c x (.call16 c x o) { op := 0x96, opnd := o.setWidth 32, width := 2 }
        (after s c x 3 + o.signExtend 32) 0 [] (l ++ [after s c x 3])) ∧
      (∀ w : Word, GoesR s c x (.call32 c x w) { op := 0x97, opnd := w, width := 4 } w 0 [] (l ++ [after s c x 5])) ∧
      (∀ (n : Fin 16) (w : Nat) (via : Via) (own : Bool), SpadFree s c x (BitVec.ofNat 32 (0x40 + 4 * n.val)) 4 w via own → s.spad.check w = 0 →
        GoesR s c x (.callvN c x n) { op := BitVec.ofNat 8 (0xE0 + n.val) } (valueAt s w 4) 0 [] (l ++ [after s c x 1])) ∧
      (Cells s c x 1 → GoesR s c x (.calli c x) { op := 0x98 } ((s.ctx c x).cell 0) 1 [] (l ++ [after s c x 1]))) ∧
    (Returns s c x (l ++ [v]) →
      GoesR s c x (.ret c x) { op := 0x9A } v 0 [] l ∧
      ∀ o : Byte,
        (v = 1 → GoesR s c x (.rloop8 c x o) { op := 0x9E, opnd := o.setWidth 32, width := 1 } (after s c x 2) 0 [] l) ∧
        (v ≠ 1 → GoesR s c x (.rloop8 c x o) { op := 0x9E, opnd := o.setWidth 32, width := 1 }
          (after s c x 2 + o.signExtend 32) 0 [] (l ++ [v - 1])))

/-! ## Frames (R40 to R42, R46 to R48) -/

/-- R40, R41: ENTER and LEAVE while nothing is spilled or filled. R46 to R48: an ENTER whose window holds an older frame, changed since its
fill, writes that frame's record at SPILLP plus the data offset, which rises by 36; a LEAVE to a frame whose caller has been spilled
fills it from the newest record, and the offset falls by 36. -/
def Obligations.FramesMove : Prop :=
  (∀ (s : State) (c : CoreId) (x : CtxId),
     let u := s.ctx c x
     let up : Fin 8 := ⟨(u.frame + 1) % 8, by omega⟩
     let down : Fin 8 := ⟨(u.frame + 7) % 8, by omega⟩
     let kept (t : State) : Prop := ReturnsKept s t c x ∧ CtxKept s t c x ∧ CoreKept s t c x ∧ RestKept s t
     (Cells s c x 2 → u.wtag[up].live = false → (∀ i < 2, u.dpend[entryOf up i] = false) → (x = fCtx → u.frame = 0) →
       Ready s c x { op := 0x44 } →
       ∃ t, exec (.enter c x) s = .next t ∧ kept t ∧
         let v := t.ctx c x
         v.pc = after s c x 1 ∧ v.frame = u.frame + 1 ∧ v.depth = 2 ∧ v.cell 0 = u.cell 0 ∧ v.cell 1 = u.cell 1 ∧
         v.wtag[u.win].depth.toNat = u.depth - 2 ∧ (∀ i < u.depth - 2, v.dstk[entryOf u.win i] = u.dstk[entryOf u.win i]) ∧
         ∀ w : Fin 8, w ≠ u.win → w ≠ up → v.wtag[w] = u.wtag[w] ∧ ∀ i, v.dstk[entryOf w i] = u.dstk[entryOf w i]) ∧
     (Cells s c x u.depth → 2 ≤ u.depth → 1 ≤ u.frame → u.wtag[down].depth.toNat ≤ 6 →
       (∀ i < 2, u.dpend[entryOf down (u.wtag[down].depth.toNat + i)] = false) →
       (u.frame = 1 ∨ x = fCtx ∨ u.wtag[(⟨(u.frame + 6) % 8, by omega⟩ : Fin 8)].live = true) → Ready s c x { op := 0x45 } →
       ∃ t, exec (.leave c x) s = .next t ∧ kept t ∧
         let v := t.ctx c x
         v.pc = after s c x 1 ∧ v.frame = u.frame - 1 ∧ v.depth = u.wtag[down].depth.toNat + 2 ∧
         v.cell 0 = u.cell 0 ∧ v.cell 1 = u.cell 1 ∧
         (∀ i < u.wtag[down].depth.toNat, v.dstk[entryOf down i] = u.dstk[entryOf down i]) ∧ v.wtag[u.win] = {} ∧
         ∀ w : Fin 8, w ≠ u.win → w ≠ down → v.wtag[w] = u.wtag[w] ∧ ∀ i, v.dstk[entryOf w i] = u.dstk[entryOf w i])) ∧
  (∀ (s : State) (c : CoreId) (x : CtxId) (w : Nat) (own : Bool),
     let u := s.ctx c x
     let up : Fin 8 := ⟨(u.frame + 1) % 8, by omega⟩
     let a := u.spillp + u.doff.setWidth 32
     let word (i : Nat) : Word := if i = 0 then 0x57AC0000 + BitVec.ofNat 32 u.wtag[up].depth.toNat else u.dstk[entryOf up (i - 1)]
     x ≠ fCtx → Cells s c x 2 → u.wtag[up].live = true → u.wtag[up].dirty = true → u.doff.toNat + 36 ≤ u.roff.toNat →
     (∀ i < 8, u.dpend[entryOf up i] = false) → (∀ i < 9, SpadFree s c x (a + BitVec.ofNat 32 (4 * i)) 4 (w + 4 * i) .plain own) →
     Ready s c x { op := 0x44 } → AsStored s c (spillStart 0) →
     ∃ t, exec (.enter c x) s = .next t ∧ ReturnsKept s t c x ∧ SpillKept s t c x 0 ∧ StoreKept s t c x ∧
       (t.ctx c x).pc = after s c x 1 ∧ (t.ctx c x).frame = u.frame + 1 ∧ (t.ctx c x).depth = 2 ∧
       (t.ctx c x).cell 0 = u.cell 0 ∧ (t.ctx c x).cell 1 = u.cell 1 ∧
       (t.ctx c x).wtag[u.win].depth.toNat = u.depth - 2 ∧
       (∀ i < u.depth - 2, (t.ctx c x).dstk[entryOf u.win i] = u.dstk[entryOf u.win i]) ∧
       (∀ q : Fin 8, q ≠ u.win → q ≠ up → (t.ctx c x).wtag[q] = u.wtag[q] ∧ ∀ i, (t.ctx c x).dstk[entryOf q i] = u.dstk[entryOf q i]) ∧
       (t.ctx c x).doff = u.doff + 36 ∧ (t.ctx c x).roff = u.roff ∧ (∀ i < 9, valueAt t (w + 4 * i) 4 = word i) ∧
       ∀ b, (b < w ∨ w + 36 ≤ b) → t.spad.byte b = s.spad.byte b) ∧
  (∀ (s : State) (c : CoreId) (x : CtxId) (w : Nat) (own : Bool),
     let u := s.ctx c x
     let down : Fin 8 := ⟨(u.frame + 7) % 8, by omega⟩
     let older : Fin 8 := ⟨(u.frame + 6) % 8, by omega⟩
     let d := u.wtag[down].depth.toNat
     let word (i : Nat) : Word := valueAt s (w + 4 * i) 4
     x ≠ fCtx → Cells s c x u.depth → 2 ≤ u.depth → 2 ≤ u.frame → d ≤ 6 → (∀ i < 2, u.dpend[entryOf down (d + i)] = false) →
     u.wtag[older].live = false → u.doff ≠ 0 → (word 0).toNat / 2 ^ 16 = 0x57AC → (word 0).toNat % 16 ≤ 8 →
     (∀ i < 9, SpadFree s c x (u.spillp + (u.doff - 36).setWidth 32 + BitVec.ofNat 32 (4 * i)) 4 (w + 4 * i) .plain own ∧
       s.spad.check (w + 4 * i) = 0) →
     Ready s c x { op := 0x45 } → AsStored s c (spillStart 1) →
     ∃ t, exec (.leave c x) s = .next t ∧ ReturnsKept s t c x ∧ SpillKept s t c x 1 ∧ StoreKept s t c x ∧
       (t.ctx c x).pc = after s c x 1 ∧ (t.ctx c x).frame = u.frame - 1 ∧ (t.ctx c x).depth = d + 2 ∧
       (t.ctx c x).cell 0 = u.cell 0 ∧ (t.ctx c x).cell 1 = u.cell 1 ∧
       (∀ i < d, (t.ctx c x).dstk[entryOf down i] = u.dstk[entryOf down i]) ∧ (t.ctx c x).wtag[u.win] = {} ∧
       (t.ctx c x).wtag[older] = { depth := BitVec.ofNat 4 ((word 0).toNat % 16), live := true, dirty := false } ∧
       (∀ i < 8, (t.ctx c x).dstk[entryOf older i] = word (i + 1)) ∧
       (∀ q : Fin 8, q ≠ u.win → q ≠ down → q ≠ older →
         (t.ctx c x).wtag[q] = u.wtag[q] ∧ ∀ i, (t.ctx c x).dstk[entryOf q i] = u.dstk[entryOf q i]) ∧
       (t.ctx c x).doff = u.doff - 36 ∧ (t.ctx c x).roff = u.roff ∧ ∀ b, t.spad.byte b = s.spad.byte b)

/-! ## Long operations (R85, R88, R89, R95) -/

/-- R88, R89, R95: a long operation pops its operands and pushes its result cells, pending, and the operation is outstanding. R95: LDF of a fabric
address that no buffered store covers asks for the word, and its result cell is pending. What a pending cell holds is not stated here:
some value. -/
def Obligations.LongOperationsIssue : Prop :=
  (∀ (s : State) (c : CoreId) (x : CtxId), (s.ctx c x).longs.length ≤ 1 →
     ((s.ctx c x).cntd = true → ∀ o ∈ (s.ctx c x).longs, o.kind.divider = false) →
     let u := s.ctx c x
     let dest (k n : Nat) : List (Fin 64) := (List.range n).map fun i => entryOf u.win (u.depth - k + i)
     let issues (i : Instr) (e : Enc) (k n : Nat) (o : LongOp) (q : List CtxId) : Prop :=
       ∃ vs, vs.length = n ∧ DoesTo s ((s.modCore c fun k => { k with divq := q }).modCtx c x fun u =>
         { u with longs := u.longs ++ [o],
                  dpend := Vector.ofFn fun e => u.dpend[e] || o.dest.contains e }) c x i e k vs
     let q := s.core[c].divq
     let asks := if u.cntd then q.take 1 ++ [x] ++ q.drop 1 else q ++ [x]
     let two (kind : LongKind) (n : Nat) : LongOp := { kind := kind, a := u.cell 1, b := u.cell 0, dest := dest 2 n, pc := u.pc }
     (Cells s c x 2 →
       issues (.div c x) { op := 0xFE, page := some 0 } 2 1 (two .div 1) asks ∧
       issues (.mod c x) { op := 0xFE, page := some 1 } 2 1 (two .mod 1) asks ∧
       issues (.divu c x) { op := 0xFE, page := some 2 } 2 1 (two .divu 1) asks ∧
       issues (.modu c x) { op := 0xFE, page := some 3 } 2 1 (two .modu 1) asks ∧
       issues (.mulw c x) { op := 0xFE, page := some 5 } 2 2 (two .mulw 2) q ∧
       issues (.mulwu c x) { op := 0xFE, page := some 6 } 2 2 (two .mulwu 2) q) ∧
     (Cells s c x 1 →
       issues (.sqrt c x) { op := 0xFE, page := some 4 } 1 1
         { kind := .sqrt, a := u.cell 0, b := 0, dest := dest 1 1, pc := u.pc } asks)) ∧
  (∀ (s : State) (c : CoreId) (x : CtxId) (cached : Bool),
     let u := s.ctx c x
     let a := u.cell 0
     u.longs.length ≤ 1 → u.cntd = false → Cells s c x 1 → a.toNat % 4 = 0 → target (some c) a = .fabric cached →
     s.core[c].sb = [] →
     let s' := s.modCtx c x fun u =>
         { u with longs := u.longs ++ [{ kind := .ldf, a := a, b := 0, dest := [u.topEntry 0], pc := u.pc, sent := true }],
                  dpend := u.dpend.set (u.topEntry 0) true }
     ∃ v, DoesTo s (s'.fabAsk { core := c, kind := .ldf x a, addr := s.fabAddr a }) c x (.ldf c x) { op := 0x84 } 1 [v])

/-- R88, R89, R95: a long operation retires with its result; the low cell comes first. R168, R173: one that a routine's word began gives
the micro-register that the word names its low word. R85, R95: a division by zero gives 0, and its DIV_ZERO fault becomes known, with
the address of the division; at the thread's next boundary the fault is taken. -/
def Obligations.LongOperationsRetire : Prop :=
  (∀ (s : State) (c : CoreId) (x : CtxId) (i : Nat) (o : LongOp) (r : List Word),
     let u := s.ctx c x
     let a := o.a
     let b := o.b
     let wide (p : Int) : List Word := [BitVec.ofInt 32 p, BitVec.ofInt 32 (p / 2 ^ 32)]
     let first : Prop := s.core[c].divq.head? = some x ∧ ∀ q ∈ u.longs.take i, q.kind.divider = false
     s.mainRuns = true → u.longs[i]? = some o → o.dest.Nodup → o.dest.length ≤ r.length →
     ((o.kind = .div ∧ first ∧ b ≠ 0 ∧ r = [BitVec.ofInt 32 (a.toInt.tdiv b.toInt)]) ∨
      (o.kind = .mod ∧ first ∧ b ≠ 0 ∧ r = [BitVec.ofInt 32 (a.toInt.tmod b.toInt)]) ∨
      (o.kind = .divu ∧ first ∧ b ≠ 0 ∧ r = [BitVec.ofNat 32 (a.toNat / b.toNat)]) ∨
      (o.kind = .modu ∧ first ∧ b ≠ 0 ∧ r = [BitVec.ofNat 32 (a.toNat % b.toNat)]) ∨
      (o.kind = .sqrt ∧ first ∧ r = [BitVec.ofNat 32 a.toNat.sqrt]) ∨
      (o.kind = .mulw ∧ r = wide (a.toInt * b.toInt)) ∨
      (o.kind = .mulwu ∧ r = wide (a.toNat * b.toNat)) ∨
      (o.kind = .ldf ∧ ∃ w, o.result = some (.ok w) ∧ r = [w])) →
     ∃ t, exec (.longOpRetire c x i) s = .next t ∧
       let v := t.ctx c x
       (∀ k e, o.dest[k]? = some e → v.dstk[e] = r.getD k 0 ∧ v.dpend[e] = false) ∧
       (∀ e, e ∉ o.dest → v.dstk[e] = u.dstk[e] ∧ v.dpend[e] = u.dpend[e]) ∧
       let left : State := (s.modCtx c x fun u => { u with dstk := v.dstk, dpend := v.dpend, longs := u.longs.eraseIdx i }).modCore c
         fun k => { k with divq := if o.kind.divider then k.divq.drop 1 else k.divq }
       (o.ureg = none → t = left) ∧
       ∀ j, o.ureg = some j → u.held = none → u.slot.valid = false → u.routine.isSome = true →
         t = left.modCore c fun k => { k with u := k.u.set j (r.getD 0 0) }) ∧
  (∀ (s : State) (c : CoreId) (x : CtxId) (i : Nat) (o : LongOp) (e : Fin 64),
     let u := s.ctx c x
     s.mainRuns = true →
     (u.longs[i]? = some o → (o.kind = .div ∨ o.kind = .mod ∨ o.kind = .divu ∨ o.kind = .modu) → o.b = 0 → o.dest = [e] → o.ureg = none →
       s.core[c].divq.head? = some x → (∀ q ∈ u.longs.take i, q.kind.divider = false) → u.st = .ready → u.waitFor = none →
       exec (.longOpRetire c x i) s = .next ((s.modCtx c x fun u =>
         { u with dstk := u.dstk.set e 0, dpend := u.dpend.set e false, longs := u.longs.eraseIdx i,
                  impKnown := u.impKnown ++ [⟨0x0F, o.pc⟩] }).modCore c fun k => { k with divq := k.divq.drop 1 })) ∧
     ∀ f l, s.power.state = .run → u.impKnown = f :: l → u.st = .ready → u.inRoutine = false → s.core[c].midRoutine = none →
       ∃ t, exec (.impreciseFault c x) s = .next t ∧ TookFault s t c x f.code f.faddr true)

/-! ## Memory (R96, R100 to R104, R276) -/

/-- R96: loads of scratchpad words, halfwords and bytes, from plain addresses and aliases. R265: a load corrects a word with a single-bit
error, which is counted and is to be written back; an uncorrectable one faults with ECC, is marked, and raises its source. -/
def Obligations.LoadsRead : Prop :=
  ∀ (s : State) (c : CoreId) (x : CtxId) (w : Nat) (via : Via) (own : Bool),
    let got := s.reached c (w / 4 * 4)
    (Cells s c x 1 → SpadFree s c x ((s.ctx c x).cell 0) 4 w via own →
      (s.spad.check (w / 4 * 4) = 1 →
        DoesTo s { got with spad := { got.spad with ecnt := satInc got.spad.ecnt, wback := addNat got.spad.wback w } }
          c x (.ld c x) { op := 0x70 } 1 [valueAt s w 4]) ∧
      (s.spad.check (w / 4 * 4) = 2 → Ready s c x { op := 0x70 } →
        ∃ t, exec (.ld c x) s = .next t ∧ TookFault (got.spadUncorr w) t c x 0x06 ((s.ctx c x).cell 0) false)) ∧
    (Cells s c x 1 → s.spad.check (w / 4 * 4) = 0 →
      let a := (s.ctx c x).cell 0
      (SpadFree s c x a 4 w via own →
        DoesTo s got c x (.ld c x) { op := 0x70 } 1 [valueAt s w 4] ∧
        ((s.ctx c x).depth ≤ 7 → DoesTo s got c x (.ldp c x) { op := 0x78 } 1 [valueAt s w 4, a + 4])) ∧
      (SpadFree s c x a 2 w via own →
        DoesTo s got c x (.ldh c x) { op := 0x71 } 1 [valueAt s w 2] ∧
        DoesTo s got c x (.ldhs c x) { op := 0x72 } 1 [((valueAt s w 2).setWidth 16).signExtend 32]) ∧
      (SpadFree s c x a 1 w via own →
        DoesTo s got c x (.ldb c x) { op := 0x73 } 1 [valueAt s w 1] ∧
        DoesTo s got c x (.ldbs c x) { op := 0x74 } 1 [((valueAt s w 1).setWidth 8).signExtend 32]) ∧
      ∀ b : Byte, SpadFree s c x (a + 4 * b.setWidth 32) 4 w via own →
        DoesTo s got c x (.ldo c x b) { op := 0x7A, opnd := b.setWidth 32, width := 1 } 1 [valueAt s w 4]) ∧
    (Cells s c x 0 → (s.ctx c x).depth ≤ 7 → s.spad.check (w / 4 * 4) = 0 →
      (∀ b : Byte, SpadFree s c x (4 * b.setWidth 32) 4 w via own →
        DoesTo s got c x (.ldl8 c x b) { op := 0x7C, opnd := b.setWidth 32, width := 1 } 0 [valueAt s w 4]) ∧
      (∀ h : BitVec 16, SpadFree s c x (4 * h.setWidth 32) 4 w via own →
        DoesTo s got c x (.ldl16 c x h) { op := 0x7E, opnd := h.setWidth 32, width := 2 } 0 [valueAt s w 4]) ∧
      ∀ n : Fin 16, SpadFree s c x (BitVec.ofNat 32 (4 * n.val)) 4 w via own →
        DoesTo s got c x (.ldgN c x n) { op := BitVec.ofNat 8 (0xB0 + n.val) } 0 [valueAt s w 4])

/-- R96, R276: stores to the scratchpad, through plain addresses and aliases. -/
def Obligations.StoresWrite : Prop :=
  ∀ (s : State) (c : CoreId) (x : CtxId) (w : Nat) (via : Via) (own : Bool),
    (Cells s c x 2 →
      let a := (s.ctx c x).cell 0
      let v := (s.ctx c x).cell 1
      (SpadFree s c x a 4 w via own →
        Stores s c x (.st c x) { op := 0x75 } 2 [] w 4 via v ∧ Stores s c x (.stp c x) { op := 0x79 } 2 [a + 4] w 4 via v) ∧
      (SpadFree s c x a 2 w via own → Stores s c x (.sth c x) { op := 0x76 } 2 [] w 2 via v) ∧
      (SpadFree s c x a 1 w via own → Stores s c x (.stb c x) { op := 0x77 } 2 [] w 1 via v) ∧
      ∀ b : Byte, SpadFree s c x (a + 4 * b.setWidth 32) 4 w via own →
        Stores s c x (.sto c x b) { op := 0x7B, opnd := b.setWidth 32, width := 1 } 2 [] w 4 via v) ∧
    (Cells s c x 1 →
      let v := (s.ctx c x).cell 0
      (∀ b : Byte, SpadFree s c x (4 * b.setWidth 32) 4 w via own →
        Stores s c x (.stl8 c x b) { op := 0x7D, opnd := b.setWidth 32, width := 1 } 1 [] w 4 via v) ∧
      (∀ h : BitVec 16, SpadFree s c x (4 * h.setWidth 32) 4 w via own →
        Stores s c x (.stl16 c x h) { op := 0x7F, opnd := h.setWidth 32, width := 2 } 1 [] w 4 via v) ∧
      ∀ n : Fin 16, SpadFree s c x (BitVec.ofNat 32 (4 * n.val)) 4 w via own →
        Stores s c x (.stgN c x n) { op := BitVec.ofNat 8 (0xC0 + n.val) } 1 [] w 4 via v)

/-- R100, R101, R103: CLAIM loads and reserves the granule; COMMIT stores only while the reservation stands and 255 core cycles have not
passed, and it always drops it. -/
def Obligations.ClaimAndCommit : Prop :=
  ∀ (s : State) (c : CoreId) (x : CtxId) (w : Nat) (own : Bool),
    let a := (s.ctx c x).cell 0
    let v := (s.ctx c x).cell 1
    SpadFree s c x a 4 w .plain own →
    (Cells s c x 1 → s.spad.check (w / 4 * 4) = 0 →
      DoesTo s ((s.reached c w).modCtx c x fun u => { u with rsv := some (w / 32) }) c x (.claim c x) { op := 0x80 } 1 [valueAt s w 4]) ∧
    (Cells s c x 2 → ∀ n : Nat,
      ((s.ctx c x).rsv = some (w / 32) ∧ n ≤ 255 → Ready s c x { op := 0x81 } →
        ∃ t, exec (.commit c x n) s = .next t ∧ Storer s t c x (after s c x 1) 2 [0xFFFFFFFF] ∧
          Stored s t w 4 .plain v ∧ (t.ctx c x).rsv = none) ∧
      (¬((s.ctx c x).rsv = some (w / 32) ∧ n ≤ 255) →
        DoesTo s ((s.reached c w).modCtx c x fun u => { u with rsv := none }) c x (.commit c x n) { op := 0x81 } 2 [0]))

/-- R105 to R108: FILL and MOVE in the scratchpad; a MOVE copies what stood in the source before it. -/
def Obligations.FillAndMove : Prop :=
  ∀ (s : State) (c : CoreId) (x : CtxId) (n m wd ws : Nat) (via : Via),
    let f := (s.ctx c x).cell
    let dst := f 1
    1 ≤ n → 4 * n ≤ 0x3FFFC → n ≤ m → (f 0).toNat = 4 * n → Cells s c x 3 →
    RowsFree s c x dst 0 1 n (fun _ k => wd + 4 * k) .plain →
    let elsewhere (t : State) : Prop := ∀ a, (a < wd ∨ wd + 4 * n ≤ a) → t.spad.byte a = s.spad.byte a
    (Ready s c x { op := 0xFE, page := some 0x11 } →
      ∃ t, exec (.fill c x m) s = .next t ∧ Storer s t c x (after s c x 2) 3 [] ∧
        (∀ k < n, valueAt t (wd + 4 * k) 4 = f 2) ∧ elsewhere t) ∧
    (RowsFree s c x (f 2) 0 1 n (fun _ k => ws + 4 * k) via → (∀ k < n, s.spad.check ((ws + 4 * k) / 4 * 4) = 0) →
      (ws + 4 * n ≤ wd ∨ wd + 4 * n ≤ ws ∨ ws + dst.toNat = wd + (f 2).toNat) → Ready s c x { op := 0xFE, page := some 0x10 } →
      ∃ t, exec (.move c x m) s = .next t ∧ Storer s t c x (after s c x 2) 3 [] ∧
        (∀ k < n, valueAt t (wd + 4 * k) 4 = valueAt s (ws + 4 * k) 4) ∧ elsewhere t)

/-- R105, R106, R108: BLIT and BLITK copy rows; BLITK leaves each destination byte whose source byte is the key. The rows read and the
rows written do not meet. -/
def Obligations.BlitsCopyRows : Prop :=
  ∀ (s : State) (c : CoreId) (x : CtxId) (h n m : Nat) (fs fd : Nat → Nat → Nat) (via : Via),
    let u := s.ctx c x
    let rows (top : Nat) (t : State) (g : Nat → Nat → Nat → Byte) : Prop :=
      Storer s t c x (after s c x 2) top [] ∧
      (∀ r < h, ∀ k < n, ∀ i < 4, t.spad.byte (fd r k + i) = g r k i) ∧
      ∀ a, (∀ r < h, ∀ k < n, a < fd r k ∨ fd r k + 4 ≤ a) → t.spad.byte a = s.spad.byte a
    let fits (top : Nat) : Prop :=
      Cells s c x top ∧ (u.cell (top - 3)).toNat = 65536 * h + 4 * n ∧ n < 16384 ∧ 1 ≤ h * n ∧ h * n ≤ m ∧
      (u.cell (top - 4)).toNat % 4 = 0 ∧ (u.cell (top - 4)).toNat / 65536 % 4 = 0 ∧
      RowsFree s c x (u.cell (top - 1)) ((u.cell (top - 4)).toNat % 65536) h n fs via ∧
      RowsFree s c x (u.cell (top - 2)) ((u.cell (top - 4)).toNat / 65536) h n fd .plain
    (∀ r < h, ∀ k < n, fd r k % 4 = 0 ∧ fs r k % 4 = 0 ∧ s.spad.check (fs r k) = 0) →
    (∀ r < h, ∀ k < n, ∀ r' < h, ∀ k' < n, fs r k ≠ fd r' k' ∧ (fd r k = fd r' k' → r = r' ∧ k = k')) →
    (fits 4 → Ready s c x { op := 0xFE, page := some 0x12 } →
      ∃ t, exec (.blit c x m) s = .next t ∧ rows 4 t fun r k i => s.spad.byte (fs r k + i)) ∧
    (fits 5 → (∀ r < h, ∀ k < n, s.spad.check (fd r k) ≠ 2) → Ready s c x { op := 0xFE, page := some 0x13 } →
      ∃ t, exec (.blitk c x m) s = .next t ∧ rows 5 t fun r k i =>
        if s.spad.byte (fs r k + i) = (u.cell 0).setWidth 8 then s.spad.byte (fd r k + i) else s.spad.byte (fs r k + i))

/-! ## Pins, transits, the beam (R86, R90, R111 to R118, R228, R240) -/

/-- R86, R90, R111, R113, R116: instructions that wait for nothing, or read a pin, a pin group or a timebase. -/
def Obligations.SideUnitsRead : Prop :=
  ∀ (s : State) (c : CoreId) (x : CtxId),
    let u := (s.ctx c x).cell 0
    ((s.ctx c x).longs = [] → Does s c x (.fence c x) { op := 0x82 } 0 []) ∧
    ((∀ e ∈ s.core[c].sb, e.ctx ≠ x) → Does s c x (.drain c x) { op := 0x83 } 0 []) ∧
    (Cells s c x 1 →
      (u.toNat < 64 → Does s c x (.pinr c x) { op := 0x85 } 1 [if s.gpio.fin.getLsbD u.toNat then 0xFFFFFFFF else 0]) ∧
      (u.toNat < 2 → Does s c x (.pinrw c x) { op := 0xFE, page := some 0x20 } 1
        [BitVec.ofNat 32 (s.gpio.fin.toNat / 2 ^ (32 * u.toNat))]) ∧
      ∀ t : TbId, u.toNat = t.val →
        let b := s.transit.tb[t]
        Does s c x (.frame c x) { op := 0xFE, page := some 0x31 } 1 [b.frame.setWidth 32] ∧
        (s.tbRuns t = true → Does s c x (.beam c x) { op := 0x89 } 1
          [BitVec.ofNat 32 (t.val * 2 ^ 29 + b.slot % 2 ^ 13 * 2 ^ 16 + b.grain % 2 ^ 14)]) ∧
        (s.tbRuns t = false → Does s c x (.beam c x) { op := 0x89 } 1 [BitVec.ofNat 32 (t.val * 2 ^ 29 + 3 * 2 ^ 14)])) ∧
    (Cells s c x 0 → (s.ctx c x).depth ≤ 7 → Does s c x (.coreid c x) { op := 0xFE, page := some 0x41 } 0
      [BitVec.ofNat 32 (x.val + 16 * c.val + 256 * s.ring.node.toNat)]) ∧
    (Cells s c x 0 → (s.ctx c x).depth ≤ 6 → Does s c x (.vtime c x) { op := 0xFE, page := some 0x40 } 0
      [BitVec.ofNat 32 s.power.vt.toNat, BitVec.ofNat 32 (s.power.vt.toNat / 2 ^ 32)])

/-- R111, R112: PINW and PINWM hand output data to the pins that the core owns; one pin that it does not own stops the whole write. -/
def Obligations.PinWritesNeedOwnership : Prop :=
  ∀ (s : State) (c : CoreId) (x : CtxId),
    let f := (s.ctx c x).cell
    let put (m d : BitVec 64) : State := { s with gpio := { s.gpio with writes := s.gpio.writes ++ [(c, m, d)] } }
    let pin : BitVec 64 := 1#64 <<< (f 0).toNat
    let group (w : Word) : BitVec 64 := w.setWidth 64 <<< (32 * (f 0).toNat)
    (Cells s c x 2 → (f 0).toNat < 64 →
      (s.gpio.own[c].getLsbD (f 0).toNat = true →
        DoesTo s (put pin (if f 1 = 0 then 0 else pin)) c x (.pinw c x) { op := 0x86 } 2 []) ∧
      (s.gpio.own[c].getLsbD (f 0).toNat = false → Faults s c x (.pinw c x) { op := 0x86 } 0x0A 0)) ∧
    (Cells s c x 3 → (f 0).toNat < 2 →
      (group (f 1) &&& ~~~s.gpio.own[c] = 0 →
        DoesTo s (put (group (f 1)) (group (f 2))) c x (.pinwm c x) { op := 0xFE, page := some 0x21 } 3 []) ∧
      (group (f 1) &&& ~~~s.gpio.own[c] ≠ 0 → Faults s c x (.pinwm c x) { op := 0xFE, page := some 0x21 } 0x0A 0))

/-- R114, R479, R480: STIM pops its value; a port that is not traced drops it, a traced one sends the packet of the write, unless the port's
budget is spent: the write is then counted as dropped. A port number above 31 is RANGE. -/
def Obligations.StimulusWrites : Prop :=
  ∀ (s : State) (c : CoreId) (x : CtxId) (b : Byte), Cells s c x 1 →
    let e : Enc := { op := 0x87, opnd := b.setWidth 32, width := 1 }
    (32 ≤ b.toNat → Faults s c x (.stim c x b) e 0x0C 0) ∧ (b.toNat < 32 →
    let k := s.dbg.trc[c]
    let traced : Prop := s.tracing = true ∧ k.plo.toNat ≤ b.toNat ∧ b.toNat ≤ k.phi.toNat ∧ k.ctxm.getLsbD x.val = true
    (¬traced → Does s c x (.stim c x b) e 1 []) ∧
    (traced → k.budget ≠ 0 → 2 ^ k.budget.toNat ≤ k.spent → s.dbg.fifo.length = 64 → (∀ q ∈ s.dbg.fifo, s.dbg.taken q = false) →
      DoesTo s { s with dbg := { s.dbg with drop := satInc s.dbg.drop, dropped := satInc s.dbg.dropped } } c x (.stim c x b) e 1 []) ∧
    (traced → (k.budget = 0 ∨ k.spent < 2 ^ k.budget.toNat) → s.dbg.sink ≠ 0 → s.dbg.dropped = 0 → (∀ q ∈ s.dbg.fifo, s.dbg.taken q = false) → s.dbg.fifo.length < 64 →
      let low : Word := BitVec.ofNat 32 (b.toNat + 32 * x.val + 512 * c.val)
      DoesTo s { s with dbg := { s.dbg with
          seq := s.dbg.seq + 1, trc := s.dbg.trc.set c { k with spent := k.spent + 1 },
          fifo := s.dbg.fifo ++ [{ bits := packetBits low s.dbg.seq (s.stamp s.dbg.tsel) ((s.ctx c x).cell 0), halt := false }] } }
        c x (.stim c x b) e 1 []))

/-- R117, R118, R203, R204: TRANSIT puts a checked entry into the staging FIFO, TWAIT one that wakes its own context. -/
def Obligations.TransitsStage : Prop :=
  ∀ (s : State) (c : CoreId) (x : CtxId),
    let u := s.ctx c x
    let f := u.cell
    let t : TbId := ⟨(f 0).toNat / 2 ^ 29, by omega⟩
    let staged (g : Staged) : State := s.modCore c fun k => { k with staging := k.staging ++ [g] }
    let entry (when_ : Word) (tb : TbId) (target : BitVec 20) (data : Word) (be tag mode : BitVec 4) : Staged :=
      { tb := tb, slot := BitVec.ofNat 13 (when_.toNat / 2 ^ 16), cls := BitVec.ofNat 2 (when_.toNat / 2 ^ 14),
        e := { target := target, data := data, be := be, grain := BitVec.ofNat 14 when_.toNat, tag := tag, mode := mode },
        period := s.transit.tb[tb].period, lane := u.cntd }
    s.core[c].stageFree x = true →
    (Cells s c x 3 →
      let where_ := (f 1).toNat
      let be := BitVec.ofNat 4 (where_ / 2 ^ 20)
      let tag := BitVec.ofNat 4 (where_ / 2 ^ 24)
      let mode := BitVec.ofNat 4 (where_ / 2 ^ 28)
      let target := BitVec.ofNat 20 where_
      let ok := s.transitOk (if u.priv = 0 then some c else none) (f 0) be tag mode target
      (ok = true → DoesTo s (staged (entry (f 0) t target (f 2) be tag mode)) c x (.transit c x) { op := 0x88 } 3 []) ∧
      (ok = false → Faults s c x (.transit c x) { op := 0x88 } 0x0C 0)) ∧
    (Cells s c x 2 → x ≠ fCtx →
      let when_ := f 1
      let tb : TbId := ⟨when_.toNat / 2 ^ 29, by omega⟩
      let me := BitVec.ofNat 20 (16 * c.val + x.val)
      let tag := BitVec.ofNat 4 (f 0).toNat
      when_.toNat / 2 ^ 14 % 4 = 3 → s.transitOk none when_ 0 tag 1 me = true →
        DoesTo s (((staged (entry when_ tb me 0 0 tag 1)).modCtx c x fun u => { u with wake := false }).setSt c x .sleep)
          c x (.twait c x) { op := 0xFE, page := some 0x30 } 2 [])

/-! ## System instructions (R31 to R37, R98, R124, R228, R333, R334) -/

/-- R36, R37, R333: SYS saves the return address and the status word and enters at the address of its range with that range's privilege;
RETS and RETI go back, RETI to SLEEP where the handler took the thread out of it. A word that would raise the privilege, or holds
0b10, is refused. -/
def Obligations.SystemCallsReturn : Prop :=
  ∀ (s : State) (c : CoreId) (x : CtxId) (l : List Word) (a w : Word),
    let u := s.ctx c x
    let p : BitVec 2 := w.setWidth 2
    let ok : Prop := p ≠ 2 ∧ p.toNat ≤ u.priv.toNat
    (∀ n : Byte, Returns s c x l → RoomFor s c x 2 →
      let status : Word := BitVec.ofNat 32 (u.priv.toNat + if s.core[c].active then 4 else 0)
      GoesRTo s (s.modCtx c x fun u => { u with priv := if n.toNat < 240 then 1 else 3 }) c x (.sys c x n)
        { op := 0x9B, opnd := n.setWidth 32, width := 1 }
        (if n.toNat < 240 then s.core[c].sysBase + BitVec.ofNat 32 (16 * n.toNat)
         else s.core[c].secBase + BitVec.ofNat 32 (16 * (n.toNat - 240)))
        0 [] (l ++ [after s c x 2, status])) ∧
    (Returns s c x (l ++ [a, w]) →
      (ok → GoesRTo s (s.modCtx c x fun u => { u with priv := p }) c x (.rets c x) { op := 0x9C } a 0 [] l) ∧
      (¬ok → Faults s c x (.rets c x) { op := 0x9C } 0x02 0) ∧
      (x ≠ fCtx → u.priv = 0 → Faults s c x (.reti c x) { op := 0x9D } 0x02 0) ∧
      (x ≠ fCtx → u.priv ≠ 0 → s.chains c x = false →
        (ok → w.getLsbD 4 = false →
          GoesRTo s ((s.modCtx c x fun u => { u with priv := p }).modCore c fun k => { k with active := w.getLsbD 2 })
            c x (.reti c x) { op := 0x9D } a 0 [] l) ∧
        (ok → w.getLsbD 4 = true →
          (u.wake = false →
            GoesRTo s (((s.modCtx c x fun u => { u with priv := p }).modCore c fun k => { k with active := w.getLsbD 2 }).setSt c x .sleep)
              c x (.reti c x) { op := 0x9D } a 0 [] l) ∧
          (u.wake = true →
            GoesRTo s ((s.modCtx c x fun u => { u with priv := p, wake := false }).modCore c fun k => { k with active := w.getLsbD 2 })
              c x (.reti c x) { op := 0x9D } a 0 [] l)) ∧
        (¬ok → Faults s c x (.reti c x) { op := 0x9D } 0x02 0)))

/-- R334: RETI in F with no fast event pending pops its two entries and leaves F IDLE. -/
def Obligations.FastHandlerExits : Prop :=
  ∀ (s : State) (c : CoreId) (l : List Word) (a w : Word),
    Returns s c fCtx (l ++ [a, w]) → s.fastNext c = none →
    GoesRTo s (s.setSt c fCtx .idle) c fCtx (.reti c fCtx) { op := 0x9D } (after s c fCtx 1) 0 [] l

/-- R98, R124, R228: SLEEP puts a thread to sleep unless its wake flag is set; YIELD passes the decode register to the next READY
thread after it, where there is one. SLEEP in F is ILLEGAL. -/
def Obligations.ThreadsGiveWay : Prop :=
  ∀ (s : State) (c : CoreId) (x : CtxId),
    let after_ (t : Fin 8) : Option (Fin 8) := ((List.finRange 8).map fun i => t + 1 + i).find? s.core[c].wants
    (x ≠ fCtx →
      ((s.ctx c x).wake = true →
        DoesTo s (s.modCtx c x fun u => { u with wake := false }) c x (.sleep c x) { op := 0xA0 } 0 []) ∧
      ((s.ctx c x).wake = false → DoesTo s (s.setSt c x .sleep) c x (.sleep c x) { op := 0xA0 } 0 [])) ∧
    (x = fCtx → Faults s c x (.sleep c x) { op := 0xA0 } 0x01 0) ∧
    ((s.core[c].holder ≠ threadOf x ∨ x = fCtx ∨ s.core[c].rival x = false) → Does s c x (.yield c x) { op := 0xA1 } 0 []) ∧
    (∀ t : Fin 8, x = thr t → s.core[c].holder = some t → s.core[c].rival x = true →
      DoesTo s (s.modCore c fun k => { k with holder := after_ t, search := t + 1, qload := k.quantum })
        c x (.yield c x) { op := 0xA1 } 0 [])

/-- R98, R467: BKPT halts its core with every context in HALT and THR_PC on the BKPT, where the debug level, VDBG and the core's enable
allow it; in a step the core is halted already and nothing more happens; otherwise it faults. R72, R82: an unassigned opcode, or an
unassigned byte after the prefix 0xFE, is ILLEGAL. -/
def Obligations.InstructionsStop : Prop :=
  (∀ (s : State) (c : CoreId) (x : CtxId),
     (s.core[c].bkptEn = true → s.dbg.level = 2 → s.power.vdbg = true → s.core[c].halted = true →
       Goes s c x (.bkpt c x) { op := 0xA2 } (s.ctx c x).pc 0 []) ∧
     (s.core[c].bkptEn = true ∧ s.dbg.level = 2 ∧ s.power.vdbg = true ∧ s.core[c].halted = false ∧
       s.dbg.xtm[(⟨c.val, by omega⟩ : Fin 18)].firel = 0 →
       Ready s c x { op := 0xA2 } → ∃ t, exec (.bkpt c x) s = .next t ∧
         t.core[c].halted = true ∧ t.core[c].hcause = 1 ∧ (t.ctx c x).pc = (s.ctx c x).pc ∧
         (∀ y, (t.ctx c y).st = if (s.ctx c y).st = .idle ∨ (s.ctx c y).st = .dfault ∨ (s.ctx c y).st = .halt
           then (s.ctx c y).st else .halt) ∧
         (∀ y, (s.ctx c y).st = .ready → (t.ctx c y).preHalt = .ready ∧ (t.ctx c y).rsv = none) ∧
         StackDone s t c x 0 [] ∧ ReturnsKept s t c x ∧ (∀ d, d ≠ c → t.core[d] = s.core[d]) ∧ t.spad = s.spad) ∧
     (¬(s.core[c].bkptEn = true ∧ s.dbg.level = 2 ∧ s.power.vdbg = true) → Faults s c x (.bkpt c x) { op := 0xA2 } 0x0E 0)) ∧
  (∀ (s : State) (c : CoreId) (x : CtxId) (b : Byte),
     Faults s c x (.unassignedOpcode c x false b) { op := b } 0x01 0 ∧
     Faults s c x (.unassignedOpcode c x true b) { op := 0xFE, page := some b } 0x01 0)

/-- R39, R79, R82 to R84, R91: an instruction that lacks cells takes FRAME_UNDER, one that would leave more than eight FRAME_OVER; a data
address that is not aligned takes ALIGN, one outside the map UNMAPPED, a store to the flash range RDONLY. Nothing else changes. -/
def Obligations.LimitsFault : Prop :=
  ∀ (s : State) (c : CoreId) (x : CtxId),
    let u := s.ctx c x
    let a := u.cell 0
    let fault (i : Instr) (op : Byte) (code : Byte) (at_ : Word) : Prop := Faults s c x i { op := op } code at_
    (u.depth = 0 →
      fault (.drop c x) 0x29 0x11 0 ∧ fault (.dup c x) 0x28 0x11 0 ∧ fault (.neg c x) 0x4A 0x11 0 ∧ fault (.not c x) 0x4F 0x11 0 ∧
      fault (.zeq c x) 0x66 0x11 0 ∧ fault (.ld c x) 0x70 0x11 0 ∧ fault (.ldb c x) 0x73 0x11 0 ∧ fault (.toR c x) 0x40 0x11 0 ∧
      fault (.jmpi c x) 0x99 0x11 0 ∧ fault (.pinr c x) 0x85 0x11 0) ∧
    (u.depth ≤ 1 →
      fault (.swap c x) 0x2A 0x11 0 ∧ fault (.add c x) 0x48 0x11 0 ∧ fault (.sub c x) 0x49 0x11 0 ∧ fault (.mul c x) 0x59 0x11 0 ∧
      fault (.lt c x) 0x62 0x11 0 ∧ fault (.st c x) 0x75 0x11 0 ∧ fault (.enter c x) 0x44 0x11 0 ∧ fault (.leave c x) 0x45 0x11 0) ∧
    (u.depth = 8 →
      (∀ n : Fin 32, fault (.litN c x n) (BitVec.ofNat 8 n.val) 0x10 0) ∧ fault (.litM1 c x) 0x20 0x10 0 ∧ fault (.dup c x) 0x28 0x10 0 ∧
      fault (.over c x) 0x2B 0x10 0 ∧ fault (.tuck c x) 0x2E 0x10 0 ∧ fault (.twoDup c x) 0x2F 0x10 0 ∧ fault (.depth c x) 0x38 0x10 0 ∧
      fault (.ldp c x) 0x78 0x10 0) ∧
    (Cells s c x 1 →
      (a.toNat % 4 ≠ 0 → fault (.ld c x) 0x70 0x03 a) ∧
      (a.toNat % 2 ≠ 0 → fault (.ldh c x) 0x71 0x03 a ∧ fault (.ldhs c x) 0x72 0x03 a) ∧
      (u.cntd = false → target (some c) a = .unmapped → fault (.ldb c x) 0x73 0x04 a ∧ fault (.ldbs c x) 0x74 0x04 a ∧
        (a.toNat % 4 = 0 → fault (.ld c x) 0x70 0x04 a))) ∧
    (Cells s c x 2 →
      (a.toNat % 4 ≠ 0 → fault (.st c x) 0x75 0x03 a ∧ fault (.stp c x) 0x79 0x03 a) ∧
      (a.toNat % 2 ≠ 0 → fault (.sth c x) 0x76 0x03 a) ∧ (target (some c) a = .ctl → fault (.stb c x) 0x77 0x03 a) ∧
      (u.cntd = false → target (some c) a = .flash → fault (.stb c x) 0x77 0x05 a ∧ (a.toNat % 4 = 0 → fault (.st c x) 0x75 0x05 a)))

/-! ## Microcode (R119, R157, R160, R163, R172, R190 to R194) -/

/-- R119, R163, R164, R172, R190: a user instruction runs the RAM word that its vector names. A word that selects its LIT field as ASEL,
pushes a cell, writes it by WB and ends pushes that literal; an invalid vector is USER_OP, a privileged one PRIV in user mode. -/
def Obligations.UserInstructionsRun : Prop :=
  ∀ (s : State) (c : CoreId) (x : CtxId) (p : Byte) (opnd : Word) (n : Nat) (entry : BitVec 10) (lit : BitVec 16),
    let v := s.core[c].vector p
    let a : Nat := 0xC00 + entry.toNat
    let word : BitVec 144 := (lit.setWidth 144 <<< 64) ||| (1#144 <<< 59) ||| (6#144 <<< 104) ||| (6#144 <<< 100) ||| (1#144 <<< 97) ||| (1#144 <<< 80)
    (Cells s c x 0 → (s.ctx c x).depth ≤ 7 → v = 0x1000#16 ||| entry.setWidth 16 → alGet s.core[c].ram a = some word →
      s.core[c].csBad = [] → s.core[c].csCorr = [] → Fetched s c x 2 →
      ∃ t, exec (.userInstruction c x p opnd n) s = .next t ∧ (t.ctx c x).pc = after s c x 2 ∧
        StackDone s t c x 0 [lit.setWidth 32] ∧ ReturnsKept s t c x ∧ CtxKept s t c x ∧ MicroKept s t c x) ∧
    (Fetched s c x 2 → v.getLsbD 12 = false →
      ∃ t, exec (.userInstruction c x p opnd n) s = .next t ∧ TookFault s t c x 0x0D 0 false) ∧
    (Fetched s c x 2 → v.getLsbD 12 = true → v.getLsbD 13 = true → (s.ctx c x).priv = 0 →
      ∃ t, exec (.userInstruction c x p opnd n) s = .next t ∧ TookFault s t c x 0x02 0 false)

/-- R62, R163, R172, R193: a Ferpor-16 instruction that stands in its routine at a word of the RAM which only ends (ASEL and BSEL at LIT, END
at 0b01) completes, with THR_PC past its bytes in the thread's window. The length is the row's operand (the model's choice,
notes/assumptions/19.md). -/
def Obligations.F16InstructionsEnd : Prop :=
  ∀ (s : State) (c : CoreId) (x : CtxId) (op : Byte) (o o' : BitVec 16) (len : Fin 4) (len' n : Nat) (upc : BitVec 12) (trap : Bool)
    (ucnt : BitVec 4),
    let u := s.ctx c x
    s.mayIssue c x true = true → u.routine = some (.f16 op o' len' none { upc := upc, trap := trap, ucnt := ucnt }) →
    u.slot.valid = false → s.core[c].midRoutine = some x → u.depth ≤ 8 →
    0xC00 ≤ upc.toNat → alGet s.core[c].ram upc.toNat = some ((1#144 <<< 59) ||| (6#144 <<< 104) ||| (6#144 <<< 100)) →
    s.core[c].csBad = [] → s.core[c].csCorr = [] →
    ∃ t, exec (.f16Instruction c x op o len n) s = .next t ∧
      (t.ctx c x).pc = BitVec.ofNat 32 (0x10000 * u.f16win.toNat + (u.pc.toNat + len') % 0x10000) ∧
      StackDone s t c x 0 [] ∧ ReturnsKept s t c x ∧ CtxKept s t c x ∧ MicroKept s t c x

/-! ## Waits, boundaries, the fetch buffer (R64, R124, R126, R130, R137, R144, R146, R154, R160) -/

/-- R64, R137, R154, R160: what happens to a context at a boundary. A wait that is over leaves a thread READY; a STOP parks its context; a
change of CNTD takes effect with the fetch buffer refilled; a corrected RAM word is written back. R124: a holder that has issued its
quantum while another thread waits gives the decode register to the next READY thread. -/
def Obligations.BoundariesAct : Prop :=
  (∀ (s : State) (c : CoreId) (x : CtxId),
     let u := s.ctx c x
     (u.st = .wait → s.waitOver c x = true →
       exec (.waitEnd c x) s = .next ((s.modCtx c x fun u => { u with waitFor := none }).setSt c x .ready)) ∧
     (u.st = .wait → s.waitOver c x = false → exec (.waitEnd c x) s = .next s) ∧
     (u.stopReq = true → s.core[c].midRoutine = none → s.core[c].halted = false → (u.st = .ready ∨ u.st = .wait ∨ u.st = .sleep) →
       ∃ t, exec (.parkAtBoundary c x) s = .next t ∧
         t.ctx c x = { u with st := .parked, stopReq := false, waitFor := none, served := none, ahead := none } ∧
         (∀ d y, (d ≠ c ∨ y ≠ x) → t.ctx d y = s.ctx d y) ∧ t.spad = s.spad ∧ t.core[c].holder ≠ threadOf x) ∧
     (∀ b : Bool, x ≠ fCtx → u.cntdNext = some b → u.inRoutine = false →
       ∃ t, exec (.cntdTakeEffect c x) s = .next t ∧
         t.ctx c x = { u with cntd := b, cntdNext := none, fbuf := if u.cntd = b then u.fbuf else [],
                              btbAt := if u.cntd = b then u.btbAt else none, ahead := if u.cntd = b then u.ahead else none } ∧
         (∀ d y, (d ≠ c ∨ y ≠ x) → t.ctx d y = s.ctx d y) ∧ (b = true → t.core[c].holder ≠ threadOf x)) ∧
     (∀ a : BitVec 12, 0xC00 ≤ a.toNat → exec (.ucodeRamRewrite c a) s = .next
       (s.modCore c fun k => { k with csCorr := k.csCorr.filter (· ≠ a.toNat) }))) ∧
  (∀ (s : State) (c : CoreId) (t : Fin 8),
     let k := s.core[c]
     k.holder = some t → k.rival (thr t) = true → k.midRoutine = none → 16 * (k.qload.toNat + 1) ≤ k.qcount →
     ∃ (u : Fin 8) (s' : State), exec (.quantumExpiry c) s = .next s' ∧
       ((List.finRange 8).map fun i => t + 1 + i).find? k.wants = some u ∧
       s'.core = s.core.set c { k with holder := some u, search := t + 1, qcount := 0, qload := k.quantum } ∧
       s' = { s with core := s'.core, counters := { s.counters with cnt := s'.counters.cnt } })

/-- R130, R144, R146: a refill puts the line of THR_PC into the fetch buffer; a write that touches a buffered line, or code that a
branch-target entry, or a line under way, stands for, drops it in its core. -/
def Obligations.FetchBuffersFollow : Prop :=
  ∀ (s : State) (c : CoreId) (x : CtxId),
    let u := s.ctx c x
    (∀ (w : Nat) (own : Bool), s.mainRuns = true → u.st = .ready → u.f16 = false → u.pc.toNat % 32 = 0 → u.fbuf = [] → u.served = none →
      u.ahead = none → target (some c) u.pc = .spad w .plain own → (u.cntd = true → own = true) → (isSecure w = true → u.priv = 3) →
      s.destroyed w = false → s.march.slice = none → (∀ i < 8, s.wordShut (w + 4 * i) = false ∧ s.spad.check (w + 4 * i) = 0) →
      ∃ t, exec (.fetchRefill c x u.pc) s = .next t ∧ t.core = s.core.set c (s.core[c].modCtx x fun u => { u with fbuf := [u.pc] }) ∧
        (own = true → t.freeCtr = s.freeCtr ∧ t.spad = s.spad) ∧
        t = { s with core := t.core, counters := { s.counters with cnt := t.counters.cnt }, freeCtr := t.freeCtr,
                     spad := { s.spad with conf := t.spad.conf, rr := t.spad.rr } }) ∧
    (∀ (a : Word) (n : Nat), ∃ t, exec (.fetchInvalidate c a n) s = .next t ∧
      (∀ y, let v := t.ctx c y
        v = { s.ctx c y with fbuf := (s.ctx c y).fbuf.filter fun l => !touches (plainOf c l) (plainOf c a) n,
                             btbAt := v.btbAt, ahead := v.ahead } ∧
        (∀ p, v.btbAt = some p → (s.ctx c y).btbAt = some p ∧
          ∀ k < n, ∀ j < 16, (plainOf c p).toNat + j ≠ (plainOf c a).toNat + k) ∧
        (∀ l, v.ahead = some l ↔ (s.ctx c y).ahead = some l ∧ touches (plainOf c l) (plainOf c a) n = false)) ∧
      (∀ e ∈ t.core[c].btb, e ∈ s.core[c].btb ∧ 
        ∀ k < n, ∀ j < 16, (plainOf c e.target).toNat + j ≠ (plainOf c a).toNat + k) ∧
      (∀ d, d ≠ c → t.core[d] = s.core[d]) ∧ t = { s with core := t.core })

/-! ## Thread registers (R36 to R38, R52, R55, R64 to R68, R124, R154, R155) -/

/-- R38, R64: START makes an IDLE thread READY at THR_PC with empty stacks, at the lower of PRIV_INIT's and the writer's privilege; STOP
asks for a park at the next boundary; RESUME makes a stopped context READY again. R59, R64, R65, R87, R154: RESET leaves a context IDLE
with empty stacks and nothing under way, and keeps THR_PC and the spill area; CNTD is taken at the next boundary, and is refused while
another thread of the core has it. -/
def Obligations.ThreadsAreControlled : Prop :=
  (∀ (s : State) (w : Agent) (c : CoreId) (x : CtxId) (v : Word),
     let u := s.ctx c x
     let up (p : BitVec 2) : Nat := if p = 2 then 1 else p.toNat
     let attr (u : Ctx) : Ctx := { u with cntdNext := none, privInit := BitVec.ofNat 2 (v.toNat / 256) }
     MayWrite s w (.thrCtl c x) → x ≠ fCtx → v.getLsbD 4 = false → u.cntd = false → s.core[c].halted = false →
     (u.st = .idle → s.core[c].chkFail = false → s.core[c].rhalt = false →
       ∃ t, exec (.thrCtlStart w c x v) s = .next t ∧ OnlyCtx (s.rouse c) t c x ∧
         let n := t.ctx c x
         n.st = .ready ∧ n.pc = u.pc ∧ n.frame = 0 ∧ n.depth = 0 ∧ n.returns = [] ∧ n.wake = false ∧ n.f16 = v.getLsbD 5 ∧
         n.fbuf = [] ∧ n.btbAt = none ∧ n.ahead = none ∧
         n.priv.toNat = min (up (BitVec.ofNat 2 (v.toNat / 256))) (up (s.who w).priv) ∧
         n.spillp = u.spillp ∧ n.spillsz = u.spillsz ∧ n.doff = u.doff ∧ n.roff = u.roff) ∧
     ((u.st = .ready ∨ u.st = .wait ∨ u.st = .sleep) → exec (.thrCtlStop w c x v) s = .next ((s.rouse c).modCtx c x fun u =>
       { attr u with stopReq := true })) ∧
     ((u.st = .parked ∨ u.st = .fault ∨ u.st = .dfault) → ∃ t, exec (.thrCtlResume w c x v) s = .next t ∧ OnlyCtx (s.rouse c) t c x ∧
       t.ctx c x = { attr u with st := .ready, redo := u.redo || u.st == .dfault })) ∧
  (∀ (s : State) (w : Agent) (c : CoreId) (x : CtxId) (v : Word), MayWrite s w (.thrCtl c x) →
     let u := s.ctx c x
     (∃ t, exec (.thrCtlReset w c x v) s = .next t ∧
       (∀ d y, (d ≠ c ∨ y ≠ x) → t.ctx d y = s.ctx d y) ∧ t.spad = s.spad ∧
       let n := t.ctx c x
       n.st = .idle ∧ n.pc = u.pc ∧ n.priv = u.priv ∧ n.frame = 0 ∧ (∀ i : Fin 8, n.wtag[i] = {}) ∧ n.returns = [] ∧ n.longs = [] ∧
       n.rsv = none ∧ n.wake = false ∧ n.routine = none ∧ n.held = none ∧ n.slot.valid = false ∧ n.waitFor = none ∧ n.stopReq = false ∧
       n.spillp = u.spillp ∧ n.spillsz = u.spillsz ∧ n.doff = 0 ∧ n.roff = u.spillsz ∧
       (u.routine.isSome ∨ u.slot.valid = true → n.maband = true ∧ n.progUpc = (u.routineAt s.core[c]).1 ∧
         n.prog = (u.routineAt s.core[c]).2)) ∧
     (x ≠ fCtx → u.st ≠ .idle →
       let held : Prop := ∃ y : Fin 8, thr y ≠ x ∧ (s.ctx c (thr y)).cntdBit = true
       let attr (u : Ctx) : Ctx := { u with privInit := BitVec.ofNat 2 (v.toNat / 256) }
       (¬held ∨ v.getLsbD 4 = false → exec (.thrCtlCntd w c x v) s = .next ((s.rouse c).modCtx c x fun u =>
         { attr u with cntdNext := if u.cntd = v.getLsbD 4 then none else some (v.getLsbD 4) })) ∧
       (held → v.getLsbD 4 = true → exec (.thrCtlCntd w c x v) s = .next ((s.rouse c).modCtx c x fun u =>
         { attr u with cntdErr := true, cntdNext := if u.cntd then some false else none }))))

/-- R34, R37, R52, R64: PRIV only falls; SPILLP and SPILLSZ take a stopped thread's area, which abandons what was spilled; a running
thread's writes of them are lost. -/
def Obligations.ThreadRegistersWrite : Prop :=
  ∀ (s : State) (w : Agent) (c : CoreId) (x : CtxId) (v : Word),
    let u := s.ctx c x
    let p : BitVec 2 := BitVec.ofNat 2 (v.toNat / 16)
    (MayWrite s w (.thrStat c x) → exec (.thrStatPrivWrite w c x v) s = .next ((s.rouse c).modCtx c x fun u =>
      { u with priv := if p = 2 then (if 1 < u.priv.toNat then 1 else u.priv) else if p.toNat < u.priv.toNat then p else u.priv,
               cntdErr := u.cntdErr && !v.getLsbD 6, maband := u.maband && !v.getLsbD 7 })) ∧
    (MayWrite s w (.spillp c x) → exec (.spillAreaWrite w c x false v) s = .next
      (if u.isStopped = true ∧ x ≠ fCtx then
          (s.rouse c).modCtx c x fun u => { u with spillp := v &&& 0xFFFFFFFC, doff := 0, roff := u.spillsz }
       else s.rouse c)) ∧
    (MayWrite s w (.spillsz c x) → exec (.spillAreaWrite w c x true v) s = .next
      (if u.isStopped = true ∧ x ≠ fCtx then (s.rouse c).modCtx c x fun u =>
          { u with spillsz := v.setWidth 20 &&& 0xFFFFC, doff := 0, roff := v.setWidth 20 &&& 0xFFFFC }
       else s.rouse c))

/-- R66 to R69: WINDAT reads or writes the entry that WINSEL names of a stopped context (or its own), and AINC moves on; an access to a
running context sets DENIED and does nothing else. R62: in Ferpor-16 mode bits 31:16 of an entry read as 0. AINC wrapping over 64 entries
for every bank is the model's choice (notes/assumptions/16.md). -/
def Obligations.WindowsReach : Prop :=
  ∀ (s : State) (c : CoreId) (x y : CtxId) (v : Word) (k : Fin 64),
    let z := (s.ctx c x).winsel
    let denied : State := s.modCtx c x fun u => { u with winsel := { u.winsel with denied := true } }
    let moved (u : Ctx) : Ctx := { u with winsel := { u.winsel with
      entry := if z.ainc then BitVec.ofNat 6 ((z.entry.toNat + 1) % 64) else z.entry } }
    let open_ : Prop := (y = x ∨ (s.ctx c y).isStopped = true) ∧ ((s.ctx c y).priv = 3 → (s.ctx c x).priv = 3)
    z.bank.toNat = y.val → z.area = 0 → z.entry.toNat = k.val → (y = fCtx → k.val < 16) →
    (MayRead s (.ctx c x) (.windat c) →
      (open_ → exec (.windatRead c x) s = .next (s.modCtx c x moved) ∧ (s.windat c x none).1 = (if (s.ctx c y).f16 then (s.ctx c y).dstk[k] &&& 0xFFFF else (s.ctx c y).dstk[k])) ∧
      (¬open_ → exec (.windatRead c x) s = .next denied)) ∧
    (MayWrite s (.ctx c x) (.windat c) →
      (open_ → exec (.windatWrite c x v) s = .next ((s.modCtx c y fun u =>
        { u with dstk := u.dstk.set k v, wtag := u.wtag.set (⟨k.val / 8, by omega⟩ : Fin 8)
                                                   { u.wtag[(⟨k.val / 8, by omega⟩ : Fin 8)] with dirty := true } }).modCtx c x moved)) ∧
      (¬open_ → exec (.windatWrite c x v) s = .next denied))

/-- R12, R34, R63, R155: an ordinary read of a clear-on-read register clears it, a debug read does not; a per-core register takes a write of
its own core's privileged contexts, ignores one of another core's, and refuses one at user privilege with PRIV. Who may read a block's
registers is the model's reading (notes/assumptions/18.md). -/
def Obligations.RegistersFollowRights : Prop :=
  ∀ (s : State) (w : Agent) (c d : CoreId) (x : CtxId) (v : Word),
    let at_ (o : Nat) : Word := BitVec.ofNat 32 (0x30000000 + 0x1000 * c.val + o)
    (MayRead s w (.evcDrop c) → exec (.rcFieldRead w (at_ 0x620)) s = .next
      (if w = .debug then s else s.modCore c fun k => { k with dropCnt := 0 })) ∧
    (MayWrite s w (.pipeCtl c) → exec (.pipeCtlBtbInv w c v) s = .next ((s.rouse c).modCore c fun k =>
      { k with btbEn := v.getLsbD 0, switchEn := v.getLsbD 1, quantum := BitVec.ofNat 4 (v.toNat / 256), btb := [] })) ∧
    (MayWrite s w (.sysBase c) → AgentIdle s →
      exec (.registerWrite w (at_ 0x10) v) s = .next ((s.rouse c).modCore c fun k => { k with sysBase := v &&& 0xFFFFFFF0 })) ∧
    (s.coreRuns d = true → s.core[d].halted = false → (s.ctx d x).st = .ready → AgentIdle s →
      (1 ≤ (s.ctx d x).priv.toNat → c = d →
        exec (.registerWrite (.ctx d x) (at_ 0x60C) v) s = .next (s.modCore c fun k => { k with evqVec := v })) ∧
      (1 ≤ (s.ctx d x).priv.toNat → c ≠ d → exec (.registerWrite (.ctx d x) (at_ 0x60C) v) s = .next s) ∧
      ((s.ctx d x).priv = 0 → (s.ctx d x).routine = none →
        ∃ t, exec (.registerWrite (.ctx d x) (at_ 0x60C) v) s = .next t ∧ TookFault s t d x 0x02 (at_ 0x60C) false))

/-! ## The load unit (R161, R185 to R189) -/

/-- R185, R187: HOLD selects the cores and asks for them, and the writer of the other kind is shut out; a core is held at a boundary; LOCK
stays until reset. R161, R184, R185, R189: what UC_CMD does to held cores: a patch register or a legal RAM word is stored in every target
core that is held, an illegal one in none; READ gives the lowest target core's; ADDR advances under AINC. The start-up check leaves empty
stores; it counts the ROM words and vertical words that it corrects, and fails for one that it cannot correct, whose address it records.
-/
def Obligations.LoadUnitActs : Prop :=
  (∀ (s : State) (w : Agent) (cores : BitVec 16), MayWrite s w .ucLdctl →
     (s.load.hold = false → s.load.lock = false →
       (∀ c x, w = .ctx c x → cores.getLsbD c.val = false) →
       exec (.ucLdctlHold w cores) s = .next { s with load := { s.load with cores := cores, hold := true, owner := w == .ring } }) ∧
     (∀ c x, w = .ctx c x → s.load.hold = false → s.load.lock = false → cores.getLsbD c.val = true →
       exec (.ucLdctlHold w cores) s = .next { s with load := { s.load with cores := cores, selfHold := true } }) ∧
     (s.load.hold = true → s.load.owner ≠ (w == .ring) → exec (.ucLdctlHold w cores) s = .next s) ∧
     (s.load.hold = false ∨ s.load.owner = (w == .ring) →
       exec (.ucLdctlLock w) s = .next { s with load := { s.load with lock := true } }) ∧
     (s.load.hold = true → s.load.owner = (w == .ring) → (∀ c : CoreId, s.core[c].held = false) →
       exec (.ucLdctlRelease w) s = .next { s with load := { s.load with hold := false } })) ∧
  (∀ (s : State) (w : Agent),
     let l := s.load
     let next (l : LoadUnit) : LoadUnit := { l with addr := if l.ainc then l.addr + 1 else l.addr }
     let target (c : CoreId) : Bool := l.cores.getLsbD c.val
     let free : Prop := l.hold = false ∨ l.owner = (w == .ring)
     (MayWrite s w .ucCmd → free → l.lock = false → (∀ c : CoreId, target c = true → s.core[c].held = true) →
       (l.space = 0 → 0xC00 ≤ l.addr.toNat →
         (legalWord l.word = true → ∃ t, exec (.ucCmdWrite w) s = .next t ∧ t = { s with core := t.core, load := next l } ∧
           ∀ c : CoreId, t.core[c] = if target c then s.core[c].putWord l.addr l.word else s.core[c]) ∧
         (legalWord l.word = false → exec (.ucCmdWrite w) s = .next { s with load := next { l with badWord := true } })) ∧
       (∀ k : Fin 64, l.space = 2 → l.addr.toNat = k.val → s.patchOk l.data[0] = true →
         ∃ t, exec (.ucCmdWrite w) s = .next t ∧ t = { s with core := t.core, load := next l } ∧
           ∀ c : CoreId, t.core[c] = if target c then
             { s.core[c] with patch := s.core[c].patch.set k (l.data[0] &&& 0x803FFFFF), wroteAny := true, wrotePatch := true }
             else s.core[c])) ∧
     (MayWrite s w .ucCmd → free → ∀ (c : CoreId) (k : Fin 64), target c = true → (∀ d : CoreId, d.val < c.val → target d = false) →
       l.space = 2 → l.addr.toNat = k.val →
       exec (.ucCmdRead w) s = .next { s with load := next { l with data := l.data.set 0 s.core[c].patch[k] } }) ∧
     (∀ c : CoreId, AgentIdle s → l.hold = true → target c = true → s.core[c].midRoutine = none →
       exec (.coreHeld c) s = .next (s.modCore c fun k => { k with held := true })) ∧
     (∀ (c : CoreId) (bad : Bool), AgentIdle s → s.mainRuns = true → s.dict.bootWait = false → s.core[c].chkDone = false →
       s.core[c].invBusy = false →
       let rom (l : List Nat) : List Nat := l.filter (· < 0xC00)
       let worst := (rom s.core[c].csBad ++ s.core[c].vsBad).getLast?
       let u := s.modCore c fun k => { k with
         chkDone := true, chkFail := bad || worst.isSome, ram := [], uvec := [], patch := Vector.replicate 64 0, csCorr := rom k.csCorr,
         csBad := rom k.csBad, ccnt := satAdd k.ccnt ((rom k.csCorr).length + k.vsCorr.length),
         cErrAddr := (worst.map (BitVec.ofNat 12)).getD k.cErrAddr, cUncorr := k.cUncorr || worst.isSome }
       (bad = false → worst = none → ∃ t, exec (.controlStoreCheckDone c bad) s = .next t ∧
         t = { u with counters := { u.counters with cnt := t.counters.cnt } }) ∧
       (bad = true ∨ worst ≠ none → ∃ t, exec (.controlStoreCheckDone c bad) s = .next t ∧ Raised u t (80 + c.val) u.core[c].cstat)))

/-! ## The transit engine (R196 to R233, R511) -/

/-- R200, R202, R204, R206, R211: the offered entry of a group takes the lowest untouched Ephemeris entry and is linked at the tail of its
queue; the round-robin pointer passes its core. -/
def Obligations.EntriesJoinTheirQueues : Prop :=
  ∀ (s : State) (g i : Fin 4) (e : Staged) (p : Policy),
    let core (i : Fin 4) : CoreId := ⟨4 * g.val + i.val, by omega⟩
    let x := s.transit
    let b := x.tb[e.tb]
    let k := qkey e.tb e.slot.toNat e.cls
    let n := x.ephNext
    s.accepts = true → x.rsvOnly = false → s.core[core i].staging = [e] → (∀ j, j ≠ i → s.core[core j].staging = []) →
    b.en = true → b.starting = true → b.pause = none → b.flushing = false → b.period = e.period →
    modeOf e.e.mode = some (.oneShot, p) → x.ephFree = [] → (x.queue k).parOk = true →
    ∃ t, exec (.transitAccept g) s = .next t ∧
      t.core[core i].staging = [] ∧ (∀ d, d ≠ core i → t.core[d].staging = s.core[d].staging) ∧
      t.transit.rr[g] = i + 1 ∧ t.transit.ephNext = n + 1 ∧
      t.transit.entry n = { e.e with link := BitVec.ofNat 17 n } ∧ n ∉ t.transit.ephBad ∧ n ∉ t.transit.ephCorr ∧
      (t.transit.queue k).items = (x.queue k).items ++ [n] ∧ (∀ j, j ≠ k → t.transit.queue j = x.queue j) ∧
      (∀ j, j ≠ n → t.transit.entry j = { x.entry j with link := (t.transit.entry j).link }) ∧
      t.transit.tb = x.tb ∧ t.spad = s.spad

/-- R212 to R215: a walk that ends places the one-shot entries whose TAG is the frame's into the store and takes them out of their
queue, those of other frames stay; then the sort runs. What late inserts have put into the slot counts with them, below the limit of a
line. -/
def Obligations.WalksPlace : Prop :=
  ∀ (s : State) (tb : TbId) (w : Walk) (k : Nat) (items : List Nat),
    let x := s.transit
    let b := x.tb[tb]
    let mine (i : Nat) : Bool := (x.entry i).tag == BitVec.ofNat 4 w.frame.toNat
    b.walk = some w → b.pause = none → b.flushing = false → w.reads = [(k, items)] → (x.queue k).items = items →
    (x.queue k).parOk = true → keyCls k ≠ 3 → items.Nodup → b.storeCnt + items.length < slotLimit tb →
    (∀ i ∈ items, (x.entry i).kind = .oneShot ∧ i ∉ x.ephBad) →
    ∃ t, exec (.walkEnd tb) s = .next t ∧
      let v := t.transit.tb[tb]
      v.walk = none ∧ v.sorting = true ∧ v.cleanup = false ∧
      v.store = (items.filter mine).map (fun i => ⟨i, keyCls k, x.entry i, w.frame, w.slot⟩) ∧
      v.storeCnt = b.storeCnt + (items.filter mine).length ∧
      (t.transit.queue k).items = items.filter (fun i => !mine i) ∧
      (∀ j, j ≠ k → t.transit.queue j = x.queue j) ∧ (∀ u, u ≠ tb → t.transit.tb[u] = x.tb[u]) ∧ t.spad = s.spad

/-- R215, R216: the sort orders the store by GRAIN and keeps the order of equals; a late insert joins the live buffer of its occurrence at
its grain. -/
def Obligations.BuffersStaySorted : Prop :=
  ∀ (s : State) (tb : TbId),
    let b := s.transit.tb[tb]
    let sorted (l : List BufItem) : Prop := l.Pairwise fun i j => i.e.grain.toNat ≤ j.e.grain.toNat
    (b.sorting = true → s.tbActive tb = false → ∃ t, exec (.sortEnd tb) s = .next t ∧
      let v := t.transit.tb[tb]
      v.store.Perm b.store ∧ sorted v.store ∧
      (∀ g, v.store.filter (fun i => i.e.grain = g) = b.store.filter (fun i => i.e.grain = g)) ∧
      v = { b with store := v.store, sorting := false, cleanup := false } ∧
      UptoEvents (s.modTb tb fun _ => v) t) ∧
    (sorted b.live → (∀ i ∈ b.merging, b.liveOf = some (i.frame, i.slot)) → ∃ t, exec (.lateInsertMerge tb) s = .next t ∧
      let v := t.transit.tb[tb]
      v.live.Perm (b.live ++ b.merging) ∧ sorted v.live ∧ v = { b with live := v.live, merging := [] } ∧ t = s.modTb tb fun _ => v)

/-- R199, R230, R233: the operations of TRN_CMD, while none is in progress; while one is, any other only sets CMDERR. Each leaves CMDBUSY
at 1 until its end, and the last to end raises its source with its OP; a FLUSH_KEY waits for a walk that still reads its queue. What is
undefined in READ_ENTRY's data is free, TRN_DAT3 after READ_QUEUE is the model's choice (notes/assumptions/60.md), and when a walk's
effects appear is, too (notes/assumptions/44.md). -/
def Obligations.TransitCommands : Prop :=
  (∀ (s : State) (w : Agent), MayWrite s w .trnCmd →
     let x := s.transit
     let arg := x.arg.toNat
     let tb : TbId := ⟨arg % 8, by omega⟩
     let refused : State := { s with transit := { x with cmdErr := true } }
     let begun (u : Transit) (o : TrnOp) (a : Nat) : State := { s with transit := { u with cmds := [(o, a)] } }
     (x.cmds ≠ [] →
       exec (.flushKey w) s = .next refused ∧ exec (.flushTb w) s = .next refused ∧ exec (.readEntry w) s = .next refused ∧
       exec (.readQueue w) s = .next refused ∧ exec (.resetEph w) s = .next refused) ∧
     (x.cmds = [] →
       exec (.readQueue w) s = .next (begun { x with dat :=
         #v[BitVec.ofNat 32 ((x.queue arg).items.headD 0), BitVec.ofNat 32 ((x.queue arg).items.getLastD 0),
            (x.queue arg).flags.setWidth 32, x.dat[3]] } .readQueue arg) ∧
       (∃ t, exec (.readEntry w) s = .next t ∧
         t = { begun { x with dat := t.transit.dat } .readEntry (arg % 0x20000) with freeCtr := t.freeCtr } ∧
         ∀ e, alGet x.eph (arg % 0x20000) = some e → arg % 0x20000 ∉ x.ephCorr → arg % 0x20000 ∉ x.ephBad →
           t.freeCtr = s.freeCtr ∧ t.transit.dat =
             #v[BitVec.ofNat 32 e.bits.toNat, BitVec.ofNat 32 (e.bits.toNat / 2 ^ 32), BitVec.ofNat 32 (e.bits.toNat / 2 ^ 64),
                BitVec.ofNat 32 (eccOf 96 7 e.bits.toNat)]) ∧
       (∃ t, exec (.flushKey w) s = .next t ∧ t.transit.cmds = [(.flushKey, arg)] ∧ t.transit.tb = x.tb ∧ t.spad = s.spad ∧
         (∀ k, k ≠ arg → t.transit.queue k = x.queue k) ∧
         ((x.queue arg).walk = false → t.transit.queue arg = {}) ∧
         ((x.queue arg).walk = false → (x.queue arg).parOk = true → (∀ i ∈ (x.queue arg).items, i ∉ x.ephBad) →
           t.transit.ephFree = (x.queue arg).items.reverse ++ x.ephFree) ∧
         ((x.queue arg).walk = true → t = begun x .flushKey arg)) ∧
       (∃ t, exec (.flushTb w) s = .next t ∧ t.transit.cmds = [(.flushTb, arg % 8)] ∧ t.spad = s.spad ∧
         (∀ k, keyTb k = tb.val → t.transit.queue k = {}) ∧ (∀ k, keyTb k ≠ tb.val → t.transit.queue k = x.queue k) ∧
         (let v := t.transit.tb[tb]
          v.live = [] ∧ v.store = [] ∧ v.merging = [] ∧ v.carry = [] ∧ v.armed = [] ∧ v.walk = none ∧ v.sorting = false ∧
          v.flushing = true ∧ v.en = x.tb[tb].en) ∧
         ∀ u : TbId, u ≠ tb → t.transit.tb[u] = x.tb[u]) ∧
       (∃ t, exec (.resetEph w) s = .next t ∧ t.transit.cmds = [(.resetEph, 0)] ∧ t.transit.queues = [] ∧ t.transit.ephFree = [] ∧
         t.transit.ephNext = 0 ∧ t.transit.free = 0x20000 ∧ t.transit.eph = x.eph ∧ t.spad = s.spad ∧
         ∀ u : TbId, t.transit.tb[u].store = [] ∧ t.transit.tb[u].live = [] ∧ t.transit.tb[u].carry = []))) ∧
  (∀ (s : State) (o : TrnOp) (a : Nat) (l : List (TrnOp × Nat)),
     let x := s.transit
     x.cmds = (o, a) :: l → s.power.mainRst = false →
     let done : State := { s with transit := { x with cmds := l } }
     (o = .flushKey → (x.queue a).walk = true → exec .trnCmdDone s = .next s) ∧
     (o = .readEntry ∨ o = .readQueue ∨ o = .resetEph →
       (l ≠ [] → exec .trnCmdDone s = .next done) ∧
       (l = [] → ∃ t, exec .trnCmdDone s = .next t ∧
         Raised done t 186 (match o with | .readEntry => 3 | .readQueue => 4 | _ => 5))) ∧
     (o = .flushTb → l = [] → ∀ h : a < 8, ∃ t, exec .trnCmdDone s = .next t ∧
       (t.transit.tb[(⟨a, h⟩ : TbId)]).flushing = false ∧ t.transit.cmds = [] ∧
       (∀ u : TbId, u.val ≠ a → t.transit.tb[u] = x.tb[u]) ∧ Raised { s with transit := t.transit } t 186 2) ∧
     (o = .flushKey → l = [] → (x.queue a).walk = false → ∃ t, exec .trnCmdDone s = .next t ∧ t.transit.cmds = [] ∧
       t.transit.queue a = {} ∧ t.transit.tb = x.tb ∧ ((s.src 186).en = true → (t.src 186).pend = true ∧ (t.src 186).payload = 1))) ∧
  (∀ s : State, s.mainRuns = true → s.transit.ready = false →
     exec .queueStateClearDone s = .next { s with transit := { s.transit with queues := [], ready := true } })

/-- R204, R234, R511: a disabled timebase takes SLAST (and a beam GLAST) and may start, in a new enable period; an enabled one takes no
geometry, and ends its period when EN falls. -/
def Obligations.TimebasesAreConfigured : Prop :=
  ∀ (s : State) (w : Agent) (tb : TbId) (v : Word), MayWrite s w (.tbCfg tb) →
    let b := s.transit.tb[tb]
    let geo (b : Tb) : Tb := { b with slast := BitVec.ofNat 13 (v.toNat / 2 ^ 16),
                                      glast := if tb.val < 4 then BitVec.ofNat 14 (v.toNat / 4) ||| 3 else b.glast }
    (b.en = false → v.getLsbD 0 = false → exec (.tbnCfgWrite w tb v) s = .next (s.modTb tb geo)) ∧
    (b.en = false → v.getLsbD 0 = true → exec (.tbnCfgWrite w tb v) s = .next (s.modTb tb fun b =>
      { geo b with en := true, starting := true, period := b.period + 1, ran := [], liveOf := none, armed := [], pause := none,
                   holdWalk := false })) ∧
    (b.en = true → v.getLsbD 0 = true → exec (.tbnCfgWrite w tb v) s = .next s) ∧
    (b.en = true → v.getLsbD 0 = false → ∃ t, exec (.tbnCfgWrite w tb v) s = .next t ∧
      (t.transit.tb[tb]).en = false ∧ (t.transit.tb[tb]).period = b.period ∧ (t.transit.tb[tb]).live = [] ∧
      (t.transit.tb[tb]).slast = b.slast ∧ (t.transit.tb[tb]).glast = b.glast ∧
      t.transit.cmds = s.transit.cmds ++ [(.flushTb, tb.val)] ∧ (∀ u, u ≠ tb → t.transit.tb[u] = s.transit.tb[u]))

/-! ## Ports and Meridian sync (R237 to R240, R243, R245, R246, R251 to R260) -/

/-- R217, R229, R237 to R239, R241, R243, R246: a position sample with good parity, or any while PARCHK is 0, is the port's position; one
that is not the predicted position, or lies outside the geometry, is a jump, which counts and raises the port's source. With bad parity
the sample counts, raises the source, and leaves the inputs as they were and the position as predicted. A disabled timebase takes the
position; RUN 0 pauses one that runs; an entry of the next quad is driven with lead 0. While PEN is 0 a sample does nothing. A write that
sets PEN clears what the port knew, one that clears it makes its timebase pause. -/
def Obligations.PortsTakePositions : Prop :=
  (∀ (s : State) (k : Fin 4) (line : BitVec 13) (quad : BitVec 12) (smp : BitVec 6) (run hold par : Bool) (aclks : Nat),
     let even (n m : Nat) : Prop := ((List.range 16).filter n.testBit).length + ((List.range 16).filter m.testBit).length +
       run.toNat + hold.toNat + par.toNat ≡ 0 [MOD 2]
     let beam : Fin 8 := k.castLE (by omega)
     let sound : Fin 8 := ⟨4 + k.val, by omega⟩
     let ready (p : Fin 8) : Prop := s.power.mainRst = false ∧ (s.ports.port[p]).pen = true ∧ (s.ports.port[p]).restart = none
     let next (p : Fin 8) : Option (Nat × Nat) := (s.ports.port[p]).last.map fun q =>
       if q.2 + 1 < (s.transit.tb[p]).units p then (q.1, q.2 + 1)
       else if q.1 < (s.transit.tb[p]).slast.toNat then (q.1 + 1, 0) else (0, 0)
     let pin (p : Fin 8) : Bool := p == beam && s.instIn 6 k
     let source (p : Fin 8) : Nat := if p.val < 4 then 204 + p.val else 208 + p.val
     let rest (p : Fin 8) (t : State) : Prop := (∀ q, q ≠ p → t.ports.port[q] = s.ports.port[q]) ∧ t.spad = s.spad
     let raised (p : Fin 8) (t : State) : Prop :=
       (s.src (source p)).en = true → (t.src (source p)).pend = true ∧ (t.src (source p)).payload = (t.ports.port[p]).stat
     let taken (p : Fin 8) (slot u grain : Nat) (short : Bool) (t : State) : Prop :=
       let q := s.ports.port[p]
       let b := s.transit.tb[p]
       let v := t.ports.port[p]
       let out : Bool := decide (b.slast.toNat < slot) || decide (b.units p - 1 < u)
       let jump : Bool := run && (match next p with | some n => n != (slot, u) || out | none => false)
       v = { q with runIn := run, holdIn := hold, held := hold || !run || pin p, last := if run then some (slot, u) else none, seen := true,
                    shortp := q.shortp || short, jump := q.jump || jump, jumps := if jump then satInc q.jumps else q.jumps,
                    out := v.out, trim := v.trim, restart := v.restart } ∧
       (jump = true → raised p t) ∧ rest p t ∧
       (b.en = false → v.out = [] ∧ t.transit.tb[p] =
         { b with run := run, slot := slot, grain := grain,
                  geomErr := b.geomErr || (run && (decide (b.slast.toNat < slot) || decide (b.grains p ≤ grain))) }) ∧
       (b.en = true → b.starting = false → b.pause = none → run = false → v.out = [] ∧
         t.transit.tb[p] = { b with run := false, pause := some ⟨b.frame, b.slot, b.grain⟩ })
     let missed (p : Fin 8) (short : Bool) (t : State) : Prop :=
       let q := s.ports.port[p]
       let v := t.ports.port[p]
       let r : Bool := q.seen && q.runIn
       let h : Bool := q.seen && q.holdIn
       v = { q with runIn := r, holdIn := h, held := h || !r || pin p, last := if r then some ((next p).getD (0, 0)) else none,
                    parErr := true, poserr := satInc q.poserr, shortp := q.shortp || short, out := v.out, trim := v.trim,
                    restart := v.restart } ∧ raised p t ∧ rest p t
     (ready beam →
       (even line.toNat quad.toNat ∨ (s.ports.port[beam]).parchk = false →
         ∃ t, exec (.beamPositionSample k line quad run hold par) s = .next t ∧ taken beam line.toNat quad.toNat (4 * quad.toNat) false t) ∧
       (¬even line.toNat quad.toNat → (s.ports.port[beam]).parchk = true →
         ∃ t, exec (.beamPositionSample k line quad run hold par) s = .next t ∧ missed beam false t)) ∧
     (ready sound →
       (even line.toNat smp.toNat ∨ (s.ports.port[sound]).parchk = false →
         ∃ t, exec (.soundPositionSample k line smp run hold par aclks) s = .next t ∧
           taken sound line.toNat smp.toNat smp.toNat (decide (aclks < 32)) t) ∧
       (¬even line.toNat smp.toNat → (s.ports.port[sound]).parchk = true →
         ∃ t, exec (.soundPositionSample k line smp run hold par aclks) s = .next t ∧ missed sound (decide (aclks < 32)) t)) ∧
     (s.power.mainRst = true ∨ (s.ports.port[beam]).pen = false →
       ∃ t, exec (.beamPositionSample k line quad run hold par) s = .next t ∧ UptoEvents s t) ∧
     (s.power.mainRst = true ∨ (s.ports.port[sound]).pen = false →
       exec (.soundPositionSample k line smp run hold par aclks) s = .next s) ∧
     (let b := s.transit.tb[beam]
      ∀ i : BufItem, ready beam → even line.toNat quad.toNat → run = true → hold = false → s.instIn 6 k = false →
        b.en = true → b.starting = false → b.run = true → b.pause = none → b.flushing = false → b.holdWalk = false →
        s.transit.halted = false → s.power.state = .run → line.toNat = b.slot → b.slot ≤ b.slast.toNat → b.grain ≤ 4 * quad.toNat →
        i.e.grain.toNat ≤ b.glast.toNat → b.storeOf = some (b.nextOcc b.frame b.slot) → b.live = [i] → b.carry = [] → b.armed = [] →
        (i.cls = 0 ∨ i.cls = 1) → i.e.grain.toNat / 4 = quad.toNat + 1 →
        ∃ t, exec (.beamPositionSample k line quad run hold par) s = .next t ∧ (t.transit.tb[beam]).live = [] ∧
          t.ports.port[beam].out = [⟨i.e.target, i.e.data, i.e.be, BitVec.ofNat 2 i.e.grain.toNat, 0, i.cls⟩] ∧
          (t.beamPins k).addr = i.e.target ∧ (t.beamPins k).data = i.e.data ∧ (t.beamPins k).be = i.e.be ∧ (t.beamPins k).lead = 0)) ∧
  (∀ (s : State) (w : Agent) (p : Fin 8) (v : Word), MayWrite s w (.portCtl p) →
     let b := s.transit.tb[p]
     let fresh (pen : Bool) (q : Port) : Port :=
       { q with pen := pen, parchk := v.getLsbD 1, out := [], trim := 0, last := none, seen := false, restart := none }
     (v.getLsbD 0 = (s.ports.port[p]).pen →
       exec (.bpnCtlWrite w p v) s = .next (s.modPort p fun q => { q with parchk := v.getLsbD 1 })) ∧
     (v.getLsbD 0 = true → (s.ports.port[p]).pen = false → exec (.bpnCtlWrite w p v) s = .next (s.modPort p (fresh true))) ∧
     (v.getLsbD 0 = false → (s.ports.port[p]).pen = true → exec (.bpnCtlWrite w p v) s = .next
       ((s.modPort p (fresh false)).modTb p fun b => { b with run := false, pause :=
         if b.en = true ∧ b.starting = false ∧ b.pause = none then some ⟨b.frame, b.slot, b.grain⟩ else b.pause })))

/-- R257, R261: MISS lines without an accepted record put a locked or acquiring follower into HOLDOVER, four frames there put it into LOST;
its sources are raised. A follower that is told to follow itself stays where it is. -/
def Obligations.FollowersLoseTheirMaster : Prop :=
  ∀ (s : State) (n : Fin 4),
    let m := s.ports.ms[n]
    (m.state = .locked ∨ m.state = .acquire → ¬(m.useMode = 3 ∧ m.useLbeam.toNat = n.val) →
      max 1 m.miss.toNat * 2 ^ (if m.useMode = 3 then 0 else min m.usePsh 8) ≤ m.lines → s.power.mainRst = false → ∃ t, exec (.meridianMissExpiry n) s = .next t ∧
        Raised (s.modMs n fun m => { m with state := .holdover, pend := 0, frames := 0, restartAt := none }) t (196 + n.val) m.err) ∧
    (m.state = .holdover → 4 ≤ m.frames → s.power.mainRst = false → ∃ t, exec (.meridianHoldoverExpiry n) s = .next t ∧
        Raised (s.modMs n fun m => { m with state := .lost, pend := 0, lastSeq := none }) t (200 + n.val) 0) ∧
    (m.useMode = 3 → m.useLbeam.toNat = n.val → exec (.meridianMissExpiry n) s = .next s) ∧
    (m.state = .locked → m.lines < max 1 m.miss.toNat → exec (.meridianMissExpiry n) s = .next s)

/-! ## The ring (R251, R253, R352 to R383) -/

/-- R3, R251, R356, R357, R375, R377, R380: what happens at a port: its link comes and goes, delay exchanges, errors, which only a port that
GEN enables and that has link counts (notes/assumptions/63.md), and RPp_CTL. The number of
the first delay request is free, and the speed is the row's operand (the model's choices, notes/assumptions/41.md and 43.md). -/
def Obligations.PortsFollowTheirLinks : Prop :=
  ∀ (s : State) (p : PortId),
    let rp := s.ring.port[p]
    let set (f : RingPort → RingPort) : State := { s with ring := { s.ring with port := s.ring.port.set p (f rp) } }
    exec .ringTclkLoss s = .next { s with ring := { s.ring with tclk := false } } ∧
    exec .ringTclkPresent s = .next { s with ring := { s.ring with tclk := true } } ∧
    exec (.errorWindowEnd p) s =
      .next (set fun q => { q with armed := q.armed || decide (q.winErr < max 1 q.errth.toNat), winErr := 0 }) ∧
    (s.forwarding = false ∨ rp.gen = 0 ∨ rp.link = false → ∀ e, exec (.frameError p e) s = .next s) ∧
    (s.forwarding = true → rp.gen ≠ 0 → rp.link = true → (rp.armed = false ∨ rp.winErr + 1 < max 1 rp.errth.toNat) → ∀ e, ∃ t, exec (.frameError p e) s = .next t ∧
      UptoEvents (set fun q => { q with err := satInc q.err, winErr := q.winErr + 1 }) t) ∧
    (s.forwarding = true → rp.gen ≠ 0 → rp.link = true → rp.armed = true → max 1 rp.errth.toNat ≤ rp.winErr + 1 → s.power.mainRst = false →
      ∀ e, ∃ t, exec (.frameError p e) s = .next t ∧ LoggedOnly
          (set fun q => { q with err := satInc q.err, winErr := q.winErr + 1, burst := true, armed := false }) t [228 + p.val] ∧
        ((s.src (228 + p.val)).en = true → (t.src (228 + p.val)).pend = true)) ∧
    (s.forwarding = true → rp.link = true → ∀ n d, exec (.dlyReq p n d) s = .next (set fun q => { q with txq := q.txq ++ [.dlyRsp n d] })) ∧
    (s.forwarding = true → rp.link = true → ∀ (n : BitVec 16) (t32 trip : Int), (n - rp.dlyNum).toNat < 8 →
      let d := (trip - t32) / 2
      let best := (rp.best.map fun b => min b d).getD d
      (rp.exch < 7 → exec (.dlyRsp p n t32 trip) s = .next (set fun q => { q with exch := q.exch + 1, best := some best, dlyOk := false })) ∧
      (rp.exch = 7 → exec (.dlyRsp p n t32 trip) s = .next (set fun q =>
        { q with exch := 8, best := some best, dlyOk := true, ldly := BitVec.ofInt 31 (best + q.asym.toInt) }))) ∧
    (s.power.pornAon = true → s.power.restored = true → s.ring.tclk = true → s.power.mainRst = false → rp.gen ≠ 0 → rp.link = false →
      ∃ (n : BitVec 16) (t : State), exec (.linkUp p rp.gen) s = .next t ∧
        SourcesOnly { (set fun q => { q with link := true, genUse := q.gen, dlyOk := false, exch := 0, best := none, dlyNum := n,
                                             txq := q.txq ++ (List.range 8).map fun i => .dlyReq (n + BitVec.ofNat 16 i) })
                      with freeCtr := t.freeCtr } t [224, 225, 226, 227] ∧
        ((s.src (224 + p.val)).en = true → (t.src (224 + p.val)).pend = true ∧
          (t.src (224 + p.val)).payload = BitVec.ofNat 32 (1 + 2 * rp.gen.toNat))) ∧
    (s.power.pornAon = true → s.power.restored = true → s.ring.tclk = true → rp.link = false → ∀ speed : BitVec 2, 2 ≤ rp.gen.toNat →
      2 ≤ speed.toNat → speed ≠ rp.gen → exec (.linkUp p speed) s = .next (set fun q => { q with genErr := true })) ∧
    (s.power.mainRst = false → rp.link = true → ∃ t, exec (.linkDown p) s = .next t ∧
      SourcesOnly { s with ring := { s.ring with port := t.ring.port } } t [224, 225, 226, 227] ∧
      t.ring.port[p] = { rp with link := false, genUse := 0, dlyOk := false, exch := 8, best := none, txq := [] } ∧
      (∀ q, q ≠ p → q ≠ partner p → t.ring.port[q] = s.ring.port[q]) ∧
      (let q := s.ring.port[partner p]
       let wraps := q.link && q.wrapEn && decide (2 ≤ q.gen.toNat) && decide (2 ≤ rp.gen.toNat)
       t.ring.port[partner p] = { q with txq := q.txq ++ if wraps then rp.txq.filter OwnFrame.isResp else [] }) ∧
      ((s.src (224 + p.val)).en = true → (t.src (224 + p.val)).pend = true)) ∧
    ∀ (w : Agent) (v : Word), MayWrite s w (.rpCtl p) → s.power.mainRst = false → ∃ t, exec (.rppCtlWrite w p v) s = .next t ∧
      SourcesOnly { s with ring := { s.ring with port := t.ring.port } } t [224, 225, 226, 227] ∧
      let g : BitVec 2 := BitVec.ofNat 2 v.toNat
      let ctl (q : RingPort) : RingPort := { q with gen := g, wrapEn := v.getLsbD 2, errth := BitVec.ofNat 8 (v.toNat / 256) }
      (g = rp.gen → t.ring.port = s.ring.port.set p (ctl rp)) ∧
      (g ≠ rp.gen → rp.link = true →
        t.ring.port[p] = ctl { rp with link := false, genUse := 0, dlyOk := false, exch := 8, best := none, txq := [] })

/-- R5, R7, R252, R253, R352 to R354, R359, R361, R362, R367 to R370, R381: Knadu frames, told by RING_ETYPE or the FTYPE, pass on with HOPS
counted; other frames pass on unchanged, to a port that carries their kind; a delay exchange stays on its link. An ASSIGN gives the node
its number; a SYNC record passes on with its corrections, bad if it came bad. The port sends its own frames by rank, then age; a node
message is sent by both ports of a pair. The receiving end of a gen1 hop sends delay exchanges only; what would be forwarded
there is counted as discarded (the model's choice, notes/assumptions/29.md). A frame is read back from the header's bytes as it was formed. -/
def Obligations.FramesPassOn : Prop :=
  ∀ (s : State) (p o : PortId),
    let set (p : PortId) (f : RingPort → RingPort) : State :=
      { s with ring := { s.ring with port := s.ring.port.set p (f s.ring.port[p]) } }
    (s.forwarding = true → s.ring.port[p].link = true → s.ring.outFor (partner p) = some o →
      s.ring.port[o].genUse = 1 → o.val % 2 = 0 → ∀ (f : Frame) (ahead : Nat),
        ((if s.ring.port[p].genUse = 1 then 1 ≤ f.ty.toNat % 256 ∧ f.ty.toNat % 256 ≤ 0x3F else f.ty ≠ s.ring.etype) ∨
          ((if s.ring.port[p].genUse = 1 then f.ty.toNat % 256 = 0x4B else f.ty = s.ring.etype) ∧ f.rsp = true ∧ f.hdr.hops ≠ 0xFF)) →
        exec (.frameForward p f ahead) s = .next (set p fun q => { q with fwdrop := satInc q.fwdrop })) ∧
    (s.forwarding = true → s.ring.port[p].link = true → s.ring.outFor (partner p) = some o →
      (s.ring.port[o].genUse = 1 → o.val % 2 = 1) →
      let d := limitD s.ring.port[o].genUse
      (∀ (f : Frame) (ahead : Nat),
        (if s.ring.port[p].genUse = 1 then f.ty.toNat % 256 = 0x4B else f.ty = s.ring.etype) →
        (f.rsp = true ∨ f.cmd ∈ [0x01#8, 0x02#8, 0x03#8, 0x04#8, 0x05#8, 0x06#8, 0x08#8, 0x09#8] →
          (f.hdr.hops = 0xFF → exec (.frameForward p f ahead) s = .next (set p fun q => { q with hopdrop := satInc q.hopdrop })) ∧
          (f.hdr.hops ≠ 0xFF → d + 4 < f.hdr.len →
            exec (.frameForward p f ahead) s = .next (set o fun q => { q with oversz := satInc q.oversz })) ∧
          (f.hdr.hops ≠ 0xFF → f.hdr.len ≤ d + 4 → 16384 < ahead + f.size →
            exec (.frameForward p f ahead) s = .next (set p fun q => { q with fwdrop := satInc q.fwdrop })) ∧
          (f.hdr.hops ≠ 0xFF → f.hdr.len ≤ d + 4 → ahead + f.size ≤ 16384 → exec (.frameForward p f ahead) s =
            .next (set o fun q => { q with fwdOut := some { f with
              ty := if s.ring.port[o].genUse = 1 then 0x4B else s.ring.etype, hdr := { f.hdr with hops := f.hdr.hops + 1 } } }))) ∧
        (f.rsp = false → f.cmd = 0x11 ∨ f.cmd = 0x12 → exec (.frameForward p f ahead) s = .next s)) ∧
      (∀ (f : Frame) (ahead : Nat),
        (if s.ring.port[p].genUse = 1 then 1 ≤ f.ty.toNat % 256 ∧ f.ty.toNat % 256 ≤ 0x3F else f.ty ≠ s.ring.etype) →
        ((s.ring.port[p].genUse = 1 ↔ s.ring.port[o].genUse = 1) → ahead + f.size ≤ 16384 →
          exec (.frameForward p f ahead) s = .next (set o fun q => { q with fwdOut := some f })) ∧
        (¬(s.ring.port[p].genUse = 1 ↔ s.ring.port[o].genUse = 1) ∨ 16384 < ahead + f.size →
          exec (.frameForward p f ahead) s = .next (set p fun q => { q with fwdrop := satInc q.fwdrop }))) ∧
      (∀ (h : RingHdr) (next mode : Byte), h.port = p → h.node = 0x7F → h.hops ≠ 0xFF → h.len ≤ d + 4 →
        s.ring.assignLk = false → next.toNat ≤ 63 → (mode = 1 ∨ (mode = 0 ∧ s.ring.node = 0x7F)) →
        ∃ t, exec (.assign h [next, mode]) s = .next t ∧ t.ring.node = BitVec.ofNat 7 next.toNat ∧
          ((t.ring.port[o]).fwdOut.map fun f => (f.payload, f.hdr.hops)) = some ([next + 1, mode], h.hops + 1) ∧
          RingOnly s t ∧ t.ring = { s.ring with node := t.ring.node, port := t.ring.port } ∧
          ∀ q, q ≠ o → t.ring.port[q] = s.ring.port[q]) ∧
      (∀ (src : BitVec 7) (r : SyncRec) (came : Receipt) (within : Vector (BitVec 6) 4), r.hops ≠ 0xFF →
        s.mainRuns = false ∨ came.good = false →
        ∃ t, exec (.sync p src r came within) s = .next t ∧ RingOnly s t ∧
          let q := s.ring.port[p]
          ((t.ring.port[o]).fwdOut.map fun f => (f.payload, f.fcsOk)) = some (syncBytes { r with
            corr := r.corr + came.resid + (if q.dlyOk then (q.ldly.toNat : Int) else 0), hops := r.hops + 1,
            genmin := if q.dlyOk then (if q.genUse.toNat < r.genmin.toNat then q.genUse.setWidth 8 else r.genmin) else 0 }, came.good) ∧
          ∀ q, q ≠ o → t.ring.port[q] = s.ring.port[q])) ∧
    (∀ f : Frame, f.hdr.port = p → f.hdr.len < 0x10000 → frameOfPdu p f.ty f.fcsOk f.size (framePdu f) = some f) ∧
    (∀ (a b : List OwnFrame) (f : OwnFrame), s.forwarding = true → s.ring.port[p].link = true → s.ring.port[p].txq = a ++ f :: b →
      (∀ g ∈ a, f.rank < g.rank) → (∀ g ∈ b, f.rank ≤ g.rank) →
      if s.ring.port[p].genUse = 1 ∧ p.val % 2 = 0 ∧ f.rank ≠ 0 then exec (.ownFrameSend p) s = .next s else
      ∃ t, exec (.ownFrameSend p) s = .next t ∧ t.ring.port[p].txq = a ++ b ∧
        ((t.ring.port[p]).ownOut.map (·.rank)) = some f.rank ∧ ((∀ r, f ≠ .sync r) → t.ring.port[p].ownOut = some f) ∧
        RingOnly { s with freeCtr := t.freeCtr } t ∧ ∀ q, q ≠ p → t.ring.port[q] = s.ring.port[q]) ∧
    (∀ (w : Agent) (v : Word), MayWrite s w .nmsgCtl → s.ring.nbusy = false → v.getLsbD 10 = false →
      let n := v.toNat % 64
      let r := { s.ring with nlen := BitVec.ofNat 6 n }
      let data := ((List.finRange 8).flatMap fun k => toBytes 4 s.ring.nmsg[k]).take n
      (1 ≤ n → n ≤ 32 → s.ring.port[(0 : PortId)].link = true → s.ring.port[(1 : PortId)].link = true →
        ∃ t, exec (.nmsgSend w v) s = .next t ∧ RingOnly s t ∧
          t.ring = { r with nbusy := true, npair := false, nsent := false, port := t.ring.port } ∧
          ∀ q : PortId, t.ring.port[q] =
            if q.val < 2 then { s.ring.port[q] with txq := s.ring.port[q].txq ++ [.nmsg data] } else s.ring.port[q]) ∧
      ((n = 0 ∨ 32 < n) → exec (.nmsgSend w v) s = .next { s with ring := { r with nlost := true } })) ∧
    (s.ring.nbusy = true → (∀ q : PortId, ∀ f ∈ s.ring.port[q].txq, ∀ d, f ≠ .nmsg d) →
      exec .nmsgSent s = .next { s with ring := { s.ring with nbusy := false, nlost := s.ring.nlost || !s.ring.nsent } }) ∧
    ∀ w : Agent, MayWrite s w .hmsgSt → exec (.hmsgEmpty w) s = .next { s with ring := { s.ring with hfull := false } }

/-- R362 to R373, R381, R386, R389, R390, R405: the commands that the node runs, and the answers of those it does not. -/
def Obligations.RingCommandsAnswer : Prop :=
  ∀ (s : State) (h : RingHdr) (data : List Byte),
    let sent (o : PortId) (code st : Byte) (payload : List Byte) : State :=
      let r : Resp := { port := h.port, cmd := code, seq := h.seq, index := h.index, sub := h.sub, status := st,
                        credit := BitVec.ofNat 8 (8 - s.ring.cmds.length), flags := s.respFlags, payload := payload, bcast := false }
      let q := s.ring.port[o]
      { s with ring := { s.ring with port := s.ring.port.set o { q with txq := q.txq ++ [.resp r] } } }
    (s.forMe h = true → h.node ≠ 0x7F → h.flags = 0 → ∀ o, s.ring.outFor (partner h.port) = some o →
      (h.len = 0 → exec (.ping h []) s =
        .next (sent o 0x05 0 (toBytes 4 (0x48580040 : Word) ++ toBytes 2 s.ring.expSeq ++ toBytes 2 s.ring.bexpSeq))) ∧
      (s.ring.resync = none → 1 ≤ (h.seq - s.ring.expSeq).toNat → (h.seq - s.ring.expSeq).toNat ≤ 65279 →
        ∃ t, exec (.read h data) s = .next t ∧ UptoEvents (sent o 0x01 3 (toBytes 2 s.ring.expSeq)) t)) ∧
    (s.forMe h = true → s.agentOn = true → AgentIdle s → h.node ≠ 0x7F → h.flags = 0 → h.len = 4 → ∀ a b : BitVec 16,
      ∃ t, exec (.resync h (toBytes 2 a ++ toBytes 2 b)) s = .next t ∧ RingOnly s t ∧
        t.ring = { s.ring with expSeq := a, bexpSeq := b, history := [], restarted := false, port := t.ring.port }) ∧
    (Taken s h 0 → h.index = 0x4020 → h.sub = 1 → s.mainGate = .go →
      ∃ t, exec (.read h []) s = .next t ∧ Answered s t 0x01 h 0 (toBytes 4 s.dict.injData) ∧ RingOnly s t) ∧
    (Taken s h 4 → h.index = 0x4020 → h.sub = 1 → s.mainGate = .go → data.length = 4 →
      ∃ t, exec (.write h data) s = .next t ∧ Answered s t 0x02 h 0 [] ∧
        RingOnly { s with dict := { s.dict with injData := ofBytes 32 data } } t) ∧
    (Taken s h 0 → 9 ≤ h.index.toNat / 0x1000 → ∃ t, exec (.read h []) s = .next t ∧
      Answered s t 0x01 h 4 (toBytes 4 (0x0A010001 : Word)) ∧ RingOnly s t) ∧
    (∀ off : Word, s.mainGate = .go → s.banksReady = true → off.toNat % 4 = 0 → 0x02000000 ≤ off.toNat → off.toNat + 4 ≤ 0x02780000 →
      h.index = 0x8000 → h.sub = 1 → s.destroyed off.toNat = false → s.borrowed off.toNat = none →
      (Taken s h 8 → s.spad.check off.toNat = 0 → ∃ t, exec (.dread h (toBytes 4 off ++ toBytes 4 (4 : Word))) s = .next t ∧
        Answered s t 0x03 h 0 ((List.range 4).map fun i => s.spad.byte (off.toNat + i)) ∧
        RingOnly { s with freeCtr := t.freeCtr, spad := { s.spad with conf := t.spad.conf, rr := t.spad.rr } } t) ∧
      (Taken s h 8 → ∀ v : Word, s.sealed = false →
        ∃ t, exec (.dwrite h (toBytes 4 off ++ toBytes 4 v)) s = .next t ∧
          Answered s t 0x04 h 0 [] ∧ Stored s t off.toNat 4 .plain v ∧ t.night = s.night ∧ t.dict = s.dict)) ∧
    (Taken s h data.length → 1 ≤ data.length → data.length ≤ 32 → s.ring.hfull = false → s.power.mainRst = false → s.power.state = .run →
      ∃ t, exec (.msg h data) s = .next t ∧ Answered s t 0x08 h 0 [] ∧ t.ring.hfull = true ∧
        t.ring.hlen = BitVec.ofNat 6 data.length ∧
        (∀ k : Fin 8, t.ring.hmsg[k] = ofBytes 32 ((data.drop (4 * k.val)).take 4)) ∧
        SourcesOnly { s with ring := t.ring } t [232] ∧
        ((s.src 232).en = true → (t.src 232).pend = true ∧ (t.src 232).payload = ofBytes 32 (data.take 4)))

/-- R188, R207, R397, R401, R403, R406 to R408, R410, R413, R414, R464, R465: the dictionary's actions, while the ring's agent is idle; those
in the main domain while it runs. Which rows hold the code, NVMERR at the start of a store, and the row's waiting for a free agent are
the model's choices (notes/assumptions/25.md). -/
def Obligations.DictionaryActs : Prop :=
  ∀ s : State, AgentIdle s → s.agentOn = true →
    let store (rows : List (Nat × Line)) (t : State) : Prop :=
      (∃ r, t.night.cur = some (.param r.1 r.2) ∧ r :: t.night.wantParam = rows) ∧
      t.night = { s.night with cur := t.night.cur, wantParam := t.night.wantParam, clr := t.night.clr } ∧
      t.ring = { s.ring with busy := some .nvm, solo := true } ∧ t.dict.nvmErr = false ∧ t.core = s.core ∧ t.spad = s.spad
    let writerIdle : Prop := s.night.cur = none ∧ s.night.wantRow0 = none ∧ s.night.wantLc = none ∧ s.night.staged = []
    let dict (f : Dict → Dict) : State := { s with dict := f s.dict }
    (writerIdle →
      (∃ t, exec .save s = .next t ∧
        let cur := (s.night.current).1
        let row := if cur.map (·.row) = some 0 then 127 else 0
        let gen := (cur.map (·.gen + 1)).getD 1
        let body := t.dict.recordBytes
        store ((List.range 11).map (fun i => (row + 1 + i, (ofBytes 256 ((body.drop (32 * i)).take 32) : Line))) ++
          [(row, ofBytes 256 (headerBytes gen body))]) t ∧
        (∀ i : Fin 43, i.val < 13 → t.dict.held[i] = s.dict.held[i]) ∧
        (∀ (i : Fin 43) r, s.power.mainRst = false → s.power.heldDone = true → heldReg i = some r → 13 ≤ i.val →
          t.dict.held[i] = s.regWord .ring r)) ∧
      (∃ t, exec .restore s = .next t ∧ store [(0, 0), (127, 0)] t ∧ t.dict.held = s.dict.held) ∧
      (∀ v : BitVec 64, s.sealed = false → s.night.intCode = none → ∃ t, exec (.intCode v) s = .next t ∧
        let copy := toBytes 8 v ++ toBytes 4 (crc32 (toBytes 8 v))
        store [(254, ofBytes 256 (copy ++ copy)), (255, 0)] t ∧ t.dict.held = s.dict.held)) ∧
    (∀ v : BitVec 64,
      (s.dict.intFails < 8 → s.night.intCode = some v →
        exec (.intUnlock v) s = .next (dict fun d => { d with intUnlocked := true, intFails := 0 })) ∧
      (s.night.intCode ≠ some v → exec (.intUnlock v) s = .next (dict fun d =>
        { d with intFails := d.intFails + 1, intUnlocked := d.intUnlocked && decide (d.intFails + 1 < 8) }))) ∧
    exec .intLock s = .next (dict fun d => { d with intUnlocked := false }) ∧
    (s.mainGate = .go →
      (∀ mask : BitVec 16, (∀ c : CoreId, mask.getLsbD c.val = true →
          s.core[c].chkDone = true ∧ s.core[c].chkFail = false ∧ (s.ctx c 0).st = .idle ∧ s.core[c].rhalt = false) →
        ∃ t, exec (.start mask) s = .next t ∧ (∀ d y, (mask.getLsbD d.val = false ∨ y ≠ 0) → t.ctx d y = s.ctx d y) ∧
          (∀ c : CoreId, mask.getLsbD c.val = true → let u := t.ctx c 0
            u.st = .ready ∧ u.priv = 3 ∧ u.pc = (s.ctx c 0).pc ∧ u.frame = 0 ∧ u.depth = 0 ∧ u.returns = [] ∧ u.wake = false) ∧
          (∀ d : CoreId, t.core[d] = { s.core[d] with
            ctx := t.core[d].ctx, holder := t.core[d].holder, search := t.core[d].search, qcount := t.core[d].qcount,
            qload := t.core[d].qload, dozeWake := s.core[d].dozeWake || (mask.getLsbD d.val && s.core[d].dozed) }) ∧
          t = { s with core := t.core, counters := { s.counters with cnt := t.counters.cnt } }) ∧
      (∀ v : Word,
        let g := s.dict.injWhere
        let be : BitVec 4 := BitVec.ofNat 4 (g.toNat / 2 ^ 20)
        let tag : BitVec 4 := BitVec.ofNat 4 (g.toNat / 2 ^ 24)
        let mode : BitVec 4 := BitVec.ofNat 4 (g.toNat / 2 ^ 28)
        let target : BitVec 20 := BitVec.ofNat 20 g.toNat
        let tb : TbId := ⟨v.toNat / 2 ^ 29, by omega⟩
        let ok := s.transitOk none v be tag mode target
        (ok = true → s.transit.ringEn = true → s.transit.ringFifo.length < 8 → exec (.injWhen v) s = .next { s with transit := { s.transit with
          ringFifo := s.transit.ringFifo ++
            [{ tb := tb, slot := BitVec.ofNat 13 (v.toNat / 2 ^ 16), cls := BitVec.ofNat 2 (v.toNat / 2 ^ 14),
               e := { target := target, data := s.dict.injData, be := be, grain := BitVec.ofNat 14 v.toNat, tag := tag, mode := mode },
               period := s.transit.tb[tb].period, lane := false }] } }) ∧
        (ok = false ∨ s.transit.ringEn = false ∨ 8 ≤ s.transit.ringFifo.length → exec (.injWhen v) s = .next s)) ∧
      (∀ v : BitVec 64, s.flash.pen = true → v.toNat < 2 ^ 58 → ∃ t, exec (.flashCtlw v) s = .next t ∧
        t.flash = { s.flash with queue := s.flash.queue ++ [{ cmd := 2, addr := BitVec.ofNat 26 (v.toNat / 2 ^ 32),
                                                              data := BitVec.ofNat 32 v.toNat, be := 0xF, users := [.ring] }] } ∧
        t.ring = { s.ring with busy := some .flash, solo := true } ∧
        t = { s with flash := t.flash, ring := t.ring, dict := { s.dict with
          flashErr := false, flashTodo := [], flashGot := [], flashSkip := 0, flashWant := 0 } }) ∧
      exec .ucCtlBegin s = .next (dict fun d => { d with ucState := 1, ucSize := 0 }) ∧
      exec .ucCtlAbandon s = .next (dict fun d => { d with ucState := 0, ucSize := 0 }) ∧
      (s.dict.ucState ≠ 1 → exec .ucCtlCommit s = .next s) ∧
      (s.dict.ucState = 1 → s.banksReady = true → s.spad.wiping = false → s.spad.wipeDue = false → s.march.slice = none →
        s.load.lock = false → s.load.hold = false →
        (∀ a, s.spad.check a = 0) → (∀ a, s.destroyed a = false) → s.dict.ucStage.toNat % 4 = 0 →
        let bytes := (List.range s.dict.ucSize).map fun i => s.spad.byte (s.dict.ucStage.toNat + i)
        let read (t : State) : State :=
          { s with freeCtr := t.freeCtr, counters := { s.counters with cnt := t.counters.cnt },
                   spad := { s.spad with conf := t.spad.conf, rr := t.spad.rr } }
        (∀ r, s.ucCheck bytes = .error r → ∃ t, exec .ucCtlCommit s = .next t ∧ t = { read t with
          dict := { s.dict with ucState := 0, ucSize := 0, ucReason := r },
          load := { s.load with badWord := s.load.badWord || r == 4, protect := s.load.protect || r == 5 } }) ∧
        (∀ m, s.ucCheck bytes = .ok m → (∃ c : CoreId, m.cores.getLsbD c.val = true ∧ s.core[c].held = false) →
          s.dict.flashTodo = [] → ∃ t, exec .ucCtlCommit s = .next t ∧ t = { read t with
            dict := { s.dict with ucState := 2 }, ring := { s.ring with busy := some .commit, solo := true },
            load := { s.load with cores := m.cores, hold := true, owner := true } }))) ∧
    (s.power.vdbg = true → s.dict.daccStat ≠ 1 → ∀ v : Word,
      (∀ sub index, exec (.dacc 0 sub index v) s = .next s ∧ exec (.dacc 3 sub index v) s = .next s) ∧
      (s.mainGate = .go → 1 ≤ s.dbg.level.toNat →
        exec (.dacc 1 1 0x4020 v) s = .next (dict fun d => { d with daccStat := 0, daccData := d.injData })) ∧
      (s.mainGate = .go → s.dbg.level = 2 → ∃ t, exec (.dacc 2 1 0x4020 v) s = .next t ∧
        t.dict.injData = v ∧ t.dict.daccStat = 0 ∧ t = { s with dict := t.dict }) ∧
      (s.mainGate = .go → s.dbg.level = 0 →
        exec (.dacc 1 1 0x4020 v) s = .next (dict fun d => { d with daccStat := 2, daccData := 0x0A030001 })))

/-! ## Power, clocks, resets (R279, R280, R283, R412 to R436, R457, R462, R463, R496, R500) -/

/-- R424, R431, R433, R457: a fall of MAIN_OK or RSTn_MAIN, a VESPER-ONLY request and PORn_AON reset every main-domain register, array and
memory, and keep the NVM and the errors of ROM words; the Vesper registers stay but under PORn_AON. R233: RSTn_MAIN alone keeps what
Ephemeris entries hold. The values that a reset gives where the spec states none, and the
rules of MAIN_EN, are the model's choices (notes/assumptions/2.md and 34.md). -/
def Obligations.SuppliesFall : Prop :=
  ∀ s : State, AgentIdle s →
    let gone (t : State) : Prop :=
      t.ports = {} ∧ t.spad = {} ∧ t.march = {} ∧ t.flash = {} ∧ t.fabric = {} ∧ t.ev = {} ∧ t.counters = {} ∧
      t.load = {} ∧ t.power.mainRst = true ∧ t.power.lockA = false ∧ t.power.lockB = false ∧ t.power.heldDone = false ∧
      t.power.crst = 0 ∧ t.power.amul = 0x20 ∧ t.power.disc = 0 ∧ t.gpio.frozen = true ∧ t.gpio.mux = State.reset.gpio.mux ∧
      (∀ d : CoreId, let k := s.core[d]
        t.core[d] = { State.reset.core[d] with
          stepCtx := k.stepCtx, rhalt := k.rhalt, bkptEn := k.bkptEn, hcause := k.hcause, stepDone := k.stepDone, stepErr := k.stepErr,
          csCorr := k.csCorr.filter (· < 0xC00), csBad := k.csBad.filter (· < 0xC00), vsCorr := k.vsCorr, vsBad := k.vsBad })
    let emptied (x : Transit) : Transit := { x with eph := [], ephCorr := [], ephBad := [] }
    let vesper (t : State) (cause : BitVec 2) : Prop :=
      gone t ∧ t.ring = s.ring ∧ t.night = s.night ∧ t.dbg = s.dbg ∧ t.dict.held = s.dict.held ∧ t.dict.bootAuto = s.dict.bootAuto ∧
      t.dict.injData = 0 ∧ t.dict.ucState = 0 ∧ t.gpio.slp = s.gpio.slp ∧ t.pending = s.pending ∧
      t.power.state = .vesperOnly ∧ t.power.vcause = cause ∧ t.power.pend = 0 ∧ t.power.wipePend = s.power.wipePend ∧
      t.power.vt = s.power.vt ∧ t.power.bocnt = s.power.bocnt ∧ t.power.pornAon = s.power.pornAon
    let flags (f : Power → Power) : State := { s with power := f s.power }
    (s.power.mainRst = false →
      (∃ t, exec .mainOkFall s = .next t ∧ vesper t 2 ∧ t.transit = {} ∧ t.power.mainOk = false ∧ t.power.wantMain = s.power.wantMain) ∧
      (∃ t, exec .rstnMainFall s = .next t ∧ vesper t 3 ∧
        t.transit = { eph := s.transit.eph, ephCorr := s.transit.ephCorr, ephBad := s.transit.ephBad } ∧ t.power.rstnMain = false ∧ t.power.wantMain = s.power.wantMain) ∧
      (s.power.pend = 2 → ∃ t, exec .vesperOnlyEntry s = .next t ∧ vesper t 1 ∧ t.transit = {} ∧ t.power.wantMain = false ∧ t.power.mainEn = false)) ∧
    (s.power.mainRst = true →
      exec .mainOkFall s = .next { (flags fun p => { p with mainOk := false }) with transit := emptied s.transit } ∧
      exec .rstnMainFall s = .next (flags fun p => { p with rstnMain := false })) ∧
    (s.power.pornAon = true → s.night.cur = none → ∃ t, exec .pornAonAssert s = .next t ∧ gone t ∧ t.transit = {} ∧
      t.power.pornAon = false ∧ t.power.state = .off ∧ t.power.restored = false ∧ t.power.wipePend = s.power.wipePend ∧ t.power.vt = 0 ∧
      t.ring = { tclk := s.ring.tclk } ∧ t.dict = {} ∧ t.night.slots = s.night.slots ∧ t.night.param = s.night.param ∧
      t.night.row0 = s.night.row0 ∧ t.night.lcRows = s.night.lcRows ∧ t.night.staged = [] ∧ t.dbg.fails = 0 ∧ t.dbg.barred = false ∧
      t.dbg.xtm = s.dbg.xtm) ∧
    exec .vdbgLoss s = .next (flags fun p => { p with vdbg := false }) ∧
    exec .vdbgReturn s = .next (flags fun p => { p with vdbg := true }) ∧ exec .trstn s = .next s ∧
    exec .fastClockAbsent s = .next (flags fun p => { p with fastClk := false }) ∧
    exec .fastClockPresent s = .next (flags fun p => { p with fastClk := true, mainEn := p.mainEn || p.wantMain }) ∧
    ((∀ m, s.memberHalted m = false) → s.dbg.level = lcDefault s.night.lcState → s.dbg.level ≠ 0 → ∃ t, exec .dbgRstn s = .next t ∧
      t.dbg.xtm = State.reset.dbg.xtm ∧ t.dbg.trEn = false ∧ t.dbg.fifo = [] ∧ t.dbg.level = s.dbg.level ∧ t.dbg.fails = s.dbg.fails ∧
      (∀ d : CoreId, t.core[d] = { s.core[d] with haltReq := t.core[d].haltReq, stepCtx := 0, rhalt := false, bkptEn := false, hcause := 0,
                                                  stepDone := false, stepErr := false }) ∧
      t = { s with dbg := t.dbg, core := t.core }) ∧
    (s.power.mainWarn = false → s.power.pornAon = false → exec .mainWarnRise s = .next (flags fun p => { p with mainWarn := true })) ∧
    (s.power.mainWarn = false → s.power.pornAon = true → s.power.mainRst = false → s.gpio.frozen = false → ∃ t, exec .mainWarnRise s = .next t ∧
      let n := satInc s.power.bocnt
      LoggedOnly { s with power := { s.power with mainWarn := true, bocnt := n }, freeCtr := t.freeCtr,
                          gpio := { s.gpio with frozen := true, latOe := t.gpio.latOe, latOut := t.gpio.latOut } } t [352] ∧
      ((s.src 352).en = true → (t.src 352).pend = true ∧ (t.src 352).payload = 1 ||| (n <<< 16)) ∧
      (s.night.staged.length < 2 → s.night.cur.isSome = true →
        (t.night.staged.getLast?.map fun k => (k.code, k.seq)) = some (0x05, s.night.seq))) ∧
    (s.power.mainRst = false → exec .mainWarnFall s =
      .next { s with power := { s.power with mainWarn := false }, gpio := { s.gpio with frozen := false } })

/-- R280, R283, R412, R421, R428, R432, R435, R496, R500: PORn_AON's release loads the held values and reads the NVM, the main reset's
release starts the main domain, the PLLs' lock writes the held values and begins the start-up march, and the invalidations end. WCAUSE at
the main reset's release, and a virgin nonvolatile array, are the model's choices (notes/assumptions/2.md and 34.md). -/
def Obligations.StartUpRuns : Prop :=
  ∀ s : State,
    (s.power.pornAon = false → AgentIdle s → ∃ t, exec .pornAonRelease s = .next t ∧
      t.power.pornAon = true ∧ t.power.restored = true ∧ t.power.state = .vesperOnly ∧ t.power.wantMain = true ∧
      t.power.wipePend = s.night.row0 ∧ t.power.mainRst = s.power.mainRst ∧
      t.night.lcState = lcOf s.night.lcRows ∧ t.night.slots = s.night.slots ∧ t.night.param = s.night.param ∧
      t.dbg.level = lcDefault (lcOf s.night.lcRows) ∧
      (s.night.slots = [] → t.night.count = 0 ∧ t.night.newest = 1791 ∧ t.night.seq = 1) ∧
      ((s.night.current).1 = none →
        (∀ i, t.dict.held[i] = heldDefault i) ∧ t.dict.stValid = false ∧ t.dict.bootAuto = false ∧ t.dict.marchStartup = 1)) ∧
    (s.power.pornAon = true → s.power.restored = true → s.power.mainEn = true → s.power.mainRst = true → s.power.mainWarn = false →
      exec .mainResetRelease s = .next { s with
        power := { s.power with mainOk := true, vddmOk := true, rstnMain := true, mainRst := false, state := .run,
                                wcause := if 2 ≤ s.power.vcause.toNat then 3 else s.power.wcause },
        gpio := { s.gpio with frozen := false } }) ∧
    (s.power.mainRst = false → s.power.state = .run → s.power.lockA = false → AgentIdle s → s.ring.deferred = [] →
      ∃ t, exec .pllLock s = .next t ∧ t.power.lockA = true ∧ t.power.lockB = true ∧ t.power.heldDone = true ∧
        t.dict.bootWait = s.dict.bootAuto ∧ t.fabric.win = BitVec.ofNat 5 (s.dict.held[(42 : Fin 43)].toNat / 2 ^ 27) ∧
        (s.spad.initDone = false → s.power.wipePend = false → s.march.busy = false →
          (s.dict.marchStartup.getLsbD 0 = true →
            t.march = { s.march with runAlg := s.dict.marchStartup.getLsbD 1, busy := true, startup := true, destroying := true,
                                     runBanks := List.range 96, banks := List.range 96, slices := [], slice := none, stopping := false,
                                     elem := 0, defer := 0 }) ∧
          (s.dict.marchStartup.getLsbD 0 = false → t.march = s.march))) ∧
    (∀ c : CoreId, s.mainRuns = true → s.core[c].invBusy = true → s.core[c].rstWait = false → exec (.cacheInvalidateDone c) s = .next { s with
      core := s.core.set c { s.core[c] with invBusy := false },
      power := { s.power with crst := s.power.crst &&& ~~~(1#16 <<< c.val) } })

/-- R281, R422, R423, R425 to R432, R434: power requests, NAP, DOZE, the clock registers, the per-core reset, Vesper time and its alarm.
LOCKA in NAP and the clearing of LC_PIN are the model's choices (notes/assumptions/34.md). -/
def Obligations.PowerStatesChange : Prop :=
  ∀ (s : State) (w : Agent) (v : Word),
    let pw (f : Power → Power) : State := { s with power := f s.power }
    (MayWrite s w .pwrCtl →
      exec (.pwrReqNap w) s = .next (pw fun p => { p with pend := 1 }) ∧
      exec (.pwrReqVesperOnly w) s = .next (pw fun p => { p with pend := 2 }) ∧
      exec (.pwrReqCancel w) s = .next (pw fun p => { p with pend := 0 })) ∧
    (MayWrite s w .clkPlla → exec (.clkPllaWrite w v) s = .next (pw fun p =>
      if 0x10 ≤ v.toNat % 64 ∧ v.toNat % 64 ≤ 0x20 then { p with amul := BitVec.ofNat 6 v.toNat, relock := true }
      else { p with clkErr := true })) ∧
    exec .pllaRelock s = .next (pw fun p => { p with relock := false }) ∧
    (∀ hi, MayWrite s w (.clkCdiv hi) → ∃ t, exec (.clkCdivWrite w hi v) s = .next t ∧
      t = pw (fun p => { p with cdiv := t.power.cdiv }) ∧ ∀ c : CoreId, t.power.cdiv[c] =
        if c.val / 8 = (if hi then 1 else 0) then BitVec.ofNat 4 (v.toNat / 16 ^ (c.val % 8)) else s.power.cdiv[c]) ∧
    (MayWrite s w .clkSdiv → exec (.clkSdivWrite w v) s = .next (pw fun p => { p with sdiv := BitVec.ofNat 5 v.toNat })) ∧
    (MayWrite s w .vtLo → ∃ t, exec (.vtLoWrite w v) s = .next t ∧ t = pw (fun p => { p with vt := t.power.vt }) ∧
      t.power.vt.toNat = v.toNat + 2 ^ 32 * s.power.vtHold.toNat) ∧
    (MayRead s w .vtLo → exec (.vtLoRead w) s = .next (pw fun p =>
      if w = .debug then { p with vtLatchDbg := BitVec.ofNat 16 (p.vt.toNat / 2 ^ 32) }
      else { p with vtLatch := BitVec.ofNat 16 (p.vt.toNat / 2 ^ 32) })) ∧
    (s.power.almEn = true → s.power.vt.toNat = s.power.almLo.toNat + 2 ^ 32 * s.power.almHi.toNat → s.power.state = .run →
      s.power.mainRst = false → ∃ t, exec .vesperAlarm s = .next t ∧ Raised s t 356 s.power.almLo) ∧
    (s.power.almEn = true → s.power.vt.toNat = s.power.almLo.toNat + 2 ^ 32 * s.power.almHi.toNat → s.power.state = .vesperOnly →
      s.power.mainRst = true → s.power.awake = true → s.power.wantMain = false → exec .vesperAlarm s = .next (pw fun p =>
        { p with wantMain := true, mainEn := p.mainEn || p.fastClk, wcause := 2 })) ∧
    (∀ c : CoreId,
      let core (f : Core → Core) : State := { s with core := s.core.set c (f s.core[c]) }
      (s.mayDoze c = true → exec (.dozeEntry c) s = .next (core fun k => { k with dozed := true, dozeWake := false })) ∧
      (s.mainRuns = true → s.power.state = .run → s.core[c].dozed = true → s.core[c].dozeWake = true →
        ∃ t, exec (.dozeExit c) s = .next t ∧ UptoEvents (core fun k => { k with dozed := false, dozeWake := false }) t) ∧
      (MayWrite s w .pwrCrst → s.core[c].sb ≠ [] → exec (.coreSoftReset w c) s = .next
        { (core fun k => { k with rstWait := true }) with power := { s.power with crst := s.power.crst ||| (1#16 <<< c.val) } }) ∧
      (MayWrite s w .pwrCrst → s.core[c].sb = [] → ∃ t, exec (.coreSoftReset w c) s = .next t ∧
        t.power.crst = s.power.crst ||| (1#16 <<< c.val) ∧ t.core[c].invBusy = true ∧ t.core[c].chkDone = s.core[c].chkDone ∧
        t.core[c].ram = s.core[c].ram ∧ t.core[c].patch = s.core[c].patch ∧ t.core[c].staging = [] ∧ t.core[c].halted = false ∧
        (∀ x, let u := t.ctx c x
          u.st = .idle ∧ u.pc = 0x10000000 ∧ u.priv = 0 ∧ u.longs = [] ∧ u.dstk = (s.ctx c x).dstk ∧ u.rstk = (s.ctx c x).rstk) ∧
        (∀ d y, d ≠ c → t.ctx d y = s.ctx d y) ∧ t.spad = s.spad ∧ t.transit = s.transit)) ∧
    (s.power.pend = 1 → s.mainRuns = true → s.power.state = .run → s.power.relock = false → s.spad.initDone = true →
      (∀ c : CoreId, s.core[c].dozed = true ∧ s.core[c].dozeWake = false) → s.quietMasters = true → ∃ t, exec .napEntry s = .next t ∧
        t.power = { s.power with pend := 0, state := .nap, napWake := false, lockA := false, lockB := false, vddmLow := true,
                                 vddmOk := false } ∧
        t.spad = { s.spad with asleep := true } ∧
        (∀ c : CoreId, t.core[c].ram = [] ∧ t.core[c].patch = Vector.replicate 64 0 ∧ t.core[c].lc = Vector.replicate 48 {} ∧
          t.core[c].lcPin = 0 ∧ t.core[c].dozed = true ∧ ∀ x, t.ctx c x = { s.ctx c x with fbuf := [], btbAt := none, ahead := none }) ∧
        (∀ n : Fin 4, s.ports.ms[n].state = .locked ∨ s.ports.ms[n].state = .acquire →
          t.ports.ms[n].state = if s.ports.ms[n].ownBeam n then s.ports.ms[n].state else .holdover) ∧
        (∀ p : Fin 8, t.ports.port[p].out = [] ∧ t.ports.port[p].trim = 0 ∧ t.portDrives p = false) ∧
        t.night = s.night ∧ t.ring = s.ring ∧ t.ev = s.ev) ∧
    (s.power.state = .nap → s.power.napWake = true → s.power.mainRst = false → AgentIdle s → s.fabric.held = [] →
      (∀ tb : TbId, (s.transit.tb[tb]).pause = none) → ∃ t, exec .napExit s = .next t ∧ UptoEvents
        (pw fun p => { p with state := .run, napWake := false, lockA := true, lockB := true, vddmLow := false }) t) ∧
    (s.spad.asleep = true → s.power.mainRst = false → s.power.state = .run → AgentIdle s → s.fabric.held = [] →
      exec .bankWake s = .next { (pw fun p => { p with vddmOk := true }) with spad := { s.spad with asleep := false } })

/-! ## Scratchpad upkeep and the march engine (R103, R265, R278 to R289) -/

/-- R265, R278 to R280, R284: a corrected word is written back in a cycle in which its bank grants no master; the wipe, for which a cause or
power-up asks, clears the secure region and its reservations and nothing else, and abandons a slice borrowed there; start-up
zeroes every bank. Wipes as one row are the model's choice (notes/assumptions/36.md). -/
def Obligations.WipesAndZeroing : Prop :=
  ∀ s : State,
    let m := s.spad
    let quiet : Prop := AgentIdle s ∧ s.fabric.held = []
    (∀ a : Word, let w := a.toNat / 4 * 4
      (w ∈ m.wback → s.wordFree w = true → exec (.spadEccWriteback a) s = .next { s with spad := { m with
        wback := m.wback.filter (· ≠ w), corr := m.corr.filter (· ≠ w), sound := addNat m.sound w } }) ∧
      (w ∉ m.wback ∨ s.wordFree w = false → exec (.spadEccWriteback a) s = .next s)) ∧
    (s.power.wipePend = true → m.wipeDue = true ∨ m.initDone = false → s.mainRuns = true → m.asleep = false → m.wiping = false →
      (∀ sl, s.march.slice = some sl → isSecure (sliceWord sl.bank sl.index 0) = true →
        ∃ t, exec .wipeStart s = .next t ∧ t.march.slice = none ∧ t.spad = { m with wiping := true }) ∧
      ((∀ sl, s.march.slice = some sl → isSecure (sliceWord sl.bank sl.index 0) = false) →
      ∃ t, exec .wipeStart s = .next t ∧ t = { s with core := t.core, spad := { m with wiping := true } } ∧
        (∀ c : CoreId, t.core[c] = { s.core[c] with ctx := t.core[c].ctx }) ∧
        ∀ c x, t.ctx c x = { s.ctx c x with
          rsv := match (s.ctx c x).rsv with
            | some g => if 0x02780000 ≤ 32 * g ∧ 32 * g < 0x02800000 then none else some g
            | none => none })) ∧
    (m.wiping = true → m.initDone = true → quiet → s.power.mainRst = false → ∃ t, exec .wipeDone s = .next t ∧
      t.spad.wiping = false ∧ t.spad.wipeDue = false ∧ t.power.wipePend = false ∧
      (∀ a, 0x02780000 ≤ a → a < 0x02800000 → t.spad.byte a = 0) ∧
      (∀ a, (a < 0x02780000 ∨ 0x02800000 ≤ a) → t.spad.byte a = m.byte a) ∧
      ((s.src 210).en = true → (t.src 210).pend = true) ∧ (∀ c x, t.ctx c x = s.ctx c x) ∧ t.transit = s.transit) ∧
    (s.mainRuns = true → m.initDone = false → s.march.busy = false → s.power.wipePend = false → m.wiping = false → quiet →
      s.dict.marchStartup.getLsbD 0 = false → ∃ t, exec .zeroingDone s = .next t ∧
        t.spad.initDone = true ∧ t.spad.bad = [] ∧ t.spad.corr = [] ∧ (∀ a, t.spad.byte a = 0) ∧
        ((∀ c : CoreId, s.core[c].chkFail = false) → t = { s with spad := t.spad }))

/-- R265, R282 to R288: START, STOP, the elements, slices and end of a march run. A read that does not give what its element expects is a
failure, with its bank, its count and the address of the first; a destroying run leaves its banks zero and drops the reservations and
vector copies there, a preserving one saves each slice and puts back what was there. The engine does nothing while a wipe runs or the
banks are asleep. -/
def Obligations.MarchRunsTest : Prop :=
  ∀ (s : State) (w : Agent) (v : Word),
    let m := s.march
    let ctl (m : March) : March := { m with alg := v.getLsbD 2, mode := v.getLsbD 3, gap := BitVec.ofNat 8 (v.toNat / 256),
                                            cont := v.getLsbD 16 }
    let banks := m.selected
    let runs : Prop := m.busy = true ∧ s.spad.wiping = false ∧ s.spad.asleep = false
    let quiet : Prop := AgentIdle s ∧ s.fabric.held = []
    let borrowed (b k : Nat) : Slice :=
      { bank := b, index := k, phase := 0, shadow := (List.range 64).map fun i => s.spad.word (sliceWord b k i) }
    let onward (sl : Slice) : Slice :=
      if sl.phase < 6 then { sl with phase := sl.phase + 1, serves16 := sl.asks16, asks16 := false, window := false }
      else { sl with phase := sl.phase + 1 }
    (MayWrite s w .marchCtl →
      (m.busy = true → exec (.marchStart w v) s = .next { s with march := { ctl m with refused := true } }) ∧
      (m.busy = false → v.getLsbD 3 = true → (∃ b ∈ banks, s.bankCounted b = true) →
        exec (.marchStart w v) s = .next { s with march := { ctl m with refused := true } }) ∧
      (m.busy = false → v.getLsbD 3 = true → (∀ b ∈ banks, s.bankCounted b = false) → ∃ t, exec (.marchStart w v) s = .next t ∧
        t = { s with core := t.core, march := { ctl m with
          busy := true, startup := false, destroying := true, runAlg := v.getLsbD 2, runBanks := banks, banks := banks, slices := [],
          aborts := [], stopping := false, slice := none, elem := 0, defer := 0 } } ∧
        (∀ c : CoreId, t.core[c] = { s.core[c] with
          ctx := t.core[c].ctx
          fvecOk := if banks.any (fun b => b / 4 == c.val && b < 64) then Vector.replicate 8 false else s.core[c].fvecOk }) ∧
        ∀ c x, t.ctx c x = { s.ctx c x with
          rsv := (s.ctx c x).rsv.bind fun g => if bankOf (32 * g) ∈ banks then none else some g }) ∧
      (∀ b rest, m.busy = false → v.getLsbD 3 = false → banks = b :: rest → s.bankCounted b = false →
        ∃ t, exec (.marchStart w v) s = .next t ∧ t = { s with march := t.march } ∧ t.march.busy = true ∧ t.march.destroying = false ∧
          t.march.runAlg = v.getLsbD 2 ∧ t.march.banks = banks ∧ t.march.bank = BitVec.ofNat 7 b ∧
          t.march.slices = (List.range (sliceCount b)).drop 1 ∧ t.march.slice = some (borrowed b 0)) ∧
      (m.busy = true → m.destroying = true → m.stopping = false → ∃ t, exec (.marchStop w v) s = .next t ∧
        t.march = { ctl m with banks := [], stopping := true } ∧
        (∀ a, bankOf a ∉ m.banks → t.spad.byte a = s.spad.byte a) ∧ (∀ c x, t.ctx c x = s.ctx c x)) ∧
      (m.busy = true → m.destroying = false →
        (m.slice ≠ none → exec (.marchStop w v) s = .next { s with march := { ctl m with stopping := true, defer := 0 } }) ∧
        (m.slice = none → exec (.marchStop w v) s =
          .next { s with march := { ctl m with stopping := true, defer := 0, banks := [], slices := [] } }))) ∧
    (∀ sl : Slice, runs → quiet → m.slice = some sl →
      (sl.phase = 0 → (∀ i < 64, s.spad.check (sliceWord sl.bank sl.index i) ≠ 2) → ∃ t, exec (.marchElementEnd []) s = .next t ∧
        t.march = { m with slice := some (onward sl) } ∧ t.spad = { s.spad with ecnt := t.spad.ecnt } ∧
        ((∀ i < 64, s.spad.check (sliceWord sl.bank sl.index i) = 0) → t.spad = s.spad) ∧
        ∀ c x, t.ctx c x = { s.ctx c x with served := (t.ctx c x).served }) ∧
      (1 ≤ sl.phase → sl.phase ≤ 6 →
        (∃ t, exec (.marchElementEnd []) s = .next t ∧ t.march = { m with slice := some (onward sl) } ∧
          t.spad = s.spad ∧ ∀ c x, t.ctx c x = { s.ctx c x with served := (t.ctx c x).served }) ∧
        (∀ (a k : Nat) (got x : Word) (d : MarchDir) (l : List MarchOp) (o : MarchOp), bankOf a = sl.bank → (sliceOf a).1 = sl.index →
          (marchElements m.runAlg)[sl.phase - 1]? = some (d, l) → l[k]? = some o → o.expects = some x → got ≠ x →
          m.faddrSet = false → s.power.mainRst = false → ∃ t, exec (.marchElementEnd [(a, k, got)]) s = .next t ∧
            t.march.fail = true ∧ t.march.faddr = BitVec.ofNat 32 a ∧ t.march.fails = satInc m.fails ∧ t.spad = s.spad ∧
            (t.march.failed[(⟨bankOf a / 32 % 3, by omega⟩ : Fin 3)]).getLsbD (bankOf a % 32) = true ∧
            t.march.slice = some (onward sl) ∧
            ((s.src 208).en = true → (t.src 208).pend = true ∧ (t.src 208).payload = BitVec.ofNat 32 a)))) ∧
    (runs → m.slice = none → m.destroying = true → m.elem < 6 →
      exec (.marchElementEnd []) s = .next { s with march := { m with elem := m.elem + 1 } }) ∧
    (s.spad.wiping = true ∨ s.spad.asleep = true → ∀ got,
      exec (.marchElementEnd got) s = .next s ∧ exec .marchSliceEnd s = .next s) ∧
    (∀ sl : Slice, runs → quiet → m.destroying = false → m.slice = some sl → sl.phase = 7 → sl.skip = false → sl.shadow.length = 64 →
      sl.bank < 96 → sl.index < sliceCount sl.bank → ∃ t, exec .marchSliceEnd s = .next t ∧
        (∀ i < 64, t.spad.word (sliceWord sl.bank sl.index i) = sl.shadow.getD i 0) ∧
        (∀ a, (∀ i < 64, a < sliceWord sl.bank sl.index i ∨ sliceWord sl.bank sl.index i + 4 ≤ a) → t.spad.byte a = s.spad.byte a) ∧
        t.march.slice = none ∧ ∀ c x, t.ctx c x = s.ctx c x) ∧
    (∀ b rest k ks, runs → m.destroying = false → m.slice = none → m.banks = b :: rest → m.slices = k :: ks → s.bankCounted b = false →
      ∃ t, exec .marchSliceEnd s = .next t ∧ t = { s with march := t.march } ∧ t.march.banks = m.banks ∧ t.march.slices = ks ∧
        t.march.slice = some (borrowed b k)) ∧
    (m.busy = true → s.spad.wiping = false → m.startup = false → s.power.mainRst = false → quiet →
      let ended (t : State) : Prop :=
        t.march = { m with busy := false, done := true, banks := [], slices := [], slice := none, stopping := false, destroying := false,
                           defer := 0 } ∧ ((s.src 209).en = true → (t.src 209).pend = true) ∧ ∀ c x, t.ctx c x = s.ctx c x
      (m.destroying = true → m.stopping = true ∨ m.elem = 6 → ∃ t, exec .marchRunEnd s = .next t ∧ ended t ∧
        (∀ a, bankOf a ∈ m.banks → t.spad.byte a = 0) ∧ ∀ a, bankOf a ∉ m.banks → t.spad.byte a = s.spad.byte a) ∧
      (m.destroying = false → m.banks = [] → m.slice = none → m.cont = false ∨ m.stopping = true →
        ∃ t, exec .marchRunEnd s = .next t ∧ ended t ∧ t.spad = s.spad))

/-! ## Line cache, pinned window, store buffer, fabric and flash ports (R292 to R317, R442 to R446) -/

/-- R292, R294, R295, R298, R300, R302, R306, R307, R311: fills, with the core's buffered stores laid over a fabric line, ages, pinned
slots, copies, LC_CTL and FAB_WIN. -/
def Obligations.LinesAreKept : Prop :=
  ∀ (s : State) (w : Agent) (c : CoreId) (v : Word),
    let k := s.core[c]
    let core (f : Core → Core) : State := { s with core := s.core.set c (f k) }
    let written (f : Core → Core) : State := { s with core := s.core.set c (f { k with dozeWake := k.dozeWake || k.dozed }) }
    (∀ (i : Fin 4) (m : Miss) (d₀ : Line), k.miss[i] = some m → m.got = some (.data d₀) → m.snooped = false → m.debug = false →
      k.cacheOn = true → let d := s.overlay c m.line d₀; (isFabLine m.line = false → d = d₀) ∧ ∃ t, exec (.lineFillArrival c i) s = .next t ∧ t = { s with core := t.core } ∧
        (∀ e, e ≠ c → t.core[e] = s.core[e]) ∧ t.core[c].miss = k.miss.set i none ∧ t.core[c].prevFill = some m.line ∧
        (∃ e : Fin 48, pinned k e = false ∧ t.core[c].lc = k.lc.set e { valid := true, line := m.line, age := t.core[c].lc[e].age, data := d }) ∧
        t.core[c].pinData = k.pinData ∧ t.core[c].sb = k.sb ∧
        ∀ x, t.ctx c x = { s.ctx c x with fbuf := (t.ctx c x).fbuf, ahead := (t.ctx c x).ahead, served :=
          if x ∈ m.users ∧ (s.ctx c x).waitFor = some (.line (lineBase m.line)) then some (.line (lineBase m.line) (.ok d))
          else (t.ctx c x).served }) ∧
    (k.ageDue = true → ∃ t, exec (.lcAgeTick c) s = .next t ∧ t = core (fun k => { k with ageDue := false, lc := t.core[c].lc }) ∧
      ∀ i : Fin 48, t.core[c].lc[i] =
        if pinned k i = false ∧ k.lc[i].valid = true then { k.lc[i] with age := satInc k.lc[i].age } else k.lc[i]) ∧
    (MayWrite s w (.lcPin c) → ∃ t, exec (.lcPinWrite w c v) s = .next t ∧
      t = written (fun k => { k with lcPin := v, lc := t.core[c].lc, pinData := t.core[c].pinData, victims := t.core[c].victims }) ∧
      (∀ e : Fin 48, 32 ≤ e.val → t.core[c].lc[e] = k.lc[e]) ∧ ∀ i : Fin 32,
        (k.lcPin.getLsbD i.val = v.getLsbD i.val →
          t.core[c].pinData[i] = k.pinData[i] ∧ t.core[c].lc[entryIdx i] = k.lc[entryIdx i]) ∧
        (k.lcPin.getLsbD i.val ≠ v.getLsbD i.val → t.core[c].pinData[i] = 0 ∧ t.core[c].lc[entryIdx i] = {})) ∧
    (MayWrite s w (.lcPinld c) →
      let slot : Fin 32 := ⟨v.toNat % 32, by omega⟩
      let l := lineOf v
      (k.pinBusy = true ∨ k.lcPin.getLsbD slot.val = false ∨ (isFlashLine l = false ∧ isFabLine l = false) →
        exec (.lcPinld w c v) s = .next (written fun k => { k with pinErr := true })) ∧
      (∀ i : Fin 48, k.pinBusy = false → k.lcPin.getLsbD slot.val = true → isFlashLine l = true ∨ isFabLine l = true → k.find l = some i →
        k.lc[i].badPar = 0 → exec (.lcPinld w c v) s = .next (written fun k =>
          { k with pinBusy := true, pinld := some { slot := slot, line := l, got := some (.data k.lc[i].data) } }))) ∧
    (∀ (p : PinLd) (d : Line), k.pinld = some p → p.got = some (.data d) → k.lcPin.getLsbD p.slot.val = true →
      exec (.pinldDone c) s = .next (core fun k => { k with pinld := none, pinBusy := false, pinData := k.pinData.set p.slot d })) ∧
    (MayWrite s w (.lcCtl c) → ∃ t, exec (.lcCtlWrite w c v) s = .next t ∧
      let off := k.lcEn && !v.getLsbD 0
      t = written (fun k => { k with lcEn := v.getLsbD 0, pfEn := v.getLsbD 1, strmEn := v.getLsbD 2, vcEn := v.getLsbD 3,
                                     invBusy := k.invBusy || off, lc := t.core[c].lc,
                                     victims := if v.getLsbD 3 && !off then k.victims else [] }) ∧
      ∀ i : Fin 48, t.core[c].lc[i] = if off && !pinned k i then { k.lc[i] with valid := false } else k.lc[i]) ∧
    (MayWrite s w .fabWin → ∃ t, exec (.fabWinWrite w v) s = .next t ∧
      t = { s with core := t.core, flash := t.flash, fabric := { s.fabric with win := BitVec.ofNat 5 (v.toNat / 2 ^ 27) } } ∧
      ∀ (d : CoreId) (i : Fin 48), t.core[d].lc[i] =
        if !pinned s.core[d] i && isFabLine s.core[d].lc[i].line then { s.core[d].lc[i] with valid := false } else s.core[d].lc[i])

/-- R304, R306, R307, R313 to R317, R442, R444 to R446: requests leave in order, are accepted, and their responses reach what asked; the
fabric slave answers, with an error for a failed parity, a word that cannot be corrected (R265) and the secure region (R277), and in NAP
the request waits and ends NAP (R429). That fabric.resp holds the last command's responses is the model's choice (notes/assumptions/32.md). -/
def Obligations.PortsServe : Prop :=
  ∀ (s : State) (c : CoreId),
    let k := s.core[c]
    let f := s.fabric
    let idle : Prop := f.queue = [] ∧ f.shown = none ∧ f.out = []
    let others (t : State) : Prop := (∀ d, d ≠ c → t.core[d] = s.core[d]) ∧ t.spad = s.spad ∧ t.night = s.night ∧ t.dict = s.dict
    (∀ (e : SbEntry) (rest : List SbEntry), s.mainRuns = true → k.sb = e :: rest → e.sent = false → (∀ q ∈ rest, q.id ≠ e.id) → idle →
      ∃ t, exec (.storeBufferSend c) s = .next t ∧ others t ∧ t.core[c] = { k with sb := { e with sent := true } :: rest } ∧
        t.fabric.shown = some { core := c, kind := .write e.id e.data e.be e.ctx, addr := e.addr, tag := 0 } ∧ t.fabric.queue = [] ∧
        t.fabric.out = []) ∧
    (∀ r, f.shown = some r → f.queue = [] → ∃ t, exec .fabricRequestAccept s = .next t ∧
      UptoEvents { s with fabric := { f with shown := none, out := f.out ++ [r] } } t) ∧
    (∀ (r : FabReq) (id : Nat) (d : Word) (be : BitVec 4) (x : CtxId), AgentIdle s → f.queue = [] → f.shown = none → f.out = [r] →
      r.core = c → r.kind = .write id d be x → s.fabToCached r.addr = none → k.rstWait = false → (∀ e ∈ k.sb, e.id = id → e.debug = false) →
      exec (.fabricWriteResponse r.tag false) s = .next { s with
        core := s.core.set c { k with sb := k.sb.filter fun e => e.id ≠ id }, fabric := { f with out := [] } }) ∧
    (∀ (r : FabReq) (x : CtxId) (a : Word) (l : Line), AgentIdle s → f.queue = [] → f.shown = none → f.out = [r] →
      r.core = c → r.kind = .load x a → (s.ctx c x).waitFor = some (.fabric a) →
      ∃ t, exec (.fabricReadResponse r.tag l false) s = .next t ∧ t = { (s.modCtx c x fun u =>
        { u with served := some (.line (lineBase (lineOf a)) (.ok l)), fbuf := (t.ctx c x).fbuf, ahead := (t.ctx c x).ahead }) with
        fabric := { f with out := [] } }) ∧
    (∀ (a : Word), s.power.mainRst = false → a.toNat / 2 ^ 27 = f.win.toNat → ∃ t, exec (.snoop a true) s = .next t ∧
      (∀ (d : CoreId) (i : Fin 48), t.core[d].lc[i] =
        if !pinned s.core[d] i && s.core[d].lc[i].line == lineOf (0x20000000#32 ||| (a &&& 0x07FFFFFF)) then
          { s.core[d].lc[i] with valid := false } else s.core[d].lc[i]) ∧ t.spad = s.spad ∧ t.fabric = f) ∧
    (∀ r : FlashReq, s.mainRuns = true → s.flash.pen = true → s.flash.shown = none → (∀ t : Fin 4, s.flash.tags[t] = none) →
      s.flash.queue = [r] → ∃ t, exec .flashPortIssue s = .next t ∧ UptoEvents { s with flash :=
        { s.flash with tags := s.flash.tags.set 0 (some r), shown := some 0, queue := [], rr := r.owner + 1 } } t) ∧
    exec .flashRequestGrant s = .next { s with flash := { s.flash with shown := none } } ∧
    (∀ (g : Fin 4) (r : FlashReq) (d : Word), AgentIdle s → s.power.mainRst = false → s.flash.shown = none → s.flash.tags[g] = some r → r.cmd = 0 →
      (r.beats.length < 7 → exec (.flashReadBeat g d false true) s = .next { s with flash := { s.flash with
        tags := s.flash.tags.set g (some { r with beats := r.beats ++ [d] }) } }) ∧
      (∀ (i : Fin 4) (m : Miss), r.beats.length = 7 → r.err = false → r.users = [.fill c i] → k.miss[i] = some m →
        m.line = r.line → m.got = none →
        ∃ t, exec (.flashReadBeat g d false true) s = .next t ∧ t.flash.tags = s.flash.tags.set g none ∧ others t ∧
          t.core[c] = { k with miss := k.miss.set i (some { m with
            got := some (.data (ofBytes 256 ((r.beats ++ [d]).flatMap (toBytes 4)))) }) })) ∧
    (∀ (g : Fin 4) (r : FlashReq), AgentIdle s → s.power.mainRst = false → s.flash.shown = none → s.flash.tags[g] = some r → r.cmd = 1 →
      ∃ t, exec (.flashWriteAck g false) s = .next t ∧ t.flash.tags[g] = none ∧ t.flash.werr = s.flash.werr ∧ t.spad = s.spad ∧
        ∀ (d : CoreId) (i : Fin 48), t.core[d].lc[i] =
          if !pinned s.core[d] i && s.core[d].lc[i].line == r.line then { s.core[d].lc[i] with valid := false } else s.core[d].lc[i]) ∧
    (∀ (w : Agent) (v : Word), AgentIdle s → MayWrite s w .flCtl → v.getLsbD 0 = true →
      exec (.flCtlWrite w v) s = .next { s with flash := { s.flash with pen := true, parchk := v.getLsbD 1 } }) ∧
    (∀ (write : Bool) (a d : Word) (be : BitVec 4) (tag : Fin 16), s.power.mainRst = false →
      let resp (p : SlaveResp) : State := { s with fabric := { f with resp := [p] } }
      (∃ t, exec (.fabricSlaveRequest write a d be tag false) s = .next t ∧ UptoEvents (resp ⟨write, tag, 0, true⟩) t) ∧
      (s.power.state = .nap → ∃ t, exec (.fabricSlaveRequest write a d be tag true) s = .next t ∧ t.power.napWake = true ∧
        t.fabric = { f with resp := [], held := f.held ++ [(write, a &&& 0xFFFFFFFC, d, be, tag)] } ∧ t.spad = s.spad) ∧
      (s.mainRuns = true → s.power.state = .run → s.wordFree a.toNat = true → a.toNat % 4 = 0 →
        (0x01000000 ≤ a.toNat ∧ a.toNat < 0x01400000) ∨ (0x02000000 ≤ a.toNat ∧ a.toNat < 0x02780000) →
        s.destroyed a.toNat = false → s.borrowed a.toNat = none →
        (s.spad.check a.toNat = 0 → ∃ t, exec (.fabricSlaveRequest false a d be tag true) s = .next t ∧
          UptoEvents { resp ⟨false, tag, valueAt s a.toNat 4, false⟩ with
            freeCtr := t.freeCtr, spad := { s.spad with conf := t.spad.conf, rr := t.spad.rr } } t) ∧
        (s.spad.check a.toNat = 2 → ∃ t, exec (.fabricSlaveRequest false a d be tag true) s = .next t ∧
          t.fabric = { f with resp := [⟨false, tag, 0, true⟩] } ∧
          t.spad = { s.spad with conf := t.spad.conf, rr := t.spad.rr, uncorr := true, eaddr := BitVec.ofNat 32 a.toNat }) ∧
        (be = 0xF → ∃ t, exec (.fabricSlaveRequest true a d be tag true) s = .next t ∧
          t.fabric.resp = [⟨true, tag, 0, false⟩] ∧ Stored s t a.toNat 4 .plain d ∧ t.night = s.night)) ∧
      (s.mainRuns = true → s.power.state = .run → a.toNat % 4 = 0 → 0x02780000 ≤ a.toNat → a.toNat < 0x02800000 →
        ∃ t, exec (.fabricSlaveRequest write a d be tag true) s = .next t ∧ t.fabric.resp = [⟨write, tag, 0, true⟩] ∧
          t.spad = { s.spad with secErr := true, serrOffs := BitVec.ofNat 23 (a.toNat - 0x02000000), serrMaster := 19 }))

/-! ## Events (R325 to R351) -/

/-- R325, R326, R328, R329, R340, R349, R350: what raises a source: a cause, the level of an input, a timer that expires, EV_SWSET; and
what EV_SRCs writes, where an inversion that ends an active level counts a record that is outstanding and undelivered. -/
def Obligations.SourcesAreRaised : Prop :=
  ∀ (s : State) (w : Agent), s.power.mainRst = false →
    (∀ (n : SrcId) (p : Word), isLevel n.val (s.src n.val) = false → ∃ t, exec (.sourceRaise n p) s = .next t ∧
      SourcesOnly s t [n.val] ∧
      ((s.src n.val).en = true → srcKind n.val ≠ .reserved → let u := s.src n.val
        let v := t.src n.val
        v.pend = true ∧ v.payload = p ∧ v.mrg = (if u.pend then satInc u.mrg else u.mrg) ∧
        (u.pend = true → u.cls = false → s.core[u.core].qfull = true → v.merged = true ∧ v.ovf = satInc u.ovf))) ∧
    (∀ (n : SrcId) (p : Word), isLevel n.val (s.src n.val) = true → (s.src n.val).inv = false → ∃ t, exec (.sourceRaise n p) s = .next t ∧
      SourcesOnly s t [n.val] ∧ let u := s.src n.val
      (t.src n.val).level = true ∧
      (u.level = false → u.en = true → u.out = none → (t.src n.val).pend = true ∧ (t.src n.val).payload = p)) ∧
    (∀ (k : Fin 32) (level : Bool),
      let n := 368 + k.val
      let u := s.src n
      ∃ t, exec (.evtInChange k level) s = .next t ∧
        (∀ j < 32, t.ev.evtIn.getLsbD j = if j = k.val then level else s.ev.evtIn.getLsbD j) ∧
        (t.src n).level = level ∧ (∀ m, m ≠ n → t.src m = s.src m) ∧
        (u.en = true → u.level ≠ level → u.inv = false →
          (u.kind = 0 → u.pend = false → (t.src n).pend = level) ∧ (u.kind = 1 → u.pend = false → (t.src n).pend = !level) ∧
          (u.kind = 2 → (t.src n).pend = true) ∧ (u.kind = 3 → u.out = none → u.pend = false → (t.src n).pend = level))) ∧
    (∀ n : Fin 32, let tm := s.ev.timer[n]
      s.mainRuns = true → tm.en = true → tm.cnt = 0 → ∃ t, exec (.timerExpiry n) s = .next t ∧
        ((s.src (112 + n.val)).en = true → (t.src (112 + n.val)).pend = true) ∧
        t.ev.timer = s.ev.timer.set n (if tm.per then { tm with cnt := tm.load } else { tm with en := false }) ∧
        (∀ m, m ≠ 112 + n.val → t.src m = s.src m)) ∧
    (∀ v : Word, MayWrite s w .evSwset → ∃ t, exec (.evSwset w v) s = .next t ∧
      SourcesOnly s t ((List.range 16).map (400 + ·)) ∧
      ∀ k < 16, (v.getLsbD k = false → t.src (400 + k) = s.src (400 + k)) ∧
        (v.getLsbD k = true → (s.src (400 + k)).en = true → (t.src (400 + k)).pend = true ∧
          (t.src (400 + k)).payload = match w with | .ctx c x => s.coreId c x | _ => 0x7F00)) ∧
    (∀ (n : SrcId) (v : Word), MayWrite s w (.evSrc n) →
      let core : CoreId := ⟨v.toNat / 256 % 16, by omega⟩
      let slot : Fin 8 := ⟨v.toNat / 4 % 8, by omega⟩
      srcKind n.val = .pulse →
      (v.getLsbD 0 = true → v.getLsbD 1 = true →
        (∃ q ∈ s.ev.src, q.1 ≠ n.val ∧ q.2.en = true ∧ q.2.cls = true ∧ q.2.core = core ∧ q.2.fslot = slot) →
        exec (.evSrcWrite w n v) s = .next { s with ev := { s.ev with routeErr := true } }) ∧
      (v.getLsbD 1 = false → ∃ t, exec (.evSrcWrite w n v) s = .next t ∧
        let u := s.src n.val
        t.src n.val = { u with en := v.getLsbD 0, cls := false, fslot := slot, core := core, inv := false,
                               pend := u.pend && v.getLsbD 0, mrg := if v.getLsbD 0 then u.mrg else 0,
                               merged := u.merged && v.getLsbD 0 } ∧
        (∀ m, m ≠ n.val → t.src m = s.src m) ∧ t = { s with ev := { s.ev with src := t.ev.src } })) ∧
    (∀ (n : SrcId) (d : CoreId) (i : BitVec 13), MayWrite s w (.evSrc n) → srcKind n.val = .prog →
      let u := s.src n.val
      u.kind = 3 → u.inv = false → u.level = true → u.out = some (d, i) → u.delivered = false →
      ∃ t, exec (.evSrcWrite w n 0x7001) s = .next t ∧ (t.src n.val).inv = true ∧ (t.src n.val).pend = false ∧
        (∀ m, m ≠ n.val → t.src m = s.src m) ∧
        t.core = s.core.set d { s.core[d] with evSpur := true, spurCnt := satInc s.core[d].spurCnt } ∧ t.spad = s.spad)

/-- R330, R332, R333, R335 to R346: fast entries, which save a routine that stands at a trap point (R57), records, the ring of records,
hold-off, normal entries, and the copies of the fast vectors, of which one with an uncorrectable word is not valid
(notes/assumptions/65.md). -/
def Obligations.EventsAreDelivered : Prop :=
  ∀ (s : State) (w : Agent) (c : CoreId),
    let k := s.core[c]
    let core (f : Core → Core) : State := { s with core := s.core.set c (f k) }
    let written (f : Core → Core) : State := { s with core := s.core.set c (f { k with dozeWake := k.dozeWake || k.dozed }) }
    (∀ (n : Nat) (v : Source), s.fastOpen c = true → (s.ctx c fCtx).st = .idle → k.takeable = true → AsStored s c (entryStart true) →
      k.evWake = 0 →
      s.ev.src = [(n, v)] → n < 512 → v.en = true → v.cls = true → v.core = c → v.pend = true → isLevel n v = false →
      ∃ t, exec (.fastEntry c) s = .next t ∧
        (t.ctx c fCtx).st = .ready ∧ (t.ctx c fCtx).priv = 1 ∧
        (t.ctx c fCtx).pc = BitVec.ofNat 32 (k.fvecOffs.toNat * 0x100 + 0x20 * v.fslot.val) ∧
        (t.ctx c fCtx).returns = [BitVec.ofNat 32 (k.fvecOffs.toNat * 0x100 + 0x20 * v.fslot.val),
                                  BitVec.ofNat 32 (9 + 0x100 * v.fslot.val + 0x10000 * n)] ∧
        (t.ctx c fCtx).depth = 0 ∧ (t.src n).pend = false ∧ (t.src n).mrg = 0 ∧
        (∀ y, y ≠ fCtx → k.midRoutine ≠ some y → t.ctx c y = s.ctx c y) ∧
        (∀ y, y ≠ fCtx → k.midRoutine = some y → t.ctx c y = { s.ctx c y with slot := (t.ctx c y).slot } ∧ (t.ctx c y).slot.valid = true) ∧
        (∀ d, d ≠ c → t.core[d] = s.core[d]) ∧ t.spad = s.spad) ∧
    (∀ (n : Nat) (v : Source), s.mainRuns = true → s.ev.src = [(n, v)] → n < 512 → s.recordReady n = true →
      isLevel n v = false → v.core = c → s.march.slice = none →
      let a := k.recordAddr c
      s.wordFree a = true → s.destroyed a = false → k.evWake = 0 → ∃ t, exec .eventRecordWrite s = .next t ∧
        valueAt t a 4 = BitVec.ofNat 32 (n + 0x10000 * k.evSeq.toNat) ||| (if lvlOf n v then 0x200 else 0) |||
          (if v.tsk then 0x400 else 0) ||| (if v.merged then 0x800 else 0) ||| (v.mrg.setWidth 32 <<< 12) ∧
        valueAt t (a + 4) 4 = v.ts ∧ valueAt t (a + 8) 4 = v.tsh.setWidth 32 ∧ valueAt t (a + 12) 4 = v.payload ∧
        (∀ b, (b < a ∨ a + 16 ≤ b) → t.spad.byte b = s.spad.byte b) ∧
        t.core[c].evqWr = k.evqWr + 1 ∧ t.core[c].evSeq = k.evSeq + 1 ∧ (t.src n).pend = false ∧ (t.src n).mrg = 0 ∧
        t.ev.holdRun = s.ev.holdRun.set (groupOf n) s.ev.hold[groupOf n].toNat) ∧
    (∀ g : Fin 32, exec (.holdoffExpiry g) s = .next { s with ev := { s.ev with holdRun := s.ev.holdRun.set g 0 } }) ∧
    (∀ (x : CtxId), x = thr k.hthr → s.normalDue c = true → (s.ctx c x).st = .ready ∨ (s.ctx c x).st = .sleep → k.midRoutine = none →
      AsStored s c (entryStart false) → (s.ctx c x).impKnown = [] → (s.ctx c x).stopReq = false → (s.ctx c x).f16 = false → (∀ q ∈ s.ev.src, q.2.out = none) → (s.ctx c x).slot.valid = false →
      (s.ctx c x).longs = [] → ∀ l, Returns s c x l → RoomFor s c x 2 →
      ∃ t, exec (.normalEntry c) s = .next t ∧ t.core[c].active = true ∧ (t.ctx c x).st = .ready ∧ (t.ctx c x).pc = k.evqVec ∧
        (t.ctx c x).priv = k.hprivOf ∧ (t.ctx c x).rsv = none ∧
        Returns t c x (l ++ [(s.ctx c x).pc, (s.ctx c x).priv.setWidth 32 ||| (if (s.ctx c x).st = .sleep then 16 else 0)]) ∧ (t.ctx c x).dstk = (s.ctx c x).dstk ∧
        (∀ y, y ≠ x → t.ctx c y = s.ctx c y) ∧ t.spad = s.spad) ∧
    (∀ (x : CtxId), x = thr k.hthr → s.normalDue c = true → (s.ctx c x).st = .ready → k.midRoutine = none → (s.ctx c x).impKnown = [] →
      (s.ctx c x).stopReq = false → (s.ctx c x).f16 = true → exec (.normalEntry c) s = .next (core fun k => { k with htErr := true })) ∧
    (∀ v : Word, MayWrite s w (.evqBase c) → (∀ q ∈ s.ev.src, q.2.out = none) → exec (.evqBaseWrite w c v) s = .next (written fun k =>
      { k with qsize := BitVec.ofNat 4 v.toNat, evqOffs := BitVec.ofNat 14 (v.toNat / 16), evqWr := 0, evqRd := 0, evSeq := 0 })) ∧
    (∀ v : Word, MayWrite s w (.evqRd c) → (∀ q ∈ s.ev.src, q.2.out = none) →
      let rd : BitVec 13 := BitVec.ofNat 13 v.toNat
      exec (.evqRdWrite w c v) s = .next (written fun k =>
        if k.qrecs < (k.evqWr - rd).toNat then { k with rdErr := true } else { k with evqRd := rd })) ∧
    (MayRead s w (.evqWr c) → ∃ t, exec (.evqWrRead w c) s = .next t ∧ t = { s with ev := { s.ev with src := t.ev.src } } ∧
      ∀ n, t.src n = { s.src n with delivered := (s.src n).delivered ||
        ((s.src n).out.any (fun o => o.1 = c) && (match w with | .ctx .. => true | _ => false)) }) ∧
    (∀ g : Fin 8, s.mainRuns = true → (∃ q ∈ s.ev.src, q.2.en = true ∧ q.2.cls = true ∧ q.2.core = c ∧ q.2.fslot = g) →
      let a := localBase c + (k.fvecOffs.toNat * 0x100 + 0x20 * g.val) % 0x40000
      s.wordFree a = true → s.destroyed a = false →
      ((∀ i < 8, s.wordCheck (a + 4 * i) = 0) →
        exec (.fvecReload c g) s = .next (core fun k => { k with fvecOk := k.fvecOk.set g true })) ∧
      ((∃ i < 8, s.wordCheck (a + 4 * i) = 2) → ∃ t, exec (.fvecReload c g) s = .next t ∧ t.core[c].fvecOk = k.fvecOk.set g false ∧
        t.spad = { s.spad with ecnt := t.spad.ecnt, wback := t.spad.wback, uncorr := true, eaddr := t.spad.eaddr }))

/-! ## Pins (R111 to R113, R448 to R457) -/

/-- R112, R113, R325, R448 to R452, R455, R457: inputs and their filters, private-port writes, and the registers of the pins. What a filter does at
the end of its count is the model's choice (notes/assumptions/33.md). -/
def Obligations.PinsFollow : Prop :=
  ∀ (s : State) (w : Agent), s.power.mainRst = false →
    let g := s.gpio
    let same (k : Fin 64) (t : State) : Prop := ∀ j < 64, j ≠ k.val → t.gpio.fin.getLsbD j = g.fin.getLsbD j
    let rest (t : State) : Prop := t.spad = s.spad ∧ t.power.mainRst = false ∧ ∀ c x, t.ctx c x = s.ctx c x
    (∀ (k : Fin 64) (level : Bool), ∃ t, exec (.pinInputChange k level) s = .next t ∧
      (∀ j < 64, t.gpio.sync.getLsbD j = if j = k.val then level else g.sync.getLsbD j) ∧ same k t ∧ rest t ∧
      (g.fmode[k] = 0 → t.gpio.fin.getLsbD k.val = level ∧ t.gpio.frun.getLsbD k.val = false ∧ (t.src k.val).level =
        if g.fin.getLsbD k.val = level then (s.src k.val).level else level) ∧
      (g.fmode[k] = 2 → g.fcnt[k] ≠ 0 → g.frun.getLsbD k.val = false → t.gpio.fin.getLsbD k.val = level ∧
        t.gpio.frun.getLsbD k.val = (g.fin.getLsbD k.val != level)) ∧
      ((g.fmode[k] = 1 ∨ g.fmode[k] = 3) → 2 ≤ g.fcnt[k].toNat → t.gpio.fin.getLsbD k.val = g.fin.getLsbD k.val ∧
        t.gpio.frun.getLsbD k.val = (g.fin.getLsbD k.val != level))) ∧
    (∀ k : Fin 64, g.frun.getLsbD k.val = true → ∃ t, exec (.gpioFilterExpiry k) s = .next t ∧
      t.gpio.frun.getLsbD k.val = false ∧ t.gpio.fin.getLsbD k.val = g.sync.getLsbD k.val ∧ same k t ∧ rest t) ∧
    (∀ (c : CoreId) (m d : BitVec 64), g.writes = [(c, m, d)] → exec .pinWriteApply s = .next { s with gpio := { g with
      out := (g.out &&& ~~~m) ||| (d &&& m), slh := g.slh &&& ~~~m, writes := [] } }) ∧
    (∀ (c d : CoreId) (m a n b : BitVec 64), c.val < d.val → g.writes = [(d, n, b), (c, m, a)] → exec .pinWriteApply s = .next { s with gpio := { g with
      out := ((g.out &&& ~~~m ||| a &&& m) &&& ~~~n) ||| (b &&& n), slh := g.slh &&& ~~~m &&& ~~~n, writes := [] } }) ∧
    (∀ (j : Fin 8) (v : Word), MayWrite s w (.gpMux j) → ∃ t, exec (.gpMuxWrite w j v) s = .next t ∧
      (∀ k : Fin 64, t.gpio.mux[k] = if k.val / 8 = j.val ∧ (s.pinMask w).getLsbD k.val = true then BitVec.ofNat 3 (v.toNat / 16 ^ (k.val % 8))
        else g.mux[k]) ∧
      (∀ k < 64, t.gpio.slh.getLsbD k = (g.slh.getLsbD k && !(decide (k / 8 = j.val) && (s.pinMask w).getLsbD k))) ∧
      t.gpio.out = g.out ∧ t.gpio.oe = g.oe ∧ t.gpio.fin = g.fin ∧ rest t) ∧
    (∀ (k : Fin 64) (v : Word), MayWrite s w (.gpFilt k) →
      ((s.pinMask w).getLsbD k.val = false → exec (.gpFiltWrite w k v) s = .next s) ∧
      ((s.pinMask w).getLsbD k.val = true → ∃ t, exec (.gpFiltWrite w k v) s = .next t ∧
        t.gpio.fcnt = g.fcnt.set k (BitVec.ofNat 8 v.toNat) ∧ t.gpio.fmode = g.fmode.set k (BitVec.ofNat 2 (v.toNat / 256)) ∧
        (v.toNat / 256 % 4 = 0 → t.gpio.fin.getLsbD k.val = g.sync.getLsbD k.val) ∧ same k t ∧ rest t)) ∧
    (∀ (c : CoreId) (hi : Bool) (v : Word), MayWrite s w (.gpOwn c hi) →
      let may : Prop := w ≠ .fabric ∧ ∀ d x, w = .ctx d x → (s.ctx d x).priv = 3
      (¬may → exec (.gpOwnWrite w c hi v) s = .next s) ∧
      (may → ∃ t, exec (.gpOwnWrite w c hi v) s = .next t ∧ t = { s with gpio := { g with own := t.gpio.own } } ∧
        (∀ d, d ≠ c → t.gpio.own[d] = g.own[d]) ∧
        ∀ k < 64, (t.gpio.own[c]).getLsbD k = if k / 32 = (if hi then 1 else 0) then v.getLsbD (k % 32) else (g.own[c]).getLsbD k))

/-! ## Debug, trace, counters, watchdogs (R459 to R489) -/

/-- R459 to R462, R467 to R475: the unlock, halts, which save a routine that stands at a trap point (R57), steps, releases, and the
accesses of a halted core's memory, where the secure region refuses one below its privilege (R277), and of the register view.
Refusals of accesses outside their domain are the model's choice (notes/assumptions/30.md). -/
def Obligations.DebugControls : Prop :=
  ∀ (s : State) (w : Agent) (c : CoreId) (v : Word),
    let d := s.dbg
    let dbg (f : Debug → Debug) : State := { s with dbg := f d }
    let core (f : Core → Core) : State := { s with core := s.core.set c (f s.core[c]) }
    let m : Fin 18 := c.castLE (by omega)
    let stopped (x : CtxState) : Bool := x == .idle || x == .dfault || x == .halt
    (MayWrite s w .dbgUnreq → d.busy = false → (v.toNat % 4 = 1 ∨ v.toNat % 4 = 2) → ∃ t, exec (.dbgUnreq w v) s = .next t ∧
      t = dbg (fun d => { d with chal := t.dbg.chal, chalCnt := d.chalCnt + 1, chalOut := true, reqLevel := BitVec.ofNat 2 v.toNat }) ∧
      t.dbg.chal.toNat = s.power.vt.toNat + 2 ^ 48 * (d.chalCnt + 1).toNat) ∧
    (MayWrite s w (.dbgResp false) → d.busy = false → exec (.dbgRespLo w v) s = .next (dbg fun d => { d with respLo := v, busy := true })) ∧
    (d.busy = true →
      let good : Prop := d.barred = false ∧ d.chalOut = true ∧ canGrant s.night.lcState d.reqLevel = true ∧
        toBytes 4 d.respLo ++ toBytes 4 d.respHi =
          (hmac256 (toBytes 8 (s.night.intCode.getD 0)) (toBytes 8 d.chal ++ toBytes 4 Config.serial ++ [d.reqLevel.setWidth 8])).take 8
      (good → exec .unlockCheckDone s = .next (dbg fun d => { d with
        busy := false, chalOut := false, fails := 0, level := if d.level.toNat < d.reqLevel.toNat then d.reqLevel else d.level })) ∧
      (¬good → exec .unlockCheckDone s = .next (dbg fun d => { d with
        busy := false, chalOut := false, failed := true, fails := satInc d.fails, barred := d.barred || decide (7 ≤ d.fails.toNat) }))) ∧
    (MayWrite s w .dbgLock → (∀ n, s.memberHalted n = false) → ∃ t, exec (.dbgLock w) s = .next t ∧
      t.dbg.level = lcDefault s.night.lcState ∧ t.spad = s.spad ∧ ∀ e x, t.ctx e x = s.ctx e x) ∧
    (MayWrite s w (.dbgCore c) → d.level = 2 → s.power.vdbg = true → s.core[c].halted = false → s.core[c].haltReq = none →
      s.core[c].stepCtx.toNat < 8 →
      exec (.dbgCoreHalt w c) s = .next (core fun k => { k with haltReq := some 0, dozeWake := k.dozeWake || k.dozed })) ∧
    (∀ cause, d.level = 2 → s.core[c].haltReq = some cause → s.core[c].takeable = true → s.core[c].halted = false → d.xtm[m].firel = 0 →
      d.trEn = false → ∃ t, exec (.haltArrival m) s = .next t ∧ t.core[c].halted = true ∧ t.core[c].hcause = cause ∧ t.core[c].haltReq = none ∧
        (∀ x, let u : Ctx := { s.ctx c x with slot := (t.ctx c x).slot }
          t.ctx c x = (if stopped (s.ctx c x).st = true then u else { u with st := .halt, preHalt := (s.ctx c x).st, rsv := none }) ∧
          (s.core[c].midRoutine = some x → (t.ctx c x).slot.valid = true) ∧
          (s.core[c].midRoutine ≠ some x → (t.ctx c x).slot = (s.ctx c x).slot)) ∧
        (∀ e, e ≠ c → t.core[e] = s.core[e]) ∧ t = { s with core := t.core, counters := { s.counters with cnt := t.counters.cnt } }) ∧
    (∀ x : CtxId, MayWrite s w (.dbgCore c) → s.core[c].halted = true → s.core[c].stepping = false → x.val < 8 → v.toNat / 4 % 8 = x.val →
      v.getLsbD 0 = false → (s.ctx c x).st = .halt → (s.ctx c x).preHalt = .ready → ∃ t, exec (.dbgCoreStep w c v) s = .next t ∧
        t.core[c].stepping = true ∧ t.core[c].stepCtx.toNat = x.val ∧ t.core[c].halted = true ∧ t.ctx c x = { s.ctx c x with st := .ready } ∧
        (∀ y, y ≠ x → t.ctx c y = s.ctx c y) ∧ ∀ e, e ≠ c → t.core[e] = s.core[e]) ∧
    (∀ x : CtxId, s.core[c].stepping = true → s.core[c].stepRan = true → s.core[c].stepCtx.toNat = x.val → (s.ctx c x).st = .ready →
      ∃ t, exec (.stepDone c) s = .next t ∧ t.core[c].stepping = false ∧ t.core[c].stepDone = true ∧
        t.ctx c x = { s.ctx c x with st := .halt, preHalt := .ready } ∧ (∀ y, y ≠ x → t.ctx c y = s.ctx c y) ∧
        (∀ e, e ≠ c → t.core[e] = s.core[e]) ∧
        t = { s with core := t.core, counters := { s.counters with cnt := t.counters.cnt } }) ∧
    (MayWrite s w .xtmFire → d.level = 2 → s.power.vdbg = true → (∀ n, s.memberHalted n = false) → ∀ l : BitVec 4,
      ∃ t, exec (.xtmFire w l) s = .next t ∧ (∀ e : CoreId, s.core[e].haltReq = none →
        t.core[e].haltReq = if l &&& d.xtm[(e.castLE (by omega) : Fin 18)].haltl = 0 then none else some 2) ∧
        (t.dbg.haltTrn = (d.haltTrn || (l &&& d.xtm[(16 : Fin 18)].haltl) != 0)) ∧
        (t.dbg.haltTrc = (d.haltTrc || (l &&& d.xtm[(17 : Fin 18)].haltl) != 0)) ∧ t = { s with core := t.core, dbg := t.dbg }) ∧
    (MayWrite s w .dbgRel → s.core[c].halted = true → d.trEn = false → ∃ t, exec (.dbgRel w (1#18 <<< c.val)) s = .next t ∧
      t.core[c].halted = false ∧ (∀ e, e ≠ c → t.core[e] = s.core[e]) ∧
      (∀ x, (s.ctx c x).st ≠ .halt → t.ctx c x = s.ctx c x) ∧
      (∀ x, (s.ctx c x).st = .halt → (s.ctx c x).preHalt ≠ .sleep → t.ctx c x = { s.ctx c x with st := (s.ctx c x).preHalt }) ∧
      (∀ x, (s.ctx c x).st = .halt → (s.ctx c x).preHalt = .sleep → (s.ctx c x).wake = true →
        t.ctx c x = { s.ctx c x with st := .ready, wake := false }) ∧ t.spad = s.spad) ∧
    (MayWrite s w .dbgMctl → v.toNat % 16 = c.val → s.core[c].halted = true → d.mBusy = false → v.toNat / 16 % 4 = 2 → v.toNat / 64 % 4 = 1 →
      let a := d.maddr
      a.toNat % 4 = 0 → 0x02000000 ≤ a.toNat →
      (0x02780000 ≤ a.toNat → a.toNat < 0x02800000 → exec (.dbgMctlGo w v) s = .next { (dbg fun d =>
        { d with mCore := c, mSize := 2, mPriv := 1, mWrite := v.getLsbD 8, mAinc := v.getLsbD 9, mBusy := false, mFailed := true,
                 mErr := true, mFcode := 0x02 }) with
        spad := { s.spad with secErr := true, serrOffs := BitVec.ofNat 23 (a.toNat - 0x02000000), serrMaster := BitVec.ofNat 5 c.val } }) ∧
      (a.toNat < 0x02780000 → s.destroyed a.toNat = false → s.wordFree a.toNat = true →
      let next (d : Debug) : Debug := { d with mCore := c, mSize := 2, mPriv := 1, mWrite := v.getLsbD 8, mAinc := v.getLsbD 9,
                                               mBusy := false, mFailed := false, maddr := if v.getLsbD 9 then a + 4 else a }
      (v.getLsbD 8 = false → s.borrowed a.toNat = none → s.spad.check a.toNat = 0 →
        ∃ t, exec (.dbgMctlGo w v) s = .next t ∧ t = { (dbg fun d => { next d with mdata := valueAt s a.toNat 4 }) with
          freeCtr := t.freeCtr, counters := { s.counters with cnt := t.counters.cnt },
          spad := { s.spad with conf := t.spad.conf, rr := t.spad.rr } }) ∧
      (v.getLsbD 8 = true → s.borrowed a.toNat = none → ∃ t, exec (.dbgMctlGo w v) s = .next t ∧ t.dbg = next d ∧
        Stored s t a.toNat 4 .plain d.mdata))) ∧
    (MayWrite s w .dbgVdata → d.vaddr = 0x30080020 → (w = .debug ∨ w = .ring) →
      (1 ≤ d.level.toNat → exec (.dbgVdataAccess w none) s = .next
        { (dbg fun d => { d with vdata := BitVec.ofNat 32 s.power.vt.toNat }) with
          power := { s.power with vtLatchDbg := BitVec.ofNat 16 (s.power.vt.toNat / 2 ^ 32) } }) ∧
      ∃ t, exec (.dbgVdataAccess w (some v)) s = .next t ∧ t.dbg.vdata = v ∧
        t.power.vt.toNat = v.toNat + 2 ^ 32 * s.power.vtHold.toNat)

/-- R476 to R489: packets leave by the port and the buffer, TRC_CTL, budgets, counters that wrap, and the watchdogs. When SEQ is given, and
that a bite is a row, are the model's choices (notes/assumptions/7.md and 20.md). -/
def Obligations.TraceCountersWatchdogs : Prop :=
  ∀ (s : State) (w : Agent) (v : Word),
    let d := s.dbg
    (∀ (p : Packet) (rest : List Packet), d.sink.getLsbD 0 = true → s.power.vdbg = true → d.syncDue = false → d.dropped = 0 →
      d.fifo = p :: rest → p.byPort = false → (d.sink.getLsbD 1 = true → p.byBuf = true) → (∀ q ∈ rest, d.taken q = false) →
      ∃ t, exec .tracePortPacket s = .next t ∧ UptoEvents { s with dbg := { d with
        portOut := p.bits, fifo := rest, sinceSync := d.sinceSync + 1, syncDue := decide (1024 ≤ d.sinceSync + 1) } } t) ∧
    (d.sink.getLsbD 0 = true → s.power.vdbg = true → d.syncDue = true → ∃ t, exec .tracePortPacket s = .next t ∧
      t.dbg = { d with syncDue := false, sinceSync := 0, seq := d.seq + 1, portOut := t.dbg.portOut } ∧
      (t.dbg.portOut.toNat / 2 ^ 14 % 4 = 2 ∧ t.dbg.portOut.toNat / 2 ^ 16 % 2 ^ 16 = d.seq.toNat ∧
        t.dbg.portOut.toNat / 2 ^ 96 = 0xFFFFFFFF)) ∧
    (∀ (p : Packet) (rest : List Packet), d.sink = 2 → s.power.vdbg = true → s.mainRuns = true → d.dropped = 0 →
      d.fifo = p :: rest → p.byBuf = false → (∀ q ∈ rest, d.taken q = false) → s.march.slice = none →
      let size := 64 * 2 ^ min d.bsz.toNat 12
      let base := d.bbase.toNat * 1024 / (16 * size) * (16 * size)
      let a := base + 16 * (d.bwr.toNat % size)
      0x02000000 ≤ base → base + 16 * size ≤ 0x02780000 → (d.bmode = false ∨ (d.bwr - d.brd).toNat < size) → s.wordFree a = true →
      s.destroyed a = false → d.bwr ≠ d.bmark → ∃ t, exec .traceBufferWrite s = .next t ∧ t.dbg = { d with fifo := rest, bwr := d.bwr + 1 } ∧
        (∀ i < 16, t.spad.byte (a + i) = BitVec.ofNat 8 (p.bits.toNat / 2 ^ (8 * i))) ∧
        (∀ b, (b < a ∨ a + 16 ≤ b) → t.spad.byte b = s.spad.byte b)) ∧
    exec .traceBudgetWindow s = .next { s with dbg := { d with trc := d.trc.map fun t => { t with spent := 0 } } } ∧
    (MayWrite s w .trcCtl → d.fifo = [] → d.dropped = 0 → ∃ t, exec (.trcCtlWrite w v) s = .next t ∧ t = { s with dbg := t.dbg } ∧
      t.dbg.trEn = v.getLsbD 0 ∧ t.dbg.tsel = BitVec.ofNat 4 (v.toNat / 8) ∧ t.dbg.bmode = v.getLsbD 7 ∧
      t.dbg.bsz = BitVec.ofNat 4 (v.toNat / 256) ∧ t.dbg.sink.getLsbD 1 = v.getLsbD 2 ∧
      t.dbg.sink.getLsbD 0 = (match w with | .ctx .. => d.sink.getLsbD 0 | _ => v.getLsbD 1 && d.level != 0)) ∧
    (∀ n : Fin 80, let k := s.counters.cnt[n]
      let cnt (f : Counter → Counter) : State := { s with counters := { s.counters with cnt := s.counters.cnt.set n (f k) } }
      (k.wrapped = true → k.trig = false → (s.src (256 + n.val)).pend = false → s.power.mainRst = false → ∃ t, exec (.cntOverflow n) s = .next t ∧
        t.counters.cnt[n].ovf = true ∧ t.counters.cnt[n].wrapped = false ∧
        SourcesOnly { s with counters := t.counters } t [256 + n.val] ∧
        ((s.src (256 + n.val)).en = true → (t.src (256 + n.val)).pend = true)) ∧
      (MayWrite s w (.cntLo n) → ∃ t, exec (.cntnLoWrite w n v) s = .next t ∧ t = cnt (fun k => { k with cnt := t.counters.cnt[n].cnt }) ∧
        t.counters.cnt[n].cnt.toNat = v.toNat + 2 ^ 32 * k.hi.toNat)) ∧
    (MayWrite s w .cntGctl → ∃ t, exec (.cntGctlClr w v) s = .next t ∧ t = { s with counters := { s.counters with
      run := v.getLsbD 0, cnt := s.counters.cnt.map fun k => { k with cnt := 0 } } }) ∧
    (∀ c : CoreId, let k := s.counters.wdt[c]
      let wdt (f : Wdt → Wdt) : State := { s with counters := { s.counters with wdt := s.counters.wdt.set c (f k) } }
      (MayWrite s w (.wdtKick c) → exec (.wdtKick w c v) s = .next (wdt fun k =>
        if v = 0xC35A then { k with cnt := if k.load = 0 then 1 else k.load } else { k with kickErr := true })) ∧
      (s.wdtRuns c = true → k.warn ≠ 0 → 2 ^ k.warn.toNat < k.cnt.toNat → s.power.mainRst = false → ∃ t, exec (.watchdogWarning c) s = .next t ∧
        SourcesOnly (wdt fun k => { k with cnt := BitVec.ofNat 32 (2 ^ k.warn.toNat) }) t [336 + c.val] ∧
        ((s.src (336 + c.val)).en = true → (t.src (336 + c.val)).pend = true)) ∧
      (∀ x, s.wdtRuns c = true → s.core[c].last = some x → k.act = 0 → ∃ t, exec (.watchdogBite c) s = .next t ∧
        t = { (wdt fun k => { k with bite := true, cnt := if k.load = 0 then 1 else k.load }) with night := t.night } ∧
        (s.night.staged.length < 2 → s.night.cur.isSome = true → (t.night.staged.getLast?.map fun q => (q.code, q.ctx, q.pc)) =
          some (0x02, BitVec.ofNat 8 (16 * c.val + x.val), (s.ctx c x).pc))) ∧
      (s.wdtRuns c = true → k.act = 1 → s.core[c].sb = [] → ∃ t, exec (.watchdogBite c) s = .next t ∧
        t.counters.wdt[c].bite = true ∧ t.power.crst.getLsbD c.val = true ∧ (∀ x, (t.ctx c x).st = .idle) ∧
        ∀ e y, e ≠ c → t.ctx e y = s.ctx e y))

/-! ## Nightlog, life cycle, tamper (R490 to R508) -/

/-- R493 to R495, R498, R499, R501, R502, R504 to R506: the end of a row write, CLEAR, SOFTWARE records, requests, tamper. The course of a
request's rows is the model's choice where the spec leaves it open (notes/assumptions/27.md and 31.md). -/
def Obligations.LogAndLifeCycle : Prop :=
  ∀ (s : State) (w : Agent),
    let n := s.night
    let night (f : Night → Night) : State := { s with night := f n }
    let quiet : Prop := n.wantRow0 = none ∧ n.wantLc = none ∧ n.staged = [] ∧ n.wantParam = [] ∧ n.clr = none
    let newest (t : State) : Option (Byte × BitVec 96) := t.night.staged.getLast?.map fun q => (q.code, q.detail)
    (∀ (r : Nat) (d : Line), AgentIdle s → quiet → n.cur = some (.param r d) → d ≠ 0 →
      exec (.nvmRowWriteEnd true) s = .next (night fun n => { n with cur := none, param := alSet n.param r d })) ∧
    (∀ (slot : Nat) (q : Word) (d : Line) (k : Cause), AgentIdle s → n.wantRow0 = none → n.wantLc = none → n.wantParam = [] → n.clr = none →
      n.cur = some (.record slot q d) → n.staged = [k] → k.seq = q → d ≠ 0 → s.power.mainRst = false →
      ∃ t, exec (.nvmRowWriteEnd true) s = .next t ∧ t.night.slots = alSet n.slots slot d ∧ t.night.staged = [] ∧ t.night.cur = none ∧
        t.night.count = n.count + 1 ∧ t.night.newest = slot ∧
        SourcesOnly { s with night := t.night } t [355] ∧
        ((s.src 355).en = true → (t.src 355).pend = true ∧ (t.src 355).payload = q)) ∧
    (∀ (r : Nat) (d : Line), AgentIdle s → quiet → n.cur = some (.param r d) → ∃ t, exec (.nvmRowWriteEnd false) s = .next t ∧
      t.night.nvmErr = true ∧ t.night.cur = none ∧ t.dict.nvmErr = true ∧ (∀ k, k ≠ r → alGet t.night.param k = alGet n.param k) ∧
      t.night.slots = n.slots ∧ t.night.lcState = n.lcState ∧ t.spad = s.spad ∧ t.core = s.core) ∧
    (∀ mv : LcMove, AgentIdle s → s.power.mainRst = false → n.cur = some (.lc (2 : Fin 3)) → n.move = some mv → mv.next = 3 →
      n.lcState = 2 → n.wantRow0 = none → n.wantLc = none → n.wantParam = [] → n.staged = [] →
      ∃ t, exec (.nvmRowWriteEnd true) s = .next t ∧ t.night.lcState = 3 ∧ t.night.move = none ∧ t.night.lcRows = n.lcRows.set 2 .valid ∧
        t.power.wipePend = true ∧ t.dbg.level = lcDefault 3 ∧ t.dict.intUnlocked = false ∧
        ((s.src 354).en = true → (t.src 354).pend = true ∧ (t.src 354).payload = 3 + 4 * 2)) ∧
    (MayWrite s w .nlCtl → n.clr = none → n.cur.isSome = true → ∃ t, exec (.nlCtlClear w) s = .next t ∧
      (2 ≤ n.lcState.toNat → t = s) ∧
      (n.lcState.toNat < 2 → t = night fun n => { n with count := 0, clr := some (n.newest, 0, 0) })) ∧
    (MayWrite s w .nlSwreq → n.staged.length < 2 → n.cur.isSome = true → ∃ t, exec (.nlSwreq w) s = .next t ∧
      t = (night fun n => { n with staged := t.night.staged, seq := n.seq + 1 }) ∧ t.night.staged.dropLast = n.staged ∧
      newest t = some ((0x07 : Byte), n.swdata[0].setWidth 96 ||| (n.swdata[1].setWidth 96 <<< 32) ||| (n.swdata[2].setWidth 96 <<< 64))) ∧
    (∀ (c : CoreId) (x : CtxId) (code : Byte), w = .ctx c x → MayWrite s w .lcyReq → n.cur.isSome = true →
      let allowed : Prop := code.toNat = n.lcState.toNat + 1 ∧ n.move = none ∧ (s.ctx c x).priv = 3 ∧ n.lcState.toNat < 2 ∧
        (n.lcState ≠ 1 ∨ n.intCode.isSome = true)
      (¬allowed → exec (.lcReq w code) s = .next (night fun n => { n with reqErr := true })) ∧
      (allowed → ∃ t, exec (.lcReq w code) s = .next t ∧ t.power = { s.power with wipePend := true } ∧
        t.night = { n with move := some ⟨BitVec.ofNat 2 code.toNat, BitVec.ofNat 8 (16 * c.val + x.val), 2, 0xFF⟩,
                           wantRow0 := some true, wantLc := some ⟨n.lcState.toNat % 3, by omega⟩ } ∧
        t.core = s.core ∧ t.spad = s.spad)) ∧
    (n.pinen = false → s.power.pornAon = true → exec .tamperEvent s = .next (night fun n => { n with pin := false })) ∧
    (n.pinen = true → s.power.pornAon = true → n.act = false → s.power.mainRst = false → n.staged.length < 2 → n.cur.isSome = true → ∃ t, exec .tamperEvent s = .next t ∧
      t.night.pin = false ∧ t.night.event = true ∧ t.night.tcnt = satInc n.tcnt ∧ t.power.wipePend = true ∧ t.night.wantRow0 = some true ∧
      (newest t).map (·.1) = some 0x03 ∧ ((s.src 353).en = true → (t.src 353).pend = true ∧ (t.src 353).payload = 1) ∧
      (∀ c x, t.ctx c x = s.ctx c x) ∧ t.spad = { s.spad with wipeDue := true }) ∧
    (MayWrite s w .tmpForce → n.act = false → s.power.mainRst = false → n.staged.length < 2 → n.cur.isSome = true →
      ∃ t, exec (.tmpForce w) s = .next t ∧ t.night.event = true ∧ t.night.tcnt = satInc n.tcnt ∧ t.power.wipePend = true ∧
        t.spad = { s.spad with wipeDue := true } ∧ (newest t).map (·.1) = some 0x03 ∧
        ((s.src 353).en = true → (t.src 353).pend = true ∧ (t.src 353).payload = 2))

/-! ## The queue, time, reset, and the memory's form -/

/-- A step takes the command at the front of the queue and runs it on the state with the queue's rest. Where none waits, a Vesper fast tick
passes (R341, R349, R423; the model's choice, notes/assumptions/4.md). -/
def Obligations.StepRunsTheFront : Prop :=
  (∀ (s : State) (i : Instr) (rest : List Instr), step { s with pending := i :: rest } = exec i { s with pending := rest }) ∧
  (∀ s : State, s.pending = [] → s.power.pornAon = false → step s = .next s) ∧
  (∀ s : State, s.pending = [] → s.power.pornAon = true → AgentIdle s → s.fabric.held = [] → s.power.fastClk = true →
    s.power.almEn = false → (s.power.vt + 1).toNat % 1024 ≠ 0 →
    (s.eventsRun = false → step s = .next { s with power := { s.power with vt := s.power.vt + 1 } }) ∧
    (s.eventsRun = true → ∃ t, step s = .next t ∧ t.pending = [] ∧ t.power.vt = s.power.vt + 1 ∧ t.spad = s.spad ∧
      (∀ g : Fin 32, t.ev.holdRun[g] = s.ev.holdRun[g] - 1) ∧
      ∀ n : Fin 32, let u := s.ev.timer[n]
        (u.en = true → u.clk = 0 → u.cnt ≠ 0 → t.ev.timer[n] = { u with cnt := u.cnt - 1 }) ∧ (u.en = false → t.ev.timer[n] = u)))

/-- Reset values of the register tables, each as the spec states it. The empty queue, PORn_AON still asserted and a log without records are
the model's choices (notes/assumptions/2.md). -/
def Obligations.ResetLeaves : Prop :=
  let s := State.reset
  let r (r : Reg) : Word := s.regWord .ring r
  s.pending = [] ∧ s.power.pornAon = false ∧ s.power.mainRst = true ∧ s.night.count = 0 ∧
  (∀ (c : CoreId) (x : CtxId), (s.ctx c x).st = .idle ∧ (s.ctx c x).pc = 0x10000000 ∧ (s.ctx c x).privInit = 1 ∧ (s.ctx c x).longs = []) ∧
  (∀ c : CoreId, r (.sysBase c) = 0x10000100 ∧ r (.secBase c) = 0x10000200 ∧ r (.evqVec c) = 0x10000300 ∧ r (.evcCtl c) = 0x8103 ∧
    r (.pipeCtl c) = 0x303 ∧ r (.lcCtl c) = 0xF ∧ r (.lcPin c) = 0 ∧ r (.evqBase c) = 0) ∧
  (∀ p : PortId, r (.rpCtl p) = 0x1007) ∧ r .ringCtl = 0x7F ∧ r .ringEtype = 0x88B5 ∧ r .ringErrwin = 0x8000 ∧
  r .flCtl = 3 ∧ r .fabWin = 0x20000000 ∧ r .pwrCtl = 8 ∧ r .pwrDoze = 0x10FFFF ∧ r .clkPlla = 0x20 ∧ r .tmpCtl = 1 ∧ r .vtLo = 0

/-- The memory's canonical form at reset (the model's own form of the scratchpads). The form is the model's choice, notes/assumptions/3.md.
-/
def Obligations.MemoryCanonicalAtReset : Prop := State.reset.spad.wf = true

/-- Every step keeps the memory's canonical form: addresses strictly rising, and no byte listed that an unlisted address reads as. The form
is the model's choice, notes/assumptions/3.md. -/
def Obligations.StepsKeepMemoryCanonical : Prop :=
  ∀ s t : State, s.spad.wf = true → step s = .next t → t.spad.wf = true
end

