-- ==== Sys2Proof/Laws/State.lean ====
section
/-! SUPPORT. What each update of State leaves: one lemma per field per update, and what the updates do to the part they change. -/

namespace Sys2Proof.Machine

open Sys2Proof

@[simp] theorem State.modCore_pending (s : State) (c : CoreId) (f : Core → Core) : (s.modCore c f).pending = s.pending := rfl
@[simp] theorem State.modCore_freeCtr (s : State) (c : CoreId) (f : Core → Core) : (s.modCore c f).freeCtr = s.freeCtr := rfl
@[simp] theorem State.modCore_transit (s : State) (c : CoreId) (f : Core → Core) : (s.modCore c f).transit = s.transit := rfl
@[simp] theorem State.modCore_ports (s : State) (c : CoreId) (f : Core → Core) : (s.modCore c f).ports = s.ports := rfl
@[simp] theorem State.modCore_spad (s : State) (c : CoreId) (f : Core → Core) : (s.modCore c f).spad = s.spad := rfl
@[simp] theorem State.modCore_march (s : State) (c : CoreId) (f : Core → Core) : (s.modCore c f).march = s.march := rfl
@[simp] theorem State.modCore_flash (s : State) (c : CoreId) (f : Core → Core) : (s.modCore c f).flash = s.flash := rfl
@[simp] theorem State.modCore_fabric (s : State) (c : CoreId) (f : Core → Core) : (s.modCore c f).fabric = s.fabric := rfl
@[simp] theorem State.modCore_ev (s : State) (c : CoreId) (f : Core → Core) : (s.modCore c f).ev = s.ev := rfl
@[simp] theorem State.modCore_ring (s : State) (c : CoreId) (f : Core → Core) : (s.modCore c f).ring = s.ring := rfl
@[simp] theorem State.modCore_dict (s : State) (c : CoreId) (f : Core → Core) : (s.modCore c f).dict = s.dict := rfl
@[simp] theorem State.modCore_power (s : State) (c : CoreId) (f : Core → Core) : (s.modCore c f).power = s.power := rfl
@[simp] theorem State.modCore_gpio (s : State) (c : CoreId) (f : Core → Core) : (s.modCore c f).gpio = s.gpio := rfl
@[simp] theorem State.modCore_dbg (s : State) (c : CoreId) (f : Core → Core) : (s.modCore c f).dbg = s.dbg := rfl
@[simp] theorem State.modCore_counters (s : State) (c : CoreId) (f : Core → Core) : (s.modCore c f).counters = s.counters := rfl
@[simp] theorem State.modCore_night (s : State) (c : CoreId) (f : Core → Core) : (s.modCore c f).night = s.night := rfl
@[simp] theorem State.modCore_load (s : State) (c : CoreId) (f : Core → Core) : (s.modCore c f).load = s.load := rfl

@[simp] theorem State.modCtx_pending (s : State) (c : CoreId) (x : CtxId) (f : Ctx → Ctx) : (s.modCtx c x f).pending = s.pending := rfl
@[simp] theorem State.modCtx_freeCtr (s : State) (c : CoreId) (x : CtxId) (f : Ctx → Ctx) : (s.modCtx c x f).freeCtr = s.freeCtr := rfl
@[simp] theorem State.modCtx_transit (s : State) (c : CoreId) (x : CtxId) (f : Ctx → Ctx) : (s.modCtx c x f).transit = s.transit := rfl
@[simp] theorem State.modCtx_ports (s : State) (c : CoreId) (x : CtxId) (f : Ctx → Ctx) : (s.modCtx c x f).ports = s.ports := rfl
@[simp] theorem State.modCtx_spad (s : State) (c : CoreId) (x : CtxId) (f : Ctx → Ctx) : (s.modCtx c x f).spad = s.spad := rfl
@[simp] theorem State.modCtx_march (s : State) (c : CoreId) (x : CtxId) (f : Ctx → Ctx) : (s.modCtx c x f).march = s.march := rfl
@[simp] theorem State.modCtx_flash (s : State) (c : CoreId) (x : CtxId) (f : Ctx → Ctx) : (s.modCtx c x f).flash = s.flash := rfl
@[simp] theorem State.modCtx_fabric (s : State) (c : CoreId) (x : CtxId) (f : Ctx → Ctx) : (s.modCtx c x f).fabric = s.fabric := rfl
@[simp] theorem State.modCtx_ev (s : State) (c : CoreId) (x : CtxId) (f : Ctx → Ctx) : (s.modCtx c x f).ev = s.ev := rfl
@[simp] theorem State.modCtx_ring (s : State) (c : CoreId) (x : CtxId) (f : Ctx → Ctx) : (s.modCtx c x f).ring = s.ring := rfl
@[simp] theorem State.modCtx_dict (s : State) (c : CoreId) (x : CtxId) (f : Ctx → Ctx) : (s.modCtx c x f).dict = s.dict := rfl
@[simp] theorem State.modCtx_power (s : State) (c : CoreId) (x : CtxId) (f : Ctx → Ctx) : (s.modCtx c x f).power = s.power := rfl
@[simp] theorem State.modCtx_gpio (s : State) (c : CoreId) (x : CtxId) (f : Ctx → Ctx) : (s.modCtx c x f).gpio = s.gpio := rfl
@[simp] theorem State.modCtx_dbg (s : State) (c : CoreId) (x : CtxId) (f : Ctx → Ctx) : (s.modCtx c x f).dbg = s.dbg := rfl
@[simp] theorem State.modCtx_counters (s : State) (c : CoreId) (x : CtxId) (f : Ctx → Ctx) : (s.modCtx c x f).counters = s.counters := rfl
@[simp] theorem State.modCtx_night (s : State) (c : CoreId) (x : CtxId) (f : Ctx → Ctx) : (s.modCtx c x f).night = s.night := rfl
@[simp] theorem State.modCtx_load (s : State) (c : CoreId) (x : CtxId) (f : Ctx → Ctx) : (s.modCtx c x f).load = s.load := rfl

@[simp] theorem State.modTb_pending (s : State) (i : TbId) (f : Tb → Tb) : (s.modTb i f).pending = s.pending := rfl
@[simp] theorem State.modTb_freeCtr (s : State) (i : TbId) (f : Tb → Tb) : (s.modTb i f).freeCtr = s.freeCtr := rfl
@[simp] theorem State.modTb_core (s : State) (i : TbId) (f : Tb → Tb) : (s.modTb i f).core = s.core := rfl
@[simp] theorem State.modTb_ports (s : State) (i : TbId) (f : Tb → Tb) : (s.modTb i f).ports = s.ports := rfl
@[simp] theorem State.modTb_spad (s : State) (i : TbId) (f : Tb → Tb) : (s.modTb i f).spad = s.spad := rfl
@[simp] theorem State.modTb_march (s : State) (i : TbId) (f : Tb → Tb) : (s.modTb i f).march = s.march := rfl
@[simp] theorem State.modTb_flash (s : State) (i : TbId) (f : Tb → Tb) : (s.modTb i f).flash = s.flash := rfl
@[simp] theorem State.modTb_fabric (s : State) (i : TbId) (f : Tb → Tb) : (s.modTb i f).fabric = s.fabric := rfl
@[simp] theorem State.modTb_ev (s : State) (i : TbId) (f : Tb → Tb) : (s.modTb i f).ev = s.ev := rfl
@[simp] theorem State.modTb_ring (s : State) (i : TbId) (f : Tb → Tb) : (s.modTb i f).ring = s.ring := rfl
@[simp] theorem State.modTb_dict (s : State) (i : TbId) (f : Tb → Tb) : (s.modTb i f).dict = s.dict := rfl
@[simp] theorem State.modTb_power (s : State) (i : TbId) (f : Tb → Tb) : (s.modTb i f).power = s.power := rfl
@[simp] theorem State.modTb_gpio (s : State) (i : TbId) (f : Tb → Tb) : (s.modTb i f).gpio = s.gpio := rfl
@[simp] theorem State.modTb_dbg (s : State) (i : TbId) (f : Tb → Tb) : (s.modTb i f).dbg = s.dbg := rfl
@[simp] theorem State.modTb_counters (s : State) (i : TbId) (f : Tb → Tb) : (s.modTb i f).counters = s.counters := rfl
@[simp] theorem State.modTb_night (s : State) (i : TbId) (f : Tb → Tb) : (s.modTb i f).night = s.night := rfl
@[simp] theorem State.modTb_load (s : State) (i : TbId) (f : Tb → Tb) : (s.modTb i f).load = s.load := rfl

@[simp] theorem State.modPort_pending (s : State) (i : Fin 8) (f : Port → Port) : (s.modPort i f).pending = s.pending := rfl
@[simp] theorem State.modPort_freeCtr (s : State) (i : Fin 8) (f : Port → Port) : (s.modPort i f).freeCtr = s.freeCtr := rfl
@[simp] theorem State.modPort_core (s : State) (i : Fin 8) (f : Port → Port) : (s.modPort i f).core = s.core := rfl
@[simp] theorem State.modPort_transit (s : State) (i : Fin 8) (f : Port → Port) : (s.modPort i f).transit = s.transit := rfl
@[simp] theorem State.modPort_spad (s : State) (i : Fin 8) (f : Port → Port) : (s.modPort i f).spad = s.spad := rfl
@[simp] theorem State.modPort_march (s : State) (i : Fin 8) (f : Port → Port) : (s.modPort i f).march = s.march := rfl
@[simp] theorem State.modPort_flash (s : State) (i : Fin 8) (f : Port → Port) : (s.modPort i f).flash = s.flash := rfl
@[simp] theorem State.modPort_fabric (s : State) (i : Fin 8) (f : Port → Port) : (s.modPort i f).fabric = s.fabric := rfl
@[simp] theorem State.modPort_ev (s : State) (i : Fin 8) (f : Port → Port) : (s.modPort i f).ev = s.ev := rfl
@[simp] theorem State.modPort_ring (s : State) (i : Fin 8) (f : Port → Port) : (s.modPort i f).ring = s.ring := rfl
@[simp] theorem State.modPort_dict (s : State) (i : Fin 8) (f : Port → Port) : (s.modPort i f).dict = s.dict := rfl
@[simp] theorem State.modPort_power (s : State) (i : Fin 8) (f : Port → Port) : (s.modPort i f).power = s.power := rfl
@[simp] theorem State.modPort_gpio (s : State) (i : Fin 8) (f : Port → Port) : (s.modPort i f).gpio = s.gpio := rfl
@[simp] theorem State.modPort_dbg (s : State) (i : Fin 8) (f : Port → Port) : (s.modPort i f).dbg = s.dbg := rfl
@[simp] theorem State.modPort_counters (s : State) (i : Fin 8) (f : Port → Port) : (s.modPort i f).counters = s.counters := rfl
@[simp] theorem State.modPort_night (s : State) (i : Fin 8) (f : Port → Port) : (s.modPort i f).night = s.night := rfl
@[simp] theorem State.modPort_load (s : State) (i : Fin 8) (f : Port → Port) : (s.modPort i f).load = s.load := rfl

@[simp] theorem State.modMs_pending (s : State) (i : Fin 4) (f : Ms → Ms) : (s.modMs i f).pending = s.pending := rfl
@[simp] theorem State.modMs_freeCtr (s : State) (i : Fin 4) (f : Ms → Ms) : (s.modMs i f).freeCtr = s.freeCtr := rfl
@[simp] theorem State.modMs_core (s : State) (i : Fin 4) (f : Ms → Ms) : (s.modMs i f).core = s.core := rfl
@[simp] theorem State.modMs_transit (s : State) (i : Fin 4) (f : Ms → Ms) : (s.modMs i f).transit = s.transit := rfl
@[simp] theorem State.modMs_spad (s : State) (i : Fin 4) (f : Ms → Ms) : (s.modMs i f).spad = s.spad := rfl
@[simp] theorem State.modMs_march (s : State) (i : Fin 4) (f : Ms → Ms) : (s.modMs i f).march = s.march := rfl
@[simp] theorem State.modMs_flash (s : State) (i : Fin 4) (f : Ms → Ms) : (s.modMs i f).flash = s.flash := rfl
@[simp] theorem State.modMs_fabric (s : State) (i : Fin 4) (f : Ms → Ms) : (s.modMs i f).fabric = s.fabric := rfl
@[simp] theorem State.modMs_ev (s : State) (i : Fin 4) (f : Ms → Ms) : (s.modMs i f).ev = s.ev := rfl
@[simp] theorem State.modMs_ring (s : State) (i : Fin 4) (f : Ms → Ms) : (s.modMs i f).ring = s.ring := rfl
@[simp] theorem State.modMs_dict (s : State) (i : Fin 4) (f : Ms → Ms) : (s.modMs i f).dict = s.dict := rfl
@[simp] theorem State.modMs_power (s : State) (i : Fin 4) (f : Ms → Ms) : (s.modMs i f).power = s.power := rfl
@[simp] theorem State.modMs_gpio (s : State) (i : Fin 4) (f : Ms → Ms) : (s.modMs i f).gpio = s.gpio := rfl
@[simp] theorem State.modMs_dbg (s : State) (i : Fin 4) (f : Ms → Ms) : (s.modMs i f).dbg = s.dbg := rfl
@[simp] theorem State.modMs_counters (s : State) (i : Fin 4) (f : Ms → Ms) : (s.modMs i f).counters = s.counters := rfl
@[simp] theorem State.modMs_night (s : State) (i : Fin 4) (f : Ms → Ms) : (s.modMs i f).night = s.night := rfl
@[simp] theorem State.modMs_load (s : State) (i : Fin 4) (f : Ms → Ms) : (s.modMs i f).load = s.load := rfl

@[simp] theorem State.modRing_pending (s : State) (f : Ring → Ring) : (s.modRing f).pending = s.pending := rfl
@[simp] theorem State.modRing_freeCtr (s : State) (f : Ring → Ring) : (s.modRing f).freeCtr = s.freeCtr := rfl
@[simp] theorem State.modRing_core (s : State) (f : Ring → Ring) : (s.modRing f).core = s.core := rfl
@[simp] theorem State.modRing_transit (s : State) (f : Ring → Ring) : (s.modRing f).transit = s.transit := rfl
@[simp] theorem State.modRing_ports (s : State) (f : Ring → Ring) : (s.modRing f).ports = s.ports := rfl
@[simp] theorem State.modRing_spad (s : State) (f : Ring → Ring) : (s.modRing f).spad = s.spad := rfl
@[simp] theorem State.modRing_march (s : State) (f : Ring → Ring) : (s.modRing f).march = s.march := rfl
@[simp] theorem State.modRing_flash (s : State) (f : Ring → Ring) : (s.modRing f).flash = s.flash := rfl
@[simp] theorem State.modRing_fabric (s : State) (f : Ring → Ring) : (s.modRing f).fabric = s.fabric := rfl
@[simp] theorem State.modRing_ev (s : State) (f : Ring → Ring) : (s.modRing f).ev = s.ev := rfl
@[simp] theorem State.modRing_dict (s : State) (f : Ring → Ring) : (s.modRing f).dict = s.dict := rfl
@[simp] theorem State.modRing_power (s : State) (f : Ring → Ring) : (s.modRing f).power = s.power := rfl
@[simp] theorem State.modRing_gpio (s : State) (f : Ring → Ring) : (s.modRing f).gpio = s.gpio := rfl
@[simp] theorem State.modRing_dbg (s : State) (f : Ring → Ring) : (s.modRing f).dbg = s.dbg := rfl
@[simp] theorem State.modRing_counters (s : State) (f : Ring → Ring) : (s.modRing f).counters = s.counters := rfl
@[simp] theorem State.modRing_night (s : State) (f : Ring → Ring) : (s.modRing f).night = s.night := rfl
@[simp] theorem State.modRing_load (s : State) (f : Ring → Ring) : (s.modRing f).load = s.load := rfl

@[simp] theorem State.modRp_pending (s : State) (i : PortId) (f : RingPort → RingPort) : (s.modRp i f).pending = s.pending := rfl
@[simp] theorem State.modRp_freeCtr (s : State) (i : PortId) (f : RingPort → RingPort) : (s.modRp i f).freeCtr = s.freeCtr := rfl
@[simp] theorem State.modRp_core (s : State) (i : PortId) (f : RingPort → RingPort) : (s.modRp i f).core = s.core := rfl
@[simp] theorem State.modRp_transit (s : State) (i : PortId) (f : RingPort → RingPort) : (s.modRp i f).transit = s.transit := rfl
@[simp] theorem State.modRp_ports (s : State) (i : PortId) (f : RingPort → RingPort) : (s.modRp i f).ports = s.ports := rfl
@[simp] theorem State.modRp_spad (s : State) (i : PortId) (f : RingPort → RingPort) : (s.modRp i f).spad = s.spad := rfl
@[simp] theorem State.modRp_march (s : State) (i : PortId) (f : RingPort → RingPort) : (s.modRp i f).march = s.march := rfl
@[simp] theorem State.modRp_flash (s : State) (i : PortId) (f : RingPort → RingPort) : (s.modRp i f).flash = s.flash := rfl
@[simp] theorem State.modRp_fabric (s : State) (i : PortId) (f : RingPort → RingPort) : (s.modRp i f).fabric = s.fabric := rfl
@[simp] theorem State.modRp_ev (s : State) (i : PortId) (f : RingPort → RingPort) : (s.modRp i f).ev = s.ev := rfl
@[simp] theorem State.modRp_dict (s : State) (i : PortId) (f : RingPort → RingPort) : (s.modRp i f).dict = s.dict := rfl
@[simp] theorem State.modRp_power (s : State) (i : PortId) (f : RingPort → RingPort) : (s.modRp i f).power = s.power := rfl
@[simp] theorem State.modRp_gpio (s : State) (i : PortId) (f : RingPort → RingPort) : (s.modRp i f).gpio = s.gpio := rfl
@[simp] theorem State.modRp_dbg (s : State) (i : PortId) (f : RingPort → RingPort) : (s.modRp i f).dbg = s.dbg := rfl
@[simp] theorem State.modRp_counters (s : State) (i : PortId) (f : RingPort → RingPort) : (s.modRp i f).counters = s.counters := rfl
@[simp] theorem State.modRp_night (s : State) (i : PortId) (f : RingPort → RingPort) : (s.modRp i f).night = s.night := rfl
@[simp] theorem State.modRp_load (s : State) (i : PortId) (f : RingPort → RingPort) : (s.modRp i f).load = s.load := rfl

@[simp] theorem State.allCores_pending (s : State) (f : CoreId → Core → Core) : (s.allCores f).pending = s.pending := rfl
@[simp] theorem State.allCores_freeCtr (s : State) (f : CoreId → Core → Core) : (s.allCores f).freeCtr = s.freeCtr := rfl
@[simp] theorem State.allCores_transit (s : State) (f : CoreId → Core → Core) : (s.allCores f).transit = s.transit := rfl
@[simp] theorem State.allCores_ports (s : State) (f : CoreId → Core → Core) : (s.allCores f).ports = s.ports := rfl
@[simp] theorem State.allCores_spad (s : State) (f : CoreId → Core → Core) : (s.allCores f).spad = s.spad := rfl
@[simp] theorem State.allCores_march (s : State) (f : CoreId → Core → Core) : (s.allCores f).march = s.march := rfl
@[simp] theorem State.allCores_flash (s : State) (f : CoreId → Core → Core) : (s.allCores f).flash = s.flash := rfl
@[simp] theorem State.allCores_fabric (s : State) (f : CoreId → Core → Core) : (s.allCores f).fabric = s.fabric := rfl
@[simp] theorem State.allCores_ev (s : State) (f : CoreId → Core → Core) : (s.allCores f).ev = s.ev := rfl
@[simp] theorem State.allCores_ring (s : State) (f : CoreId → Core → Core) : (s.allCores f).ring = s.ring := rfl
@[simp] theorem State.allCores_dict (s : State) (f : CoreId → Core → Core) : (s.allCores f).dict = s.dict := rfl
@[simp] theorem State.allCores_power (s : State) (f : CoreId → Core → Core) : (s.allCores f).power = s.power := rfl
@[simp] theorem State.allCores_gpio (s : State) (f : CoreId → Core → Core) : (s.allCores f).gpio = s.gpio := rfl
@[simp] theorem State.allCores_dbg (s : State) (f : CoreId → Core → Core) : (s.allCores f).dbg = s.dbg := rfl
@[simp] theorem State.allCores_counters (s : State) (f : CoreId → Core → Core) : (s.allCores f).counters = s.counters := rfl
@[simp] theorem State.allCores_night (s : State) (f : CoreId → Core → Core) : (s.allCores f).night = s.night := rfl
@[simp] theorem State.allCores_load (s : State) (f : CoreId → Core → Core) : (s.allCores f).load = s.load := rfl

@[simp] theorem State.modEv_pending (s : State) (f : Events → Events) : (s.modEv f).pending = s.pending := rfl
@[simp] theorem State.modEv_freeCtr (s : State) (f : Events → Events) : (s.modEv f).freeCtr = s.freeCtr := rfl
@[simp] theorem State.modEv_core (s : State) (f : Events → Events) : (s.modEv f).core = s.core := rfl
@[simp] theorem State.modEv_transit (s : State) (f : Events → Events) : (s.modEv f).transit = s.transit := rfl
@[simp] theorem State.modEv_ports (s : State) (f : Events → Events) : (s.modEv f).ports = s.ports := rfl
@[simp] theorem State.modEv_spad (s : State) (f : Events → Events) : (s.modEv f).spad = s.spad := rfl
@[simp] theorem State.modEv_march (s : State) (f : Events → Events) : (s.modEv f).march = s.march := rfl
@[simp] theorem State.modEv_flash (s : State) (f : Events → Events) : (s.modEv f).flash = s.flash := rfl
@[simp] theorem State.modEv_fabric (s : State) (f : Events → Events) : (s.modEv f).fabric = s.fabric := rfl
@[simp] theorem State.modEv_ring (s : State) (f : Events → Events) : (s.modEv f).ring = s.ring := rfl
@[simp] theorem State.modEv_dict (s : State) (f : Events → Events) : (s.modEv f).dict = s.dict := rfl
@[simp] theorem State.modEv_power (s : State) (f : Events → Events) : (s.modEv f).power = s.power := rfl
@[simp] theorem State.modEv_gpio (s : State) (f : Events → Events) : (s.modEv f).gpio = s.gpio := rfl
@[simp] theorem State.modEv_dbg (s : State) (f : Events → Events) : (s.modEv f).dbg = s.dbg := rfl
@[simp] theorem State.modEv_counters (s : State) (f : Events → Events) : (s.modEv f).counters = s.counters := rfl
@[simp] theorem State.modEv_night (s : State) (f : Events → Events) : (s.modEv f).night = s.night := rfl
@[simp] theorem State.modEv_load (s : State) (f : Events → Events) : (s.modEv f).load = s.load := rfl

@[simp] theorem State.modPower_pending (s : State) (f : Power → Power) : (s.modPower f).pending = s.pending := rfl
@[simp] theorem State.modPower_freeCtr (s : State) (f : Power → Power) : (s.modPower f).freeCtr = s.freeCtr := rfl
@[simp] theorem State.modPower_core (s : State) (f : Power → Power) : (s.modPower f).core = s.core := rfl
@[simp] theorem State.modPower_transit (s : State) (f : Power → Power) : (s.modPower f).transit = s.transit := rfl
@[simp] theorem State.modPower_ports (s : State) (f : Power → Power) : (s.modPower f).ports = s.ports := rfl
@[simp] theorem State.modPower_spad (s : State) (f : Power → Power) : (s.modPower f).spad = s.spad := rfl
@[simp] theorem State.modPower_march (s : State) (f : Power → Power) : (s.modPower f).march = s.march := rfl
@[simp] theorem State.modPower_flash (s : State) (f : Power → Power) : (s.modPower f).flash = s.flash := rfl
@[simp] theorem State.modPower_fabric (s : State) (f : Power → Power) : (s.modPower f).fabric = s.fabric := rfl
@[simp] theorem State.modPower_ev (s : State) (f : Power → Power) : (s.modPower f).ev = s.ev := rfl
@[simp] theorem State.modPower_ring (s : State) (f : Power → Power) : (s.modPower f).ring = s.ring := rfl
@[simp] theorem State.modPower_dict (s : State) (f : Power → Power) : (s.modPower f).dict = s.dict := rfl
@[simp] theorem State.modPower_gpio (s : State) (f : Power → Power) : (s.modPower f).gpio = s.gpio := rfl
@[simp] theorem State.modPower_dbg (s : State) (f : Power → Power) : (s.modPower f).dbg = s.dbg := rfl
@[simp] theorem State.modPower_counters (s : State) (f : Power → Power) : (s.modPower f).counters = s.counters := rfl
@[simp] theorem State.modPower_night (s : State) (f : Power → Power) : (s.modPower f).night = s.night := rfl
@[simp] theorem State.modPower_load (s : State) (f : Power → Power) : (s.modPower f).load = s.load := rfl

@[simp] theorem State.modDbg_pending (s : State) (f : Debug → Debug) : (s.modDbg f).pending = s.pending := rfl
@[simp] theorem State.modDbg_freeCtr (s : State) (f : Debug → Debug) : (s.modDbg f).freeCtr = s.freeCtr := rfl
@[simp] theorem State.modDbg_core (s : State) (f : Debug → Debug) : (s.modDbg f).core = s.core := rfl
@[simp] theorem State.modDbg_transit (s : State) (f : Debug → Debug) : (s.modDbg f).transit = s.transit := rfl
@[simp] theorem State.modDbg_ports (s : State) (f : Debug → Debug) : (s.modDbg f).ports = s.ports := rfl
@[simp] theorem State.modDbg_spad (s : State) (f : Debug → Debug) : (s.modDbg f).spad = s.spad := rfl
@[simp] theorem State.modDbg_march (s : State) (f : Debug → Debug) : (s.modDbg f).march = s.march := rfl
@[simp] theorem State.modDbg_flash (s : State) (f : Debug → Debug) : (s.modDbg f).flash = s.flash := rfl
@[simp] theorem State.modDbg_fabric (s : State) (f : Debug → Debug) : (s.modDbg f).fabric = s.fabric := rfl
@[simp] theorem State.modDbg_ev (s : State) (f : Debug → Debug) : (s.modDbg f).ev = s.ev := rfl
@[simp] theorem State.modDbg_ring (s : State) (f : Debug → Debug) : (s.modDbg f).ring = s.ring := rfl
@[simp] theorem State.modDbg_dict (s : State) (f : Debug → Debug) : (s.modDbg f).dict = s.dict := rfl
@[simp] theorem State.modDbg_power (s : State) (f : Debug → Debug) : (s.modDbg f).power = s.power := rfl
@[simp] theorem State.modDbg_gpio (s : State) (f : Debug → Debug) : (s.modDbg f).gpio = s.gpio := rfl
@[simp] theorem State.modDbg_counters (s : State) (f : Debug → Debug) : (s.modDbg f).counters = s.counters := rfl
@[simp] theorem State.modDbg_night (s : State) (f : Debug → Debug) : (s.modDbg f).night = s.night := rfl
@[simp] theorem State.modDbg_load (s : State) (f : Debug → Debug) : (s.modDbg f).load = s.load := rfl

@[simp] theorem State.modNight_pending (s : State) (f : Night → Night) : (s.modNight f).pending = s.pending := rfl
@[simp] theorem State.modNight_freeCtr (s : State) (f : Night → Night) : (s.modNight f).freeCtr = s.freeCtr := rfl
@[simp] theorem State.modNight_core (s : State) (f : Night → Night) : (s.modNight f).core = s.core := rfl
@[simp] theorem State.modNight_transit (s : State) (f : Night → Night) : (s.modNight f).transit = s.transit := rfl
@[simp] theorem State.modNight_ports (s : State) (f : Night → Night) : (s.modNight f).ports = s.ports := rfl
@[simp] theorem State.modNight_spad (s : State) (f : Night → Night) : (s.modNight f).spad = s.spad := rfl
@[simp] theorem State.modNight_march (s : State) (f : Night → Night) : (s.modNight f).march = s.march := rfl
@[simp] theorem State.modNight_flash (s : State) (f : Night → Night) : (s.modNight f).flash = s.flash := rfl
@[simp] theorem State.modNight_fabric (s : State) (f : Night → Night) : (s.modNight f).fabric = s.fabric := rfl
@[simp] theorem State.modNight_ev (s : State) (f : Night → Night) : (s.modNight f).ev = s.ev := rfl
@[simp] theorem State.modNight_ring (s : State) (f : Night → Night) : (s.modNight f).ring = s.ring := rfl
@[simp] theorem State.modNight_dict (s : State) (f : Night → Night) : (s.modNight f).dict = s.dict := rfl
@[simp] theorem State.modNight_power (s : State) (f : Night → Night) : (s.modNight f).power = s.power := rfl
@[simp] theorem State.modNight_gpio (s : State) (f : Night → Night) : (s.modNight f).gpio = s.gpio := rfl
@[simp] theorem State.modNight_dbg (s : State) (f : Night → Night) : (s.modNight f).dbg = s.dbg := rfl
@[simp] theorem State.modNight_counters (s : State) (f : Night → Night) : (s.modNight f).counters = s.counters := rfl
@[simp] theorem State.modNight_load (s : State) (f : Night → Night) : (s.modNight f).load = s.load := rfl

@[simp] theorem State.modDict_pending (s : State) (f : Dict → Dict) : (s.modDict f).pending = s.pending := rfl
@[simp] theorem State.modDict_freeCtr (s : State) (f : Dict → Dict) : (s.modDict f).freeCtr = s.freeCtr := rfl
@[simp] theorem State.modDict_core (s : State) (f : Dict → Dict) : (s.modDict f).core = s.core := rfl
@[simp] theorem State.modDict_transit (s : State) (f : Dict → Dict) : (s.modDict f).transit = s.transit := rfl
@[simp] theorem State.modDict_ports (s : State) (f : Dict → Dict) : (s.modDict f).ports = s.ports := rfl
@[simp] theorem State.modDict_spad (s : State) (f : Dict → Dict) : (s.modDict f).spad = s.spad := rfl
@[simp] theorem State.modDict_march (s : State) (f : Dict → Dict) : (s.modDict f).march = s.march := rfl
@[simp] theorem State.modDict_flash (s : State) (f : Dict → Dict) : (s.modDict f).flash = s.flash := rfl
@[simp] theorem State.modDict_fabric (s : State) (f : Dict → Dict) : (s.modDict f).fabric = s.fabric := rfl
@[simp] theorem State.modDict_ev (s : State) (f : Dict → Dict) : (s.modDict f).ev = s.ev := rfl
@[simp] theorem State.modDict_ring (s : State) (f : Dict → Dict) : (s.modDict f).ring = s.ring := rfl
@[simp] theorem State.modDict_power (s : State) (f : Dict → Dict) : (s.modDict f).power = s.power := rfl
@[simp] theorem State.modDict_gpio (s : State) (f : Dict → Dict) : (s.modDict f).gpio = s.gpio := rfl
@[simp] theorem State.modDict_dbg (s : State) (f : Dict → Dict) : (s.modDict f).dbg = s.dbg := rfl
@[simp] theorem State.modDict_counters (s : State) (f : Dict → Dict) : (s.modDict f).counters = s.counters := rfl
@[simp] theorem State.modDict_night (s : State) (f : Dict → Dict) : (s.modDict f).night = s.night := rfl
@[simp] theorem State.modDict_load (s : State) (f : Dict → Dict) : (s.modDict f).load = s.load := rfl

@[simp] theorem State.modGpio_pending (s : State) (f : Gpio → Gpio) : (s.modGpio f).pending = s.pending := rfl
@[simp] theorem State.modGpio_freeCtr (s : State) (f : Gpio → Gpio) : (s.modGpio f).freeCtr = s.freeCtr := rfl
@[simp] theorem State.modGpio_core (s : State) (f : Gpio → Gpio) : (s.modGpio f).core = s.core := rfl
@[simp] theorem State.modGpio_transit (s : State) (f : Gpio → Gpio) : (s.modGpio f).transit = s.transit := rfl
@[simp] theorem State.modGpio_ports (s : State) (f : Gpio → Gpio) : (s.modGpio f).ports = s.ports := rfl
@[simp] theorem State.modGpio_spad (s : State) (f : Gpio → Gpio) : (s.modGpio f).spad = s.spad := rfl
@[simp] theorem State.modGpio_march (s : State) (f : Gpio → Gpio) : (s.modGpio f).march = s.march := rfl
@[simp] theorem State.modGpio_flash (s : State) (f : Gpio → Gpio) : (s.modGpio f).flash = s.flash := rfl
@[simp] theorem State.modGpio_fabric (s : State) (f : Gpio → Gpio) : (s.modGpio f).fabric = s.fabric := rfl
@[simp] theorem State.modGpio_ev (s : State) (f : Gpio → Gpio) : (s.modGpio f).ev = s.ev := rfl
@[simp] theorem State.modGpio_ring (s : State) (f : Gpio → Gpio) : (s.modGpio f).ring = s.ring := rfl
@[simp] theorem State.modGpio_dict (s : State) (f : Gpio → Gpio) : (s.modGpio f).dict = s.dict := rfl
@[simp] theorem State.modGpio_power (s : State) (f : Gpio → Gpio) : (s.modGpio f).power = s.power := rfl
@[simp] theorem State.modGpio_dbg (s : State) (f : Gpio → Gpio) : (s.modGpio f).dbg = s.dbg := rfl
@[simp] theorem State.modGpio_counters (s : State) (f : Gpio → Gpio) : (s.modGpio f).counters = s.counters := rfl
@[simp] theorem State.modGpio_night (s : State) (f : Gpio → Gpio) : (s.modGpio f).night = s.night := rfl
@[simp] theorem State.modGpio_load (s : State) (f : Gpio → Gpio) : (s.modGpio f).load = s.load := rfl

@[simp] theorem State.modFlash_pending (s : State) (f : Flash → Flash) : (s.modFlash f).pending = s.pending := rfl
@[simp] theorem State.modFlash_freeCtr (s : State) (f : Flash → Flash) : (s.modFlash f).freeCtr = s.freeCtr := rfl
@[simp] theorem State.modFlash_core (s : State) (f : Flash → Flash) : (s.modFlash f).core = s.core := rfl
@[simp] theorem State.modFlash_transit (s : State) (f : Flash → Flash) : (s.modFlash f).transit = s.transit := rfl
@[simp] theorem State.modFlash_ports (s : State) (f : Flash → Flash) : (s.modFlash f).ports = s.ports := rfl
@[simp] theorem State.modFlash_spad (s : State) (f : Flash → Flash) : (s.modFlash f).spad = s.spad := rfl
@[simp] theorem State.modFlash_march (s : State) (f : Flash → Flash) : (s.modFlash f).march = s.march := rfl
@[simp] theorem State.modFlash_fabric (s : State) (f : Flash → Flash) : (s.modFlash f).fabric = s.fabric := rfl
@[simp] theorem State.modFlash_ev (s : State) (f : Flash → Flash) : (s.modFlash f).ev = s.ev := rfl
@[simp] theorem State.modFlash_ring (s : State) (f : Flash → Flash) : (s.modFlash f).ring = s.ring := rfl
@[simp] theorem State.modFlash_dict (s : State) (f : Flash → Flash) : (s.modFlash f).dict = s.dict := rfl
@[simp] theorem State.modFlash_power (s : State) (f : Flash → Flash) : (s.modFlash f).power = s.power := rfl
@[simp] theorem State.modFlash_gpio (s : State) (f : Flash → Flash) : (s.modFlash f).gpio = s.gpio := rfl
@[simp] theorem State.modFlash_dbg (s : State) (f : Flash → Flash) : (s.modFlash f).dbg = s.dbg := rfl
@[simp] theorem State.modFlash_counters (s : State) (f : Flash → Flash) : (s.modFlash f).counters = s.counters := rfl
@[simp] theorem State.modFlash_night (s : State) (f : Flash → Flash) : (s.modFlash f).night = s.night := rfl
@[simp] theorem State.modFlash_load (s : State) (f : Flash → Flash) : (s.modFlash f).load = s.load := rfl

@[simp] theorem State.modLoad_pending (s : State) (f : LoadUnit → LoadUnit) : (s.modLoad f).pending = s.pending := rfl
@[simp] theorem State.modLoad_freeCtr (s : State) (f : LoadUnit → LoadUnit) : (s.modLoad f).freeCtr = s.freeCtr := rfl
@[simp] theorem State.modLoad_core (s : State) (f : LoadUnit → LoadUnit) : (s.modLoad f).core = s.core := rfl
@[simp] theorem State.modLoad_transit (s : State) (f : LoadUnit → LoadUnit) : (s.modLoad f).transit = s.transit := rfl
@[simp] theorem State.modLoad_ports (s : State) (f : LoadUnit → LoadUnit) : (s.modLoad f).ports = s.ports := rfl
@[simp] theorem State.modLoad_spad (s : State) (f : LoadUnit → LoadUnit) : (s.modLoad f).spad = s.spad := rfl
@[simp] theorem State.modLoad_march (s : State) (f : LoadUnit → LoadUnit) : (s.modLoad f).march = s.march := rfl
@[simp] theorem State.modLoad_flash (s : State) (f : LoadUnit → LoadUnit) : (s.modLoad f).flash = s.flash := rfl
@[simp] theorem State.modLoad_fabric (s : State) (f : LoadUnit → LoadUnit) : (s.modLoad f).fabric = s.fabric := rfl
@[simp] theorem State.modLoad_ev (s : State) (f : LoadUnit → LoadUnit) : (s.modLoad f).ev = s.ev := rfl
@[simp] theorem State.modLoad_ring (s : State) (f : LoadUnit → LoadUnit) : (s.modLoad f).ring = s.ring := rfl
@[simp] theorem State.modLoad_dict (s : State) (f : LoadUnit → LoadUnit) : (s.modLoad f).dict = s.dict := rfl
@[simp] theorem State.modLoad_power (s : State) (f : LoadUnit → LoadUnit) : (s.modLoad f).power = s.power := rfl
@[simp] theorem State.modLoad_gpio (s : State) (f : LoadUnit → LoadUnit) : (s.modLoad f).gpio = s.gpio := rfl
@[simp] theorem State.modLoad_dbg (s : State) (f : LoadUnit → LoadUnit) : (s.modLoad f).dbg = s.dbg := rfl
@[simp] theorem State.modLoad_counters (s : State) (f : LoadUnit → LoadUnit) : (s.modLoad f).counters = s.counters := rfl
@[simp] theorem State.modLoad_night (s : State) (f : LoadUnit → LoadUnit) : (s.modLoad f).night = s.night := rfl

@[simp] theorem State.modMarch_pending (s : State) (f : March → March) : (s.modMarch f).pending = s.pending := rfl
@[simp] theorem State.modMarch_freeCtr (s : State) (f : March → March) : (s.modMarch f).freeCtr = s.freeCtr := rfl
@[simp] theorem State.modMarch_core (s : State) (f : March → March) : (s.modMarch f).core = s.core := rfl
@[simp] theorem State.modMarch_transit (s : State) (f : March → March) : (s.modMarch f).transit = s.transit := rfl
@[simp] theorem State.modMarch_ports (s : State) (f : March → March) : (s.modMarch f).ports = s.ports := rfl
@[simp] theorem State.modMarch_spad (s : State) (f : March → March) : (s.modMarch f).spad = s.spad := rfl
@[simp] theorem State.modMarch_flash (s : State) (f : March → March) : (s.modMarch f).flash = s.flash := rfl
@[simp] theorem State.modMarch_fabric (s : State) (f : March → March) : (s.modMarch f).fabric = s.fabric := rfl
@[simp] theorem State.modMarch_ev (s : State) (f : March → March) : (s.modMarch f).ev = s.ev := rfl
@[simp] theorem State.modMarch_ring (s : State) (f : March → March) : (s.modMarch f).ring = s.ring := rfl
@[simp] theorem State.modMarch_dict (s : State) (f : March → March) : (s.modMarch f).dict = s.dict := rfl
@[simp] theorem State.modMarch_power (s : State) (f : March → March) : (s.modMarch f).power = s.power := rfl
@[simp] theorem State.modMarch_gpio (s : State) (f : March → March) : (s.modMarch f).gpio = s.gpio := rfl
@[simp] theorem State.modMarch_dbg (s : State) (f : March → March) : (s.modMarch f).dbg = s.dbg := rfl
@[simp] theorem State.modMarch_counters (s : State) (f : March → March) : (s.modMarch f).counters = s.counters := rfl
@[simp] theorem State.modMarch_night (s : State) (f : March → March) : (s.modMarch f).night = s.night := rfl
@[simp] theorem State.modMarch_load (s : State) (f : March → March) : (s.modMarch f).load = s.load := rfl

@[simp] theorem State.modTransit_pending (s : State) (f : Transit → Transit) : (s.modTransit f).pending = s.pending := rfl
@[simp] theorem State.modTransit_freeCtr (s : State) (f : Transit → Transit) : (s.modTransit f).freeCtr = s.freeCtr := rfl
@[simp] theorem State.modTransit_core (s : State) (f : Transit → Transit) : (s.modTransit f).core = s.core := rfl
@[simp] theorem State.modTransit_ports (s : State) (f : Transit → Transit) : (s.modTransit f).ports = s.ports := rfl
@[simp] theorem State.modTransit_spad (s : State) (f : Transit → Transit) : (s.modTransit f).spad = s.spad := rfl
@[simp] theorem State.modTransit_march (s : State) (f : Transit → Transit) : (s.modTransit f).march = s.march := rfl
@[simp] theorem State.modTransit_flash (s : State) (f : Transit → Transit) : (s.modTransit f).flash = s.flash := rfl
@[simp] theorem State.modTransit_fabric (s : State) (f : Transit → Transit) : (s.modTransit f).fabric = s.fabric := rfl
@[simp] theorem State.modTransit_ev (s : State) (f : Transit → Transit) : (s.modTransit f).ev = s.ev := rfl
@[simp] theorem State.modTransit_ring (s : State) (f : Transit → Transit) : (s.modTransit f).ring = s.ring := rfl
@[simp] theorem State.modTransit_dict (s : State) (f : Transit → Transit) : (s.modTransit f).dict = s.dict := rfl
@[simp] theorem State.modTransit_power (s : State) (f : Transit → Transit) : (s.modTransit f).power = s.power := rfl
@[simp] theorem State.modTransit_gpio (s : State) (f : Transit → Transit) : (s.modTransit f).gpio = s.gpio := rfl
@[simp] theorem State.modTransit_dbg (s : State) (f : Transit → Transit) : (s.modTransit f).dbg = s.dbg := rfl
@[simp] theorem State.modTransit_counters (s : State) (f : Transit → Transit) : (s.modTransit f).counters = s.counters := rfl
@[simp] theorem State.modTransit_night (s : State) (f : Transit → Transit) : (s.modTransit f).night = s.night := rfl
@[simp] theorem State.modTransit_load (s : State) (f : Transit → Transit) : (s.modTransit f).load = s.load := rfl

@[simp] theorem State.setSrc_pending (s : State) (n : Nat) (v : Source) : (s.setSrc n v).pending = s.pending := rfl
@[simp] theorem State.setSrc_freeCtr (s : State) (n : Nat) (v : Source) : (s.setSrc n v).freeCtr = s.freeCtr := rfl
@[simp] theorem State.setSrc_core (s : State) (n : Nat) (v : Source) : (s.setSrc n v).core = s.core := rfl
@[simp] theorem State.setSrc_transit (s : State) (n : Nat) (v : Source) : (s.setSrc n v).transit = s.transit := rfl
@[simp] theorem State.setSrc_ports (s : State) (n : Nat) (v : Source) : (s.setSrc n v).ports = s.ports := rfl
@[simp] theorem State.setSrc_spad (s : State) (n : Nat) (v : Source) : (s.setSrc n v).spad = s.spad := rfl
@[simp] theorem State.setSrc_march (s : State) (n : Nat) (v : Source) : (s.setSrc n v).march = s.march := rfl
@[simp] theorem State.setSrc_flash (s : State) (n : Nat) (v : Source) : (s.setSrc n v).flash = s.flash := rfl
@[simp] theorem State.setSrc_fabric (s : State) (n : Nat) (v : Source) : (s.setSrc n v).fabric = s.fabric := rfl
@[simp] theorem State.setSrc_ring (s : State) (n : Nat) (v : Source) : (s.setSrc n v).ring = s.ring := rfl
@[simp] theorem State.setSrc_dict (s : State) (n : Nat) (v : Source) : (s.setSrc n v).dict = s.dict := rfl
@[simp] theorem State.setSrc_power (s : State) (n : Nat) (v : Source) : (s.setSrc n v).power = s.power := rfl
@[simp] theorem State.setSrc_gpio (s : State) (n : Nat) (v : Source) : (s.setSrc n v).gpio = s.gpio := rfl
@[simp] theorem State.setSrc_dbg (s : State) (n : Nat) (v : Source) : (s.setSrc n v).dbg = s.dbg := rfl
@[simp] theorem State.setSrc_counters (s : State) (n : Nat) (v : Source) : (s.setSrc n v).counters = s.counters := rfl
@[simp] theorem State.setSrc_night (s : State) (n : Nat) (v : Source) : (s.setSrc n v).night = s.night := rfl
@[simp] theorem State.setSrc_load (s : State) (n : Nat) (v : Source) : (s.setSrc n v).load = s.load := rfl

@[simp] theorem State.countN_pending (s : State) (c : CoreId) (x : Option CtxId) (e m : Nat) : (s.countN c x e m).pending = s.pending := by simp only [State.countN]
@[simp] theorem State.countN_freeCtr (s : State) (c : CoreId) (x : Option CtxId) (e m : Nat) : (s.countN c x e m).freeCtr = s.freeCtr := by simp only [State.countN]
@[simp] theorem State.countN_core (s : State) (c : CoreId) (x : Option CtxId) (e m : Nat) : (s.countN c x e m).core = s.core := by simp only [State.countN]
@[simp] theorem State.countN_transit (s : State) (c : CoreId) (x : Option CtxId) (e m : Nat) : (s.countN c x e m).transit = s.transit := by simp only [State.countN]
@[simp] theorem State.countN_ports (s : State) (c : CoreId) (x : Option CtxId) (e m : Nat) : (s.countN c x e m).ports = s.ports := by simp only [State.countN]
@[simp] theorem State.countN_spad (s : State) (c : CoreId) (x : Option CtxId) (e m : Nat) : (s.countN c x e m).spad = s.spad := by simp only [State.countN]
@[simp] theorem State.countN_march (s : State) (c : CoreId) (x : Option CtxId) (e m : Nat) : (s.countN c x e m).march = s.march := by simp only [State.countN]
@[simp] theorem State.countN_flash (s : State) (c : CoreId) (x : Option CtxId) (e m : Nat) : (s.countN c x e m).flash = s.flash := by simp only [State.countN]
@[simp] theorem State.countN_fabric (s : State) (c : CoreId) (x : Option CtxId) (e m : Nat) : (s.countN c x e m).fabric = s.fabric := by simp only [State.countN]
@[simp] theorem State.countN_ev (s : State) (c : CoreId) (x : Option CtxId) (e m : Nat) : (s.countN c x e m).ev = s.ev := by simp only [State.countN]
@[simp] theorem State.countN_ring (s : State) (c : CoreId) (x : Option CtxId) (e m : Nat) : (s.countN c x e m).ring = s.ring := by simp only [State.countN]
@[simp] theorem State.countN_dict (s : State) (c : CoreId) (x : Option CtxId) (e m : Nat) : (s.countN c x e m).dict = s.dict := by simp only [State.countN]
@[simp] theorem State.countN_power (s : State) (c : CoreId) (x : Option CtxId) (e m : Nat) : (s.countN c x e m).power = s.power := by simp only [State.countN]
@[simp] theorem State.countN_gpio (s : State) (c : CoreId) (x : Option CtxId) (e m : Nat) : (s.countN c x e m).gpio = s.gpio := by simp only [State.countN]
@[simp] theorem State.countN_dbg (s : State) (c : CoreId) (x : Option CtxId) (e m : Nat) : (s.countN c x e m).dbg = s.dbg := by simp only [State.countN]
@[simp] theorem State.countN_night (s : State) (c : CoreId) (x : Option CtxId) (e m : Nat) : (s.countN c x e m).night = s.night := by simp only [State.countN]
@[simp] theorem State.countN_load (s : State) (c : CoreId) (x : Option CtxId) (e m : Nat) : (s.countN c x e m).load = s.load := by simp only [State.countN]

@[simp] theorem State.countB_pending (s : State) (e m : Nat) : (s.countB e m).pending = s.pending := by simp only [State.countB]
@[simp] theorem State.countB_freeCtr (s : State) (e m : Nat) : (s.countB e m).freeCtr = s.freeCtr := by simp only [State.countB]
@[simp] theorem State.countB_core (s : State) (e m : Nat) : (s.countB e m).core = s.core := by simp only [State.countB]
@[simp] theorem State.countB_transit (s : State) (e m : Nat) : (s.countB e m).transit = s.transit := by simp only [State.countB]
@[simp] theorem State.countB_ports (s : State) (e m : Nat) : (s.countB e m).ports = s.ports := by simp only [State.countB]
@[simp] theorem State.countB_spad (s : State) (e m : Nat) : (s.countB e m).spad = s.spad := by simp only [State.countB]
@[simp] theorem State.countB_march (s : State) (e m : Nat) : (s.countB e m).march = s.march := by simp only [State.countB]
@[simp] theorem State.countB_flash (s : State) (e m : Nat) : (s.countB e m).flash = s.flash := by simp only [State.countB]
@[simp] theorem State.countB_fabric (s : State) (e m : Nat) : (s.countB e m).fabric = s.fabric := by simp only [State.countB]
@[simp] theorem State.countB_ev (s : State) (e m : Nat) : (s.countB e m).ev = s.ev := by simp only [State.countB]
@[simp] theorem State.countB_ring (s : State) (e m : Nat) : (s.countB e m).ring = s.ring := by simp only [State.countB]
@[simp] theorem State.countB_dict (s : State) (e m : Nat) : (s.countB e m).dict = s.dict := by simp only [State.countB]
@[simp] theorem State.countB_power (s : State) (e m : Nat) : (s.countB e m).power = s.power := by simp only [State.countB]
@[simp] theorem State.countB_gpio (s : State) (e m : Nat) : (s.countB e m).gpio = s.gpio := by simp only [State.countB]
@[simp] theorem State.countB_dbg (s : State) (e m : Nat) : (s.countB e m).dbg = s.dbg := by simp only [State.countB]
@[simp] theorem State.countB_night (s : State) (e m : Nat) : (s.countB e m).night = s.night := by simp only [State.countB]
@[simp] theorem State.countB_load (s : State) (e m : Nat) : (s.countB e m).load = s.load := by simp only [State.countB]

@[simp] theorem State.count_pending (s : State) (c : CoreId) (x : CtxId) (e : Nat) : (s.count c x e).pending = s.pending := State.countN_pending ..
@[simp] theorem State.count_freeCtr (s : State) (c : CoreId) (x : CtxId) (e : Nat) : (s.count c x e).freeCtr = s.freeCtr := State.countN_freeCtr ..
@[simp] theorem State.count_core (s : State) (c : CoreId) (x : CtxId) (e : Nat) : (s.count c x e).core = s.core := State.countN_core ..
@[simp] theorem State.count_transit (s : State) (c : CoreId) (x : CtxId) (e : Nat) : (s.count c x e).transit = s.transit := State.countN_transit ..
@[simp] theorem State.count_ports (s : State) (c : CoreId) (x : CtxId) (e : Nat) : (s.count c x e).ports = s.ports := State.countN_ports ..
@[simp] theorem State.count_spad (s : State) (c : CoreId) (x : CtxId) (e : Nat) : (s.count c x e).spad = s.spad := State.countN_spad ..
@[simp] theorem State.count_march (s : State) (c : CoreId) (x : CtxId) (e : Nat) : (s.count c x e).march = s.march := State.countN_march ..
@[simp] theorem State.count_flash (s : State) (c : CoreId) (x : CtxId) (e : Nat) : (s.count c x e).flash = s.flash := State.countN_flash ..
@[simp] theorem State.count_fabric (s : State) (c : CoreId) (x : CtxId) (e : Nat) : (s.count c x e).fabric = s.fabric := State.countN_fabric ..
@[simp] theorem State.count_ev (s : State) (c : CoreId) (x : CtxId) (e : Nat) : (s.count c x e).ev = s.ev := State.countN_ev ..
@[simp] theorem State.count_ring (s : State) (c : CoreId) (x : CtxId) (e : Nat) : (s.count c x e).ring = s.ring := State.countN_ring ..
@[simp] theorem State.count_dict (s : State) (c : CoreId) (x : CtxId) (e : Nat) : (s.count c x e).dict = s.dict := State.countN_dict ..
@[simp] theorem State.count_power (s : State) (c : CoreId) (x : CtxId) (e : Nat) : (s.count c x e).power = s.power := State.countN_power ..
@[simp] theorem State.count_gpio (s : State) (c : CoreId) (x : CtxId) (e : Nat) : (s.count c x e).gpio = s.gpio := State.countN_gpio ..
@[simp] theorem State.count_dbg (s : State) (c : CoreId) (x : CtxId) (e : Nat) : (s.count c x e).dbg = s.dbg := State.countN_dbg ..
@[simp] theorem State.count_night (s : State) (c : CoreId) (x : CtxId) (e : Nat) : (s.count c x e).night = s.night := State.countN_night ..
@[simp] theorem State.count_load (s : State) (c : CoreId) (x : CtxId) (e : Nat) : (s.count c x e).load = s.load := State.countN_load ..

@[simp] theorem State.countC_pending (s : State) (c : CoreId) (e : Nat) : (s.countC c e).pending = s.pending := State.countN_pending ..
@[simp] theorem State.countC_freeCtr (s : State) (c : CoreId) (e : Nat) : (s.countC c e).freeCtr = s.freeCtr := State.countN_freeCtr ..
@[simp] theorem State.countC_core (s : State) (c : CoreId) (e : Nat) : (s.countC c e).core = s.core := State.countN_core ..
@[simp] theorem State.countC_transit (s : State) (c : CoreId) (e : Nat) : (s.countC c e).transit = s.transit := State.countN_transit ..
@[simp] theorem State.countC_ports (s : State) (c : CoreId) (e : Nat) : (s.countC c e).ports = s.ports := State.countN_ports ..
@[simp] theorem State.countC_spad (s : State) (c : CoreId) (e : Nat) : (s.countC c e).spad = s.spad := State.countN_spad ..
@[simp] theorem State.countC_march (s : State) (c : CoreId) (e : Nat) : (s.countC c e).march = s.march := State.countN_march ..
@[simp] theorem State.countC_flash (s : State) (c : CoreId) (e : Nat) : (s.countC c e).flash = s.flash := State.countN_flash ..
@[simp] theorem State.countC_fabric (s : State) (c : CoreId) (e : Nat) : (s.countC c e).fabric = s.fabric := State.countN_fabric ..
@[simp] theorem State.countC_ev (s : State) (c : CoreId) (e : Nat) : (s.countC c e).ev = s.ev := State.countN_ev ..
@[simp] theorem State.countC_ring (s : State) (c : CoreId) (e : Nat) : (s.countC c e).ring = s.ring := State.countN_ring ..
@[simp] theorem State.countC_dict (s : State) (c : CoreId) (e : Nat) : (s.countC c e).dict = s.dict := State.countN_dict ..
@[simp] theorem State.countC_power (s : State) (c : CoreId) (e : Nat) : (s.countC c e).power = s.power := State.countN_power ..
@[simp] theorem State.countC_gpio (s : State) (c : CoreId) (e : Nat) : (s.countC c e).gpio = s.gpio := State.countN_gpio ..
@[simp] theorem State.countC_dbg (s : State) (c : CoreId) (e : Nat) : (s.countC c e).dbg = s.dbg := State.countN_dbg ..
@[simp] theorem State.countC_night (s : State) (c : CoreId) (e : Nat) : (s.countC c e).night = s.night := State.countN_night ..
@[simp] theorem State.countC_load (s : State) (c : CoreId) (e : Nat) : (s.countC c e).load = s.load := State.countN_load ..

/-! ## Cores and contexts -/

@[simp] theorem State.modCore_self (s : State) (c : CoreId) (f : Core → Core) : (s.modCore c f).core[c.val] = f s.core[c.val] := by
  simp [State.modCore]

theorem State.modCore_ne (s : State) (c d : CoreId) (f : Core → Core) (h : d ≠ c) :
    (s.modCore c f).core[d.val] = s.core[d.val] := by
  have : ¬ (c.val = d.val) := fun e => h (Fin.ext e.symm)
  simp [State.modCore, this]

@[simp] theorem Core.modCtx_self (k : Core) (x : CtxId) (f : Ctx → Ctx) : (k.modCtx x f).ctx[x.val] = f k.ctx[x.val] := by
  simp [Core.modCtx]

theorem Core.modCtx_ne (k : Core) (x y : CtxId) (f : Ctx → Ctx) (h : y ≠ x) : (k.modCtx x f).ctx[y.val] = k.ctx[y.val] := by
  have : ¬ (x.val = y.val) := fun e => h (Fin.ext e.symm)
  simp [Core.modCtx, this]

@[simp] theorem State.ctx_modCtx (s : State) (c : CoreId) (x : CtxId) (f : Ctx → Ctx) : (s.modCtx c x f).ctx c x = f (s.ctx c x) := by
  simp [State.modCtx, State.ctx]

theorem State.ctx_modCtx_ne (s : State) (c : CoreId) (x y : CtxId) (f : Ctx → Ctx) (h : y ≠ x) :
    (s.modCtx c x f).ctx c y = s.ctx c y := by
  simp [State.modCtx, State.ctx, Core.modCtx_ne _ _ _ _ h]

theorem State.ctx_modCtx_core (s : State) (c d : CoreId) (x y : CtxId) (f : Ctx → Ctx) (h : d ≠ c) :
    (s.modCtx c x f).ctx d y = s.ctx d y := by
  simp [State.modCtx, State.ctx, State.modCore_ne _ _ _ _ h]

@[simp] theorem State.count_ctx (s : State) (c : CoreId) (x : CtxId) (e : Nat) (d : CoreId) (y : CtxId) :
    (s.count c x e).ctx d y = s.ctx d y := by simp [State.ctx]

@[simp] theorem State.countC_ctx (s : State) (c : CoreId) (e : Nat) (d : CoreId) (y : CtxId) :
    (s.countC c e).ctx d y = s.ctx d y := by simp [State.ctx]

@[simp] theorem State.modTb_self (s : State) (t : TbId) (f : Tb → Tb) : (s.modTb t f).transit.tb[t.val] = f s.transit.tb[t.val] := by
  simp [State.modTb]

@[simp] theorem State.modPort_self (s : State) (p : Fin 8) (f : Port → Port) : (s.modPort p f).ports.port[p.val] = f s.ports.port[p.val] := by
  simp [State.modPort]

@[simp] theorem State.modMs_self (s : State) (n : Fin 4) (f : Ms → Ms) : (s.modMs n f).ports.ms[n.val] = f s.ports.ms[n.val] := by
  simp [State.modMs]

@[simp] theorem State.modRp_self (s : State) (p : PortId) (f : RingPort → RingPort) : (s.modRp p f).ring.port[p.val] = f s.ring.port[p.val] := by
  simp [State.modRp]

@[simp] theorem State.modRing_ring (s : State) (f : Ring → Ring) : (s.modRing f).ring = f s.ring := rfl
@[simp] theorem State.modFlash_flash (s : State) (f : Flash → Flash) : (s.modFlash f).flash = f s.flash := rfl
@[simp] theorem State.modLoad_load (s : State) (f : LoadUnit → LoadUnit) : (s.modLoad f).load = f s.load := rfl
@[simp] theorem State.modMarch_march (s : State) (f : March → March) : (s.modMarch f).march = f s.march := rfl
@[simp] theorem State.modTransit_transit (s : State) (f : Transit → Transit) : (s.modTransit f).transit = f s.transit := rfl
@[simp] theorem State.modEv_ev (s : State) (f : Events → Events) : (s.modEv f).ev = f s.ev := rfl
@[simp] theorem State.modPower_power (s : State) (f : Power → Power) : (s.modPower f).power = f s.power := rfl
@[simp] theorem State.modDbg_dbg (s : State) (f : Debug → Debug) : (s.modDbg f).dbg = f s.dbg := rfl
@[simp] theorem State.modNight_night (s : State) (f : Night → Night) : (s.modNight f).night = f s.night := rfl
@[simp] theorem State.modDict_dict (s : State) (f : Dict → Dict) : (s.modDict f).dict = f s.dict := rfl
@[simp] theorem State.modGpio_gpio (s : State) (f : Gpio → Gpio) : (s.modGpio f).gpio = f s.gpio := rfl

end Sys2Proof.Machine
end

