-- ==== Sys2Proof/Laws/Issue.lean ====
section
/-! SUPPORT. What the issue of an instruction comes to when nothing stands in its way, and what its end leaves. -/

namespace Sys2Proof.Machine

open Sys2Proof

@[simp] theorem Res.bind_ok {α β : Type} (v : α) (s : State) (f : α → State → Res β) : (Res.ok v s).bind f = f v s := rfl
@[simp] theorem Res.also_ok {α : Type} (v : α) (s : State) (f : State → State) : (Res.ok v s).also f = .ok v (f s) := rfl
@[simp] theorem Res.onFault_ok {α : Type} (v : α) (s : State) (f : State → State) : (Res.ok v s).onFault f = .ok v s := rfl

theorem fetch_buffered (s : State) (c : CoreId) (x : CtxId) (n : Nat)
    (h1 : (s.ctx c x).fbuf.contains ((s.ctx c x).codeAddr 0 &&& 0xFFFFFFE0) = true)
    (h2 : (s.ctx c x).fbuf.contains ((s.ctx c x).codeAddr (n - 1) &&& 0xFFFFFFE0) = true) : s.fetch c x n = .ok () s := by
  simp only [State.fetch, h1, h2, if_true, Res.bind_ok, ite_self]

/-- With no routine in X there is nothing to save for an instruction to issue. -/
theorem makeRoom_empty {s : State} {c : CoreId} (x : CtxId) (h : s.core[c].midRoutine = none) : s.makeRoom c x = s := by
  simp only [State.makeRoom, State.takeX, h, reduceCtorEq, if_false]

/-- An instruction that goes well, and begins no spill or fill, is finished. -/
theorem runBody_ok {s s1 : State} {c : CoreId} {x : CtxId} {d : Done} (e : Enc) (npc : Word) (keep : Bool) {body : State → Res Done}
    (hb : body s = .ok d s1) (hm : (s1.ctx c x).moved = (s.ctx c x).moved) :
    s.runBody c x e npc keep body = s1.finish c x npc (s.ctx c x).priv true d := by
  have h : ((s.ctx c x).moved.isNone && (s.ctx c x).moved.isSome) = false := by cases (s.ctx c x).moved <;> rfl
  simp only [State.runBody, hb, Res.state, hm, h, Bool.false_eq_true, if_false, State.conclude]

/-- An instruction that is ready does what its meaning says. -/
theorem issue_ready {s : State} {c : CoreId} {x : CtxId} {e : Enc} (body : State → Res Done) (h : Ready s c x e) :
    s.issue c x e body = .next (s.runBody c x e (after s c x e.len) false body) := by
  obtain ⟨⟨h1, h2, _, h3, h4, h5⟩, h6, h7, h8⟩ := h
  have hf := fetch_buffered s c x e.len h4 h5
  have hr : s.romReads c (dispatch e.index) = s := by
    simp only [State.romReads, h8, List.filter_nil, List.foldl_nil]
  simp only [State.issue, h1, makeRoom_empty x h3, h2, Bool.not_true, Bool.false_eq_true, if_false, State.vendor, State.afterFetch, hf, h6,
    hr, h7]

theorem simple_ready {s s1 : State} {c : CoreId} {x : CtxId} {e : Enc} {body : State → Res (Option Word)} {o : Option Word}
    (h : Ready s c x e) (hm : (s1.ctx c x).moved = (s.ctx c x).moved) : body s = .ok o s1 →
    s.simple c x e body = .next (s1.finish c x (after s c x e.len) (s.ctx c x).priv true
      { flow := match o with | some a => .jump a | none => .seq }) := by
  intro hb
  rw [State.simple, issue_ready _ h]
  cases o with
  | none => exact congrArg _ (runBody_ok (d := {}) _ _ _ (by simp only [hb]; rfl) hm)
  | some a => exact congrArg _ (runBody_ok (d := { flow := .jump a }) _ _ _ (by simp only [hb]; rfl) hm)

/-- The cells an instruction needs are there, and the places for its new ones are free. -/
theorem need_cells {s : State} {c : CoreId} {x : CtxId} {n : Nat} {touch : List Nat} {pops pushes : Nat}
    (h : Cells s c x n) (ht : ∀ i ∈ touch, i < n) (hn : pops ≤ n) (hp : (s.ctx c x).depth - pops + pushes ≤ 8) :
    s.need c x n touch pops pushes = .ok () s := by
  obtain ⟨h1, h2, h3, h4⟩ := h
  have hr : s.ready c x (touch.map (s.ctx c x).topEntry ++ (s.ctx c x).newEntries pops pushes) = .ok () s := by
    have : (touch.map (s.ctx c x).topEntry ++ (s.ctx c x).newEntries pops pushes).find? (fun e => (s.ctx c x).dpend[e]) = none := by
      simp only [List.find?_eq_none, List.mem_append, List.mem_map, Ctx.newEntries, List.mem_range]
      rintro e (⟨i, hi, rfl⟩ | ⟨i, hi, rfl⟩)
      · simp only [h3 i (ht i hi), Bool.false_eq_true, not_false_eq_true]
      · by_cases hd : (s.ctx c x).depth ≤ (s.ctx c x).depth - pops + i
        · simp only [h4 _ (by omega) hd, Bool.false_eq_true, not_false_eq_true]
        · have h5 := h3 (pops - 1 - i) (by omega)
          have he : (s.ctx c x).topEntry (pops - 1 - i) = entryOf (s.ctx c x).win ((s.ctx c x).depth - pops + i) := by
            simp only [Ctx.topEntry, entryOf]; apply Fin.ext; simp only; omega
          simp only [he] at h5
          simp only [h5, Bool.false_eq_true, not_false_eq_true]
    simp only [State.ready, this]
  simp only [State.need, if_neg (Nat.not_lt.mpr h2), if_neg (Nat.not_lt.mpr h1), if_neg (Nat.not_lt.mpr hp), hr]

theorem stackOp_cells {s : State} {c : CoreId} {x : CtxId} {n : Nat} {touch : List Nat} {pops : Nat}
    {vs : (Nat → Word) → List Word}
    (h : Cells s c x n) (ht : ∀ i ∈ touch, i < n) (hn : pops ≤ n)
    (hp : (s.ctx c x).depth - pops + (vs (s.ctx c x).cell).length ≤ 8) :
    s.stackOp c x n touch pops vs = .ok none (s.replace c x pops (vs (s.ctx c x).cell)) := by
  simp only [State.stackOp, need_cells h ht hn hp, Res.bind_ok]

/-! ## The end of an instruction -/

theorem rejoin_fields (t : Ctx) :
    t.rejoin = { t with routine := t.rejoin.routine, held := t.rejoin.held, slot := t.rejoin.slot, moved := t.rejoin.moved } := by
  unfold Ctx.rejoin
  split
  · split <;> rfl
  · rfl

theorem rejoin_kept (t : Ctx) (h1 : t.routine = none) (h2 : t.moved = none) : RoutineKept t t.rejoin := by
  unfold Ctx.rejoin RoutineKept
  split
  · next h hh =>
    split
    · exact ⟨Or.inl rfl, fun q => by rw [hh] at q; simp at q⟩
    · exact ⟨Or.inr rfl, fun q => by rw [hh] at q; simp at q⟩
  · exact ⟨Or.inr rfl, fun _ => ⟨h1, h2, rfl⟩⟩

theorem ended_fields (t : Ctx) (a : Word) :
    t.ended a = { t with pc := a, waitFor := none, served := none, redo := false, routine := (t.ended a).routine,
                         held := (t.ended a).held, slot := (t.ended a).slot, moved := (t.ended a).moved, seen := 0, image := none } := by
  unfold Ctx.ended
  rw [rejoin_fields]

theorem ended_routine (t : Ctx) (a : Word) : RoutineKept t (t.ended a) := rejoin_kept _ rfl rfl

theorem core_ended_fields (k : Core) (x : CtxId) (p : BitVec 2) (vendor : Bool) :
    k.ended x p vendor = { k with
      last := some x, qcount := (k.ended x p vendor).qcount, stepRan := k.stepping, u := (k.ended x p vendor).u,
      ucnt := (k.ended x p vendor).ucnt, uFree := (k.ended x p vendor).uFree } := by
  simp only [Core.ended, Core.issued]
  split
  · rfl
  · split <;> rfl

@[simp] theorem core_ended_ctx (k : Core) (x : CtxId) (p : BitVec 2) (vendor : Bool) : (k.ended x p vendor).ctx = k.ctx := by
  rw [core_ended_fields]

@[simp] theorem core_ended_btb (k : Core) (x : CtxId) (p : BitVec 2) (vendor : Bool) : (k.ended x p vendor).btb = k.btb := by
  rw [core_ended_fields]

@[simp] theorem countEnd_core (s : State) (c : CoreId) (x : CtxId) : (s.countEnd c x).core = s.core := by
  unfold State.countEnd; simp only; split <;> simp

theorem countN_rest (s : State) (c : CoreId) (x : Option CtxId) (e m : Nat) : RestKept s (s.countN c x e m) := by
  simp only [RestKept, State.countN]

theorem RestKept.trans {s t u : State} (h1 : RestKept s t) (h2 : RestKept t u) : RestKept s u := by
  unfold RestKept at *
  rw [h2, h1]

theorem countEnd_rest (s : State) (c : CoreId) (x : CtxId) : RestKept s (s.countEnd c x) := by
  unfold State.countEnd; simp only
  split
  · exact (countN_rest ..).trans (countN_rest ..)
  · exact countN_rest ..

theorem modCore_rest (s : State) (c : CoreId) (f : Core → Core) : RestKept s (s.modCore c f) := rfl

/-- What the end of an instruction leaves, for one that changes its own context by `g`. -/
theorem ended_kept (s s1 : State) (c : CoreId) (x : CtxId) (p : BitVec 2) (vendor : Bool) (g : Ctx → Ctx)
    (hc : s1.core = (s.modCtx c x g).core) (hr : RestKept s s1) :
    let t := (s1.countEnd c x).modCore c fun k => k.ended x p vendor
    t.ctx c x = g (s.ctx c x) ∧ CoreKept s t c x ∧ RestKept s t := by
  intro t
  have ht : t.core[c.val] = (s.core[c.val].modCtx x g).ended x p vendor := by
    simp only [t, State.modCore_self, countEnd_core, hc]
    simp [State.modCtx]
  refine ⟨?_, ⟨?_, ?_, ?_⟩, ?_⟩
  · simp only [State.ctx, Fin.getElem_fin, ht, core_ended_ctx, Core.modCtx_self]
  · intro d hd
    simp only [t, Fin.getElem_fin, State.modCore_ne _ _ _ _ hd, countEnd_core, hc]
    simp [State.modCtx, State.modCore_ne _ _ _ _ hd]
  · intro y hy
    simp only [State.ctx, Fin.getElem_fin, ht, core_ended_ctx, Core.modCtx_ne _ _ _ _ hy]
  · simp only [Fin.getElem_fin, ht]
    rw [core_ended_fields]
    rfl
  · exact (hr.trans (countEnd_rest ..)).trans (modCore_rest ..)

/-- An instruction that goes on at the next one. -/
theorem finish_seq (s : State) (c : CoreId) (x : CtxId) (npc : Word) (p : BitVec 2) (vendor : Bool) :
    let t := s.finish c x npc p vendor {}
    t.ctx c x = (s.ctx c x).ended npc ∧ CoreKept s t c x ∧ RestKept s t :=
  ended_kept s _ c x p vendor (fun t => t.ended npc) rfl rfl

theorem ctxKept_of {w u v : Ctx}
    (h1 : u = { w with dstk := u.dstk, wtag := u.wtag, frame := u.frame, rstk := u.rstk, rtag := u.rtag, rtop := u.rtop })
    (h2 : v = { u with pc := v.pc, waitFor := none, served := none, redo := false, routine := v.routine, held := v.held, slot := v.slot,
                       moved := v.moved, seen := 0, image := none, btbAt := v.btbAt }) :
    v = { w with pc := v.pc, dstk := v.dstk, wtag := v.wtag, frame := v.frame, rstk := v.rstk, rtag := v.rtag, rtop := v.rtop, waitFor := none,
                 served := none, redo := false, routine := v.routine, held := v.held, slot := v.slot, moved := v.moved, seen := 0,
                 image := none, btbAt := v.btbAt } := by
  cases w; cases u; cases v
  simp only [Ctx.mk.injEq] at *
  simp_all

/-- What is kept of a routine depends on two fields of the context before. -/
theorem routineKept_congr {w u v : Ctx} (h1 : u.held = w.held) (h2 : u.slot = w.slot) (h : RoutineKept u v) : RoutineKept w v := by
  unfold RoutineKept at *
  rw [h1, h2] at h
  exact h

theorem coreKept_of {k k1 k2 : Core} {x : CtxId} (h1 : k1 = { k with ctx := k1.ctx })
    (h2 : k2 = { k1 with ctx := k2.ctx, last := some x, qcount := k2.qcount, btb := k2.btb, stepRan := k1.stepping, u := k2.u,
                         ucnt := k2.ucnt, uFree := k2.uFree }) :
    k2 = { k with ctx := k2.ctx, last := some x, qcount := k2.qcount, btb := k2.btb, stepRan := k.stepping, u := k2.u,
                  ucnt := k2.ucnt, uFree := k2.uFree } := by
  cases k; cases k1; cases k2
  simp only [Core.mk.injEq] at *
  simp_all

/-- The end of an instruction that changed only context `x` of core `c`. -/
theorem coreKept_modCtx {s t : State} {c : CoreId} {x : CtxId} {f : Ctx → Ctx} (h : CoreKept (s.modCtx c x f) t c x) :
    CoreKept s t c x := by
  obtain ⟨h1, h2, h3⟩ := h
  refine ⟨fun d hd => (h1 d hd).trans ?_, fun y hy => (h2 y hy).trans (State.ctx_modCtx_ne _ _ _ _ _ hy), ?_⟩
  · exact State.modCore_ne _ _ _ _ hd
  · refine coreKept_of (k1 := (s.modCtx c x f).core[c]) ?_ h3
    simp only [State.modCtx, Fin.getElem_fin, State.modCore_self]; rfl

theorem RestKept.refl (s : State) : RestKept s s := rfl

/-- A change that leaves a context as it is. -/
theorem modCtx_id (s : State) (c : CoreId) (x : CtxId) (f : Ctx → Ctx) (h : f (s.ctx c x) = s.ctx c x) : (s.modCtx c x f).core = s.core := by
  have hk : s.core[c].modCtx x f = s.core[c] := by
    simp only [Core.modCtx]
    simp only [State.ctx] at h
    rw [h, Fin.getElem_fin, Fin.getElem_fin, Vector.set_getElem_self]
  simp only [State.modCtx, State.modCore]
  rw [hk, Fin.getElem_fin, Vector.set_getElem_self]

/-- A taken branch touches the branch-target buffer of its core, what the decoder has of it, and counters, nothing else (R132). -/
theorem tookBranch_kept (s : State) (c : CoreId) (x : CtxId) (a b : Word) :
    (∃ l q, (s.tookBranch c x a b).core = ((s.modCore c fun k => { k with btb := l }).modCtx c x fun t => { t with btbAt := q }).core) ∧
      RestKept s (s.tookBranch c x a b) := by
  have cr : ∀ (u : State) (e : Nat), RestKept u (u.count c x e) := fun u e => countN_rest ..
  simp only [State.tookBranch]
  split
  · refine ⟨⟨s.core[c].btb, (s.ctx c x).btbAt, ?_⟩, cr ..⟩
    have same : (s.modCore c fun k => { k with btb := s.core[c].btb }).core = s.core := Vector.set_getElem_self c.isLt
    rw [State.count_core, modCtx_id, same]
    simp only [State.ctx, same]
  · refine ⟨⟨(s.count c x 0x0E).btbAfter c x a b, if (s.count c x 0x0E).core[c].btbHit x a b then some b else none, ?_⟩,
      (((cr ..).trans (modCore_rest ..)).trans (modCore_rest ..)).trans (cr ..)⟩
    rw [State.count_core]
    simp only [State.modCtx, State.modCore, State.count_core]

theorem coreKept_congr {s s1 t : State} {c : CoreId} {x : CtxId} (h : CoreKept s1 t c x) (hc : s1.core = s.core) :
    CoreKept s t c x := by
  unfold CoreKept State.ctx at *
  rw [hc] at h
  exact h

theorem coreKept_btb {s t : State} {c : CoreId} {x : CtxId} {l : List BtbEntry}
    (h : CoreKept (s.modCore c fun k => { k with btb := l }) t c x) : CoreKept s t c x := by
  obtain ⟨h1, h2, h3⟩ := h
  refine ⟨fun d hd => (h1 d hd).trans (State.modCore_ne _ _ _ _ hd), fun y hy => (h2 y hy).trans ?_, ?_⟩
  · simp only [State.ctx, Fin.getElem_fin, State.modCore_self]
  · rw [h3]
    simp only [Fin.getElem_fin, State.modCore_self]

/-- What the end of an instruction leaves, for one that changed its own context by `f` and went on at `npc` or at a target. -/
theorem finish_kept {s s1 : State} {c : CoreId} {x : CtxId} {f : Ctx → Ctx} (npc : Word) (p : BitVec 2) (vendor : Bool) (o : Option Word)
    (hc : s1.core = (s.modCtx c x f).core) (hr : RestKept s s1) :
    let t := s1.finish c x npc p vendor { flow := match o with | some a => .jump a | none => .seq }
    (∃ q, t.ctx c x = { (f (s.ctx c x)).ended (o.getD npc) with btbAt := q }) ∧ CoreKept s t c x ∧ RestKept s t := by
  have hx : s1.ctx c x = f (s.ctx c x) := by
    rw [← State.ctx_modCtx s c x f]; simp only [State.ctx, hc]
  cases o with
  | none =>
    obtain ⟨h1, h2, h3⟩ := finish_seq s1 c x npc p vendor
    exact ⟨⟨_, by rw [← hx]; exact h1⟩, coreKept_modCtx (coreKept_congr h2 hc), hr.trans h3⟩
  | some a =>
    simp only [State.finish, Option.getD_some]
    let s2 := s1.modCtx c x fun t => t.ended a
    obtain ⟨⟨l, q, h1⟩, h2⟩ := tookBranch_kept s2 c x (s1.ctx c x).pc a
    have h3 : (s2.tookBranch c x (s1.ctx c x).pc a).core =
        ((s1.modCore c fun k => { k with btb := l }).modCtx c x fun t => { t.ended a with btbAt := q }).core := by
      rw [h1]
      simp only [s2, State.modCtx, State.modCore, Core.modCtx]
      simp
    obtain ⟨g1, g2, g3⟩ := ended_kept (s1.modCore c fun k => { k with btb := l }) (s2.tookBranch c x (s1.ctx c x).pc a) c x p vendor
      (fun t => { t.ended a with btbAt := q }) h3
      (by
        have : RestKept s1 (s2.tookBranch c x (s1.ctx c x).pc a) := (modCore_rest s1 c _).trans h2
        exact this)
    refine ⟨⟨q, ?_⟩, coreKept_modCtx (coreKept_congr (coreKept_btb g2) hc), (hr.trans (modCore_rest s1 c _)).trans g3⟩
    rw [← hx]
    refine g1.trans ?_
    simp only [State.ctx, Fin.getElem_fin, State.modCore_self]

end Sys2Proof.Machine
end

