-- ==== Sys2Proof/Laws/Stack.lean ====
section
/-! SUPPORT. What replacing cells of the current frame does to the data stack, and the completion of stack instructions. -/

namespace Sys2Proof.Machine

open Sys2Proof

theorem putCells_fields (t : Ctx) (w : Fin 8) (i : Nat) (vs : List Word) :
    t.putCells w i vs = { t with dstk := (t.putCells w i vs).dstk } := by
  induction vs generalizing t i with
  | nil => rfl
  | cons v l ih => unfold Ctx.putCells; rw [ih]

theorem entryOf_inj {w w' : Fin 8} {i j : Nat} (hi : i < 8) (hj : j < 8) (h : entryOf w i = entryOf w' j) : w = w' ∧ i = j := by
  have := congrArg Fin.val h
  simp only [entryOf, Nat.mod_eq_of_lt hi, Nat.mod_eq_of_lt hj] at this
  exact ⟨Fin.ext (by omega), by omega⟩

theorem dstk_set (d : Vector Word 64) (e f : Fin 64) (v : Word) : (d.set e.val v)[f.val] = if f = e then v else d[f.val] := by
  rw [Vector.getElem_set]
  by_cases h : f = e
  · subst h; simp
  · have : ¬ (e.val = f.val) := fun q => h (Fin.ext q.symm)
    simp [h, this]

/-- A cell of window `w` after the write, and any cell of another window. -/
theorem putCells_get (t : Ctx) (w : Fin 8) (i : Nat) (vs : List Word) (h : i + vs.length ≤ 8) (j : Nat) (hj : j < 8) :
    (t.putCells w i vs).dstk[(entryOf w j).val] =
      if i ≤ j ∧ j < i + vs.length then vs.getD (j - i) 0 else t.dstk[(entryOf w j).val] := by
  induction vs generalizing t i with
  | nil => simp [Ctx.putCells, show ¬ (i ≤ j ∧ j < i) by omega]
  | cons v l ih =>
    simp only [List.length_cons] at h ⊢
    unfold Ctx.putCells
    rw [ih _ _ (by omega)]
    simp only [dstk_set]
    by_cases h1 : j = i
    · subst h1
      simp [show ¬ (j + 1 ≤ j) by omega, show j < j + (l.length + 1) by omega]
    · have h2 : ¬ (entryOf w j = entryOf w i) := fun q => h1 (entryOf_inj hj (by omega) q).2
      simp only [h2, if_false]
      by_cases h3 : i + 1 ≤ j ∧ j < i + 1 + l.length
      · rw [if_pos h3, if_pos (by omega)]
        rw [show j - i = (j - (i + 1)) + 1 by omega, List.getD_cons_succ]
      · rw [if_neg h3, if_neg (by omega)]

theorem putCells_other (t : Ctx) (w w' : Fin 8) (i : Nat) (vs : List Word) (h : i + vs.length ≤ 8) (j : Nat) (hw : w' ≠ w) :
    (t.putCells w i vs).dstk[(entryOf w' j).val] = t.dstk[(entryOf w' j).val] := by
  induction vs generalizing t i with
  | nil => rfl
  | cons v l ih =>
    simp only [List.length_cons] at h
    unfold Ctx.putCells
    rw [ih _ _ (by omega)]
    simp only [dstk_set]
    rw [if_neg]
    intro q
    have q' : entryOf w' (j % 8) = entryOf w i := by rw [← q]; simp [entryOf]
    exact hw (entryOf_inj (Nat.mod_lt _ (by omega)) (by omega) q').1

theorem wtag_set (d : Vector WinTag 8) (e f : Fin 8) (v : WinTag) : (d.set e.val v)[f.val] = if f = e then v else d[f.val] := by
  rw [Vector.getElem_set]
  by_cases h : f = e
  · subst h; simp
  · have : ¬ (e.val = f.val) := fun q => h (Fin.ext q.symm)
    simp [h, this]

/-- `replace` changes the cells and the tag of the current window and nothing else of the context. -/
theorem replace_fields (t : Ctx) (pops : Nat) (vs : List Word) :
    t.replace pops vs = { t with dstk := (t.replace pops vs).dstk, wtag := (t.replace pops vs).wtag } := by
  unfold Ctx.replace
  split
  · rfl
  · unfold Ctx.setDepth; rw [putCells_fields]

/-- The stack after `replace`. -/
theorem replace_done (t : Ctx) (pops : Nat) (vs : List Word) (h1 : pops ≤ t.depth) (h2 : t.depth - pops + vs.length ≤ 8) :
    (t.replace pops vs).depth = t.depth - pops + vs.length ∧
    (∀ i < vs.length, (t.replace pops vs).cell i = vs.reverse.getD i 0) ∧
    (∀ i < t.depth - pops, (t.replace pops vs).cell (vs.length + i) = t.cell (pops + i)) ∧
    (∀ w : Fin 8, w ≠ t.win → (t.replace pops vs).wtag[w] = t.wtag[w] ∧
      ∀ i, (t.replace pops vs).dstk[entryOf w i] = t.dstk[entryOf w i]) := by
  by_cases hz : pops = 0 ∧ vs.isEmpty
  · obtain ⟨rfl, hv⟩ := hz
    have hv : vs = [] := by simpa using hv
    subst hv
    have hr : t.replace 0 [] = t := by simp [Ctx.replace]
    simp [hr]
  · have hr : t.replace pops vs = (t.putCells t.win (t.depth - pops) vs).setDepth t.win (t.depth - pops + vs.length) := by
      simp only [Ctx.replace, if_neg hz]
    have hwin : (t.replace pops vs).win = t.win := by
      have : (t.replace pops vs).frame = t.frame := by rw [replace_fields]
      simp only [Ctx.win, this]
    have hdep : (t.replace pops vs).depth = t.depth - pops + vs.length := by
      show (t.replace pops vs).wtag[(t.replace pops vs).win].depth.toNat = _
      simp only [hwin]
      simp only [hr, Ctx.setDepth, Fin.getElem_fin, wtag_set, if_true, BitVec.toNat_ofNat]
      exact Nat.mod_eq_of_lt (by omega)
    have hd : ∀ e : Fin 64, (t.replace pops vs).dstk[e.val] = (t.putCells t.win (t.depth - pops) vs).dstk[e.val] := by
      intro e; rw [hr]; rfl
    have hcell : ∀ i, i < t.depth - pops + vs.length → (t.replace pops vs).cell i =
        if i < vs.length then vs.getD (vs.length - 1 - i) 0 else t.dstk[(entryOf t.win (t.depth - pops + vs.length - 1 - i)).val] := by
      intro i hi
      have he : entryOf t.win (t.depth - pops + vs.length + 7 - i) = entryOf t.win (t.depth - pops + vs.length - 1 - i) := by
        simp only [entryOf]; apply Fin.ext; simp only; omega
      simp only [Ctx.cell, Ctx.topEntry, hwin, hdep, Fin.getElem_fin, hd, he, putCells_get _ _ _ _ h2 _ (show t.depth - pops + vs.length - 1 - i < 8 by omega)]
      by_cases hl : i < vs.length
      · rw [if_pos (by omega), if_pos hl]
        congr 1; omega
      · rw [if_neg (by omega), if_neg hl]
    refine ⟨hdep, ?_, ?_, ?_⟩
    · intro i hi
      rw [hcell i (by omega), if_pos hi]
      simp only [List.getD_eq_getElem?_getD, List.getElem?_reverse hi]
    · intro i hi
      rw [hcell _ (by omega), if_neg (by omega)]
      simp only [Ctx.cell, Ctx.topEntry, Fin.getElem_fin]
      congr 2
      simp only [entryOf]; apply Fin.ext; simp only; omega
    · intro w hw
      constructor
      · rw [hr]
        simp only [Ctx.setDepth, Fin.getElem_fin, wtag_set, if_neg hw]
        rw [putCells_fields]
      · intro i
        rw [Fin.getElem_fin, hd, putCells_other _ _ _ _ _ h2 _ hw]; rfl

/-- The end of an instruction, with what the decoder has of a branch target: the stacks stay. -/
theorem endedAt_fields (u : Ctx) (a : Word) (q : Option Word) :
    let v : Ctx := { u.ended a with btbAt := q }
    v = { u with pc := a, waitFor := none, served := none, redo := false, routine := v.routine, held := v.held, slot := v.slot,
                 moved := v.moved, seen := 0, image := none, btbAt := q } := by
  intro v
  show ({ u.ended a with btbAt := q } : Ctx) = _
  conv_lhs => rw [ended_fields]

/-- A context whose stacks alone have changed, at the end of an instruction. -/
theorem ctxKept_ended {s t : State} {c : CoreId} {x : CtxId} {u : Ctx} {a : Word} {q : Option Word}
    (hu : u = { s.ctx c x with dstk := u.dstk, wtag := u.wtag, frame := u.frame, rstk := u.rstk, rtag := u.rtag, rtop := u.rtop })
    (ht : t.ctx c x = { u.ended a with btbAt := q }) : (t.ctx c x).pc = a ∧ CtxKept s t c x := by
  have he := endedAt_fields u a q
  simp only [← ht] at he
  refine ⟨by rw [he], ctxKept_of hu ?_, routineKept_congr (by rw [hu]) (by rw [hu]) (u := u) ?_⟩
  · conv_lhs => rw [he]
    congr 1 <;> rw [he]
  · rw [ht]; exact ended_routine u a

theorem replace_kept (t : Ctx) (pops : Nat) (vs : List Word) :
    t.replace pops vs = { t with dstk := (t.replace pops vs).dstk, wtag := (t.replace pops vs).wtag, frame := (t.replace pops vs).frame,
                                 rstk := (t.replace pops vs).rstk, rtag := (t.replace pops vs).rtag, rtop := (t.replace pops vs).rtop } := by
  conv_lhs => rw [replace_fields]
  congr 1 <;> rw [replace_fields]

/-- Only the data stack's fields matter to `StackDone`. -/
theorem stackDone_ended {s t : State} {c : CoreId} {x : CtxId} {u : Ctx} {a : Word} {pops : Nat} {vs : List Word}
    (h1 : pops ≤ (s.ctx c x).depth) (h2 : (s.ctx c x).depth - pops + vs.length ≤ 8)
    (hd : u.dstk = ((s.ctx c x).replace pops vs).dstk) (hw : u.wtag = ((s.ctx c x).replace pops vs).wtag)
    (hf : u.frame = (s.ctx c x).frame) {q : Option Word} (ht : t.ctx c x = { u.ended a with btbAt := q }) : StackDone s t c x pops vs := by
  have hr := replace_done (s.ctx c x) pops vs h1 h2
  have he := endedAt_fields u a q
  simp only [← ht] at he
  have e1 : (t.ctx c x).dstk = ((s.ctx c x).replace pops vs).dstk := by rw [he]; exact hd
  have e2 : (t.ctx c x).wtag = ((s.ctx c x).replace pops vs).wtag := by rw [he]; exact hw
  have e3 : (t.ctx c x).frame = ((s.ctx c x).replace pops vs).frame := by rw [he, replace_fields]; exact hf
  refine ⟨by rw [he]; exact hf, ?_⟩
  simpa only [Ctx.depth, Ctx.cell, Ctx.topEntry, Ctx.win, e1, e2, e3] using hr

theorem completed_of {s t : State} {c : CoreId} {x : CtxId} {to_ : Word} {pops : Nat} {vs : List Word}
    (h1 : pops ≤ (s.ctx c x).depth) (h2 : (s.ctx c x).depth - pops + vs.length ≤ 8)
    (hx : ∃ q, t.ctx c x = { ((s.ctx c x).replace pops vs).ended to_ with btbAt := q }) (hk : CoreKept s t c x) (hr : RestKept s t) :
    Completed s t c x to_ pops vs := by
  obtain ⟨q, hx⟩ := hx
  obtain ⟨g1, g2⟩ := ctxKept_ended (replace_kept _ pops vs) hx
  refine ⟨g1, stackDone_ended h1 h2 rfl rfl (by rw [replace_fields]) hx, ?_, g2, hk, hr⟩
  have he := endedAt_fields ((s.ctx c x).replace pops vs) to_ q
  simp only [← hx] at he
  refine ⟨?_, ?_, ?_⟩ <;> rw [he, replace_fields]

/-- An instruction that is ready and goes well, and changes its own context by `f`. -/
theorem simple_kept {s s1 : State} {c : CoreId} {x : CtxId} {e : Enc} {body : State → Res (Option Word)} {o : Option Word}
    {f : Ctx → Ctx} (h : Ready s c x e) (hb : body s = .ok o s1) (hc : s1.core = (s.modCtx c x f).core) (hr : RestKept s s1)
    (hm : (f (s.ctx c x)).moved = (s.ctx c x).moved) :
    ∃ t, s.simple c x e body = .next t ∧ (∃ q, t.ctx c x = { (f (s.ctx c x)).ended (o.getD (after s c x e.len)) with btbAt := q }) ∧
      CoreKept s t c x ∧ RestKept s t := by
  have hx : s1.ctx c x = f (s.ctx c x) := by
    rw [← State.ctx_modCtx s c x f]; simp only [State.ctx, hc]
  rw [simple_ready h (by rw [hx, hm]) hb]
  obtain ⟨g1, g2, g3⟩ := finish_kept (x := x) (c := c) (f := f) (after s c x e.len) (s.ctx c x).priv true o hc hr
  exact ⟨_, rfl, g1, g2, g3⟩

/-- A stack instruction that is ready and goes well completes (R39, R83). -/
theorem simple_goes {s s1 : State} {c : CoreId} {x : CtxId} {e : Enc} {body : State → Res (Option Word)} {o : Option Word}
    {pops : Nat} {vs : List Word} (h : Ready s c x e) (hb : body s = .ok o s1) (hc : s1.core = (s.replace c x pops vs).core)
    (hr : RestKept s s1) (h1 : pops ≤ (s.ctx c x).depth) (h2 : (s.ctx c x).depth - pops + vs.length ≤ 8) :
    ∃ t, s.simple c x e body = .next t ∧ Completed s t c x (o.getD (after s c x e.len)) pops vs := by
  obtain ⟨t, g0, g1, g2, g3⟩ := simple_kept (f := fun t => t.replace pops vs) h hb hc hr (by rw [replace_fields])
  exact ⟨t, g0, completed_of h1 h2 g1 g2 g3⟩

theorem simple_completes {s : State} {c : CoreId} {x : CtxId} {e : Enc} (body : State → Res (Option Word)) (pops : Nat)
    (vs : List Word) (h : Ready s c x e) (hb : body s = .ok none (s.replace c x pops vs)) (h1 : pops ≤ (s.ctx c x).depth)
    (h2 : (s.ctx c x).depth - pops + vs.length ≤ 8) :
    ∃ t, s.simple c x e body = .next t ∧ Completed s t c x (after s c x e.len) pops vs :=
  simple_goes h hb rfl rfl h1 h2

/-- A command whose meaning is one stack effect completes. -/
theorem does_stackOp {s : State} {c : CoreId} {x : CtxId} {i : Instr} {e : Enc} {n : Nat} {touch : List Nat} {pops : Nat}
    {vs : (Nat → Word) → List Word}
    (hi : exec i s = s.simple c x e fun s => s.stackOp c x n touch pops vs) (h : Cells s c x n) (ht : ∀ j ∈ touch, j < n)
    (h1 : pops ≤ n) (h2 : (s.ctx c x).depth - pops + (vs (s.ctx c x).cell).length ≤ 8) :
    Does s c x i e pops (vs (s.ctx c x).cell) := by
  intro hr
  rw [hi]
  exact simple_completes _ pops _ hr (stackOp_cells h ht h1 h2) (h1.trans h.1) h2

theorem does_unary {s : State} {c : CoreId} {x : CtxId} {i : Instr} {e : Enc} {f : Word → Word}
    (hi : exec i s = s.unary c x e f) (h : Cells s c x 1) : Does s c x i e 1 [f ((s.ctx c x).cell 0)] :=
  does_stackOp (vs := fun q => [f (q 0)]) hi h (by simp) (by omega) (by have := h.1; have := h.2.1; simp only [List.length_cons, List.length_nil]; omega)

theorem does_binary {s : State} {c : CoreId} {x : CtxId} {i : Instr} {e : Enc} {f : Word → Word → Word}
    (hi : exec i s = s.binary c x e f) (h : Cells s c x 2) :
    Does s c x i e 2 [f ((s.ctx c x).cell 1) ((s.ctx c x).cell 0)] :=
  does_stackOp (vs := fun q => [f (q 1) (q 0)]) hi h (by simp) (by omega) (by have := h.1; have := h.2.1; simp only [List.length_cons, List.length_nil]; omega)

end Sys2Proof.Machine
end

