-- ==== Sys2Proof/Laws/Returns.lean ====
section
/-! SUPPORT. What a push to and a pop from the return cache do while nothing is spilled or filled (R43). -/

namespace Sys2Proof.Machine

open Sys2Proof

theorem rOther_ne (g : Fin 2) : rOther g ≠ g := by revert g; decide
theorem rOther_rOther (g : Fin 2) : rOther (rOther g) = g := by revert g; decide

theorem rtag_set (d : Vector GrpTag 2) (e f : Fin 2) (v : GrpTag) : (d.set e.val v)[f.val] = if f = e then v else d[f.val] := by
  rw [Vector.getElem_set]
  by_cases h : f = e
  · subst h; simp
  · have : ¬ (e.val = f.val) := fun q => h (Fin.ext q.symm)
    simp [h, this]

theorem rstk_set (d : Vector Word 16) (e f : Fin 16) (v : Word) : (d.set e.val v)[f.val] = if f = e then v else d[f.val] := by
  rw [Vector.getElem_set]
  by_cases h : f = e
  · subst h; simp
  · have : ¬ (e.val = f.val) := fun q => h (Fin.ext q.symm)
    simp [h, this]

theorem rEntry_inj {g g' : Fin 2} {i j : Nat} (hi : i < 8) (hj : j < 8) (h : rEntry g i = rEntry g' j) : g = g' ∧ i = j := by
  have := congrArg Fin.val h
  simp only [rEntry, Nat.mod_eq_of_lt hi, Nat.mod_eq_of_lt hj] at this
  exact ⟨Fin.ext (by omega), by omega⟩

/-- A context after a push that needs no spill. -/
def Ctx.pushed (t : Ctx) (v : Word) : Ctx :=
  if t.rtag[t.rtop].count.toNat < 8 then t.rput t.rtop t.rtag[t.rtop].count.toNat v else t.rput (rOther t.rtop) 0 v

theorem rpush_room (s : State) (c : CoreId) (x : CtxId) (v : Word) (h : RoomFor s c x 1) :
    s.rpush c x v = .ok () (s.modCtx c x fun t => t.pushed v) := by
  have hm : ∀ f : Ctx → Ctx, f (s.ctx c x) = (s.ctx c x).pushed v → s.modCtx c x f = s.modCtx c x fun t => t.pushed v := by
    intro f hf
    simp only [State.modCtx, State.modCore, Core.modCtx]
    simp only [State.ctx] at hf
    rw [hf]
  by_cases hn : (s.ctx c x).rtag[(s.ctx c x).rtop].count.toNat < 8
  · simp only [State.rpush, hn, if_true]
    congr 1
    apply hm; simp only [Ctx.pushed, hn, if_true]
  · rcases h with h2 | ⟨h2, _, h3⟩
    · omega
    · simp only [State.rpush, hn, if_false, h2, h3, Res.bind_ok, Bool.false_eq_true]
      congr 1
      apply hm; simp only [Ctx.pushed, hn, if_false]

theorem group_rput (t : Ctx) (g : Fin 2) (n : Nat) (v : Word) (hn : n < 8) :
    (t.rput g n v).group g = ((List.range n).map fun i => t.rstk[rEntry g i]) ++ [v] := by
  have hc : (BitVec.ofNat 4 (n + 1)).toNat = n + 1 := by simp; omega
  simp only [Ctx.group, Ctx.rput, Fin.getElem_fin, rtag_set, if_true, hc, List.range_succ, List.map_append, List.map_cons, List.map_nil,
    rstk_set]
  congr 1
  apply List.map_congr_left
  intro i hi
  have hi := List.mem_range.mp hi
  rw [if_neg]
  intro q
  have := (rEntry_inj (by omega) hn q).2
  omega

theorem group_rput_other (t : Ctx) (g : Fin 2) (n : Nat) (v : Word) (hn : n < 8) (hc : t.rtag[rOther g].count.toNat ≤ 8) :
    (t.rput g n v).group (rOther g) = t.group (rOther g) := by
  simp only [Ctx.group, Ctx.rput, Fin.getElem_fin, rtag_set, if_neg (rOther_ne g), rstk_set] at hc ⊢
  apply List.map_congr_left
  intro i hi
  have hi := List.mem_range.mp hi
  rw [if_neg]
  intro q
  exact rOther_ne g (rEntry_inj (by omega) hn q).1

/-- A push adds the newest entry. -/
theorem pushed_returns (u : Ctx) (v : Word) (h1 : GroupsOk u)
    (h2 : u.rtag[u.rtop].count.toNat < 8 ∨ u.rtag[rOther u.rtop].live = false) :
    (u.pushed v).returns = u.returns ++ [v] ∧ GroupsOk (u.pushed v) := by
  by_cases hn : u.rtag[u.rtop].count.toNat < 8
  · have hp : u.pushed v = u.rput u.rtop u.rtag[u.rtop].count.toNat v := by simp only [Ctx.pushed, hn, if_true]
    simp only [hp]
    constructor
    · have e1 : (u.rput u.rtop u.rtag[u.rtop].count.toNat v).rtop = u.rtop := rfl
      have e2 : (u.rput u.rtop u.rtag[u.rtop].count.toNat v).rtag[rOther u.rtop].live = u.rtag[rOther u.rtop].live := by
        simp only [Ctx.rput, Fin.getElem_fin, rtag_set, if_neg (rOther_ne _)]
      simp only [Ctx.returns, e1, e2, group_rput _ _ _ _ hn, group_rput_other _ _ _ _ hn (h1 _).1, List.append_assoc]
      rfl
    · intro g
      have h1g := h1 g
      simp only [Ctx.rput, Fin.getElem_fin, rtag_set] at h1g hn ⊢
      split
      · simp; omega
      · exact h1g
  · have h3 : u.rtag[rOther u.rtop].live = false := by
      rcases h2 with h2 | h2
      · omega
      · exact h2
    have h8 : u.rtag[u.rtop].count.toNat = 8 := by have := (h1 u.rtop).1; omega
    have hl := (h1 u.rtop).2 (by omega)
    have hp : u.pushed v = u.rput (rOther u.rtop) 0 v := by simp only [Ctx.pushed, hn, if_false]
    simp only [hp]
    constructor
    · have e1 : (u.rput (rOther u.rtop) 0 v).rtop = rOther u.rtop := rfl
      have e2 : (u.rput (rOther u.rtop) 0 v).rtag[u.rtop].live = u.rtag[u.rtop].live := by
        simp only [Ctx.rput, Fin.getElem_fin, rtag_set, if_neg (rOther_ne u.rtop).symm]
      have e3 := group_rput_other u (rOther u.rtop) 0 v (by omega) (h1 _).1
      rw [rOther_rOther] at e3
      have e4 := group_rput u (rOther u.rtop) 0 v (by omega)
      simp only [Ctx.returns, e1, rOther_rOther, e2, e3, e4, h3, hl]
      simp
    · intro g
      have h1g := h1 g
      simp only [Ctx.rput, Fin.getElem_fin, rtag_set] at h1g ⊢
      split
      · simp
      · exact h1g

theorem pushed_fields (u : Ctx) (v : Word) :
    u.pushed v = { u with rstk := (u.pushed v).rstk, rtag := (u.pushed v).rtag, rtop := (u.pushed v).rtop } := by
  unfold Ctx.pushed; split <;> rfl

/-- A context after a pop that needs no fill. -/
def Ctx.popped (u : Ctx) : Ctx :=
  (if u.rtag[u.rtop].count ≠ 0 then u else { u with rtop := rOther u.rtop }).rdropTop

/-- The newest entry. -/
def Ctx.newest (u : Ctx) : Word := (if u.rtag[u.rtop].count ≠ 0 then u else { u with rtop := rOther u.rtop }).rtopVal

theorem modCtx_congr (s : State) (c : CoreId) (x : CtxId) (f g : Ctx → Ctx) (h : f (s.ctx c x) = g (s.ctx c x)) :
    s.modCtx c x f = s.modCtx c x g := by
  simp only [State.modCtx, State.modCore, Core.modCtx]
  simp only [State.ctx] at h
  rw [h]

theorem modCtx_modCtx (s : State) (c : CoreId) (x : CtxId) (f g : Ctx → Ctx) :
    (s.modCtx c x f).modCtx c x g = s.modCtx c x fun t => g (f t) := by
  simp only [State.modCtx, State.modCore, Core.modCtx]
  simp

theorem group_congr (u w : Ctx) (g : Fin 2) (h1 : w.rstk = u.rstk) (h2 : w.rtag[g].count = u.rtag[g].count) : w.group g = u.group g := by
  simp only [Ctx.group, h1, h2]

theorem rdropTop_done (u : Ctx) (l : List Word) (v : Word) (hc : u.rtag[u.rtop].count ≠ 0) (hg : GroupsOk u)
    (h : u.returns = l ++ [v]) : u.rtopVal = v ∧ u.rdropTop.returns = l ∧ GroupsOk u.rdropTop := by
  obtain ⟨n, hn⟩ : ∃ n, u.rtag[u.rtop].count.toNat = n + 1 := by
    have : u.rtag[u.rtop].count.toNat ≠ 0 := fun q => hc (BitVec.eq_of_toNat_eq (by simpa using q))
    exact ⟨u.rtag[u.rtop].count.toNat - 1, by omega⟩
  have hn8 : n + 1 ≤ 8 := hn ▸ (hg u.rtop).1
  have hlive := (hg u.rtop).2 (by omega)
  have hv : u.rtopVal = u.rstk[rEntry u.rtop n] := by
    simp only [Ctx.rtopVal, hn]
    congr 1
    simp only [rEntry]; apply Fin.ext; simp only; omega
  have hgr : u.group u.rtop = ((List.range n).map fun i => u.rstk[rEntry u.rtop i]) ++ [u.rstk[rEntry u.rtop n]] := by
    simp only [Ctx.group, hn, List.range_succ, List.map_append, List.map_cons, List.map_nil]
  rw [Ctx.returns, hgr, ← List.append_assoc] at h
  obtain ⟨hl, hv'⟩ := List.append_inj' h rfl
  simp only [List.cons.injEq, and_true] at hv'
  refine ⟨by rw [hv, hv'], ?_⟩
  have hne := rOther_ne u.rtop
  by_cases h0 : n = 0
  · subst h0
    have hd : u.rdropTop = (let t : Ctx := { u with rtag := u.rtag.set u.rtop {} }
        if u.rtag[rOther u.rtop].live then { t with rtop := rOther t.rtop } else t) := by
      simp only [Fin.getElem_fin] at hn
      simp only [Ctx.rdropTop, Fin.getElem_fin, rtag_set, if_neg hne]
      simp [hn]
    cases hlo : u.rtag[rOther u.rtop].live
    · simp only [hlo, Bool.false_eq_true, if_false] at hd hl
      rw [hd]
      constructor
      · rw [← hl]
        simp only [Ctx.returns, Ctx.group, Fin.getElem_fin, rtag_set, if_neg hne, if_true] at hlo ⊢
        simp [hlo]
      · intro g
        have := hg g
        simp only [Fin.getElem_fin, rtag_set] at this ⊢
        split
        · simp
        · exact this
    · simp only [hlo, if_true] at hd hl
      rw [hd]
      constructor
      · rw [← hl]
        simp only [Ctx.returns, rOther_rOther, Fin.getElem_fin, rtag_set, if_true]
        simp only [Ctx.group, Fin.getElem_fin, rtag_set, if_neg hne]
        simp
      · intro g
        have := hg g
        simp only [Fin.getElem_fin, rtag_set] at this ⊢
        split
        · simp
        · exact this
  · have hd : u.rdropTop = { u with rtag := u.rtag.set u.rtop { u.rtag[u.rtop] with count := BitVec.ofNat 4 n, live := true } } := by
      simp only [Ctx.rdropTop, hn, show n + 1 - 1 = n by omega, beq_iff_eq, Bool.and_eq_true, h0, false_and, if_false]
    have hb : (BitVec.ofNat 4 n).toNat = n := by simp; omega
    rw [hd]
    constructor
    · rw [← hl]
      simp only [Ctx.returns, Fin.getElem_fin, rtag_set, if_neg hne]
      congr 1
      · simp only [Ctx.group, Fin.getElem_fin, rtag_set, if_neg hne]
      · simp only [Ctx.group, Fin.getElem_fin, rtag_set, if_true, hb]
    · intro g
      have := hg g
      simp only [Fin.getElem_fin, rtag_set] at this ⊢
      split
      · simp only [hb]; exact ⟨by omega, fun _ => trivial⟩
      · exact this

/-- A pop takes the newest entry away. -/
theorem rpop_present (s : State) (c : CoreId) (x : CtxId) (l : List Word) (v : Word) (h : Returns s c x (l ++ [v])) :
    s.rpop c x = .ok v (s.modCtx c x Ctx.popped) ∧ (s.ctx c x).popped.returns = l ∧ GroupsOk (s.ctx c x).popped ∧
      (s.ctx c x).newest = v := by
  obtain ⟨h1, h2, h3⟩ := h
  by_cases hc : (s.ctx c x).rtag[(s.ctx c x).rtop].count = 0
  · have hgrp : (s.ctx c x).group (s.ctx c x).rtop = [] := by simp only [Ctx.group, hc]; rfl
    cases hlo : (s.ctx c x).rtag[rOther (s.ctx c x).rtop].live
    · simp only [Ctx.returns, hgrp, hlo, Bool.false_eq_true, if_false, List.append_nil] at h1
      simp at h1
    · have hx : x ≠ fCtx := fun q => by rw [h3 q] at hlo; simp at hlo
      have h1' := h1
      simp only [Ctx.returns, hgrp, hlo, if_true, List.append_nil] at h1'
      have hco : (s.ctx c x).rtag[rOther (s.ctx c x).rtop].count ≠ 0 := by
        intro q; simp only [Ctx.group, q] at h1'; simp at h1'
      let u : Ctx := { s.ctx c x with rtop := rOther (s.ctx c x).rtop }
      have hu : u.returns = l ++ [v] := by
        rw [← h1']
        have e1 : u.group u.rtop = (s.ctx c x).group (rOther (s.ctx c x).rtop) := rfl
        have e2 : u.group (rOther u.rtop) = [] := by
          have : rOther u.rtop = (s.ctx c x).rtop := rOther_rOther _
          rw [this]; exact hgrp
        rw [Ctx.returns, e1, e2]; split <;> rfl
      obtain ⟨g1, g2, g3⟩ := rdropTop_done u l v hco h2 hu
      have hp : (s.ctx c x).popped = u.rdropTop := by simp only [Ctx.popped, hc, ne_eq, not_true, if_false]; rfl
      have hw : (s.ctx c x).newest = u.rtopVal := by simp only [Ctx.newest, hc, ne_eq, not_true, if_false]; rfl
      refine ⟨?_, by rw [hp]; exact ⟨g2, g3, by rw [hw, g1]⟩⟩
      simp only [State.rpop, State.rready, hc, ne_eq, not_true, if_false, hx, hlo, hco, not_false_eq_true, and_self, if_true, Res.bind_ok,
        State.ctx_modCtx, modCtx_modCtx]
      rw [show ({ s.ctx c x with rtop := rOther (s.ctx c x).rtop } : Ctx).rtopVal = v from g1]
      congr 1
      exact modCtx_congr _ _ _ _ _ hp.symm
  · obtain ⟨g1, g2, g3⟩ := rdropTop_done _ l v hc h2 h1
    have hp : (s.ctx c x).popped = (s.ctx c x).rdropTop := by simp only [Ctx.popped, hc, ne_eq, not_false_eq_true, if_true]
    have hw : (s.ctx c x).newest = (s.ctx c x).rtopVal := by simp only [Ctx.newest, hc, ne_eq, not_false_eq_true, if_true]
    refine ⟨?_, by rw [hp]; exact ⟨g2, g3, by rw [hw, g1]⟩⟩
    simp only [State.rpop, State.rready, hc, ne_eq, not_false_eq_true, if_true, Res.bind_ok, g1]
    congr 1
    exact modCtx_congr _ _ _ _ _ hp.symm

theorem rdropTop_fields (u : Ctx) : u.rdropTop = { u with rtag := u.rdropTop.rtag, rtop := u.rdropTop.rtop } := by
  simp only [Ctx.rdropTop]
  generalize (_ && _ : Bool) = b
  cases b <;> rfl

theorem popped_fields (u : Ctx) : u.popped = { u with rtag := u.popped.rtag, rtop := u.popped.rtop } := by
  unfold Ctx.popped
  split
  · exact rdropTop_fields _
  · conv_lhs => rw [rdropTop_fields]

/-- The return cache depends on three fields. -/
theorem returns_congr {u w : Ctx} (h1 : w.rstk = u.rstk) (h2 : w.rtag = u.rtag) (h3 : w.rtop = u.rtop) : w.returns = u.returns := by
  simp only [Ctx.returns, Ctx.group, h1, h2, h3]

theorem groupsOk_congr {u w : Ctx} (h2 : w.rtag = u.rtag) : GroupsOk w ↔ GroupsOk u := by
  unfold GroupsOk; rw [h2]

/-- An instruction that changed cells of the current frame and the return cache. -/
theorem completedR_of {s t : State} {c : CoreId} {x : CtxId} {to_ : Word} {pops : Nat} {vs l : List Word} {u : Ctx}
    (h1 : pops ≤ (s.ctx c x).depth) (h2 : (s.ctx c x).depth - pops + vs.length ≤ 8)
    (hu : u = { s.ctx c x with dstk := ((s.ctx c x).replace pops vs).dstk, wtag := ((s.ctx c x).replace pops vs).wtag,
                               rstk := u.rstk, rtag := u.rtag, rtop := u.rtop })
    (hr : u.returns = l) (hg : GroupsOk u) (hF : x = fCtx → u.rtag[rOther u.rtop].live = false)
    {q : Option Word} (ht : t.ctx c x = { u.ended to_ with btbAt := q }) (hk : CoreKept s t c x) (hs : RestKept s t) : CompletedR s t c x to_ pops vs l := by
  have hu' : u = { s.ctx c x with dstk := u.dstk, wtag := u.wtag, frame := u.frame, rstk := u.rstk, rtag := u.rtag, rtop := u.rtop } := by
    conv_lhs => rw [hu]
    rw [hu]
  obtain ⟨g1, g2⟩ := ctxKept_ended hu' ht
  have he := endedAt_fields u to_ q
  simp only [← ht] at he
  have e1 : (t.ctx c x).rstk = u.rstk := by rw [he]
  have e2 : (t.ctx c x).rtag = u.rtag := by rw [he]
  have e3 : (t.ctx c x).rtop = u.rtop := by rw [he]
  refine ⟨g1, stackDone_ended h1 h2 (by rw [hu]) (by rw [hu]) (by rw [hu]) ht, ⟨?_, ?_, ?_⟩, g2, hk, hs⟩
  · rw [returns_congr e1 e2 e3, hr]
  · exact (groupsOk_congr e2).mpr hg
  · intro q; simp only [e2, e3]; exact hF q

end Sys2Proof.Machine
end

