-- ==== Sys2Proof/Laws/Spad.lean ====
section
/-! SUPPORT. The scratchpad's memory: a byte read after a write, and the canonical form that every operation keeps. -/

namespace Sys2Proof.Machine

open Sys2Proof

/-! ## Sparse lists -/

theorem alGet_alSet {α : Type} (l : List (Nat × α)) (a b : Nat) (v : α) :
    alGet (alSet l a v) b = if a = b then some v else alGet l b := by
  induction l with
  | nil => simp [alSet, alGet]
  | cons h l ih =>
    obtain ⟨k, w⟩ := h
    simp only [alSet]
    split
    · simp [alGet]
    · split
      · next h => subst h; simp only [alGet]; split <;> rfl
      · next h1 h2 =>
        simp only [alGet, ih]
        split
        · next h3 => subst h3; rw [if_neg (fun q => h2 q.symm)]
        · rfl

theorem alGet_alErase {α : Type} (l : List (Nat × α)) (a b : Nat) : alGet (alErase l a) b = if a = b then none else alGet l b := by
  induction l with
  | nil => simp [alErase, alGet]
  | cons q l ih =>
    obtain ⟨k, w⟩ := q
    simp only [alErase, List.filter_cons] at ih ⊢
    split
    · next h =>
      simp only [bne_iff_ne] at h
      simp only [alGet, ih]
      split
      · next hk => subst hk; rw [if_neg (fun q => h q.symm)]
      · rfl
    · next h =>
      simp only [bne_iff_ne, not_not] at h
      subst h
      simp only [ih, alGet]
      split <;> rfl

/-- Every key of the list is above `k`. -/
def above (k : Nat) (l : List (Nat × Byte)) : Prop := ∀ c ∈ l, k < c.1

theorem rising_cons (q : Nat × Byte) (l : List (Nat × Byte)) : rising (q :: l) = true ↔ above q.1 l ∧ rising l = true := by
  induction l generalizing q with
  | nil => simp [rising, above]
  | cons r l ih =>
    simp only [rising, Bool.and_eq_true, decide_eq_true_eq]
    rw [ih]
    simp only [above, List.mem_cons, forall_eq_or_imp]
    constructor
    · rintro ⟨h1, h2, h3⟩
      exact ⟨⟨h1, fun c hc => Nat.lt_trans h1 (h2 c hc)⟩, h2, h3⟩
    · rintro ⟨⟨h1, _⟩, h2, h3⟩
      exact ⟨h1, h2, h3⟩

theorem mem_alSet {l : List (Nat × Byte)} {a : Nat} {v : Byte} {c : Nat × Byte} (h : c ∈ alSet l a v) : c = (a, v) ∨ c ∈ l := by
  induction l with
  | nil => simp [alSet] at h; exact Or.inl h
  | cons q l ih =>
    obtain ⟨k, w⟩ := q
    simp only [alSet] at h
    split at h
    · simp at h ⊢; tauto
    · split at h
      · simp at h ⊢; tauto
      · simp only [List.mem_cons] at h ⊢
        rcases h with h | h
        · tauto
        · rcases ih h with h | h <;> tauto

theorem mem_alErase {l : List (Nat × Byte)} {a : Nat} {c : Nat × Byte} (h : c ∈ alErase l a) : c ∈ l := (List.mem_filter.mp h).1

theorem rising_alSet {l : List (Nat × Byte)} (a : Nat) (v : Byte) (h : rising l = true) : rising (alSet l a v) = true := by
  induction l with
  | nil => rfl
  | cons q l ih =>
    obtain ⟨k, w⟩ := q
    obtain ⟨h1, h2⟩ := (rising_cons _ _).mp h
    simp only [alSet]
    split
    · next h3 =>
      refine (rising_cons _ _).mpr ⟨?_, h⟩
      intro c hc
      rcases List.mem_cons.mp hc with rfl | hc
      · exact h3
      · exact Nat.lt_trans h3 (h1 c hc)
    · split
      · next h3 => subst h3; exact (rising_cons _ _).mpr ⟨h1, h2⟩
      · refine (rising_cons _ _).mpr ⟨?_, ih h2⟩
        intro c hc
        rcases mem_alSet hc with rfl | hc
        · simp only; omega
        · exact h1 c hc

theorem rising_filter {l : List (Nat × Byte)} (p : Nat × Byte → Bool) (h : rising l = true) : rising (l.filter p) = true := by
  induction l with
  | nil => rfl
  | cons q l ih =>
    obtain ⟨h1, h2⟩ := (rising_cons _ _).mp h
    simp only [List.filter]
    split
    · exact (rising_cons _ _).mpr ⟨fun c hc => h1 c (List.mem_filter.mp hc).1, ih h2⟩
    · exact ih h2

theorem rising_alErase {l : List (Nat × Byte)} (a : Nat) (h : rising l = true) : rising (alErase l a) = true := rising_filter _ h

/-! ## One byte -/

theorem wf_iff (m : Spad) : m.wf = true ↔ rising m.mem = true ∧ ∀ c ∈ m.mem, c.2 ≠ m.dflt c.1 := by
  simp [Spad.wf]

/-- What decides the default byte is what the memory does not hold. -/
theorem dflt_congr {m n : Spad} (h1 : n.undef = m.undef) (h2 : n.clean = m.clean) (a : Nat) : n.dflt a = m.dflt a := by
  simp only [Spad.dflt, h1, h2]

theorem setByte_wf {m : Spad} (a : Nat) (v : Byte) (h : m.wf = true) : (m.setByte a v).wf = true := by
  obtain ⟨h1, h2⟩ := (wf_iff m).mp h
  refine (wf_iff _).mpr ?_
  have hd : ∀ b, (m.setByte a v).dflt b = m.dflt b := fun b => dflt_congr rfl rfl b
  simp only [hd]
  simp only [Spad.setByte]
  split
  · exact ⟨rising_alErase a h1, fun c hc => h2 c (mem_alErase hc)⟩
  · next h3 =>
    refine ⟨rising_alSet a v h1, fun c hc => ?_⟩
    rcases mem_alSet hc with rfl | hc
    · exact h3
    · exact h2 c hc

/-- A byte reads as it was written, and every other byte as before. -/
theorem setByte_byte (m : Spad) (a b : Nat) (v : Byte) :
    (m.setByte a v).byte b = if b = a then v else m.byte b := by
  have hd : (m.setByte a v).dflt b = m.dflt b := dflt_congr rfl rfl b
  simp only [Spad.byte, hd]
  simp only [Spad.setByte]
  split
  · next hv =>
    by_cases hb : b = a
    · subst hb; simp [alGet_alErase, hv]
    · rw [alGet_alErase, if_neg (fun q => hb q.symm), if_neg hb]
  · by_cases hb : b = a
    · subst hb; simp [alGet_alSet]
    · rw [alGet_alSet, if_neg (fun q => hb q.symm), if_neg hb]

/-! ## One word -/

theorem setBytes_fields (m : Spad) (w : Nat) (v : Word) (be : BitVec 4) : m.setBytes w v be = { m with mem := (m.setBytes w v be).mem } := by
  have key : ∀ (l : List Nat) (n : Spad),
      l.foldl (fun m i => if be.getLsbD i then m.setByte (w + i) (bits v (8 * i) 8) else m) n =
        { n with mem := (l.foldl (fun m i => if be.getLsbD i then m.setByte (w + i) (bits v (8 * i) 8) else m) n).mem } := by
    intro l
    induction l with
    | nil => intro n; rfl
    | cons i l ih =>
      intro n
      simp only [List.foldl_cons]
      rw [ih]
      split <;> rfl
  exact key _ m

theorem setBytes_wf {m : Spad} (w : Nat) (v : Word) (be : BitVec 4) (h : m.wf = true) : (m.setBytes w v be).wf = true := by
  simp only [Spad.setBytes]
  generalize List.range 4 = l
  induction l generalizing m with
  | nil => exact h
  | cons i l ih =>
    simp only [List.foldl_cons]
    apply ih
    split
    · exact setByte_wf _ _ h
    · exact h

theorem setBytes_byte (m : Spad) (w : Nat) (v : Word) (be : BitVec 4) (b : Nat) :
    (m.setBytes w v be).byte b =
      if w ≤ b ∧ b < w + 4 ∧ be.getLsbD (b - w) = true then bits v (8 * (b - w)) 8 else m.byte b := by
  have key : ∀ (l : List Nat), l.Nodup → ∀ n : Spad,
      (l.foldl (fun m i => if be.getLsbD i then m.setByte (w + i) (bits v (8 * i) 8) else m) n).byte b =
        if w ≤ b ∧ (b - w) ∈ l ∧ be.getLsbD (b - w) = true then bits v (8 * (b - w)) 8 else n.byte b := by
    intro l
    induction l with
    | nil => intro _ n; simp
    | cons i l ih =>
      intro hl n
      obtain ⟨hi, hl⟩ := List.nodup_cons.mp hl
      simp only [List.foldl_cons]
      rw [ih hl]
      by_cases h1 : w ≤ b ∧ (b - w) ∈ l ∧ be.getLsbD (b - w) = true
      · rw [if_pos h1, if_pos ⟨h1.1, List.mem_cons_of_mem _ h1.2.1, h1.2.2⟩]
      · rw [if_neg h1]
        by_cases h2 : w ≤ b ∧ b - w = i ∧ be.getLsbD (b - w) = true
        · obtain ⟨h2a, h2b, h2c⟩ := h2
          subst h2b
          simp only [h2c, if_true]
          rw [setByte_byte, if_pos (show b = w + (b - w) by omega), if_pos (by simp [h2a])]
        · rw [if_neg (c := w ≤ b ∧ b - w ∈ i :: l ∧ _) (by simp only [List.mem_cons]; tauto)]
          split
          · next h3 =>
            rw [setByte_byte, if_neg]
            intro q
            exact h2 ⟨by omega, by omega, by rw [show b - w = i by omega]; exact h3⟩
          · rfl
  have := key (List.range 4) List.nodup_range m
  simp only [List.mem_range] at this
  rw [Spad.setBytes, this]
  by_cases hw : w ≤ b
  · have : (b - w < 4) ↔ (b < w + 4) := by omega
    simp only [this]
  · simp [hw]

theorem store_fields (m : Spad) (w : Nat) (v : Word) (be : BitVec 4) :
    m.store w v be = { m with mem := (m.setBytes w v be).mem, bad := (m.store w v be).bad, corr := (m.store w v be).corr,
                              wback := (m.store w v be).wback, sound := (m.store w v be).sound, ecnt := (m.store w v be).ecnt } := by
  simp only [Spad.store]
  rw [setBytes_fields]
  split
  · rfl
  · split
    · rfl
    · split <;> rfl

theorem wf_congr {m n : Spad} (h1 : n.mem = m.mem) (h2 : n.undef = m.undef) (h3 : n.clean = m.clean) : n.wf = m.wf := by
  simp only [Spad.wf, h1, dflt_congr h2 h3]

theorem byte_congr {m n : Spad} (h1 : n.mem = m.mem) (h2 : n.undef = m.undef) (h3 : n.clean = m.clean) (a : Nat) :
    n.byte a = m.byte a := by
  simp only [Spad.byte, h1, dflt_congr h2 h3]

theorem store_wf {m : Spad} (w : Nat) (v : Word) (be : BitVec 4) (h : m.wf = true) : (m.store w v be).wf = true := by
  rw [← setBytes_wf w v be h]
  apply wf_congr <;> rw [store_fields]
  · rw [setBytes_fields]
  · rw [setBytes_fields]

/-- Bytes after a store: the enabled ones are the value's, the others as before (R264). -/
theorem store_byte (m : Spad) (w : Nat) (v : Word) (be : BitVec 4) (b : Nat) :
    (m.store w v be).byte b = if w ≤ b ∧ b < w + 4 ∧ be.getLsbD (b - w) = true then bits v (8 * (b - w)) 8 else m.byte b := by
  rw [← setBytes_byte m w v be b]
  apply byte_congr <;> rw [store_fields]
  · rw [setBytes_fields]
  · rw [setBytes_fields]

theorem zeroWhere_fields (m : Spad) (p : Nat → Bool) :
    (m.zeroWhere p).undef = m.undef ∧ (m.zeroWhere p).clean = m.clean ∧ (m.zeroWhere p).mem = m.mem.filter fun c => !p c.1 :=
  ⟨rfl, rfl, rfl⟩

theorem zeroWhere_wf {m : Spad} (p : Nat → Bool) (h : m.wf = true) : (m.zeroWhere p).wf = true := by
  obtain ⟨h1, h2⟩ := (wf_iff m).mp h
  refine (wf_iff _).mpr ⟨rising_filter _ h1, fun c hc => ?_⟩
  have : (m.zeroWhere p).dflt c.1 = m.dflt c.1 := dflt_congr rfl rfl _
  rw [this]
  exact h2 c (List.mem_filter.mp hc).1

/-- The wipe keeps the canonical form: what stays listed lies outside the secure region, where its default is as before (R278). -/
theorem wiped_wf {m : Spad} (h : m.wf = true) : m.wiped.wf = true := by
  obtain ⟨h1, h2⟩ := (wf_iff m).mp h
  refine (wf_iff _).mpr ⟨rising_filter _ h1, fun c hc => ?_⟩
  obtain ⟨hm, hp⟩ := List.mem_filter.mp hc
  have hs : isSecure c.1 = false := by simpa using hp
  have hd : m.wiped.dflt c.1 = m.dflt c.1 := by simp only [Spad.dflt, Spad.wiped, Spad.zeroWhere, hs, Bool.false_and]
  rw [hd]
  exact h2 c hm

/-- Zeroing at start-up leaves nothing listed (R280). -/
theorem zeroed_wf (m : Spad) : ({ (m.zeroWhere fun _ => true) with undef := [], clean := [] } : Spad).wf = true := by
  refine (wf_iff _).mpr ⟨?_, ?_⟩
  · simp [Spad.zeroWhere, rising]
  · simp [Spad.zeroWhere]

/-! ## Raises and causes leave the scratchpad alone -/

@[simp] theorem wakeFor_spad (s : State) (c : CoreId) (q : Bool) : (s.wakeFor c q).spad = s.spad := by
  unfold State.wakeFor; dsimp only; split <;> split <;> rfl

@[simp] theorem setSrc_spad (s : State) (n : Nat) (v : Source) : (s.setSrc n v).spad = s.spad := rfl
@[simp] theorem countB_spad (s : State) (n m : Nat) : (s.countB n m).spad = s.spad := by simp only [State.countB]

@[simp] theorem raiseAt_spad (s : State) (n : Nat) (p : Word) (ts : Bool × Word × BitVec 16) : (s.raiseAt n p ts).spad = s.spad := by
  simp only [State.raiseAt, apply_ite State.spad, setSrc_spad, State.modCore_spad, countB_spad, wakeFor_spad, ite_self]

@[simp] theorem raise_spad (s : State) (n : Fin 512) (p : Word) : (s.raise n p).spad = s.spad := by
  unfold State.raise
  split
  · split <;> rfl
  · exact raiseAt_spad _ _ _ _

@[simp] theorem cause_spad (s : State) (code ctx : Byte) (pc : Word) (d : BitVec 96) : (s.cause code ctx pc d).spad = s.spad := rfl

/-! ## The block's memory operations -/

/-- The read for a merge changes no byte. -/
theorem mergeRead_wf {s : State} (w : Nat) (h : s.spad.wf = true) : (s.mergeRead w).spad.wf = true := by
  unfold State.mergeRead
  split
  · exact h
  · exact h
  · simp only [State.spadUncorr, raise_spad]; exact h

/-- Noting a write at a bank's ports changes no byte. -/
theorem noteWrite_wf {s : State} (w : Nat) (v : Word) (be : BitVec 4) (by_ : Option (CoreId × CtxId)) (h : s.spad.wf = true) :
    (s.noteWrite w v be by_).spad.wf = true := by
  unfold State.noteWrite
  split
  · exact h
  · dsimp only
    split
    · exact h
    · split
      · split <;> exact h
      · exact h

/-- The bytes of one word, or those of the shadow buffer in its place, are written (R285). -/
theorem spadSet_wf {s : State} (w : Nat) (v : Word) (be : BitVec 4) (by_ : Option (CoreId × CtxId)) (h : s.spad.wf = true) :
    (s.spadSet w v be by_).spad.wf = true := by
  have hd : ((s.clearRsv (w / 32) by_).dropVectors w).spad = s.spad := by
    unfold State.dropVectors; split <;> rfl
  unfold State.spadSet
  dsimp only
  split
  · split
    · simp only [hd]; exact store_wf _ _ _ h
    · simp only [hd]; exact h
  · simp only [hd]; exact store_wf _ _ _ h

/-- A write by any master keeps the canonical form (R103, R264, R285). -/
theorem spadPut_wf {s : State} (w : Nat) (v : Word) (be : BitVec 4) (by_ : Option (CoreId × CtxId)) (h : s.spad.wf = true) :
    (s.spadPut w v be by_).spad.wf = true := by
  unfold State.spadPut
  split
  · exact h
  · refine spadSet_wf _ _ _ _ (noteWrite_wf _ _ _ _ ?_)
    split
    · exact h
    · exact mergeRead_wf _ h

/-- So does a store through an alias (R276). -/
theorem spadStore_wf {s : State} (w : Nat) (via : Via) (x : Word) (be : BitVec 4) (by_ : Option (CoreId × CtxId))
    (h : s.spad.wf = true) : (s.spadStore w via x be by_).spad.wf = true := by
  have hs := spadSet_wf w (viaWord via (s.spadData w) x) be by_ (mergeRead_wf w h)
  unfold State.spadStore
  split
  · exact spadPut_wf _ _ _ _ h
  · split
    · exact h
    · dsimp only
      split
      · exact hs
      · exact hs

/-- So does the end of a borrowed slice (R284). -/
theorem sliceRestore_wf {s : State} (h : s.spad.wf = true) : s.sliceRestore.spad.wf = true := by
  unfold State.sliceRestore
  split
  · exact h
  · next sl hs =>
    dsimp only
    split
    · exact h
    · generalize (List.range 64).zip sl.shadow = l
      generalize s.spad = m at h
      induction l generalizing m with
      | nil => exact h
      | cons q l ih =>
        simp only [List.foldl_cons]
        apply ih
        split
        · exact h
        · exact store_wf _ _ _ h

theorem alGet_stops {α : Type} (banks : List Nat) (l : List (Nat × α)) (g : α) (b : Nat) (h : b ∉ banks) :
    alGet (banks.foldl (fun l b => alSet l b g) l) b = alGet l b := by
  induction banks generalizing l with
  | nil => rfl
  | cons a banks ih =>
    simp only [List.mem_cons, not_or] at h
    simp only [List.foldl_cons]
    rw [ih _ h.2, alGet_alSet, if_neg (fun q => h.1 q.symm)]

theorem alGet_kept {α : Type} (l : List (Nat × α)) (p : Nat → Bool) (b : Nat) (h : p b = true) :
    alGet (l.filter fun c => p c.1) b = alGet l b := by
  induction l with
  | nil => rfl
  | cons q l ih =>
    simp only [List.filter_cons]
    split
    · simp only [alGet, ih]
    · next hq =>
      rw [ih, alGet]
      split
      · next hk => subst hk; exact absurd h hq
      · rfl

/-- So does a STOP: what stays listed lies in banks whose default is as before (R288). -/
theorem marchStop_wf {s : State} (h : s.spad.wf = true) : s.marchStop.spad.wf = true := by
  obtain ⟨h1, h2⟩ := (wf_iff s.spad).mp h
  unfold State.marchStop
  split
  · exact h
  · split
    · refine (wf_iff _).mpr ⟨rising_filter _ h1, fun c hc => ?_⟩
      obtain ⟨hm, hp⟩ := List.mem_filter.mp hc
      have hb : bankOf c.1 ∉ s.march.banks := by simpa using hp
      have hd := h2 c hm
      simp only [Spad.dflt] at hd ⊢
      rw [alGet_stops _ _ _ _ hb]
      have hcl : (s.spad.clean.filter fun b => !s.march.banks.contains b).contains (bankOf c.1) =
          s.spad.clean.contains (bankOf c.1) := by
        rw [Bool.eq_iff_iff]
        simp only [List.contains_iff_mem, List.mem_filter]
        simp [hb]
      rw [hcl]
      exact hd
    · dsimp only
      split <;> exact h

/-! ## March runs -/

@[simp] theorem nextSlice_spad (s : State) : s.nextSlice.spad = s.spad := by
  unfold State.nextSlice
  dsimp only
  split
  · rfl
  · split <;> rfl

@[simp] theorem marchRun_spad (s : State) (l : List Nat) (a d : Bool) : (s.marchRun l a d).spad = s.spad := by
  unfold State.marchRun
  dsimp only
  split
  · rfl
  · rw [nextSlice_spad]; rfl

theorem marchStart_spad (s : State) : s.marchStart.spad = s.spad := by
  unfold State.marchStart
  dsimp only
  split
  · rfl
  · exact marchRun_spad ..

/-- A grant moves the port's pointer and counts (R268, R275). -/
theorem granted_wf {s : State} (m : Fin 20) (w : Nat) (h : s.spad.wf = true) : (s.granted m w).spad.wf = true := by
  obtain ⟨h1, h2⟩ := (wf_iff _).mp h
  unfold State.granted
  exact (wf_iff _).mpr ⟨h1, h2⟩

/-- So does the end of a run: a destroying one leaves its banks zero (R282). -/
theorem marchEnd_wf {s : State} (h : s.spad.wf = true) : s.marchEnd.spad.wf = true := by
  obtain ⟨h1, h2⟩ := (wf_iff s.spad).mp h
  have key : ∀ t : State, t.spad.wf = true → (if (s.march.cont && !s.march.destroying && !s.march.stopping) = true then t.marchRun t.march.runBanks t.march.runAlg false else t).spad.wf = true := by
    intro t ht
    split
    · rw [marchRun_spad]; exact ht
    · exact ht
  unfold State.marchEnd
  dsimp only
  apply key
  rw [raise_spad]
  split
  · refine (wf_iff _).mpr ⟨rising_filter _ h1, fun c hc => ?_⟩
    obtain ⟨hm, hp⟩ := List.mem_filter.mp hc
    have hd := h2 c hm
    simp only [Spad.dflt, State.modMarch_spad, Spad.zeroWhere] at hd ⊢
    rw [alGet_kept _ (fun b => !s.march.banks.contains b) _ (by simpa using hp)]
    exact hd
  · exact h

end Sys2Proof.Machine
end

