-- ==== Sys2Proof/Tests/Slice0.lean ====
section
/-! SUPPORT. Small tests: an ill-formed term for each check of WellFormed, one step of many commands on small states, and for every statement
that has hypotheses a state and operands that meet them. -/

namespace Sys2Proof.Tests

open Sys2Proof Sys2Proof.Machine

set_option Elab.async false

/-! ## Small states -/

/-- A ready context at `pc` with `cells` on its stack, `rets` in its return cache, and its code buffered. -/
def ctx (pc : Word) (cells rets : List Word) : Ctx :=
  let t : Ctx := { st := .ready, pc := pc, fbuf := [pc &&& 0xFFFFFFE0], priv := 1, spillp := 0x400, spillsz := 0x800, roff := 0x800 }
  let t : Ctx := { t.freshStacks with st := .ready }
  rets.zipIdx.foldl (fun t v => t.rput (if v.2 < 8 then 0 else 1) (v.2 % 8) v.1) (t.replace 0 cells)

/-- The block in RUN, started up, with context 2 of core 3 as given and a secure context 0 on core 5. -/
def blk (t : Ctx) : State :=
  let s := State.reset
  let s := { s with
    power := { s.power with
      pornAon := true, mainRst := false, lockA := true, lockB := true, state := .run, mainOk := true, vddmOk := true, rstnMain := true,
      restored := true, wantMain := true, mainEn := true, heldDone := true, fastClk := true },
    spad := { s.spad with initDone := true }, transit := { s.transit with ready := true, ringEn := true },
    ring := { s.ring with tclk := true, node := 5 } }
  let s := (s.modCore 3 fun k => { k with chkDone := true, invBusy := false, holder := some 2 }).modCtx 3 2 fun _ => t
  (s.modCore 5 fun k => { k with chkDone := true, invBusy := false, holder := some 0 }).modCtx 5 0 fun _ =>
    { ctx 0x10000100 [] [] with priv := 3 }

/-- `blk` with these cells and return entries. -/
def on (cells rets : List Word) : State := blk (ctx 0x10000100 cells rets)

/-- `on`, another context. -/
def onF (cells rets : List Word) : State := (on [] []).modCtx 3 fCtx fun _ => ctx 0x500 cells rets

/-- The state after a command. -/
def out (s : State) (i : Instr) : State := match exec i s with | .next t => t | _ => State.reset

/-- Event source `n` enabled. -/
def en (s : State) (n : Nat) : State := s.setSrc n { s.src n with en := true }

def pw (s : State) (f : Power → Power) : State := { s with power := f s.power }
def sp (s : State) (f : Spad → Spad) : State := { s with spad := f s.spad }
def md (s : State) (f : March → March) : State := { s with march := f s.march }
def dg (s : State) (f : Debug → Debug) : State := { s with dbg := f s.dbg }
def dc (s : State) (f : Dict → Dict) : State := { s with dict := f s.dict }
def nt (s : State) (f : Night → Night) : State := { s with night := f s.night }
def k3 (s : State) (f : Core → Core) : State := s.modCore 3 f
def rp (s : State) (p : PortId) (f : RingPort → RingPort) : State := { s with ring := { s.ring with port := s.ring.port.set p (f s.ring.port[p]) } }

/-- The secure agent of `blk`, on core 5. -/
abbrev sec : Agent := .ctx 5 0

abbrev c3 : CoreId := 3
abbrev x2 : CtxId := 2

/-- The block with nothing on the stacks. -/
abbrev bare : State := on [] []

/-- The main domain off. -/
abbrev vesperOnly : State := pw bare fun p => { p with mainRst := true, state := .vesperOnly }

/-- Plain address of byte 0 of core 3's local scratchpad. -/
abbrev B : Nat := 0x010C0000

/-! ## Hypotheses: literals, stacks, arithmetic, control -/

/-- Encodings of one byte, and of the extension page. -/
def ops (l : List Byte) : List Enc := l.map fun b => { op := b }
def pages (l : List Byte) : List Enc := l.map fun b => { op := 0xFE, page := some b }

/-- Encodings with an operand of `n` bytes, all ones. -/
def wide (n : Nat) (l : List Byte) : List Enc := l.map fun b => { op := b, opnd := BitVec.ofNat 32 (256 ^ n - 1), width := n }

/-- LiteralsPush: the longest stack that has room, and each encoding. -/
theorem test_hyps_literals : let s := on [1, 2, 3, 4, 5, 6, 7] []
    Cells s c3 x2 0 ∧ (s.ctx c3 x2).depth ≤ 7 ∧
    ∀ e ∈ ops [0x00, 0x1F, 0x20] ++ wide 1 [0x21] ++ wide 2 [0x22, 0x24] ++ wide 4 [0x23], Ready s c3 x2 e := by decide +kernel

/-- StackInstructionsMove: as few cells as each asks for, and the most. -/
theorem test_hyps_stack :
    (∀ p ∈ [(1, ops [0x29]), (2, ops [0x2A, 0x2D, 0x30]), (3, ops [0x2C, 0x39]), (4, ops [0x31]), (8, ops [0x3E])],
      let s := on ((List.range p.1).map (BitVec.ofNat 32 ·)) []
      Cells s c3 x2 p.1 ∧ ∀ e ∈ p.2, Ready s c3 x2 e) ∧
    (∀ p ∈ [(7, ops [0x28, 0x2B, 0x2E, 0x32, 0x36, 0x38]), (6, ops [0x2F])],
      let s := on ((List.range p.1).map (BitVec.ofNat 32 ·)) []
      Cells s c3 x2 p.1 ∧ (s.ctx c3 x2).depth ≤ p.1 ∧ ∀ e ∈ p.2, Ready s c3 x2 e) := by decide +kernel

/-- ArithmeticResults: one, two and three cells. -/
theorem test_hyps_arithmetic :
    ∀ p ∈ [(1, ops [0x4A, 0x4B, 0x4F, 0x55, 0x56, 0x5F, 0x66, 0x67] ++ wide 1 [0x69, 0x6A, 0x6B, 0x6C]),
           (2, ops [0x48, 0x49, 0x4C, 0x4D, 0x4E, 0x50, 0x51, 0x52, 0x53, 0x54, 0x57, 0x58, 0x59, 0x5A, 0x5B, 0x5C, 0x5D, 0x5E,
                    0x60, 0x61, 0x62, 0x63, 0x64, 0x65]), (3, ops [0x68])],
      let s := on ((List.range p.1).map (BitVec.ofNat 32 ·)) []
      Cells s c3 x2 p.1 ∧ ∀ e ∈ p.2, Ready s c3 x2 e := by decide +kernel

/-- ReturnStackMoves: an empty cache, a full newest group beside a free one, and an entry in the second group. -/
theorem test_hyps_returns :
    ∀ l ∈ [[], [1, 2, 3, 4, 5, 6, 7, 8]], let s := on [9] l
      Cells s c3 x2 1 ∧ Returns s c3 x2 l ∧ RoomFor s c3 x2 1 ∧
      ∀ e ∈ ops [0x40, 0x98] ++ wide 2 [0x96] ++ wide 4 [0x97], Ready s c3 x2 e := by decide +kernel

theorem test_hyps_pops :
    ∀ p ∈ [([1, 2, 3, 4, 5, 6, 7, 8], 1), ([], 5)], let s := on [1, 2, 3, 4, 5, 6, 7] (p.1 ++ [p.2])
      Cells s c3 x2 0 ∧ (s.ctx c3 x2).depth ≤ 7 ∧ Returns s c3 x2 (p.1 ++ [p.2]) ∧
      ∀ e ∈ ops [0x41, 0x42, 0x43, 0x9A] ++ wide 1 [0x9E], Ready s c3 x2 e := by decide +kernel

/-- Both groups of the return cache full and changed, and an empty cache over eight spilled entries. -/
def fullReturns : State := (on [7] ((List.range 16).map (BitVec.ofNat 32 ·))).modCtx c3 x2 fun u =>
  { u with rtag := Vector.replicate 2 { count := 8, live := true, dirty := true } }
def noReturns : State := (on [7] []).modCtx c3 x2 fun u => { u with roff := 0x10 }

/-- ReturnStackMoves: a push that spills the older group, and a pop that fills one. -/
theorem test_hyps_return_spill :
    let s := fullReturns
    let u := s.ctx c3 x2
    Cells s c3 x2 1 ∧ u.rtag[u.rtop].count = 8 ∧ u.rtag[rOther u.rtop].live = true ∧ u.rtag[rOther u.rtop].dirty = true ∧
    u.doff.toNat + 32 ≤ u.roff.toNat ∧ Ready s c3 x2 { op := 0x40 } ∧ AsStored s c3 (spillStart 2) ∧
    ∀ i < 8, SpadFree s c3 x2 (u.spillp + (u.roff - 32).setWidth 32 + BitVec.ofNat 32 (4 * i)) 4 (B + 0xBE0 + 4 * i) .plain true := by
  decide +kernel

theorem test_hyps_return_fill :
    let s := noReturns
    let u := s.ctx c3 x2
    Cells s c3 x2 0 ∧ u.depth ≤ 7 ∧ u.rtag[u.rtop].count = 0 ∧ u.rtag[rOther u.rtop].live = false ∧ u.roff.toNat < u.spillsz.toNat ∧
    Ready s c3 x2 { op := 0x41 } ∧ AsStored s c3 (spillStart 3) ∧
    ∀ i < 8, SpadFree s c3 x2 (u.spillp + u.roff.setWidth 32 + BitVec.ofNat 32 (4 * i)) 4 (B + 0x410 + 4 * i) .plain true ∧
      s.spad.check (B + 0x410 + 4 * i) = 0 := by decide +kernel

/-- CallsReturnLoop: CALLV 15 finds its vector word in own local scratchpad. -/
theorem test_hyps_callv : let s := on [9] [1]
    Returns s c3 x2 [1] ∧ RoomFor s c3 x2 1 ∧ SpadFree s c3 x2 0x7C 4 (B + 0x7C) .plain true ∧ s.spad.check (B + 0x7C) = 0 ∧
    Ready s c3 x2 { op := 0xEF } := by decide +kernel

/-- BranchesGo: a zero and another value on top. -/
theorem test_hyps_branches :
    ∀ v ∈ [(0 : Nat), 1], let s := on [BitVec.ofNat 32 v] []
      Cells s c3 x2 1 ∧ ((s.ctx c3 x2).cell 0).toNat = v ∧
      ∀ e ∈ ops [0x99, 0x9F, 0xD0, 0xDF] ++ wide 1 [0x90, 0x92, 0x94] ++ wide 2 [0x91, 0x93, 0x95], Ready s c3 x2 e := by decide +kernel

/-! ## Hypotheses: frames -/

/-- A thread at frame `n` of which frame `n - 1` and, from frame 2, frame `n - 2` are in windows. -/
def framed (n : Nat) : State := (on [1, 2, 3] []).modCtx c3 x2 fun u =>
  { u with frame := n, wtag := Vector.ofFn fun w => if w.val ≤ n then { u.wtag[(0 : Fin 8)] with depth := 3 } else u.wtag[w] }

/-- FramesMove: ENTER with a free window above; LEAVE from frames 1 and 2; ENTER that spills nine words. -/
theorem test_hyps_frames :
    (Cells (on [1, 2, 3] []) c3 x2 2 ∧ (((on [1, 2, 3] []).ctx c3 x2).wtag[(1 : Fin 8)]).live = false ∧
      Ready (on [1, 2, 3] []) c3 x2 { op := 0x44 }) ∧
    (Cells (framed 1) c3 x2 3 ∧ ((framed 1).ctx c3 x2).depth = 3 ∧ ((framed 1).ctx c3 x2).frame = 1 ∧
      (((framed 1).ctx c3 x2).wtag[(0 : Fin 8)]).depth.toNat ≤ 6 ∧ Ready (framed 1) c3 x2 { op := 0x45 }) ∧
    (Cells (framed 2) c3 x2 3 ∧ ((framed 2).ctx c3 x2).depth = 3 ∧ (((framed 2).ctx c3 x2).wtag[(1 : Fin 8)]).depth.toNat ≤ 6 ∧
      (((framed 2).ctx c3 x2).wtag[(0 : Fin 8)]).live = true ∧ Ready (framed 2) c3 x2 { op := 0x45 }) := by decide +kernel

def spilling : State := (on [1, 2, 3] []).modCtx c3 x2 fun t =>
  { t with wtag := t.wtag.set 1 { depth := 3, live := true, dirty := true }, roff := 36 }

theorem test_hyps_spill :
    Cells spilling c3 x2 2 ∧ ((spilling.ctx c3 x2).wtag[(1 : Fin 8)]).live = true ∧ ((spilling.ctx c3 x2).wtag[(1 : Fin 8)]).dirty = true ∧
    (spilling.ctx c3 x2).doff.toNat + 36 ≤ (spilling.ctx c3 x2).roff.toNat ∧
    (∀ i < 8, (spilling.ctx c3 x2).dpend[entryOf 1 i] = false) ∧
    (∀ i < 9, SpadFree spilling c3 x2 (0x400 + BitVec.ofNat 32 (4 * i)) 4 (B + 0x400 + 4 * i) .plain true) ∧
    Ready spilling c3 x2 { op := 0x44 } ∧ AsStored spilling c3 (spillStart 0) := by decide +kernel

/-- A thread at frame 2 whose oldest frame is spilled, with the record of a window of five cells. -/
def leaving : State := (sp (framed 2) fun m => m.setBytes (B + 0x400) 0x57AC0005 15).modCtx c3 x2 fun u =>
  { u with doff := 36, wtag := u.wtag.set 0 {} }

/-- FramesMove: LEAVE that fills nine words. -/
theorem test_hyps_fill_frame :
    let s := leaving
    let u := s.ctx c3 x2
    Cells s c3 x2 u.depth ∧ u.depth = 3 ∧ u.frame = 2 ∧ u.wtag[(1 : Fin 8)].depth.toNat ≤ 6 ∧ u.wtag[(0 : Fin 8)].live = false ∧
    (∀ i < 2, u.dpend[entryOf 1 (u.wtag[(1 : Fin 8)].depth.toNat + i)] = false) ∧ u.doff ≠ 0 ∧
    (valueAt s (B + 0x400) 4).toNat / 2 ^ 16 = 0x57AC ∧ (valueAt s (B + 0x400) 4).toNat % 16 ≤ 8 ∧
    (∀ i < 9, SpadFree s c3 x2 (u.spillp + (u.doff - 36).setWidth 32 + BitVec.ofNat 32 (4 * i)) 4 (B + 0x400 + 4 * i) .plain true ∧
      s.spad.check (B + 0x400 + 4 * i) = 0) ∧ Ready s c3 x2 { op := 0x45 } ∧ AsStored s c3 (spillStart 1) := by decide +kernel

/-! ## Hypotheses: long operations and memory -/

/-- Operations under way. -/
def longs (l : List LongOp) (q : List CtxId) : State :=
  k3 ((on [1, 0x20000010] []).modCtx c3 x2 fun u => { u with longs := l }) fun k => { k with divq := q }

def divBy (k : LongKind) (b : Word) : LongOp := { kind := k, a := 7, b := b, dest := [3], pc := 0x10000100 }
def wideOp (k : LongKind) : LongOp := { kind := k, a := 7, b := 2, dest := [3, 4], pc := 0x10000100 }
def loaded : LongOp := { kind := .ldf, a := 0x20000010, b := 0, dest := [3], pc := 0x10000100, sent := true, result := some (.ok 5) }

/-- LongOperationsIssue: none and one outstanding; LDF of the cached window. -/
theorem test_hyps_long_issue :
    (∀ s ∈ [longs [] [], longs [divBy .div 2] [2]],
      (s.ctx c3 x2).longs.length ≤ 1 ∧ (s.ctx c3 x2).cntd = false ∧ Cells s c3 x2 2 ∧
      ∀ e ∈ pages [0, 1, 2, 3, 4, 5, 6], Ready s c3 x2 e) ∧
    (let s := longs [divBy .div 2] [2]
     target (some c3) ((s.ctx c3 x2).cell 0) = .fabric true ∧ ((s.ctx c3 x2).cell 0).toNat % 4 = 0 ∧ s.core[c3].sb = [] ∧
     Ready s c3 x2 { op := 0x84 }) := by decide +kernel

/-- A division whose result a word of a user routine writes to a micro-register. -/
def toRegister : LongOp := { divBy .div 2 with ureg := some 3, dest := [] }

/-- LongOperationsRetire: a result for a micro-register of the routine in X. -/
theorem test_hyps_long_register :
    let s := (longs [toRegister] [2]).modCtx c3 x2 fun u => { u with routine := some (.micro 0xFF 0 0 0 2 { upc := 0xC05 }) }
    let u := s.ctx c3 x2
    s.mainRuns = true ∧ u.longs[0]? = some toRegister ∧ toRegister.dest.length ≤ 1 ∧ s.core[c3].divq.head? = some x2 ∧
    toRegister.ureg = some 3 ∧ u.held = none ∧ u.slot.valid = false ∧ u.routine.isSome = true := by decide +kernel

/-- LongOperationsRetire: each kind of operation first in its queue, a division by zero, and a fault that became known. -/
theorem test_hyps_long_retire :
    (∀ k ∈ [LongKind.div, .mod, .divu, .modu, .sqrt], let s := longs [wideOp .mulw, divBy k 2] [2]
      s.mainRuns = true ∧ (s.ctx c3 x2).longs[1]? = some (divBy k 2) ∧ (divBy k 2).dest.Nodup ∧ s.core[c3].divq.head? = some x2 ∧
      ∀ q ∈ (s.ctx c3 x2).longs.take 1, q.kind.divider = false) ∧
    (∀ o ∈ [wideOp .mulw, wideOp .mulwu, loaded], ((longs [o] []).ctx c3 x2).longs[0]? = some o ∧ o.dest.Nodup) ∧
    (let s := longs [divBy .modu 0] [2]
     (s.ctx c3 x2).longs[0]? = some (divBy .modu 0) ∧ s.core[c3].divq.head? = some x2 ∧ (s.ctx c3 x2).st = .ready ∧
       (s.ctx c3 x2).waitFor = none) ∧
    (let s := bare.modCtx c3 x2 fun u => { u with impKnown := [⟨0x0F, 0x10000100⟩] }
     s.mainRuns = true ∧ s.power.state = .run ∧ (s.ctx c3 x2).impKnown = ⟨0x0F, 0x10000100⟩ :: [] ∧ (s.ctx c3 x2).inRoutine = false ∧
       s.core[c3].midRoutine = none) := by decide +kernel

/-- LoadsRead, StoresWrite: own local scratchpad and its aliases, another core's, and the ends of the shared scratchpad open to privilege
0b01; the secure region at privilege 0b11. -/
theorem test_hyps_memory :
    (∀ p ∈ [(0x3FFFC, 4), (0x3FFFE, 2), (0x3FFFF, 1), (0, 4)],
      SpadFree bare c3 x2 (BitVec.ofNat 32 p.1) p.2 (B + p.1) .plain true ∧ bare.spad.check ((B + p.1) / 4 * 4) = 0) ∧
    (∀ a ∈ [0x01000000, 0x02000000, 0x0277FFFC], SpadFree bare c3 x2 (BitVec.ofNat 32 a) 4 a .plain false) ∧
    SpadFree bare c3 x2 0x08000500 4 (B + 0x500) .set true := by decide +kernel

theorem test_hyps_memory_clear : SpadFree bare c3 x2 0x0C000502 2 (B + 0x502) .clear true := by decide +kernel

theorem test_hyps_memory_secure :
    SpadFree (bare.modCtx c3 x2 fun u => { u with priv := 3 }) c3 x2 0x02780000 4 0x02780000 .plain false := by decide +kernel

/-- LoadsRead, StoresWrite: the cells and the encodings, with the address on top. -/
theorem test_hyps_memory_cells :
    let s := on [1, 2, 3, 4, 5, 7, 0x08000500] []
    (s.ctx c3 x2).depth ≤ 7 ∧ Cells s c3 x2 2 ∧ SpadFree s c3 x2 ((s.ctx c3 x2).cell 0) 4 (B + 0x500) .set true ∧
    ∀ e ∈ ops [0x70, 0x71, 0x72, 0x73, 0x74, 0x75, 0x76, 0x77, 0x78, 0x79, 0xB0, 0xBF, 0xC0, 0xCF] ++
      wide 1 [0x7A, 0x7B, 0x7C, 0x7D] ++ wide 2 [0x7E, 0x7F], Ready s c3 x2 e := by decide +kernel

/-- LoadsRead, StoresWrite: the instructions that name their address. -/
theorem test_hyps_memory_direct :
    SpadFree bare c3 x2 (4 * (0xFF : Byte).setWidth 32) 4 (B + 0x3FC) .plain true ∧
    SpadFree bare c3 x2 (4 * (0xFFFF : BitVec 16).setWidth 32) 4 (B + 0x3FFFC) .plain true ∧
    SpadFree bare c3 x2 (BitVec.ofNat 32 (4 * 15)) 4 (B + 60) .plain true ∧
    SpadFree bare c3 x2 (0x500 + 4 * (0xFF : Byte).setWidth 32) 4 (B + 0x8FC) .plain true := by decide +kernel

/-- LoadsRead: a word with a single-bit error and one that cannot be corrected. -/
theorem test_hyps_memory_errors :
    ∀ p ∈ [(sp (on [0x500] []) fun m => { m with corr := [B + 0x500] }, 1), (sp (on [0x500] []) fun m => { m with bad := [B + 0x500] }, 2)],
      Cells p.1 c3 x2 1 ∧ SpadFree p.1 c3 x2 0x500 4 (B + 0x500) .plain true ∧ p.1.spad.check (B + 0x500) = p.2 ∧
      Ready p.1 c3 x2 { op := 0x70 } := by decide +kernel

def claimed : State := (on [5, 0x500] []).modCtx c3 x2 fun u => { u with rsv := some ((B + 0x500) / 32) }

/-- ClaimAndCommit: with and without the reservation. -/
theorem test_hyps_commit :
    SpadFree claimed c3 x2 ((claimed.ctx c3 x2).cell 0) 4 (B + 0x500) .plain true ∧ (claimed.ctx c3 x2).rsv = some ((B + 0x500) / 32) ∧
    ¬((claimed.ctx c3 x2).rsv = some ((B + 0x500) / 32) ∧ 256 ≤ 255) ∧ Cells claimed c3 x2 2 ∧
    claimed.spad.check ((B + 0x500) / 4 * 4) = 0 ∧ (∀ e ∈ ops [0x80, 0x81], Ready claimed c3 x2 e) ∧
    SpadFree (on [5, 0x500] []) c3 x2 0x500 4 (B + 0x500) .plain true ∧
    ¬(((on [5, 0x500] []).ctx c3 x2).rsv = some ((B + 0x500) / 32) ∧ 0 ≤ 255) := by decide +kernel

/-- FillAndMove: one word. -/
theorem test_hyps_fill : let s := on [7, 0x600, 4] []
    ((s.ctx c3 x2).cell 0).toNat = 4 * 1 ∧ Cells s c3 x2 3 ∧ Ready s c3 x2 { op := 0xFE, page := some 0x11 } ∧
      ∀ k < 1, SpadFree s c3 x2 (0x600 + BitVec.ofNat 32 (4 * k)) 4 (B + 0x600 + 4 * k) .plain true := by decide +kernel

/-- The rows of a context's block move, all in own local scratchpad. -/
def rowsFree (s : State) (a : Word) (stride h n : Nat) (f : Nat → Nat → Nat) : Bool :=
  (List.range h).all fun r => (List.range n).all fun k =>
    decide (SpadFree s c3 x2 (a + BitVec.ofNat 32 (r * stride + 4 * k)) 4 (f r k) .plain true)

theorem rowsFree_free {s : State} {a : Word} {stride h n : Nat} {f : Nat → Nat → Nat} (q : rowsFree s a stride h n f = true) :
    RowsFree s c3 x2 a stride h n f .plain := by
  intro r hr k hk
  simp only [rowsFree, List.all_eq_true, List.mem_range, decide_eq_true_eq] at q
  exact ⟨true, q r hr k hk⟩

/-- FillAndMove: moves of two words, the source below, above and onto the destination. -/
theorem test_hyps_move :
    ∀ p ∈ [(0x500, 0x600), (0x700, 0x600), (0x600, 0x600)],
      let s := on [BitVec.ofNat 32 p.1, BitVec.ofNat 32 p.2, 8] []
      Cells s c3 x2 3 ∧ Ready s c3 x2 { op := 0xFE, page := some 0x10 } ∧
      rowsFree s ((s.ctx c3 x2).cell 1) 0 1 2 (fun _ k => B + p.2 + 4 * k) = true ∧
      rowsFree s ((s.ctx c3 x2).cell 2) 0 1 2 (fun _ k => B + p.1 + 4 * k) = true ∧
      (∀ k < 2, s.spad.check ((B + p.1 + 4 * k) / 4 * 4) = 0) ∧
      (B + p.1 + 8 ≤ B + p.2 ∨ B + p.2 + 8 ≤ B + p.1 ∨
        B + p.1 + ((s.ctx c3 x2).cell 1).toNat = B + p.2 + ((s.ctx c3 x2).cell 2).toNat) := by decide +kernel

def blitting (top : Nat) : State := on ([0x500, 0x600, 0x00020008, 0x00100020] ++ if top = 5 then [3] else []) []

/-- BlitsCopyRows: two rows of two words. -/
theorem test_hyps_blits :
    ∀ top ∈ [4, 5], let s := blitting top
      let u := s.ctx c3 x2
      Cells s c3 x2 top ∧ Ready s c3 x2 { op := 0xFE, page := some (if top = 4 then 0x12 else 0x13) } ∧ (u.cell (top - 3)).toNat = 65536 * 2 + 4 * 2 ∧ (u.cell (top - 4)).toNat % 4 = 0 ∧
      (u.cell (top - 4)).toNat / 65536 % 4 = 0 ∧
      rowsFree s (u.cell (top - 1)) ((u.cell (top - 4)).toNat % 65536) 2 2 (fun r k => B + 0x500 + 32 * r + 4 * k) = true ∧
      rowsFree s (u.cell (top - 2)) ((u.cell (top - 4)).toNat / 65536) 2 2 (fun r k => B + 0x600 + 16 * r + 4 * k) = true := by
  decide +kernel

theorem test_hyps_blits_apart :
    (∀ r < 2, ∀ k < 2, (B + 0x600 + 16 * r + 4 * k) % 4 = 0 ∧ (B + 0x500 + 32 * r + 4 * k) % 4 = 0 ∧
      (blitting 4).spad.check (B + 0x500 + 32 * r + 4 * k) = 0 ∧ (blitting 5).spad.check (B + 0x600 + 16 * r + 4 * k) ≠ 2) := by
  decide +kernel

theorem test_hyps_blits_meet : ∀ r < 2, ∀ k < 2, ∀ r' < 2, ∀ k' < 2, B + 0x500 + 32 * r + 4 * k ≠ B + 0x600 + 16 * r' + 4 * k' ∧
    (B + 0x600 + 16 * r + 4 * k = B + 0x600 + 16 * r' + 4 * k' → r = r' ∧ k = k') := by
  intro r hr k hk r' hr' k' hk'
  exact ⟨by omega, by omega⟩

/-! ## Hypotheses: pins, transits, system instructions, microcode -/

/-- A timebase that runs. -/
def tbOn (s : State) : State :=
  let s := s.modTb 7 fun b => { b with en := true, starting := false, run := true, slot := 5, grain := 9 }
  { s with ports := { s.ports with port := s.ports.port.set 7 { s.ports.port[(7 : Fin 8)] with pen := true } } }

/-- SideUnitsRead: the last pin, group and timebase, running and not. -/
theorem test_hyps_side :
    (let s := on [63] []
     (s.ctx c3 x2).longs = [] ∧ (∀ e ∈ s.core[c3].sb, e.ctx ≠ x2) ∧ Cells s c3 x2 1 ∧ ((s.ctx c3 x2).cell 0).toNat < 64 ∧
       ∀ e ∈ ops [0x82, 0x83, 0x85], Ready s c3 x2 e) ∧
    (let s := on [1] []
     Cells s c3 x2 1 ∧ ((s.ctx c3 x2).cell 0).toNat < 2 ∧ Ready s c3 x2 { op := 0xFE, page := some 0x20 }) := by decide +kernel

theorem test_hyps_beam :
    (∀ p ∈ [(on [7] [], false), (tbOn (on [7] []), true)],
      Cells p.1 c3 x2 1 ∧ ((p.1.ctx c3 x2).cell 0).toNat = (7 : TbId).val ∧ p.1.tbRuns 7 = p.2 ∧
      ∀ e ∈ ops [0x89] ++ pages [0x31], Ready p.1 c3 x2 e) ∧
    (let s := on [1, 2, 3, 4, 5, 6] []
     Cells s c3 x2 0 ∧ (s.ctx c3 x2).depth ≤ 6 ∧ ∀ e ∈ pages [0x40, 0x41], Ready s c3 x2 e) := by decide +kernel

def owning (s : State) : State := { s with gpio := { s.gpio with own := s.gpio.own.set c3 0x80000000F000000F } }

/-- PinWritesNeedOwnership: a pin and a group owned, and not. -/
theorem test_hyps_pins :
    (∀ p ∈ [(owning (on [0, 63] []), true), (on [0, 63] [], false)],
      Cells p.1 c3 x2 2 ∧ ((p.1.ctx c3 x2).cell 0).toNat < 64 ∧ p.1.gpio.own[c3].getLsbD ((p.1.ctx c3 x2).cell 0).toNat = p.2 ∧
      Ready p.1 c3 x2 { op := 0x86 }) ∧
    (∀ p ∈ [(owning (on [5, 0x80000000, 1] []), true), (on [5, 0x80000000, 1] [], false)],
      Cells p.1 c3 x2 3 ∧ ((p.1.ctx c3 x2).cell 0).toNat < 2 ∧
      decide ((((p.1.ctx c3 x2).cell 1).setWidth 64 <<< (32 * ((p.1.ctx c3 x2).cell 0).toNat)) &&& ~~~p.1.gpio.own[c3] = 0) = p.2 ∧
      Ready p.1 c3 x2 { op := 0xFE, page := some 0x21 }) := by decide +kernel

def tracing : State := pw (dg (on [9] []) fun d =>
  { d with trEn := true, stopped := false, sink := 1, trc := d.trc.set c3 { d.trc[c3] with plo := 1, phi := 31, ctxm := 0x1FF, budget := 0 } })
  fun p => { p with vdbg := true }

/-- StimulusWrites: port 31 traced and port 0 not. -/
theorem test_hyps_stim :
    let s := tracing
    let k := s.dbg.trc[c3]
    Cells s c3 x2 1 ∧ (∀ b ∈ [0#8, 31], b.toNat < 32 ∧ Ready s c3 x2 { op := 0x87, opnd := b.setWidth 32, width := 1 }) ∧
    s.tracing = true ∧ k.plo.toNat ≤ 31 ∧ 31 ≤ k.phi.toNat ∧ k.ctxm.getLsbD x2.val = true ∧ ¬(k.plo.toNat ≤ 0) ∧
    k.budget = 0 ∧ s.dbg.sink ≠ 0 ∧ s.dbg.dropped = 0 ∧ (∀ q ∈ s.dbg.fifo, s.dbg.taken q = false) ∧ s.dbg.fifo.length < 64 := by
  decide +kernel

/-- StimulusWrites: a port that does not exist; a budget spent beside a full FIFO. -/
theorem test_hyps_stim_drops :
    let s := dg tracing fun d => { d with trc := d.trc.set c3 { d.trc[c3] with budget := 1, spent := 2 }, fifo := List.replicate 64 { bits := 0 } }
    let k := s.dbg.trc[c3]
    Cells s c3 x2 1 ∧ s.tracing = true ∧ k.budget ≠ 0 ∧ 2 ^ k.budget.toNat ≤ k.spent ∧ s.dbg.fifo.length = 64 ∧
    (∀ q ∈ s.dbg.fifo, s.dbg.taken q = false) ∧ (∀ b ∈ [31#8, 32], Ready s c3 x2 { op := 0x87, opnd := b.setWidth 32, width := 1 }) := by
  decide +kernel

/-- A timebase that takes transits, and an instant on it. -/
def beam (cells : List Word) : State := (on cells []).modTb 1 fun b => { b with en := true, slast := 100, starting := false }
def instant : Word := BitVec.ofNat 32 (1 * 2 ^ 29 + 5 * 2 ^ 16 + 3 * 2 ^ 14 + 1)

/-- TransitsStage: an entry that passes the checks, one that does not, and a TWAIT. -/
theorem test_hyps_transit :
    (∀ p ∈ [(beam [0x1234, 0x10000032, instant], true), (on [0x1234, 0xFFFFFFFF, instant] [], false)],
      let u := p.1.ctx c3 x2
      let w := (u.cell 1).toNat
      p.1.core[c3].stageFree x2 = true ∧ Cells p.1 c3 x2 3 ∧ Ready p.1 c3 x2 { op := 0x88 } ∧
      p.1.transitOk (if u.priv = 0 then some c3 else none) (u.cell 0) (BitVec.ofNat 4 (w / 2 ^ 20)) (BitVec.ofNat 4 (w / 2 ^ 24))
        (BitVec.ofNat 4 (w / 2 ^ 28)) (BitVec.ofNat 20 w) = p.2) ∧
    (let s := beam [instant, 3]
     let f := (s.ctx c3 x2).cell
     s.core[c3].stageFree x2 = true ∧ Cells s c3 x2 2 ∧ x2 ≠ fCtx ∧ (f 1).toNat / 2 ^ 14 % 4 = 3 ∧
     s.transitOk none (f 1) 0 (BitVec.ofNat 4 (f 0).toNat) 1 (BitVec.ofNat 20 (16 * c3.val + x2.val)) = true ∧
     Ready s c3 x2 { op := 0xFE, page := some 0x30 }) := by decide +kernel

/-- SystemCallsReturn: calls of both ranges. -/
theorem test_hyps_system_calls : let s := on [] [1, 2, 3]
    Returns s c3 x2 [1, 2, 3] ∧ RoomFor s c3 x2 2 ∧
    ∀ e ∈ [0#8, 239, 240, 255].map (fun n => ({ op := 0x9B, opnd := n.setWidth 32, width := 1 } : Enc)), Ready s c3 x2 e := by decide +kernel

/-- SystemCallsReturn: status words that may and that may not come back. -/
theorem test_hyps_system_returns :
    ∀ p ∈ [((0 : Nat), true), (1, true), (2, false), (3, false)], let s := on [] ([1] ++ [0x10000500, BitVec.ofNat 32 p.1])
      let q : BitVec 2 := BitVec.ofNat 2 p.1
      Returns s c3 x2 ([1] ++ [0x10000500, BitVec.ofNat 32 p.1]) ∧ decide (q ≠ 2 ∧ q.toNat ≤ (s.ctx c3 x2).priv.toNat) = p.2 ∧
      (s.ctx c3 x2).priv ≠ 0 ∧ s.chains c3 x2 = false ∧ ∀ e ∈ ops [0x9C, 0x9D], Ready s c3 x2 e := by decide +kernel

/-- SystemCallsReturn: a handler that took its thread out of SLEEP, with and without a wake since. -/
theorem test_hyps_system_sleeper : ∀ b : Bool,
    let s := (on [] [1, 0x10000500, 0x11]).modCtx c3 x2 fun u => { u with wake := b }
    (s.ctx c3 x2).priv ≠ 0 ∧ s.chains c3 x2 = false ∧ Returns s c3 x2 ([1] ++ [0x10000500, 0x11]) ∧ (0x11 : Word).getLsbD 4 = true ∧
    (s.ctx c3 x2).wake = b ∧ Ready s c3 x2 { op := 0x9D } := by decide +kernel

theorem test_hyps_system_user : let s := (on [] [1, 0x10000500, 0]).modCtx c3 x2 fun u => { u with priv := 0 }
    x2 ≠ fCtx ∧ Returns s c3 x2 ([1] ++ [0x10000500, 0]) ∧ (s.ctx c3 x2).priv = 0 ∧ Ready s c3 x2 { op := 0x9D } := by decide +kernel

/-- FastHandlerExits: F with its two entries and no fast event. -/
theorem test_hyps_fast_exit : let s := onF [] [1, 0x500, 9]
    Returns s c3 fCtx ([1] ++ [0x500, 9]) ∧ s.fastNext c3 = none ∧ Ready s c3 fCtx { op := 0x9D } := by decide +kernel

/-- ThreadsGiveWay: with and without the wake flag; F; alone and beside a rival. -/
theorem test_hyps_give_way :
    (∀ b : Bool, let s := bare.modCtx c3 x2 fun u => { u with wake := b }
      x2 ≠ fCtx ∧ (s.ctx c3 x2).wake = b ∧ s.core[c3].rival x2 = false ∧ ∀ e ∈ ops [0xA0, 0xA1], Ready s c3 x2 e) ∧
    (∀ e ∈ ops [0xA0, 0xA1], Ready (onF [] []) c3 fCtx e) ∧
    (let s := bare.modCtx c3 1 fun u => { u with st := .ready }
     x2 = thr 2 ∧ s.core[c3].holder = some 2 ∧ s.core[c3].rival x2 = true ∧ Ready s c3 x2 { op := 0xA1 }) := by decide +kernel

def debugged : State := pw (dg (k3 bare fun k => { k with bkptEn := true }) fun d => { d with level := 2 }) fun p => { p with vdbg := true }

/-- InstructionsStop: BKPT where it halts, in a step, and where it faults; unassigned bytes. -/
theorem test_hyps_stop :
    (let s := debugged
     s.core[c3].bkptEn = true ∧ s.dbg.level = 2 ∧ s.power.vdbg = true ∧ s.core[c3].halted = false ∧ s.dbg.xtm[(3 : Fin 18)].firel = 0 ∧
     Ready s c3 x2 { op := 0xA2 }) ∧
    (let s := k3 debugged fun k => { k with halted := true, stepping := true, stepCtx := 2 }
     s.core[c3].bkptEn = true ∧ s.core[c3].halted = true ∧ Ready s c3 x2 { op := 0xA2 }) ∧
    (¬(bare.core[c3].bkptEn = true ∧ bare.dbg.level = 2 ∧ bare.power.vdbg = true) ∧ Ready bare c3 x2 { op := 0xA2 }) ∧
    Ready bare c3 x2 { op := 0x25 } ∧ Ready bare c3 x2 { op := 0xFE, page := some 0x07 } := by decide +kernel

/-- LimitsFault: frames with too few cells and full ones; misaligned and absent addresses, and the flash range. -/
theorem test_hyps_limits :
    (∀ p ∈ [(0, ops [0x29, 0x28, 0x4A, 0x70, 0x99]), (1, ops [0x2A, 0x48, 0x75, 0x44, 0x45]), (8, ops [0x00, 0x1F, 0x20, 0x28, 0x78])],
      let s := on ((List.range p.1).map (BitVec.ofNat 32 ·)) []
      (s.ctx c3 x2).depth = p.1 ∧ ∀ e ∈ p.2, Ready s c3 x2 e) ∧
    (∀ p ∈ [((0x501 : Nat), Target.spad (B + 0x501) .plain true), (0x40000, .unmapped), (0x3F000400, .unmapped), (0x10000000, .flash),
            (0x30000000, .ctl)],
      let s := on [7, BitVec.ofNat 32 p.1] []
      Cells s c3 x2 2 ∧ (s.ctx c3 x2).cntd = false ∧ target (some c3) ((s.ctx c3 x2).cell 0) = p.2 ∧
      ∀ e ∈ ops [0x70, 0x71, 0x72, 0x73, 0x74, 0x75, 0x76, 0x77, 0x79], Ready s c3 x2 e) := by decide +kernel

/-- The word of UserInstructionsRun, and a word that only ends. -/
def pushWord (lit : BitVec 16) : BitVec 144 :=
  (lit.setWidth 144 <<< 64) ||| (1#144 <<< 59) ||| (6#144 <<< 104) ||| (6#144 <<< 100) ||| (1#144 <<< 97) ||| (1#144 <<< 80)
def endWord : BitVec 144 := (1#144 <<< 59) ||| (6#144 <<< 104) ||| (6#144 <<< 100)
def micro (v : BitVec 16) (priv : BitVec 2) : State := k3 (bare.modCtx c3 x2 fun u => { u with priv := priv }) fun k =>
  { k with ram := [(0xFFF, pushWord 0xBEEF)], uvec := [(0x33, v)] }

/-- UserInstructionsRun: a vector to the last word of the RAM, an invalid and a privileged one. -/
theorem test_hyps_user :
    (let s := micro (0x1000#16 ||| (0x3FF#10).setWidth 16) 1
     Cells s c3 x2 0 ∧ (s.ctx c3 x2).depth ≤ 7 ∧ s.core[c3].vector 0x33 = 0x1000#16 ||| (0x3FF#10).setWidth 16 ∧
     alGet s.core[c3].ram (0xC00 + (0x3FF#10).toNat) = some (pushWord 0xBEEF) ∧ s.core[c3].csBad = [] ∧ s.core[c3].csCorr = [] ∧
     Fetched s c3 x2 2) ∧
    (let s := micro 0x03FF 1
     Fetched s c3 x2 2 ∧ (s.core[c3].vector 0x33).getLsbD 12 = false) ∧
    (let s := micro 0x33FF 0
     Fetched s c3 x2 2 ∧ (s.core[c3].vector 0x33).getLsbD 12 = true ∧ (s.core[c3].vector 0x33).getLsbD 13 = true ∧
     (s.ctx c3 x2).priv = 0) := by decide +kernel

/-- F16InstructionsEnd: an instruction of three bytes that stands at the last word of the RAM, at the end of its window. -/
theorem test_hyps_f16 :
    let s := k3 (bare.modCtx c3 x2 fun u =>
      { u with pc := 0x1FFFE, f16 := true, f16win := 1, routine := some (.f16 7 9 3 none { upc := 0xFFF }) }) fun k =>
        { k with ram := [(0xFFF, endWord)] }
    let u := s.ctx c3 x2
    s.mayIssue c3 x2 true = true ∧ u.routine = some (.f16 7 9 3 none { upc := 0xFFF }) ∧ u.slot.valid = false ∧
    s.core[c3].midRoutine = some x2 ∧ u.depth ≤ 8 ∧
    0xC00 ≤ (0xFFF : BitVec 12).toNat ∧ alGet s.core[c3].ram 0xFFF = some ((1#144 <<< 59) ||| (6#144 <<< 104) ||| (6#144 <<< 100)) ∧
    s.core[c3].csBad = [] ∧ s.core[c3].csCorr = [] := by decide +kernel

/-! ## Hypotheses: boundaries, fetches, registers, the load unit -/

def waiting (served : Bool) : State := bare.modCtx c3 x2 fun u =>
  { u with st := .wait, waitFor := some .fence, longs := if served then [] else [divBy .div 2] }

/-- BoundariesAct: a wait that is over and one that is not, a STOP, a change of CNTD, the end of a quantum. -/
theorem test_hyps_boundaries :
    (∀ b : Bool, ((waiting b).ctx c3 x2).st = .wait ∧ (waiting b).waitOver c3 x2 = b) ∧
    (let s := bare.modCtx c3 x2 fun u => { u with stopReq := true }
     (s.ctx c3 x2).stopReq = true ∧ s.core[c3].midRoutine = none ∧ s.core[c3].halted = false ∧ (s.ctx c3 x2).st = .ready) ∧
    (∀ b : Bool, let s := bare.modCtx c3 x2 fun u => { u with cntdNext := some b }
      x2 ≠ fCtx ∧ (s.ctx c3 x2).cntdNext = some b ∧ (s.ctx c3 x2).inRoutine = false) ∧
    0xC00 ≤ (0xC00 : BitVec 12).toNat ∧
    (let s := k3 (bare.modCtx c3 1 fun u => { u with st := .ready }) fun k => { k with qcount := 16 * (k.qload.toNat + 1) }
     let k := s.core[c3]
     k.holder = some 2 ∧ k.rival (thr 2) = true ∧ k.midRoutine = none ∧ 16 * (k.qload.toNat + 1) ≤ k.qcount) := by decide +kernel

/-- FetchBuffersFollow: a refill from own local scratchpad. -/
theorem test_hyps_refill :
    let s := bare.modCtx c3 x2 fun u => { u with pc := 0x3FFE0, fbuf := [] }
    let u := s.ctx c3 x2
    s.mainRuns = true ∧ u.st = .ready ∧ u.f16 = false ∧ u.pc.toNat % 32 = 0 ∧ u.fbuf = [] ∧ u.served = none ∧
    u.ahead = none ∧ target (some c3) u.pc = .spad (B + 0x3FFE0) .plain true ∧ isSecure (B + 0x3FFE0) = false ∧
    s.destroyed (B + 0x3FFE0) = false ∧ s.march.slice = none ∧
    ∀ i < 8, s.wordShut (B + 0x3FFE0 + 4 * i) = false ∧ s.spad.check (B + 0x3FFE0 + 4 * i) = 0 := by decide +kernel

/-- The states in which THR_CTL is written. -/
def inState (st : CtxState) : State := bare.modCtx c3 x2 fun u => { u with st := st }

/-- ThreadsAreControlled: START, STOP and RESUME of each state; RESET; CNTD free and taken. -/
theorem test_hyps_threads :
    (let s := inState .idle
     MayWrite s sec (.thrCtl c3 x2) ∧ x2 ≠ fCtx ∧ (0x121 : Word).getLsbD 4 = false ∧ (s.ctx c3 x2).cntd = false ∧ s.core[c3].halted = false ∧
     (s.ctx c3 x2).st = .idle ∧ s.core[c3].chkFail = false ∧ s.core[c3].rhalt = false) ∧
    (∀ st ∈ [CtxState.ready, .wait, .sleep, .parked, .fault, .dfault],
      MayWrite (inState st) sec (.thrCtl c3 x2) ∧ ((inState st).ctx c3 x2).st = st ∧ (inState st).core[c3].halted = false) ∧
    (let s := bare.modCtx c3 5 fun u => { u with cntd := true }
     MayWrite s sec (.thrCtl c3 x2) ∧ (s.ctx c3 x2).st ≠ .idle ∧ (0x110 : Word).getLsbD 4 = true ∧
     ∃ y : Fin 8, thr y ≠ x2 ∧ (s.ctx c3 (thr y)).cntdBit = true) ∧
    (¬∃ y : Fin 8, thr y ≠ x2 ∧ (bare.ctx c3 (thr y)).cntdBit = true) ∧
    ((bare.modCtx c3 x2 fun u => { u with routine := some (.block 0x10 2 0 0) }).ctx c3 x2).routine.isSome = true := by decide +kernel

/-- ThreadRegistersWrite: the registers of a stopped and of a running thread. -/
theorem test_hyps_thread_registers :
    ∀ st ∈ [CtxState.parked, .ready], let s := inState st
      MayWrite s sec (.thrStat c3 x2) ∧ MayWrite s sec (.spillp c3 x2) ∧ MayWrite s sec (.spillsz c3 x2) ∧
      (s.ctx c3 x2).isStopped = (st == .parked) := by decide +kernel

/-- WindowsReach: the last entry of a stopped context, and of a running one. -/
theorem test_hyps_windows :
    ∀ st ∈ [CtxState.parked, .ready],
      let s := k3 ((inState st).modCtx c3 6 fun _ => { ctx 0x10000100 [] [] with winsel := { bank := 2, area := 0, entry := 63, ainc := true } })
        fun k => { k with holder := some 6 }
      let z := (s.ctx c3 6).winsel
      z.bank.toNat = x2.val ∧ z.area = 0 ∧ z.entry.toNat = 63 ∧ x2 ≠ fCtx ∧ MayRead s (.ctx c3 6) (.windat c3) ∧
      MayWrite s (.ctx c3 6) (.windat c3) ∧ (s.ctx c3 x2).isStopped = (st == .parked) ∧ (s.ctx c3 x2).priv ≠ 3 := by decide +kernel

/-- RegistersFollowRights: a debug and an ordinary read; registers of the own and of another core; a user. -/
theorem test_hyps_rights :
    (∀ w ∈ [sec, .debug], MayRead bare w (.evcDrop c3)) ∧ MayWrite bare (.ctx c3 x2) (.pipeCtl c3) ∧ MayWrite bare sec (.sysBase c3) ∧
    (∀ p ∈ [(0#2), 1, 3], let s := bare.modCtx c3 x2 fun u => { u with priv := p }
      s.coreRuns c3 = true ∧ s.core[c3].halted = false ∧ (s.ctx c3 x2).st = .ready ∧ (s.ctx c3 x2).impKnown = [] ∧
      (s.ctx c3 x2).routine = none ∧ (s.ctx c3 x2).waitFor = none ∧ (s.ctx c3 x2).served = none ∧ (s.ctx c3 x2).redo = false) := by decide +kernel

def held (f : LoadUnit → LoadUnit) : State := k3 { bare with load := f { bare.load with cores := 8, hold := true } } fun k => { k with held := true }

/-- LoadUnitActs: HOLD, RELEASE, COMMANDS of a held core, and the start-up check. -/
theorem test_hyps_load :
    (MayWrite bare sec .ucLdctl ∧ bare.load.hold = false ∧ bare.load.lock = false ∧ (8#16).getLsbD 5 = false ∧ (0x20#16).getLsbD 5 = true) ∧
    (let s : State := { bare with load := { bare.load with cores := 8, hold := true } }
     s.load.hold = true ∧ s.load.owner = (sec == .ring) ∧ s.load.owner ≠ (Agent.ring == .ring) ∧ (∀ c : CoreId, s.core[c].held = false) ∧
     AgentIdle s ∧ s.load.cores.getLsbD c3.val = true ∧ s.core[c3].midRoutine = none) := by decide +kernel

theorem test_hyps_load_commands :
    (let s := held fun l => { l with space := 0, addr := 0xFFF }
     MayWrite s sec .ucCmd ∧ s.load.owner = (sec == .ring) ∧ s.load.lock = false ∧
     (∀ c : CoreId, s.load.cores.getLsbD c.val = true → s.core[c].held = true) ∧ s.load.space = 0 ∧ 0xC00 ≤ s.load.addr.toNat ∧
     legalWord s.load.word = true) ∧
    legalWord (held fun l => { l with space := 0, addr := 0xC00, data := l.data.set 0 1 }).load.word = false ∧
    (let s := held fun l => { l with space := 2, addr := 63 }
     s.load.space = 2 ∧ s.load.addr.toNat = (63 : Fin 64).val ∧ s.patchOk s.load.data[0] = true ∧ s.load.cores.getLsbD c3.val = true ∧
     ∀ d : CoreId, d.val < c3.val → s.load.cores.getLsbD d.val = false) ∧
    (let s := bare
     AgentIdle s ∧ s.mainRuns = true ∧ s.dict.bootWait = false) ∧
    (let s := bare.modCore 7 fun k => { k with chkDone := false, invBusy := false }
     s.core[(7 : CoreId)].chkDone = false ∧ s.core[(7 : CoreId)].invBusy = false ∧ AgentIdle s ∧ s.mainRuns = true) ∧
    (let k := (bare.modCore 7 fun k => { k with csBad := [3, 0xC01], vsBad := [5] }).core[(7 : CoreId)]
     (k.csBad.filter (· < 0xC00) ++ k.vsBad).getLast? = some 5) := by decide +kernel

/-! ## Hypotheses: the transit engine and the ports -/

def entry1 : Staged :=
  { tb := 1, slot := 9, cls := 1, e := { target := 0x32, data := 7, be := 15, grain := 5, tag := 0, mode := 1 }, period := 3, lane := false }
def tbn (f : Tb → Tb) : State := bare.modTb 1 f
def offered : State := (tbn fun b => { b with en := true, starting := true, period := 3, slast := 100 }).modCore 6 fun k => { k with staging := [entry1] }

/-- EntriesJoinTheirQueues: the third core of the second group offers a one-shot entry. -/
theorem test_hyps_accept :
    let s := offered
    let x := s.transit
    let b := x.tb[entry1.tb]
    s.accepts = true ∧ x.rsvOnly = false ∧ s.core[(6 : CoreId)].staging = [entry1] ∧
    (∀ j : Fin 4, j ≠ 2 → s.core[(⟨4 * 1 + j.val, by omega⟩ : CoreId)].staging = []) ∧ b.en = true ∧ b.starting = true ∧ b.pause = none ∧
    b.flushing = false ∧ b.period = entry1.period ∧ modeOf entry1.e.mode = some (.oneShot, .now) ∧ x.ephFree = [] ∧
    (x.queue (qkey 1 9 1)).parOk = true := by decide +kernel

/-- Two entries in one queue, one of another frame, and the walk that reads them. -/
def walking : State :=
  let s := out offered (.transitAccept 1)
  let s := out (s.modCore 6 fun k => { k with staging := [{ entry1 with e := { entry1.e with tag := 3 } }] }) (.transitAccept 1)
  s.modTb 1 fun b => { b with walk := some ⟨0, 9, false, [(qkey 1 9 1, [0, 1])]⟩ }

/-- WalksPlace: an entry of the frame, and one that stays. -/
theorem test_hyps_walk :
    let s := walking
    let x := s.transit
    let b := x.tb[(1 : TbId)]
    let k := qkey 1 9 1
    b.walk = some ⟨0, 9, false, [(k, [0, 1])]⟩ ∧ b.pause = none ∧ b.flushing = false ∧ (x.queue k).items = [0, 1] ∧
    (x.queue k).parOk = true ∧ keyCls k ≠ 3 ∧ [0, 1].Nodup ∧ b.storeCnt + [0, 1].length < slotLimit 1 ∧
    (∀ i ∈ [0, 1], (x.entry i).kind = .oneShot ∧ i ∉ x.ephBad) ∧ (x.entry 0).tag = 0 ∧ (x.entry 1).tag = 3 := by decide +kernel

def item (i : Nat) (g : BitVec 14) : BufItem := { idx := i, cls := 1, e := { entry1.e with grain := g }, frame := 0, slot := 9 }

/-- BuffersStaySorted: a store to sort, and a late insert between two grains of the live buffer. -/
theorem test_hyps_buffers :
    (let s := tbn fun b => { b with sorting := true, store := [item 0 5, item 1 2] }
     s.transit.tb[(1 : TbId)].sorting = true ∧ s.tbActive 1 = false) ∧
    (let s := tbn fun b => { b with live := [item 0 2, item 1 5], merging := [item 2 3], liveOf := some (0, 9) }
     let b := s.transit.tb[(1 : TbId)]
     (b.live.Pairwise fun i j => i.e.grain.toNat ≤ j.e.grain.toNat) ∧ ∀ i ∈ b.merging, b.liveOf = some (i.frame, i.slot)) := by decide +kernel

/-- TransitCommands: one in progress, none; an entry read; a queue in and outside a walk; the last to end. -/
theorem test_hyps_trn_commands :
    (let s : State := { bare with transit := { bare.transit with cmds := [(.readQueue, 7)] } }
     MayWrite s sec .trnCmd ∧ s.transit.cmds ≠ [] ∧ s.transit.cmds = [(.readQueue, 7)] ∧ s.power.mainRst = false) ∧
    (let s : State := { walking with transit := { walking.transit with arg := 1 } }
     let x := s.transit
     MayWrite s sec .trnCmd ∧ x.cmds = [] ∧ (alGet x.eph (x.arg.toNat % 0x20000)).isSome = true ∧ x.arg.toNat % 0x20000 ∉ x.ephCorr ∧
     x.arg.toNat % 0x20000 ∉ x.ephBad) ∧
    (∀ b : Bool, let q := { walking.transit.queue 7 with walk := b }
      ({ walking.transit with queues := [(7, q)] } : Transit).queue 7 = q ∧ q.walk = b) ∧
    (let s : State := { bare with transit := { bare.transit with ready := false } }
     s.mainRuns = true ∧ s.transit.ready = false) := by decide +kernel

/-- TransitCommands: the end of each operation, alone and before another; a FLUSH_KEY whose queue a walk reads, and one that is free. -/
theorem test_hyps_trn_ends :
    (∀ o ∈ [TrnOp.flushKey, .flushTb, .readEntry, .readQueue, .resetEph], ∀ l ∈ [[], [(TrnOp.readQueue, 7)]],
      let s : State := { walking with transit := { walking.transit with cmds := (o, 7) :: l } }
      s.transit.cmds = (o, 7) :: l ∧ s.power.mainRst = false ∧ (s.transit.queue 7).walk = false) ∧
    (let q := { walking.transit.queue (qkey 1 9 1) with walk := true }
     ({ walking.transit with queues := [(qkey 1 9 1, q)] } : Transit).queue (qkey 1 9 1) = q) ∧
    (let s : State := { walking with transit := { walking.transit with arg := BitVec.ofNat 18 (qkey 1 9 1) } }
     let q := s.transit.queue s.transit.arg.toNat
     q.items = [0, 1] ∧ q.parOk = true ∧ ∀ i ∈ q.items, i ∉ s.transit.ephBad) := by decide +kernel

/-- TimebasesAreConfigured: disabled and enabled. -/
theorem test_hyps_timebase :
    ∀ b : Bool, let s := tbn fun t => { t with en := b }
      MayWrite s sec (.tbCfg 1) ∧ s.transit.tb[(1 : TbId)].en = b := by decide +kernel

def even (n m : Nat) (run hold par : Bool) : Prop :=
  ((List.range 16).filter n.testBit).length + ((List.range 16).filter m.testBit).length + run.toNat + hold.toNat + par.toNat ≡ 0 [MOD 2]

/-- PortsTakePositions: the last line and the last quad and sample of a disabled timebase; RPp_CTL. -/
theorem test_hyps_positions :
    (∀ p ∈ [(2 : Fin 8), 6], let s := (bare.modPort p fun q => { q with pen := true }).modTb p fun b => { b with slast := 100, glast := 0x17 }
      s.power.mainRst = false ∧ s.ports.port[p].pen = true ∧ s.ports.port[p].restart = none ∧ s.transit.tb[p].en = false ∧
      s.ports.port[p].last = none ∧ (100#13).toNat ≤ s.transit.tb[p].slast.toNat ∧ 4 * 5 ≤ s.transit.tb[p].glast.toNat ∧
      s.instIn 6 2 = false) ∧
    (((List.range 16).filter (100 : Nat).testBit).length + ((List.range 16).filter (5 : Nat).testBit).length + true.toNat + false.toNat +
      false.toNat) % 2 = 0 ∧
    MayWrite bare sec (.portCtl 2) := by decide +kernel

/-- PortsTakePositions: what the sample after (5, 4) is: the predicted one, a jump, and one with bad parity. -/
theorem test_hyps_samples :
    (∀ p ∈ [(2 : Fin 8), 6], let s := (bare.modPort p fun q => { q with pen := true, last := some (5, 4), seen := true }).modTb p fun b => { b with slast := 100 }
      s.power.mainRst = false ∧ s.ports.port[p].pen = true ∧ s.ports.port[p].parchk = true ∧ s.ports.port[p].restart = none ∧
      s.ports.port[p].last = some (5, 4) ∧ 5 < s.transit.tb[p].units p) ∧
    (((List.range 16).filter (5 : Nat).testBit).length + ((List.range 16).filter (5 : Nat).testBit).length + true.toNat + false.toNat +
      false.toNat) % 2 = 1 ∧
    (∀ p : Fin 8, bare.ports.port[p].pen = false) ∧ vesperOnly.power.mainRst = true ∧
    (let b := (tbOn bare).transit.tb[(7 : TbId)]
     b.en = true ∧ b.starting = false ∧ b.pause = none) := by decide +kernel

/-- An entry of quad 6 in the live buffer of beam 1, which is at quad 5 of line 5. -/
def driving : State := (bare.modPort 1 fun q => { q with pen := true }).modTb 1 fun b =>
  { b with en := true, run := true, slast := 100, glast := 0x7FF, slot := 5, grain := 0x14, storeOf := some (b.nextOcc b.frame 5),
           live := [item 0 25] }

/-- PortsTakePositions: an entry that is driven in the quad before its own. -/
theorem test_hyps_driving :
    let s := driving
    let b := s.transit.tb[(1 : TbId)]
    s.power.mainRst = false ∧ s.ports.port[(1 : Fin 8)].pen = true ∧ s.ports.port[(1 : Fin 8)].restart = none ∧ s.instIn 6 1 = false ∧
    b.en = true ∧ b.starting = false ∧ b.run = true ∧ b.pause = none ∧ b.flushing = false ∧ b.holdWalk = false ∧ s.transit.halted = false ∧
    s.power.state = .run ∧ b.slot = 5 ∧ b.slot ≤ b.slast.toNat ∧ b.grain ≤ 4 * 5 ∧ (item 0 25).e.grain.toNat ≤ b.glast.toNat ∧
    b.storeOf = some (b.nextOcc b.frame b.slot) ∧ b.live = [item 0 25] ∧ b.carry = [] ∧ b.armed = [] ∧
    ((item 0 25).cls = 0 ∨ (item 0 25).cls = 1) ∧ (item 0 25).e.grain.toNat / 4 = 5 + 1 := by decide +kernel

/-- FollowersLoseTheirMaster: MISS reached exactly, one line before it, and the fourth frame of HOLDOVER. -/
theorem test_hyps_meridian :
    (∀ st ∈ [MsState.locked, .acquire], let s := bare.modMs 1 fun m => { m with state := st, useMode := 2, usePsh := 0, miss := 3, lines := 3 }
      let m := s.ports.ms[(1 : Fin 4)]
      m.state = st ∧ max 1 m.miss.toNat * 2 ^ (if m.useMode = 3 then 0 else min m.usePsh 8) ≤ m.lines ∧ s.power.mainRst = false) ∧
    (let s := bare.modMs 1 fun m => { m with state := .holdover, frames := 4 }
     s.ports.ms[(1 : Fin 4)].state = .holdover ∧ 4 ≤ s.ports.ms[(1 : Fin 4)].frames) ∧
    (let s := bare.modMs 1 fun m => { m with state := .locked, miss := 3, lines := 2 }
     s.ports.ms[(1 : Fin 4)].lines < max 1 s.ports.ms[(1 : Fin 4)].miss.toNat) ∧
    (∀ l ∈ [(1#2), 2], let m := (bare.modMs 1 fun m => { m with useMode := 3, useLbeam := l }).ports.ms[(1 : Fin 4)]
     m.useMode = 3 ∧ decide (m.useLbeam.toNat = (1 : Fin 4).val) = (l == 1)) := by decide +kernel

/-! ## Hypotheses: the ring and the dictionary -/

/-- Both ports of the first pair linked. -/
def ring : State := rp (rp bare 0 fun r => { r with link := true, genUse := 2, gen := 2 }) 1 fun r => { r with link := true, genUse := 2, gen := 2 }

/-- PortsFollowTheirLinks: below and at the threshold of errors; an exchange of delays before and at its last; links that rise and fall. -/
theorem test_hyps_links :
    (let s := rp ring 1 fun r => { r with errth := 2, winErr := 0, armed := true }
     let q := s.ring.port[(1 : PortId)]
     s.forwarding = true ∧ q.gen ≠ 0 ∧ q.link = true ∧ q.winErr + 1 < max 1 q.errth.toNat) ∧
    (bare.ring.port[(1 : PortId)].link = false ∧ (rp ring 1 fun r => { r with gen := 0 }).ring.port[(1 : PortId)].gen = 0) ∧
    (let s := rp ring 1 fun r => { r with errth := 2, winErr := 1, armed := true }
     let q := s.ring.port[(1 : PortId)]
     q.armed = true ∧ max 1 q.errth.toNat ≤ q.winErr + 1 ∧ s.power.mainRst = false ∧ q.link = true) ∧
    (∀ p ∈ [((6 : Nat), true), (7, false)], let s := rp ring 1 fun r => { r with dlyNum := 0xFFFC, exch := p.1 }
      let q := s.ring.port[(1 : PortId)]
      ((3 : BitVec 16) - q.dlyNum).toNat < 8 ∧ decide (q.exch < 7) = p.2 ∧ (q.exch < 7 ∨ q.exch = 7)) ∧
    (let s := rp bare 2 fun r => { r with gen := 2 }
     s.power.pornAon = true ∧ s.power.restored = true ∧ s.ring.tclk = true ∧ s.power.mainRst = false ∧ s.ring.port[(2 : PortId)].gen ≠ 0 ∧
     s.ring.port[(2 : PortId)].link = false ∧ 2 ≤ s.ring.port[(2 : PortId)].gen.toNat ∧ (3 : BitVec 2) ≠ s.ring.port[(2 : PortId)].gen) ∧
    MayWrite ring sec (.rpCtl 1) ∧ (2 : BitVec 2) = ring.ring.port[(1 : PortId)].gen := by decide +kernel

def hdr0 : RingHdr := { port := 1, node := 5, seq := 0, index := 0, sub := 0, flags := 0, len := 0, src := 0x40, hops := 3 }
def frame0 (hops : BitVec 8) (size : Nat) : Frame :=
  frameSealed { ty := 0x88B5, fcsOk := true, hcrc := 0, rsp := true, cmd := 0x81, hdr := { hdr0 with hops := hops }, status := 0,
                credit := 0, payload := [], size := size }
def resp0 : Resp := ⟨1, 1, 2, 3, 4, 0, 1, 0, [], false⟩

/-- FramesPassOn: frames at the hop limit and below it, a buffer filled exactly, both modes of ASSIGN, SYNC, and own frames by rank. -/
theorem test_hyps_frames_pass :
    (let s := ring
     s.forwarding = true ∧ s.ring.port[(1 : PortId)].link = true ∧ s.ring.outFor (partner 1) = some 0 ∧
     (frame0 0xFE 64).hdr.hops ≠ 0xFF ∧ (frame0 0xFE 64).hdr.len ≤ limitD s.ring.port[(0 : PortId)].genUse + 4 ∧
     16320 + (frame0 0xFE 64).size ≤ 16384 ∧ (frame0 0xFF 64).hdr.hops = 0xFF ∧ (frame0 0xFE 64).rsp = true ∧ s.ring.assignLk = false) ∧
    (let s : State := { ring with ring := { ring.ring with node := 0x7F } }
     s.ring.node = 0x7F ∧ s.forwarding = true) ∧
    (let s := pw ring fun p => { p with mainRst := true, state := .vesperOnly }
     s.mainRuns = false ∧ s.forwarding = true ∧ s.ring.outFor (partner 1) = some 0) ∧
    (let s := rp ring 1 fun r => { r with txq := [.resp resp0, .dlyReq 3, .dlyRsp 4 5] }
     s.ring.port[(1 : PortId)].txq = [.resp resp0] ++ .dlyReq 3 :: [.dlyRsp 4 5] ∧
     (∀ g ∈ [OwnFrame.resp resp0], (OwnFrame.dlyReq 3).rank < g.rank) ∧ ∀ g ∈ [OwnFrame.dlyRsp 4 5], (OwnFrame.dlyReq 3).rank ≤ g.rank) := by
  decide +kernel

/-- FramesPassOn: frames of Knadu and others, by both kinds of header, in and out; a frame that its header's bytes give back. -/
theorem test_hyps_frame_kinds :
    (frame0 3 64).ty = ring.ring.etype ∧ (0x44B#16).toNat % 256 = 0x4B ∧ 1 ≤ (0x13F#16).toNat % 256 ∧ (0x13F#16).toNat % 256 ≤ 0x3F ∧
    (0x0800#16) ≠ ring.ring.etype ∧ { frame0 3 64 with rsp := false, cmd := 0x11 }.rsp = false ∧ (frame0 3 64).hdr.len < 0x10000 ∧
    (let s := rp (rp ring 0 fun r => { r with genUse := 1, gen := 1 }) 1 fun r => { r with genUse := 1, gen := 1 }
     s.forwarding = true ∧ s.ring.port[(1 : PortId)].link = true ∧ s.ring.outFor (partner 1) = some 0 ∧
     s.ring.port[(1 : PortId)].genUse = 1 ∧ s.ring.port[(0 : PortId)].genUse = 1) ∧
    (let s := rp ring 1 fun r => { r with genUse := 1, gen := 1 }
     s.ring.outFor (partner 1) = some 0 ∧ s.ring.port[(1 : PortId)].genUse = 1 ∧ s.ring.port[(0 : PortId)].genUse ≠ 1) := by decide +kernel

/-- FramesPassOn: node messages of 1, 32, no and 33 bytes; the end of one. -/
theorem test_hyps_messages :
    MayWrite ring sec .nmsgCtl ∧ ring.ring.nbusy = false ∧
    (∀ p ∈ [((0x101 : Nat), true), (0x120, true), (0x100, false), (0x121, false)],
      p.1.testBit 10 = false ∧ decide (1 ≤ p.1 % 64 ∧ p.1 % 64 ≤ 32) = p.2) ∧
    ring.ring.port[(0 : PortId)].link = true ∧ ring.ring.port[(1 : PortId)].link = true ∧
    ({ ring with ring := { ring.ring with nbusy := true } } : State).ring.nbusy = true ∧
    (∀ q : PortId, ring.ring.port[q].txq = []) ∧ MayWrite ring sec .hmsgSt := by decide +kernel

/-- RingCommandsAnswer: a command for this node, one ahead of its turn, and the commands that run. -/
theorem test_hyps_ring_commands :
    (let s := ring
     s.forMe hdr0 = true ∧ hdr0.node ≠ 0x7F ∧ hdr0.flags = 0 ∧ s.ring.outFor (partner hdr0.port) = some 0 ∧ hdr0.len = 0 ∧
     s.ring.resync = none ∧ s.agentOn = true ∧ AgentIdle s) ∧
    (∀ n ∈ [(1 : Nat), 65279], 1 ≤ (BitVec.ofNat 16 n - ring.ring.expSeq).toNat ∧ (BitVec.ofNat 16 n - ring.ring.expSeq).toNat ≤ 65279) ∧
    ring.mainGate = .go ∧ (9 : Nat) ≤ (0x9000#16).toNat / 0x1000 := by decide +kernel

theorem test_hyps_ring_taken :
    ∀ p ∈ [((0x4020 : Nat), (0 : Nat)), (0x4020, 4), (0x9000, 0), (0x8000, 8)],
      Taken ring { hdr0 with index := BitVec.ofNat 16 p.1, sub := 1, len := p.2 } p.2 := by decide +kernel

theorem test_hyps_ring_memory :
    (∀ off ∈ [0x02000000, 0x0277FFFC], ring.banksReady = true ∧ off % 4 = 0 ∧ 0x02000000 ≤ off ∧ off + 4 ≤ 0x02780000 ∧
      ring.destroyed off = false ∧ ring.spad.check off = 0 ∧ ring.borrowed off = none) ∧
    ring.spad.wiping = false ∧ ring.sealed = false ∧ ring.power.state = .run ∧
    (∀ n ∈ [(1 : Nat), 32], Taken ring { hdr0 with len := n } n ∧ ring.ring.hfull = false ∧ ring.power.mainRst = false) := by decide +kernel

def code0 : BitVec 64 := 0x1122334455667788
def coded : State := nt bare fun n =>
  { n with param := [(254, ofBytes 256 (toBytes 8 code0 ++ toBytes 4 (crc32 (toBytes 8 code0)) ++
      (toBytes 8 code0 ++ toBytes 4 (crc32 (toBytes 8 code0)))))] }

/-- DictionaryActs: the writer idle; a code stored and none; cores that START and cores that may not. -/
theorem test_hyps_dictionary :
    (let s := bare
     AgentIdle s ∧ s.agentOn = true ∧ s.night.cur = none ∧ s.night.wantRow0 = none ∧ s.night.wantLc = none ∧ s.night.staged = [] ∧
     s.power.mainRst = false ∧ s.power.heldDone = true ∧ s.sealed = false ∧ s.night.intCode = none ∧ s.mainGate = .go) ∧
    (let s := dc coded fun d => { d with intFails := 7 }
     s.dict.intFails < 8 ∧ s.night.intCode = some code0 ∧ s.night.intCode ≠ some 3) ∧
    (let s := [2, 7].foldl (fun s (c : CoreId) => s.modCore c fun k => { k with chkDone := true }) bare
     ∀ c : CoreId, (0x84 : BitVec 16).getLsbD c.val = true →
       s.core[c].chkDone = true ∧ s.core[c].chkFail = false ∧ (s.ctx c 0).st = .idle ∧ s.core[c].rhalt = false) := by decide +kernel

def injected (n : Nat) : State :=
  let s := dc (tbn fun b => { b with en := true, slast := 100, period := 3 }) fun d => { d with injWhere := 0x10F00123, injData := 77 }
  { s with transit := { s.transit with ringFifo := List.replicate n entry1 } }

def imaged (cores : BitVec 16) : State :=
  let b : List Byte := [0x48, 0x58, 0x55, 0x43] ++ toBytes 2 cores ++ [0, 0, 0, 0, 0, 3] ++ toBytes 4 (crc32 [])
  dc (sp bare fun m => (List.range b.length).foldl (fun m i => m.setByte (0x0277A000 + i) (b.getD i 0)) m) fun d =>
    { d with ucState := 1, ucSize := b.length }

/-- DictionaryActs: an injection with one place left and with none, one that fails its check; a flash command; DACC at each level. -/
theorem test_hyps_dictionary_main :
    (∀ n ∈ [(7 : Nat), 8], let s := injected n
      s.transitOk none 0x20090005 15 0 1 0x00123 = true ∧ s.transit.ringEn = true ∧ s.transit.ringFifo.length = n ∧ s.mainGate = .go ∧
      s.dict.injWhere.toNat / 2 ^ 20 % 16 = 15 ∧ s.dict.injWhere.toNat / 2 ^ 28 = 1) ∧
    bare.transitOk none 0x20090005 15 0 1 0x00123 = false ∧
    ({ bare with flash := { bare.flash with pen := true } } : State).flash.pen = true ∧ (0x03FFFFFFFFFFFFFF : BitVec 64).toNat < 2 ^ 58 ∧
    bare.dict.ucState ≠ 1 ∧
    (∀ l ∈ [(0#2), 1, 2], let s := pw (dg bare fun d => { d with level := l }) fun p => { p with vdbg := true }
      s.power.vdbg = true ∧ s.dict.daccStat ≠ 1 ∧ s.dbg.level = l ∧ AgentIdle s ∧ s.agentOn = true) := by decide +kernel

/-- DictionaryActs: a staged image that passes, and one that names no core. -/
theorem test_hyps_commit_image :
    (∀ p ∈ [((8 : Nat), true), (0, false)], let s := imaged (BitVec.ofNat 16 p.1)
      s.dict.ucState = 1 ∧ s.banksReady = true ∧ s.spad.wiping = false ∧ s.spad.wipeDue = false ∧ s.march.slice = none ∧
     s.load.lock = false ∧ s.load.hold = false ∧ s.dict.flashTodo = [] ∧ s.dict.ucStage.toNat % 4 = 0 ∧
      (s.ucCheck ((List.range s.dict.ucSize).map fun i => s.spad.byte (s.dict.ucStage.toNat + i))).toOption.isSome = p.2 ∧
      s.core[c3].held = false) := by decide +kernel

theorem test_hyps_commit_memory : (∀ a, (imaged 8).spad.check a = 0) ∧ ∀ a, (imaged 8).destroyed a = false := by
  have h : (imaged 8).spad.bad = [] ∧ (imaged 8).spad.corr = [] ∧ (imaged 8).spad.undef = [] ∧ (imaged 8).march.busy = false := by
    decide +kernel
  generalize imaged 8 = s at h
  obtain ⟨h1, h2, h3, h4⟩ := h
  exact ⟨fun a => by simp [Spad.check, h1, h2, h3, alGet], fun a => by simp [State.destroyed, h4]⟩

/-! ## Hypotheses: power, resets, start-up -/

/-- SuppliesFall: the main domain up, with a pending request, and down; debug reset; a warning. -/
theorem test_hyps_supplies :
    (let s := pw bare fun p => { p with pend := 2 }
     AgentIdle s ∧ s.power.mainRst = false ∧ s.power.pend = 2 ∧ s.power.pornAon = true ∧ s.night.cur = none ∧
     (∀ m, s.memberHalted m = false) ∧ s.dbg.level = lcDefault s.night.lcState ∧ s.dbg.level ≠ 0 ∧ s.power.mainWarn = false ∧
     s.gpio.frozen = false) ∧
    vesperOnly.power.mainRst = true ∧
    (let s := nt bare fun n => { n with cur := some (.clear 3) }
     s.night.staged.length < 2 ∧ s.night.cur.isSome = true) := by decide +kernel

/-- StartUpRuns: PORn_AON's release, the main reset's, the PLLs' lock with the march held and without, an invalidation. -/
theorem test_hyps_start_up :
    (let s := State.reset
     s.power.pornAon = false ∧ AgentIdle s ∧ s.night.slots = [] ∧ (s.night.current).1 = none) ∧
    (let s := pw vesperOnly fun p => { p with mainWarn := false, vcause := 2 }
     s.power.pornAon = true ∧ s.power.restored = true ∧ s.power.mainEn = true ∧ s.power.mainRst = true ∧ s.power.mainWarn = false) ∧
    (∀ v ∈ [(1 : Nat), 2],
      let s := dc (sp (pw bare fun p => { p with lockA := false, lockB := false }) fun m => { m with initDone := false }) fun d =>
        { d with marchStartup := BitVec.ofNat _ v }
      s.power.mainRst = false ∧ s.power.state = .run ∧ s.power.lockA = false ∧ AgentIdle s ∧ s.ring.deferred = [] ∧
      s.spad.initDone = false ∧ s.power.wipePend = false ∧ s.march.busy = false) ∧
    (let s := k3 bare fun k => { k with invBusy := true }
     s.mainRuns = true ∧ s.core[c3].invBusy = true ∧ s.core[c3].rstWait = false) := by decide +kernel

def alarmed : State := pw bare fun p => { p with vt := 0x000456789ABC, almLo := 0x56789ABC, almHi := 4, almEn := true }
def dozing : State := bare.allCores fun _ k => { k with dozed := true, dozeWake := false, ctx := Vector.replicate 9 {} }

/-- PowerStatesChange: the registers, the alarm in RUN and in VESPER-ONLY, DOZE, the reset of a core. -/
theorem test_hyps_power :
    (MayWrite bare sec .pwrCtl ∧ MayWrite bare sec .clkPlla ∧ (∀ hi, MayWrite bare sec (.clkCdiv hi)) ∧ MayWrite bare sec .clkSdiv ∧
      MayWrite bare sec .vtLo ∧ MayRead bare sec .vtLo ∧ MayWrite bare sec .pwrCrst ∧ bare.core[c3].sb = []) ∧
    (let p := alarmed.power
     p.almEn = true ∧ p.vt.toNat = p.almLo.toNat + 2 ^ 32 * p.almHi.toNat ∧ p.state = .run ∧ p.mainRst = false) ∧
    (let p := (pw alarmed fun p => { p with mainRst := true, state := .vesperOnly, awake := true, wantMain := false }).power
     p.almEn = true ∧ p.state = .vesperOnly ∧ p.mainRst = true ∧ p.awake = true ∧ p.wantMain = false) := by decide +kernel

theorem test_hyps_doze :
    (k3 bare fun k => { k with ctx := Vector.replicate 9 {} }).mayDoze c3 = true ∧
    (let s := k3 bare fun k => { k with dozed := true, dozeWake := true }
     s.mainRuns = true ∧ s.power.state = .run ∧ s.core[c3].dozed = true ∧ s.core[c3].dozeWake = true) ∧
    (let s := k3 bare fun k => { k with sb := [{ id := 0, addr := 0, from_ := 0, data := 0, be := 15, ctx := 2 }] }
     MayWrite s sec .pwrCrst ∧ s.core[c3].sb ≠ []) := by decide +kernel

def napped : State := sp (pw dozing fun p =>
  { p with state := .nap, napWake := true, lockA := false, lockB := false, vddmLow := true, vddmOk := false }) fun m => { m with asleep := true }

/-- PowerStatesChange: NAP is entered and left, and the banks wake. -/
theorem test_hyps_nap :
    (let s := pw dozing fun p => { p with pend := 1 }
     s.power.pend = 1 ∧ s.mainRuns = true ∧ s.power.state = .run ∧ s.power.relock = false ∧ s.spad.initDone = true ∧
     (∀ c : CoreId, s.core[c].dozed = true ∧ s.core[c].dozeWake = false) ∧ s.quietMasters = true) ∧
    (let s := napped
     s.power.state = .nap ∧ s.power.napWake = true ∧ s.power.mainRst = false ∧ AgentIdle s ∧ s.fabric.held = [] ∧
     ∀ tb : TbId, (s.transit.tb[tb]).pause = none) ∧
    (let s := pw napped fun p => { p with state := .run }
     s.spad.asleep = true ∧ s.power.mainRst = false ∧ s.power.state = .run ∧ AgentIdle s ∧ s.fabric.held = []) := by decide +kernel

/-! ## Hypotheses: scratchpad upkeep, march, lines and ports -/

/-- The last slice of bank 65, in the secure region, and its last one below the region. -/
def slice0 (phase : Nat) : Slice := { bank := 65, index := 1023, phase := phase, shadow := (List.range 64).map (BitVec.ofNat 32 ·) }
def openSlice : Slice := { slice0 1 with index := 959 }

/-- WipesAndZeroing: a write-back that may run and one that may not; a wipe asked for, in and outside a borrowed slice, at power-up, and its
end; start-up's zeroing. -/
theorem test_hyps_wipe :
    (let s := sp bare fun m => { m with wback := [0x02000104] }
     (0x02000106 : Word).toNat / 4 * 4 ∈ s.spad.wback ∧ s.wordFree 0x02000104 = true) ∧
    (sp bare fun m => { m with asleep := true }).wordFree 0x02000104 = false ∧
    (let s := sp (pw bare fun p => { p with wipePend := true }) fun m => { m with wipeDue := true }
     s.power.wipePend = true ∧ s.spad.wipeDue = true ∧ s.mainRuns = true ∧ s.spad.asleep = false ∧ s.spad.wiping = false ∧
     s.march.slice = none) ∧
    isSecure (sliceWord openSlice.bank openSlice.index 0) = false ∧ isSecure (sliceWord (slice0 1).bank (slice0 1).index 0) = true ∧
    (let s := sp bare fun m => { m with wiping := true }
     s.spad.wiping = true ∧ s.spad.initDone = true ∧ s.power.mainRst = false ∧ AgentIdle s ∧ s.fabric.held = []) ∧
    (let s := dc (sp bare fun m => { m with initDone := false }) fun d => { d with marchStartup := 2 }
     s.mainRuns = true ∧ s.spad.initDone = false ∧ s.march.busy = false ∧ s.power.wipePend = false ∧ s.spad.wiping = false ∧
     s.dict.marchStartup.getLsbD 0 = false ∧ ∀ c : CoreId, s.core[c].chkFail = false) := by decide +kernel

def selected : State := md bare fun m => { m with sel := #v[0, 0, 2] }
def testing (phase : Nat) : State := md bare fun m => { m with busy := true, banks := [65], slice := some (slice0 phase) }

/-- MarchRunsTest: the save of a slice; a read that fails; an element and the end of a destroying run; the next slice; a wipe; the ends. -/
theorem test_hyps_march_runs :
    (let s := testing 0
     s.march.slice = some (slice0 0) ∧ (slice0 0).phase = 0 ∧ s.spad.wiping = false ∧ s.spad.asleep = false ∧ AgentIdle s ∧
     s.fabric.held = [] ∧ ∀ i < 64, s.spad.check (sliceWord 65 1023 i) = 0) ∧
    (let a := sliceWord 65 1023 63
     bankOf a = 65 ∧ (sliceOf a).1 = 1023 ∧ (marchElements false)[2 - 1]? = some (.up, [.r0, .w1]) ∧ [MarchOp.r0, .w1][0]? = some .r0 ∧
     MarchOp.r0.expects = some 0 ∧ (1 : Word) ≠ 0) ∧
    (∀ e ∈ [(5 : Nat), 6], let s := md bare fun m => { m with busy := true, destroying := true, banks := [65], elem := e }
     s.march.busy = true ∧ s.march.slice = none ∧ decide (s.march.elem < 6) = (e == 5)) ∧
    (let s := md bare fun m => { m with busy := true, banks := [65, 66], slices := [1, 2] }
     s.march.slice = none ∧ s.march.banks = 65 :: [66] ∧ s.march.slices = 1 :: [2] ∧ s.bankCounted 65 = false) ∧
    (sp (testing 2) fun m => { m with wiping := true }).spad.wiping = true ∧
    (let s := md bare fun m => { m with busy := true, cont := true, stopping := true }
     s.march.banks = [] ∧ s.march.slice = none ∧ s.march.startup = false ∧ s.march.stopping = true) := by decide +kernel

/-- MarchRunsTest: runs refused and begun; elements; the end of the last slice; the end of a destroying run. -/
theorem test_hyps_march :
    (MayWrite selected sec .marchCtl ∧ selected.march.busy = false ∧ selected.march.selected = 65 :: [] ∧
      selected.bankCounted 65 = false ∧ (8 : Word).getLsbD 3 = true ∧ (1 : Word).getLsbD 3 = false) ∧
    (let s := (md bare fun m => { m with sel := #v[2, 0, 0] }).modCtx 0 2 fun u => { u with st := .ready, cntd := true }
     s.march.busy = false ∧ ∃ b ∈ s.march.selected, s.bankCounted b = true) ∧
    (let s := md bare fun m => { m with busy := true, destroying := true, banks := [65] }
     s.march.busy = true ∧ s.march.destroying = true ∧ s.march.stopping = false ∧ s.march.startup = false ∧ s.power.mainRst = false) ∧
    (∀ n ∈ [(1 : Nat), 6], (testing n).march.busy = true ∧ (testing n).march.slice = some (slice0 n) ∧ (testing n).march.faddrSet = false ∧
      (testing n).march.destroying = false) ∧
    ((testing 7).march.slice = some (slice0 7) ∧ (slice0 7).skip = false ∧ (slice0 7).shadow.length = 64 ∧ (slice0 7).bank < 96 ∧
      (slice0 7).index < sliceCount (slice0 7).bank) := by decide +kernel

def flashLine : BitVec 27 := lineOf 0x10000100
def filling : State := k3 (bare.modCtx c3 x2 fun u => { u with waitFor := some (.line 0x10000100) }) fun k =>
  { k with miss := k.miss.set 1 (some { line := flashLine, users := [2], got := some (.data 77) }) }
def lined : State := (k3 (bare.modCtx c3 3 fun _ => { ctx 0x10000100 [] [] with priv := 3 }) fun k =>
  { k with lcPin := 2, lc := k.lc.set 5 { valid := true, line := flashLine, data := 77 } })

/-- LinesAreKept: a fill; an age tick; pins; a copy refused and begun, and its end; LC_CTL and FAB_WIN. -/
theorem test_hyps_lines :
    (let k := filling.core[c3]
     k.miss[(1 : Fin 4)] = some { line := flashLine, users := [2], got := some (.data 77) } ∧ isFabLine flashLine = false ∧ k.cacheOn = true) ∧
    (∃ m, filling.core[c3].miss[(1 : Fin 4)] = some m ∧ m.snooped = false ∧ m.debug = false) ∧
    (k3 bare fun k => { k with ageDue := true }).core[c3].ageDue = true ∧
    (let s := lined
     let k := s.core[c3]
     MayWrite s (.ctx 3 3) (.lcPin c3) ∧ MayWrite s (.ctx 3 3) (.lcPinld c3) ∧ MayWrite s (.ctx 3 3) (.lcCtl c3) ∧ MayWrite s sec .fabWin ∧
     k.pinBusy = false ∧ k.lcPin.getLsbD 1 = true ∧ k.lcPin.getLsbD 3 = false ∧ isFlashLine (lineOf 0x10000101) = true ∧
     k.find (lineOf 0x10000101) = some 5 ∧ k.lc[(5 : Fin 48)].badPar = 0) ∧
    (let p : PinLd := { slot := 1, line := flashLine, got := some (.data 77) }
     (k3 lined fun k => { k with pinld := some p }).core[c3].pinld = some p ∧ lined.core[c3].lcPin.getLsbD p.slot.val = true) := by decide +kernel

def sb0 : SbEntry := { id := 4, addr := 0x40000010, from_ := 0x20000010, data := 9, be := 15, ctx := 2 }
def fab (k : FabKind) (a : Word) : FabReq := { core := c3, kind := k, addr := a, tag := 3 }
def flashReq (cmd : BitVec 2) (n : Nat) : FlashReq := { cmd := cmd, addr := 0x48, users := [.fill 3 0], beats := (List.range n).map (BitVec.ofNat 32 ·) }
def asked (r : FlashReq) : State := k3 { bare with flash := { bare.flash with tags := bare.flash.tags.set 2 (some r) } } fun k =>
  { k with miss := k.miss.set 0 (some { line := r.line, users := [2] }) }

/-- PortsServe: the fabric. -/
theorem test_hyps_fabric :
    (let s := k3 bare fun k => { k with sb := [sb0] }
     s.mainRuns = true ∧ s.core[c3].sb = sb0 :: [] ∧ sb0.sent = false ∧ (∀ q ∈ [{ sb0 with id := 5 }], q.id ≠ sb0.id) ∧ s.fabric.queue = [] ∧ s.fabric.shown = none ∧ s.fabric.out = []) ∧
    (let r := fab (.write 4 9 15 2) 0x40000010
     let s : State := { (k3 bare fun k => { k with sb := [{ sb0 with sent := true }] }) with fabric := { bare.fabric with out := [r] } }
     AgentIdle s ∧ s.fabric.queue = [] ∧ s.fabric.shown = none ∧ s.fabToCached r.addr = none ∧ s.core[c3].rstWait = false ∧
     (∀ e ∈ s.core[c3].sb, e.id = 4 → e.debug = false)) ∧
    (let s : State := { (bare.modCtx c3 x2 fun u => { u with waitFor := some (.fabric 0x28000010) }) with
        fabric := { bare.fabric with shown := some (fab (.load 2 0x28000010) 0x40000010) } }
     s.fabric.shown = some (fab (.load 2 0x28000010) 0x40000010) ∧ s.fabric.queue = [] ∧ AgentIdle s ∧
     (s.ctx c3 x2).waitFor = some (.fabric 0x28000010)) ∧
    (0x20000144 : Word).toNat / 2 ^ 27 = bare.fabric.win.toNat := by decide +kernel

/-- PortsServe: the flash port, at the seventh beat and before it, and the slave. -/
theorem test_hyps_flash :
    (let s : State := { bare with flash := { bare.flash with queue := [flashReq 0 0] } }
     s.mainRuns = true ∧ s.flash.pen = true ∧ s.flash.shown = none ∧ (∀ t : Fin 4, s.flash.tags[t] = none) ∧ s.flash.queue = [flashReq 0 0]) ∧
    (∀ n ∈ [(6 : Nat), 7], let s := asked (flashReq 0 n)
      AgentIdle s ∧ s.power.mainRst = false ∧ s.flash.shown = none ∧ s.flash.tags[(2 : Fin 4)] = some (flashReq 0 n) ∧
      (flashReq 0 n).beats.length = n ∧ (flashReq 0 n).err = false ∧ s.core[c3].pinld = none ∧
      s.core[c3].miss[(0 : Fin 4)] = some { line := (flashReq 0 n).line, users := [2] }) ∧
    (asked (flashReq 1 0)).flash.tags[(2 : Fin 4)] = some (flashReq 1 0) ∧ MayWrite bare sec .flCtl ∧
    (∀ a ∈ [0x02000000, 0x0277FFFC], bare.destroyed a = false ∧ bare.spad.check a = 0 ∧ bare.borrowed a = none) ∧
    bare.mainRuns = true ∧ bare.power.state = .run ∧ bare.banksReady = true := by decide +kernel

/-- PortsServe: the slave's words, at both ends of what it may read, one that cannot be corrected, and its wait in NAP. -/
theorem test_hyps_slave :
    (∀ a ∈ [0x01000000, 0x013FFFFC, 0x02000000, 0x0277FFFC], bare.wordFree a = true ∧ bare.destroyed a = false ∧ bare.borrowed a = none ∧
      bare.spad.check a = 0) ∧
    (sp bare fun m => { m with bad := [0x02000000] }).spad.check 0x02000000 = 2 ∧
    (let s := pw bare fun p => { p with state := .nap }
     s.power.state = .nap ∧ s.power.mainRst = false) := by decide +kernel

/-! ## Hypotheses: events and pins -/

/-- SourcesAreRaised: a pulse source pending before a full ring; an input of each kind; a timer; a route in use. -/
theorem test_hyps_sources :
    (let s := (k3 bare fun k => { k with evqWr := 64 }).setSrc 120 { en := true, core := 3, pend := true }
     s.power.mainRst = false ∧ isLevel 120 (s.src 120) = false ∧ (s.src 120).en = true ∧ srcKind 120 ≠ .reserved ∧ (s.src 120).cls = false ∧
     s.core[(s.src 120).core].qfull = true) ∧
    (∀ k ∈ [(0#2), 1, 2, 3], let s := bare.setSrc 399 { en := true, kind := k, level := true }
      (s.src 399).en = true ∧ (s.src 399).level ≠ false ∧ (s.src 399).inv = false ∧ (s.src 399).kind = k ∧ (s.src 399).pend = false ∧
      (s.src 399).out = none) ∧
    (let s : State := { bare with ev := { bare.ev with timer := bare.ev.timer.set 4 { en := true, load := 7 } } }
     s.mainRuns = true ∧ s.ev.timer[(4 : Fin 32)].en = true ∧ s.ev.timer[(4 : Fin 32)].cnt = 0) ∧
    MayWrite bare sec .evSwset ∧ MayWrite bare sec (.evSrc 121) ∧ srcKind 121 = .pulse ∧
    (let s := bare.setSrc 120 { en := true, cls := true, core := 5, fslot := 3 }
     ∃ q ∈ s.ev.src, q.1 ≠ 121 ∧ q.2.en = true ∧ q.2.cls = true ∧ q.2.core = 5 ∧ q.2.fslot = 3) := by decide +kernel

/-- SourcesAreRaised: a level that rises with no record out, and an inversion that ends one whose record waits. -/
theorem test_hyps_levels :
    (let u : Source := { en := true, kind := 3 }
     let s := bare.setSrc 399 u
     isLevel 399 (s.src 399) = true ∧ s.src 399 = u ∧ u.inv = false ∧ u.level = false ∧ u.out = none) ∧
    (let u : Source := { en := true, kind := 3, level := true, out := some (3, 7) }
     let s := bare.setSrc 399 u
     MayWrite s sec (.evSrc 399) ∧ srcKind 399 = .prog ∧ s.src 399 = u ∧ u.kind = 3 ∧ u.inv = false ∧ u.out = some (c3, 7) ∧
     u.delivered = false) := by decide +kernel

def fast : State := (k3 bare fun k => { k with fmask := false, fvecOffs := 2 }).setSrc 120 { en := true, cls := true, core := 3, fslot := 2, pend := true }
def recorded : State := (k3 bare fun k => { k with evqOffs := 64 }).setSrc 120 { en := true, core := 3, pend := true, mrg := 3 }
def due (f16 : Bool) : State := k3 (bare.modCtx c3 x2 fun u => { u with f16 := f16 }) fun k => { k with nmask := false, evqWr := 1, hthr := 2 }

/-- A user routine of context 3 in X, at a trap point. -/
def trapped (s : State) : State := s.modCtx c3 3 fun u => { u with st := .ready, routine := some (.micro 0xFF 0 0 0 1 { upc := 0xC05, trap := true }) }

/-- EventsAreDelivered: a fast entry, alone and over a routine at a trap point, a record, a normal entry and one that finds Ferpor-16, the
registers of the ring. -/
theorem test_hyps_events :
    (let s := fast
     s.fastOpen c3 = true ∧ (s.ctx c3 fCtx).st = .idle ∧ s.core[c3].midRoutine = none ∧ s.core[c3].takeable = true ∧ s.core[c3].evWake = 0 ∧
     AsStored s c3 (entryStart true) ∧ s.ev.src = [(120, s.src 120)] ∧ isLevel 120 (s.src 120) = false ∧ (s.src 120).pend = true) ∧
    (let s := trapped fast
     s.core[c3].midRoutine = some 3 ∧ s.core[c3].takeable = true) ∧
    (let s := recorded
     s.mainRuns = true ∧ s.wordFree (s.core[c3].recordAddr c3) = true ∧ s.ev.src = [(120, s.src 120)] ∧ s.recordReady 120 = true ∧ isLevel 120 (s.src 120) = false ∧
     (s.src 120).core = c3 ∧ s.march.slice = none ∧ s.destroyed (s.core[c3].recordAddr c3) = false ∧ s.core[c3].evWake = 0) := by decide +kernel

theorem test_hyps_normal :
    (∀ b : Bool, let s := due b
      x2 = thr s.core[c3].hthr ∧ s.normalDue c3 = true ∧ (s.ctx c3 x2).st = .ready ∧ s.core[c3].midRoutine = none ∧
      AsStored s c3 (entryStart false) ∧
      (s.ctx c3 x2).impKnown = [] ∧ (s.ctx c3 x2).stopReq = false ∧ (s.ctx c3 x2).f16 = b ∧ (∀ q ∈ s.ev.src, q.2.out = none) ∧
      (s.ctx c3 x2).slot.valid = false ∧ (s.ctx c3 x2).longs = [] ∧ Returns s c3 x2 [] ∧ RoomFor s c3 x2 2) ∧
    MayWrite bare sec (.evqBase c3) = False ∧ MayWrite bare .ring (.evqBase c3) ∧ MayWrite bare .ring (.evqRd c3) ∧
    MayRead bare (.ctx 3 2) (.evqWr c3) ∧ (∀ q ∈ bare.ev.src, q.2.out = none) := by
  refine ⟨by decide +kernel, ?_, by decide +kernel⟩
  simp only [eq_iff_iff, iff_false]
  decide +kernel

theorem test_hyps_normal_sleep :
    let s := (due false).modCtx c3 x2 fun u => { u with st := .sleep }
    s.normalDue c3 = true ∧ (s.ctx c3 x2).st = .sleep ∧ s.core[c3].midRoutine = none ∧ Returns s c3 x2 [] := by decide +kernel

/-- EventsAreDelivered: a vector without an error, and one with a word that cannot be corrected. -/
theorem test_hyps_vector_words :
    localBase c3 + (fast.core[c3].fvecOffs.toNat * 0x100 + 0x20 * 2) % 0x40000 = B + 0x240 ∧ fast.mainRuns = true ∧
    fast.wordFree (B + 0x240) = true ∧ (∀ i < 8, fast.wordCheck (B + 0x240 + 4 * i) = 0) ∧
    (sp fast fun m => { m with bad := [B + 0x25C] }).wordCheck (B + 0x240 + 4 * 7) = 2 := by decide +kernel

theorem test_hyps_vectors : (∃ q ∈ fast.ev.src, q.2.en = true ∧ q.2.cls = true ∧ q.2.core = c3 ∧ q.2.fslot = 2) ∧
    ∀ a, fast.destroyed a = false := by
  refine ⟨by decide +kernel, fun a => ?_⟩
  have h : fast.march.busy = false := by decide +kernel
  generalize fast = s at h
  simp [State.destroyed, h]

def gp (f : Gpio → Gpio) : State := { bare with gpio := f bare.gpio }

/-- PinsFollow: each filter mode, a running filter, private writes of one and of two cores, the registers. -/
theorem test_hyps_gpio :
    bare.power.mainRst = false ∧ bare.gpio.fmode[(4 : Fin 64)] = 0 ∧
    (∀ m ∈ [(1#2), 2, 3], let s := gp fun g => { g with fmode := g.fmode.set 4 m, fcnt := g.fcnt.set 4 2 }
      s.gpio.fmode[(4 : Fin 64)] = m ∧ s.gpio.fcnt[(4 : Fin 64)] ≠ 0 ∧ s.gpio.frun.getLsbD 4 = false ∧ 2 ≤ s.gpio.fcnt[(4 : Fin 64)].toNat) ∧
    (gp fun g => { g with frun := 16 }).gpio.frun.getLsbD (4 : Fin 64).val = true ∧
    (gp fun g => { g with writes := [(5, 0xF0, 0x55), (3, 0x3C, 0xFF)] }).gpio.writes = [(5, 0xF0, 0x55), (3, 0x3C, 0xFF)] ∧
    MayWrite bare sec (.gpMux 1) ∧ MayWrite bare sec (.gpFilt 9) ∧ (bare.pinMask sec).getLsbD 9 = true ∧ MayWrite bare sec (.gpOwn c3 true) ∧
    (let s := bare.modCtx 5 0 fun u => { u with priv := 1 }
     MayWrite s sec (.gpFilt 9) ∧ (s.pinMask sec).getLsbD 9 = false ∧ MayWrite s sec (.gpOwn c3 true) ∧ (s.ctx 5 0).priv ≠ 3) := by decide +kernel

/-! ## Hypotheses: debug, trace, counters, the log, time -/

def level2 : State := pw (dg bare fun d => { d with level := 2 }) fun p => { p with vdbg := true }
def haltedS : State := k3 (level2.modCtx c3 x2 fun u => { u with st := .halt, preHalt := .ready }) fun k => { k with halted := true }

/-- DebugControls: the unlock. -/
theorem test_hyps_unlock :
    (let s := bare
     MayWrite s .debug .dbgUnreq ∧ s.dbg.busy = false ∧ MayWrite s .debug (.dbgResp false) ∧ MayWrite s .debug .dbgLock ∧
     ∀ n, s.memberHalted n = false) ∧
    (dg bare fun d => { d with busy := true }).dbg.busy = true := by decide +kernel

/-- DebugControls: halts, steps and releases. -/
theorem test_hyps_halts :
    (let s := level2
     MayWrite s .debug (.dbgCore c3) ∧ s.dbg.level = 2 ∧ s.power.vdbg = true ∧ s.core[c3].halted = false ∧ s.core[c3].haltReq = none ∧
     s.core[c3].stepCtx.toNat < 8 ∧ MayWrite s .debug .xtmFire ∧ ∀ n, s.memberHalted n = false) ∧
    (let s := k3 level2 fun k => { k with haltReq := some 0 }
     s.core[c3].haltReq = some 0 ∧ s.core[c3].takeable = true ∧ (trapped s).core[c3].takeable = true ∧ s.core[c3].halted = false ∧ s.dbg.xtm[(3 : Fin 18)].firel = 0 ∧
     s.dbg.trEn = false) ∧
    (let s := haltedS
     MayWrite s .debug (.dbgCore c3) ∧ s.core[c3].halted = true ∧ s.core[c3].stepping = false ∧ x2.val < 8 ∧ (s.ctx c3 x2).st = .halt ∧
     (s.ctx c3 x2).preHalt = .ready ∧ MayWrite s .debug .dbgRel ∧ s.dbg.trEn = false) ∧
    (let s := k3 level2 fun k => { k with halted := true, stepping := true, stepRan := true, stepCtx := 2 }
     s.core[c3].stepping = true ∧ s.core[c3].stepRan = true ∧ s.core[c3].stepCtx.toNat = x2.val ∧ (s.ctx c3 x2).st = .ready) := by decide +kernel

/-- DebugControls: a halted core's memory at both ends of the shared scratchpad, and the register view. -/
theorem test_hyps_view :
    (let s := haltedS
     MayWrite s .debug .dbgMctl ∧ (0x363 : Nat) % 16 = c3.val ∧ s.core[c3].halted = true ∧ s.dbg.mBusy = false ∧ (0x363 : Nat) / 16 % 4 = 2 ∧
     (0x363 : Nat) / 64 % 4 = 1 ∧ (0x263 : Nat).testBit 8 = false ∧ (0x363 : Nat).testBit 8 = true ∧
     ∀ a ∈ [0x02000000, 0x0277FFFC], s.destroyed a = false ∧ s.wordFree a = true ∧ s.borrowed a = none ∧ s.spad.check a = 0) ∧
    (let s := dg level2 fun d => { d with vaddr := 0x30080020 }
     MayWrite s .debug .dbgVdata ∧ MayWrite s .ring .dbgVdata ∧ s.dbg.vaddr = 0x30080020 ∧ 1 ≤ s.dbg.level.toNat) := by decide +kernel

def pk (n : Nat) : Packet := { bits := BitVec.ofNat 128 n }
def tr (f : Debug → Debug) : State := pw (dg bare fun d => f { d with fifo := [pk 7, pk 8] }) fun p => { p with vdbg := true }

/-- TraceCountersWatchdogs: packets for each sink, and a SYNC that is due. -/
theorem test_hyps_trace :
    (let s := tr fun d => { d with sink := 1 }
     let d := s.dbg
     d.sink.getLsbD 0 = true ∧ s.power.vdbg = true ∧ d.syncDue = false ∧ d.dropped = 0 ∧ d.fifo = pk 7 :: [pk 8] ∧ (pk 7).byPort = false ∧
     d.sink.getLsbD 1 = false ∧ ∀ q ∈ [pk 8], d.taken q = false) ∧
    (tr fun d => { d with sink := 1, syncDue := true }).dbg.syncDue = true ∧
    (let s := tr fun d => { d with sink := 2, bbase := 0x9DFC, bmark := 5 }
     let d := s.dbg
     let base := d.bbase.toNat * 1024 / (16 * 64) * (16 * 64)
     d.sink = 2 ∧ s.power.vdbg = true ∧ s.mainRuns = true ∧ d.dropped = 0 ∧ d.fifo = pk 7 :: [pk 8] ∧ (pk 7).byBuf = false ∧
     (∀ q ∈ [pk 8], d.taken q = false) ∧ s.wordFree base = true ∧ s.march.slice = none ∧ min d.bsz.toNat 12 = 0 ∧ 0x02000000 ≤ base ∧
     base + 16 * 64 ≤ 0x02780000 ∧ d.bmode = false ∧ s.destroyed base = false ∧ d.bwr ≠ d.bmark) ∧
    (MayWrite bare .debug .trcCtl ∧ bare.dbg.fifo = [] ∧ bare.dbg.dropped = 0) := by decide +kernel

def wd (k : Wdt) : State := k3 { bare with counters := { bare.counters with wdt := bare.counters.wdt.set c3 k } } fun k => { k with last := some 2 }

/-- TraceCountersWatchdogs: a counter that wrapped; a watchdog above its warning, with each of two actions. -/
theorem test_hyps_counters :
    (let s : State := { bare with counters := { bare.counters with cnt := bare.counters.cnt.set 7 { wrapped := true } } }
     let k := s.counters.cnt[(7 : Fin 80)]
     k.wrapped = true ∧ k.trig = false ∧ (s.src (256 + 7)).pend = false ∧ s.power.mainRst = false) ∧
    MayWrite bare sec (.cntLo 7) ∧ MayWrite bare sec .cntGctl ∧ MayWrite bare sec (.wdtKick c3) ∧
    (let s := wd { load := 50, cnt := 17, warn := 4, en := true, act := 0 }
     s.wdtRuns c3 = true ∧ s.counters.wdt[c3].warn ≠ 0 ∧ 2 ^ s.counters.wdt[c3].warn.toNat < s.counters.wdt[c3].cnt.toNat ∧
     s.core[c3].last = some 2 ∧ s.counters.wdt[c3].act = 0) ∧
    (let s := wd { load := 50, cnt := 1, en := true, act := 1 }
     s.wdtRuns c3 = true ∧ s.counters.wdt[c3].act = 1 ∧ s.core[c3].sb = []) := by decide +kernel

def kk : Cause := ⟨4, 5, 7, 0xFF, 0, 0, 0⟩
def writing (c : NvmRow) (f : Night → Night) : State := nt bare fun n => f { n with cur := some c }

/-- LogAndLifeCycle: rows that end; requests; tamper. -/
theorem test_hyps_rows :
    (let s := writing (.param 9 5) id
     let n := s.night
     AgentIdle s ∧ n.wantRow0 = none ∧ n.wantLc = none ∧ n.staged = [] ∧ n.wantParam = [] ∧ n.clr = none ∧ n.cur = some (.param 9 5)) ∧
    (let s := writing (.record 6 4 5) fun n => { n with staged := [kk] }
     let n := s.night
     n.cur = some (.record 6 4 5) ∧ n.staged = [kk] ∧ kk.seq = 4 ∧ s.power.mainRst = false) ∧
    (let s := writing (.lc 2) fun n => { n with lcState := 2, move := some ⟨3, 0xFF, 1, 2⟩ }
     let n := s.night
     n.cur = some (.lc (2 : Fin 3)) ∧ n.move = some ⟨3, 0xFF, 1, 2⟩ ∧ n.lcState = 2 ∧ n.staged = []) := by decide +kernel

theorem test_hyps_log :
    (∀ l ∈ [(0#2), 1, 2], let s := writing (.clear 3) fun n => { n with lcState := l }
      s.power.pornAon = true ∧ MayWrite s sec .nlCtl ∧ s.night.clr = none ∧ s.night.cur.isSome = true ∧ MayWrite s sec .nlSwreq ∧ s.night.staged.length < 2 ∧
      MayWrite s sec .lcyReq ∧ MayWrite s sec .tmpForce ∧ s.night.act = false ∧ s.power.mainRst = false ∧ s.night.lcState = l) ∧
    (let s := writing (.clear 3) id
     (1#8).toNat = s.night.lcState.toNat + 1 ∧ s.night.move = none ∧ (s.ctx 5 0).priv = 3 ∧ s.night.lcState.toNat < 2 ∧ s.night.lcState ≠ 1) ∧
    (∀ b : Bool, (writing (.clear 3) fun n => { n with pinen := b }).night.pinen = b) := by decide +kernel

/-- StepRunsTheFront: an empty queue with the power off, with the events stopped and with them running. -/
theorem test_hyps_idle :
    (State.reset.pending = [] ∧ State.reset.power.pornAon = false) ∧
    (let s := vesperOnly
     s.pending = [] ∧ s.power.pornAon = true ∧ AgentIdle s ∧ s.fabric.held = [] ∧ s.power.fastClk = true ∧ s.power.almEn = false ∧
     (s.power.vt + 1).toNat % 1024 ≠ 0 ∧ s.eventsRun = false) ∧
    (let s : State := { bare with ev := { bare.ev with timer := bare.ev.timer.set 4 { en := true, cnt := 7 } } }
     s.eventsRun = true ∧ AgentIdle s ∧ s.ev.timer[(4 : Fin 32)].clk = 0 ∧ s.ev.timer[(4 : Fin 32)].cnt ≠ 0) := by decide +kernel

/-- StepsKeepMemoryCanonical: a memory with a byte listed, and a step from it. -/
theorem test_hyps_canonical :
    let s := { on [5, 0x500] [] with spad := (bare.spad.setByte 0x02000000 7), pending := [.st c3 x2] }
    s.spad.wf = true ∧ (match step s with | .next t => t.spad.byte (B + 0x500) == 5 && t.spad.byte 0x02000000 == 7 | _ => false) = true := by
  decide +kernel

theorem toBytes_ofBytes (a b c d : Byte) : toBytes 4 (ofBytes 32 [a, b, c, d] : Word) = [a, b, c, d] := by
  simp only [toBytes, ofBytes, List.range_succ, List.range_zero, List.nil_append, List.cons_append, List.map_cons, List.map_nil]
  congr 1
  · ext i hi; interval_cases i <;> simp [bits]
  congr 1
  · ext i hi; interval_cases i <;> simp [bits]
  congr 1
  · ext i hi; interval_cases i <;> simp [bits]
  congr 1
  · ext i hi; interval_cases i <;> simp [bits]

theorem sha256_head (m : List Byte) : ∃ a b c d e f g h, (sha256 m).take 8 = [a, b, c, d] ++ [e, f, g, h] := by
  simp only [sha256]
  generalize List.foldl _ _ _ = s
  exact ⟨_, _, _, _, _, _, _, _, rfl⟩

/-- The check of an unlock at `LOCKED`, asked for the trace level. -/
def unlocking (lo hi : Word) : State :=
  nt (dg bare fun d => { d with busy := true, chalOut := true, reqLevel := 1, respLo := lo, respHi := hi }) fun n => { n with lcState := 2 }

/-- DebugControls: some response is the one that the challenge asks for. -/
theorem test_hyps_unlock_good : ∃ lo hi, let s := unlocking lo hi
    let d := s.dbg
    d.busy = true ∧ d.barred = false ∧ d.chalOut = true ∧ canGrant s.night.lcState d.reqLevel = true ∧
      toBytes 4 d.respLo ++ toBytes 4 d.respHi =
        (hmac256 (toBytes 8 (s.night.intCode.getD 0)) (toBytes 8 d.chal ++ toBytes 4 Config.serial ++ [d.reqLevel.setWidth 8])).take 8 := by
  obtain ⟨a, b, c, d, e, f, g, h, q⟩ := sha256_head
    (let key := toBytes 8 ((nt bare fun n => { n with lcState := 2 }).night.intCode.getD 0)
     ((List.range 64).map fun i => key.getD i 0 ^^^ 0x5C) ++ sha256 (((List.range 64).map fun i => key.getD i 0 ^^^ 0x36) ++
       (toBytes 8 bare.dbg.chal ++ toBytes 4 Config.serial ++ [1])))
  refine ⟨ofBytes 32 [a, b, c, d], ofBytes 32 [e, f, g, h], rfl, rfl, rfl, rfl, ?_⟩
  refine Eq.trans ?_ q.symm
  exact congrArg₂ _ (toBytes_ofBytes ..) (toBytes_ofBytes ..)

/-! ## Ill-formed terms, one for each check of WellFormed -/

theorem test_ill_formed :
    [Instr.bz8 3 2 false 0x100, .bnz8 3 2 false 0x100, .f16Instruction 3 2 7 0 0 1, .f16Instruction 3 2 7 1 1 1, .f16Instruction 3 2 7 0x100 2 1,
     .ucodeRamRewrite 3 0xBFF, .fetchInvalidate 3 0 0, .thrCtlStart sec 3 2 2, .thrCtlStop sec 3 2 1, .thrCtlResume sec 3 2 0,
     .thrCtlReset sec 3 2 4, .thrCtlCntd sec 3 2 8, .pipeCtlBtbInv sec 3 3, .rcFieldRead sec 0x30003621, .registerWrite sec 0x3F000000 0,
     .registerWrite sec 0x2FFFFFFC 0, .nmsgSend sec 0xFF, .marchStart sec 2, .marchStop sec 1, .marchElementEnd [(2, 0, 0)],
     .dbgCoreStep sec 3 3, .dbgCoreStep sec 3 0, .dbgMctlGo sec 0x3FF, .cntGctlClr sec 1, .unassignedOpcode 3 2 false 0x48,
     .unassignedOpcode 3 2 false 0xFE, .unassignedOpcode 3 2 false 0xFF, .unassignedOpcode 3 2 true 0x00].all
      (fun i => !i.wellFormed) = true := by decide +kernel

theorem test_well_formed :
    [Instr.bz8 3 2 false 0xFF, .bz8 3 2 true 0x100, .f16Instruction 3 2 7 0 1 1, .f16Instruction 3 2 7 0xFFFF 3 1, .ucodeRamRewrite 3 0xC00,
     .fetchInvalidate 3 0 1, .thrCtlStart sec 3 2 0x121, .pipeCtlBtbInv sec 3 4, .rcFieldRead sec 0x30003620, .registerWrite sec 0x30000000 0,
     .registerWrite sec 0x3EFFFFFC 0, .nmsgSend sec 0x100, .marchStart sec 1, .marchStop sec 2, .marchElementEnd [(4, 0, 0)], .dbgCoreStep sec 3 2,
     .dbgMctlGo sec 0x400, .cntGctlClr sec 2, .unassignedOpcode 3 2 false 0x25, .unassignedOpcode 3 2 true 0x07].all Instr.wellFormed = true := by
  decide +kernel

/-! ## One step each -/

/-- The cell on top of context 2 of core 3, and THR_PC, after a command. -/
def top (cells : List Word) (i : Instr) : Word × Word := let u := (out (on cells []) i).ctx c3 x2; (u.cell 0, u.pc)

theorem test_literals : top [] (.lit8 3 2 0x80) = (0xFFFFFF80, 0x10000102) ∧ top [] (.lit16U 3 2 0x8000) = (0x8000, 0x10000103) ∧
    top [] (.litM1 3 2) = (0xFFFFFFFF, 0x10000101) := by decide +kernel

theorem test_add_wraps : top [0xFFFFFFFF, 2] (.add 3 2) = (1, 0x10000101) := by decide +kernel
theorem test_sub_order : top [5, 7] (.sub 3 2) = (0xFFFFFFFE, 0x10000101) := by decide +kernel
theorem test_abs_least : (top [0x80000000] (.abs 3 2)).1 = 0x80000000 := by decide +kernel
theorem test_shift_counts : (top [1, 33] (.shl 3 2)).1 = 2 ∧ (top [0x80000000, 31] (.sar 3 2)).1 = 0xFFFFFFFF := by decide +kernel
theorem test_addsb_saturates : (top [0xFF01FF80, 0x0102017F] (.addsb 3 2)).1 = 0xFF03FFFF := by decide +kernel
theorem test_subsb_saturates : (top [0x10203040, 0x11203000] (.subsb 3 2)).1 = 0x00000040 := by decide +kernel
theorem test_lt_signed : (top [0xFFFFFFFF, 0] (.lt 3 2)).1 = 0xFFFFFFFF ∧ (top [0xFFFFFFFF, 0] (.ltu 3 2)).1 = 0 := by decide +kernel
theorem test_rot : (List.range 3).map ((out (on [1, 2, 3] []) (.rot 3 2)).ctx c3 x2).cell = [1, 3, 2] := by decide +kernel
theorem test_underflow_faults : ((out (on [] []) (.drop 3 2)).ctx c3 x2).st = .fault := by decide +kernel

theorem test_divide : let s := out (out (on [0xFFFFFFF9, 2] []) (.div 3 2)) (.longOpRetire 3 2 0)
    (s.ctx c3 x2).cell 0 = 0xFFFFFFFD ∧ (s.ctx c3 x2).longs = [] := by decide +kernel

theorem test_divide_by_zero : let s := out (out (on [7, 0] []) (.modu 3 2)) (.longOpRetire 3 2 0)
    (s.ctx c3 x2).cell 0 = 0 ∧ (s.ctx c3 x2).impKnown = [⟨0x0F, 0x10000100⟩] := by decide +kernel

theorem test_store_set_alias : let s := out (sp (on [0x0F, 0x08000500] []) fun m => m.store (B + 0x500) 0xF0 0xF) (.st 3 2)
    s.spad.word (B + 0x500) = 0xFF := by decide +kernel

theorem test_load_misaligned : let u := (out (on [0x502] []) (.ld 3 2)).ctx c3 x2
    u.st = .fault ∧ u.faddr = 0x502 ∧ u.pc = 0x10000100 := by decide +kernel

theorem test_branch_back : (top [] (.br8 3 2 0xFE)).2 = 0x10000100 ∧ (top [0] (.bz8 3 2 false 0x80)).2 = 0x10000082 := by decide +kernel
theorem test_bzf_skips : (top [0] (.bzfN 3 2 15)).2 = 0x10000111 ∧ (top [1] (.bzfN 3 2 15)).2 = 0x10000101 := by decide +kernel

theorem test_call_return : ((out (out (on [] []) (.call32 3 2 0x10000200)) (.ret 3 2)).ctx c3 x2).st = .wait ∧
    ((out (on [] []) (.call32 3 2 0x10000200)).ctx c3 x2).returns = [0x10000105] := by decide +kernel

theorem test_sys_enters : let u := (out (on [] []) (.sys 3 2 0xF1)).ctx c3 x2
    u.pc = 0x10000210 ∧ u.priv = 3 ∧ u.returns = [0x10000102, 1] := by decide +kernel

theorem test_coreid : (top [] (.coreid 3 2)).1 = 0x532 := by decide +kernel

theorem test_accept_and_walk : let s := out walking (.walkEnd 1)
    (s.transit.tb[(1 : TbId)].store.map (·.idx)) = [0] ∧ (s.transit.queue (qkey 1 9 1)).items = [1] := by decide +kernel

theorem test_sort : let s := out (tbn fun b => { b with sorting := true, store := [item 0 5, item 1 2, item 2 5] }) (.sortEnd 1)
    s.transit.tb[(1 : TbId)].store.map (·.idx) = [1, 0, 2] := by decide +kernel

theorem test_bad_parity : let s := out (bare.modPort 2 fun p => { p with pen := true }) (.beamPositionSample 2 5 3 true false false)
    s.ports.port[(2 : Fin 8)].parErr = 1 ∧ s.transit.tb[(2 : TbId)].slot = 0 := by decide +kernel

theorem test_assign : let s := out ring (.assign { hdr0 with node := 0x7F, len := 2 } [9, 1])
    s.ring.node = 9 ∧ s.ring.port[(0 : PortId)].fwdOut.map (·.payload) = some [10, 1] := by decide +kernel

theorem test_ring_write : let s := out ring (.write { hdr0 with index := 0x4020, sub := 1, len := 4 } [1, 2, 3, 4])
    s.dict.injData = 0x04030201 ∧ s.ring.expSeq = 1 := by decide +kernel

theorem test_int_unlock : (out coded (.intUnlock code0)).dict.intUnlocked = true ∧ (out coded (.intUnlock 1)).dict.intFails = 1 := by decide +kernel

theorem test_power_up : let s := out (out (pw (out State.reset .pornAonRelease) fun p => { p with fastClk := true, mainEn := true }) .mainResetRelease) .pllLock
    s.power.state = .run ∧ s.march.startup = true ∧ s.march.banks.length = 96 ∧ s.power.heldDone = true := by decide +kernel

theorem test_wipe : let s := out (sp (pw bare fun p => { p with wipePend := true }) fun m =>
      { (m.setByte 0x02780000 5).setByte 0x0277FFFF 7 with wiping := true }) .wipeDone
    s.spad.byte 0x02780000 = 0 ∧ s.spad.byte 0x0277FFFF = 7 ∧ s.power.wipePend = false := by decide +kernel

theorem test_march_slice : let s := out (testing 7) .marchSliceEnd
    s.spad.word (sliceWord 65 1023 63) = 63 ∧ s.spad.word (sliceWord 65 1022 63) = 0 := by decide +kernel

theorem test_line_fill : let s := out filling (.lineFillArrival 3 1)
    (s.ctx c3 x2).served = some (.line 0x10000100 (.ok 77)) ∧ s.core[c3].prevFill = some flashLine := by decide +kernel

theorem test_fast_entry : let f := (out fast (.fastEntry 3)).ctx c3 fCtx
    f.pc = 0x240 ∧ f.priv = 1 ∧ f.returns = [0x240, 0x780209] := by decide +kernel

theorem test_record : let s := out recorded .eventRecordWrite
    valueAt s (recorded.core[c3].recordAddr c3) 4 = 0x3078 ∧ s.core[c3].evqWr = 1 ∧ (s.src 120).pend = false := by decide +kernel

theorem test_pin_writes : (out (gp fun g => { g with writes := [(5, 0xF0, 0x55), (3, 0x3C, 0xFF)] }) .pinWriteApply).gpio.out = 0x5C := by
  decide +kernel

theorem test_halt : let s := out (k3 level2 fun k => { k with haltReq := some 0 }) (.haltArrival 3)
    (s.ctx c3 x2).st = .halt ∧ (s.ctx c3 x2).preHalt = .ready ∧ s.core[c3].halted = true := by decide +kernel

theorem test_kick : let s := wd { load := 50, cnt := 17, en := true }
    (out s (.wdtKick sec 3 0xC35A)).counters.wdt[c3].cnt = 50 ∧ (out s (.wdtKick sec 3 0xC35B)).counters.wdt[c3].kickErr = true := by decide +kernel

theorem test_tamper : let s := out (writing (.clear 3) id) .tamperEvent
    s.night.event = true ∧ s.power.wipePend = true ∧ s.night.staged.map (·.code) = [3] := by decide +kernel

theorem test_step_takes_the_front : (match step { bare with pending := [.litM1 3 2, .nop 3 2] } with
    | .next t => t.pending == [.nop 3 2] && (t.ctx c3 x2).depth == 1
    | _ => false) = true := by decide +kernel

end Sys2Proof.Tests
end

section
/-! SUPPORT. What raising an event source and changing its input leave unchanged (R325, R326, R329, R340). -/

namespace Sys2Proof.Machine

open Sys2Proof

/-! ## The list of sources -/

theorem src_setSrc (s : State) (n m : Nat) (v : Source) : (s.setSrc n v).src m = if n = m then v else s.src m := by
  simp only [State.src, State.setSrc]
  by_cases hv : v = {}
  · by_cases hn : n = m
    · simp only [hv, if_true, if_pos hn, alGet_alErase, Option.getD_none]
    · simp only [if_pos hv, if_neg hn, alGet_alErase]
  · by_cases hn : n = m
    · simp only [if_neg hv, if_pos hn, alGet_alSet, Option.getD_some]
    · simp only [if_neg hv, if_neg hn, alGet_alSet]

@[simp] theorem src_setSrc_self (s : State) (n : Nat) (v : Source) : (s.setSrc n v).src n = v := by
  rw [src_setSrc, if_pos rfl]

theorem src_congr {s t : State} (h : t.ev = s.ev) (n : Nat) : t.src n = s.src n := by simp only [State.src, h]

/-! ## Only sources -/

theorem SourcesOnly.refl (s : State) (l : List Nat) : SourcesOnly s s l := ⟨fun _ _ => rfl, fun _ => rfl, rfl⟩

theorem SourcesOnly.trans {s t u : State} {l : List Nat} (h1 : SourcesOnly s t l) (h2 : SourcesOnly t u l) : SourcesOnly s u l := by
  obtain ⟨src1, core1, rest1⟩ := h1
  obtain ⟨src2, core2, rest2⟩ := h2
  refine ⟨fun m hm => (src2 m hm).trans (src1 m hm), fun d => ?_, ?_⟩
  · rw [core2 d, core1 d]
  · rw [rest2, rest1]

theorem SourcesOnly.ctx {s t : State} {l : List Nat} (h : SourcesOnly s t l) (c : CoreId) (x : CtxId) : t.ctx c x = s.ctx c x := by
  obtain ⟨-, core, -⟩ := h
  simp only [State.ctx]
  rw [core c]

theorem sourcesOnly_setSrc (s : State) (n : Nat) (v : Source) : SourcesOnly s (s.setSrc n v) [n] := by
  refine ⟨fun m hm => ?_, fun _ => rfl, rfl⟩
  rw [src_setSrc, if_neg fun q => hm (by simp [q])]

theorem sourcesOnly_countB (s : State) (e m : Nat) (l : List Nat) : SourcesOnly s (s.countB e m) l :=
  ⟨fun n _ => src_congr (State.countB_ev ..) n, fun d => by rw [State.countB_core], by simp only [State.countB]⟩

/-- A core's marks of a raise: its overflow flag and its wake from DOZE (R339, R347). -/
theorem sourcesOnly_modCore (s : State) (c : CoreId) {f : Core → Core} (l : List Nat)
    (h : ∀ k, f k = { k with evOvf := (f k).evOvf, dozeWake := (f k).dozeWake }) : SourcesOnly s (s.modCore c f) l := by
  refine ⟨fun _ _ => rfl, fun d => ?_, rfl⟩
  by_cases hd : d = c
  · subst hd
    simp only [Fin.getElem_fin, State.modCore_self]
    exact h _
  · simp only [Fin.getElem_fin, State.modCore_ne _ _ _ _ hd]

theorem sourcesOnly_wakeFor (s : State) (c : CoreId) (q : Bool) (l : List Nat) : SourcesOnly s (s.wakeFor c q) l := by
  have nap : SourcesOnly s (if s.power.state = .nap then { s with power := { s.power with napWake := true } } else s) l := by
    split
    · exact ⟨fun _ _ => rfl, fun _ => rfl, rfl⟩
    · exact .refl s l
  have doze : ∀ u : State, SourcesOnly u
      (if q && u.core[c].dozed then u.modCore c fun k => { k with dozeWake := true } else u) l := by
    intro u
    split
    · exact sourcesOnly_modCore _ c l fun _ => rfl
    · exact .refl u l
  exact nap.trans (doze _)

theorem sourcesOnly_raiseAt (s : State) (n : Nat) (p : Word) (ts : Bool × Word × BitVec 16) :
    SourcesOnly s (s.raiseAt n p ts) [n] := by
  unfold State.raiseAt
  dsimp only
  have wake := sourcesOnly_wakeFor s (s.src n).core (s.src n).cls [n]
  split
  · exact .refl s [n]
  · split
    · have counted := wake.trans (sourcesOnly_countB _ 0x4D 1 [n])
      split
      · exact (counted.trans (sourcesOnly_setSrc _ n _)).trans (sourcesOnly_modCore _ _ [n] fun _ => rfl)
      · exact counted.trans (sourcesOnly_setSrc _ n _)
    · exact wake.trans (sourcesOnly_setSrc _ n _)

/-- A raise, in a block whose main domain is not in reset. -/
theorem sourcesOnly_raise {s : State} (n : Fin 512) (p : Word) (hm : s.power.mainRst = false) :
    SourcesOnly s (s.raise n p) [n.val] := by
  have hr : s.raise n p = s.raiseNow n.val p := by simp only [State.raise, hm, Bool.false_eq_true, if_false]
  rw [hr]
  exact sourcesOnly_raiseAt s n.val p _

theorem src_modCore (s : State) (c : CoreId) (f : Core → Core) (n : Nat) : (s.modCore c f).src n = s.src n := rfl

/-- An enabled source is pending after its raise, with the payload given (R326, R329). -/
theorem raiseAt_pending (s : State) (n : Nat) (p : Word) (ts : Bool × Word × BitVec 16) (he : (s.src n).en = true)
    (hk : srcKind n ≠ .reserved) : ((s.raiseAt n p ts).src n).pend = true ∧ ((s.raiseAt n p ts).src n).payload = p := by
  have hg : (!(s.src n).en || srcKind n == .reserved) = false := by simp [he, hk]
  unfold State.raiseAt
  simp only [hg, Bool.false_eq_true, if_false]
  split
  · split <;> simp only [src_modCore, src_setSrc_self, and_self]
  · simp only [src_setSrc_self, and_self]

/-- A raise leaves the input as it is. -/
theorem raiseAt_level (s : State) (n : Nat) (p : Word) (ts : Bool × Word × BitVec 16) :
    ((s.raiseAt n p ts).src n).level = (s.src n).level := by
  unfold State.raiseAt
  dsimp only
  split
  · rfl
  · split
    · split <;> simp only [src_modCore, src_setSrc_self]
    · simp only [src_setSrc_self]

/-- A raise by a unit of the main domain (R325, R326). -/
theorem raise_raised {s : State} (n : Fin 512) (p : Word) (hm : s.power.mainRst = false) (hk : srcKind n.val ≠ .reserved) :
    Raised s (s.raise n p) n.val p := by
  obtain ⟨src, core, rest⟩ := sourcesOnly_raise n p hm
  refine ⟨fun he => ?_, fun m hne => src m (by simpa using hne), core, rest⟩
  simp only [State.raise, hm, Bool.false_eq_true, if_false]
  exact raiseAt_pending s n.val p _ he hk

end Sys2Proof.Machine
end

section
/-! SUPPORT. What a precise fault of one context leaves of everything else (R32, R83, R124, R325). -/

namespace Sys2Proof.Machine

open Sys2Proof

/-! ## The decode register (R124) -/

theorem seat_fields (k : Core) : k.seat = { k with holder := k.seat.holder, qcount := k.seat.qcount, qload := k.seat.qload } := by
  unfold Core.seat
  split
  · rfl
  · split <;> rfl

theorem giveUp_fields (k : Core) (x : CtxId) :
    k.giveUp x = { k with holder := (k.giveUp x).holder, search := (k.giveUp x).search } := by
  unfold Core.giveUp
  split
  · split <;> rfl
  · rfl

theorem setSt_fields (k : Core) (x : CtxId) (st : CtxState) :
    k.setSt x st = { k.modCtx x fun t => { t with st := st } with
      holder := (k.setSt x st).holder, search := (k.setSt x st).search, qcount := (k.setSt x st).qcount,
      qload := (k.setSt x st).qload } := by
  unfold Core.setSt
  dsimp only
  rw [seat_fields]
  split
  · rfl
  · rw [giveUp_fields]

@[simp] theorem core_setSt_ctx (k : Core) (x : CtxId) (st : CtxState) :
    (k.setSt x st).ctx = (k.modCtx x fun t => { t with st := st }).ctx := by rw [setSt_fields]

theorem seating_rest (s : State) (c : CoreId) (f : Core → Core) : RestKept s (s.seating c f) := by
  unfold State.seating
  dsimp only
  split
  · exact (modCore_rest ..).trans (countN_rest ..)
  · exact modCore_rest ..

@[simp] theorem seating_core (s : State) (c : CoreId) (f : Core → Core) : (s.seating c f).core = (s.modCore c f).core := by
  unfold State.seating
  dsimp only
  split
  · exact State.countC_core ..
  · rfl

/-! ## What a fault reaches -/

/-- Only context `x` of core `c` differs, with what its core notes of an issue and of the decode register, the event counters, and the
fabric reads that wait. -/
def FaultReach (s t : State) (c : CoreId) (x : CtxId) : Prop :=
  (∀ d, d ≠ c → t.core[d] = s.core[d]) ∧ (∀ y, y ≠ x → t.ctx c y = s.ctx c y) ∧
  t.core[c] = { s.core[c] with
    ctx := t.core[c].ctx, last := t.core[c].last, qcount := t.core[c].qcount, holder := t.core[c].holder,
    search := t.core[c].search, qload := t.core[c].qload, stepRan := t.core[c].stepRan, u := t.core[c].u,
    ucnt := t.core[c].ucnt, uFree := t.core[c].uFree } ∧
  t = { s with core := t.core, counters := { s.counters with cnt := t.counters.cnt },
               fabric := { s.fabric with queue := t.fabric.queue, shown := t.fabric.shown, out := t.fabric.out } }

theorem FaultReach.trans {s t u : State} {c : CoreId} {x : CtxId} (h1 : FaultReach s t c x) (h2 : FaultReach t u c x) :
    FaultReach s u c x := by
  obtain ⟨cores1, ctxs1, core1, rest1⟩ := h1
  obtain ⟨cores2, ctxs2, core2, rest2⟩ := h2
  refine ⟨fun d hd => (cores2 d hd).trans (cores1 d hd), fun y hy => (ctxs2 y hy).trans (ctxs1 y hy), ?_, ?_⟩
  · rw [core2, core1]
  · rw [rest2, rest1]

/-- A change of the cores alone, at core `c`. -/
theorem faultReach_of_core {s t : State} {c : CoreId} {x : CtxId} {f : Core → Core} (hc : t.core = (s.modCore c f).core)
    (hr : RestKept s t) (hx : ∀ k : Core, ∀ y, y ≠ x → (f k).ctx[y.val] = k.ctx[y.val])
    (hf : ∀ k : Core, f k = { k with ctx := (f k).ctx, last := (f k).last, qcount := (f k).qcount, holder := (f k).holder,
                                     search := (f k).search, qload := (f k).qload, stepRan := (f k).stepRan, u := (f k).u,
                                     ucnt := (f k).ucnt, uFree := (f k).uFree }) : FaultReach s t c x := by
  refine ⟨fun d hd => ?_, fun y hy => ?_, ?_, ?_⟩
  · rw [hc]; exact State.modCore_ne s c d f hd
  · simp only [State.ctx, hc, Fin.getElem_fin, State.modCore_self]
    exact hx _ y hy
  · simp only [hc, Fin.getElem_fin, State.modCore_self]
    exact hf _
  · rw [hr]

theorem faultReach_modCtx (s : State) (c : CoreId) (x : CtxId) (f : Ctx → Ctx) : FaultReach s (s.modCtx c x f) c x :=
  faultReach_of_core (f := fun k => k.modCtx x f) rfl rfl (fun k _ hy => Core.modCtx_ne k x _ f hy) fun _ => rfl

theorem faultReach_setSt (s : State) (c : CoreId) (x : CtxId) (st : CtxState) : FaultReach s (s.setSt c x st) c x := by
  refine faultReach_of_core (seating_core ..) (seating_rest ..) (fun k y hy => ?_) fun k => ?_
  · rw [core_setSt_ctx, Core.modCtx_ne _ _ _ _ hy]
  · rw [setSt_fields]; rfl

theorem faultReach_ended (s : State) (c : CoreId) (x : CtxId) (p : BitVec 2) (vendor : Bool) :
    FaultReach s (s.modCore c fun k => k.ended x p vendor) c x := by
  refine faultReach_of_core rfl rfl (fun k y _ => ?_) fun k => ?_
  · rw [core_ended_ctx]
  · rw [core_ended_fields]

theorem faultReach_countN (s : State) (c : CoreId) (x : CtxId) (q : Option CtxId) (e m : Nat) : FaultReach s (s.countN c q e m) c x := by
  refine faultReach_of_core (f := id) ?_ (countN_rest ..) (fun _ _ _ => rfl) fun _ => rfl
  rw [State.countN_core]
  exact (Vector.set_getElem_self c.isLt).symm

theorem faultReach_dropReads (s : State) (c : CoreId) (x : CtxId) (loads ldfs : Bool) : FaultReach s (s.dropReads c x loads ldfs) c x := by
  unfold State.dropReads
  dsimp only
  split
  · exact (faultReach_modCtx s c x fun t => { t with ahead := none }).trans ⟨fun _ _ => rfl, fun _ _ => rfl, rfl, rfl⟩
  · exact ⟨fun _ _ => rfl, fun _ _ => rfl, rfl, rfl⟩

/-! ## The context itself -/

theorem ctx_modCore (s : State) (c : CoreId) (f : Core → Core) (x : CtxId) : (s.modCore c f).ctx c x = (f s.core[c]).ctx[x.val] := by
  simp only [State.ctx, Fin.getElem_fin, State.modCore_self]

theorem ctx_ended (s : State) (c : CoreId) (x : CtxId) (p : BitVec 2) (vendor : Bool) (y : CtxId) :
    (s.modCore c fun k => k.ended x p vendor).ctx c y = s.ctx c y := by
  rw [ctx_modCore, core_ended_ctx]; rfl

theorem ctx_setSt (s : State) (c : CoreId) (x : CtxId) (st : CtxState) : (s.setSt c x st).ctx c x = { s.ctx c x with st := st } := by
  rw [State.setSt, State.ctx, seating_core]
  change (s.modCore c fun k => k.setSt x st).ctx c x = _
  rw [ctx_modCore, core_setSt_ctx, Core.modCtx_self]; rfl

theorem ctx_dropReads (s : State) (c : CoreId) (x : CtxId) (ldfs : Bool) :
    (s.dropReads c x true ldfs).ctx c x = { s.ctx c x with ahead := none } :=
  State.ctx_modCtx s c x fun t => { t with ahead := none }

@[simp] theorem ctx_countN (s : State) (c d : CoreId) (q : Option CtxId) (e m : Nat) (x : CtxId) :
    (s.countN c q e m).ctx d x = s.ctx d x := by simp [State.ctx]

/-- What an instruction that did nothing leaves of its context. -/
theorem undo_self (s : State) (c : CoreId) (x : CtxId) : s.undo s c x = s.modCtx c x fun t => { t with seen := 0 } := by
  simp only [State.undo, State.modCtx, State.modCore, State.ctx, Core.modCtx, Fin.getElem_fin, Vector.getElem_set_self, Vector.set_set]

/-! ## Faults -/

/-- The state in which a context's fault raises its source: the context is in FAULT, and nothing else has changed but what a fault
reaches. -/
theorem takeFault_reach {s : State} {c : CoreId} {x : CtxId} (code : Byte) (a : Word) (imprec : Bool) (h : (s.ctx c x).st ≠ .halt) :
    ∃ s1, s.takeFault c x code a imprec = s1.raise (faultSrc c) (faultPayload x code false imprec) ∧ FaultReach s s1 c x ∧
      s1.ctx c x = { s.ctx c x with st := .fault, fcode := code, faddr := a, imprec := imprec, impKnown := [], waitFor := none,
                                    served := none, redo := false, ahead := none } := by
  let s2 := (s.dropReads c x true false).modCtx c x fun t =>
    { t with fcode := code, faddr := a, imprec := imprec, waitFor := none, served := none, redo := false }
  have own2 : s2.ctx c x = { s.ctx c x with ahead := none, fcode := code, faddr := a, imprec := imprec, waitFor := none, served := none,
                                            redo := false } := by
    rw [State.ctx_modCtx, ctx_dropReads]
  have notHalt : ¬(s2.ctx c x).st = .halt := by rw [own2]; exact h
  refine ⟨(s2.setSt c x .fault).unrecorded c x, ?_, ?_, ?_⟩
  · exact congrArg (fun s3 : State => (s3.unrecorded c x).raise (faultSrc c) (faultPayload x code false imprec)) (if_neg notHalt)
  · exact ((((faultReach_dropReads ..).trans (faultReach_modCtx ..)).trans (faultReach_setSt s2 c x _)).trans
      (faultReach_modCtx ..)).trans (faultReach_countN ..)
  · rw [State.unrecorded, ctx_countN, State.ctx_modCtx, ctx_setSt, own2]

/-- A core that runs is neither in reset nor in NAP (R421). -/
theorem coreRuns_power {s : State} {c : CoreId} (h : s.coreRuns c = true) : s.power.mainRst = false ∧ s.power.state = .run := by
  simp only [State.coreRuns, State.mainRuns, Bool.and_eq_true, Bool.not_eq_true', beq_iff_eq] at h
  tauto

/-- Outside NAP a raise leaves the power unit as it is (R429). -/
theorem raise_power {s : State} (n : Fin 512) (p : Word) (hm : s.power.mainRst = false) (hn : s.power.state ≠ .nap) :
    (s.raise n p).power = s.power := by
  have wake : ∀ (c : CoreId) (q : Bool), (s.wakeFor c q).power = s.power := by
    intro c q
    simp only [State.wakeFor, hn, if_false]
    split <;> rfl
  have set : ∀ (t : State) (v : Source), (t.setSrc n.val v).power = t.power := fun _ _ => rfl
  simp only [State.raise, hm, Bool.false_eq_true, if_false, State.raiseNow, State.raiseAt, apply_ite State.power, State.modCore_power, set,
    State.countB_power, wake, ite_self]

/-- The fields of the payload do not meet. -/
theorem faultPayload_eq (x : CtxId) (code : Byte) (imprec : Bool) :
    faultPayload x code false imprec = BitVec.ofNat 32 (x.val + 256 * code.toNat + if imprec then 0x20000 else 0) := by
  have hc := code.isLt
  have low : x.val ||| code.toNat <<< 8 = x.val + 256 * code.toNat := by
    rw [Nat.or_comm, ← Nat.shiftLeft_add_eq_or_of_lt (by omega), Nat.shiftLeft_eq]; omega
  have high : (x.val + 256 * code.toNat) ||| 0x20000 = x.val + 256 * code.toNat + 0x20000 := by
    rw [Nat.or_comm, show 0x20000 = 1 <<< 17 from rfl, ← Nat.shiftLeft_add_eq_or_of_lt (by omega), Nat.shiftLeft_eq]; omega
  have h1 : x.val % 4294967296 = x.val := Nat.mod_eq_of_lt (by omega)
  have h2 : code.toNat % 4294967296 = code.toNat := Nat.mod_eq_of_lt (by omega)
  have h3 : code.toNat <<< 8 % 4294967296 = code.toNat <<< 8 := Nat.mod_eq_of_lt (by rw [Nat.shiftLeft_eq]; omega)
  have h4 : x.val % 16 = x.val := Nat.mod_eq_of_lt (by omega)
  apply BitVec.eq_of_toNat_eq
  cases imprec with
  | false =>
    simp [faultPayload, fld, flag, h1, h2, h3, h4, low]
    omega
  | true =>
    simp [faultPayload, fld, flag, h1, h2, h3, h4, low, high]
    omega

/-- A precise fault of a context that stands inside no routine, in a block that runs. -/
theorem tookFault_of {s s1 : State} {c : CoreId} {x : CtxId} {code : Byte} {a : Word} {imprec : Bool}
    (hm : s.power.mainRst = false) (hn : s.power.state ≠ .nap) (hr : FaultReach s s1 c x)
    (hx : s1.ctx c x = { s.ctx c x with
      st := .fault, fcode := code, faddr := a, imprec := imprec, impKnown := [], waitFor := none, served := none, redo := false,
      ahead := none, moved := if imprec then (s.ctx c x).moved else none, seen := if imprec then (s.ctx c x).seen else 0,
      image := if imprec then (s.ctx c x).image else none }) :
    TookFault s (s1.raise (faultSrc c) (faultPayload x code false imprec)) c x code a imprec := by
  obtain ⟨cores, ctxs, core, rest⟩ := hr
  have power1 : s1.power = s.power := by rw [rest]
  have src1 : ∀ n, s1.src n = s.src n := src_congr (by rw [rest])
  have hm1 : s1.power.mainRst = false := by rw [power1, hm]
  have kind : srcKind (faultSrc c).val ≠ .reserved := by
    simp [faultSrc, srcKind, show 64 + c.val < 176 by omega]
  have power : (s1.raise (faultSrc c) (faultPayload x code false imprec)).power = s.power := by
    rw [raise_power _ _ hm1 (by rw [power1]; exact hn), power1]
  obtain ⟨pending, srcs, cores', rest'⟩ := raise_raised (faultSrc c) (faultPayload x code false imprec) hm1 kind
  have ctxs' := (sourcesOnly_raise (faultSrc c) (faultPayload x code false imprec) hm1).ctx
  generalize s1.raise (faultSrc c) (faultPayload x code false imprec) = t at *
  refine ⟨(ctxs' c x).trans hx, fun d y hdy => (ctxs' d y).trans ?_, fun d => ?_, fun he => ?_, fun n h => ?_, ?_⟩
  · by_cases hd : d = c
    · subst hd
      exact ctxs y (hdy.resolve_left fun q => q rfl)
    · simp only [State.ctx, cores d hd]
  · rw [cores' d]
    by_cases hd : d = c
    · subst hd; rw [core]
    · rw [cores d hd]
  · rw [← faultPayload_eq]
    exact pending (by rw [src1]; exact he)
  · rw [← src1 n]; exact srcs n h
  · have nap : t.power = { s1.power with napWake := t.power.napWake } := by conv_lhs => rw [rest']
    have fabric : t.fabric = s1.fabric := by rw [rest']
    rw [← nap, power, ← power1] at rest'
    rw [fabric]
    conv_lhs => rw [rest', rest]

/-- A context that may issue is READY, in a core that runs (R31, R123). -/
theorem mayIssue_runs {s : State} {c : CoreId} {x : CtxId} {f16 : Bool} (h : s.mayIssue c x f16 = true) :
    s.coreRuns c = true ∧ (s.ctx c x).st = .ready := by
  simp only [State.mayIssue, Bool.and_eq_true, beq_iff_eq] at h
  obtain ⟨⟨⟨⟨⟨⟨⟨⟨runs, ready⟩, -⟩, -⟩, -⟩, -⟩, -⟩, -⟩, -⟩ := h
  exact ⟨runs, ready⟩

/-- An instruction that is ready and whose meaning is a precise fault takes that fault (R83). -/
theorem issue_faults {s : State} {c : CoreId} {x : CtxId} {e : Enc} {body : State → Res Done} {code : Byte} {a : Word}
    (h : Ready s c x e) (hb : body s = .fault s code a) : ∃ t, s.issue c x e body = .next t ∧ TookFault s t c x code a false := by
  obtain ⟨⟨issues, outside, inSpill, -, -, -⟩, -⟩ := id h
  obtain ⟨runs, ready⟩ := mayIssue_runs issues
  obtain ⟨hm, hn⟩ := coreRuns_power runs
  have hbody : s.runBody c x e (after s c x e.len) false body = (s.undo s c x).endFault c x code a false true := by
    simp only [State.runBody, hb, Res.state, inSpill, Option.isSome_none, Bool.and_false, Bool.false_eq_true, if_false, State.conclude]
  refine ⟨_, by rw [issue_ready body h, hbody], ?_⟩
  rw [undo_self]
  let s1 := (s.modCtx c x fun t => { t with seen := 0 }).modCore c fun k =>
    k.ended x ((s.modCtx c x fun t => { t with seen := 0 }).ctx c x).priv true
  let s2 := (s1.modCtx c x fun t => { t with routine := none, moved := none, seen := 0, image := none }).count c x 0x29
  have own2 : s2.ctx c x = { s.ctx c x with routine := none, moved := none, seen := 0, image := none } := by
    rw [State.count_ctx, State.ctx_modCtx, ctx_ended, State.ctx_modCtx]
  have reach2 : FaultReach s s2 c x :=
    (((faultReach_modCtx ..).trans (faultReach_ended ..)).trans (faultReach_modCtx ..)).trans (faultReach_countN ..)
  have routine : (s.ctx c x).routine = none := by
    simp only [Ctx.inRoutine, Bool.or_eq_false_iff, Option.isSome_eq_false_iff, Option.isNone_iff_eq_none] at outside
    exact outside.1
  obtain ⟨s3, eq3, reach3, own3⟩ := takeFault_reach (s := s2) code a false (by rw [own2, ready]; decide)
  simp only [State.endFault, Bool.false_eq_true, if_false, State.preciseFault]
  rw [eq3]
  refine tookFault_of hm (by rw [hn]; decide) (reach2.trans reach3) ?_
  rw [own3, own2]
  simp only [Bool.false_eq_true, if_false, routine]

end Sys2Proof.Machine
end

section
/-! SUPPORT. The halt of a core (R103, R467), and instructions that end where they stand. -/

namespace Sys2Proof.Machine

open Sys2Proof

/-! ## Instructions that leave the stacks alone -/

/-- An instruction that stays at its own address, and leaves `l` to be done. -/
theorem finish_stay (s : State) (c : CoreId) (x : CtxId) (npc : Word) (p : BitVec 2) (vendor : Bool) (l : State → State) :
    s.finish c x npc p vendor { flow := .stay, late := l } = l (s.finish c x (s.ctx c x).pc p vendor {}) := rfl

theorem stackDone_same {s t : State} {c : CoreId} {x : CtxId} (hf : (t.ctx c x).frame = (s.ctx c x).frame)
    (hd : (t.ctx c x).dstk = (s.ctx c x).dstk) (hw : (t.ctx c x).wtag = (s.ctx c x).wtag) : StackDone s t c x 0 [] := by
  refine ⟨hf, ?_, fun i hi => absurd hi (Nat.not_lt_zero i), fun i _ => ?_, fun w _ => ?_⟩
  · simp only [Ctx.depth, Ctx.win, hf, hw, List.length_nil]; rfl
  · simp only [Ctx.cell, Ctx.topEntry, Ctx.depth, Ctx.win, hf, hd, hw, List.length_nil]
  · simp only [hd, hw, implies_true, and_self]

/-- An instruction that does nothing to its context. -/
theorem completed_ended {s t : State} {c : CoreId} {x : CtxId} {to_ : Word} (hx : t.ctx c x = (s.ctx c x).ended to_)
    (hk : CoreKept s t c x) (hr : RestKept s t) : Completed s t c x to_ 0 [] := by
  have he := ended_fields (s.ctx c x) to_
  rw [← hx] at he
  obtain ⟨hpc, hc⟩ := ctxKept_ended (s := s) (u := s.ctx c x) (q := ((s.ctx c x).ended to_).btbAt) rfl hx
  refine ⟨hpc, stackDone_same ?_ ?_ ?_, ⟨?_, ?_, ?_⟩, hc, hk, hr⟩ <;> rw [he]

/-! ## A context, and a core, at the halt -/

theorem atHalt_fields (t : Ctx) : t.atHalt = { t with preHalt := t.atHalt.preHalt, rsv := t.atHalt.rsv, st := t.atHalt.st } := by
  unfold Ctx.atHalt
  split <;> rfl

theorem atHalt_st (t : Ctx) :
    t.atHalt.st = if t.st = .idle ∨ t.st = .dfault ∨ t.st = .halt then t.st else .halt := by
  cases h : t.st <;> simp [Ctx.atHalt, h]

theorem atHalt_ready {t : Ctx} (h : t.st = .ready) : t.atHalt.preHalt = .ready ∧ t.atHalt.rsv = none := by
  simp [Ctx.atHalt, h]

theorem settle_fields (k : Core) :
    k.settle = { k with holder := k.settle.holder, search := k.settle.search, qcount := k.settle.qcount, qload := k.settle.qload } := by
  unfold Core.settle
  dsimp only
  rw [seat_fields]
  split
  · split
    · rfl
    · rw [giveUp_fields]
  · rfl

/-- The core that halts: what its contexts become, before the decode register is searched anew (R467). -/
def Core.stopped (k : Core) (cause : BitVec 2) : Core :=
  { k with halted := true, haltReq := none, hcause := cause, stepping := false, stepRan := false }.allCtx fun _ t => t.atHalt

theorem stopped_ctx (k : Core) (cause : BitVec 2) (y : CtxId) : (k.stopped cause).settle.ctx[y.val] = (k.ctx[y.val]).atHalt := by
  rw [settle_fields]
  simp [Core.stopped, Core.allCtx]

/-! ## The trace unit (R479, R480) -/

theorem traceSettle_rest (s : State) : s.traceSettle = { s with dbg := s.traceSettle.dbg } := rfl

theorem packet_rest (s : State) (halt : Bool) (low data : Word) :
    s.packet halt low data = { s with dbg := (s.packet halt low data).dbg } := by
  unfold State.packet
  split
  · rfl
  · rw [traceSettle_rest]; rfl

theorem haltPacket_rest (s : State) (c : CoreId) (b : Bool) :
    s.haltPacket c b = { s with dbg := (s.haltPacket c b).dbg, freeCtr := (s.haltPacket c b).freeCtr } := by
  unfold State.haltPacket
  split
  · dsimp only
    rw [packet_rest]; rfl
  · rfl

/-! ## The routine in X (R57, R123) -/

theorem takeX_ctx (s : State) (c : CoreId) (y : CtxId) :
    (s.takeX c).ctx c y = { s.ctx c y with slot := ((s.takeX c).ctx c y).slot } := by
  unfold State.takeX
  split
  · next z _ =>
    rw [State.saveSlot, State.count_ctx]
    by_cases h : y = z
    · subst h; rw [State.ctx_modCtx]
    · rw [State.ctx_modCtx_ne _ _ _ _ _ h]
  · rfl

theorem takeX_core {s : State} {c d : CoreId} (h : d ≠ c) : (s.takeX c).core[d] = s.core[d] := by
  unfold State.takeX
  split
  · rw [State.saveSlot, State.count_core]; exact State.modCore_ne _ _ _ _ h
  · rfl

theorem takeX_rest (s : State) (c : CoreId) : RestKept s (s.takeX c) := by
  unfold State.takeX
  split
  · exact (modCore_rest ..).trans (countN_rest ..)
  · exact .refl s

/-! ## The halt of a core -/

theorem fireLines_zero (s : State) {l : BitVec 4} (h : l = 0) : s.fireLines l = s := if_pos h

/-- A core that halts and fires no trigger line: all its contexts stop at once, a routine that stands at a trap point is saved, and no
other core and no memory changes (R467). -/
theorem coreHalt_reach {s : State} {c : CoreId} {cause : BitVec 2} (hf : s.dbg.xtm[(⟨c.val, by omega⟩ : Fin 18)].firel = 0) :
    (s.coreHalt c cause).core[c].halted = true ∧ (s.coreHalt c cause).core[c].hcause = cause ∧
    (∀ y, (s.coreHalt c cause).ctx c y = { s.ctx c y with slot := ((s.takeX c).ctx c y).slot }.atHalt) ∧
    (∀ d, d ≠ c → (s.coreHalt c cause).core[d] = s.core[d]) ∧ (s.coreHalt c cause).spad = s.spad := by
  obtain ⟨s1, hs1⟩ : ∃ s1, s1 = (s.takeX c).seating c fun k => (k.stopped cause).settle := ⟨_, rfl⟩
  have rest1 : RestKept s s1 := by rw [hs1]; exact (takeX_rest s c).trans (seating_rest ..)
  have quiet : s1.dbg.xtm[(⟨c.val, by omega⟩ : Fin 18)].firel = 0 := by rw [rest1]; exact hf
  have same : s.coreHalt c cause = (s1.countC c 0x3E).haltPacket c true := by
    rw [hs1] at quiet ⊢
    exact fireLines_zero _ quiet
  have core : (s.coreHalt c cause).core = ((s.takeX c).modCore c fun k => (k.stopped cause).settle).core := by
    rw [same, haltPacket_rest]
    simp only [State.countC_core, hs1, seating_core]
  have self : (s.coreHalt c cause).core[c] = (((s.takeX c).core[c]).stopped cause).settle := by
    simp only [core, Fin.getElem_fin, State.modCore_self]
  refine ⟨?_, ?_, fun y => ?_, fun d hd => ?_, ?_⟩
  · rw [self, settle_fields]; rfl
  · rw [self, settle_fields]; rfl
  · rw [← takeX_ctx]
    simp only [State.ctx, self, Fin.getElem_fin, stopped_ctx]
  · simp only [core, Fin.getElem_fin, State.modCore_ne _ _ _ _ hd]
    exact takeX_core hd
  · rw [same, haltPacket_rest]
    simp only [State.countC_spad]
    rw [rest1]

end Sys2Proof.Machine
end

section
/-! BKPT and the unassigned opcodes (R72, R98, R467, R470). -/

namespace Sys2Proof.Machine

open Sys2Proof

/-- The meaning of BKPT after its fetch. -/
def bkptBody (c : CoreId) (s : State) : Res Done :=
  if s.bkptHalts c then .ok { flow := .stay, late := fun s => s.bkptStop c } s else .fault s fcBkpt 0

theorem exec_bkpt (c : CoreId) (x : CtxId) (s : State) : exec (.bkpt c x) s = s.issue c x { op := 0xA2 } (bkptBody c) := rfl

theorem exec_unassignedOpcode (c : CoreId) (x : CtxId) (ext : Bool) (b : Byte) (s : State) :
    exec (.unassignedOpcode c x ext b) s =
      s.issue c x (if ext then { op := 0xFE, page := some b } else { op := b }) fun s => .fault s fcIllegal 0 := rfl

/-- Where BKPT halts, it ends at its own address, and what is left is the halt of its core. -/
theorem bkpt_ends {s : State} {c : CoreId} {x : CtxId} (hb : s.bkptHalts c = true) (h : Ready s c x { op := 0xA2 }) :
    ∃ t, exec (.bkpt c x) s = .next (t.bkptStop c) ∧ t.ctx c x = (s.ctx c x).ended (s.ctx c x).pc ∧ CoreKept s t c x ∧ RestKept s t := by
  have body : bkptBody c s = .ok { flow := .stay, late := fun s => s.bkptStop c } s := if_pos hb
  obtain ⟨own, core, rest⟩ := finish_seq s c x (s.ctx c x).pc (s.ctx c x).priv true
  refine ⟨s.finish c x (s.ctx c x).pc (s.ctx c x).priv true {}, ?_, own, core, rest⟩
  rw [exec_bkpt, issue_ready _ h, runBody_ok _ _ _ body rfl, finish_stay]

theorem bkptHalts_iff (s : State) (c : CoreId) :
    s.bkptHalts c = true ↔ s.core[c].bkptEn = true ∧ s.dbg.level = 2 ∧ s.power.vdbg = true := by
  simp only [State.bkptHalts, Bool.and_eq_true, beq_iff_eq, and_assoc]

/-- In a step the core is halted already, and BKPT does nothing more (R470). -/
theorem bkpt_in_step {s : State} {c : CoreId} {x : CtxId} (hb : s.bkptHalts c = true) (hh : s.core[c].halted = true) :
    Goes s c x (.bkpt c x) { op := 0xA2 } (s.ctx c x).pc 0 [] := by
  intro h
  obtain ⟨t, ht, own, core, rest⟩ := bkpt_ends hb h
  have halted : t.core[c].halted = true := by
    obtain ⟨-, -, core⟩ := core
    rw [core]; exact hh
  have stop : t.bkptStop c = t := if_pos halted
  exact ⟨t, by rw [ht, stop], completed_ended own core rest⟩

/-- BKPT halts its core, with THR_PC on it (R467). -/
theorem bkpt_halts {s : State} {c : CoreId} {x : CtxId} (hb : s.bkptHalts c = true) (hh : s.core[c].halted = false)
    (hf : s.dbg.xtm[(⟨c.val, by omega⟩ : Fin 18)].firel = 0) (h : Ready s c x { op := 0xA2 }) :
    ∃ t, exec (.bkpt c x) s = .next t ∧
      t.core[c].halted = true ∧ t.core[c].hcause = 1 ∧ (t.ctx c x).pc = (s.ctx c x).pc ∧
      (∀ y, (t.ctx c y).st = if (s.ctx c y).st = .idle ∨ (s.ctx c y).st = .dfault ∨ (s.ctx c y).st = .halt
        then (s.ctx c y).st else .halt) ∧
      (∀ y, (s.ctx c y).st = .ready → (t.ctx c y).preHalt = .ready ∧ (t.ctx c y).rsv = none) ∧
      StackDone s t c x 0 [] ∧ ReturnsKept s t c x ∧ (∀ d, d ≠ c → t.core[d] = s.core[d]) ∧ t.spad = s.spad := by
  obtain ⟨t, ht, own, ⟨cores, ctxs, core⟩, rest⟩ := bkpt_ends hb h
  have running : ¬t.core[c].halted = true := by rw [core]; simp only [hh, Bool.false_eq_true, not_false_eq_true]
  have stop : t.bkptStop c = t.coreHalt c 1 := if_neg running
  obtain ⟨halted, cause, ctxs', cores', spad⟩ := coreHalt_reach (s := t) (c := c) (cause := 1) (by rw [rest]; exact hf)
  have ended := ended_fields (s.ctx c x) (s.ctx c x).pc
  rw [← own] at ended
  have st : ∀ y, (t.ctx c y).st = (s.ctx c y).st := by
    intro y
    by_cases hy : y = x
    · subst hy; rw [ended]
    · rw [ctxs y hy]
  rw [stop] at ht
  refine ⟨t.coreHalt c 1, ht, halted, cause, ?_, fun y => ?_, fun y hy => ?_, stackDone_same ?_ ?_ ?_, ⟨?_, ?_, ?_⟩,
    fun d hd => (cores' d hd).trans (cores d hd), ?_⟩
  case refine_2 => rw [ctxs', atHalt_st]; simp only [st]
  case refine_3 => rw [ctxs']; exact atHalt_ready ((st y).trans hy)
  case refine_10 => rw [spad, rest]
  all_goals rw [ctxs', atHalt_fields, ended]

/-- Settles O22: BKPT by the end of its instruction and the halt of a core, faults by what a fault reaches. -/
theorem instructionsStop : Obligations.InstructionsStop := by
  refine ⟨fun s c x => ⟨fun he hl hv => ?_, ?_, fun hn h => ?_⟩, fun s c x b => ⟨fun h => ?_, fun h => ?_⟩⟩
  · exact bkpt_in_step ((bkptHalts_iff s c).mpr ⟨he, hl, hv⟩)
  · rintro ⟨he, hl, hv, hh, hf⟩
    exact bkpt_halts ((bkptHalts_iff s c).mpr ⟨he, hl, hv⟩) hh hf
  · rw [exec_bkpt]
    exact issue_faults h (if_neg fun q => hn ((bkptHalts_iff s c).mp q))
  · rw [exec_unassignedOpcode]
    exact issue_faults h rfl
  · rw [exec_unassignedOpcode]
    exact issue_faults h rfl

end Sys2Proof.Machine
end

section
/-! SUPPORT. A context's access to a word of the scratchpad that nothing keeps from it: the checks, the grant of its port, the write, and
what such a store reaches (R84, R103, R144, R264, R268, R276, R335). -/

namespace Sys2Proof.Machine

open Sys2Proof

/-! ## The checks (R78, R79, R84, R277, R283) -/

/-- Banks lie at multiples of a word, so an address and its place in the scratchpad are aligned alike. -/
theorem spadTarget_mod {c : CoreId} {n base w : Nat} {v via : Via} {own : Bool} (hb : base % 4 = 0) (hn : base ≤ n)
    (h : spadTarget (some c) n base v = .spad w via own) : w % 4 = n % 4 := by
  unfold spadTarget at h
  dsimp only at h
  split at h
  · simp only [Target.spad.injEq, localBase] at h; omega
  · split at h
    · simp only [Target.spad.injEq] at h; omega
    · split at h
      · simp only [Target.spad.injEq] at h; omega
      · cases h

theorem target_spad_mod {c : CoreId} {a : Word} {w : Nat} {via : Via} {own : Bool} (h : target (some c) a = .spad w via own) :
    w % 4 = a.toNat % 4 := by
  unfold target at h
  dsimp only at h
  split at h
  · exact spadTarget_mod rfl (Nat.zero_le _) h
  split at h
  · exact spadTarget_mod rfl (by omega) h
  split at h
  · exact spadTarget_mod rfl (by omega) h
  repeat' split at h
  all_goals cases h

/-- A context may reach a word of the scratchpad by its plain address: what it needs of `SpadFree` for an access of one word. -/
theorem spadFree_word {s : State} {c : CoreId} {x : CtxId} {a : Word} {w : Nat} {own : Bool} (h : SpadFree s c x a 4 w .plain own) :
    w / 4 * 4 = w := by
  have := target_spad_mod h.1
  have := h.2.1
  omega

/-- CLAIM and COMMIT find nothing amiss with such a word. -/
theorem checkData_claim {s : State} {c : CoreId} {x : CtxId} {a : Word} {w : Nat} {own : Bool} (h : SpadFree s c x a 4 w .plain own) :
    s.checkData c (s.ctx c x) a 4 false true = none := by
  obtain ⟨target, aligned, counted, secure, destroyed, -, -⟩ := h
  have inReach : ((s.ctx c x).cntd && !own) = false := by
    cases hc : (s.ctx c x).cntd
    · rfl
    · rw [counted hc]; rfl
  have allowed : (isSecure w && !isSecPriv (s.ctx c x).priv) = false := by
    cases hs : isSecure w
    · rfl
    · rw [secure hs]; rfl
  simp [State.checkData, target, aligned, Ctx.counted, countedData, inReach, allowed, destroyed]

/-- The bank of such a word grants it at once (R268, R278, R281, R285). -/
theorem spadGate_free {s : State} {c : CoreId} (x : CtxId) (a : Word) {w : Nat} (hs : s.wordShut w = false) (hb : s.borrowed w = none) :
    s.spadGate c x a w = .ok () (s.reached c w) := by
  simp only [State.spadGate, hs, hb, Bool.false_eq_true, if_false, Option.isSome_none, State.reached]

/-! ## The grant (R268, R275) -/

/-- A grant leaves the cores, and of the scratchpads all but the port's pointer and count. -/
theorem reached_rest (s : State) (c : CoreId) (w : Nat) :
    s.reached c w = { s with
      freeCtr := (s.reached c w).freeCtr, counters := { s.counters with cnt := (s.reached c w).counters.cnt },
      spad := { s.spad with conf := (s.reached c w).spad.conf, rr := (s.reached c w).spad.rr } } := by
  unfold State.reached
  split
  · rfl
  · simp only [State.granted, State.countB]

@[simp] theorem reached_core (s : State) (c : CoreId) (w : Nat) : (s.reached c w).core = s.core := by rw [reached_rest]
@[simp] theorem reached_march (s : State) (c : CoreId) (w : Nat) : (s.reached c w).march = s.march := by rw [reached_rest]

@[simp] theorem reached_ctx (s : State) (c : CoreId) (w : Nat) (d : CoreId) (y : CtxId) : (s.reached c w).ctx d y = s.ctx d y := by
  simp only [State.ctx, reached_core]

theorem reached_borrowed (s : State) (c : CoreId) (w v : Nat) : (s.reached c w).borrowed v = s.borrowed v := by
  simp only [State.borrowed, reached_march]

/-! ## CLAIM's load (R100) -/

theorem wordPart_word (v : Word) : wordPart v 0 4 = v := by
  have ones : (1#32 <<< (8 * 4)) - 1 = BitVec.allOnes 32 := by decide
  simp only [wordPart, ones, Nat.mul_zero, BitVec.ushiftRight_zero, BitVec.and_allOnes]

theorem spadRead_good {s : State} {w : Nat} (hb : s.borrowed w = none) (hc : s.spad.check w = 0) :
    s.spadRead w = (some (s.spad.word w), s) := by
  simp only [State.spadRead, State.wordCheck, State.spadData, hb, hc]

theorem valueAt_word (s : State) (w : Nat) : valueAt s w 4 = s.spad.word w := rfl

end Sys2Proof.Machine
end

section
/-! SUPPORT. Instructions that also make a change, and the outcomes of CLAIM and COMMIT (R100 to R103). -/

namespace Sys2Proof.Machine

open Sys2Proof

/-- An instruction that also makes the change from `s` to `s'`, and goes well, completes. -/
theorem simple_goesTo {s s' s1 : State} {c : CoreId} {x : CtxId} {e : Enc} {body : State → Res (Option Word)} {pops : Nat}
    {vs : List Word} (h : Ready s c x e) (hb : body s = .ok none s1) (hc : s1.core = (s'.replace c x pops vs).core) (hr : RestKept s' s1)
    (hm : (s'.ctx c x).moved = (s.ctx c x).moved) (h1 : pops ≤ (s'.ctx c x).depth) (h2 : (s'.ctx c x).depth - pops + vs.length ≤ 8) :
    ∃ t, s.simple c x e body = .next t ∧ Completed s' t c x (after s c x e.len) pops vs := by
  have own : s1.ctx c x = (s'.ctx c x).replace pops vs := by
    rw [← State.ctx_modCtx s' c x fun t => t.replace pops vs, State.ctx, hc]; rfl
  have moved : (s1.ctx c x).moved = (s.ctx c x).moved := by rw [own, replace_fields]; exact hm
  obtain ⟨hx, core, rest⟩ := finish_kept (x := x) (c := c) (f := fun t => t.replace pops vs) (after s c x e.len) (s.ctx c x).priv true none
    hc hr
  exact ⟨_, simple_ready h moved hb, completed_of h1 h2 hx core rest⟩

theorem check_reached (s : State) (c : CoreId) (w v : Nat) : (s.reached c w).spad.check v = s.spad.check v := by
  rw [reached_rest]; rfl

theorem word_reached (s : State) (c : CoreId) (w v : Nat) : (s.reached c w).spad.word v = s.spad.word v := by
  rw [reached_rest]; rfl

/-- CLAIM loads the word and reserves its granule (R100, R101). -/
theorem claimAt_free {s : State} {c : CoreId} {x : CtxId} {a : Word} {w : Nat} {own : Bool} (h : SpadFree s c x a 4 w .plain own)
    (hc : s.spad.check w = 0) :
    ∃ s1, s.claimAt c x a = .ok (valueAt s w 4) s1 ∧
      s1.core = ((s.reached c w).modCtx c x fun u => { u with rsv := some (w / 32) }).core ∧
      RestKept (s.reached c w) s1 := by
  obtain ⟨target, aligned, -, -, -, shut, borrowed⟩ := id h
  have hw := spadFree_word h
  rw [hw] at shut borrowed
  have zero : w % 4 = 0 := by omega
  have read : s.ctxRead c x a w = .ok (valueAt s w 4) (s.reached c w) := by
    have good := spadRead_good (s := s.reached c w) (w := w) (by rw [reached_borrowed]; exact borrowed) (by rw [check_reached]; exact hc)
    simp only [State.ctxRead, spadGate_free x a shut borrowed, Res.bind_ok, good, word_reached, valueAt_word]
  let s1 := (if own then s.reached c w else (s.reached c w).count c x 0x21).count c x 0x14
  have rest1 : RestKept (s.reached c w) s1 := by
    refine RestKept.trans ?_ (countN_rest ..)
    split
    · exact .refl _
    · exact countN_rest ..
  have core1 : s1.core = (s.reached c w).core := by
    rw [State.count_core]
    split
    · rfl
    · exact State.count_core ..
  refine ⟨(s1.modCtx c x fun u => { u with rsv := some (w / 32) }).count c x 0x30, ?_, ?_, ?_⟩
  · have load : s.loadBytes c x a 4 true = .ok (valueAt s w 4) s1 := by
      simp only [State.loadBytes, checkData_claim h, target, hw, read, Res.bind_ok, Res.also_ok, zero, wordPart_word, s1]
    simp only [State.claimAt, load, Res.bind_ok, target]
  · rw [State.count_core]
    simp only [State.modCtx, State.modCore, core1]
  · exact (rest1.trans (modCore_rest s1 c _)).trans (countN_rest ..)

/-- The state once COMMIT has had its grant and dropped the reservation (R102). -/
def State.unreserved (s : State) (c : CoreId) (x : CtxId) (w : Nat) : State :=
  (s.reached c w).modCtx c x fun u => { u with rsv := none }

theorem commitAt_free {s : State} {c : CoreId} {x : CtxId} {a v : Word} {w n : Nat} {own : Bool} (h : SpadFree s c x a 4 w .plain own) :
    s.commitAt c x a v n =
      if (s.ctx c x).rsv = some (w / 32) ∧ n ≤ 255 then
        .ok 0xFFFFFFFF ((((s.unreserved c x w).spadPut w v 0xF (some (c, x))).ownCode c x a 4).count c x 0x31)
      else .ok 0 ((s.unreserved c x w).count c x 0x32) := by
  obtain ⟨target, aligned, -, -, -, shut, borrowed⟩ := id h
  have hw := spadFree_word h
  rw [hw] at shut borrowed
  simp only [State.commitAt, checkData_claim h, target, spadGate_free x a shut borrowed, Res.bind_ok, reached_ctx, Bool.and_eq_true, beq_iff_eq,
    decide_eq_true_eq]
  rfl

end Sys2Proof.Machine
end

section
/-! SUPPORT. What a store of COMMIT reaches beyond its word (R103, R144, R264, R335). -/

namespace Sys2Proof.Machine

open Sys2Proof

/-! ## What a store reaches (R103, R144, R335) -/

/-- What a store to the scratchpad by core `c` reaches before its instruction ends: reservations everywhere, which it only
clears, the copies of fast vectors, code that core `c` has fetched, the scratchpad's memory with its check bits, and the ports' state and counts. -/
def StoreReach (s t : State) (c : CoreId) : Prop :=
  (∀ y, t.ctx c y =
    { s.ctx c y with rsv := (t.ctx c y).rsv, fbuf := (t.ctx c y).fbuf, btbAt := (t.ctx c y).btbAt, ahead := (t.ctx c y).ahead }) ∧
  (∀ d, d ≠ c → t.core[d] = { s.core[d] with ctx := t.core[d].ctx, fvecOk := t.core[d].fvecOk }) ∧
  (∀ d, d ≠ c → ∀ y, t.ctx d y = { s.ctx d y with rsv := (t.ctx d y).rsv }) ∧
  t.core[c] = { s.core[c] with ctx := t.core[c].ctx, fvecOk := t.core[c].fvecOk, btb := t.core[c].btb } ∧
  t = { s with core := t.core, counters := { s.counters with cnt := t.counters.cnt }, freeCtr := t.freeCtr, spad := { s.spad with
    mem := t.spad.mem, bad := t.spad.bad, corr := t.spad.corr, wback := t.spad.wback, sound := t.spad.sound, ecnt := t.spad.ecnt,
    conf := t.spad.conf, coll := t.spad.coll, rr := t.spad.rr, wrote := t.spad.wrote } } ∧
  ∀ d y, (t.ctx d y).rsv = none ∨ (t.ctx d y).rsv = (s.ctx d y).rsv

theorem StoreReach.trans {s t u : State} {c : CoreId} (h1 : StoreReach s t c) (h2 : StoreReach t u c) : StoreReach s u c := by
  obtain ⟨ctxs1, cores1, others1, core1, rest1, rsv1⟩ := h1
  obtain ⟨ctxs2, cores2, others2, core2, rest2, rsv2⟩ := h2
  refine ⟨fun y => ?_, fun d hd => ?_, fun d hd y => ?_, ?_, ?_, fun d y => ?_⟩
  · rw [ctxs2 y, ctxs1 y]
  · rw [cores2 d hd, cores1 d hd]
  · rw [others2 d hd y, others1 d hd y]
  · rw [core2, core1]
  · rw [rest2, rest1]
  · rcases rsv2 d y with h | h
    · exact .inl h
    · rw [h]; exact rsv1 d y

/-- A change outside the cores. -/
theorem storeReach_rest {s t : State} (c : CoreId) (hc : t.core = s.core)
    (hr : t = { s with core := t.core, counters := { s.counters with cnt := t.counters.cnt }, freeCtr := t.freeCtr, spad := { s.spad with
      mem := t.spad.mem, bad := t.spad.bad, corr := t.spad.corr, wback := t.spad.wback, sound := t.spad.sound, ecnt := t.spad.ecnt,
      conf := t.spad.conf, coll := t.spad.coll, rr := t.spad.rr, wrote := t.spad.wrote } }) : StoreReach s t c := by
  refine ⟨fun y => ?_, fun d _ => ?_, fun d _ y => ?_, ?_, hr, fun d y => .inr ?_⟩
  · simp only [State.ctx, hc]
  · rw [hc]
  · simp only [State.ctx, hc]
  · rw [hc]
  · simp only [State.ctx, hc]

theorem storeReach_reached (s : State) (c : CoreId) (w : Nat) : StoreReach s (s.reached c w) c := by
  refine storeReach_rest c (reached_core ..) ?_
  unfold State.reached
  split
  · rfl
  · simp only [State.granted, State.countB]

/-- A change of every core that touches reservations and fast-vector copies alone. -/
theorem storeReach_allCores (s : State) (c : CoreId) {f : CoreId → Core → Core}
    (hk : ∀ d k, ∃ l o, f d k = { k with ctx := l, fvecOk := o })
    (hx : ∀ d k, ∀ y : CtxId, ∃ r, (r = none ∨ r = k.ctx[y.val].rsv) ∧ (f d k).ctx[y.val] = { k.ctx[y.val] with rsv := r }) :
    StoreReach s (s.allCores f) c := by
  have core : ∀ d : CoreId, (s.allCores f).core[d.val] = f d s.core[d.val] := by
    intro d
    simp only [State.allCores, Fin.getElem_fin, Vector.getElem_ofFn]
  have ctx : ∀ d y, ∃ r, (r = none ∨ r = (s.ctx d y).rsv) ∧ (s.allCores f).ctx d y = { s.ctx d y with rsv := r } := by
    intro d y
    simp only [State.ctx, Fin.getElem_fin, core]
    exact hx d _ y
  refine ⟨fun y => ?_, fun d _ => ?_, fun d _ y => ?_, ?_, by unfold State.allCores; rfl, fun d y => ?_⟩
  · obtain ⟨r, -, h⟩ := ctx c y
    rw [h]
  · obtain ⟨l, o, h⟩ := hk d s.core[d.val]
    simp only [Fin.getElem_fin, core, h]
  · obtain ⟨r, -, h⟩ := ctx d y
    rw [h]
  · obtain ⟨l, o, h⟩ := hk c s.core[c.val]
    simp only [Fin.getElem_fin, core, h]
  · obtain ⟨r, only, h⟩ := ctx d y
    rw [h]; exact only

/-- A change of core `c` that touches what it has fetched, and reservations. -/
theorem storeReach_modCore (s : State) (c : CoreId) {f : Core → Core} (hk : ∀ k, ∃ l b, f k = { k with ctx := l, btb := b })
    (hx : ∀ k, ∀ y : CtxId, ∃ r b q l, (r = none ∨ r = k.ctx[y.val].rsv) ∧
      (f k).ctx[y.val] = { k.ctx[y.val] with rsv := r, fbuf := b, btbAt := q, ahead := l }) :
    StoreReach s (s.modCore c f) c := by
  refine ⟨fun y => ?_, fun d hd => ?_, fun d hd y => ?_, ?_, rfl, fun d y => ?_⟩
  · obtain ⟨r, b, q, l, -, h⟩ := hx s.core[c.val] y
    simp only [State.ctx, Fin.getElem_fin, State.modCore_self, h]
  · simp only [Fin.getElem_fin, State.modCore_ne _ _ _ _ hd]
  · simp only [State.ctx, Fin.getElem_fin, State.modCore_ne _ _ _ _ hd]
  · obtain ⟨l, b, h⟩ := hk s.core[c.val]
    simp only [Fin.getElem_fin, State.modCore_self, h]
  · by_cases hd : d = c
    · subst hd
      obtain ⟨r, b, q, l, only, h⟩ := hx s.core[d.val] y
      simp only [State.ctx, Fin.getElem_fin, State.modCore_self, h]
      exact only
    · simp only [State.ctx, Fin.getElem_fin, State.modCore_ne _ _ _ _ hd, or_true]

theorem storeReach_clearRsv (s : State) (g : Nat) (but : Option (CoreId × CtxId)) (c : CoreId) : StoreReach s (s.clearRsv g but) c := by
  refine storeReach_allCores s c (fun _ _ => ⟨_, _, rfl⟩) fun d k y => ?_
  simp only [Core.allCtx, Fin.getElem_fin, Vector.getElem_ofFn]
  split
  · exact ⟨none, .inl rfl, rfl⟩
  · exact ⟨_, .inr rfl, rfl⟩

/-- Core `d` after a write of local word `w`: its copies of fast vectors that hold the word are lost (R335). -/
def Core.afterWrite (w : Nat) (d : CoreId) (k : Core) : Core :=
  if (w - 0x01000000) / 0x40000 = d.val then
    { k with fvecOk := Vector.ofFn fun i =>
               k.fvecOk[i] && (k.fvecOffs.toNat * 0x100 + i.val * 0x20) / 0x20 != (w - 0x01000000) % 0x40000 / 0x20 }
  else k

theorem dropVectors_local (s : State) {w : Nat} (h : isShared w = false) : s.dropVectors w = s.allCores (Core.afterWrite w) := by
  simp only [State.dropVectors, h, Bool.false_eq_true, if_false]
  rfl

theorem dropVectors_shared (s : State) {w : Nat} (h : isShared w = true) : s.dropVectors w = s := by
  simp only [State.dropVectors, h, if_true]

theorem afterWrite_fields (w : Nat) (d : CoreId) (k : Core) : Core.afterWrite w d k = { k with fvecOk := (Core.afterWrite w d k).fvecOk } := by
  unfold Core.afterWrite
  split <;> rfl

theorem storeReach_dropVectors (s : State) (w : Nat) (c : CoreId) : StoreReach s (s.dropVectors w) c := by
  cases h : isShared w with
  | true => rw [dropVectors_shared s h]; exact storeReach_rest c rfl rfl
  | false =>
    rw [dropVectors_local s h]
    refine storeReach_allCores s c (fun d k => ⟨_, _, afterWrite_fields w d k⟩) fun d k y => ?_
    rw [afterWrite_fields]
    exact ⟨_, .inr rfl, rfl⟩

theorem storeReach_noteWrite (s : State) (w : Nat) (v : Word) (be : BitVec 4) (b : Option (CoreId × CtxId)) (c : CoreId) :
    StoreReach s (s.noteWrite w v be b) c := by
  unfold State.noteWrite
  dsimp only
  repeat' split
  all_goals exact storeReach_rest c rfl rfl

theorem noteWrite_march (s : State) (w : Nat) (v : Word) (be : BitVec 4) (b : Option (CoreId × CtxId)) :
    (s.noteWrite w v be b).march = s.march := by
  unfold State.noteWrite
  dsimp only
  repeat' split
  all_goals rfl

@[simp] theorem dropVectors_march (s : State) (w : Nat) : (s.dropVectors w).march = s.march := by
  cases h : isShared w with
  | true => rw [dropVectors_shared s h]
  | false => rw [dropVectors_local s h, State.allCores]

@[simp] theorem dropVectors_spad (s : State) (w : Nat) : (s.dropVectors w).spad = s.spad := by
  cases h : isShared w with
  | true => rw [dropVectors_shared s h]
  | false => rw [dropVectors_local s h, State.allCores]

@[simp] theorem clearRsv_march (s : State) (g : Nat) (b : Option (CoreId × CtxId)) : (s.clearRsv g b).march = s.march :=
  State.allCores_march ..

@[simp] theorem clearRsv_spad (s : State) (g : Nat) (b : Option (CoreId × CtxId)) : (s.clearRsv g b).spad = s.spad :=
  State.allCores_spad ..

theorem borrowed_congr {s t : State} (h : t.march = s.march) (w : Nat) : t.borrowed w = s.borrowed w := by
  simp only [State.borrowed, h]

/-- A write to a word that no slice has borrowed goes to the bank (R264, R285). -/
theorem spadSet_free {s : State} {w : Nat} (v : Word) (be : BitVec 4) (b : Option (CoreId × CtxId)) (hb : s.borrowed w = none) :
    s.spadSet w v be b = { (s.clearRsv (w / 32) b).dropVectors w with spad := s.spad.store w v be } := by
  have free : ((s.clearRsv (w / 32) b).dropVectors w).borrowed w = none := by
    rw [borrowed_congr ((dropVectors_march ..).trans (clearRsv_march ..))]; exact hb
  simp only [State.spadSet, free, dropVectors_spad, clearRsv_spad]

theorem storeReach_store (s : State) (w : Nat) (v : Word) (be : BitVec 4) (c : CoreId) :
    StoreReach s { s with spad := s.spad.store w v be } c := by
  refine storeReach_rest c rfl ?_
  have fields := store_fields s.spad w v be
  dsimp only
  conv_lhs => rw [fields]
  congr 2 <;> rw [fields]

theorem storeReach_spadSet {s : State} {w : Nat} (v : Word) (be : BitVec 4) (b : Option (CoreId × CtxId)) (c : CoreId)
    (hb : s.borrowed w = none) : StoreReach s (s.spadSet w v be b) c := by
  rw [spadSet_free v be b hb]
  have store := storeReach_store ((s.clearRsv (w / 32) b).dropVectors w) w v be c
  rw [dropVectors_spad, clearRsv_spad] at store
  exact ((storeReach_clearRsv s _ b c).trans (storeReach_dropVectors _ w c)).trans store

theorem btbLose_fields (t : Ctx) (c : CoreId) (a : Word) (n : Nat) : t.btbLose c a n = { t with btbAt := (t.btbLose c a n).btbAt } := by
  unfold Ctx.btbLose
  split
  · split <;> rfl
  · rfl

theorem aheadLose_fields (t : Ctx) (c : CoreId) (a : Word) (n : Nat) : t.aheadLose c a n = { t with ahead := (t.aheadLose c a n).ahead } := by
  unfold Ctx.aheadLose
  split
  · split <;> rfl
  · rfl

theorem storeReach_fetchInval (s : State) (c : CoreId) (a : Word) (n : Nat) (b : Option CtxId) : StoreReach s (s.fetchInval c a n b) c := by
  refine storeReach_modCore s c (fun _ => ⟨_, _, rfl⟩) fun k y => ?_
  simp only [Core.btbDrop, Core.allCtx, Vector.getElem_ofFn, Fin.getElem_fin]
  split
  · rw [aheadLose_fields, btbLose_fields]
    split
    · exact ⟨_, _, _, _, .inr rfl, rfl⟩
    · exact ⟨_, _, _, _, .inr rfl, rfl⟩
  · rw [aheadLose_fields, btbLose_fields]
    exact ⟨_, _, _, _, .inr rfl, rfl⟩

theorem storeReach_countN (s : State) (c d : CoreId) (x : Option CtxId) (e m : Nat) : StoreReach s (s.countN d x e m) c :=
  storeReach_rest c (State.countN_core ..) (by simp only [State.countN])

theorem storeReach_ownCode (s : State) (c : CoreId) (x : CtxId) (a : Word) (n : Nat) : StoreReach s (s.ownCode c x a n) c := by
  unfold State.ownCode
  dsimp only
  split
  · exact (storeReach_fetchInval ..).trans (storeReach_countN ..)
  · exact storeReach_fetchInval ..

theorem storeReach_dropRsv (s : State) (c : CoreId) (x : CtxId) : StoreReach s (s.modCtx c x fun u => { u with rsv := none }) c := by
  refine storeReach_modCore s c (fun k => ⟨_, k.btb, rfl⟩) fun k y => ?_
  by_cases h : y = x
  · subst h
    rw [Core.modCtx_self]
    exact ⟨none, _, _, _, .inl rfl, rfl⟩
  · rw [Core.modCtx_ne _ _ _ _ h]
    exact ⟨_, _, _, _, .inr rfl, rfl⟩

end Sys2Proof.Machine
end

section
/-! CLAIM and COMMIT (R100 to R103). -/

namespace Sys2Proof.Machine

open Sys2Proof

theorem needPops_cells {s : State} {c : CoreId} {x : CtxId} {n pushes : Nat} (h : Cells s c x n)
    (hp : (s.ctx c x).depth - n + pushes ≤ 8) : s.needPops c x n pushes = .ok () s :=
  need_cells h (fun _ hi => List.mem_range.mp hi) (Nat.le_refl n) hp

theorem replace_rest (s : State) (c : CoreId) (x : CtxId) (pops : Nat) (vs : List Word) : RestKept s (s.replace c x pops vs) := rfl

/-- CLAIM completes with the word on the stack and its granule reserved (R100, R101). -/
theorem claim_completes {s : State} {c : CoreId} {x : CtxId} {w : Nat} {own : Bool}
    (hf : SpadFree s c x ((s.ctx c x).cell 0) 4 w .plain own) (hcells : Cells s c x 1) (hcheck : s.spad.check w = 0) :
    DoesTo s ((s.reached c w).modCtx c x fun u => { u with rsv := some (w / 32) }) c x (.claim c x) { op := 0x80 } 1 [valueAt s w 4] := by
  intro h
  obtain ⟨s1, load, core, rest⟩ := claimAt_free hf hcheck
  obtain ⟨pops, depth, -, -⟩ := id hcells
  have need : s.needPops c x 1 1 = .ok () s := needPops_cells hcells (by omega)
  have own : ((s.reached c w).modCtx c x fun u => { u with rsv := some (w / 32) }).ctx c x = { s.ctx c x with rsv := some (w / 32) } := by
    rw [State.ctx_modCtx, reached_ctx]
  refine simple_goesTo (s1 := s1.replace c x 1 [valueAt s w 4]) h ?_ ?_ (rest.trans (replace_rest ..)) (by rw [own]) (by rw [own]; exact pops)
    (by rw [own]; change (s.ctx c x).depth - 1 + 1 ≤ 8; omega)
  · simp only [need, load, Res.bind_ok, Res.onFault_ok]
  · simp only [State.replace, State.modCtx, State.modCore] at core ⊢
    rw [core]

/-- The meaning of COMMIT after its fetch. -/
def commitBody (c : CoreId) (x : CtxId) (n : Nat) (s : State) : Res (Option Word) :=
  (s.needPops c x 2 1).bind fun _ s' =>
    (s'.commitAt c x ((s.ctx c x).cell 0) ((s.ctx c x).cell 1) n).bind fun v s => .ok none (s.replace c x 2 [v])

theorem exec_commit (c : CoreId) (x : CtxId) (n : Nat) (s : State) :
    exec (.commit c x n) s = s.simple c x { op := 0x81 } (commitBody c x n) := rfl

/-- With its cells there, COMMIT does what its bank operation gives. -/
theorem commitBody_cells {s s1 : State} {c : CoreId} {x : CtxId} {n : Nat} {v : Word} (h : Cells s c x 2)
    (hc : s.commitAt c x ((s.ctx c x).cell 0) ((s.ctx c x).cell 1) n = .ok v s1) :
    commitBody c x n s = .ok none (s1.replace c x 2 [v]) := by
  obtain ⟨pops, depth, -, -⟩ := id h
  have need : s.needPops c x 2 1 = .ok () s := needPops_cells h (by omega)
  simp only [commitBody, need, hc, Res.bind_ok]

/-- COMMIT without a standing reservation stores nothing and drops the reservation (R102). -/
theorem commit_fails {s : State} {c : CoreId} {x : CtxId} {w n : Nat} {own : Bool}
    (hf : SpadFree s c x ((s.ctx c x).cell 0) 4 w .plain own) (hcells : Cells s c x 2)
    (hn : ¬((s.ctx c x).rsv = some (w / 32) ∧ n ≤ 255)) :
    DoesTo s (s.unreserved c x w) c x (.commit c x n) { op := 0x81 } 2 [0] := by
  intro h
  obtain ⟨pops, depth, -, -⟩ := id hcells
  have own : (s.unreserved c x w).ctx c x = { s.ctx c x with rsv := none } := by
    rw [State.unreserved, State.ctx_modCtx, reached_ctx]
  rw [exec_commit]
  refine simple_goesTo h (commitBody_cells hcells ((commitAt_free hf).trans (if_neg hn))) ?_ ((countN_rest ..).trans (replace_rest ..))
    (by rw [own]) (by rw [own]; exact pops) (by rw [own]; change (s.ctx c x).depth - 2 + 1 ≤ 8; omega)
  simp only [State.replace, State.modCtx, State.modCore, State.count_core]

/-- The state once COMMIT's store is made and counted, before its flag is pushed (R102). -/
def State.committed (s : State) (c : CoreId) (x : CtxId) (a v : Word) (w : Nat) : State :=
  (((s.unreserved c x w).spadPut w v 0xF (some (c, x))).ownCode c x a 4).count c x 0x31

theorem noteWrite_spad_byte (s : State) (w : Nat) (v : Word) (be : BitVec 4) (b : Option (CoreId × CtxId)) (a : Nat) :
    (s.noteWrite w v be b).spad.byte a = s.spad.byte a := by
  unfold State.noteWrite
  dsimp only
  repeat' split
  all_goals rfl

/-- A whole word put where no slice is borrowed. -/
theorem spadPut_word {s : State} {w : Nat} (v : Word) (b : Option (CoreId × CtxId)) :
    s.spadPut w v 0xF b = (s.noteWrite w v 0xF b).spadSet w v 0xF b := by
  simp [State.spadPut]

theorem unreserved_borrowed (s : State) (c : CoreId) (x : CtxId) (w v : Nat) : (s.unreserved c x w).borrowed v = s.borrowed v :=
  reached_borrowed s c w v

theorem storeReach_unreserved (s : State) (c : CoreId) (x : CtxId) (w : Nat) : StoreReach s (s.unreserved c x w) c :=
  (storeReach_reached s c w).trans (storeReach_dropRsv ..)

/-- COMMIT's store, seen from the state in which the reservation is dropped. -/
theorem storeReach_committed {s : State} {c : CoreId} {x : CtxId} (a v : Word) {w : Nat} (hb : s.borrowed w = none) :
    StoreReach (s.unreserved c x w) (s.committed c x a v w) c := by
  have free : ((s.unreserved c x w).noteWrite w v 0xF (some (c, x))).borrowed w = none := by
    rw [borrowed_congr (noteWrite_march ..), unreserved_borrowed, hb]
  rw [State.committed, spadPut_word]
  exact (((storeReach_noteWrite ..).trans (storeReach_spadSet _ _ _ _ free)).trans (storeReach_ownCode ..)).trans (storeReach_countN ..)

@[simp] theorem ownCode_spad (s : State) (c : CoreId) (x : CtxId) (a : Word) (n : Nat) : (s.ownCode c x a n).spad = s.spad := by
  unfold State.ownCode
  dsimp only
  split
  · rw [State.count_spad]; rfl
  · rfl

/-- The word takes the value, and no other byte changes (R102, R264). -/
theorem committed_byte {s : State} {c : CoreId} {x : CtxId} (a v : Word) {w : Nat} (hb : s.borrowed w = none) (b : Nat) :
    (s.committed c x a v w).spad.byte b = if w ≤ b ∧ b < w + 4 then bits v (8 * (b - w)) 8 else s.spad.byte b := by
  have free : ((s.unreserved c x w).noteWrite w v 0xF (some (c, x))).borrowed w = none := by
    rw [borrowed_congr (noteWrite_march ..), unreserved_borrowed, hb]
  have before : (s.unreserved c x w).spad.byte b = s.spad.byte b := by
    rw [State.unreserved, State.modCtx_spad, reached_rest]
    rfl
  have enabled : ∀ i, i < 4 → (0xF : BitVec 4).getLsbD i = true := by decide
  rw [State.committed, State.count_spad, ownCode_spad, spadPut_word, spadSet_free _ _ _ free]
  dsimp only
  rw [store_byte, noteWrite_spad_byte, before]
  by_cases h : w ≤ b ∧ b < w + 4
  · rw [if_pos h, if_pos ⟨h.1, h.2, enabled _ (by omega)⟩]
  · rw [if_neg h, if_neg fun q => h ⟨q.1, q.2.1⟩]

/-- COMMIT's own store leaves its context without a reservation (R102, R103). -/
theorem committed_rsv {s : State} {c : CoreId} {x : CtxId} (a v : Word) {w : Nat} (hb : s.borrowed w = none) :
    ((s.committed c x a v w).ctx c x).rsv = none := by
  obtain ⟨-, -, -, -, -, rsv⟩ := storeReach_committed (c := c) (x := x) a v hb
  rcases rsv c x with h | h
  · exact h
  · rw [h, State.unreserved, State.ctx_modCtx]

/-! ## The end of an instruction that stores -/

/-- Only the stacks of the context before matter to `StackDone`. -/
theorem stackDone_congr {s s' t : State} {c : CoreId} {x : CtxId} {pops : Nat} {vs : List Word}
    (hf : (s'.ctx c x).frame = (s.ctx c x).frame) (hd : (s'.ctx c x).dstk = (s.ctx c x).dstk)
    (hw : (s'.ctx c x).wtag = (s.ctx c x).wtag) (h : StackDone s' t c x pops vs) : StackDone s t c x pops vs := by
  simpa only [StackDone, Ctx.depth, Ctx.cell, Ctx.topEntry, Ctx.win, hf, hd, hw] using h

/-- An instruction that has stored and pushed its result is done. -/
theorem storer_of {s s1 t : State} {c : CoreId} {x : CtxId} {to_ : Word} {pops : Nat} {vs : List Word} (hs : StoreReach s s1 c)
    (h1 : pops ≤ (s.ctx c x).depth) (h2 : (s.ctx c x).depth - pops + vs.length ≤ 8)
    (hx : t.ctx c x = ((s1.ctx c x).replace pops vs).ended to_) (hk : CoreKept s1 t c x) (hr : RestKept s1 t) :
    Storer s t c x to_ pops vs := by
  obtain ⟨ctxs, cores, others, core, rest, -⟩ := hs
  obtain ⟨cores', ctxs', core'⟩ := hk
  have own := ctxs x
  have other : ∀ d, d ≠ c → ∀ y, t.ctx d y = s1.ctx d y := fun d hd y => by simp only [State.ctx, cores' d hd]
  have depth : (s1.ctx c x).depth = (s.ctx c x).depth := by
    rw [own]; rfl
  have ended := ended_fields ((s1.ctx c x).replace pops vs) to_
  rw [← hx, replace_fields] at ended
  have stack : StackDone s1 t c x pops vs :=
    stackDone_ended (q := (t.ctx c x).btbAt) (by rw [depth]; exact h1) (by rw [depth]; exact h2) rfl rfl (by rw [replace_fields]) (by rw [hx])
  refine ⟨by rw [ended], stackDone_congr ?_ ?_ ?_ stack, ⟨?_, ?_⟩, fun d y hdy => ?_, fun d hd => ?_, fun d hd y => ?_, ?_, ?_⟩
  · rw [own]
  · rw [own]
  · rw [own]
  · rw [ended, own]
  · rw [hx]
    exact routineKept_congr (by rw [replace_fields, own]) (by rw [replace_fields, own]) (ended_routine _ _)
  · by_cases hd : d = c
    · subst hd
      rw [ctxs' y (hdy.resolve_left fun q => q rfl), ctxs y]
    · rw [other d hd y, others d hd y]
  · rw [cores' d hd, cores d hd]
  · rw [other d hd y, others d hd y]
  · rw [core', core]
  · rw [hr, rest]

/-- An instruction that is ready and goes well, and goes on at the next one. -/
theorem simple_seq {s s1 : State} {c : CoreId} {x : CtxId} {e : Enc} {body : State → Res (Option Word)} (h : Ready s c x e)
    (hm : (s1.ctx c x).moved = (s.ctx c x).moved) (hb : body s = .ok none s1) :
    ∃ t, s.simple c x e body = .next t ∧ t.ctx c x = (s1.ctx c x).ended (after s c x e.len) ∧ CoreKept s1 t c x ∧ RestKept s1 t :=
  ⟨_, simple_ready h hm hb, finish_seq ..⟩

/-- COMMIT with a standing reservation stores the word, pushes true and drops the reservation (R102). -/
theorem commit_stores {s : State} {c : CoreId} {x : CtxId} {w n : Nat} {own : Bool}
    (hf : SpadFree s c x ((s.ctx c x).cell 0) 4 w .plain own) (hcells : Cells s c x 2)
    (hn : (s.ctx c x).rsv = some (w / 32) ∧ n ≤ 255) (h : Ready s c x { op := 0x81 }) :
    ∃ t, exec (.commit c x n) s = .next t ∧ Storer s t c x (after s c x 1) 2 [0xFFFFFFFF] ∧
      Stored s t w 4 .plain ((s.ctx c x).cell 1) ∧ (t.ctx c x).rsv = none := by
  obtain ⟨pops, depth, -, -⟩ := id hcells
  obtain ⟨-, -, -, -, -, -, borrowed⟩ := id hf
  rw [spadFree_word hf] at borrowed
  obtain ⟨s1, hs1⟩ : ∃ s1, s1 = s.committed c x ((s.ctx c x).cell 0) ((s.ctx c x).cell 1) w := ⟨_, rfl⟩
  have reach : StoreReach s s1 c := by
    rw [hs1]; exact (storeReach_unreserved s c x w).trans (storeReach_committed _ _ borrowed)
  have rsv : (s1.ctx c x).rsv = none := by rw [hs1]; exact committed_rsv _ _ borrowed
  have commit : s.commitAt c x ((s.ctx c x).cell 0) ((s.ctx c x).cell 1) n = .ok 0xFFFFFFFF s1 := by
    rw [commitAt_free hf, if_pos hn, hs1]; rfl
  obtain ⟨own1, -⟩ := id reach
  have moved : ((s1.replace c x 2 [0xFFFFFFFF]).ctx c x).moved = (s.ctx c x).moved := by
    rw [State.replace, State.ctx_modCtx, replace_fields, own1 x]
  obtain ⟨t, goes, hx, core, rest⟩ := simple_seq h moved (commitBody_cells hcells commit)
  rw [State.replace, State.ctx_modCtx] at hx
  have rest1 : RestKept s1 t := (replace_rest ..).trans rest
  have spad : t.spad = s1.spad := by rw [rest1]
  have byte : ∀ b, s1.spad.byte b = if w ≤ b ∧ b < w + 4 then bits ((s.ctx c x).cell 1) (8 * (b - w)) 8 else s.spad.byte b := by
    rw [hs1]; exact committed_byte _ _ borrowed
  refine ⟨t, goes, storer_of reach pops (by change (s.ctx c x).depth - 2 + 1 ≤ 8; omega) hx (coreKept_modCtx core) rest1,
    ⟨fun i hi => ?_, fun a ha => ?_⟩, ?_⟩
  · rw [spad, byte, if_pos (by omega), Nat.add_sub_cancel_left]; rfl
  · rw [spad, byte, if_neg (by omega)]
  · rw [hx, ended_fields, replace_fields]; exact rsv

/-- Settles O12: CLAIM and a COMMIT that fails by the end of a stack instruction, a COMMIT that stores by what its store reaches. -/
theorem claimAndCommit : Obligations.ClaimAndCommit := by
  intro s c x w own a v hf
  exact ⟨fun hcells hcheck => claim_completes hf hcells (by rwa [spadFree_word hf] at hcheck),
    fun hcells n => ⟨fun hn h => commit_stores hf hcells hn h, commit_fails hf hcells⟩⟩

end Sys2Proof.Machine
end

section
/-! SUPPORT. The units around the pins: what an input's new level reaches, the filter, the registers' addresses and fields (R325, R448 to
R454). -/

namespace Sys2Proof.Machine

open Sys2Proof

/-! ## Bits and fields -/

theorem bits_eq_ofNat {m : Nat} (v : BitVec m) (k n : Nat) : bits v k n = BitVec.ofNat n (v.toNat / 2 ^ k) := by
  apply BitVec.eq_of_toNat_eq
  simp only [bits, BitVec.toNat_setWidth, BitVec.toNat_ushiftRight, BitVec.toNat_ofNat, Nat.shiftRight_eq_div_pow]

theorem putBit_getLsbD (v : BitVec 64) (k : Fin 64) (b : Bool) {j : Nat} (hj : j < 64) :
    (putBit v k.val b).getLsbD j = if j = k.val then b else v.getLsbD j := by
  have one : (1#64 <<< k.val).getLsbD j = decide (j = k.val) := by
    simp only [BitVec.getLsbD_shiftLeft, BitVec.getLsbD_one]
    by_cases h : j = k.val
    · subst h; simp [hj]
    · by_cases h1 : j < k.val
      · simp [h, h1]
      · simp [h, show ¬(j - k.val = 0) by omega]
  unfold putBit
  split
  · next hb => subst hb; simp only [BitVec.getLsbD_or, one]; by_cases h : j = k.val <;> simp [h]
  · next hb =>
    simp only [Bool.not_eq_true] at hb
    subst hb
    simp only [BitVec.getLsbD_and, BitVec.getLsbD_not, hj, one, decide_true, Bool.true_and]
    by_cases h : j = k.val <;> simp [h]

theorem putBit_self (v : BitVec 64) (k : Fin 64) (b : Bool) : (putBit v k.val b).getLsbD k.val = b := by
  rw [putBit_getLsbD v k b k.isLt, if_pos rfl]

/-- Byte `j` of a 64-bit mask. -/
theorem eightPins_getLsbD (j : Fin 8) {k : Nat} (hk : k < 64) : ((0xFF#64) <<< (8 * j.val)).getLsbD k = decide (k / 8 = j.val) := by
  have ff : ∀ i, (0xFF#64).getLsbD i = decide (i < 8) := by
    intro i
    rw [show (0xFF#64) = (BitVec.allOnes 8).setWidth 64 from rfl, BitVec.getLsbD_setWidth, BitVec.getLsbD_allOnes]
    by_cases h : i < 8
    · simp [h, show i < 64 by omega]
    · simp [h]
  simp only [BitVec.getLsbD_shiftLeft, hk, ff, decide_true, Bool.true_and]
  rw [Bool.eq_iff_iff]
  simp only [Bool.and_eq_true, Bool.not_eq_true', decide_eq_false_iff_not, decide_eq_true_eq]
  omega

/-- A half of 64 pins taken from a register word. -/
theorem half_getLsbD (hi : Bool) (v : Word) {k : Nat} (hk : k < 64) :
    (half hi v).getLsbD k = (decide (k / 32 = if hi then 1 else 0) && v.getLsbD (k % 32)) := by
  cases hi with
  | false =>
    simp only [half, Bool.false_eq_true, if_false, BitVec.getLsbD_setWidth, hk, decide_true, Bool.true_and]
    by_cases h : k < 32
    · simp [show k / 32 = 0 by omega, Nat.mod_eq_of_lt h]
    · simp [show ¬(k / 32 = 0) by omega, BitVec.getLsbD_of_ge v k (by omega)]
  | true =>
    simp only [half, if_true, BitVec.getLsbD_shiftLeft, BitVec.getLsbD_setWidth, hk, decide_true, Bool.true_and]
    by_cases h : k < 32
    · simp [h, show ¬(k / 32 = 1) by omega]
    · simp [h, show k / 32 = 1 by omega, show k % 32 = k - 32 by omega, show k - 32 < 64 by omega]

theorem mixBits_getLsbD {n : Nat} (old new mask : BitVec n) {k : Nat} (hk : k < n) :
    (mixBits old new mask).getLsbD k = if mask.getLsbD k then new.getLsbD k else old.getLsbD k := by
  simp only [mixBits, BitVec.getLsbD_or, BitVec.getLsbD_and, BitVec.getLsbD_not, hk, decide_true, Bool.true_and]
  cases mask.getLsbD k <;> simp

end Sys2Proof.Machine
end

section
/-! SUPPORT. What an input's new level reaches, through its filter, its event source and the input units (R325, R340, R448 to R454). -/

namespace Sys2Proof.Machine

open Sys2Proof

/-! ## Units that an input does not reach -/

/-- Memory, contexts, and the main reset are as they were. -/
def UnitsKept (s t : State) : Prop := t.spad = s.spad ∧ t.power.mainRst = s.power.mainRst ∧ ∀ c x, t.ctx c x = s.ctx c x

theorem UnitsKept.trans {s t u : State} (h1 : UnitsKept s t) (h2 : UnitsKept t u) : UnitsKept s u := by
  obtain ⟨spad1, rst1, ctx1⟩ := h1
  obtain ⟨spad2, rst2, ctx2⟩ := h2
  exact ⟨spad2.trans spad1, rst2.trans rst1, fun c x => (ctx2 c x).trans (ctx1 c x)⟩

theorem unitsKept_modGpio (s : State) (f : Gpio → Gpio) : UnitsKept s (s.modGpio f) := ⟨rfl, rfl, fun _ _ => rfl⟩

/-- A change of event sources and of what cores note of them. -/
def EventsOnly (s t : State) : Prop := UnitsKept s t ∧ t.gpio = s.gpio

theorem EventsOnly.trans {s t u : State} (h1 : EventsOnly s t) (h2 : EventsOnly t u) : EventsOnly s u :=
  ⟨h1.1.trans h2.1, h2.2.trans h1.2⟩

theorem SourcesOnly.eventsOnly {s t : State} {l : List Nat} (h : SourcesOnly s t l) : EventsOnly s t := by
  have ctx := h.ctx
  obtain ⟨-, -, rest⟩ := h
  exact ⟨⟨by rw [rest], by rw [rest], ctx⟩, by rw [rest]⟩

theorem eventsOnly_modCore (s : State) (c : CoreId) {f : Core → Core} (hf : ∀ k, (f k).ctx = k.ctx) : EventsOnly s (s.modCore c f) := by
  refine ⟨⟨rfl, rfl, fun d y => ?_⟩, rfl⟩
  by_cases hd : d = c
  · subst hd; simp only [State.ctx, Fin.getElem_fin, State.modCore_self, hf]
  · simp only [State.ctx, Fin.getElem_fin, State.modCore_ne _ _ _ _ hd]

/-- The end of a level notes a record that nobody has read, and no more (R340). -/
theorem eventsOnly_wentQuiet (s : State) (v : Source) : EventsOnly s (s.wentQuiet v) := by
  unfold State.wentQuiet
  split
  · next c _ _ =>
    split
    · exact (SourcesOnly.refl s []).eventsOnly
    · refine (eventsOnly_modCore s c ?_).trans (sourcesOnly_countB _ 0x4F 1 []).eventsOnly
      exact fun _ => rfl
  · exact (SourcesOnly.refl s []).eventsOnly

theorem wentQuiet_src (s : State) (v : Source) (n : Nat) : (s.wentQuiet v).src n = s.src n := by
  unfold State.wentQuiet
  split
  · split
    · rfl
    · rw [src_congr (State.countB_ev ..)]; rfl
  · rfl

/-- A source's input takes its level, whatever it raises (R326, R329). -/
theorem setLevel_takes {s : State} (n : Fin 512) (level : Bool) (p : Word) (hm : s.power.mainRst = false) :
    EventsOnly s (s.setLevel n level p) ∧ ((s.setLevel n level p).src n.val).level = level := by
  obtain ⟨s1, hs1⟩ : ∃ s1, s1 = s.setSrc n.val { s.src n.val with level := level } := ⟨_, rfl⟩
  have set : EventsOnly s s1 := by rw [hs1]; exact (sourcesOnly_setSrc ..).eventsOnly
  have self : (s1.src n.val).level = level := by rw [hs1, src_setSrc_self]
  have raised : EventsOnly s (s1.raiseNow n.val p) ∧ ((s1.raiseNow n.val p).src n.val).level = level :=
    ⟨set.trans (sourcesOnly_raiseAt ..).eventsOnly, (raiseAt_level ..).trans self⟩
  unfold State.setLevel
  simp only [hm, Bool.false_eq_true, if_false, ← hs1]
  split
  · exact ⟨set, self⟩
  split
  · split
    · split
      · exact raised
      · exact ⟨set, self⟩
    · refine ⟨(set.trans (sourcesOnly_setSrc ..).eventsOnly).trans (eventsOnly_wentQuiet ..), ?_⟩
      rw [wentQuiet_src, src_setSrc_self]; exact self
  · split
    · exact raised
    · exact ⟨set, self⟩

/-! ## Input instances (R449, R453, R454) -/

/-- Only what the input instances have captured, and the record of a conflict, differ. -/
def CaptureOnly (s t : State) : Prop :=
  t = { s with gpio := { s.gpio with conflict := t.gpio.conflict, calt := t.gpio.calt, cinst := t.gpio.cinst, capPrev := t.gpio.capPrev,
                                     cap := t.gpio.cap, capNew := t.gpio.capNew } }

theorem CaptureOnly.trans {s t u : State} (h1 : CaptureOnly s t) (h2 : CaptureOnly t u) : CaptureOnly s u := by
  unfold CaptureOnly at *
  rw [h2, h1]

theorem captureOnly_foldl {α : Type} {f : State → α → State} (hf : ∀ s a, CaptureOnly s (f s a)) (l : List α) (s : State) :
    CaptureOnly s (l.foldl f s) := by
  induction l generalizing s with
  | nil => rfl
  | cons a l ih => exact (hf s a).trans (ih _)

theorem pinInputs_captures (s : State) (edge : Bool) : CaptureOnly s (s.pinInputs edge) := by
  unfold State.pinInputs
  dsimp only
  refine CaptureOnly.trans ?_ (captureOnly_foldl (fun s n => ?_) _ _)
  · split <;> rfl
  · split <;> rfl

/-! ## The filter (R448, R452) -/

/-- The filtered input of pin `k` has seen its synchronised input: other pins' filtered inputs, all other fields of the pins' registers, and
the units that an input does not reach are as they were. -/
def PinReach (s t : State) (k : Fin 64) : Prop :=
  (∀ j < 64, j ≠ k.val → t.gpio.fin.getLsbD j = s.gpio.fin.getLsbD j) ∧ t.gpio.sync = s.gpio.sync ∧ t.gpio.fcnt = s.gpio.fcnt ∧
  t.gpio.fmode = s.gpio.fmode ∧ UnitsKept s t

theorem PinReach.trans {s t u : State} {k : Fin 64} (h1 : PinReach s t k) (h2 : PinReach t u k) : PinReach s u k := by
  obtain ⟨fin1, sync1, fcnt1, fmode1, units1⟩ := h1
  obtain ⟨fin2, sync2, fcnt2, fmode2, units2⟩ := h2
  exact ⟨fun j hj hk => (fin2 j hj hk).trans (fin1 j hj hk), sync2.trans sync1, fcnt2.trans fcnt1, fmode2.trans fmode1,
    units1.trans units2⟩

theorem PinReach.refl (s : State) (k : Fin 64) : PinReach s s k := ⟨fun _ _ _ => rfl, rfl, rfl, rfl, rfl, rfl, fun _ _ => rfl⟩

theorem pinReach_filterRun (s : State) (k : Fin 64) (b : Bool) : PinReach s (s.filterRun k b) k :=
  ⟨fun _ _ _ => rfl, rfl, rfl, rfl, rfl, rfl, fun _ _ => rfl⟩

theorem filterRun_frun (s : State) (k : Fin 64) (b : Bool) : (s.filterRun k b).gpio.frun.getLsbD k.val = b := putBit_self _ _ _

/-- The filtered input of a pin takes a level, and its source sees it where it is new. -/
theorem pinTake_takes {s : State} (k : Fin 64) (level : Bool) (hm : s.power.mainRst = false) :
    PinReach s (s.pinTake k level) k ∧ (s.pinTake k level).gpio.fin.getLsbD k.val = level ∧
    (s.pinTake k level).gpio.frun = s.gpio.frun ∧
    ((s.pinTake k level).src k.val).level = if s.gpio.fin.getLsbD k.val = level then (s.src k.val).level else level := by
  by_cases h : s.gpio.fin.getLsbD k.val = level
  · have same : s.pinTake k level = s := if_pos h
    rw [same, if_pos h]
    exact ⟨.refl s k, h, rfl, rfl⟩
  · let s1 := s.modGpio fun g => { g with fin := putBit g.fin k.val level }
    have take : s.pinTake k level = (s1.setLevel ⟨k.val, by omega⟩ level (s1.levelPayload k.val)).pinInputs true := if_neg h
    obtain ⟨⟨⟨spad, rst, ctx⟩, gpio⟩, src⟩ := setLevel_takes (s := s1) ⟨k.val, by omega⟩ level (s1.levelPayload k.val) hm
    have captured := pinInputs_captures (s1.setLevel ⟨k.val, by omega⟩ level (s1.levelPayload k.val)) true
    rw [← take] at captured
    generalize s1.setLevel ⟨k.val, by omega⟩ level (s1.levelPayload k.val) = s2 at *
    rw [if_neg h]
    refine ⟨⟨fun j hj hk => ?_, ?_, ?_, ?_, ?_, ?_, fun c x => ?_⟩, ?_, ?_, ?_⟩
    case refine_1 => rw [captured]; dsimp only; rw [gpio]; exact (putBit_getLsbD _ _ _ hj).trans (if_neg hk)
    case refine_8 => rw [captured]; dsimp only; rw [gpio]; exact putBit_self ..
    case refine_10 => rw [captured]; exact src
    case refine_5 => rw [captured]; exact spad
    case refine_6 => rw [captured]; exact rst
    case refine_7 => rw [captured]; exact ctx c x
    all_goals rw [captured]; dsimp only; rw [gpio]; rfl

theorem pinReach_filterSee {s : State} (k : Fin 64) (hm : s.power.mainRst = false) : PinReach s (s.filterSee k) k := by
  obtain ⟨taken, -⟩ := pinTake_takes (s := s) k (s.gpio.sync.getLsbD k.val) hm
  obtain ⟨passed, -⟩ := pinTake_takes (s := s.filterRun k false) k (s.gpio.sync.getLsbD k.val) hm
  unfold State.filterSee
  dsimp only
  split
  · exact (pinReach_filterRun s k false).trans passed
  split
  · split
    · exact .refl s k
    · exact taken.trans (pinReach_filterRun ..)
  · exact pinReach_filterRun ..

/-- A filter that is off passes the synchronised input on (R452). -/
theorem filterSee_off {s : State} {k : Fin 64} (hm : s.power.mainRst = false) (ho : s.gpio.filterOff k = true) :
    (s.filterSee k).gpio.fin.getLsbD k.val = s.gpio.sync.getLsbD k.val ∧ (s.filterSee k).gpio.frun.getLsbD k.val = false ∧
    ((s.filterSee k).src k.val).level =
      if s.gpio.fin.getLsbD k.val = s.gpio.sync.getLsbD k.val then (s.src k.val).level else s.gpio.sync.getLsbD k.val := by
  have see : s.filterSee k = (s.filterRun k false).pinTake k (s.gpio.sync.getLsbD k.val) := if_pos ho
  obtain ⟨-, fin, frun, level⟩ := pinTake_takes (s := s.filterRun k false) k (s.gpio.sync.getLsbD k.val) hm
  rw [see]
  exact ⟨fin, by rw [frun]; exact filterRun_frun .., level⟩

/-- Mode 0b10 takes a new level at once and then counts (R452). -/
theorem filterSee_lockout {s : State} {k : Fin 64} (hm : s.power.mainRst = false) (ho : s.gpio.filterOff k = false)
    (h2 : s.gpio.fmode[k] = 2) (hr : s.gpio.frun.getLsbD k.val = false) :
    (s.filterSee k).gpio.fin.getLsbD k.val = s.gpio.sync.getLsbD k.val ∧
    (s.filterSee k).gpio.frun.getLsbD k.val = (s.gpio.fin.getLsbD k.val != s.gpio.sync.getLsbD k.val) := by
  by_cases hf : s.gpio.fin.getLsbD k.val = s.gpio.sync.getLsbD k.val
  · have see : s.filterSee k = s := by
      simp only [State.filterSee, ho, h2, hf, Bool.false_eq_true, if_false, if_true, or_true]
    rw [see, hr, hf, bne_self_eq_false]
    exact ⟨rfl, rfl⟩
  · have see : s.filterSee k = (s.pinTake k (s.gpio.sync.getLsbD k.val)).filterRun k true := by
      simp only [State.filterSee, ho, h2, hr, hf, Bool.false_eq_true, if_false, if_true, or_self]
    obtain ⟨-, fin, -, -⟩ := pinTake_takes k (s.gpio.sync.getLsbD k.val) hm
    rw [see, filterRun_frun, bne_iff_ne.mpr hf]
    exact ⟨fin, rfl⟩

/-- The other modes count while the input differs, and take nothing meanwhile (R452). -/
theorem filterSee_counts {s : State} {k : Fin 64} (ho : s.gpio.filterOff k = false) (h2 : s.gpio.fmode[k] ≠ 2) :
    (s.filterSee k).gpio.fin = s.gpio.fin ∧
    (s.filterSee k).gpio.frun.getLsbD k.val = (s.gpio.fin.getLsbD k.val != s.gpio.sync.getLsbD k.val) := by
  have see : s.filterSee k = s.filterRun k (s.gpio.fin.getLsbD k.val != s.gpio.sync.getLsbD k.val) := by
    simp only [State.filterSee, ho, h2, Bool.false_eq_true, if_false]
  rw [see, filterRun_frun]
  exact ⟨rfl, rfl⟩

theorem filterOff_mode0 {g : Gpio} {k : Fin 64} (h : g.fmode[k] = 0) : g.filterOff k = true := by
  simp only [Gpio.filterOff, h]; rfl

theorem filterOff_mode2 {g : Gpio} {k : Fin 64} (h : g.fmode[k] = 2) (hc : g.fcnt[k] ≠ 0) : g.filterOff k = false := by
  simp only [Gpio.filterOff, h]
  exact beq_false_of_ne hc

theorem filterOff_count {g : Gpio} {k : Fin 64} (h : g.fmode[k] = 1 ∨ g.fmode[k] = 3) (hc : 2 ≤ g.fcnt[k].toNat) :
    g.filterOff k = false := by
  have few : ¬g.fcnt[k].toNat ≤ 1 := by omega
  rcases h with h | h <;> simp only [Gpio.filterOff, h] <;> exact decide_eq_false few

end Sys2Proof.Machine
end

section
/-! Pins: inputs, port writes, registers (R112, R113, R325, R448 to R457). -/

namespace Sys2Proof.Machine

open Sys2Proof

/-! ## Inputs and filters (R325, R448, R452) -/

/-- The synchronised input of a pin changes, and the filter sees it. -/
theorem pinInputChange_sees {s : State} (k : Fin 64) (level : Bool) (hm : s.power.mainRst = false) :
    ∃ s1, exec (.pinInputChange k level) s = .next (s1.filterSee k) ∧ s1 = s.modGpio fun g => { g with sync := putBit g.sync k.val level } := by
  refine ⟨_, ?_, rfl⟩
  show execPinInputChange k level s = _
  simp only [execPinInputChange, hm, Bool.false_eq_true, if_false]

theorem gpioFilterExpiry_takes {s : State} {k : Fin 64} (hm : s.power.mainRst = false) (hr : s.gpio.frun.getLsbD k.val = true) :
    exec (.gpioFilterExpiry k) s = .next ((s.filterRun k false).pinTake k (s.gpio.sync.getLsbD k.val)) := by
  show execGpioFilterExpiry k s = _
  simp only [execGpioFilterExpiry, hm, hr, Bool.not_true, Bool.or_self, Bool.false_eq_true, if_false]

/-! ## Port writes (R113, R455) -/

theorem flatMap_filter {α β : Type} (f : α → List β) (p : α → Bool) (l : List α) (h : ∀ a, p a = false → f a = []) :
    (l.filter p).flatMap f = l.flatMap f := by
  induction l with
  | nil => rfl
  | cons a l ih =>
    cases hp : p a with
    | true => rw [List.filter_cons_of_pos hp, List.flatMap_cons, List.flatMap_cons, ih]
    | false =>
      rw [List.filter_cons_of_neg (by simp [hp]), List.flatMap_cons, ih, h a hp]; rfl

/-- Port writes in ascending core order (R113). -/
def ascending (ws : List (CoreId × BitVec 64 × BitVec 64)) : List (CoreId × BitVec 64 × BitVec 64) :=
  (List.finRange 16).flatMap fun c => ws.filter fun w => w.1 == c

theorem ascending_one (c : CoreId) (q : BitVec 64 × BitVec 64) : ascending [(c, q)] = [(c, q)] := by
  have only : (List.finRange 16).filter (fun e => e == c) = [c] := by revert c; decide +kernel
  rw [ascending, ← flatMap_filter _ (fun e => e == c), only]
  · simp
  · intro e he
    have : ¬c = e := fun q => by simp [q] at he
    simp [this]

theorem ascending_two {c d : CoreId} (h : c.val < d.val) (p q : BitVec 64 × BitVec 64) : ascending [(d, q), (c, p)] = [(c, p), (d, q)] := by
  have both : (List.finRange 16).filter (fun e => e == c || e == d) = [c, d] := by revert c d; decide +kernel
  have ne : ¬c = d := fun q => by simp [q] at h
  rw [ascending, ← flatMap_filter _ (fun e => e == c || e == d), both]
  · simp [ne, Ne.symm ne]
  · intro e he
    have h1 : ¬c = e := fun q => by simp [q] at he
    have h2 : ¬d = e := fun q => by simp [q] at he
    simp [h1, h2]

/-- One port write at the unit (R451, R457). -/
def Gpio.portWrite (g : Gpio) (m d : BitVec 64) : Gpio := { g with out := (g.out &&& ~~~m) ||| (d &&& m), slh := g.slh &&& ~~~m }

theorem pinWriteApply_ascending {s : State} (hm : s.power.mainRst = false) :
    exec .pinWriteApply s = .next (s.modGpio fun g =>
      { (ascending g.writes).foldl (fun g w => g.portWrite w.2.1 w.2.2) g with writes := [] }) := by
  show execPinWriteApply s = _
  simp only [execPinWriteApply, hm, Bool.false_eq_true, if_false]
  rfl

/-! ## Registers (R450) -/

/-- A write that its agent may make goes to its register. -/
theorem writeBy_may {s : State} {w : Agent} {a : Word} {r : Reg} (ha : regAt a = some r) (h : MayWrite s w r) (v : Word) :
    s.writeBy w a v = s.regWrite w r v := by
  obtain ⟨nap, can, may⟩ := h
  simp only [State.writeBy, ha, nap, can, may, Bool.not_true, Bool.false_eq_true, if_false]

/-- Where the registers of the pins lie. -/
theorem regAt_gpio {a : Word} {o : Nat} (ha : a.toNat = 0x30090000 + o * 4) (ho : o < 0x4000) : regAt a = gpioReg o := by
  have inside : ¬(a.toNat < 0x30000000 ∨ 0x3F000000 ≤ a.toNat) := by omega
  have past : ¬a.toNat - 0x30000000 < 0x10000 := by omega
  have page : (a.toNat - 0x30000000) / 0x10000 = 9 := by omega
  have word : (a.toNat - 0x30000000) % 0x10000 / 4 = o := by omega
  unfold regAt
  refine (if_neg inside).trans ((if_neg past).trans ?_)
  rw [page, word]
  rfl

theorem gpioReg_gpMux : ∀ j : Fin 8, gpioReg j.val = some (.gpMux j) := by decide +kernel

theorem gpioReg_gpFilt : ∀ k : Fin 64, gpioReg (0x40 + k.val) = some (.gpFilt k) := by decide +kernel

theorem gpioReg_gpOwn : ∀ (c : CoreId) (hi : Bool), gpioReg (0x80 + c.val * 2 + hi.toNat) = some (.gpOwn c hi) := by decide +kernel

theorem exec_gpMuxWrite {s : State} {w : Agent} {j : Fin 8} (v : Word) (h : MayWrite s w (.gpMux j)) :
    exec (.gpMuxWrite w j v) s = .next (s.gpMuxWrite w j v) := by
  have at_ := regAt_gpio (a := BitVec.ofNat 32 (0x30090000 + j.val * 4)) (o := j.val) (by rw [BitVec.toNat_ofNat]; omega) (by omega)
  exact congrArg Host.Outcome.next (writeBy_may (at_.trans (gpioReg_gpMux j)) h v)

theorem exec_gpFiltWrite {s : State} {w : Agent} {k : Fin 64} (v : Word) (h : MayWrite s w (.gpFilt k)) :
    exec (.gpFiltWrite w k v) s = .next (s.gpFiltWrite w k v) := by
  have at_ := regAt_gpio (a := BitVec.ofNat 32 (0x30090100 + k.val * 4)) (o := 0x40 + k.val) (by rw [BitVec.toNat_ofNat]; omega) (by omega)
  exact congrArg Host.Outcome.next (writeBy_may (at_.trans (gpioReg_gpFilt k)) h v)

theorem exec_gpOwnWrite {s : State} {w : Agent} {c : CoreId} {hi : Bool} (v : Word) (h : MayWrite s w (.gpOwn c hi)) :
    exec (.gpOwnWrite w c hi v) s = .next (s.gpOwnWrite w c hi v) := by
  have value : (BitVec.ofNat 32 (0x30090200 + c.val * 8 + if hi then 4 else 0)).toNat = 0x30090000 + (0x80 + c.val * 2 + hi.toNat) * 4 := by
    rw [BitVec.toNat_ofNat]
    cases hi <;> simp only [Bool.false_eq_true, if_false, if_true, Bool.toNat_false, Bool.toNat_true] <;> omega
  have at_ := regAt_gpio value (by cases hi <;> simp only [Bool.toNat_false, Bool.toNat_true] <;> omega)
  exact congrArg Host.Outcome.next (writeBy_may (at_.trans (gpioReg_gpOwn c hi)) h v)

/-! ## Fields of eight pins (R450, R454) -/

/-- Pin `i` of the eight of register `j`. -/
theorem pinOf_eq_iff (j i : Fin 8) (k : Fin 64) : (pinOf j i).val = k.val ↔ k.val / 8 = j.val ∧ k.val % 8 = i.val := by
  simp only [pinOf]; omega

/-- One field of `muxTake`. -/
def muxPut (j : Fin 8) (m : BitVec 64) (v : Word) (f : Vector (BitVec 3) 64) (i : Fin 8) : Vector (BitVec 3) 64 :=
  if m.getLsbD (pinOf j i).val then f.set (pinOf j i) (bits v (4 * i.val) 3) else f

theorem muxPut_get (j : Fin 8) (m : BitVec 64) (v : Word) (f : Vector (BitVec 3) 64) (i : Fin 8) (k : Fin 64) :
    (muxPut j m v f i)[k.val] =
      if k.val / 8 = j.val ∧ k.val % 8 = i.val ∧ m.getLsbD k.val = true then bits v (4 * (k.val % 8)) 3 else f[k.val] := by
  have here := pinOf_eq_iff j i k
  unfold muxPut
  by_cases hp : (pinOf j i).val = k.val
  · obtain ⟨hj, hi⟩ := here.mp hp
    obtain rfl : pinOf j i = k := Fin.ext hp
    rw [hj, hi]
    simp only [true_and]
    split
    · exact Vector.getElem_set_self _
    · rfl
  · have other : ¬(k.val / 8 = j.val ∧ k.val % 8 = i.val ∧ m.getLsbD k.val = true) := fun h => hp (here.mpr ⟨h.1, h.2.1⟩)
    rw [if_neg other]
    split
    · exact Vector.getElem_set_ne _ _ hp
    · rfl

theorem foldl_muxPut_get (j : Fin 8) (m : BitVec 64) (v : Word) (k : Fin 64) (l : List (Fin 8)) (f : Vector (BitVec 3) 64) :
    (l.foldl (muxPut j m v) f)[k.val] =
      if k.val / 8 = j.val ∧ (∃ i ∈ l, k.val % 8 = i.val) ∧ m.getLsbD k.val = true then bits v (4 * (k.val % 8)) 3 else f[k.val] := by
  induction l generalizing f with
  | nil => simp
  | cons i l ih =>
    rw [List.foldl_cons, ih, muxPut_get, ← ite_or]
    refine if_congr ?_ rfl rfl
    rw [List.exists_mem_cons_iff, or_comm, ← and_or_left, ← or_and_right]

theorem muxTake_get (f : Vector (BitVec 3) 64) (j : Fin 8) (m : BitVec 64) (v : Word) (k : Fin 64) :
    (muxTake f j m v)[k.val] = if k.val / 8 = j.val ∧ m.getLsbD k.val = true then bits v (4 * (k.val % 8)) 3 else f[k.val] := by
  have all : ∃ i ∈ List.finRange 8, k.val % 8 = i.val := ⟨⟨k.val % 8, by omega⟩, List.mem_finRange _, rfl⟩
  refine (foldl_muxPut_get j m v k (List.finRange 8) f).trans (if_congr ?_ rfl rfl)
  rw [and_iff_right all]

/-- A write of GP_MUXj: the fields of the writer's pins, which leave their sleep state (R450, R457). -/
theorem gpMuxWrite_fields (s : State) (w : Agent) (j : Fin 8) (v : Word) :
    let t := s.gpMuxWrite w j v
    (∀ k : Fin 64, t.gpio.mux[k] = if k.val / 8 = j.val ∧ (s.pinMask w).getLsbD k.val = true then BitVec.ofNat 3 (v.toNat / 16 ^ (k.val % 8))
      else s.gpio.mux[k]) ∧
    (∀ k < 64, t.gpio.slh.getLsbD k = (s.gpio.slh.getLsbD k && !(decide (k / 8 = j.val) && (s.pinMask w).getLsbD k))) ∧
    t.gpio.out = s.gpio.out ∧ t.gpio.oe = s.gpio.oe ∧ t.gpio.fin = s.gpio.fin ∧ UnitsKept s t := by
  have captured := pinInputs_captures (s.modGpio fun g =>
    { g with mux := muxTake g.mux j (s.pinMask w &&& ((0xFF#64) <<< (8 * j.val))) v }.wakePins
      (s.pinMask w &&& ((0xFF#64) <<< (8 * j.val)))) false
  change CaptureOnly _ (s.gpMuxWrite w j v) at captured
  intro t
  rw [show s.gpMuxWrite w j v = t from rfl] at captured
  have mask : ∀ {k : Nat}, k < 64 → (s.pinMask w &&& ((0xFF#64) <<< (8 * j.val))).getLsbD k =
      (decide (k / 8 = j.val) && (s.pinMask w).getLsbD k) := by
    intro k hk
    rw [BitVec.getLsbD_and, eightPins_getLsbD j hk, Bool.and_comm]
  refine ⟨fun k => ?_, fun k hk => ?_, ?_, ?_, ?_, ?_, ?_, fun c x => ?_⟩
  case refine_1 =>
    rw [captured]
    refine (muxTake_get _ j _ v k).trans ?_
    have field : bits v (4 * (k.val % 8)) 3 = BitVec.ofNat 3 (v.toNat / 16 ^ (k.val % 8)) := by
      rw [bits_eq_ofNat, pow_mul, show 2 ^ 4 = 16 from rfl]
    rw [mask k.isLt, field]
    simp
  case refine_2 =>
    rw [captured]
    show (s.gpio.slh &&& ~~~_).getLsbD k = _
    rw [BitVec.getLsbD_and, BitVec.getLsbD_not, mask hk]
    simp [hk]
  all_goals rw [captured]; rfl

/-! ## GP_FILTk (R452) -/

/-- The pin's fields as a write of GP_FILTk leaves them, before the filter sees the input again. -/
def State.filtSet (s : State) (k : Fin 64) (v : Word) : State :=
  (if bits v 8 2 = s.gpio.fmode[k] then s else s.filterRun k false).modGpio fun g =>
    { g with fcnt := g.fcnt.set k (bits v 0 8), fmode := g.fmode.set k (bits v 8 2) }

theorem gpFiltWrite_may {s : State} {w : Agent} {k : Fin 64} (v : Word) (h : (s.pinMask w).getLsbD k.val = true) :
    s.gpFiltWrite w k v = (s.filtSet k v).filterSee k := if_pos h

theorem filtSet_fields (s : State) (k : Fin 64) (v : Word) :
    (s.filtSet k v).gpio = { s.gpio with frun := (s.filtSet k v).gpio.frun, fcnt := s.gpio.fcnt.set k (bits v 0 8),
                                         fmode := s.gpio.fmode.set k (bits v 8 2) } ∧ UnitsKept s (s.filtSet k v) := by
  unfold State.filtSet
  split <;> exact ⟨rfl, rfl, rfl, fun _ _ => rfl⟩

/-! ## GP_OWNc (R450) -/

/-- The writers of GP_OWNc: secure-privileged contexts, the ring agent and debug. -/
def mayOwn (s : State) (w : Agent) : Prop := w ≠ .fabric ∧ ∀ d x, w = .ctx d x → (s.ctx d x).priv = 3

theorem gpOwnWrite_may (s : State) (w : Agent) (c : CoreId) (hi : Bool) (v : Word) :
    (mayOwn s w → s.gpOwnWrite w c hi v = s.modGpio fun g =>
      { g with own := g.own.set c (mixBits g.own[c] (half hi v) (half hi 0xFFFFFFFF)) }) ∧
    (¬mayOwn s w → s.gpOwnWrite w c hi v = s) := by
  cases w with
  | ctx d x =>
    have level : mayOwn s (.ctx d x) ↔ (s.ctx d x).priv = 3 := by simp [mayOwn]
    rw [level]
    exact ⟨fun h => if_pos (beq_iff_eq.mpr h), fun h => if_neg fun q => h (beq_iff_eq.mp q)⟩
  | ring => simp [mayOwn, State.gpOwnWrite]
  | debug => simp [mayOwn, State.gpOwnWrite]
  | fabric => simp [mayOwn, State.gpOwnWrite]

theorem own_half (old : BitVec 64) (hi : Bool) (v : Word) {k : Nat} (hk : k < 64) :
    (mixBits old (half hi v) (half hi 0xFFFFFFFF)).getLsbD k = if k / 32 = (if hi then 1 else 0) then v.getLsbD (k % 32) else old.getLsbD k := by
  have ones : (0xFFFFFFFF : Word).getLsbD (k % 32) = true := by
    rw [show (0xFFFFFFFF : Word) = BitVec.allOnes 32 from rfl, BitVec.getLsbD_allOnes]
    exact decide_eq_true (by omega)
  rw [mixBits_getLsbD _ _ _ hk, half_getLsbD hi _ hk, half_getLsbD hi _ hk, ones]
  by_cases h : k / 32 = if hi then 1 else 0 <;> simp [h]

/-! ## The clauses -/

/-- An input and its filter (R325, R448, R452). -/
theorem pinInputChange_filtered {s : State} (k : Fin 64) (level : Bool) (hm : s.power.mainRst = false) :
    ∃ t, exec (.pinInputChange k level) s = .next t ∧
      (∀ j < 64, t.gpio.sync.getLsbD j = if j = k.val then level else s.gpio.sync.getLsbD j) ∧
      (∀ j < 64, j ≠ k.val → t.gpio.fin.getLsbD j = s.gpio.fin.getLsbD j) ∧ UnitsKept s t ∧
      (s.gpio.fmode[k] = 0 → t.gpio.fin.getLsbD k.val = level ∧ t.gpio.frun.getLsbD k.val = false ∧ (t.src k.val).level =
        if s.gpio.fin.getLsbD k.val = level then (s.src k.val).level else level) ∧
      (s.gpio.fmode[k] = 2 → s.gpio.fcnt[k] ≠ 0 → s.gpio.frun.getLsbD k.val = false → t.gpio.fin.getLsbD k.val = level ∧
        t.gpio.frun.getLsbD k.val = (s.gpio.fin.getLsbD k.val != level)) ∧
      ((s.gpio.fmode[k] = 1 ∨ s.gpio.fmode[k] = 3) → 2 ≤ s.gpio.fcnt[k].toNat →
        t.gpio.fin.getLsbD k.val = s.gpio.fin.getLsbD k.val ∧ t.gpio.frun.getLsbD k.val = (s.gpio.fin.getLsbD k.val != level)) := by
  obtain ⟨s1, sees, hs1⟩ := pinInputChange_sees k level hm
  have hm1 : s1.power.mainRst = false := by rw [hs1]; exact hm
  have fmode1 : s1.gpio.fmode = s.gpio.fmode := by rw [hs1]; rfl
  have fcnt1 : s1.gpio.fcnt = s.gpio.fcnt := by rw [hs1]; rfl
  have fin1 : s1.gpio.fin = s.gpio.fin := by rw [hs1]; rfl
  have frun1 : s1.gpio.frun = s.gpio.frun := by rw [hs1]; rfl
  have src1 : s1.src k.val = s.src k.val := by rw [hs1]; rfl
  have sync1 : s1.gpio.sync = putBit s.gpio.sync k.val level := by rw [hs1]; rfl
  have sync1k : s1.gpio.sync.getLsbD k.val = level := by rw [sync1, putBit_self]
  have units1 : UnitsKept s s1 := by rw [hs1]; exact unitsKept_modGpio ..
  obtain ⟨fin, sync, -, -, units⟩ := pinReach_filterSee k hm1
  refine ⟨_, sees, fun j hj => ?_, fun j hj hk => ?_, units1.trans units, fun h0 => ?_, fun h2 hc hr => ?_, fun h hc => ?_⟩
  · rw [sync, sync1, putBit_getLsbD _ _ _ hj]
  · rw [fin j hj hk, fin1]
  · obtain ⟨fin, frun, level⟩ := filterSee_off hm1 (filterOff_mode0 (by rw [fmode1, h0]))
    rw [sync1k, fin1, src1] at level
    exact ⟨fin.trans sync1k, frun, level⟩
  · have h2' : s1.gpio.fmode[k] = 2 := by rw [fmode1, h2]
    have see := filterSee_lockout hm1 (filterOff_mode2 h2' (by rw [fcnt1]; exact hc)) h2' (by rw [frun1, hr])
    rwa [sync1k, fin1] at see
  · have h' : s1.gpio.fmode[k] = 1 ∨ s1.gpio.fmode[k] = 3 := by rwa [fmode1]
    have h2 : s1.gpio.fmode[k] ≠ 2 := by rcases h' with e | e <;> rw [e] <;> decide
    obtain ⟨fin, frun⟩ := filterSee_counts (filterOff_count h' (by rwa [fcnt1])) h2
    rw [sync1k, fin1] at frun
    exact ⟨by rw [fin, fin1], frun⟩

/-- The end of a filter's count. -/
theorem gpioFilterExpiry_reach {s : State} {k : Fin 64} (hm : s.power.mainRst = false) (hr : s.gpio.frun.getLsbD k.val = true) :
    ∃ t, exec (.gpioFilterExpiry k) s = .next t ∧ t.gpio.frun.getLsbD k.val = false ∧
      t.gpio.fin.getLsbD k.val = s.gpio.sync.getLsbD k.val ∧ PinReach s t k := by
  obtain ⟨reach, fin, frun, -⟩ := pinTake_takes (s := s.filterRun k false) k (s.gpio.sync.getLsbD k.val) hm
  exact ⟨_, gpioFilterExpiry_takes hm hr, by rw [frun, filterRun_frun], fin, (pinReach_filterRun s k false).trans reach⟩

/-- A write of GP_FILTk by a context that may drive the pin (R452). -/
theorem gpFiltWrite_takes {s : State} {w : Agent} {k : Fin 64} (v : Word) (hm : s.power.mainRst = false)
    (h : (s.pinMask w).getLsbD k.val = true) :
    let t := s.gpFiltWrite w k v
    t.gpio.fcnt = s.gpio.fcnt.set k (BitVec.ofNat 8 v.toNat) ∧ t.gpio.fmode = s.gpio.fmode.set k (BitVec.ofNat 2 (v.toNat / 256)) ∧
    (v.toNat / 256 % 4 = 0 → t.gpio.fin.getLsbD k.val = s.gpio.sync.getLsbD k.val) ∧
    (∀ j < 64, j ≠ k.val → t.gpio.fin.getLsbD j = s.gpio.fin.getLsbD j) ∧ UnitsKept s t := by
  obtain ⟨gpio, units⟩ := filtSet_fields s k v
  have mode : bits v 8 2 = BitVec.ofNat 2 (v.toNat / 256) := bits_eq_ofNat v 8 2
  have count : bits v 0 8 = BitVec.ofNat 8 v.toNat := by rw [bits_eq_ofNat, pow_zero, Nat.div_one]
  rw [mode, count] at gpio
  rw [gpFiltWrite_may v h]
  generalize s.filtSet k v = s1 at *
  have hm1 : s1.power.mainRst = false := by obtain ⟨-, rst, -⟩ := units; rw [rst, hm]
  have fin1 : s1.gpio.fin = s.gpio.fin := by rw [gpio]
  have sync1 : s1.gpio.sync = s.gpio.sync := by rw [gpio]
  have fcnt1 : s1.gpio.fcnt = s.gpio.fcnt.set k (BitVec.ofNat 8 v.toNat) := by rw [gpio]
  have fmode1 : s1.gpio.fmode = s.gpio.fmode.set k (BitVec.ofNat 2 (v.toNat / 256)) := by rw [gpio]
  obtain ⟨fin, -, fcnt, fmode, seen⟩ := pinReach_filterSee k hm1
  refine ⟨fcnt.trans fcnt1, fmode.trans fmode1, fun h0 => ?_, fun j hj hk => ?_, units.trans seen⟩
  · have off : s1.gpio.fmode[k] = 0 := by
      rw [fmode1]
      refine (Vector.getElem_set_self _).trans (BitVec.eq_of_toNat_eq ?_)
      rw [BitVec.toNat_ofNat]
      exact h0
    obtain ⟨passed, -⟩ := filterSee_off hm1 (filterOff_mode0 off)
    rw [passed, sync1]
  · rw [fin j hj hk, fin1]

/-- A write of GP_OWNc by an agent that may make it (R450). -/
theorem gpOwnWrite_takes {s : State} {w : Agent} (c : CoreId) (hi : Bool) (v : Word) (h : mayOwn s w) :
    let t := s.gpOwnWrite w c hi v
    t = { s with gpio := { s.gpio with own := t.gpio.own } } ∧ (∀ d, d ≠ c → t.gpio.own[d] = s.gpio.own[d]) ∧
    ∀ k < 64, (t.gpio.own[c]).getLsbD k = if k / 32 = (if hi then 1 else 0) then v.getLsbD (k % 32) else (s.gpio.own[c]).getLsbD k := by
  rw [(gpOwnWrite_may s w c hi v).1 h]
  refine ⟨rfl, fun d hd => ?_, fun k hk => ?_⟩
  · exact Vector.getElem_set_ne c.isLt d.isLt fun e => hd (Fin.ext e.symm)
  · rw [← own_half _ hi v hk]
    exact congrArg (BitVec.getLsbD · k) (Vector.getElem_set_self _)

/-- Settles O53: the pin's own source, filter and register change as the clauses say, and `UnitsKept` carries the frame. -/
theorem pinsFollow : Obligations.PinsFollow := by
  intro s w hm g same rest
  have frame : ∀ {t}, UnitsKept s t → rest t := fun ⟨spad, rst, ctx⟩ => ⟨spad, rst.trans hm, ctx⟩
  refine ⟨fun k level => ?_, fun k hr => ?_, fun c m d hw => ?_, fun c d m a n b hcd hw => ?_, fun j v h => ?_,
    fun k v h => ⟨fun hp => ?_, fun hp => ?_⟩, fun c hi v h => ⟨fun hn => ?_, fun hmay => ?_⟩⟩
  · obtain ⟨t, run, sync, fin, units, modes⟩ := pinInputChange_filtered k level hm
    exact ⟨t, run, sync, fin, frame units, modes⟩
  · obtain ⟨t, run, frun, taken, fin, -, -, -, units⟩ := gpioFilterExpiry_reach hm hr
    exact ⟨t, run, frun, taken, fin, frame units⟩
  · rw [pinWriteApply_ascending hm, State.modGpio, hw, ascending_one]
    rfl
  · rw [pinWriteApply_ascending hm, State.modGpio, hw, ascending_two hcd]
    rfl
  · obtain ⟨mux, slh, out, oe, fin, units⟩ := gpMuxWrite_fields s w j v
    exact ⟨_, exec_gpMuxWrite v h, mux, slh, out, oe, fin, frame units⟩
  · rw [exec_gpFiltWrite v h]
    exact congrArg _ (if_neg (by rw [hp]; exact Bool.false_ne_true))
  · obtain ⟨fcnt, fmode, off, fin, units⟩ := gpFiltWrite_takes v hm hp
    exact ⟨_, exec_gpFiltWrite v h, fcnt, fmode, off, fin, frame units⟩
  · rw [exec_gpOwnWrite v h, (gpOwnWrite_may s w c hi v).2 hn]
  · exact ⟨_, exec_gpOwnWrite v h, gpOwnWrite_takes c hi v hmay⟩

end Sys2Proof.Machine
end

section
/-! SUPPORT. What raises and the freeing of entries and queues leave of the transit engine (R202, R208, R230, R233, R325). -/

namespace Sys2Proof.Machine

open Sys2Proof

/-! ## Event sources leave the engine alone -/

theorem SourcesOnly.transit {s t : State} {l : List Nat} (h : SourcesOnly s t l) : t.transit = s.transit := by
  obtain ⟨-, -, rest⟩ := h
  rw [rest]

@[simp] theorem raiseNow_transit (s : State) (n : Nat) (p : Word) : (s.raiseNow n p).transit = s.transit :=
  (sourcesOnly_raiseAt ..).transit

@[simp] theorem raise_transit (s : State) (n : Fin 512) (p : Word) : (s.raise n p).transit = s.transit := by
  unfold State.raise
  split
  · split <;> rfl
  · exact raiseNow_transit ..

@[simp] theorem wentQuiet_transit (s : State) (v : Source) : (s.wentQuiet v).transit = s.transit := by
  unfold State.wentQuiet
  split
  · split
    · rfl
    · rw [State.countB_transit, State.modCore_transit]
  · rfl

@[simp] theorem setLevel_transit (s : State) (n : Fin 512) (level : Bool) (p : Word) : (s.setLevel n level p).transit = s.transit := by
  simp only [State.setLevel, apply_ite State.transit, raiseNow_transit, wentQuiet_transit, State.setSrc_transit, ite_self]

@[simp] theorem ephLevel_transit (s : State) : s.ephLevel.transit = s.transit := setLevel_transit ..

/-! ## What frees entries and queues -/

/-- The engine's timebases and its operations in progress are as they were. -/
def TimebasesKept (x y : Transit) : Prop := y.tb = x.tb ∧ y.cmds = x.cmds

theorem TimebasesKept.trans {x y z : Transit} (h1 : TimebasesKept x y) (h2 : TimebasesKept y z) : TimebasesKept x z := by
  obtain ⟨tb1, cmds1⟩ := h1
  obtain ⟨tb2, cmds2⟩ := h2
  exact ⟨tb2.trans tb1, cmds2.trans cmds1⟩

/-- Entries freed one after another. -/
theorem timebasesKept_freeEntries {α : Type} (idx : α → Nat) (l : List α) (x : Transit) :
    TimebasesKept x (l.foldl (fun x i => x.freeEntry (idx i)) x) := by
  induction l generalizing x with
  | nil => exact ⟨rfl, rfl⟩
  | cons i l ih => exact ih (x.freeEntry (idx i))

theorem timebasesKept_ephError (s : State) : TimebasesKept s.transit s.ephError.transit := by
  rw [State.ephError, raise_transit]
  exact ⟨rfl, rfl⟩

theorem timebasesKept_readQueue (s : State) (k : Nat) : TimebasesKept s.transit (s.readQueue k).2.transit := by
  unfold State.readQueue
  dsimp only
  split
  · exact ⟨rfl, rfl⟩
  · exact timebasesKept_ephError (s.modTransit fun x => x.setQueue k {})

theorem timebasesKept_flushQueue (s : State) (k : Nat) : TimebasesKept s.transit (s.flushQueue k).transit := by
  rw [State.flushQueue, ephLevel_transit]
  refine (timebasesKept_readQueue s k).trans ?_
  split
  · refine .trans (.trans ?_ (timebasesKept_freeEntries id _ _)) (timebasesKept_ephError _)
    exact ⟨rfl, rfl⟩
  · refine .trans ?_ (timebasesKept_freeEntries id _ _)
    exact ⟨rfl, rfl⟩

theorem timebasesKept_flushQueues (l : List Nat) (s : State) : TimebasesKept s.transit (l.foldl State.flushQueue s).transit := by
  induction l generalizing s with
  | nil => exact ⟨rfl, rfl⟩
  | cons k l ih => exact (timebasesKept_flushQueue s k).trans (ih _)

/-! ## The flush of a timebase (R233) -/

/-- A timebase whose flush has begun: no entry is held and no walk runs (R233). -/
def Tb.flushed (b : Tb) : Tb :=
  { b with live := [], store := [], merging := [], carry := [], armed := [], liveCnt := 0, storeCnt := 0, storeOf := none,
           liveOf := some (b.frame, b.slot), walk := none, sorting := false, cleanup := false, swapDue := false, flushing := true }

/-- A flush clears its own timebase, and reaches no other. -/
theorem timebasesKept_flushTb (s : State) (t : TbId) :
    TimebasesKept (s.modTb t Tb.flushed).transit (s.flushTb t).transit := by
  rw [State.flushTb, ephLevel_transit, State.modPort_transit]
  refine .trans ?_ (timebasesKept_flushQueues _ _)
  exact timebasesKept_freeEntries BufItem.idx _ _

end Sys2Proof.Machine
end

section
/-! TBn_CFG (R204, R233, R234, R511). -/

namespace Sys2Proof.Machine

open Sys2Proof

/-! ## The register -/

theorem regAt_tbCfg : ∀ tb : TbId, regAt (BitVec.ofNat 32 (0x30020100 + tb.val * 0x40)) = some (.tbCfg tb) := by decide +kernel

theorem exec_tbnCfgWrite {s : State} {w : Agent} {tb : TbId} (v : Word) (h : MayWrite s w (.tbCfg tb)) :
    exec (.tbnCfgWrite w tb v) s = .next (s.tbCfgWrite tb v) :=
  congrArg Host.Outcome.next (writeBy_may (regAt_tbCfg tb) h v)

/-! ## A disabled timebase (R234) -/

/-- The geometry that a write of `v` to TBn_CFG gives a disabled timebase (R234). -/
def Tb.withGeometry (tb : TbId) (v : Word) (b : Tb) : Tb :=
  { b with slast := BitVec.ofNat 13 (v.toNat / 2 ^ 16),
           glast := if tb.val < 4 then BitVec.ofNat 14 (v.toNat / 4) ||| 3 else b.glast }

/-- A timebase as it starts, in a new enable period (R204, R511). -/
def Tb.enabled (b : Tb) : Tb :=
  { b with en := true, starting := true, period := b.period + 1, ran := [], liveOf := none, armed := [], pause := none, holdWalk := false }

theorem tbCfgWrite_disabled {s : State} {tb : TbId} (v : Word) (h : s.transit.tb[tb].en = false) :
    s.tbCfgWrite tb v =
      s.modTb tb fun b => if v.getLsbD 0 then (b.withGeometry tb v).enabled else b.withGeometry tb v := by
  simp only [State.tbCfgWrite, h, Bool.false_eq_true, if_false, bits_eq_ofNat, isBeam, decide_eq_true_eq]
  rfl

/-! ## An enabled timebase (R204, R233, R234) -/

theorem tbCfgWrite_stays {s : State} {tb : TbId} {v : Word} (h : s.transit.tb[tb].en = true) (hv : v.getLsbD 0 = true) :
    s.tbCfgWrite tb v = s := by
  simp only [State.tbCfgWrite, h, hv, if_true]

/-- A timebase whose enable period a write of TBn_CFG ends (R204, R233). -/
def Tb.disabled (b : Tb) : Tb := { b.flushed with en := false, starting := false, pause := none, holdWalk := false }

/-- Where EN falls, the timebase's period ends and its flush is the engine's latest operation. -/
theorem tbCfgWrite_ends {s : State} {tb : TbId} {v : Word} (h : s.transit.tb[tb].en = true) (hv : v.getLsbD 0 = false) :
    (s.tbCfgWrite tb v).transit.tb = s.transit.tb.set tb (s.transit.tb[tb]).disabled ∧
    (s.tbCfgWrite tb v).transit.cmds = s.transit.cmds ++ [(.flushTb, tb.val)] := by
  obtain ⟨tbs, cmds⟩ := timebasesKept_flushTb s tb
  have write : s.tbCfgWrite tb v = ((s.flushTb tb).modTb tb fun b =>
      { b with en := false, starting := false, pause := none, holdWalk := false }).modTransit fun x =>
        { x with cmds := x.cmds ++ [(.flushTb, tb.val)] } := by
    simp only [State.tbCfgWrite, h, hv, if_true, Bool.false_eq_true, if_false]
  rw [write]
  generalize s.flushTb tb = t at tbs cmds
  constructor
  · show t.transit.tb.set tb _ = _
    rw [tbs]
    simp [State.modTb, Tb.disabled]
  · exact congrArg (· ++ [(.flushTb, tb.val)]) cmds

/-- Settles O37: a disabled timebase takes the write whole, an enabled one only a fall of EN, whose flush reaches no other timebase. -/
theorem timebasesAreConfigured : Obligations.TimebasesAreConfigured := by
  intro s w tb v may b geo
  rw [exec_tbnCfgWrite v may]
  refine ⟨fun hb hv => ?_, fun hb hv => ?_, fun hb hv => ?_, fun hb hv => ?_⟩
  · rw [tbCfgWrite_disabled v hb, hv]
    rfl
  · rw [tbCfgWrite_disabled v hb, hv]
    rfl
  · rw [tbCfgWrite_stays hb hv]
  · obtain ⟨tbs, cmds⟩ := tbCfgWrite_ends hb hv
    have self : (s.tbCfgWrite tb v).transit.tb[tb] = b.disabled := by simp [tbs, b]
    refine ⟨_, rfl, ?_⟩
    rw [self]
    refine ⟨rfl, rfl, rfl, rfl, rfl, cmds, fun u hu => ?_⟩
    simp only [tbs, Fin.getElem_fin]
    exact Vector.getElem_set_ne tb.isLt u.isLt fun e => hu (Fin.ext e.symm)

end Sys2Proof.Machine
end

