-- ==== Sys2Proof/Proofs/Stack.lean ====
section
/-! SUPPORT. Literals and the instructions of the data stack (R92), arithmetic and logic (R94). -/

set_option Elab.async false

namespace Sys2Proof.Machine

open Sys2Proof

/-! ## Literals and stack instructions (R92) -/

/-- A command that pushes one value, for which no cell is needed, completes. -/
theorem does_pushValue {s : State} {c : CoreId} {x : CtxId} {i : Instr} {e : Enc} {v : State → Word}
    (hi : exec i s = s.simple c x e fun s => s.pushValue c x (v s)) (h : Cells s c x 0) (hd : (s.ctx c x).depth ≤ 7) :
    Does s c x i e 0 [v s] := by
  intro hr
  rw [hi]
  exact simple_completes _ 0 [v s] hr (stackOp_cells (vs := fun _ => [v s]) h (by simp) (by omega) (by simpa using Nat.lt_succ_of_le hd)) (by omega)
    (by simpa using Nat.lt_succ_of_le hd)

/-- Settles O1: each literal is a push of its value. -/
theorem literalsPush : Obligations.LiteralsPush := by
  intro s c x h hd
  exact ⟨fun n => does_pushValue (v := fun _ => BitVec.ofNat 32 n.val) rfl h hd,
    does_pushValue (v := fun _ => 0xFFFFFFFF) rfl h hd,
    fun b => does_pushValue (v := fun _ => b.signExtend 32) rfl h hd,
    fun b => does_pushValue (v := fun _ => b.signExtend 32) rfl h hd,
    fun w => does_pushValue (v := fun _ => w) rfl h hd,
    fun b => does_pushValue (v := fun _ => b.setWidth 32) rfl h hd⟩

/-- A stack instruction that leaves at most as many cells as it takes. -/
theorem does_shuffle {s : State} {c : CoreId} {x : CtxId} {i : Instr} {e : Enc} {n : Nat} {touch : List Nat}
    {vs : (Nat → Word) → List Word} (h : Cells s c x n)
    (hi : exec i s = s.simple c x e fun s => s.stackOp c x n touch n vs) (ht : ∀ j ∈ touch, j < n)
    (hl : (vs (s.ctx c x).cell).length ≤ n) : Does s c x i e n (vs (s.ctx c x).cell) :=
  does_stackOp hi h ht le_rfl (by have := h.1; have := h.2.1; omega)

/-- Settles O2: each is one stack effect on cells that are there. -/
theorem stackInstructionsMove : Obligations.StackInstructionsMove := by
  have poke (s : State) (c : CoreId) (x : CtxId) (n : Fin 6) (h : Cells s c x (n.val + 3)) :
      Does s c x (.pokeN c x n) { op := BitVec.ofNat 8 (0x39 + n.val) } (n.val + 3)
        ((s.ctx c x).cell 0 :: (List.range (n.val + 1)).map fun i => (s.ctx c x).cell (n.val + 1 - i)) :=
    does_shuffle (vs := fun f => f 0 :: (List.range (n.val + 1)).map fun i => f (n.val + 1 - i)) h rfl
      (by simp) (by simp)
  refine ⟨fun s c x => ⟨fun h => ?_, fun h => ?_, fun h => ?_, fun h => ?_, fun h => ?_, fun h => ?_, fun h => poke s c x 0 h, poke s c x⟩,
    fun s c x => ⟨fun h hd => ?_, fun h hd => ?_, fun h hd => ?_, fun h hd => ?_, fun n h hd => ?_, fun h hd => ?_⟩⟩
  · exact does_shuffle (vs := fun _ => []) h rfl (by simp) (by simp)
  · exact does_shuffle (vs := fun f => [f 0, f 1]) h rfl (by simp) (by simp)
  · exact does_shuffle (vs := fun f => [f 1, f 0, f 2]) h rfl (by simp) (by simp)
  · exact does_shuffle (vs := fun f => [f 0]) h rfl (by simp) (by simp)
  · exact does_shuffle (vs := fun _ => []) h rfl (by simp) (by simp)
  · exact does_shuffle (vs := fun f => [f 1, f 0, f 3, f 2]) h rfl (by simp) (by simp)
  · exact does_stackOp (vs := fun f => [f 0]) rfl h (by simp) (by omega) (by simpa using Nat.lt_succ_of_le hd)
  · exact does_stackOp (vs := fun f => [f 1]) rfl h (by simp) (by omega) (by simpa using Nat.lt_succ_of_le hd)
  · exact does_stackOp (vs := fun f => [f 0, f 1, f 0]) rfl h (by simp) (by omega)
      (by have := h.1; simp only [List.length_cons, List.length_nil]; omega)
  · exact does_stackOp (vs := fun f => [f 1, f 0]) rfl h (by simp) (by omega) (by simp only [List.length_cons, List.length_nil]; omega)
  · exact does_stackOp (vs := fun f => [f (n.val + 2)]) rfl h (by simp) (by omega) (by simpa using Nat.lt_succ_of_le hd)
  · exact does_pushValue (v := fun s => BitVec.ofNat 32 (s.ctx c x).depth) rfl h hd

/-! ## Arithmetic and logic (R94) -/

theorem absW_eq (a : Word) : absW a = if a.toInt < 0 then -a else a := by
  rw [absW, BitVec.msb_eq_toInt]; simp

theorem cellOf_decide (b : Bool) (p : Prop) [Decidable p] (h : b = true ↔ p) : cellOf b = if p then 0xFFFFFFFF else 0 := by
  simp only [cellOf, h]

/-- The leading zeros are what the place of the leading one leaves. -/
theorem clzW_eq (a : Word) : clzW a = a.clz := by
  by_cases h : a = 0
  · subst h; rfl
  · have hn : a.toNat ≠ 0 := fun q => h (BitVec.eq_of_toNat_eq (by simpa using q))
    have hlt : a.clz.toNat < 32 := by simpa using BitVec.lt_def.mp (BitVec.clz_lt_iff_ne_zero.mpr h)
    have lo := BitVec.two_pow_sub_clz_le_toNat_of_ne_zero (x := a) (by omega) h
    have hi := BitVec.toNat_lt_two_pow_sub_clz (x := a)
    have hlog : Nat.log2 a.toNat = 31 - a.clz.toNat := (Nat.log2_eq_iff hn).mpr ⟨by simpa using lo, by
      rwa [show 31 - a.clz.toNat + 1 = 32 - a.clz.toNat by omega]⟩
    apply BitVec.eq_of_toNat_eq
    simp only [clzW, if_neg h, hlog, BitVec.toNat_ofNat]
    omega

theorem byte_bits (w : Word) (k : Nat) : (bits w (8 * k) 8 : Byte).toNat = w.toNat / 256 ^ k % 256 := by
  simp [bits, BitVec.toNat_setWidth, BitVec.toNat_ushiftRight, Nat.shiftRight_eq_div_pow, pow_mul]

/-- A lowest byte put before bytes that leave room for it. -/
theorem ofBytes_cons_toNat {n : Nat} (b : Byte) (l : List Byte) (h : 256 * (ofBytes n l).toNat + 256 ≤ 2 ^ n) :
    (ofBytes n (b :: l)).toNat = 256 * (ofBytes n l).toNat + b.toNat := by
  have hb := b.isLt
  rw [ofBytes, BitVec.toNat_or, BitVec.toNat_setWidth, BitVec.toNat_shiftLeft, Nat.shiftLeft_eq, Nat.mod_eq_of_lt (by omega),
    Nat.mod_eq_of_lt (by omega), Nat.or_comm, Nat.mul_comm, ← Nat.two_pow_add_eq_or_of_lt hb]

theorem ofBytes_lt {n : Nat} (l : List Byte) (h : 8 * l.length ≤ n) : (ofBytes n l).toNat < 256 ^ l.length := by
  induction l with
  | nil => simp [ofBytes]
  | cons b l ih =>
    simp only [List.length_cons] at h ⊢
    have h1 := ih (by omega)
    have h2 : 256 * 256 ^ l.length ≤ 2 ^ n := by
      calc 256 * 256 ^ l.length = 2 ^ (8 * (l.length + 1)) := by rw [pow_mul]; ring
        _ ≤ 2 ^ n := Nat.pow_le_pow_right (by omega) h
    rw [ofBytes_cons_toNat b l (by omega), pow_succ]
    have := b.isLt
    omega

/-- Bytes put into a word are its bytes. -/
theorem ofBytes_byte {n : Nat} (l : List Byte) (h : 8 * l.length ≤ n) {k : Nat} (hk : k < l.length) :
    (ofBytes n l).toNat / 256 ^ k % 256 = l[k].toNat := by
  induction l generalizing k with
  | nil => simp at hk
  | cons b l ih =>
    simp only [List.length_cons] at h hk
    have h1 := ofBytes_lt (n := n) l (by omega)
    have h2 : 256 * 256 ^ l.length ≤ 2 ^ n := by
      calc 256 * 256 ^ l.length = 2 ^ (8 * (l.length + 1)) := by rw [pow_mul]; ring
        _ ≤ 2 ^ n := Nat.pow_le_pow_right (by omega) h
    have hb := b.isLt
    rw [ofBytes_cons_toNat b l (by omega)]
    cases k with
    | zero => simp; omega
    | succ k =>
      rw [pow_succ', ← Nat.div_div_eq_div_mul, show (256 * (ofBytes n l).toNat + b.toNat) / 256 = (ofBytes n l).toNat by omega]
      exact ih (by omega) (by omega)

theorem bytewise_byte (f : Byte → Byte → Byte) (a b : Word) {k : Nat} (hk : k < 4) :
    (bytewise f a b).toNat / 256 ^ k % 256 = (f (bits a (8 * k) 8) (bits b (8 * k) 8)).toNat := by
  rw [bytewise, ofBytes_byte _ (by simp) (by simpa using hk)]
  simp

theorem addSat8_toNat (a b : Byte) : (addSat8 a b).toNat = min 255 (a.toNat + b.toNat) := by
  unfold addSat8
  split
  · next h => rw [BitVec.toNat_add]; omega
  · simp; omega

theorem subSat8_toNat (a b : Byte) : (subSat8 a b).toNat = a.toNat - b.toNat := by
  unfold subSat8
  split
  · simp; omega
  · bv_omega

theorem extB_eq (a b : Word) : extB a b = BitVec.ofNat 32 (a.toNat / 256 ^ (b.toNat % 4) % 256) := by
  apply BitVec.eq_of_toNat_eq
  rw [BitVec.toNat_ofNat, extB, BitVec.toNat_and, BitVec.toNat_ushiftRight, Nat.shiftRight_eq_div_pow, pow_mul,
    show (0xFF : Word).toNat = 2 ^ 8 - 1 from rfl, Nat.and_two_pow_sub_one_eq_mod]
  norm_num
  omega

/-- Settles O3: one cell from one, two or three, each result the one of the statement. -/
theorem arithmeticResults : Obligations.ArithmeticResults := by
  refine ⟨fun s c x h => ?_, fun s c x h => ?_, fun s c x h => ?_⟩
  · intro a
    have one {i : Instr} {e : Enc} (f : Word → Word) {v : Word} (hv : f a = v) (hi : exec i s = s.unary c x e f) :
        Does s c x i e 1 [v] := hv ▸ does_unary hi h
    have amount (b : Byte) : (b.setWidth 32 : Word).toNat = b.toNat := by simp; omega
    refine ⟨one (fun a => -a) rfl rfl, one absW (absW_eq a) rfl, one (fun a => ~~~a) rfl rfl, one (fun a => a + 1) rfl rfl,
      one (fun a => a - 1) rfl rfl, one clzW (clzW_eq a) rfl, one (fun a => cellOf (a == 0)) ?_ rfl, one (fun a => cellOf a.msb) ?_ rfl,
      fun b => one (fun a => a + b.signExtend 32) rfl rfl, fun b => one (fun a => Shift.shl.run a (b.setWidth 32)) ?_ rfl,
      fun b => one (fun a => Shift.shr.run a (b.setWidth 32)) ?_ rfl, fun b => one (fun a => Shift.sar.run a (b.setWidth 32)) ?_ rfl⟩
    · exact cellOf_decide _ _ (by simp)
    · exact cellOf_decide _ _ (by rw [BitVec.msb_eq_toInt]; simp)
    all_goals simp only [Shift.run, amount]
  · intro a b yes
    have two {i : Instr} {e : Enc} (f : Word → Word → Word) {v : Word} (hv : f a b = v) (hi : exec i s = s.binary c x e f) :
        Does s c x i e 2 [v] := hv ▸ does_binary hi h
    have slt (a b : Word) : a.slt b = true ↔ a.toInt < b.toInt := BitVec.slt_iff_toInt_lt
    have ult (a b : Word) : a.ult b = true ↔ a.toNat < b.toNat := BitVec.ult_iff_toNat_lt
    refine ⟨two (fun a b => a + b) rfl rfl, two (fun a b => a - b) rfl rfl, two (fun a b => a &&& b) rfl rfl,
      two (fun a b => a ||| b) rfl rfl, two (fun a b => a ^^^ b) rfl rfl, two Shift.shl.run rfl rfl, two Shift.shr.run rfl rfl,
      two Shift.sar.run rfl rfl, two Shift.rol.run rfl rfl, two Shift.ror.run rfl rfl, two (fun a b => a * b) ?_ rfl,
      two minS ?_ rfl, two maxS ?_ rfl, two minU ?_ rfl, two maxU ?_ rfl, two (fun a b => cellOf (a == b)) ?_ rfl,
      two (fun a b => cellOf (a != b)) ?_ rfl, two (fun a b => cellOf (a.slt b)) ?_ rfl, two (fun a b => cellOf (b.slt a)) ?_ rfl,
      two (fun a b => cellOf (a.ult b)) ?_ rfl, two (fun a b => cellOf (b.ult a)) ?_ rfl⟩
    · exact BitVec.eq_of_toNat_eq (by simp [BitVec.toNat_mul])
    · simp only [minS, slt]
    · simp only [maxS, slt]
    · simp only [minU, ult]
    · simp only [maxU, ult]
    · exact cellOf_decide _ _ (by simp)
    · exact cellOf_decide _ _ (by simp)
    · exact cellOf_decide _ _ (slt ..)
    · exact cellOf_decide _ _ (slt ..)
    · exact cellOf_decide _ _ (ult ..)
    · exact cellOf_decide _ _ (ult ..)
  · intro a b byte
    refine ⟨⟨_, fun k hk => ?_, does_binary (f := bytewise addSat8) rfl h⟩, ⟨_, fun k hk => ?_, does_binary (f := bytewise subSat8) rfl h⟩,
      extB_eq a b ▸ does_binary (f := extB) rfl h, fun h3 => ?_⟩
    · exact (bytewise_byte addSat8 a b hk).trans (by rw [addSat8_toNat, byte_bits, byte_bits])
    · exact (bytewise_byte subSat8 a b hk).trans (by rw [subSat8_toNat, byte_bits, byte_bits])
    · have := does_shuffle (i := .sel c x) (e := { op := 0x68 }) (touch := [0, 1, 2]) (vs := fun q => [if q 0 ≠ 0 then q 2 else q 1]) h3 rfl
        (by simp) (by simp)
      simpa only [ne_eq, ite_not] using this

end Sys2Proof.Machine
end

