-- ==== Sys2Proof/Proofs/Loads.lean ====
section
/-! SUPPORT. Loads from the scratchpad (R96, R100, R265). -/

set_option Elab.async false

namespace Sys2Proof.Machine

open Sys2Proof

/-! ## The value of bytes (R7) -/

/-- Bit `i` of bytes put into a word is a bit of byte `i / 8`. -/
theorem ofBytes_getLsbD {n : Nat} (l : List Byte) (h : 8 * l.length ≤ n) (i : Nat) :
    (ofBytes n l).getLsbD i = (l.getD (i / 8) 0).getLsbD (i % 8) := by
  induction l generalizing i with
  | nil => simp [ofBytes]
  | cons b l ih =>
    simp only [List.length_cons] at h
    have ih := ih (by omega)
    have hz : ∀ j, n ≤ j → (ofBytes n l).getLsbD j = false := fun j hj => BitVec.getLsbD_of_ge _ _ hj
    simp only [ofBytes, BitVec.getLsbD_or, BitVec.getLsbD_setWidth, BitVec.getLsbD_shiftLeft, ih]
    by_cases hi : i < 8
    · simp [hi, Nat.div_eq_of_lt hi, Nat.mod_eq_of_lt hi, show i < n by omega]
    · have hb : b.getLsbD i = false := BitVec.getLsbD_of_ge _ _ (by omega)
      have hd : i / 8 = (i - 8) / 8 + 1 := by omega
      have hm : i % 8 = (i - 8) % 8 := by omega
      rw [hd, hm, List.getD_cons_succ, hb, ← ih]
      simp only [hi, decide_false, Bool.not_false, Bool.and_false, Bool.false_or, Bool.and_true, Bool.and_eq_right_iff_imp,
        decide_eq_true_eq]
      intro q
      by_contra hn
      rw [ih, List.getD_eq_default _ _ (by omega)] at q
      simp at q

theorem spad_word_getLsbD (m : Spad) (w i : Nat) (hi : i < 32) : (m.word w).getLsbD i = (m.byte (w + i / 8)).getLsbD (i % 8) := by
  rw [Spad.word, ofBytes_getLsbD _ (by simp)]
  simp [List.getD_eq_getElem?_getD, show i / 8 < 4 by omega]

theorem valueAt_getLsbD (s : State) (w n i : Nat) (hn : n ≤ 4) :
    (valueAt s w n).getLsbD i = (decide (i < 8 * n) && (s.spad.byte (w + i / 8)).getLsbD (i % 8)) := by
  rw [valueAt, ofBytes_getLsbD _ (by simp; omega)]
  by_cases h : i < 8 * n
  · simp [List.getD_eq_getElem?_getD, h, show i / 8 < n by omega]
  · rw [List.getD_eq_default _ _ (by simp; omega)]
    simp [h]

/-- The bytes of an access are a part of their word. -/
theorem wordPart_word_eq (s : State) (w n : Nat) (h : w % 4 + n ≤ 4) : wordPart (s.spad.word (w / 4 * 4)) (w % 4) n = valueAt s w n := by
  have mask (i : Nat) (hi : i < 32) : ((1#32 <<< (8 * n)) - 1).getLsbD i = decide (i < 8 * n) := by
    have hv : n = 0 ∨ n = 1 ∨ n = 2 ∨ n = 3 ∨ n = 4 := by omega
    rcases hv with rfl | rfl | rfl | rfl | rfl <;> revert i <;> decide
  apply BitVec.eq_of_getLsbD_eq
  intro i hi
  rw [wordPart, BitVec.getLsbD_and, BitVec.getLsbD_ushiftRight, mask i hi, valueAt_getLsbD _ _ _ _ (by omega), Bool.and_comm]
  by_cases hl : i < 8 * n
  · rw [spad_word_getLsbD _ _ _ (by omega), show w / 4 * 4 + (8 * (w % 4) + i) / 8 = w + i / 8 by omega,
      show (8 * (w % 4) + i) % 8 = i % 8 by omega]
  · simp [hl]

/-! ## The checks and the access -/

/-- An access that `SpadFree` admits finds nothing amiss (R84). -/
theorem checkData_free {s : State} {c : CoreId} {x : CtxId} {a : Word} {n w : Nat} {via : Via} {own : Bool} (store : Bool)
    (h : SpadFree s c x a n w via own) : s.checkData c (s.ctx c x) a n store false = none := by
  obtain ⟨target, aligned, counted, secure, destroyed, -, -⟩ := h
  have inReach : ((s.ctx c x).cntd && !own) = false := by
    cases hc : (s.ctx c x).cntd
    · rfl
    · rw [counted hc]; rfl
  have allowed : (isSecure w && !isSecPriv (s.ctx c x).priv) = false := by
    cases hs : isSecure w
    · rfl
    · rw [secure hs]; rfl
  simp [State.checkData, target, aligned, Ctx.counted, countedData, inReach, allowed, destroyed]

/-- An access of 1, 2 or 4 bytes that is aligned lies in one word. -/
theorem spadFree_inWord {s : State} {c : CoreId} {x : CtxId} {a : Word} {n w : Nat} {via : Via} {own : Bool}
    (h : SpadFree s c x a n w via own) (hn : n = 1 ∨ n = 2 ∨ n = 4) : w % 4 + n ≤ 4 := by
  have hm := target_spad_mod h.1
  have := h.2.1
  rcases hn with rfl | rfl | rfl <;> omega

/-- The state of a load whose word is good, or after a single-bit error is corrected in it (R265). -/
def State.corrected (s : State) (w : Nat) : State :=
  { s with spad := { s.spad with ecnt := satInc s.spad.ecnt, wback := addNat s.spad.wback w } }

/-- A word that a context may reach is read as its check turns out (R265). -/
theorem ctxRead_free {s : State} {c : CoreId} (x : CtxId) (a : Word) {w : Nat} (hs : s.wordShut w = false) (hb : s.borrowed w = none) :
    s.ctxRead c x a w =
      if s.spad.check w = 0 then .ok (s.spad.word w) (s.reached c w)
      else if s.spad.check w = 1 then .ok (s.spad.word w) ((s.reached c w).corrected w)
      else .fault ((s.reached c w).spadUncorr w) fcEcc a := by
  have hc : (s.reached c w).wordCheck w = s.spad.check w := by
    simp only [State.wordCheck, reached_borrowed, hb, check_reached]
  have hd : (s.reached c w).spadData w = s.spad.word w := by
    simp only [State.spadData, reached_borrowed, hb, word_reached]
  simp only [State.ctxRead, spadGate_free x a hs hb, Res.bind_ok, State.spadRead, hc, hd]
  match s.spad.check w with
  | 0 => rfl
  | 1 => rfl
  | n + 2 => rfl

/-- A load leaves the state of its access but for counters. -/
theorem loadBytes_free {s s' : State} {c : CoreId} {x : CtxId} {a : Word} {n w : Nat} {via : Via} {own : Bool}
    (h : SpadFree s c x a n w via own) (hn : n = 1 ∨ n = 2 ∨ n = 4)
    (hr : s.ctxRead c x a (w / 4 * 4) = .ok (s.spad.word (w / 4 * 4)) s') :
    ∃ s1, s.loadBytes c x a n false = .ok (valueAt s w n) s1 ∧ s1.core = s'.core ∧ RestKept s' s1 := by
  refine ⟨(if own then s' else s'.count c x 0x21).count c x 0x14, ?_, ?_, ?_⟩
  · simp only [State.loadBytes, checkData_free false h, h.1, hr, Res.bind_ok, Res.also_ok, wordPart_word_eq _ _ _ (spadFree_inWord h hn)]
  · rw [State.count_core]
    split
    · rfl
    · exact State.count_core ..
  · refine RestKept.trans ?_ (countN_rest ..)
    split
    · exact .refl _
    · exact countN_rest ..

/-- An uncorrectable word makes the load a fault with ECC (R265). -/
theorem loadBytes_uncorr {s : State} {c : CoreId} {x : CtxId} {a : Word} {n w : Nat} {via : Via} {own : Bool}
    (h : SpadFree s c x a n w via own) (hc : s.spad.check (w / 4 * 4) = 2) :
    s.loadBytes c x a n false = .fault ((s.reached c (w / 4 * 4)).spadUncorr (w / 4 * 4)) fcEcc a := by
  obtain ⟨target, -, -, -, -, shut, borrowed⟩ := id h
  simp only [State.loadBytes, checkData_free false h, target, ctxRead_free x a shut borrowed, hc]
  rfl

/-! ## Load instructions (R96) -/

/-- A load instruction that pushes what it has read completes, with what the read of the word changes. -/
theorem does_load {s s' : State} {c : CoreId} {x : CtxId} {e : Enc} {i : Instr} {n k w pushes : Nat} {touch : List Nat} {via : Via}
    {own : Bool} (a : State → Word) (vs : State → Word → List Word)
    (hi : exec i s = s.simple c x e fun s => (s.need c x k touch k pushes).bind fun _ s1 =>
      (s1.loadBytes c x (a s) n false).bind fun v s2 => .ok none (s2.replace c x k (vs s v)))
    (ht : ∀ i ∈ touch, i < k) (hcells : Cells s c x k) (hf : SpadFree s c x (a s) n w via own) (hn : n = 1 ∨ n = 2 ∨ n = 4)
    (hr : s.ctxRead c x (a s) (w / 4 * 4) = .ok (s.spad.word (w / 4 * 4)) s') (hc : s'.core = s.core)
    (hp : (s.ctx c x).depth - k + pushes ≤ 8) (hl : ∀ v, (vs s v).length = pushes) :
    DoesTo s s' c x i e k (vs s (valueAt s w n)) := by
  intro h
  obtain ⟨s1, load, core, rest⟩ := loadBytes_free hf hn hr
  have need : s.need c x k touch k pushes = .ok () s := need_cells hcells ht le_rfl hp
  have own : s'.ctx c x = s.ctx c x := by simp only [State.ctx, hc]
  rw [hi]
  refine simple_goesTo (s1 := s1.replace c x k (vs s (valueAt s w n))) h ?_ ?_ (rest.trans (replace_rest ..)) (by rw [own])
    (by rw [own]; exact hcells.1) (by rw [own, hl]; exact hp)
  · simp only [need, load, Res.bind_ok]
  · simp only [State.replace, State.modCtx, State.modCore, core]

/-- A word that `SpadFree` admits and whose check is good is read as it is. -/
theorem ctxRead_good {s : State} {c : CoreId} {x : CtxId} {a : Word} {n w : Nat} {via : Via} {own : Bool} (h : SpadFree s c x a n w via own)
    (hc : s.spad.check (w / 4 * 4) = 0) :
    s.ctxRead c x a (w / 4 * 4) = .ok (s.spad.word (w / 4 * 4)) (s.reached c (w / 4 * 4)) := by
  obtain ⟨-, -, -, -, -, shut, borrowed⟩ := h
  rw [ctxRead_free x a shut borrowed, if_pos hc]

/-- ( a -- x ) on a good word. -/
theorem does_loadOp {s : State} {c : CoreId} {x : CtxId} {e : Enc} {i : Instr} {n w : Nat} {f g : Word → Word} {via : Via} {own : Bool}
    (hi : exec i s = s.loadOp c x e n f g) (hcells : Cells s c x 1) (hc : s.spad.check (w / 4 * 4) = 0)
    (hf : SpadFree s c x (f ((s.ctx c x).cell 0)) n w via own) (hn : n = 1 ∨ n = 2 ∨ n = 4) :
    DoesTo s (s.reached c (w / 4 * 4)) c x i e 1 [g (valueAt s w n)] :=
  does_load (fun s => f ((s.ctx c x).cell 0)) (fun _ v => [g v]) hi (fun _ => List.mem_range.mp) hcells hf hn (ctxRead_good hf hc)
    (reached_core ..) (by have := hcells.1; have := hcells.2.1; omega) fun _ => rfl

/-- ( -- x ) from a fixed address, on a good word. -/
theorem does_loadAt {s : State} {c : CoreId} {x : CtxId} {e : Enc} {i : Instr} {w : Nat} {a : Word} {via : Via} {own : Bool}
    (hi : exec i s = s.loadAt c x e a) (hcells : Cells s c x 0) (hd : (s.ctx c x).depth ≤ 7) (hc : s.spad.check (w / 4 * 4) = 0)
    (hf : SpadFree s c x a 4 w via own) : DoesTo s (s.reached c (w / 4 * 4)) c x i e 0 [valueAt s w 4] :=
  does_load (fun _ => a) (fun _ v => [v]) hi (by simp) hcells hf (by omega) (ctxRead_good hf hc) (reached_core ..) (by omega) fun _ => rfl

/-- The offset of R73 in words. -/
theorem fld_two {n : Nat} (b : BitVec n) : fld b 2 = 4 * b.setWidth 32 := by
  rw [fld, BitVec.shiftLeft_eq_mul_twoPow, BitVec.mul_comm]
  rfl

/-! ## Faults whose access has left its mark (R83, R265) -/

/-- An access that leaves its mark outside the context and its core's staging entry before it faults: the context is undone all the same. -/
theorem undo_marked {s s1 : State} {c : CoreId} {x : CtxId} (hx : s1.ctx c x = s.ctx c x) (hs : s1.core[c].staging = s.core[c].staging) :
    s1.undo s c x = s1.undo s1 c x := by
  simp only [State.undo, hx, hs]

/-- A precise fault at the end of an instruction that has left its context as it was. -/
theorem endFault_took {s : State} {c : CoreId} {x : CtxId} (code : Byte) (a : Word) (hm : s.power.mainRst = false)
    (hn : s.power.state = .run) (hready : (s.ctx c x).st = .ready) (hin : (s.ctx c x).routine = none) :
    TookFault s ((s.undo s c x).endFault c x code a false true) c x code a false := by
  rw [undo_self]
  let s1 := (s.modCtx c x fun t => { t with seen := 0 }).modCore c fun k =>
    k.ended x ((s.modCtx c x fun t => { t with seen := 0 }).ctx c x).priv true
  let s2 := (s1.modCtx c x fun t => { t with routine := none, moved := none, seen := 0, image := none }).count c x 0x29
  have own2 : s2.ctx c x = { s.ctx c x with routine := none, moved := none, seen := 0, image := none } := by
    rw [State.count_ctx, State.ctx_modCtx, ctx_ended, State.ctx_modCtx]
  have reach2 : FaultReach s s2 c x :=
    (((faultReach_modCtx ..).trans (faultReach_ended ..)).trans (faultReach_modCtx ..)).trans (faultReach_countN ..)
  obtain ⟨s3, eq3, reach3, own3⟩ := takeFault_reach (s := s2) code a false (by rw [own2, hready]; decide)
  simp only [State.endFault, Bool.false_eq_true, if_false, State.preciseFault]
  rw [eq3]
  refine tookFault_of hm (by rw [hn]; decide) (reach2.trans reach3) ?_
  rw [own3, own2]
  simp only [Bool.false_eq_true, if_false, hin]

/-- An instruction whose meaning is a precise fault takes it, from the state that its access has marked. -/
theorem issue_faultsTo {s s1 : State} {c : CoreId} {x : CtxId} {e : Enc} {body : State → Res Done} {code : Byte} {a : Word}
    (h : Ready s c x e) (hb : body s = .fault s1 code a) (hx : s1.ctx c x = s.ctx c x) (hs : s1.core[c].staging = s.core[c].staging)
    (hp : s1.power = s.power) : ∃ t, s.issue c x e body = .next t ∧ TookFault s1 t c x code a false := by
  obtain ⟨⟨issues, outside, inSpill, -, -, -⟩, -⟩ := id h
  obtain ⟨runs, ready⟩ := mayIssue_runs issues
  obtain ⟨hm, hn⟩ := coreRuns_power runs
  have hbody : s.runBody c x e (after s c x e.len) false body = (s1.undo s c x).endFault c x code a false true := by
    simp only [State.runBody, hb, Res.state, hx, inSpill, Option.isSome_none, Bool.and_false, Bool.false_eq_true, if_false, State.conclude]
  have routine : (s.ctx c x).routine = none := by
    simp only [Ctx.inRoutine, Bool.or_eq_false_iff, Option.isSome_eq_false_iff, Option.isNone_iff_eq_none] at outside
    exact outside.1
  refine ⟨_, by rw [issue_ready body h, hbody], ?_⟩
  rw [undo_marked hx hs]
  exact endFault_took code a (by rw [hp]; exact hm) (by rw [hp]; exact hn) (by rw [hx]; exact ready) (by rw [hx]; exact routine)

/-- A read of an uncorrectable word marks the word and raises its source, nothing else of the context and the power unit (R265). -/
theorem spadUncorr_marks {s : State} (w : Nat) (hm : s.power.mainRst = false) (hn : s.power.state = .run) :
    (∀ c x, (s.spadUncorr w).ctx c x = s.ctx c x) ∧ (∀ c : CoreId, (s.spadUncorr w).core[c].staging = s.core[c].staging) ∧
      (s.spadUncorr w).power = s.power := by
  let s1 : State := { s with spad := { s.spad with uncorr := true, eaddr := BitVec.ofNat 32 w } }
  have only := sourcesOnly_raise (s := s1) 208 (BitVec.ofNat 32 w) hm
  obtain ⟨-, core, -⟩ := id only
  exact ⟨only.ctx, fun c => by rw [State.spadUncorr, core c], raise_power (s := s1) 208 _ hm (by rw [show s1.power = s.power from rfl, hn]; decide)⟩

/-- A load of an uncorrectable word faults with ECC (R265). -/
theorem ld_uncorr {s : State} {c : CoreId} {x : CtxId} {w : Nat} {via : Via} {own : Bool} (hcells : Cells s c x 1)
    (hf : SpadFree s c x ((s.ctx c x).cell 0) 4 w via own) (hc : s.spad.check (w / 4 * 4) = 2) (h : Ready s c x { op := 0x70 }) :
    ∃ t, exec (.ld c x) s = .next t ∧
      TookFault ((s.reached c (w / 4 * 4)).spadUncorr (w / 4 * 4)) t c x fcEcc ((s.ctx c x).cell 0) false := by
  obtain ⟨hm, hn⟩ := coreRuns_power (mayIssue_runs h.1.1).1
  have power : (s.reached c (w / 4 * 4)).power = s.power := by rw [reached_rest]
  obtain ⟨ctxs, staging, power'⟩ := spadUncorr_marks (s := s.reached c (w / 4 * 4)) (w / 4 * 4) (by rw [power]; exact hm)
    (by rw [power]; exact hn)
  have need : s.needPops c x 1 1 = .ok () s := needPops_cells hcells (by have := hcells.1; have := hcells.2.1; omega)
  refine issue_faultsTo h ?_ ((ctxs c x).trans (reached_ctx ..)) ((staging c).trans (by rw [reached_core])) (power'.trans power)
  simp only [need, Res.bind_ok, id, loadBytes_uncorr hf hc]
  rfl

theorem exec_ldp (c : CoreId) (x : CtxId) (s : State) :
    exec (.ldp c x) s = s.simple c x { op := 0x78 } fun s => (s.need c x 1 (List.range 1) 1 2).bind fun _ s1 =>
      (s1.loadBytes c x ((s.ctx c x).cell 0) 4 false).bind fun v s2 => .ok none (s2.replace c x 1 [v, (s.ctx c x).cell 0 + 4]) := rfl

/-- LDP leaves the next address too. -/
theorem ldp_loads {s : State} {c : CoreId} {x : CtxId} {w : Nat} {via : Via} {own : Bool} (hcells : Cells s c x 1) (hd : (s.ctx c x).depth ≤ 7)
    (hc : s.spad.check (w / 4 * 4) = 0) (hf : SpadFree s c x ((s.ctx c x).cell 0) 4 w via own) :
    DoesTo s (s.reached c (w / 4 * 4)) c x (.ldp c x) { op := 0x78 } 1 [valueAt s w 4, (s.ctx c x).cell 0 + 4] :=
  does_load (i := .ldp c x) (fun s => (s.ctx c x).cell 0) (fun s v => [v, (s.ctx c x).cell 0 + 4]) (exec_ldp c x s) (fun _ => List.mem_range.mp) hcells
    hf (by omega) (ctxRead_good hf hc) (reached_core ..) (by have := hcells.1; omega) fun _ => rfl

/-- Settles O10: a load is the read of its word, whose check decides what the read changes. -/
theorem loadsRead : Obligations.LoadsRead := by
  intro s c x w via own got
  refine ⟨fun hcells hf => ⟨fun hc => ?_, fun hc h => ?_⟩, fun hcells hc => ⟨fun hf => ⟨?_, fun hd => ?_⟩, fun hf => ⟨?_, ?_⟩,
    fun hf => ⟨?_, ?_⟩, fun b hf => ?_⟩, fun hcells hd hc => ⟨fun b hf => ?_, fun b hf => ?_, fun n hf => ?_⟩⟩
  · have word : w / 4 * 4 = w := by have := spadFree_inWord hf (by omega); omega
    obtain ⟨-, -, -, -, -, shut, borrowed⟩ := id hf
    have read : s.ctxRead c x ((s.ctx c x).cell 0) (w / 4 * 4) = .ok (s.spad.word (w / 4 * 4)) (got.corrected (w / 4 * 4)) := by
      rw [ctxRead_free x _ shut borrowed, if_neg (by omega), if_pos hc]
    have := does_load (i := .ld c x) (fun s => (s.ctx c x).cell 0) (fun _ v => [v]) rfl (fun _ => List.mem_range.mp) hcells hf (by omega) read
      (reached_core ..) (by have := hcells.1; have := hcells.2.1; omega) fun _ => rfl
    rw [word] at this
    exact word ▸ this
  · have word : w / 4 * 4 = w := by have := spadFree_inWord hf (by omega); omega
    have := ld_uncorr hcells hf hc h
    rw [word] at this
    exact word ▸ this
  · exact does_loadOp (n := 4) (f := id) (g := id) rfl hcells hc hf (by omega)
  · exact ldp_loads hcells hd hc hf
  · exact does_loadOp (n := 2) (f := id) (g := id) rfl hcells hc hf (by omega)
  · exact does_loadOp (n := 2) (f := id) (g := sext16) rfl hcells hc hf (by omega)
  · exact does_loadOp (n := 1) (f := id) (g := id) rfl hcells hc hf (by omega)
  · exact does_loadOp (n := 1) (f := id) (g := sext8) rfl hcells hc hf (by omega)
  · exact does_loadOp (n := 4) (f := fun a => a + fld b 2) (g := id) rfl hcells hc (by rw [fld_two]; exact hf) (by omega)
  · exact does_loadAt rfl hcells hd hc (by rw [fld_two]; exact hf)
  · exact does_loadAt rfl hcells hd hc (by rw [fld_two]; exact hf)
  · exact does_loadAt rfl hcells hd hc hf

end Sys2Proof.Machine
end

