-- ==== Sys2Proof/Proofs/Control.lean ====
section
/-! SUPPORT. Branches, calls and returns while nothing is spilled or filled (R43, R73, R93, R97). -/

set_option Elab.async false

namespace Sys2Proof.Machine

open Sys2Proof

/-! ## An instruction that changes cells of the current frame and the return cache -/

/-- Of the context only the return cache differs. -/
def ReturnsOnly (u v : Ctx) : Prop := v = { u with rstk := v.rstk, rtag := v.rtag, rtop := v.rtop }

theorem ReturnsOnly.refl (u : Ctx) : ReturnsOnly u u := rfl

theorem ReturnsOnly.trans {u v w : Ctx} (h1 : ReturnsOnly u v) (h2 : ReturnsOnly v w) : ReturnsOnly u w := by
  unfold ReturnsOnly at *
  conv_lhs => rw [h2]
  conv_lhs => rw [h1]

theorem putCells_returns (t : Ctx) (a : Vector Word 16) (b : Vector GrpTag 2) (r : Fin 2) (w : Fin 8) (i : Nat) (vs : List Word) :
    ({ t with rstk := a, rtag := b, rtop := r } : Ctx).putCells w i vs = { t.putCells w i vs with rstk := a, rtag := b, rtop := r } := by
  induction vs generalizing t i with
  | nil => rfl
  | cons v l ih => exact ih { t with dstk := t.dstk.set (entryOf w i) v } (i + 1)

/-- The data stack and the return cache do not meet. -/
theorem replace_returns (t : Ctx) (a : Vector Word 16) (b : Vector GrpTag 2) (r : Fin 2) (pops : Nat) (vs : List Word) :
    ({ t with rstk := a, rtag := b, rtop := r } : Ctx).replace pops vs = { t.replace pops vs with rstk := a, rtag := b, rtop := r } := by
  unfold Ctx.replace
  split
  · rfl
  · exact congrArg (fun v : Ctx => v.setDepth t.win (t.depth - pops + vs.length)) (putCells_returns t a b r t.win (t.depth - pops) vs)

/-- The cells taken are there and there is room for those given; an instruction without a stack effect asks for neither. -/
def Fits (u : Ctx) (pops : Nat) (vs : List Word) : Prop := (pops = 0 ∧ vs = []) ∨ (pops ≤ u.depth ∧ u.depth - pops + vs.length ≤ 8)

theorem fits_none (u : Ctx) : Fits u 0 [] := .inl ⟨rfl, rfl⟩

/-- An instruction that is ready and goes well: its target, its cells, its return cache, and what it leaves. -/
theorem simple_effect {s s1 : State} {c : CoreId} {x : CtxId} {e : Enc} {body : State → Res (Option Word)} {o : Option Word} {g : Ctx → Ctx}
    {pops : Nat} {vs : List Word} (h : Ready s c x e) (hb : body s = .ok o s1)
    (hc : s1.core = (s.modCtx c x fun t => (g t).replace pops vs).core) (hr : RestKept s s1) (hg : ReturnsOnly (s.ctx c x) (g (s.ctx c x)))
    (hs : Fits (s.ctx c x) pops vs) :
    ∃ t, s.simple c x e body = .next t ∧ (t.ctx c x).pc = o.getD (after s c x e.len) ∧ StackDone s t c x pops vs ∧
      ((t.ctx c x).rstk = (g (s.ctx c x)).rstk ∧ (t.ctx c x).rtag = (g (s.ctx c x)).rtag ∧ (t.ctx c x).rtop = (g (s.ctx c x)).rtop) ∧
      CtxKept s t c x ∧ CoreKept s t c x ∧ RestKept s t := by
  obtain ⟨v, hv⟩ : ∃ v, v = g (s.ctx c x) := ⟨_, rfl⟩
  have hw : v.replace pops vs = { (s.ctx c x).replace pops vs with rstk := v.rstk, rtag := v.rtag, rtop := v.rtop } := by
    conv_lhs => rw [show v = _ from hv ▸ hg]
    rw [replace_returns]
  have moved : (v.replace pops vs).moved = (s.ctx c x).moved := by rw [hw, replace_fields]
  obtain ⟨t, goes, ⟨q, hx⟩, core, rest⟩ := simple_kept (f := fun t => (g t).replace pops vs) h hb hc hr (by rw [← hv]; exact moved)
  simp only [← hv] at hx ⊢
  have hu : v.replace pops vs = { s.ctx c x with
      dstk := (v.replace pops vs).dstk, wtag := (v.replace pops vs).wtag, frame := (v.replace pops vs).frame,
      rstk := (v.replace pops vs).rstk, rtag := (v.replace pops vs).rtag, rtop := (v.replace pops vs).rtop } := by
    rw [hw, replace_fields]
  obtain ⟨pc, kept⟩ := ctxKept_ended hu hx
  have ended := endedAt_fields (v.replace pops vs) (o.getD (after s c x e.len)) q
  simp only [← hx] at ended
  refine ⟨t, goes, pc, ?_, ⟨?_, ?_, ?_⟩, kept, core, rest⟩
  · rcases hs with ⟨rfl, rfl⟩ | ⟨h1, h2⟩
    · have none : (s.ctx c x).replace 0 [] = s.ctx c x := by simp [Ctx.replace]
      rw [none] at hw
      exact stackDone_same (by rw [ended, hw]) (by rw [ended, hw]) (by rw [ended, hw])
    · exact stackDone_ended h1 h2 (by rw [hw]) (by rw [hw]) (by rw [hw, replace_fields]) hx
  all_goals rw [ended, hw]

/-- An instruction of the data stack alone goes to its target. -/
theorem goes_of {s s1 : State} {c : CoreId} {x : CtxId} {i : Instr} {e : Enc} {body : State → Res (Option Word)} {o : Option Word} {to_ : Word}
    {pops : Nat} {vs : List Word} (hi : exec i s = s.simple c x e body) (hb : body s = .ok o s1)
    (hc : s1.core = (s.modCtx c x fun t => t.replace pops vs).core) (hr : RestKept s s1) (hs : Fits (s.ctx c x) pops vs)
    (ho : o.getD (after s c x e.len) = to_) : Goes s c x i e to_ pops vs := by
  intro h
  obtain ⟨t, goes, pc, done, returns, kept⟩ := simple_effect (g := id) h hb hc hr (.refl _) hs
  exact ⟨t, hi ▸ goes, ho ▸ pc, done, returns, kept⟩

/-- The return cache of context `u` holds `l`, as `Returns` says of a state. -/
def Holds (x : CtxId) (u : Ctx) (l : List Word) : Prop :=
  u.returns = l ∧ GroupsOk u ∧ (x = fCtx → u.rtag[rOther u.rtop].live = false)

/-- An instruction that uses the return stack goes to its target. -/
theorem goesR_of {s s1 : State} {c : CoreId} {x : CtxId} {i : Instr} {e : Enc} {body : State → Res (Option Word)} {o : Option Word} {to_ : Word}
    {g : Ctx → Ctx} {pops : Nat} {vs l : List Word} (hi : exec i s = s.simple c x e body)
    (hb : body s = .ok o s1) (hc : s1.core = (s.modCtx c x fun t => (g t).replace pops vs).core) (hr : RestKept s s1)
    (hg : ReturnsOnly (s.ctx c x) (g (s.ctx c x))) (hl : Holds x (g (s.ctx c x)) l) (hs : Fits (s.ctx c x) pops vs)
    (ho : o.getD (after s c x e.len) = to_) : GoesR s c x i e to_ pops vs l := by
  intro h
  obtain ⟨t, goes, pc, done, ⟨e1, e2, e3⟩, kept⟩ := simple_effect h hb hc hr hg hs
  obtain ⟨l1, l2, l3⟩ := hl
  refine ⟨t, hi ▸ goes, ho ▸ pc, done, ⟨?_, ?_, fun q => ?_⟩, kept⟩
  · rw [returns_congr e1 e2 e3, l1]
  · exact (groupsOk_congr e2).mpr l2
  · simp only [e2, e3]; exact l3 q

/-! ## Pushes and pops (R43, R55) -/

theorem pushed_holds {s : State} {c : CoreId} {x : CtxId} {l : List Word} (v : Word) (hl : Returns s c x l) (hroom : RoomFor s c x 1) :
    Holds x ((s.ctx c x).pushed v) (l ++ [v]) := by
  obtain ⟨h1, h2, h3⟩ := hl
  have room : (s.ctx c x).rtag[(s.ctx c x).rtop].count.toNat < 8 ∨ (s.ctx c x).rtag[rOther (s.ctx c x).rtop].live = false := by
    rcases hroom with h | ⟨-, -, h⟩
    · exact .inl (by omega)
    · exact .inr h
  obtain ⟨p1, p2⟩ := pushed_returns (s.ctx c x) v h2 room
  refine ⟨by rw [p1, h1], p2, fun q => ?_⟩
  have h8 : (s.ctx c x).rtag[(s.ctx c x).rtop].count.toNat < 8 := by
    rcases hroom with h | ⟨hx, -, -⟩
    · omega
    · exact absurd q hx
  have same : ((s.ctx c x).pushed v).rtag[rOther ((s.ctx c x).pushed v).rtop] = (s.ctx c x).rtag[rOther (s.ctx c x).rtop] := by
    have put : (s.ctx c x).pushed v = (s.ctx c x).rput (s.ctx c x).rtop (s.ctx c x).rtag[(s.ctx c x).rtop].count.toNat v := if_pos h8
    simp only [put, Ctx.rput, Fin.getElem_fin, rtag_set, if_neg (rOther_ne _)]
  rw [same]
  exact h3 q

theorem pushed_only (u : Ctx) (v : Word) : ReturnsOnly u (u.pushed v) := pushed_fields u v

theorem popped_only (u : Ctx) : ReturnsOnly u u.popped := by
  unfold ReturnsOnly
  conv_lhs => rw [popped_fields]
  congr 1
  rw [popped_fields]

/-- In F no pop moves to the other group, which is never live. -/
theorem popped_holds {s : State} {c : CoreId} {x : CtxId} {l : List Word} {v : Word} (hl : Returns s c x (l ++ [v])) :
    Holds x (s.ctx c x).popped l := by
  obtain ⟨-, p1, p2, -⟩ := rpop_present s c x l v hl
  obtain ⟨h1, -, h3⟩ := hl
  refine ⟨p1, p2, fun q => ?_⟩
  have live := h3 q
  have some : (s.ctx c x).rtag[(s.ctx c x).rtop].count ≠ 0 := by
    intro z
    have none : (s.ctx c x).group (s.ctx c x).rtop = [] := by simp only [Ctx.group, z]; rfl
    simp only [Ctx.returns, none, live] at h1
    simp at h1
  have rtop : (s.ctx c x).rdropTop.rtop = (s.ctx c x).rtop := by
    simp only [Ctx.rdropTop, Fin.getElem_fin, rtag_set, if_neg (rOther_ne _)]
    simp only [Fin.getElem_fin] at live
    simp [live]
  simp only [Ctx.popped, if_pos some, rtop]
  simp only [Ctx.rdropTop, Fin.getElem_fin, rtag_set, if_neg (rOther_ne _)]
  simp only [Fin.getElem_fin] at live
  simp [rtag_set, rOther_ne, live]

/-- The group that holds the newest entry is made the top one, where the cache holds an entry (R43). -/
def Ctx.faced (u : Ctx) : Ctx := if u.rtag[u.rtop].count ≠ 0 then u else { u with rtop := rOther u.rtop }

theorem faced_only (u : Ctx) : ReturnsOnly u u.faced := by
  unfold ReturnsOnly Ctx.faced
  split <;> rfl

/-- The code of a context does not depend on its return cache. -/
theorem codeAddr_faced (u : Ctx) (n : Nat) : u.faced.codeAddr n = u.codeAddr n := by
  unfold Ctx.faced
  split <;> rfl

/-- With an entry in the cache nothing is filled; the newest entry is at hand. -/
theorem rready_present {s : State} {c : CoreId} {x : CtxId} {l : List Word} {v : Word} (h : Returns s c x (l ++ [v])) :
    (∃ s1, s.rready c x = .ok () s1 ∧ s1.core = (s.modCtx c x Ctx.faced).core ∧ RestKept s s1) ∧ (s.ctx c x).faced.rtopVal = v ∧
      (s.ctx c x).faced.rtag[(s.ctx c x).faced.rtop].count ≠ 0 ∧ Holds x (s.ctx c x).faced (l ++ [v]) := by
  have newest : (s.ctx c x).faced.rtopVal = v := (rpop_present s c x l v h).2.2.2
  obtain ⟨h1, h2, h3⟩ := h
  by_cases hc : (s.ctx c x).rtag[(s.ctx c x).rtop].count = 0
  · have none : (s.ctx c x).group (s.ctx c x).rtop = [] := by simp only [Ctx.group, hc]; rfl
    have live : (s.ctx c x).rtag[rOther (s.ctx c x).rtop].live = true := by
      by_contra q
      simp only [Bool.not_eq_true] at q
      simp only [Ctx.returns, none, q] at h1
      simp at h1
    have some : (s.ctx c x).rtag[rOther (s.ctx c x).rtop].count ≠ 0 := by
      intro z
      have other : (s.ctx c x).group (rOther (s.ctx c x).rtop) = [] := by simp only [Ctx.group, z]; rfl
      simp [Ctx.returns, none, other] at h1
    have thread : x ≠ fCtx := fun q => by rw [h3 q] at live; cases live
    have face : (s.ctx c x).faced = { s.ctx c x with rtop := rOther (s.ctx c x).rtop } := by
      simp only [Ctx.faced, hc, ne_eq, not_true_eq_false, if_false]
    refine ⟨⟨s.modCtx c x fun t => { t with rtop := rOther t.rtop }, ?_, ?_, modCore_rest ..⟩, newest, ?_, ?_, ?_, fun q => absurd q thread⟩
    · simp only [State.rready, hc, thread, live, some, ne_eq, not_true_eq_false, not_false_eq_true, if_false, and_self, if_true]
    · exact congrArg State.core (modCtx_congr _ _ _ _ _ face.symm)
    · simp only [face]; exact some
    · rw [face]
      simp only [Ctx.returns, live, none, if_true, List.append_nil] at h1
      simp only [Ctx.returns, rOther_rOther]
      show (if _ then (s.ctx c x).group (s.ctx c x).rtop else []) ++ (s.ctx c x).group (rOther (s.ctx c x).rtop) = _
      rw [none, ite_self, List.nil_append, h1]
    · rw [face]; exact h2
  · have face : (s.ctx c x).faced = s.ctx c x := by simp only [Ctx.faced, hc, ne_eq, not_false_eq_true, if_true]
    refine ⟨⟨s, ?_, (modCtx_id _ _ _ _ face).symm, .refl s⟩, newest, by simp only [face]; exact hc, by rw [face]; exact ⟨h1, h2, h3⟩⟩
    simp only [State.rready, hc, ne_eq, not_false_eq_true, if_true]

/-- Dropping the newest entry of the cache that faces it is the pop. -/
theorem faced_rdropTop (u : Ctx) : u.faced.rdropTop = u.popped := rfl

/-- The newest entry takes a value, the others stay (R97, RLOOP8). -/
theorem rsetTop_holds {x : CtxId} {u : Ctx} {l : List Word} {v : Word} (w : Word) (h : Holds x u (l ++ [v])) (hc : u.rtag[u.rtop].count ≠ 0) :
    Holds x (u.rsetTop w) (l ++ [w]) ∧ ReturnsOnly u (u.rsetTop w) := by
  obtain ⟨h1, h2, h3⟩ := h
  obtain ⟨n, hn⟩ : ∃ n, u.rtag[u.rtop].count.toNat = n + 1 := by
    have : u.rtag[u.rtop].count.toNat ≠ 0 := fun q => hc (BitVec.eq_of_toNat_eq (by simpa using q))
    exact ⟨u.rtag[u.rtop].count.toNat - 1, by omega⟩
  have hn8 : n + 1 ≤ 8 := hn ▸ (h2 u.rtop).1
  have place : rEntry u.rtop (n + 1 + 7) = rEntry u.rtop n := by simp only [rEntry]; apply Fin.ext; simp only; omega
  have tags (g : Fin 2) : (u.rsetTop w).rtag[g].count = u.rtag[g].count ∧ (u.rsetTop w).rtag[g].live = u.rtag[g].live := by
    simp only [Ctx.rsetTop, Fin.getElem_fin, rtag_set]
    split
    · next q => subst q; exact ⟨rfl, rfl⟩
    · exact ⟨rfl, rfl⟩
  have stack : (u.rsetTop w).rstk = u.rstk.set (rEntry u.rtop n) w := by simp only [Ctx.rsetTop, hn, place]
  have other : (u.rsetTop w).group (rOther u.rtop) = u.group (rOther u.rtop) := by
    simp only [Ctx.group, (tags _).1]
    refine List.map_congr_left fun i hi => ?_
    have hi := List.mem_range.mp hi
    have := (h2 (rOther u.rtop)).1
    simp only [stack, Fin.getElem_fin, rstk_set]
    rw [if_neg fun q => rOther_ne u.rtop (rEntry_inj (by omega) (by omega) q).1]
  have split_group (t : Ctx) (ht : t.rtag[u.rtop].count.toNat = n + 1) :
      t.group u.rtop = ((List.range n).map fun i => t.rstk[rEntry u.rtop i]) ++ [t.rstk[rEntry u.rtop n]] := by
    simp only [Ctx.group, ht, List.range_succ, List.map_append, List.map_cons, List.map_nil]
  have top : ((List.range n).map fun i => (u.rsetTop w).rstk[rEntry u.rtop i]) = (List.range n).map fun i => u.rstk[rEntry u.rtop i] := by
    refine List.map_congr_left fun i hi => ?_
    have hi := List.mem_range.mp hi
    simp only [stack, Fin.getElem_fin, rstk_set]
    rw [if_neg fun q => by have := (rEntry_inj (by omega) (by omega) q).2; omega]
  have newest : (u.rsetTop w).rstk[rEntry u.rtop n] = w := by
    simp only [stack, Fin.getElem_fin, rstk_set, if_true]
  rw [Ctx.returns, split_group u hn, ← List.append_assoc] at h1
  obtain ⟨hl, -⟩ := List.append_inj' h1 rfl
  refine ⟨⟨?_, fun g => ?_, fun q => ?_⟩, rfl⟩
  · show (if (u.rsetTop w).rtag[rOther u.rtop].live then (u.rsetTop w).group (rOther u.rtop) else []) ++ (u.rsetTop w).group u.rtop = _
    rw [(tags _).2, other, split_group _ (by rw [(tags _).1, hn]), top, newest, ← List.append_assoc, hl]
  · rw [(tags g).1, (tags g).2]; exact h2 g
  · exact (tags (rOther u.rtop)).2.trans (h3 q)

/-- Cells of the current frame are replaced after a change of the context. -/
theorem replace_core {s s1 : State} {c : CoreId} {x : CtxId} {g : Ctx → Ctx} (pops : Nat) (vs : List Word)
    (h : s1.core = (s.modCtx c x g).core) : (s1.replace c x pops vs).core = (s.modCtx c x fun t => (g t).replace pops vs).core := by
  have same : (s1.replace c x pops vs).core = ((s.modCtx c x g).replace c x pops vs).core := by
    simp only [State.replace, State.modCtx, State.modCore] at h ⊢
    rw [h]
  rw [same, State.replace, modCtx_modCtx]

theorem fits_cells {s : State} {c : CoreId} {x : CtxId} {n : Nat} (h : Cells s c x n) : Fits (s.ctx c x) n [] :=
  .inr ⟨h.1, by have := h.2.1; simp only [List.length_nil]; omega⟩

theorem fits_push {s : State} {c : CoreId} {x : CtxId} (v : Word) (h : (s.ctx c x).depth ≤ 7) : Fits (s.ctx c x) 0 [v] :=
  .inr ⟨Nat.zero_le _, by simp only [List.length_cons, List.length_nil]; omega⟩

/-- An instruction that changes no cell: its core is that of the change of its return cache. -/
theorem noCells_core (s : State) (c : CoreId) (x : CtxId) (g : Ctx → Ctx) :
    (s.modCtx c x g).core = (s.modCtx c x fun t => (g t).replace 0 []).core :=
  congrArg State.core (modCtx_congr _ _ _ _ _ (by simp [Ctx.replace]))

/-! ## The branches of R97 -/

/-- A branch that takes no cell. -/
theorem goes_always {s : State} {c : CoreId} {x : CtxId} {i : Instr} {e : Enc} {body : State → Res (Option Word)} (o : Option Word) {to_ : Word}
    (hi : exec i s = s.simple c x e body) (hb : body s = .ok o s) (ho : o.getD (after s c x e.len) = to_) : Goes s c x i e to_ 0 [] :=
  goes_of hi hb (modCtx_id _ _ _ _ (by simp [Ctx.replace])).symm (.refl s) (fits_none _) ho

/-- A branch on the cell it takes (R97). -/
theorem goes_branchIf {s : State} {c : CoreId} {x : CtxId} {i : Instr} {e : Enc} {test : Word → Bool} {off : Word}
    (hi : exec i s = s.branchIf c x e test off) (h : Cells s c x 1) :
    Goes s c x i e (if test ((s.ctx c x).cell 0) then after s c x e.len + off else after s c x e.len) 1 [] := by
  have need : s.needPops c x 1 0 = .ok () s := needPops_cells h (by have := h.2.1; omega)
  refine goes_of (o := if test ((s.ctx c x).cell 0) then some (after s c x e.len + off) else none) hi
    (by simp only [need, Res.bind_ok]; rfl) rfl (replace_rest ..) (fits_cells h) ?_
  split <;> rfl

theorem goes_ifZero {s : State} {c : CoreId} {x : CtxId} {i : Instr} {e : Enc} {off : Word}
    (hi : exec i s = s.branchIf c x e (fun v => v == 0) off) (h : Cells s c x 1) :
    Goes s c x i e (if (s.ctx c x).cell 0 = 0 then after s c x e.len + off else after s c x e.len) 1 [] := by
  simpa only [beq_iff_eq] using goes_branchIf hi h

theorem goes_ifOther {s : State} {c : CoreId} {x : CtxId} {i : Instr} {e : Enc} {off : Word}
    (hi : exec i s = s.branchIf c x e (fun v => v != 0) off) (h : Cells s c x 1) :
    Goes s c x i e (if (s.ctx c x).cell 0 = 0 then after s c x e.len else after s c x e.len + off) 1 [] := by
  simpa only [bne_iff_ne, ne_eq, ite_not] using goes_branchIf hi h

theorem condEnc_narrow (narrow wide o : Byte) :
    condEnc narrow wide false (o.setWidth 16) = ({ op := narrow, opnd := o.setWidth 32, width := 1 }, o.signExtend 32) := by
  have low : (bits (o.setWidth 16 : BitVec 16) 0 8 : Byte) = o := by simp [bits, BitVec.setWidth_setWidth_of_le]
  simp only [condEnc, low, Bool.false_eq_true, if_false]

/-- Settles O5: the unconditional ones take no cell, the conditional ones test the one they take. -/
theorem branchesGo : Obligations.BranchesGo := by
  intro s c x
  have bz (o : Byte) : exec (.bz8 c x false (o.setWidth 16)) s =
      s.branchIf c x { op := 0x92, opnd := o.setWidth 32, width := 1 } (fun v => v == 0) (o.signExtend 32) := by
    let e := condEnc 0x92 0x93 false (o.setWidth 16)
    change s.branchIf c x e.1 (fun v => v == 0) e.2 = _
    simp only [e, condEnc_narrow]
  have bnz (o : Byte) : exec (.bnz8 c x false (o.setWidth 16)) s =
      s.branchIf c x { op := 0x94, opnd := o.setWidth 32, width := 1 } (fun v => v != 0) (o.signExtend 32) := by
    let e := condEnc 0x94 0x95 false (o.setWidth 16)
    change s.branchIf c x e.1 (fun v => v != 0) e.2 = _
    simp only [e, condEnc_narrow]
  refine ⟨fun o => ?_, fun o => ?_, ?_, fun h => ⟨fun o => ⟨?_, ?_⟩, fun o => ⟨?_, ?_⟩, fun n => ?_, ?_⟩⟩
  · exact goes_always (some (after s c x 2 + o.signExtend 32)) rfl rfl rfl
  · exact goes_always (some (after s c x 3 + o.signExtend 32)) rfl rfl rfl
  · exact goes_always none rfl rfl rfl
  · exact goes_ifZero (bz o) h
  · exact goes_ifOther (bnz o) h
  · exact goes_ifZero (e := { op := 0x93, opnd := o.setWidth 32, width := 2 }) (off := o.signExtend 32) rfl h
  · exact goes_ifOther (e := { op := 0x95, opnd := o.setWidth 32, width := 2 }) (off := o.signExtend 32) rfl h
  · exact goes_ifZero (off := BitVec.ofNat 32 (n.val + 1)) rfl h
  · have need : s.needPops c x 1 0 = .ok () s := needPops_cells h (by have := h.2.1; omega)
    exact goes_of (o := some ((s.ctx c x).cell 0)) rfl (by simp only [need, Res.bind_ok]; rfl) rfl (replace_rest ..) (fits_cells h) rfl

/-! ## Calls, RET and RLOOP8 (R97) -/

/-- A call from a state that the instruction has reached without a change of its cores. -/
theorem callTo_room {s s1 : State} {c : CoreId} {x : CtxId} {e : Enc} (to_ : Word) (hc : s1.core = s.core) (h : RoomFor s c x 1) :
    ∃ s2, s1.callTo c x e to_ = .ok (some to_) s2 ∧ s2.core = (s.modCtx c x fun t => t.pushed (after s c x e.len)).core ∧ RestKept s1 s2 := by
  have own : s1.ctx c x = s.ctx c x := by simp only [State.ctx, hc]
  have room : RoomFor s1 c x 1 := by simpa only [RoomFor, own] using h
  refine ⟨s1.modCtx c x fun t => t.pushed (after s c x e.len), ?_, ?_, modCore_rest ..⟩
  · have push := rpush_room s1 c x (after s c x e.len) room
    simp only [State.callTo, State.npc, own, push, Res.bind_ok]
  · simp only [State.modCtx, State.modCore, hc]

/-- The vectors of CALLV lie in the core's own local scratchpad, which it reaches through port A (R266). -/
theorem callVector_own {c : CoreId} {n : Fin 16} {w : Nat} {via : Via} {own : Bool}
    (h : target (some c) (BitVec.ofNat 32 (0x40 + 4 * n.val)) = .spad w via own) : portA c (w / 4 * 4) = true := by
  have a : (BitVec.ofNat 32 (0x40 + 4 * n.val)).toNat = 0x40 + 4 * n.val := by simp; omega
  simp only [target, a, spadTarget, if_pos (show 0x40 + 4 * n.val < 0x08000000 by omega), if_pos (show 0x40 + 4 * n.val - 0 < 0x40000 by omega),
    Target.spad.injEq, localBase] at h
  obtain ⟨rfl, -, -⟩ := h
  have := c.isLt
  simp only [portA, isShared, Bool.and_eq_true, Bool.not_eq_true', decide_eq_false_iff_not, decide_eq_true_eq]
  omega

/-- CALLV loads its vector from the core's own local scratchpad and calls it (R97). -/
theorem callv_calls {s : State} {c : CoreId} {x : CtxId} {l : List Word} {n : Fin 16} {w : Nat} {via : Via} {own : Bool}
    (hl : Returns s c x l) (hroom : RoomFor s c x 1) (hf : SpadFree s c x (BitVec.ofNat 32 (0x40 + 4 * n.val)) 4 w via own)
    (hc : s.spad.check w = 0) :
    GoesR s c x (.callvN c x n) { op := BitVec.ofNat 8 (0xE0 + n.val) } (valueAt s w 4) 0 [] (l ++ [after s c x 1]) := by
  have word : w / 4 * 4 = w := by have := spadFree_inWord hf (by omega); omega
  have port := callVector_own hf.1
  have read := ctxRead_good hf (by rw [word]; exact hc)
  rw [State.reached, if_pos port] at read
  obtain ⟨s1, load, core1, rest1⟩ := loadBytes_free hf (by omega) read
  obtain ⟨s2, call, core2, rest2⟩ := callTo_room (e := { op := BitVec.ofNat 8 (0xE0 + n.val) }) (valueAt s w 4) core1 hroom
  have room : (if x = fCtx then (s.rpush c x 0).bind fun _ _ => Res.ok () s else .ok () s) = .ok () s := by
    rw [rpush_room s c x 0 hroom, Res.bind_ok, ite_self]
  refine goesR_of (o := some (valueAt s w 4)) (g := fun t => t.pushed (after s c x 1)) rfl ?_ (core2.trans (noCells_core ..)) (rest1.trans rest2)
    (pushed_only ..) (pushed_holds _ hl hroom) (fits_none _) rfl
  simp only [room, load, call, Res.bind_ok]

/-- Settles O6: a call is a push, RET a pop, and RLOOP8 drops or lowers the newest entry. -/
theorem callsReturnLoop : Obligations.CallsReturnLoop := by
  intro s c x l v
  refine ⟨fun hl hroom => ⟨fun o => ?_, fun w => ?_, fun n w via own hf hc => callv_calls hl hroom hf hc, fun h => ?_⟩, fun hl => ⟨?_, fun o => ⟨fun hv => ?_, fun hv => ?_⟩⟩⟩
  · obtain ⟨s1, call, core, rest⟩ := callTo_room (e := { op := 0x96, opnd := o.setWidth 32, width := 2 }) (after s c x 3 + o.signExtend 32) rfl hroom
    exact goesR_of (g := fun t => t.pushed (after s c x 3)) rfl call (core.trans (noCells_core ..)) rest (pushed_only ..)
      (pushed_holds _ hl hroom) (fits_none _) rfl
  · obtain ⟨s1, call, core, rest⟩ := callTo_room (e := { op := 0x97, opnd := w, width := 4 }) w rfl hroom
    exact goesR_of (g := fun t => t.pushed (after s c x 5)) rfl call (core.trans (noCells_core ..)) rest (pushed_only ..)
      (pushed_holds _ hl hroom) (fits_none _) rfl
  · obtain ⟨s1, call, core, rest⟩ := callTo_room (e := { op := 0x98 }) ((s.ctx c x).cell 0) rfl hroom
    have need : s.needPops c x 1 0 = .ok () s := needPops_cells h (by have := h.2.1; omega)
    exact goesR_of (o := some ((s.ctx c x).cell 0)) (g := fun t => t.pushed (after s c x 1)) rfl (by simp only [need, call, Res.bind_ok])
      (replace_core 1 [] core) (rest.trans (replace_rest ..)) (pushed_only ..) (pushed_holds _ hl hroom) (fits_cells h) rfl
  · have pop := (rpop_present s c x l v hl).1
    exact goesR_of (o := some v) (g := Ctx.popped) rfl (by simp only [pop, Res.bind_ok]) (noCells_core ..) (modCore_rest ..) (popped_only _)
      (popped_holds hl) (fits_none _) rfl
  · obtain ⟨⟨s1, present, core, rest⟩, newest, -, -⟩ := rready_present hl
    have own : s1.ctx c x = (s.ctx c x).faced := by rw [State.ctx, core]; exact State.ctx_modCtx ..
    refine goesR_of (o := none) (s1 := s1.modCtx c x Ctx.rdropTop) (g := Ctx.popped) rfl ?_ ?_ (rest.trans (modCore_rest ..)) (popped_only _)
      (popped_holds hl) (fits_none _) rfl
    · simp only [present, Res.bind_ok, own, newest, hv, if_true]
    · rw [← noCells_core]
      simp only [State.modCtx, State.modCore] at core ⊢
      rw [core]
      exact congrArg State.core (modCtx_modCtx s c x Ctx.faced Ctx.rdropTop)
  · obtain ⟨⟨s1, present, core, rest⟩, newest, some', holds⟩ := rready_present hl
    have own : s1.ctx c x = (s.ctx c x).faced := by rw [State.ctx, core]; exact State.ctx_modCtx ..
    obtain ⟨set, only⟩ := rsetTop_holds (v - 1) holds some'
    refine goesR_of (o := some (after s c x 2 + o.signExtend 32)) (s1 := s1.modCtx c x fun t => t.rsetTop (v - 1))
      (g := fun t => t.faced.rsetTop (v - 1)) rfl ?_ ?_ (rest.trans (modCore_rest ..)) ?_ set (fits_none _) rfl
    · simp only [present, Res.bind_ok, own, newest, hv, if_false, State.rel, State.npc, codeAddr_faced]
      rfl
    · rw [← noCells_core]
      simp only [State.modCtx, State.modCore] at core ⊢
      rw [core]
      exact congrArg State.core (modCtx_modCtx s c x Ctx.faced _)
    · exact (faced_only _).trans only

/-! ## TO_R, R_FROM, R_FETCH and RDROP (R93) -/

theorem toR_pushes {s : State} {c : CoreId} {x : CtxId} {l : List Word} (h : Cells s c x 1) (hl : Returns s c x l) (hroom : RoomFor s c x 1) :
    GoesR s c x (.toR c x) { op := 0x40 } (after s c x 1) 1 [] (l ++ [(s.ctx c x).cell 0]) := by
  have need : s.needPops c x 1 0 = .ok () s := needPops_cells h (by have := h.2.1; omega)
  exact goesR_of (o := none) (g := fun t => t.pushed ((s.ctx c x).cell 0)) rfl (by simp only [need, rpush_room _ _ _ _ hroom, Res.bind_ok])
    (replace_core 1 [] rfl) ((modCore_rest ..).trans (replace_rest ..)) (pushed_only ..) (pushed_holds _ hl hroom) (fits_cells h) rfl

theorem rFrom_pops {s : State} {c : CoreId} {x : CtxId} {l : List Word} {v : Word} (h : Cells s c x 0) (hd : (s.ctx c x).depth ≤ 7)
    (hl : Returns s c x (l ++ [v])) : GoesR s c x (.rFrom c x) { op := 0x41 } (after s c x 1) 0 [v] l := by
  have need : s.need c x 0 [] 0 1 = .ok () s := need_cells h (by simp) le_rfl (by omega)
  have pop := (rpop_present s c x l v hl).1
  exact goesR_of (o := none) (g := Ctx.popped) rfl (by simp only [need, pop, Res.bind_ok]) (replace_core 0 [v] rfl)
    ((modCore_rest ..).trans (replace_rest ..)) (popped_only _) (popped_holds hl) (fits_push v hd) rfl

theorem rFetch_copies {s : State} {c : CoreId} {x : CtxId} {l : List Word} {v : Word} (h : Cells s c x 0) (hd : (s.ctx c x).depth ≤ 7)
    (hl : Returns s c x (l ++ [v])) : GoesR s c x (.rFetch c x) { op := 0x42 } (after s c x 1) 0 [v] (l ++ [v]) := by
  have need : s.need c x 0 [] 0 1 = .ok () s := need_cells h (by simp) le_rfl (by omega)
  obtain ⟨⟨s1, present, core, rest⟩, newest, -, holds⟩ := rready_present hl
  have own : s1.ctx c x = (s.ctx c x).faced := by rw [State.ctx, core]; exact State.ctx_modCtx ..
  exact goesR_of (o := none) (g := Ctx.faced) rfl (by simp only [need, present, Res.bind_ok, own, newest]) (replace_core 0 [v] core)
    (rest.trans (replace_rest ..)) (faced_only _) holds (fits_push v hd) rfl

theorem rdrop_pops {s : State} {c : CoreId} {x : CtxId} {l : List Word} {v : Word} (hl : Returns s c x (l ++ [v])) :
    GoesR s c x (.rdrop c x) { op := 0x43 } (after s c x 1) 0 [] l := by
  have pop := (rpop_present s c x l v hl).1
  exact goesR_of (o := none) (g := Ctx.popped) rfl (by simp only [pop, Res.bind_ok]) (noCells_core ..) (modCore_rest ..) (popped_only _)
    (popped_holds hl) (fits_none _) rfl

end Sys2Proof.Machine
end

