-- ==== Sys2Proof/Proofs/Queue.lean ====
section
/-! SUPPORT. A step and the queue (notes/assumptions/4.md), and the reset state. -/

set_option Elab.async false

namespace Sys2Proof.Machine

open Sys2Proof

/-! ## What a raise notes, whatever the power state -/

/-- Only what counting and raising note has changed: event counters, sources, what is held back for the event unit, and what a raise marks
in a core. -/
def Noted (s t : State) : Prop :=
  (∀ d : CoreId, t.core[d] = { s.core[d] with evOvf := t.core[d].evOvf, dozeWake := t.core[d].dozeWake }) ∧
  t = { s with core := t.core, ev := { s.ev with src := t.ev.src }, counters := { s.counters with cnt := t.counters.cnt },
               power := { s.power with napWake := t.power.napWake }, ring := { s.ring with deferred := t.ring.deferred } }

theorem Noted.refl (s : State) : Noted s s := ⟨fun _ => rfl, rfl⟩

theorem Noted.trans {s t u : State} (h1 : Noted s t) (h2 : Noted t u) : Noted s u := by
  obtain ⟨core1, rest1⟩ := h1
  obtain ⟨core2, rest2⟩ := h2
  refine ⟨fun d => ?_, ?_⟩
  · rw [core2 d, core1 d]
  · rw [rest2, rest1]

theorem SourcesOnly.noted {s t : State} {l : List Nat} (h : SourcesOnly s t l) : Noted s t := by
  obtain ⟨-, core, rest⟩ := h
  refine ⟨core, ?_⟩
  rw [rest]

theorem noted_raise (s : State) (n : Fin 512) (p : Word) : Noted s (s.raise n p) := by
  by_cases hm : s.power.mainRst = true
  · rw [State.raise, if_pos hm]
    split
    · exact ⟨fun _ => rfl, rfl⟩
    · exact .refl s
  · exact (sourcesOnly_raise n p (by simpa using hm)).noted

theorem Noted.pending {s t : State} (h : Noted s t) : t.pending = s.pending := by rw [h.2]
theorem Noted.spad {s t : State} (h : Noted s t) : t.spad = s.spad := by rw [h.2]
theorem Noted.vt {s t : State} (h : Noted s t) : t.power.vt = s.power.vt := by rw [h.2]
theorem Noted.holdRun {s t : State} (h : Noted s t) : t.ev.holdRun = s.ev.holdRun := by rw [h.2]
theorem Noted.timer {s t : State} (h : Noted s t) : t.ev.timer = s.ev.timer := by rw [h.2]

/-! ## Timers (R349) -/

/-- Of what a Vesper fast tick moves, only timer `n` has. -/
def OnlyTimer (n : Fin 32) (s t : State) : Prop :=
  t.pending = s.pending ∧ t.power.vt = s.power.vt ∧ t.spad = s.spad ∧ t.ev.holdRun = s.ev.holdRun ∧
  ∀ m : Fin 32, m ≠ n → t.ev.timer[m] = s.ev.timer[m]

theorem timer_set_other (v : Vector Timer 32) {n m : Fin 32} (u : Timer) (h : m ≠ n) : (v.set n u)[m] = v[m] :=
  Vector.getElem_set_ne _ _ fun q => h (Fin.ext q.symm)

theorem onlyTimer_expire (s : State) (n : Fin 32) : OnlyTimer n s (s.timerExpire n) := by
  have h := noted_raise s ⟨112 + n.val, by omega⟩ s.ev.timer[n].load
  refine ⟨h.pending, h.vt, h.spad, h.holdRun, fun m hm => ?_⟩
  exact (timer_set_other _ _ hm).trans (congrArg (fun v : Vector Timer 32 => v[m]) h.timer)

theorem onlyTimer_tick (s : State) (n : Fin 32) : OnlyTimer n s (s.timerTick n) := by
  unfold State.timerTick
  dsimp only
  split
  · exact ⟨rfl, rfl, rfl, rfl, fun _ _ => rfl⟩
  · split
    · exact onlyTimer_expire s n
    · exact ⟨rfl, rfl, rfl, rfl, fun _ hm => timer_set_other _ _ hm⟩

/-- Timer `n` after a tick that reaches it, unless it expires. -/
theorem timer_timerTick (s : State) (n : Fin 32) :
    (s.ev.timer[n].en = true → s.ev.timer[n].cnt ≠ 0 →
      (s.timerTick n).ev.timer[n] = { s.ev.timer[n] with cnt := s.ev.timer[n].cnt - 1 }) ∧
    (s.ev.timer[n].en = false → (s.timerTick n).ev.timer[n] = s.ev.timer[n]) := by
  refine ⟨fun he hc => ?_, fun he => ?_⟩
  · have run : s.timerTick n = { s with ev := { s.ev with
        timer := s.ev.timer.set n { s.ev.timer[n] with cnt := s.ev.timer[n].cnt - 1 } } } := by
      unfold State.timerTick
      exact (if_neg (by simpa using he)).trans (if_neg hc)
    rw [run]
    exact Vector.getElem_set_self _
  · unfold State.timerTick
    rw [if_pos (by simpa using he)]

/-- One timer's part of a tick. -/
def tickOne (slow : Bool) (s : State) (n : Fin 32) : State := if s.ev.timer[n].onTick slow then s.timerTick n else s

theorem onTick_fast {u : Timer} {slow : Bool} (h : u.clk = 0) : u.onTick slow = true := by simp [Timer.onTick, h]

theorem onlyTimer_tickOne (slow : Bool) (s : State) (n : Fin 32) : OnlyTimer n s (tickOne slow s n) := by
  unfold tickOne
  split
  · exact onlyTimer_tick s n
  · exact ⟨rfl, rfl, rfl, rfl, fun _ _ => rfl⟩

/-- A tick's timers, one after another: each sees its own count as the tick found it. -/
theorem tickTimers_fold (slow : Bool) (l : List (Fin 32)) (hl : l.Nodup) (s : State) :
    let t := l.foldl (tickOne slow) s
    t.pending = s.pending ∧ t.power.vt = s.power.vt ∧ t.spad = s.spad ∧ t.ev.holdRun = s.ev.holdRun ∧
    ∀ n : Fin 32, ∃ u : State, u.ev.timer[n] = s.ev.timer[n] ∧
      t.ev.timer[n] = if n ∈ l then (tickOne slow u n).ev.timer[n] else u.ev.timer[n] := by
  induction l generalizing s with
  | nil => exact ⟨rfl, rfl, rfl, rfl, fun n => ⟨s, rfl, rfl⟩⟩
  | cons m l ih =>
    obtain ⟨hm, hl⟩ := List.nodup_cons.1 hl
    obtain ⟨p1, v1, s1, h1, t1⟩ := onlyTimer_tickOne slow s m
    obtain ⟨p2, v2, s2, h2, t2⟩ := ih hl (tickOne slow s m)
    refine ⟨p2.trans p1, v2.trans v1, s2.trans s1, h2.trans h1, fun n => ?_⟩
    obtain ⟨u, own, t2⟩ := t2 n
    by_cases hn : n = m
    · subst hn
      exact ⟨s, rfl, by simpa [hm, own] using t2⟩
    · exact ⟨u, own.trans (t1 n hn), by simpa [hn] using t2⟩

theorem tickTimers_eq (s : State) (slow : Bool) : s.tickTimers slow = (List.finRange 32).foldl (tickOne slow) s := rfl

theorem tickTimers_kept (s : State) (slow : Bool) {t : State} (ht : s.tickTimers slow = t) :
    t.pending = s.pending ∧ t.power.vt = s.power.vt ∧ t.spad = s.spad ∧ t.ev.holdRun = s.ev.holdRun ∧
    ∀ n : Fin 32, ∃ u : State, u.ev.timer[n] = s.ev.timer[n] ∧ t.ev.timer[n] = (tickOne slow u n).ev.timer[n] := by
  have fold := tickTimers_fold slow (List.finRange 32) (List.nodup_finRange 32) s
  rw [← tickTimers_eq, ht] at fold
  obtain ⟨kept, vt, spad, hold, timers⟩ := fold
  refine ⟨kept, vt, spad, hold, fun n => ?_⟩
  obtain ⟨u, own, timer⟩ := timers n
  rw [if_pos (List.mem_finRange n)] at timer
  exact ⟨u, own, timer⟩

/-! ## A tick with nothing waiting -/

theorem agentStep_idle {s : State} (h : AgentIdle s) : s.agentStep = (s, false) := by
  obtain ⟨busy, cmds, resync, daccBusy, daccWait⟩ := h
  simp only [State.agentStep, busy, daccBusy, daccWait, State.frontStep, cmds, resync]

theorem ringKick_idle {s : State} (h : AgentIdle s) : s.ringKick = s := by
  unfold State.ringKick
  split
  · rw [State.agentRun, agentStep_idle h]
    rfl
  · rfl

theorem kick_idle {s : State} (h : AgentIdle s) (hh : s.fabric.held = []) : s.kick = s := by
  have hs : s.slaveKick = s := by rw [State.slaveKick, hh, List.foldl_nil]
  rw [State.kick, hs, ringKick_idle h]

/-- Vesper time after a tick that is neither the alarm's nor the first of a budget window. -/
theorem tick_time {s : State} (ha : s.power.almEn = false) (hw : (s.power.vt + 1).toNat % 1024 ≠ 0) :
    s.tickTime.tickWindow = s.modPower fun p => { p with vt := p.vt + 1 } := by
  have alarm : s.tickTime = s.modPower fun p => { p with vt := p.vt + 1 } := by
    simp only [State.tickTime, execVesperAlarm, State.modPower, ha, Bool.false_and, Bool.false_eq_true, if_false]
  rw [alarm, State.tickWindow]
  exact if_neg hw

/-- The state in which a tick reaches the timers. -/
def nextTime (s : State) : State := (s.modPower fun p => { p with vt := p.vt + 1 }).tickHolds

theorem nextTime_parts (s : State) :
    (nextTime s).pending = s.pending ∧ (nextTime s).power.vt = s.power.vt + 1 ∧ (nextTime s).spad = s.spad ∧
    (nextTime s).ev.timer = s.ev.timer ∧ ∀ g : Fin 32, (nextTime s).ev.holdRun[g] = s.ev.holdRun[g] - 1 := by
  simp [nextTime, State.tickHolds, State.modEv, State.modPower]

/-- A tick with nothing waiting, by whether the event unit runs. -/
theorem tick_idle {s : State} (hp : s.power.pornAon = true) (hi : AgentIdle s) (hh : s.fabric.held = [])
    (hf : s.power.fastClk = true) (ha : s.power.almEn = false) (hw : (s.power.vt + 1).toNat % 1024 ≠ 0) :
    s.tick = (if s.eventsRun then
      (nextTime s).tickTimers (Config.slowTick s.power.vt.toNat)
      else s.modPower fun p => { p with vt := p.vt + 1 }) := by
  simp only [State.tick, hp, Bool.not_true, Bool.false_eq_true, if_false, kick_idle hi hh, hf, tick_time ha hw]
  rfl

theorem step_tick {s : State} (h : s.pending = []) : step s = .next s.tick := by
  rw [step, h]

/-- Settles O57: the queue's front runs, and an idle tick counts time, holds and timers. -/
theorem stepRunsTheFront : Obligations.StepRunsTheFront := by
  unfold Obligations.StepRunsTheFront
  refine ⟨fun _ _ _ => rfl, fun s hq hp => ?_, fun s hq hp hi hh hf ha hw => ⟨fun he => ?_, fun he => ?_⟩⟩
  · rw [step_tick hq, State.tick, if_pos (by simp [hp])]
  · rw [step_tick hq, tick_idle hp hi hh hf ha hw, he]
    rfl
  · rw [step_tick hq, tick_idle hp hi hh hf ha hw, he, if_pos rfl]
    generalize ht : (nextTime s).tickTimers (Config.slowTick s.power.vt.toNat) = t
    obtain ⟨pending, vt, spad, hold, timers⟩ := tickTimers_kept (nextTime s) _ ht
    obtain ⟨pending1, vt1, spad1, timer1, hold1⟩ := nextTime_parts s
    refine ⟨t, rfl, ?_, vt.trans vt1, spad.trans spad1, fun g => by rw [hold]; exact hold1 g, fun n => ?_⟩
    · rw [pending, pending1, hq]
    · obtain ⟨u, own, timer⟩ := timers n
      rw [timer1] at own
      obtain ⟨counts, still⟩ := timer_timerTick u n
      rw [own] at counts still
      refine ⟨fun hen hclk hcnt => ?_, fun hen => ?_⟩
      · rw [timer, tickOne, own, if_pos (onTick_fast hclk)]
        exact counts hen hcnt
      · rw [timer, tickOne]
        split
        · exact still hen
        · exact own

/-- Settles O58: each register is read in the reset state. -/
theorem resetLeaves : Obligations.ResetLeaves := by
  unfold Obligations.ResetLeaves
  refine ⟨rfl, rfl, rfl, rfl, fun c x => ?_, fun c => ?_, fun p => ?_, rfl, rfl, rfl, rfl, rfl, rfl, rfl, rfl, rfl, rfl⟩
  · decide +revert
  · decide +revert
  · decide +revert

/-- Settles O59: the scratchpad lists no byte at reset. -/
theorem memoryCanonicalAtReset : Obligations.MemoryCanonicalAtReset := rfl

end Sys2Proof.Machine
end

