-- ==== Sys2Proof/Proofs/CanonMemory.lean ====
section
/-! SUPPORT. The scratchpads' canonical form through the operations that every unit uses: counting, raising, reads and writes of words, the march
engine, a context's accesses, spills and fills (notes/assumptions/3.md). -/

set_option Elab.async false

namespace Sys2Proof.Machine

open Sys2Proof

/-- The scratchpads are in canonical form. -/
def State.Canon (s : State) : Prop := s.spad.wf = true

/-- A command's answer keeps the canonical form. -/
def AnsCanon (o : Ans) : Prop := ∀ t, o = .next t → t.Canon

theorem State.Canon.of_spad {s t : State} (h : s.Canon) (e : t.spad = s.spad) : t.Canon := by
  rw [State.Canon, e]; exact h

/-- What the form does not speak of may change. -/
theorem State.Canon.of_mem {s t : State} (h : s.Canon) (h1 : t.spad.mem = s.spad.mem) (h2 : t.spad.undef = s.spad.undef)
    (h3 : t.spad.clean = s.spad.clean) : t.Canon := (wf_congr h1 h2 h3).trans h

theorem ansCanon_next {t : State} (h : t.Canon) : AnsCanon (.next t) := fun _ e => Host.Outcome.next.inj e ▸ h

theorem canon_foldl {α : Type} {f : State → α → State} (hf : ∀ t a, t.Canon → (f t a).Canon) (l : List α) {s : State} (h : s.Canon) :
    (l.foldl f s).Canon := by
  induction l generalizing s with
  | nil => exact h
  | cons a l ih => exact ih (hf s a h)

/-! ## Machine/Ops -/

theorem canon_modCore {s : State} (h : s.Canon) (c : CoreId) (f : Core → Core) : (s.modCore c f).Canon := by
  unfold State.modCore
  grind [State.Canon]

theorem canon_modCtx {s : State} (h : s.Canon) (c : CoreId) (x : CtxId) (f : Ctx → Ctx) : (s.modCtx c x f).Canon := by
  unfold State.modCtx
  grind [canon_modCore]

theorem canon_modTb {s : State} (h : s.Canon) (t : TbId) (f : Tb → Tb) : (s.modTb t f).Canon := by
  unfold State.modTb
  grind [State.Canon]

theorem canon_modPort {s : State} (h : s.Canon) (p : Fin 8) (f : Port → Port) : (s.modPort p f).Canon := by
  unfold State.modPort
  grind [State.Canon]

theorem canon_modMs {s : State} (h : s.Canon) (n : Fin 4) (f : Ms → Ms) : (s.modMs n f).Canon := by
  unfold State.modMs
  grind [State.Canon]

theorem canon_modRing {s : State} (h : s.Canon) (f : Ring → Ring) : (s.modRing f).Canon := by
  unfold State.modRing
  grind [State.Canon]

theorem canon_modRp {s : State} (h : s.Canon) (p : PortId) (f : RingPort → RingPort) : (s.modRp p f).Canon := by
  unfold State.modRp
  grind [State.Canon]

theorem canon_allCores {s : State} (h : s.Canon) (f : CoreId → Core → Core) : (s.allCores f).Canon := by
  unfold State.allCores
  grind [State.Canon]

theorem canon_forEach {α : Type} {f : State → α → State} (hf : ∀ t a, t.Canon → (f t a).Canon) (l : List α) {s : State} (h : s.Canon) :
    (forEach l f s).Canon := canon_foldl hf l h

theorem canon_free {s : State} (h : s.Canon) : (s.free).2.Canon := by
  unfold State.free
  grind [State.Canon]

theorem canon_countN {s : State} (h : s.Canon) (c : CoreId) (x : Option CtxId) (ev m : Nat) : (s.countN c x ev m).Canon := by
  unfold State.countN
  grind [State.Canon]

theorem canon_count {s : State} (h : s.Canon) (c : CoreId) (x : CtxId) (ev : Nat) : (s.count c x ev).Canon := by
  unfold State.count
  grind [canon_countN]

theorem canon_countC {s : State} (h : s.Canon) (c : CoreId) (ev : Nat) : (s.countC c ev).Canon := by
  unfold State.countC
  grind [canon_countN]

theorem canon_countB {s : State} (h : s.Canon) (ev : Nat) (m : Nat) : (s.countB ev m).Canon := by
  unfold State.countB
  grind [State.Canon]

theorem canon_seating {s : State} (h : s.Canon) (c : CoreId) (f : Core → Core) : (s.seating c f).Canon := by
  unfold State.seating
  grind [canon_modCore, canon_countC]

theorem canon_setSt {s : State} (h : s.Canon) (c : CoreId) (x : CtxId) (st : CtxState) : (s.setSt c x st).Canon := by
  unfold State.setSt
  grind [canon_seating]

theorem canon_setSrc {s : State} (h : s.Canon) (n : Nat) (v : Source) : (s.setSrc n v).Canon := by
  unfold State.setSrc
  grind [State.Canon]

theorem canon_wakeFor {s : State} (h : s.Canon) (c : CoreId) (core : Bool) : (s.wakeFor c core).Canon := by
  unfold State.wakeFor
  grind [State.Canon, canon_modCore]

theorem canon_rouse {s : State} (h : s.Canon) (c : CoreId) : (s.rouse c).Canon := by
  unfold State.rouse
  grind [canon_modCore]

theorem canon_raiseAt {s : State} (h : s.Canon) (n : Nat) (payload : Word) (ts : Bool × Word × BitVec 16) :
    (s.raiseAt n payload ts).Canon := by
  unfold State.raiseAt
  grind [canon_modCore, canon_countB, canon_setSrc, canon_wakeFor]

theorem canon_raiseNow {s : State} (h : s.Canon) (n : Nat) (payload : Word) : (s.raiseNow n payload).Canon := by
  unfold State.raiseNow
  grind [canon_raiseAt]

theorem canon_raise {s : State} (h : s.Canon) (n : Fin 512) (payload : Word) : (s.raise n payload).Canon := by
  unfold State.raise
  grind [State.Canon, canon_raiseNow]

theorem canon_wentQuiet {s : State} (h : s.Canon) (v : Source) : (s.wentQuiet v).Canon := by
  unfold State.wentQuiet
  grind [canon_modCore, canon_countB]

theorem canon_setLevel {s : State} (h : s.Canon) (n : Fin 512) (lvl : Bool) (payload : Word) : (s.setLevel n lvl payload).Canon := by
  unfold State.setLevel
  grind [canon_setSrc, canon_raiseNow, canon_wentQuiet]

theorem canon_nvmKick {s : State} (h : s.Canon) : (s.nvmKick).Canon := by
  unfold State.nvmKick
  grind [State.Canon]

theorem canon_cause {s : State} (h : s.Canon) (code ctx : Byte) (pc : Word) (detail : BitVec 96) :
    (s.cause code ctx pc detail).Canon := by
  unfold State.cause
  grind [State.Canon, canon_nvmKick]

theorem canon_setWipePend {s : State} (h : s.Canon) (b : Bool) : (s.setWipePend b).Canon := by
  unfold State.setWipePend
  grind [State.Canon, canon_nvmKick]

/-! ## Machine/Spad -/

theorem canon_clearRsv {s : State} (h : s.Canon) (g : Nat) (but : Option (CoreId × CtxId)) : (s.clearRsv g but).Canon := by
  unfold State.clearRsv
  grind [canon_allCores]

theorem canon_dropVectors {s : State} (h : s.Canon) (w : Nat) : (s.dropVectors w).Canon := by
  unfold State.dropVectors
  grind [canon_allCores]

theorem canon_contend {s : State} (h : s.Canon) (m : Fin 20) (w : Nat) : (s.contend m w).Canon := by
  have counted : State.Canon (if isShared w then s.countB 0x51 else s) := by
    split
    · exact canon_countB h ..
    · exact h
  exact counted.of_mem rfl rfl rfl

theorem canon_granted {s : State} (h : s.Canon) (m : Fin 20) (w : Nat) : (s.granted m w).Canon := granted_wf m w h

theorem canon_noteWrite {s : State} (h : s.Canon) (w : Nat) (v : Word) (be : BitVec 4) (by_ : Option (CoreId × CtxId)) :
    (s.noteWrite w v be by_).Canon := noteWrite_wf w v be by_ h

theorem canon_spadUncorr {s : State} (h : s.Canon) (w : Nat) : (s.spadUncorr w).Canon :=
  canon_raise (s := { s with spad := { s.spad with uncorr := true, eaddr := BitVec.ofNat 32 w } }) (h.of_mem rfl rfl rfl) ..

theorem canon_spadRead {s : State} (h : s.Canon) (w : Nat) : (s.spadRead w).2.Canon := by
  unfold State.spadRead
  split
  · exact h
  · exact h.of_mem rfl rfl rfl
  · exact canon_spadUncorr h w

theorem canon_mergeRead {s : State} (h : s.Canon) (w : Nat) : (s.mergeRead w).Canon := mergeRead_wf w h

theorem canon_spadSet {s : State} (h : s.Canon) (w : Nat) (v : Word) (be : BitVec 4) (by_ : Option (CoreId × CtxId)) :
    (s.spadSet w v be by_).Canon := spadSet_wf w v be by_ h

theorem canon_spadPut {s : State} (h : s.Canon) (w : Nat) (v : Word) (be : BitVec 4) (by_ : Option (CoreId × CtxId)) :
    (s.spadPut w v be by_).Canon := by
  unfold State.spadPut
  grind [canon_noteWrite, canon_mergeRead, canon_spadSet]

theorem canon_spadStore {s : State} (h : s.Canon) (w : Nat) (via : Via) (x : Word) (be : BitVec 4) (by_ : Option (CoreId × CtxId)) :
    (s.spadStore w via x be by_).Canon := spadStore_wf w via x be by_ h

theorem canon_secRefuse {s : State} (h : s.Canon) (w : Nat) (master : Fin 20) : (s.secRefuse w master).Canon := h

theorem canon_sliceRestore {s : State} (h : s.Canon) : s.sliceRestore.Canon := sliceRestore_wf h

/-! ## Machine/Cache -/

theorem canon_fabAsk {s : State} (h : s.Canon) (r : FabReq) : (s.fabAsk r).Canon := by
  unfold State.fabAsk
  grind [State.Canon]

theorem canon_flashAsk {s : State} (h : s.Canon) (l : BitVec 27) (who : Requester) : (s.flashAsk l who).Canon := by
  unfold State.flashAsk
  grind [State.Canon]

theorem canon_askLine {s : State} (h : s.Canon) (c : CoreId) (l : BitVec 27) (kind : FabKind) : (s.askLine c l kind).Canon := by
  unfold State.askLine
  grind [canon_fabAsk, canon_flashAsk]

theorem canon_fillError {s : State} (h : s.Canon) (c : CoreId) (l : BitVec 27) : (s.fillError c l).Canon := by
  unfold State.fillError
  grind [canon_modCore]

theorem canon_prefetch {s : State} (h : s.Canon) (c : CoreId) (l : BitVec 27) : (s.prefetch c l).Canon := by
  unfold State.prefetch
  grind [canon_modCore, canon_countC, canon_askLine]

theorem canon_lineAccess {s : State} (h : s.Canon) (c : CoreId) (x : Option CtxId) (l : BitVec 27) (words : BitVec 8) :
    (s.lineAccess c x l words).2.Canon := by
  unfold State.lineAccess
  grind [canon_modCore, canon_countN, canon_askLine, canon_fillError, canon_prefetch]

theorem canon_fillArrival {s : State} (h : s.Canon) (c : CoreId) (i : Fin 4) : (s.fillArrival c i).Canon := by
  unfold State.fillArrival
  grind [canon_modCore, canon_fillError]

theorem canon_invalidate {s : State} (h : s.Canon) (q : CoreId → Bool) (p : BitVec 27 → Bool) : (s.invalidate q p).Canon := by
  unfold State.invalidate
  grind [State.Canon, canon_allCores]

theorem canon_sbStore {s : State} (h : s.Canon) (c : CoreId) (x : CtxId) (a d : Word) (be : BitVec 4) :
    ∀ t, (s.sbStore c x a d be) = some t → t.Canon := by
  unfold State.sbStore
  grind [canon_modCore]

/-! ## Machine/March -/

theorem canon_modMarch {s : State} (h : s.Canon) (f : March → March) : (s.modMarch f).Canon := by
  unfold State.modMarch
  grind [State.Canon]

theorem canon_marchFail {s : State} (h : s.Canon) (w : Nat) : (s.marchFail w).Canon := by
  unfold State.marchFail
  grind [canon_raise, canon_modMarch]

theorem canon_borrow {s : State} (h : s.Canon) (b k : Nat) : (s.borrow b k).Canon := by
  unfold State.borrow
  grind [canon_modMarch]

theorem canon_nextSlice {s : State} (h : s.Canon) : (s.nextSlice).Canon := by
  unfold State.nextSlice
  grind [canon_modMarch, canon_borrow]

theorem canon_sliceLeft {s : State} (h : s.Canon) : (s.sliceLeft).Canon := by
  unfold State.sliceLeft
  grind [canon_modMarch]

theorem canon_saveSlice {s : State} (h : s.Canon) (sl : Slice) : (s.saveSlice sl).1.Canon := by
  unfold State.saveSlice
  dsimp only
  split <;> exact h.of_mem rfl rfl rfl

theorem canon_sliceAbort {s : State} (h : s.Canon) : (s.sliceAbort).Canon := by
  unfold State.sliceAbort
  grind [canon_countB, canon_sliceRestore, canon_modMarch, canon_sliceLeft]

theorem canon_bankWrites {s : State} (h : s.Canon) (banks : List Nat) : (s.bankWrites banks).Canon := by
  unfold State.bankWrites
  grind [canon_allCores]

theorem canon_marchRun {s : State} (h : s.Canon) (banks : List Nat) (ss destroying : Bool) : (s.marchRun banks ss destroying).Canon := by
  unfold State.marchRun
  grind [canon_modMarch, canon_nextSlice, canon_bankWrites]

theorem canon_marchStart {s : State} (h : s.Canon) : (s.marchStart).Canon := by
  unfold State.marchStart
  grind [canon_modMarch, canon_marchRun]

theorem canon_marchStop {s : State} (h : s.Canon) : s.marchStop.Canon := marchStop_wf h

theorem canon_marchCtl {s : State} (h : s.Canon) (v : Word) : (s.marchCtl v).Canon := by
  unfold State.marchCtl
  grind [canon_modMarch, canon_marchStart, canon_marchStop]

theorem canon_marchEnd {s : State} (h : s.Canon) : s.marchEnd.Canon := marchEnd_wf h

theorem canon_serveSlice {s : State} (h : s.Canon) : (s.serveSlice).Canon := by
  unfold State.serveSlice
  grind [canon_allCores]

theorem canon_rowAsked {s : State} (h : s.Canon) (a : Nat) (had : Bool) : (s.rowAsked a had).Canon := by
  unfold State.rowAsked
  grind [canon_modMarch]

/-! ## Machine/Access -/

theorem canon_bind {α β : Type} {r : Res α} {f : α → State → Res β} (hr : r.state.Canon)
    (hf : ∀ v s, s.Canon → (f v s).state.Canon) : (r.bind f).state.Canon := by
  cases r with
  | ok v s => exact hf v s hr
  | fault s c a => exact hr
  | dfault s c a => exact hr
  | wait s w => exact hr
  | hold s => exact hr

theorem canon_Res_onStop {α : Type} {r : Res α} (hr : r.state.Canon) {f : State → State} (hf : ∀ t, t.Canon → (f t).Canon) :
    (r.onStop f).state.Canon := by
  cases r with
  | ok v s => exact hr
  | fault s c a => exact hf s hr
  | dfault s c a => exact hf s hr
  | wait s w => exact hf s hr
  | hold s => exact hf s hr

theorem canon_noteSecure {s : State} (h : s.Canon) (c : CoreId) (a : Word) (code : Byte) : (s.noteSecure c a code).Canon := by
  unfold State.noteSecure
  grind [canon_secRefuse]

theorem canon_spadGate {s : State} (h : s.Canon) (c : CoreId) (x : CtxId) (a : Word) (w : Nat) : (s.spadGate c x a w).state.Canon := by
  unfold State.spadGate
  grind [canon_countC, canon_contend, canon_granted, canon_sliceAbort, Res.state]

theorem canon_ctxRead {s : State} (h : s.Canon) (c : CoreId) (x : CtxId) (a : Word) (w : Nat) : (s.ctxRead c x a w).state.Canon := by
  unfold State.ctxRead
  grind [canon_spadRead, canon_spadGate, Res.state, canon_bind]

theorem canon_ctxWrite {s : State} (h : s.Canon) (c : CoreId) (x : CtxId) (a : Word) (w : Nat) (via : Via) (v : Word) (be : BitVec 4) :
    (s.ctxWrite c x a w via v be).state.Canon := by
  unfold State.ctxWrite
  grind [canon_spadStore, canon_spadGate, Res.state, canon_bind]

theorem canon_fetchInval {s : State} (h : s.Canon) (c : CoreId) (a : Word) (n : Nat) (own : Option CtxId) :
    (s.fetchInval c a n own).Canon := by
  unfold State.fetchInval
  grind [canon_modCore]

theorem canon_ownCode {s : State} (h : s.Canon) (c : CoreId) (x : CtxId) (a : Word) (n : Nat) : (s.ownCode c x a n).Canon := by
  unfold State.ownCode
  grind [canon_count, canon_fetchInval]

/-! ## Machine/Stack -/

theorem canon_longWait {α : Type} {s : State} (h : s.Canon) (c : CoreId) (x : CtxId) (o : LongOp) (w : WaitCause) :
    (s.longWait (α := α) c x o w).state.Canon := by
  unfold State.longWait
  grind [State.Canon, Res.state]

theorem canon_pendingWait {α : Type} {s : State} (h : s.Canon) (c : CoreId) (x : CtxId) (e : Fin 64) :
    (s.pendingWait (α := α) c x e).state.Canon := by
  unfold State.pendingWait
  grind [canon_longWait, Res.state]

theorem canon_ready {s : State} (h : s.Canon) (c : CoreId) (x : CtxId) (es : List (Fin 64)) : (s.ready c x es).state.Canon := by
  unfold State.ready
  grind [canon_pendingWait, Res.state]

theorem canon_need {s : State} (h : s.Canon) (c : CoreId) (x : CtxId) (need : Nat) (touch : List Nat) (pops pushes : Nat) :
    (s.need c x need touch pops pushes).state.Canon := by
  unfold State.need
  grind [canon_ready, Res.state]

theorem canon_needPops {s : State} (h : s.Canon) (c : CoreId) (x : CtxId) (pops pushes : Nat) :
    (s.needPops c x pops pushes).state.Canon := by
  unfold State.needPops
  grind [canon_need, Res.state]

theorem canon_replace {s : State} (h : s.Canon) (c : CoreId) (x : CtxId) (pops : Nat) (vs : List Word) :
    (s.replace c x pops vs).Canon := by
  unfold State.replace
  grind [canon_modCtx]

theorem canon_stackOp {s : State} (h : s.Canon) (c : CoreId) (x : CtxId) (need : Nat) (touch : List Nat) (pops : Nat) (vs : (Nat → Word) →
    List Word) :
    (s.stackOp c x need touch pops vs).state.Canon := by
  unfold State.stackOp
  grind [canon_need, canon_replace, Res.state, canon_bind]

theorem canon_spillStep {s : State} (h : s.Canon) (c : CoreId) (x : CtxId) (code : Byte) (a : Word) (act : State → Res Word) (hact : ∀ t,
    t.Canon → (act t).state.Canon) :
    (s.spillStep c x code a act).state.Canon := by
  unfold State.spillStep
  grind [canon_modCtx, canon_noteSecure, canon_spadGate, Res.state, canon_bind]

theorem canon_spillWrite (c : CoreId) (x : CtxId) (l : List (Word × Word)) {s : State} (h : s.Canon) : (s.spillWrite c x l).state.Canon := by
  induction l generalizing s with
  | nil => exact h
  | cons a l ih =>
    unfold State.spillWrite
    exact canon_bind (canon_spillStep h _ _ _ _ _ fun t ht => canon_ownCode (canon_spadPut ht ..) ..) fun _ t ht => ih ht

theorem canon_fillRead (c : CoreId) (x : CtxId) (l : List (Word × (Word → Bool))) {s : State} (h : s.Canon) :
    (s.fillRead c x l).state.Canon := by
  induction l generalizing s with
  | nil => exact h
  | cons a l ih =>
    unfold State.fillRead
    refine canon_bind (canon_spillStep h _ _ _ _ _ fun t ht => ?_) fun _ t ht => canon_bind (ih ht) fun _ _ hu => hu
    grind [canon_spadRead, Res.state]

theorem canon_spillRecord {s : State} (h : s.Canon) (c : CoreId) (x : CtxId) (k : Fin 4) (a : Word) (vs : List Word) :
    (s.spillRecord c x k a vs).state.Canon := by
  unfold State.spillRecord
  grind [canon_modCtx, canon_spillWrite, Res.state]

theorem canon_fillRecord {s : State} (h : s.Canon) (c : CoreId) (x : CtxId) (k : Fin 4) (a : Word) (n : Nat) (head : Word → Bool) :
    (s.fillRecord c x k a n head).state.Canon := by
  unfold State.fillRecord
  grind [canon_modCtx, canon_fillRead, Res.state]

theorem canon_spillWindow {s : State} (h : s.Canon) (c : CoreId) (x : CtxId) (w : Fin 8) : (s.spillWindow c x w).state.Canon := by
  unfold State.spillWindow
  grind [canon_modCtx, canon_count, canon_ready, canon_spillRecord, Res.state, canon_bind]

theorem canon_fillWindow {s : State} (h : s.Canon) (c : CoreId) (x : CtxId) (w : Fin 8) : (s.fillWindow c x w).state.Canon := by
  unfold State.fillWindow
  grind [canon_modCtx, canon_count, canon_fillRecord, Res.state, canon_bind]

theorem canon_enter {s : State} (h : s.Canon) (c : CoreId) (x : CtxId) : (s.enter c x).state.Canon := by
  unfold State.enter
  grind [canon_modCtx, canon_ready, canon_need, canon_spillWindow, Res.state, canon_bind]

theorem canon_leave {s : State} (h : s.Canon) (c : CoreId) (x : CtxId) : (s.leave c x).state.Canon := by
  unfold State.leave
  grind [canon_modCtx, canon_ready, canon_fillWindow, Res.state, canon_bind]

theorem canon_spillGroup {s : State} (h : s.Canon) (c : CoreId) (x : CtxId) (g : Fin 2) : (s.spillGroup c x g).state.Canon := by
  unfold State.spillGroup
  grind [canon_modCtx, canon_count, canon_spillRecord, Res.state, canon_bind]

theorem canon_rpush {s : State} (h : s.Canon) (c : CoreId) (x : CtxId) (v : Word) : (s.rpush c x v).state.Canon := by
  unfold State.rpush
  grind [canon_modCtx, canon_spillGroup, Res.state, canon_bind]

theorem canon_rready {s : State} (h : s.Canon) (c : CoreId) (x : CtxId) : (s.rready c x).state.Canon := by
  unfold State.rready
  grind [canon_modCtx, canon_count, canon_fillRecord, Res.state, canon_bind]

theorem canon_rpop {s : State} (h : s.Canon) (c : CoreId) (x : CtxId) : (s.rpop c x).state.Canon := by
  unfold State.rpop
  grind [canon_modCtx, canon_rready, Res.state, canon_bind]

theorem canon_rpop2 {s : State} (h : s.Canon) (c : CoreId) (x : CtxId) : (s.rpop2 c x).state.Canon := by
  unfold State.rpop2
  grind [canon_rpop, Res.state, canon_bind]

end Sys2Proof.Machine
end

