-- ==== Sys2Proof/Proofs/CanonUnits.lean ====
section
/-! SUPPORT. The canonical form through the units: the transit engine, ports, contexts, events, pins, resets, the Nightlog, line caches, the load unit,
power, debug and the ring. -/

set_option Elab.async false

namespace Sys2Proof.Machine

open Sys2Proof

/-! ## Machine/Transit -/

theorem canon_modTransit {s : State} (h : s.Canon) (f : Transit → Transit) : (s.modTransit f).Canon := by
  unfold State.modTransit
  grind [State.Canon]

theorem canon_ephLevel {s : State} (h : s.Canon) : (s.ephLevel).Canon := by
  unfold State.ephLevel
  grind [canon_setLevel]

theorem canon_ephError {s : State} (h : s.Canon) : (s.ephError).Canon := by
  unfold State.ephError
  grind [canon_raise, canon_modTransit]

theorem canon_readQueue {s : State} (h : s.Canon) (k : Nat) : (s.readQueue k).2.Canon := by
  unfold State.readQueue
  grind [canon_modTransit, canon_ephError]

theorem canon_wakeCtx {s : State} (h : s.Canon) (c : CoreId) (x : CtxId) : (s.wakeCtx c x).Canon := by
  unfold State.wakeCtx
  grind [canon_modCore, canon_modCtx, canon_countC, canon_setSt, canon_modTransit]

theorem canon_preWake {s : State} (h : s.Canon) (i : BufItem) : (s.preWake i).Canon := by
  unfold State.preWake
  grind [canon_modCore]

theorem canon_actClass3 {s : State} (h : s.Canon) (t : TbId) (i : BufItem) : (s.actClass3 t i).Canon := by
  unfold State.actClass3
  grind [canon_raiseAt, canon_wakeCtx]

theorem canon_tbDrop {s : State} (h : s.Canon) (t : TbId) : (s.tbDrop t).Canon := by
  unfold State.tbDrop
  grind [canon_modTb, canon_countB, canon_raise]

theorem canon_tbLost {s : State} (h : s.Canon) (t : TbId) : (s.tbLost t).Canon := by
  unfold State.tbLost
  grind [canon_modTb, canon_countB, canon_raise]

theorem canon_tbOvf {s : State} (h : s.Canon) (t : TbId) : (s.tbOvf t).Canon := by
  unfold State.tbOvf
  grind [canon_modTb, canon_countB, canon_raise]

theorem canon_tbSlate {s : State} (h : s.Canon) (t : TbId) : (s.tbSlate t).Canon := by
  unfold State.tbSlate
  grind [canon_modTb, canon_countB]

theorem canon_freeItem {s : State} (h : s.Canon) (i : BufItem) : (s.freeItem i).Canon := by
  unfold State.freeItem
  grind [canon_modTransit]

theorem canon_link {s : State} (h : s.Canon) (t : TbId) (slot : Nat) (cls : BitVec 2) (i : Nat) : (s.link t slot cls i).Canon := by
  unfold State.link
  grind [canon_modTransit, canon_readQueue]

theorem canon_carry {s : State} (h : s.Canon) (t : TbId) (i : BufItem) : (s.carry t i).Canon := by
  unfold State.carry
  grind [canon_modTb, canon_countB, canon_tbLost, canon_freeItem]

theorem canon_placeLate {s : State} (h : s.Canon) (t : TbId) (i : BufItem) : (s.placeLate t i).Canon := by
  unfold State.placeLate
  grind [canon_modTb, canon_countB, canon_preWake]

theorem canon_late_decidePath (n : Nat) :
    (∀ (s : State) (t : TbId) (slot : Nat) (cls : BitVec 2) (i : Nat), s.Canon → (State.decidePath n s t slot cls i).Canon) ∧
    ∀ (s : State) (t : TbId) (ovr : Bool) (i : BufItem), s.Canon → (State.late n s t ovr i).Canon := by
  induction n with
  | zero =>
    refine ⟨fun s t slot cls i h => ?_, fun s t ovr i h => ?_⟩
    · rw [State.decidePath]
      exact canon_link h ..
    · rw [State.late]
      exact h
  | succ n ih =>
    obtain ⟨path, late⟩ := ih
    refine ⟨fun s t slot cls i h => ?_, fun s t ovr i h => ?_⟩
    · rw [State.decidePath]
      dsimp only
      split
      · exact canon_link h ..
      · exact late _ _ _ _ h
      · grind [canon_link, canon_placeLate]
    · rw [State.late]
      grind [canon_tbDrop, canon_freeItem, canon_carry, canon_countB, canon_modTb, canon_modTransit]

theorem canon_late {s : State} (h : s.Canon) (n : Nat) (t : TbId) (ovr : Bool) (i : BufItem) : (State.late n s t ovr i).Canon :=
  (canon_late_decidePath n).2 s t ovr i h

theorem canon_decidePath {s : State} (h : s.Canon) (n : Nat) (t : TbId) (slot : Nat) (cls : BitVec 2) (i : Nat) :
    (State.decidePath n s t slot cls i).Canon := (canon_late_decidePath n).1 s t slot cls i h

theorem canon_lateAll {s : State} (h : s.Canon) (t : TbId) (l : List BufItem) : (s.lateAll t l).Canon :=
  canon_foldl (fun _ i hu => canon_late hu 8 t false i) l h

theorem canon_walkQueue {s : State} (h : s.Canon) (t : TbId) (m : WalkMode) (f : BitVec 16) (slot : Nat) (w : WalkAcc)
    (q : Nat × List Nat) : (s.walkQueue t m f slot w q).1.Canon := by
  unfold State.walkQueue
  dsimp only
  refine canon_foldl (fun u i hu => ?_) _ ?_
  · grind [canon_late, canon_tbOvf]
  · grind [canon_ephError, canon_modTransit, canon_readQueue]

theorem canon_cleanup {s : State} (h : s.Canon) (t : TbId) (f : BitVec 16) (slot : Nat) : (s.cleanup t f slot).Canon := by
  unfold State.cleanup
  grind [canon_walkQueue, canon_foldl]

theorem canon_startWalk {s : State} (h : s.Canon) (t : TbId) (f : BitVec 16) (slot : Nat) (lateWalk : Bool) :
    (s.startWalk t f slot lateWalk).Canon := by
  unfold State.startWalk
  grind [canon_modTb, canon_modTransit]

theorem canon_pump {s : State} (h : s.Canon) (n : Nat) (t : TbId) : (State.pump n s t).Canon := by
  induction n generalizing s with
  | zero => exact h
  | succ n ih =>
    unfold State.pump
    grind [canon_modTb, canon_lateAll, canon_tbSlate, canon_startWalk]

theorem canon_walkEnd {s : State} (h : s.Canon) (t : TbId) : (s.walkEnd t).Canon := by
  have walked (w : Walk) (l : List (Nat × List Nat)) (r : State × WalkAcc) (hr : r.1.Canon) :
      (l.foldl (fun (r : State × WalkAcc) q => r.1.walkQueue t .place w.frame w.slot r.2 q) r).1.Canon := by
    induction l generalizing r with
    | nil => exact hr
    | cons q l ih => exact ih _ (canon_walkQueue hr ..)
  unfold State.walkEnd
  split
  · exact h
  · split
    · exact h
    · exact canon_ephLevel (canon_foldl (fun u i hu => canon_preWake hu i) _ (canon_modTb (walked _ _ _ h) ..))

theorem canon_sortEnd {s : State} (h : s.Canon) (t : TbId) : (s.sortEnd t).Canon := by
  unfold State.sortEnd
  grind [canon_modTb, canon_ephLevel, canon_pump]

theorem canon_lateMerge {s : State} (h : s.Canon) (t : TbId) : (s.lateMerge t).Canon := by
  unfold State.lateMerge
  grind [canon_modTb]

theorem canon_timerExpire {s : State} (h : s.Canon) (n : Fin 32) : (s.timerExpire n).Canon := by
  unfold State.timerExpire
  grind [State.Canon, canon_raise]

theorem canon_timerTick {s : State} (h : s.Canon) (n : Fin 32) : (s.timerTick n).Canon := by
  unfold State.timerTick
  grind [State.Canon, canon_timerExpire]

theorem canon_slotTicks {s : State} (h : s.Canon) (t : TbId) : (s.slotTicks t).Canon := by
  unfold State.slotTicks
  grind [canon_timerTick, canon_foldl]

theorem canon_frameChange {s : State} (h : s.Canon) (t : TbId) (restart : Bool) : (s.frameChange t restart).Canon := by
  unfold State.frameChange
  grind [canon_modTb, canon_modMs]

theorem canon_movePos {s : State} (h : s.Canon) (t : TbId) (slot grain : Nat) (frameCh restart : Bool) :
    (s.movePos t slot grain frameCh restart).Canon := by
  unfold State.movePos
  grind [canon_modTb, canon_slotTicks, canon_frameChange]

theorem canon_enterPos {s : State} (h : s.Canon) (t : TbId) (slot grain : Nat) (restart : Bool) :
    (s.enterPos t slot grain restart).Canon := by
  unfold State.enterPos
  grind [canon_modTb, canon_lateAll, canon_cleanup, canon_movePos, canon_pump, canon_foldl]

theorem canon_firstPos {s : State} (h : s.Canon) (t : TbId) (slot grain : Nat) : (s.firstPos t slot grain).Canon := by
  unfold State.firstPos
  grind [canon_modTb, canon_cleanup, canon_pump, canon_foldl]

theorem canon_actArmed {s : State} (h : s.Canon) (t : TbId) : (s.actArmed t).Canon := by
  unfold State.actArmed
  grind [canon_modTb, canon_actClass3, canon_foldl]

theorem canon_presentLanes {s : State} (h : s.Canon) (t : TbId) (none_ : Bool) : (s.presentLanes t none_).Canon := by
  unfold State.presentLanes
  grind [canon_modTb, canon_modPort, canon_countB, canon_freeItem, canon_lateAll, canon_actArmed, canon_foldl]

theorem canon_beginPause {s : State} (h : s.Canon) (t : TbId) : (s.beginPause t).Canon := by
  unfold State.beginPause
  grind [canon_modTb, canon_modPort]

theorem canon_endPause {s : State} (h : s.Canon) (t : TbId) : (s.endPause t).Canon := by
  unfold State.endPause
  grind [canon_modTb, canon_lateAll, canon_walkQueue, canon_cleanup, canon_pump, canon_foldl]

theorem canon_resumeAll {s : State} (h : s.Canon) : (s.resumeAll).Canon := by
  unfold State.resumeAll
  grind [canon_ephLevel, canon_endPause, canon_foldl]

theorem canon_pauseAll {s : State} (h : s.Canon) : (s.pauseAll).Canon := by
  unfold State.pauseAll
  grind [canon_beginPause, canon_foldl]

theorem canon_tbSample {s : State} (h : s.Canon) (t : TbId) (run : Bool) (slot grain : Nat) (restart short : Bool) :
    (s.tbSample t run slot grain restart short).Canon := by
  unfold State.tbSample
  grind [canon_modTb, canon_movePos, canon_enterPos, canon_firstPos, canon_presentLanes, canon_beginPause, canon_endPause]

theorem canon_accept {s : State} (h : s.Canon) (g : Staged) : (s.accept g).Canon := by
  unfold State.accept
  dsimp only
  split
  · exact h
  · exact canon_ephLevel (canon_decidePath (canon_countB (s := { s with transit := (s.transit.alloc g.e).2 }) h ..) ..)

theorem canon_transitAccept {s : State} (h : s.Canon) (g : Fin 4) : (s.transitAccept g).Canon := by
  unfold State.transitAccept
  grind [canon_modCore, canon_modTransit, canon_accept]

theorem canon_flushQueue {s : State} (h : s.Canon) (k : Nat) : (s.flushQueue k).Canon := by
  unfold State.flushQueue
  grind [canon_modTransit, canon_ephLevel, canon_ephError, canon_readQueue]

theorem canon_flushTb {s : State} (h : s.Canon) (t : TbId) : (s.flushTb t).Canon := by
  unfold State.flushTb
  grind [canon_modTb, canon_modPort, canon_modTransit, canon_ephLevel, canon_flushQueue, canon_foldl]

theorem canon_resetEph {s : State} (h : s.Canon) : (s.resetEph).Canon := by
  unfold State.resetEph
  grind [canon_modTransit, canon_ephLevel]

theorem canon_readEntry {s : State} (h : s.Canon) (i : Nat) : (s.readEntry i).Canon := by
  unfold State.readEntry
  grind [canon_free, canon_modTransit]

theorem canon_readQueueCmd {s : State} (h : s.Canon) (k : Nat) : (s.readQueueCmd k).Canon := by
  unfold State.readQueueCmd
  grind [canon_modTransit]

theorem canon_trnCmd {s : State} (h : s.Canon) (op : BitVec 4) : (s.trnCmd op).Canon := by
  unfold State.trnCmd
  grind [canon_modTransit, canon_flushQueue, canon_flushTb, canon_resetEph, canon_readEntry, canon_readQueueCmd]

theorem canon_trnCmdDone {s : State} (h : s.Canon) : (s.trnCmdDone).Canon := by
  unfold State.trnCmdDone
  grind [canon_modTb, canon_raise, canon_modTransit, canon_flushQueue]

theorem canon_tbCfgWrite {s : State} (h : s.Canon) (t : TbId) (v : Word) : (s.tbCfgWrite t v).Canon := by
  unfold State.tbCfgWrite
  grind [canon_modTb, canon_modTransit, canon_flushTb]

theorem canon_execTransitAccept (g : Fin 4) {s : State} (h : s.Canon) : AnsCanon (execTransitAccept g s) := by
  unfold execTransitAccept
  grind [canon_transitAccept, AnsCanon]

theorem canon_execLateInsertMerge (t : TbId) {s : State} (h : s.Canon) : AnsCanon (execLateInsertMerge t s) := by
  unfold execLateInsertMerge
  grind [canon_lateMerge, AnsCanon]

theorem canon_execWalkEnd (t : TbId) {s : State} (h : s.Canon) : AnsCanon (execWalkEnd t s) := by
  unfold execWalkEnd
  grind [canon_walkEnd, AnsCanon]

theorem canon_execSortEnd (t : TbId) {s : State} (h : s.Canon) : AnsCanon (execSortEnd t s) := by
  unfold execSortEnd
  grind [canon_sortEnd, AnsCanon]

theorem canon_execTrnCmdDone {s : State} (h : s.Canon) : AnsCanon (execTrnCmdDone s) := by
  unfold execTrnCmdDone
  grind [canon_trnCmdDone, AnsCanon]

theorem canon_execQueueStateClearDone {s : State} (h : s.Canon) : AnsCanon (execQueueStateClearDone s) := by
  unfold execQueueStateClearDone
  grind [canon_modTransit, AnsCanon]

/-! ## Machine/Ports -/

theorem canon_msRecord {s : State} (h : s.Canon) (n : Fin 4) (e : Int) (aligned : BitVec 16) (genmin hops : Nat) (total units : Nat) :
    (s.msRecord n e aligned genmin hops total units).Canon := by
  unfold State.msRecord
  grind [State.Canon, canon_modMs, canon_raise]

theorem canon_msSync {s : State} (h : s.Canon) (n : Fin 4) (p : PortId) (src : BitVec 7) (r : SyncRec) (within : BitVec 6) :
    (s.msSync n p src r within).Canon := by
  unfold State.msSync
  grind [canon_modMs, canon_msRecord]

theorem canon_msLocal {s : State} (h : s.Canon) (n : Fin 4) : (s.msLocal n).Canon := by
  unfold State.msLocal
  grind [canon_msRecord]

theorem canon_syncSend {s : State} (h : s.Canon) (n : Fin 4) (line : Nat) : (s.syncSend n line).Canon := by
  unfold State.syncSend
  grind [canon_modMs, canon_modRp, canon_foldl]

theorem canon_msQuad {s : State} (h : s.Canon) (n : Fin 4) (line quad : Nat) : (s.msQuad n line quad).Canon := by
  unfold State.msQuad
  grind [canon_modPort, canon_modMs, canon_msLocal, canon_syncSend]

theorem canon_portSample {s : State} (h : s.Canon) (n : Fin 8) (slot unit : Nat) (run hold good short : Bool) :
    (s.portSample n slot unit run hold good short).Canon := by
  unfold State.portSample
  grind [canon_modPort, canon_raise, canon_tbSample]

theorem canon_beamSample {s : State} (h : s.Canon) (n : Fin 4) (line : BitVec 13) (quad : BitVec 12) (run hold par : Bool) :
    (s.beamSample n line quad run hold par).Canon := by
  unfold State.beamSample
  grind [canon_msQuad, canon_portSample]

theorem canon_execBeamPositionSample (n : Fin 4) (line : BitVec 13) (quad : BitVec 12) (run hold par : Bool) {s : State} (h : s.Canon) :
    AnsCanon (execBeamPositionSample n line quad run hold par s) := by
  unfold execBeamPositionSample
  grind [canon_ephLevel, canon_beamSample, AnsCanon]

theorem canon_execSoundPositionSample (m : Fin 4) (blk : BitVec 13) (smp : BitVec 6) (run hold par : Bool) (aclks : Nat) {s : State} (h :
    s.Canon) :
    AnsCanon (execSoundPositionSample m blk smp run hold par aclks s) := by
  unfold execSoundPositionSample
  grind [canon_ephLevel, canon_portSample, AnsCanon]

theorem canon_portCtl {s : State} (h : s.Canon) (n : Fin 8) (v : Word) : (s.portCtl n v).Canon := by
  unfold State.portCtl
  grind [canon_modTb, canon_modPort, canon_beginPause]

theorem canon_execMeridianMissExpiry (n : Fin 4) {s : State} (h : s.Canon) : AnsCanon (execMeridianMissExpiry n s) := by
  unfold execMeridianMissExpiry
  grind [canon_modMs, canon_raise, AnsCanon]

theorem canon_execMeridianHoldoverExpiry (n : Fin 4) {s : State} (h : s.Canon) : AnsCanon (execMeridianHoldoverExpiry n s) := by
  unfold execMeridianHoldoverExpiry
  grind [canon_modMs, canon_raise, AnsCanon]

/-! ## Machine/Trace -/

theorem canon_modDbg {s : State} (h : s.Canon) (f : Debug → Debug) : (s.modDbg f).Canon := by
  unfold State.modDbg
  grind [State.Canon]

theorem canon_traceSettle {s : State} (h : s.Canon) : (s.traceSettle).Canon := by
  unfold State.traceSettle
  grind [State.Canon]

theorem canon_packet {s : State} (h : s.Canon) (halt : Bool) (low data : Word) : (s.packet halt low data).Canon := by
  unfold State.packet
  grind [canon_modDbg, canon_traceSettle]

theorem canon_haltPacket {s : State} (h : s.Canon) (c : CoreId) (halted : Bool) : (s.haltPacket c halted).Canon := by
  unfold State.haltPacket
  grind [canon_free, canon_packet]

theorem canon_modWdt {s : State} (h : s.Canon) (c : CoreId) (f : Wdt → Wdt) : (s.modWdt c f).Canon := by
  unfold State.modWdt
  grind [State.Canon]

theorem canon_saveSlot {s : State} (h : s.Canon) (c : CoreId) (x : CtxId) : (s.saveSlot c x).Canon := by
  unfold State.saveSlot
  grind [canon_modCtx, canon_count]

theorem canon_takeX {s : State} (h : s.Canon) (c : CoreId) : (s.takeX c).Canon := by
  unfold State.takeX
  grind [canon_saveSlot]

theorem canon_haltRequest {s : State} (h : s.Canon) (m : Fin 18) (cause : BitVec 2) : (s.haltRequest m cause).Canon := by
  unfold State.haltRequest
  grind [canon_modCore, canon_modDbg]

theorem canon_coreRelease {s : State} (h : s.Canon) (c : CoreId) : (s.coreRelease c).Canon := by
  unfold State.coreRelease
  grind [canon_seating, canon_haltPacket, canon_modWdt]

theorem canon_release {s : State} (h : s.Canon) (m : Fin 18) : (s.release m).Canon := by
  unfold State.release
  grind [canon_modTransit, canon_resumeAll, canon_modDbg, canon_coreRelease]

theorem canon_fireLines {s : State} (h : s.Canon) (lines : BitVec 4) : (s.fireLines lines).Canon := by
  unfold State.fireLines
  grind [canon_haltRequest, canon_release, canon_foldl]

theorem canon_coreHalt {s : State} (h : s.Canon) (c : CoreId) (cause : BitVec 2) : (s.coreHalt c cause).Canon := by
  unfold State.coreHalt
  grind [canon_countC, canon_seating, canon_haltPacket, canon_takeX, canon_fireLines]

theorem canon_bkptStop {s : State} (h : s.Canon) (c : CoreId) : (s.bkptStop c).Canon := by
  unfold State.bkptStop
  grind [canon_coreHalt]

theorem canon_haltArrive {s : State} (h : s.Canon) (m : Fin 18) : (s.haltArrive m).Canon := by
  unfold State.haltArrive
  grind [canon_modTransit, canon_pauseAll, canon_modDbg, canon_fireLines, canon_coreHalt]

theorem canon_releaseAll {s : State} (h : s.Canon) : (s.releaseAll).Canon := by
  unfold State.releaseAll
  grind [canon_allCores, canon_modDbg, canon_release, canon_foldl]

theorem canon_setDbgLevel {s : State} (h : s.Canon) (n : BitVec 2) : (s.setDbgLevel n).Canon := by
  unfold State.setDbgLevel
  grind [canon_modDbg, canon_traceSettle, canon_releaseAll]

theorem canon_dbgDefault {s : State} (h : s.Canon) : (s.dbgDefault).Canon := by
  unfold State.dbgDefault
  grind [canon_setDbgLevel]

/-! ## Machine/Context -/

theorem canon_dropReads {s : State} (h : s.Canon) (c : CoreId) (x : CtxId) (loads ldfs : Bool) : (s.dropReads c x loads ldfs).Canon := by
  unfold State.dropReads
  grind [State.Canon, canon_modCtx]

theorem canon_abandon {s : State} (h : s.Canon) (c : CoreId) (x : CtxId) : (s.abandon c x).Canon := by
  unfold State.abandon
  grind [canon_modCtx, canon_count]

theorem canon_unrecorded {s : State} (h : s.Canon) (c : CoreId) (x : CtxId) : (s.unrecorded c x).Canon := by
  unfold State.unrecorded
  grind [canon_modCtx, canon_countN]

theorem canon_takeFault {s : State} (h : s.Canon) (c : CoreId) (x : CtxId) (code : Byte) (faddr : Word) (imprec : Bool) :
    (s.takeFault c x code faddr imprec).Canon := by
  unfold State.takeFault
  grind [canon_modCtx, canon_setSt, canon_raise, canon_dropReads, canon_unrecorded]

theorem canon_preciseFault {s : State} (h : s.Canon) (c : CoreId) (x : CtxId) (code : Byte) (faddr : Word) :
    (s.preciseFault c x code faddr).Canon := by
  unfold State.preciseFault
  grind [canon_modCtx, canon_count, canon_takeFault]

theorem canon_doubleFault {s : State} (h : s.Canon) (c : CoreId) (x : CtxId) (code : Byte) (faddr : Word) :
    (s.doubleFault c x code faddr).Canon := by
  unfold State.doubleFault
  grind [canon_modCtx, canon_count, canon_setSt, canon_raise, canon_cause, canon_unrecorded]

theorem canon_knowFault {s : State} (h : s.Canon) (c : CoreId) (x : CtxId) (code : Byte) (faddr : Word) :
    (s.knowFault c x code faddr).Canon := by
  unfold State.knowFault
  grind [canon_modCtx, canon_count, canon_takeFault, canon_preciseFault]

theorem canon_execImpreciseFault (c : CoreId) (x : CtxId) {s : State} (h : s.Canon) : AnsCanon (execImpreciseFault c x s) := by
  unfold execImpreciseFault
  grind [canon_modCtx, canon_count, canon_takeFault, AnsCanon]

theorem canon_enterWait {s : State} (h : s.Canon) (c : CoreId) (x : CtxId) (w : WaitCause) : (s.enterWait c x w).Canon := by
  unfold State.enterWait
  grind [canon_modCtx, canon_count, canon_setSt, canon_saveSlot]

theorem canon_execWaitEnd (c : CoreId) (x : CtxId) {s : State} (h : s.Canon) : AnsCanon (execWaitEnd c x s) := by
  unfold execWaitEnd
  grind [canon_modCtx, canon_setSt, AnsCanon]

theorem canon_passOn {s : State} (h : s.Canon) (c : CoreId) (x : CtxId) : (s.passOn c x).Canon := by
  unfold State.passOn
  grind [canon_seating]

theorem canon_execQuantumExpiry (c : CoreId) {s : State} (h : s.Canon) : AnsCanon (execQuantumExpiry c s) := by
  unfold execQuantumExpiry
  grind [canon_passOn, AnsCanon]

theorem canon_makeReady {s : State} (h : s.Canon) (c : CoreId) (x : CtxId) : (s.makeReady c x).Canon := by
  unfold State.makeReady
  grind [canon_modCtx, canon_setSt]

theorem canon_startCtx {s : State} (h : s.Canon) (c : CoreId) (x : CtxId) (p : BitVec 2) : (s.startCtx c x p).Canon := by
  unfold State.startCtx
  grind [canon_modCtx, canon_rouse, canon_coreHalt, canon_makeReady]

theorem canon_resetCtx {s : State} (h : s.Canon) (c : CoreId) (x : CtxId) : (s.resetCtx c x).Canon := by
  unfold State.resetCtx
  grind [canon_modCore, canon_modCtx, canon_countN, canon_setSt, canon_dropReads, canon_abandon, canon_unrecorded]

theorem canon_resumeCtx {s : State} (h : s.Canon) (c : CoreId) (x : CtxId) : (s.resumeCtx c x).Canon := by
  unfold State.resumeCtx
  grind [canon_modCtx, canon_makeReady]

theorem canon_stopCtx {s : State} (h : s.Canon) (c : CoreId) (x : CtxId) : (s.stopCtx c x).Canon := by
  unfold State.stopCtx
  grind [canon_modCtx]

theorem canon_setCntd {s : State} (h : s.Canon) (c : CoreId) (x : CtxId) (b : Bool) : (s.setCntd c x b).Canon := by
  unfold State.setCntd
  grind [canon_seating]

theorem canon_thrAttr {s : State} (h : s.Canon) (c : CoreId) (x : CtxId) (v : Word) : (s.thrAttr c x v).Canon := by
  unfold State.thrAttr
  grind [canon_modCtx, canon_setCntd]

theorem canon_thrCtl {s : State} (h : s.Canon) (c : CoreId) (x : CtxId) (v : Word) (wp : BitVec 2) : (s.thrCtl c x v wp).Canon := by
  unfold State.thrCtl
  grind [canon_startCtx, canon_resetCtx, canon_resumeCtx, canon_stopCtx, canon_thrAttr]

theorem canon_execParkAtBoundary (c : CoreId) (x : CtxId) {s : State} (h : s.Canon) : AnsCanon (execParkAtBoundary c x s) := by
  unfold execParkAtBoundary
  grind [canon_modCtx, canon_setSt, canon_saveSlot, canon_dropReads, AnsCanon]

theorem canon_execCntdTakeEffect (c : CoreId) (x : CtxId) {s : State} (h : s.Canon) : AnsCanon (execCntdTakeEffect c x s) := by
  unfold execCntdTakeEffect
  grind [canon_setCntd, AnsCanon]

theorem canon_fIdle {s : State} (h : s.Canon) (c : CoreId) : (s.fIdle c).Canon := by
  unfold State.fIdle
  grind [canon_setSt]

/-! ## Machine/Events -/

theorem canon_modEv {s : State} (h : s.Canon) (f : Events → Events) : (s.modEv f).Canon := by
  unfold State.modEv
  grind [State.Canon]

theorem canon_levelCheck {s : State} (h : s.Canon) (n : Nat) : (s.levelCheck n).Canon := by
  unfold State.levelCheck
  grind [canon_raiseNow]

theorem canon_evSrcWrite {s : State} (h : s.Canon) (n : SrcId) (w : Word) : (s.evSrcWrite n w).Canon := by
  unfold State.evSrcWrite
  grind [canon_modCore, canon_setSrc, canon_wentQuiet, canon_modEv, canon_levelCheck]

theorem canon_execSourceRaise (n : SrcId) (payload : Word) {s : State} (h : s.Canon) : AnsCanon (execSourceRaise n payload s) := by
  unfold execSourceRaise
  grind [canon_raise, canon_setLevel, AnsCanon]

theorem canon_passRecords {s : State} (h : s.Canon) (c : CoreId) (p : BitVec 13 → Bool) : (s.passRecords c p).Canon := by
  unfold State.passRecords
  grind [canon_setSrc, canon_levelCheck, canon_foldl]

theorem canon_deliver {s : State} (h : s.Canon) (c : CoreId) : (s.deliver c).Canon := by
  unfold State.deliver
  grind [canon_modEv]

theorem canon_evqRdWrite {s : State} (h : s.Canon) (c : CoreId) (v : Word) : (s.evqRdWrite c v).Canon := by
  unfold State.evqRdWrite
  grind [canon_modCore, canon_passRecords]

theorem canon_evqBaseWrite {s : State} (h : s.Canon) (c : CoreId) (v : Word) : (s.evqBaseWrite c v).Canon := by
  unfold State.evqBaseWrite
  grind [canon_modCore, canon_passRecords]

theorem canon_evcWake {s : State} (h : s.Canon) (c : CoreId) : (s.evcWake c).Canon := by
  unfold State.evcWake
  grind [canon_seating]

theorem canon_execEventRecordWrite {s : State} (h : s.Canon) : AnsCanon (execEventRecordWrite s) := by
  unfold execEventRecordWrite
  grind [canon_modCore, canon_countB, canon_setSrc, canon_wakeFor, canon_granted, canon_spadPut, canon_rowAsked, canon_modEv,
    canon_levelCheck, canon_evcWake, canon_foldl, AnsCanon]

theorem canon_execHoldoffExpiry (g : Fin 32) {s : State} (h : s.Canon) : AnsCanon (execHoldoffExpiry g s) := by
  unfold execHoldoffExpiry
  grind [canon_modEv, AnsCanon]

theorem canon_enterFast {s : State} (h : s.Canon) (c : CoreId) (n : Nat) : (s.enterFast c n).Canon := by
  unfold State.enterFast
  grind [canon_modCtx, canon_setSt, canon_setSrc, canon_evcWake]

theorem canon_execFvecReload (c : CoreId) (k : Fin 8) {s : State} (h : s.Canon) : AnsCanon (execFvecReload c k s) := by
  have reads (a : Nat) (l : List Nat) (r : Bool × State) (hr : r.2.Canon) :
      (l.foldl (fun (r : Bool × State) i => (r.1 && (r.2.spadRead (a + 4 * i)).1.isSome, (r.2.spadRead (a + 4 * i)).2)) r).2.Canon := by
    induction l generalizing r with
    | nil => exact hr
    | cons i l ih => exact ih _ (canon_spadRead hr _)
  unfold execFvecReload
  dsimp only
  split
  · exact ansCanon_next (canon_modCore (reads _ _ _ h) ..)
  · exact ansCanon_next h

theorem canon_entryPush {s : State} (h : s.Canon) (c : CoreId) (x : CtxId) (a word : Word) : (s.entryPush c x a word).state.Canon := by
  unfold State.entryPush
  grind [canon_modCtx, canon_rpush, canon_bind, Res.state]

theorem canon_execTimerExpiry (n : Fin 32) {s : State} (h : s.Canon) : AnsCanon (execTimerExpiry n s) := by
  unfold execTimerExpiry
  grind [canon_timerExpire, AnsCanon]

theorem canon_swset {s : State} (h : s.Canon) (w : Agent) (v : Word) : (s.swset w v).Canon := by
  unfold State.swset
  grind [canon_raise, canon_foldl]

theorem canon_execEvtInChange (k : Fin 32) (level : Bool) {s : State} (h : s.Canon) : AnsCanon (execEvtInChange k level s) := by
  unfold execEvtInChange
  grind [canon_setLevel, canon_modEv, AnsCanon]

/-! ## Machine/Pins -/

theorem canon_modGpio {s : State} (h : s.Canon) (f : Gpio → Gpio) : (s.modGpio f).Canon := by
  unfold State.modGpio
  grind [State.Canon]

theorem canon_freezePins {s : State} (h : s.Canon) : (s.freezePins).Canon := by
  unfold State.freezePins
  grind [State.Canon, canon_modGpio]

theorem canon_thawPins {s : State} (h : s.Canon) : (s.thawPins).Canon := by
  unfold State.thawPins
  grind [canon_modGpio]

theorem canon_pinInputs {s : State} (h : s.Canon) (edge : Bool) : (s.pinInputs edge).Canon := by
  unfold State.pinInputs
  dsimp only
  refine canon_foldl (fun u n hu => ?_) _ ?_
  · split
    · exact hu
    · exact hu
  · split
    · exact h
    · exact h

theorem canon_pinTake {s : State} (h : s.Canon) (k : Fin 64) (level : Bool) : (s.pinTake k level).Canon := by
  unfold State.pinTake
  grind [canon_setLevel, canon_modGpio, canon_pinInputs]

theorem canon_filterRun {s : State} (h : s.Canon) (k : Fin 64) (b : Bool) : (s.filterRun k b).Canon := by
  unfold State.filterRun
  grind [canon_modGpio]

theorem canon_filterSee {s : State} (h : s.Canon) (k : Fin 64) : (s.filterSee k).Canon := by
  unfold State.filterSee
  grind [canon_pinTake, canon_filterRun]

theorem canon_execPinInputChange (k : Fin 64) (level : Bool) {s : State} (h : s.Canon) : AnsCanon (execPinInputChange k level s) := by
  unfold execPinInputChange
  grind [canon_modGpio, canon_filterSee, AnsCanon]

theorem canon_execGpioFilterExpiry (k : Fin 64) {s : State} (h : s.Canon) : AnsCanon (execGpioFilterExpiry k s) := by
  unfold execGpioFilterExpiry
  grind [canon_pinTake, canon_filterRun, AnsCanon]

theorem canon_execPinWriteApply {s : State} (h : s.Canon) : AnsCanon (execPinWriteApply s) := by
  unfold execPinWriteApply
  grind [canon_modGpio, AnsCanon]

theorem canon_gpMuxWrite {s : State} (h : s.Canon) (w : Agent) (j : Fin 8) (v : Word) : (s.gpMuxWrite w j v).Canon := by
  unfold State.gpMuxWrite
  grind [canon_modGpio, canon_pinInputs]

theorem canon_gpSleepWrite {s : State} (h : s.Canon) (w : Agent) (j : Fin 8) (v : Word) : (s.gpSleepWrite w j v).Canon := by
  unfold State.gpSleepWrite
  grind [canon_modGpio]

theorem canon_gpOutWrite {s : State} (h : s.Canon) (w : Agent) (oe hi : Bool) (v : Word) : (s.gpOutWrite w oe hi v).Canon := by
  unfold State.gpOutWrite
  grind [canon_modGpio]

theorem canon_gpFiltWrite {s : State} (h : s.Canon) (w : Agent) (k : Fin 64) (v : Word) : (s.gpFiltWrite w k v).Canon := by
  unfold State.gpFiltWrite
  grind [canon_modGpio, canon_filterRun, canon_filterSee]

theorem canon_gpOwnWrite {s : State} (h : s.Canon) (w : Agent) (c : CoreId) (hi : Bool) (v : Word) : (s.gpOwnWrite w c hi v).Canon := by
  unfold State.gpOwnWrite
  grind [canon_modGpio]

theorem canon_gpStatWrite {s : State} (h : s.Canon) (v : Word) : (s.gpStatWrite v).Canon := by
  unfold State.gpStatWrite
  grind [canon_modGpio, canon_pinInputs]

/-! ## Machine/Reset -/

theorem canon_dropDebug {s : State} (h : s.Canon) (c : CoreId) : (s.dropDebug c).Canon := by
  unfold State.dropDebug
  grind [State.Canon]

theorem canon_dropFills {s : State} (h : s.Canon) (c : CoreId) : (s.dropFills c).Canon := by
  unfold State.dropFills
  grind [State.Canon]

theorem canon_softReset {s : State} (h : s.Canon) (c : CoreId) : (s.softReset c).Canon := by
  unfold State.softReset
  grind [State.Canon, canon_modCore, canon_countN, canon_modWdt, canon_dropReads, canon_passRecords, canon_dropDebug, canon_dropFills,
    canon_foldl]

theorem canon_askReset {s : State} (h : s.Canon) (c : CoreId) : (s.askReset c).Canon := by
  unfold State.askReset
  grind [State.Canon, canon_modCore, canon_softReset]

theorem canon_drained {s : State} (h : s.Canon) (c : CoreId) : (s.drained c).Canon := by
  unfold State.drained
  grind [canon_softReset]

theorem canon_askResetAll {s : State} (h : s.Canon) : (s.askResetAll).Canon := by
  unfold State.askResetAll
  grind [canon_askReset, canon_foldl]

theorem canon_wipeCause {s : State} (h : s.Canon) : s.wipeCause.Canon := by
  have due : ({ s.setWipePend true with spad := { s.spad with wipeDue := true } } : State).Canon := h.of_mem rfl rfl rfl
  unfold State.wipeCause
  dsimp only
  split
  · exact due
  · exact due

theorem canon_startupMarch {s : State} (h : s.Canon) : (s.startupMarch).Canon := by
  unfold State.startupMarch
  grind [canon_modMarch]

theorem canon_step6 {s : State} (h : s.Canon) : (s.step6).Canon := by
  unfold State.step6
  grind [canon_startupMarch]

theorem canon_step6End {s : State} (h : s.Canon) (marched : Bool) : (s.step6End marched).Canon := by
  have begun : ({ s with spad := { s.spad with initDone := true } } : State).Canon := h.of_mem rfl rfl rfl
  unfold State.step6End
  dsimp only
  split
  · exact canon_cause begun ..
  · exact begun

/-! ## Machine/Night -/

theorem canon_modNight {s : State} (h : s.Canon) (f : Night → Night) : (s.modNight f).Canon := by
  unfold State.modNight
  grind [State.Canon]

theorem canon_swreq {s : State} (h : s.Canon) (w : Agent) : (s.swreq w).Canon := by
  unfold State.swreq
  grind [canon_cause]

theorem canon_nlClear {s : State} (h : s.Canon) : (s.nlClear).Canon := by
  unfold State.nlClear
  grind [canon_nvmKick, canon_modNight]

theorem canon_lcBegin {s : State} (h : s.Canon) (code : Byte) (ctx path src : Byte) (allowed : Bool) :
    ∀ t, (s.lcBegin code ctx path src allowed) = some t → t.Canon := by
  unfold State.lcBegin
  grind [canon_nvmKick, canon_setWipePend, canon_modNight]

theorem canon_lcReqRing {s : State} (h : s.Canon) (code : Byte) : ∀ t, (s.lcReqRing code) = some t → t.Canon := by
  unfold State.lcReqRing
  grind [canon_lcBegin]

theorem canon_lcReqReg {s : State} (h : s.Canon) (w : Agent) (code : Byte) : (s.lcReqReg w code).Canon := by
  unfold State.lcReqReg
  grind [canon_modNight, canon_lcBegin, canon_lcReqRing]

theorem canon_lcChange {s : State} (h : s.Canon) : (s.lcChange).Canon := by
  unfold State.lcChange
  grind [State.Canon, canon_allCores, canon_raise, canon_cause, canon_dbgDefault, canon_wipeCause, canon_modNight]

theorem canon_rowWritten {s : State} (h : s.Canon) (ok : Bool) : (s.rowWritten ok).Canon := by
  unfold State.rowWritten
  grind [State.Canon, canon_raise, canon_modNight, canon_lcChange]

theorem canon_tamper {s : State} (h : s.Canon) (pin forced : Bool) : (s.tamper pin forced).Canon := by
  unfold State.tamper
  grind [canon_raise, canon_cause, canon_askResetAll, canon_wipeCause, canon_modNight]

theorem canon_execTamperEvent {s : State} (h : s.Canon) : AnsCanon (execTamperEvent s) := by
  unfold execTamperEvent
  grind [canon_modNight, canon_tamper, AnsCanon]

/-! ## Machine/Lines -/

theorem canon_execLcAgeTick (c : CoreId) {s : State} (h : s.Canon) : AnsCanon (execLcAgeTick c s) := by
  unfold execLcAgeTick
  grind [canon_modCore, AnsCanon]

theorem canon_pinLoad {s : State} (h : s.Canon) (c : CoreId) (v : Word) : (s.pinLoad c v).Canon := by
  unfold State.pinLoad
  grind [canon_modCore, canon_askLine]

theorem canon_execPinldDone (c : CoreId) {s : State} (h : s.Canon) : AnsCanon (execPinldDone c s) := by
  unfold execPinldDone
  grind [canon_modCore, AnsCanon]

theorem canon_execCacheInvalidateDone (c : CoreId) {s : State} (h : s.Canon) : AnsCanon (execCacheInvalidateDone c s) := by
  unfold execCacheInvalidateDone
  grind [State.Canon, canon_modCore, AnsCanon]

theorem canon_fabWinWrite {s : State} (h : s.Canon) (v : Word) : (s.fabWinWrite v).Canon := by
  unfold State.fabWinWrite
  grind [State.Canon, canon_invalidate]

theorem canon_execStoreBufferSend (c : CoreId) {s : State} (h : s.Canon) : AnsCanon (execStoreBufferSend c s) := by
  unfold execStoreBufferSend
  grind [canon_modCore, canon_fabAsk, AnsCanon]

theorem canon_execFabricRequestAccept {s : State} (h : s.Canon) : AnsCanon (execFabricRequestAccept s) := by
  unfold execFabricRequestAccept
  grind [State.Canon, canon_countB, AnsCanon]

theorem canon_debugLine {s : State} (h : s.Canon) (r : LineRes) : (s.debugLine r).Canon := by
  unfold State.debugLine
  grind [canon_modDbg]

theorem canon_fabricResponse {s : State} (h : s.Canon) (tag : Fin 32) (write : Bool) (data : Line) (err : Bool) :
    (s.fabricResponse tag write data err).Canon := by
  unfold State.fabricResponse
  grind [State.Canon, canon_modCore, canon_modCtx, canon_count, canon_invalidate, canon_modDbg, canon_knowFault, canon_drained,
    canon_debugLine]

theorem canon_execSnoop (a : Word) (parOk : Bool) {s : State} (h : s.Canon) : AnsCanon (execSnoop a parOk s) := by
  unfold execSnoop
  grind [canon_countB, canon_invalidate, AnsCanon]

theorem canon_modFlash {s : State} (h : s.Canon) (f : Flash → Flash) : (s.modFlash f).Canon := by
  unfold State.modFlash
  grind [State.Canon]

theorem canon_execFlashPortIssue {s : State} (h : s.Canon) : AnsCanon (execFlashPortIssue s) := by
  unfold execFlashPortIssue
  grind [canon_countB, canon_modFlash, AnsCanon]

theorem canon_execFlashRequestGrant {s : State} (h : s.Canon) : AnsCanon (execFlashRequestGrant s) := by
  unfold execFlashRequestGrant
  grind [canon_modFlash, AnsCanon]

theorem canon_flashFlag {s : State} (h : s.Canon) (f : Flash → Flash) : (s.flashFlag f).Canon := by
  unfold State.flashFlag
  grind [canon_raise, canon_modFlash]

theorem canon_lineDone {s : State} (h : s.Canon) (r : FlashReq) (res : LineRes) : (s.lineDone r res).Canon := by
  unfold State.lineDone
  grind [State.Canon, canon_modCore, canon_foldl]

theorem canon_flashBeat {s : State} (h : s.Canon) (t : Fin 4) (data : Word) (err parOk : Bool) :
    (s.flashBeat t data err parOk).Canon := by
  unfold State.flashBeat
  grind [canon_modFlash, canon_flashFlag, canon_lineDone]

theorem canon_flashAck {s : State} (h : s.Canon) (t : Fin 4) (err : Bool) : (s.flashAck t err).Canon := by
  unfold State.flashAck
  grind [State.Canon, canon_invalidate, canon_modFlash, canon_flashFlag]

theorem canon_flashEndAll {s : State} (h : s.Canon) : (s.flashEndAll).Canon := by
  unfold State.flashEndAll
  grind [canon_modFlash, canon_lineDone, canon_foldl]

theorem canon_flCtl {s : State} (h : s.Canon) (v : Word) : (s.flCtl v).Canon := by
  unfold State.flCtl
  grind [canon_modFlash, canon_flashEndAll]

/-! ## Machine/Load -/

theorem canon_readStore {s : State} (h : s.Canon) (c : CoreId) (a : BitVec 12) : (s.readStore c a).2.Canon := by
  unfold State.readStore
  grind [canon_modCore, canon_countC, canon_raise]

theorem canon_execUcodeRamRewrite (c : CoreId) (a : BitVec 12) {s : State} (h : s.Canon) : AnsCanon (execUcodeRamRewrite c a s) := by
  unfold execUcodeRamRewrite
  grind [canon_modCore, AnsCanon]

theorem canon_modLoad {s : State} (h : s.Canon) (f : LoadUnit → LoadUnit) : (s.modLoad f).Canon := by
  unfold State.modLoad
  grind [State.Canon]

theorem canon_parkAbandoned {s : State} (h : s.Canon) (c : CoreId) (x : CtxId) : (s.parkAbandoned c x).Canon := by
  unfold State.parkAbandoned
  grind [canon_modCtx, canon_setSt, canon_abandon]

theorem canon_releaseHeld {s : State} (h : s.Canon) (c : CoreId) : (s.releaseHeld c).Canon := by
  unfold State.releaseHeld
  grind [canon_modCore, canon_modCtx, canon_modWdt, canon_parkAbandoned, canon_foldl]

theorem canon_releaseHold {s : State} (h : s.Canon) : (s.releaseHold).Canon := by
  unfold State.releaseHold
  grind [canon_modLoad, canon_releaseHeld, canon_foldl]

theorem canon_ldctlWrite {s : State} (h : s.Canon) (ring : Bool) (own : Option CoreId) (v : Word) : (s.ldctlWrite ring own v).Canon := by
  unfold State.ldctlWrite
  grind [canon_modLoad, canon_releaseHold]

theorem canon_ucWrite {s : State} (h : s.Canon) (ring : Bool) : (s.ucWrite ring).Canon := by
  unfold State.ucWrite
  grind [canon_allCores, canon_modLoad]

theorem canon_ucRead {s : State} (h : s.Canon) (ring : Bool) : (s.ucRead ring).Canon := by
  unfold State.ucRead
  grind [State.Canon, canon_readStore, canon_modLoad]

theorem canon_ucCmd {s : State} (h : s.Canon) (ring : Bool) (v : Word) : (s.ucCmd ring v).Canon := by
  unfold State.ucCmd
  grind [canon_ucWrite, canon_ucRead]

theorem canon_bootAuto {s : State} (h : s.Canon) : (s.bootAuto).Canon := by
  unfold State.bootAuto
  grind [State.Canon, canon_startCtx]

/-! ## Machine/Power -/

theorem canon_modPower {s : State} (h : s.Canon) (f : Power → Power) : (s.modPower f).Canon := by
  unfold State.modPower
  grind [State.Canon]

theorem canon_dozeWrite {s : State} (h : s.Canon) (v : Word) : (s.dozeWrite v).Canon := by
  unfold State.dozeWrite
  grind [canon_allCores, canon_modPower]

theorem canon_crstWrite {s : State} (h : s.Canon) (v : Word) : (s.crstWrite v).Canon := by
  unfold State.crstWrite
  grind [canon_askReset, canon_foldl]

theorem canon_pllaWrite {s : State} (h : s.Canon) (v : Word) : (s.pllaWrite v).Canon := by
  unfold State.pllaWrite
  grind [canon_modPower]

theorem canon_vesperWake {s : State} (h : s.Canon) (cause : BitVec 2) : (s.vesperWake cause).Canon := by
  unfold State.vesperWake
  grind [canon_modPower]

theorem canon_execVesperAlarm {s : State} (h : s.Canon) : AnsCanon (execVesperAlarm s) := by
  unfold execVesperAlarm
  grind [canon_raise, canon_vesperWake, AnsCanon]

theorem canon_execFastClockAbsent {s : State} (h : s.Canon) : AnsCanon (execFastClockAbsent s) := by
  unfold execFastClockAbsent
  grind [canon_modPower, AnsCanon]

theorem canon_execFastClockPresent {s : State} (h : s.Canon) : AnsCanon (execFastClockPresent s) := by
  unfold execFastClockPresent
  grind [canon_modPower, AnsCanon]

theorem canon_execDozeEntry (c : CoreId) {s : State} (h : s.Canon) : AnsCanon (execDozeEntry c s) := by
  unfold execDozeEntry
  grind [canon_modCore, AnsCanon]

theorem canon_execDozeExit (c : CoreId) {s : State} (h : s.Canon) : AnsCanon (execDozeExit c s) := by
  unfold execDozeExit
  grind [canon_modCore, canon_countC, AnsCanon]

theorem canon_execNapEntry {s : State} (h : s.Canon) : AnsCanon (execNapEntry s) := by
  unfold execNapEntry
  split
  · refine ansCanon_next (State.Canon.of_mem (canon_allCores (canon_pauseAll (canon_modPower h fun p => { p with
      pend := 0, state := .nap, napWake := false, lockA := false, lockB := false, vddmLow := true, vddmOk := false }))
      fun _ k => k.afterNap) ?_ ?_ ?_) <;> dsimp only
  · exact ansCanon_next h

theorem canon_execPllaRelock {s : State} (h : s.Canon) : AnsCanon (execPllaRelock s) := by
  unfold execPllaRelock
  grind [canon_modPower, AnsCanon]

theorem canon_execMainWarnRise {s : State} (h : s.Canon) : AnsCanon (execMainWarnRise s) := by
  unfold execMainWarnRise
  grind [canon_raise, canon_cause, canon_freezePins, canon_modPower, AnsCanon]

theorem canon_execMainWarnFall {s : State} (h : s.Canon) : AnsCanon (execMainWarnFall s) := by
  unfold execMainWarnFall
  grind [canon_thawPins, canon_modPower, AnsCanon]

theorem canon_mainReset {s : State} (_ : s.Canon) : s.mainReset.Canon := by
  unfold State.mainReset State.Canon
  dsimp only
  exact memoryCanonicalAtReset

/-! ## Machine/Debug -/

theorem canon_unreqWrite {s : State} (h : s.Canon) (v : Word) : (s.unreqWrite v).Canon := by
  unfold State.unreqWrite
  grind [canon_modDbg]

theorem canon_execUnlockCheckDone {s : State} (h : s.Canon) : AnsCanon (execUnlockCheckDone s) := by
  unfold execUnlockCheckDone
  grind [State.Canon, AnsCanon]

theorem canon_xtmWrite {s : State} (h : s.Canon) (m : Fin 18) (v : Word) : (s.xtmWrite m v).Canon := by
  unfold State.xtmWrite
  grind [canon_modCore, canon_modDbg]

theorem canon_relWrite {s : State} (h : s.Canon) (ms : BitVec 18) : (s.relWrite ms).Canon := by
  unfold State.relWrite
  grind [canon_release, canon_foldl]

theorem canon_stepWrite {s : State} (h : s.Canon) (c : CoreId) : (s.stepWrite c).Canon := by
  unfold State.stepWrite
  grind [canon_modCore, canon_countC, canon_setSt]

theorem canon_dbgCoreWrite {s : State} (h : s.Canon) (c : CoreId) (v : Word) : (s.dbgCoreWrite c v).Canon := by
  unfold State.dbgCoreWrite
  grind [canon_modCore, canon_haltRequest, canon_stepWrite]

theorem canon_execStepDone (c : CoreId) {s : State} (h : s.Canon) : AnsCanon (execStepDone c s) := by
  unfold execStepDone
  grind [canon_modCore, canon_modCtx, canon_setSt, AnsCanon]

theorem canon_execHaltArrival (m : Fin 18) {s : State} (h : s.Canon) : AnsCanon (execHaltArrival m s) := by
  unfold execHaltArrival
  grind [canon_haltArrive, AnsCanon]

theorem canon_execDbgRstn {s : State} (h : s.Canon) : AnsCanon (execDbgRstn s) := by
  unfold execDbgRstn
  grind [State.Canon, canon_allCores, canon_releaseAll, canon_dbgDefault, AnsCanon]

theorem canon_execTrstn {s : State} (h : s.Canon) : AnsCanon (execTrstn s) := by
  unfold execTrstn
  grind [AnsCanon]

theorem canon_execVdbgLoss {s : State} (h : s.Canon) : AnsCanon (execVdbgLoss s) := by
  unfold execVdbgLoss
  grind [canon_modPower, AnsCanon]

theorem canon_execVdbgReturn {s : State} (h : s.Canon) : AnsCanon (execVdbgReturn s) := by
  unfold execVdbgReturn
  grind [canon_modPower, AnsCanon]

theorem canon_trcCtlWrite {s : State} (h : s.Canon) (core : Bool) (v : Word) : (s.trcCtlWrite core v).Canon := by
  unfold State.trcCtlWrite
  grind [canon_modDbg, canon_traceSettle]

theorem canon_execTracePortPacket {s : State} (h : s.Canon) : AnsCanon (execTracePortPacket s) := by
  unfold execTracePortPacket
  grind [State.Canon, canon_countB, canon_modDbg, canon_traceSettle, AnsCanon]

theorem canon_execTraceBufferWrite {s : State} (h : s.Canon) : AnsCanon (execTraceBufferWrite s) := by
  unfold execTraceBufferWrite
  grind [canon_countB, canon_granted, canon_spadPut, canon_rowAsked, canon_modDbg, canon_traceSettle, canon_fireLines, canon_foldl,
    AnsCanon]

theorem canon_execTraceBudgetWindow {s : State} (h : s.Canon) : AnsCanon (execTraceBudgetWindow s) := by
  unfold execTraceBudgetWindow
  grind [canon_modDbg, AnsCanon]

theorem canon_modCnt {s : State} (h : s.Canon) (n : Fin 80) (f : Counter → Counter) : (s.modCnt n f).Canon := by
  unfold State.modCnt
  grind [State.Canon]

theorem canon_execCntOverflow (n : Fin 80) {s : State} (h : s.Canon) : AnsCanon (execCntOverflow n s) := by
  unfold execCntOverflow
  grind [canon_raise, canon_fireLines, canon_modCnt, AnsCanon]

theorem canon_execWatchdogWarning (c : CoreId) {s : State} (h : s.Canon) : AnsCanon (execWatchdogWarning c s) := by
  unfold execWatchdogWarning
  grind [canon_raise, canon_modWdt, AnsCanon]

theorem canon_execWatchdogBite (c : CoreId) {s : State} (h : s.Canon) : AnsCanon (execWatchdogBite c s) := by
  unfold execWatchdogBite
  grind [canon_free, canon_cause, canon_modWdt, canon_askReset, canon_askResetAll, AnsCanon]

/-! ## Machine/Ring -/

theorem canon_linkEvents {s : State} (h : s.Canon) (old : Ring) : (s.linkEvents old).Canon := by
  unfold State.linkEvents
  grind [canon_raise, canon_foldl]

theorem canon_linkDown {s : State} (h : s.Canon) (p : PortId) : (s.linkDown p).Canon := by
  unfold State.linkDown
  grind [canon_modRp, canon_linkEvents]

theorem canon_execLinkUp (p : PortId) (speed : BitVec 2) {s : State} (h : s.Canon) : AnsCanon (execLinkUp p speed s) := by
  unfold execLinkUp
  grind [canon_modRp, canon_free, canon_linkEvents, canon_linkDown, AnsCanon]

theorem canon_execLinkDown (p : PortId) {s : State} (h : s.Canon) : AnsCanon (execLinkDown p s) := by
  unfold execLinkDown
  grind [canon_linkDown, AnsCanon]

theorem canon_execDlyReq (p : PortId) (num : BitVec 16) (turn : Int) {s : State} (h : s.Canon) : AnsCanon (execDlyReq p num turn s) := by
  unfold execDlyReq
  grind [canon_modRp, AnsCanon]

theorem canon_execDlyRsp (p : PortId) (num : BitVec 16) (t32 trip : Int) {s : State} (h : s.Canon) :
    AnsCanon (execDlyRsp p num t32 trip s) := by
  unfold execDlyRsp
  grind [canon_modRp, AnsCanon]

theorem canon_forwardOut {s : State} (h : s.Canon) (q : PortId) (f : Frame) : (s.forwardOut q f).Canon := by
  unfold State.forwardOut
  grind [canon_modRp]

theorem canon_forward {s : State} (h : s.Canon) (p : PortId) (k : FrameKind) (f : Frame) (ahead : Nat) :
    (s.forward p k f ahead).Canon := by
  unfold State.forward
  grind [canon_modRp, canon_forwardOut]

theorem canon_assign {s : State} (h : s.Canon) (p : PortId) (f : Frame) (ahead : Nat) : (s.assign p f ahead).Canon := by
  unfold State.assign
  grind [canon_modRing, canon_forward]

theorem canon_execAssign (h : RingHdr) (data : List Byte) {s : State} (hs : s.Canon) : AnsCanon (execAssign h data s) := by
  unfold execAssign
  grind [canon_assign, AnsCanon]

theorem canon_execSync (p : PortId) (src : BitVec 7) (r : SyncRec) (came : Receipt) (within : Vector (BitVec 6) 4) {s : State} (h : s.Canon)
    :
    AnsCanon (execSync p src r came within s) := by
  unfold execSync
  grind [canon_msSync, canon_forward, canon_foldl, AnsCanon]

theorem canon_execOwnFrameSend (p : PortId) {s : State} (h : s.Canon) : AnsCanon (execOwnFrameSend p s) := by
  unfold execOwnFrameSend
  grind [canon_modRing, canon_modRp, canon_free, AnsCanon]

theorem canon_execFrameError (p : PortId) (_e : RxError) {s : State} (h : s.Canon) : AnsCanon (execFrameError p _e s) := by
  unfold execFrameError
  grind [canon_modRp, canon_countB, canon_raise, canon_cause, AnsCanon]

theorem canon_execErrorWindowEnd (p : PortId) {s : State} (h : s.Canon) : AnsCanon (execErrorWindowEnd p s) := by
  unfold execErrorWindowEnd
  grind [canon_modRp, AnsCanon]

theorem canon_execRingTclkLoss {s : State} (h : s.Canon) : AnsCanon (execRingTclkLoss s) := by
  unfold execRingTclkLoss
  grind [canon_modRing, AnsCanon]

theorem canon_execRingTclkPresent {s : State} (h : s.Canon) : AnsCanon (execRingTclkPresent s) := by
  unfold execRingTclkPresent
  grind [canon_modRing, AnsCanon]

theorem canon_nmsgCtl {s : State} (h : s.Canon) (v : Word) : (s.nmsgCtl v).Canon := by
  unfold State.nmsgCtl
  grind [canon_modRing, canon_modRp]

theorem canon_execNmsgSent {s : State} (h : s.Canon) : AnsCanon (execNmsgSent s) := by
  unfold execNmsgSent
  grind [canon_modRing, AnsCanon]

theorem canon_rpCtlWrite {s : State} (h : s.Canon) (p : PortId) (v : Word) : (s.rpCtlWrite p v).Canon := by
  unfold State.rpCtlWrite
  grind [canon_modRp, canon_linkEvents, canon_linkDown]

/-! ## Machine/Mctl -/

theorem canon_fetchInvalAll {s : State} (h : s.Canon) (c : CoreId) (a : Word) (n : Nat) : (s.fetchInvalAll c a n).Canon := by
  unfold State.fetchInvalAll
  grind [canon_fetchInval, canon_foldl]

theorem canon_mctlLine {s : State} (h : s.Canon) (c : CoreId) (a : Word) (n : Nat) : ∀ t, (s.mctlLine c a n) = some t → t.Canon := by
  unfold State.mctlLine
  grind [canon_fabAsk, canon_lineAccess, canon_modDbg]

theorem canon_mctlGrant {s : State} (h : s.Canon) (c : CoreId) (w : Nat) : (s.mctlGrant c w).Canon := by
  unfold State.mctlGrant
  grind [canon_granted]

theorem canon_mctlLoad {s : State} (h : s.Canon) (c : CoreId) (a : Word) (n : Nat) : ∀ t, (s.mctlLoad c a n) = some t → t.Canon := by
  unfold State.mctlLoad
  grind [canon_spadRead, canon_modDbg, canon_mctlLine, canon_mctlGrant]

theorem canon_mctlStore {s : State} (h : s.Canon) (c : CoreId) (a d : Word) (n : Nat) :
    ∀ t, (s.mctlStore c a d n) = some t → t.Canon := by
  unfold State.mctlStore
  grind [canon_modCore, canon_spadStore, canon_sbStore, canon_modDbg, canon_fetchInvalAll, canon_mctlGrant]

theorem canon_mctlTry {s : State} (h : s.Canon) : ∀ t, (s.mctlTry) = some t → t.Canon := by
  unfold State.mctlTry
  grind [canon_noteSecure, canon_modDbg, canon_mctlLoad, canon_mctlStore]

theorem canon_mctlGo {s : State} (h : s.Canon) : s.mctlGo.Canon := by
  unfold State.mctlGo
  split
  · cases ht : s.mctlTry with
    | none => exact h
    | some t => exact canon_mctlTry h t ht
  · exact h

theorem canon_mctlWrite {s : State} (h : s.Canon) (v : Word) : (s.mctlWrite v).Canon := by
  unfold State.mctlWrite
  grind [canon_modDbg, canon_mctlGo]

end Sys2Proof.Machine
end

