-- ==== Sys2Proof/Proofs/CanonRegisters.lean ====
section
/-! SUPPORT. The canonical form through register accesses, the accesses and operands of instructions, and microwords. -/

set_option Elab.async false

namespace Sys2Proof.Machine

open Sys2Proof

/-! ## Machine/RegOps -/

theorem canon_windat {s : State} (h : s.Canon) (c : CoreId) (x : CtxId) (v : Option Word) : (s.windat c x v).2.Canon := by
  unfold State.windat
  grind [canon_modCtx]

theorem canon_setLatch {s : State} (h : s.Canon) (i : Fin 18) (v : BitVec 16) : (s.setLatch i v).Canon := by
  unfold State.setLatch
  grind [State.Canon]

theorem canon_readEvqWr {s : State} (h : s.Canon) (w : Agent) (c : CoreId) : (s.readEvqWr w c).2.Canon := by
  unfold State.readEvqWr
  grind [canon_deliver]

theorem canon_ite {p : Prop} [Decidable p] {s t : State} (hs : s.Canon) (ht : t.Canon) : (if p then s else t).Canon := by
  split
  · exact hs
  · exact ht

theorem canon_regClear {s : State} (h : s.Canon) (r : Reg) : (s.regClear r).Canon := by
  cases r with
  | spadEcnt => exact h.of_mem rfl rfl rfl
  | spadColl c => exact h.of_mem rfl rfl rfl
  | spadConf m => exact h.of_mem rfl rfl rfl
  | _ => exact h

theorem canon_regRead {s : State} (h : s.Canon) (w : Agent) (r : Reg) : (s.regRead w r).2.Canon := by
  unfold State.regRead
  grind [State.Canon, canon_modPower, canon_windat, canon_setLatch, canon_readEvqWr, canon_regClear]

theorem canon_thrField {s : State} (h : s.Canon) (c : CoreId) (x : CtxId) (thread : Bool) (f : Ctx → Ctx) :
    (s.thrField c x thread f).Canon := by
  unfold State.thrField
  grind [canon_modCtx]

theorem canon_tmpForceWrite {s : State} (h : s.Canon) (v : Word) : (s.tmpForceWrite v).Canon := by
  unfold State.tmpForceWrite
  grind [canon_tamper]

theorem canon_nlCtlWrite {s : State} (h : s.Canon) (v : Word) : (s.nlCtlWrite v).Canon := by
  unfold State.nlCtlWrite
  grind [canon_modNight, canon_nlClear]

theorem canon_regWrite1 {s : State} (h : s.Canon) (w : Agent) (r : Reg) (v : Word) : (s.regWrite1 w r v).Canon := by
  cases r with
  | thrCtl c x => exact canon_thrCtl h ..
  | thrPc c x => exact canon_thrField h ..
  | spillp c x => exact canon_thrField h ..
  | spillsz c x => exact canon_thrField h ..
  | spillDoff c x => exact canon_thrField h ..
  | spillRoff c x => exact canon_thrField h ..
  | f16Base c x => exact canon_ite h h
  | winsel c =>
    cases w with
    | ctx d x => exact canon_ite h h
    | _ => exact h
  | windat c =>
    cases w with
    | ctx d x => exact canon_ite (canon_windat h ..) h
    | _ => exact h
  | lcPinld c => exact canon_pinLoad h ..
  | evqBase c => exact canon_evqBaseWrite h ..
  | evqRd c => exact canon_evqRdWrite h ..
  | ucLdctl => exact canon_ldctlWrite h ..
  | ucAddr => exact canon_ite h h
  | ucData k => exact canon_ite h h
  | ucCmd => exact canon_ucCmd h ..
  | trnCtl => exact canon_ephLevel (canon_modTransit h _)
  | trnCmd => exact canon_trnCmd h ..
  | tbCfg t => exact canon_tbCfgWrite h ..
  | portCtl p => exact canon_portCtl h ..
  | spadStat => exact h.of_mem rfl rfl rfl
  | marchCtl => exact canon_marchCtl h ..
  | flCtl => exact canon_flCtl h ..
  | fabWin => exact canon_fabWinWrite h ..
  | evSrc n => exact canon_evSrcWrite h ..
  | evSwset => exact canon_swset h ..
  | rpCtl p => exact canon_rpCtlWrite h ..
  | nmsgCtl => exact canon_nmsgCtl h ..
  | _ => exact h

theorem canon_regWrite2 {s : State} (h : s.Canon) (w : Agent) (r : Reg) (v : Word) : (s.regWrite2 w r v).Canon := by
  unfold State.regWrite2
  grind [State.Canon, canon_modCore, canon_modDbg, canon_modWdt, canon_fireLines, canon_dbgDefault, canon_gpMuxWrite, canon_gpSleepWrite,
    canon_gpOutWrite, canon_gpFiltWrite, canon_gpOwnWrite, canon_gpStatWrite, canon_modNight, canon_swreq, canon_lcReqReg, canon_modPower,
    canon_dozeWrite, canon_crstWrite, canon_pllaWrite, canon_unreqWrite, canon_xtmWrite, canon_relWrite, canon_dbgCoreWrite,
    canon_trcCtlWrite, canon_modCnt, canon_mctlWrite, canon_tmpForceWrite, canon_nlCtlWrite]

theorem canon_regWriteRaw {s : State} (h : s.Canon) (w : Agent) (r : Reg) (v : Word) : (s.regWriteRaw w r v).Canon := by
  unfold State.regWriteRaw
  grind [canon_rouse, canon_regWrite1, canon_regWrite2]

theorem canon_viewAccess {s : State} (h : s.Canon) (v : Option Word) : (s.viewAccess v).Canon := by
  unfold State.viewAccess
  grind [canon_modDbg, canon_regRead, canon_regWriteRaw]

theorem canon_regWrite {s : State} (h : s.Canon) (w : Agent) (r : Reg) (v : Word) : (s.regWrite w r v).Canon := by
  unfold State.regWrite
  grind [canon_regWriteRaw, canon_viewAccess]

theorem canon_writeBy {s : State} (h : s.Canon) (w : Agent) (a : Word) (v : Word) : (s.writeBy w a v).Canon := by
  unfold State.writeBy
  grind [canon_preciseFault, canon_modPower, canon_regWrite]

theorem canon_readBy {s : State} (h : s.Canon) (w : Agent) (a : Word) : (s.readBy w a).2.Canon := by
  unfold State.readBy
  grind [canon_preciseFault, canon_modPower, canon_regRead]

/-! ## Machine/Mem -/

/-- A change that keeps the canonical form. -/
def KeepsCanon (f : Late) : Prop := ∀ t, t.Canon → (f t).Canon

theorem keepsCanon_none : KeepsCanon Late.none := fun _ h => h

/-- A piece of an instruction keeps the canonical form, and a value that it delivers satisfies `ok`. -/
def Res.CanonWith {α : Type} (ok : α → Prop) (r : Res α) : Prop :=
  match r with
  | .ok v s => ok v ∧ s.Canon
  | .fault s _ _ => s.Canon
  | .dfault s _ _ => s.Canon
  | .wait s _ => s.Canon
  | .hold s => s.Canon

theorem Res.CanonWith.state {α : Type} {p : α → Prop} {r : Res α} (h : r.CanonWith p) : r.state.Canon := by
  cases r with
  | ok v s => exact h.2
  | fault s c a => exact h
  | dfault s c a => exact h
  | wait s w => exact h
  | hold s => exact h

theorem canonWith_bind {α β : Type} {p : α → Prop} {q : β → Prop} {r : Res α} {f : α → State → Res β} (hr : r.CanonWith p)
    (hf : ∀ v s, p v → s.Canon → (f v s).CanonWith q) : (r.bind f).CanonWith q := by
  cases r with
  | ok v s => exact hf v s hr.1 hr.2
  | fault s c a => exact hr
  | dfault s c a => exact hr
  | wait s w => exact hr
  | hold s => exact hr

/-- After a piece whose value is a plain one. -/
theorem canonWith_of_canon {α : Type} {r : Res α} (hr : r.state.Canon) : r.CanonWith fun _ => True := by
  cases r with
  | ok v s => exact ⟨trivial, hr⟩
  | fault s c a => exact hr
  | dfault s c a => exact hr
  | wait s w => exact hr
  | hold s => exact hr

theorem canonWith_after {α β : Type} {q : β → Prop} {r : Res α} {f : α → State → Res β} (hr : r.state.Canon)
    (hf : ∀ v s, s.Canon → (f v s).CanonWith q) : (r.bind f).CanonWith q :=
  canonWith_bind (canonWith_of_canon hr) fun v s _ => hf v s

theorem canon_Res_onFault {α : Type} {r : Res α} (hr : r.state.Canon) {f : State → State} (hf : ∀ t, t.Canon → (f t).Canon) :
    (r.onFault f).state.Canon := by
  cases r with
  | ok v s => exact hr
  | fault s c a => exact hf s hr
  | dfault s c a => exact hr
  | wait s w => exact hr
  | hold s => exact hr

theorem canon_Res_also {α : Type} {r : Res α} (hr : r.state.Canon) {f : State → State} (hf : ∀ t, t.Canon → (f t).Canon) :
    (r.also f).state.Canon := canon_bind hr fun _ s h => hf s h

theorem canon_pinSlot {s : State} (h : s.Canon) (c : CoreId) (a : Word) (off : Nat) : (s.pinSlot c a off).state.Canon := by
  unfold State.pinSlot
  grind [Res.state]

theorem canon_cachedLine {s : State} (h : s.Canon) (c : CoreId) (x : CtxId) (a : Word) (l : BitVec 27) (whole : Bool) :
    (s.cachedLine c x a l whole).state.Canon := by
  unfold State.cachedLine
  grind [canon_lineAccess, Res.state]

theorem canon_fabricLoad {s : State} (h : s.Canon) (c : CoreId) (x : CtxId) (a : Word) (n : Nat) (cached : Bool) :
    (s.fabricLoad c x a n cached).state.Canon := by
  unfold State.fabricLoad
  grind [canon_count, canon_fabAsk, canon_cachedLine, canon_bind, Res.state]

theorem canon_ctlLoad {s : State} (h : s.Canon) (c : CoreId) (x : CtxId) (a : Word) (n : Nat) : (s.ctlLoad c x a n).state.Canon := by
  unfold State.ctlLoad
  grind [canon_regRead, Res.state]

theorem canon_loadBytes {s : State} (h : s.Canon) (c : CoreId) (x : CtxId) (a : Word) (n : Nat) (claim : Bool) :
    (s.loadBytes c x a n claim).state.Canon := by
  unfold State.loadBytes
  grind [canon_count, canon_noteSecure, canon_ctxRead, canon_Res_also, canon_pinSlot, canon_cachedLine, canon_fabricLoad, canon_ctlLoad,
    canon_bind, Res.state]

theorem canon_storeLanes {s : State} (h : s.Canon) (c : CoreId) (x : CtxId) (a : Word) (n : Nat) (v : Word) (be : BitVec 4) :
    (s.storeLanes c x a n v be).CanonWith KeepsCanon := by
  have code (t : State) (ht : t.Canon) : (if be = 0 then t else t.ownCode c x a n).Canon := canon_ite ht (canon_ownCode ht ..)
  have counted {r : Res Late} (ev : State → State) (hev : ∀ t, t.Canon → (ev t).Canon) (hr : r.CanonWith KeepsCanon) :
      (r.also ev).CanonWith KeepsCanon := canonWith_bind hr fun f t hf ht => ⟨hf, hev t ht⟩
  unfold State.storeLanes
  dsimp only
  split
  · exact canon_noteSecure h ..
  · refine counted _ (fun t ht => canon_count ht ..) ?_
    split
    · refine counted _ (fun t ht => canon_ite ht (canon_count ht ..)) ?_
      exact canonWith_after (canon_ctxWrite h ..) fun _ t ht => ⟨keepsCanon_none, code t ht⟩
    · refine counted _ (fun t ht => canon_count ht ..) ?_
      exact canonWith_after (canon_pinSlot h ..) fun _ t ht => ⟨keepsCanon_none, code _ (canon_modCore ht ..)⟩
    · split
      · next t ht => exact ⟨keepsCanon_none, code t (canon_sbStore h _ _ _ _ _ t ht)⟩
      · exact h
    · split
      · exact h
      · split
        · exact ⟨keepsCanon_none, h⟩
        · split
          · exact ⟨fun t ht => canon_regWrite ht .., h⟩
          · exact ⟨keepsCanon_none, h⟩
          · exact h
    · exact h
    · exact h

theorem canon_storeBytes {s : State} (h : s.Canon) (c : CoreId) (x : CtxId) (a : Word) (n : Nat) (v : Word) :
    (s.storeBytes c x a n v).CanonWith KeepsCanon := canon_storeLanes h ..

theorem canon_commitAt {s : State} (h : s.Canon) (c : CoreId) (x : CtxId) (a v : Word) (elapsed : Nat) :
    (s.commitAt c x a v elapsed).state.Canon := by
  unfold State.commitAt
  grind [canon_modCtx, canon_count, canon_spadPut, canon_noteSecure, canon_spadGate, canon_ownCode, canon_bind, Res.state]

theorem canon_claimAt {s : State} (h : s.Canon) (c : CoreId) (x : CtxId) (a : Word) : (s.claimAt c x a).state.Canon := by
  unfold State.claimAt
  grind [canon_modCtx, canon_count, canon_loadBytes, canon_bind, Res.state]

/-! ## Machine/Operands -/

theorem canon_flatFill {s : State} (h : s.Canon) (c : CoreId) (x : CtxId) (n : Nat) : (s.flatFill c x n).state.Canon := by
  unfold State.flatFill
  grind [canon_fillWindow, Res.state]

theorem canon_flatPop {s : State} (h : s.Canon) (c : CoreId) (x : CtxId) : (s.flatPop c x).state.Canon := by
  unfold State.flatPop
  grind [canon_modCtx, canon_flatFill, canon_bind, Res.state]

theorem canon_flatPush {s : State} (h : s.Canon) (c : CoreId) (x : CtxId) (v : Word) : (s.flatPush c x v).state.Canon := by
  unfold State.flatPush
  grind [canon_modCtx, canon_spillWindow, canon_bind, Res.state]

theorem canon_flatPops (c : CoreId) (x : CtxId) (n : Nat) {s : State} (h : s.Canon) : (State.flatPops c x n s).state.Canon := by
  induction n generalizing s with
  | zero => exact h
  | succ n ih =>
    unfold State.flatPops
    exact canon_bind (canon_flatPop h ..) fun _ _ ht => ih ht

theorem canon_flatPushes (c : CoreId) (x : CtxId) (l : List Word) {s : State} (h : s.Canon) : (State.flatPushes c x l s).state.Canon := by
  induction l generalizing s with
  | nil => exact h
  | cons v l ih =>
    unfold State.flatPushes
    exact canon_bind (canon_flatPush h ..) fun _ _ ht => ih ht

theorem canon_cellsMove {s : State} (h : s.Canon) (c : CoreId) (x : CtxId) (pops : Nat) (vs : List Word) :
    (s.cellsMove c x pops vs).state.Canon := by
  unfold State.cellsMove
  grind [canon_replace, canon_bind, canon_flatPops, canon_flatPushes, Res.state]

theorem canon_cellsReady {s : State} (h : s.Canon) (c : CoreId) (x : CtxId) (effect : Bool) (pops pushes : Nat) (named : List Nat) :
    (s.cellsReady c x effect pops pushes named).state.Canon := by
  unfold State.cellsReady
  grind [canon_ready, canon_need, canon_flatFill, canon_bind, Res.state]

theorem canon_cellThere {s : State} (h : s.Canon) (c : CoreId) (x : CtxId) (i : Nat) : (s.cellThere c x i).state.Canon := by
  unfold State.cellThere
  grind [canon_ready, canon_flatFill, canon_bind, Res.state]

theorem canon_cellWrite {s : State} (h : s.Canon) (c : CoreId) (x : CtxId) (i : Nat) (v : Word) : (s.cellWrite c x i v).state.Canon := by
  unfold State.cellWrite
  grind [canon_modCtx, canon_cellThere, canon_bind, Res.state]

/-! ## Machine/Units -/

theorem canon_stageEntry {s : State} (h : s.Canon) (c : CoreId) (x : CtxId) (g : Staged) : (s.stageEntry c x g).state.Canon := by
  unfold State.stageEntry
  grind [canon_modCore, canon_count, Res.state]

theorem canon_stageTransit {s : State} (h : s.Canon) (c : CoreId) (x : CtxId) (data where_ when_ : Word) :
    (s.stageTransit c x data where_ when_).state.Canon := by
  unfold State.stageTransit
  grind [canon_stageEntry, Res.state]

theorem canon_stageWake {s : State} (h : s.Canon) (c : CoreId) (x : CtxId) (when_ tag : Word) :
    (s.stageWake c x when_ tag).state.Canon := by
  unfold State.stageWake
  grind [canon_modCtx, canon_stageEntry, canon_bind, Res.state]

theorem canon_beamRead {s : State} (h : s.Canon) (u : Word) : (s.beamRead u).state.Canon := by
  unfold State.beamRead
  grind [Res.state]

theorem canon_frameRead {s : State} (h : s.Canon) (u : Word) : (s.frameRead u).state.Canon := by
  unfold State.frameRead
  grind [Res.state]

theorem canon_pinRead {s : State} (h : s.Canon) (u : Word) : (s.pinRead u).state.Canon := by
  unfold State.pinRead
  grind [Res.state]

theorem canon_pinGroup {s : State} (h : s.Canon) (u : Word) : (s.pinGroup u).state.Canon := by
  unfold State.pinGroup
  grind [Res.state]

theorem canon_pinPut {s : State} (h : s.Canon) (c : CoreId) (x : CtxId) (mask data : BitVec 64) :
    (s.pinPut c x mask data).state.Canon := by
  unfold State.pinPut
  grind [canon_count, canon_modGpio, Res.state]

theorem canon_pinWrite {s : State} (h : s.Canon) (c : CoreId) (x : CtxId) (f u : Word) : (s.pinWrite c x f u).state.Canon := by
  unfold State.pinWrite
  grind [canon_pinPut, Res.state]

theorem canon_pinWriteMask {s : State} (h : s.Canon) (c : CoreId) (x : CtxId) (v m u : Word) :
    (s.pinWriteMask c x v m u).state.Canon := by
  unfold State.pinWriteMask
  grind [canon_pinPut, Res.state]

theorem canon_stimWrite {s : State} (h : s.Canon) (c : CoreId) (x : CtxId) (b : BitVec 5) (v : Word) : (s.stimWrite c x b v).Canon := by
  unfold State.stimWrite
  grind [canon_count, canon_modDbg, canon_traceSettle, canon_packet]

theorem canon_yieldNow {s : State} (h : s.Canon) (c : CoreId) (x : CtxId) : (s.yieldNow c x).Canon := by
  unfold State.yieldNow
  grind [canon_passOn]

theorem canon_sleepNow {s : State} (h : s.Canon) (c : CoreId) (x : CtxId) : (s.sleepNow c x).Canon := by
  unfold State.sleepNow
  grind [canon_modCtx, canon_count, canon_setSt]

/-! ## Machine/Ucode -/

theorem canon_must {s : State} (h : s.Canon) (b : Bool) (code : Byte) : (s.must b code).state.Canon := by
  unfold State.must
  grind [Res.state]

theorem canon_openRegs {s : State} (h : s.Canon) (c : CoreId) : (s.openRegs c).Canon := by
  unfold State.openRegs
  grind [State.Canon, canon_modCore]

theorem canon_spilled {s : State} (h : s.Canon) (s0 : State) (c : CoreId) (x : CtxId) : (s.spilled s0 c x).Canon := by
  unfold State.spilled
  grind [State.Canon, canon_modCore]

theorem canon_longRoom {s : State} (h : s.Canon) (c : CoreId) (x : CtxId) (kind : LongKind) : (s.longRoom c x kind).state.Canon := by
  unfold State.longRoom
  grind [Res.state]

theorem canon_longStart {s : State} (h : s.Canon) (c : CoreId) (x : CtxId) (o : LongOp) : (s.longStart c x o).Canon := by
  unfold State.longStart
  grind [canon_modCore, canon_modCtx, canon_count]

theorem canon_ldfStart {s : State} (h : s.Canon) (c : CoreId) (x : CtxId) (a : Word) (dest : List (Fin 64)) (reg : Option (Fin 16)) :
    (s.ldfStart c x a dest reg).state.Canon := by
  unfold State.ldfStart
  grind [canon_count, canon_fabAsk, canon_longStart, Res.state]

theorem canon_uload {s : State} (h : s.Canon) (c : CoreId) (x : CtxId) (a : Word) (n : Nat) : (s.uload c x a n).state.Canon := by
  unfold State.uload
  grind [canon_loadBytes, canon_bind, Res.state]

theorem canon_ustore {s : State} (h : s.Canon) (c : CoreId) (x : CtxId) (a : Word) (n : Nat) (v : Word) :
    (s.ustore c x a n v).CanonWith KeepsCanon := by
  unfold State.ustore
  dsimp only
  split
  · exact canonWith_bind (canon_storeBytes h ..) fun _ t _ ht => canon_storeBytes ht ..
  · exact canon_storeBytes h ..

theorem canon_umem {s : State} (h : s.Canon) (c : CoreId) (x : CtxId) (w : BitVec 144) (a r : Word) :
    (s.umem c x w a r).CanonWith fun v => KeepsCanon v.2 := by
  have load {q : Res Word} (f : Word → Word) (hq : q.state.Canon) :
      (q.bind fun v s => (.ok (some (f v), Late.none) s : Res (Option Word × Late))).CanonWith fun v => KeepsCanon v.2 :=
    canonWith_after hq fun _ _ ht => ⟨keepsCanon_none, ht⟩
  have store {q : Res Late} (hq : q.CanonWith KeepsCanon) :
      (q.bind fun l s => (.ok (none, l) s : Res (Option Word × Late))).CanonWith fun v => KeepsCanon v.2 :=
    canonWith_bind hq fun _ _ hl ht => ⟨hl, ht⟩
  unfold State.umem
  dsimp only
  split
  · exact load _ (canon_uload h ..)
  · exact load _ (canon_uload h ..)
  · exact load _ (canon_uload h ..)
  · exact load _ (canon_uload h ..)
  · exact load _ (canon_uload h ..)
  · exact store (canon_ustore h ..)
  · exact store (canon_ustore h ..)
  · exact store (canon_ustore h ..)
  · exact store (canon_storeLanes h ..)
  · exact load _ (canon_Res_onFault (canon_claimAt h ..) fun t ht => canon_modCtx ht ..)
  · exact canonWith_after (canon_commitAt (s := { s with freeCtr := s.freeCtr + 1 }) h ..) fun _ _ ht => ⟨keepsCanon_none, ht⟩
  · exact ⟨keepsCanon_none, h⟩

theorem canon_utrn {s : State} (h : s.Canon) (c : CoreId) (x : CtxId) (w : BitVec 144) (q : USrc) : (s.utrn c x w q).state.Canon := by
  unfold State.utrn
  grind [canon_modCore, canon_stageTransit, canon_stageWake, canon_beamRead, canon_frameRead, canon_bind, Res.state]

theorem canon_upin {s : State} (h : s.Canon) (c : CoreId) (x : CtxId) (w : BitVec 144) (q : USrc) : (s.upin c x w q).state.Canon := by
  unfold State.upin
  grind [canon_pinRead, canon_pinGroup, canon_pinWrite, canon_pinWriteMask, canon_bind, Res.state]

theorem canon_handleEntry {s : State} (h : s.Canon) (c : CoreId) (x : CtxId) : (s.handleEntry c x).Canon := by
  unfold State.handleEntry
  grind [canon_modCtx, canon_deliver]

theorem canon_fastExit {s : State} (h : s.Canon) (c : CoreId) : (s.fastExit c).Canon := by
  unfold State.fastExit
  grind [canon_count, canon_setSt, canon_enterFast]

theorem canon_uevt {s : State} (h : s.Canon) (c : CoreId) (x : CtxId) (e : UEnv) (w : BitVec 144) (q : USrc) (r : Word) :
    (s.uevt c x e w q r).2.Canon ∧ KeepsCanon (s.uevt c x e w q r).1 := by
  unfold State.uevt
  split
  · exact ⟨canon_stimWrite h .., keepsCanon_none⟩
  · exact ⟨canon_raise h .., keepsCanon_none⟩
  · exact ⟨h, keepsCanon_none⟩
  · exact ⟨canon_handleEntry h c x, keepsCanon_none⟩
  · exact ⟨h, keepsCanon_none⟩
  · exact ⟨h, fun t ht => canon_fastExit ht c⟩
  · exact ⟨h, keepsCanon_none⟩

theorem canon_unext {s : State} (h : s.Canon) (c : CoreId) (x : CtxId) (e : UEnv) (w : BitVec 144) (u : Vector Word 16) (upc : BitVec 12) :
    (s.unext c x e w u upc).2.Canon := by
  unfold State.unext
  grind [canon_modCore]

theorem canon_uwb {s : State} (h : s.Canon) (c : CoreId) (x : CtxId) (w : BitVec 144) (ram : Bool) (v : Word) :
    (s.uwb c x w ram v).state.Canon := by
  unfold State.uwb
  grind [canon_modCore, canon_modCtx, canon_rready, canon_cellWrite, canon_bind, Res.state]

theorem canon_ulong {s : State} (h : s.Canon) (c : CoreId) (x : CtxId) (w : BitVec 144) (kind : LongKind) (a b addr : Word) :
    (s.ulong c x w kind a b addr).state.Canon := by
  unfold State.ulong
  grind [canon_knowFault, canon_fabricLoad, canon_longStart, canon_ldfStart, canon_bind, Res.state]

theorem canon_uldfCheck {s : State} (h : s.Canon) (c : CoreId) (x : CtxId) (w : BitVec 144) (addr : Word) :
    (s.uldfCheck c x w addr).state.Canon := by
  unfold State.uldfCheck
  grind [Res.state]

theorem canon_ulongRoom {s : State} (h : s.Canon) (c : CoreId) (x : CtxId) (w : BitVec 144) : (s.ulongRoom c x w).state.Canon := by
  unfold State.ulongRoom
  grind [canon_longRoom, Res.state]

theorem canon_uregsReady {s : State} (h : s.Canon) (c : CoreId) (x : CtxId) (w : UWord) : (s.uregsReady c x w).state.Canon := by
  unfold State.uregsReady
  grind [canon_longWait, Res.state]

theorem canon_cellsThere (c : CoreId) (x : CtxId) (l : List Nat) {s : State} (h : s.Canon) : (State.cellsThere c x l s).state.Canon := by
  induction l generalizing s with
  | nil => exact h
  | cons v l ih =>
    unfold State.cellsThere
    exact canon_bind (canon_cellThere h ..) fun _ _ ht => ih ht

theorem canon_ustackRet {s : State} (h : s.Canon) (c : CoreId) (x : CtxId) (w : BitVec 144) (v : Word) :
    (s.ustackRet c x w v).state.Canon := by
  unfold State.ustackRet
  grind [canon_enter, canon_leave, canon_rpush, canon_rpop, canon_bind, Res.state]

theorem canon_ustack {s : State} (h : s.Canon) (c : CoreId) (x : CtxId) (w : UWord) (n : Nat) : (s.ustack c x w n).state.Canon := by
  unfold State.ustack
  grind [canon_rready, canon_cellsMove, canon_ustackRet, canon_bind, canon_cellsThere, Res.state]

theorem canon_Res_waits {α : Type} {r : Res α} (hr : r.state.Canon) {s : State} (h : s.Canon) : (r.waits s).state.Canon := by
  cases r with
  | ok v t => exact h
  | fault t c a => exact h
  | dfault t c a => exact h
  | wait t w => exact hr
  | hold t => exact hr

theorem canon_wordChecks {s : State} (h : s.Canon) (c : CoreId) (x : CtxId) (w : UWord) (v : UCalc) (n : Nat) :
    (s.wordChecks c x w v n).state.Canon := by
  unfold State.wordChecks
  grind [canon_rready, canon_cellsReady, canon_utrn, canon_ulongRoom, canon_uregsReady, canon_ustack, canon_Res_waits, canon_bind,
    Res.state]

theorem canon_uevtInside {s : State} (h : s.Canon) (c : CoreId) (x : CtxId) (code : Nat) (trap : Bool) :
    (s.uevtInside c x code trap).Canon := by
  unfold State.uevtInside
  grind [canon_modCore, canon_saveSlot, canon_coreHalt, canon_yieldNow]

theorem canon_bkptDue {s : State} (h : s.Canon) (c : CoreId) : (s.bkptDue c).Canon := by
  unfold State.bkptDue
  grind [canon_bkptStop]

theorem canon_wordEnd {s : State} (h : s.Canon) (c : CoreId) (x : CtxId) (e : UEnv) (w : UWord) (ram : Bool) (p : UPos)
    (u : Vector Word 16) (value : Word) {late : Late} (hl : KeepsCanon late) :
    (s.wordEnd c x e w ram p u value late).CanonWith fun v => KeepsCanon v.2 := by
  have stop : KeepsCanon fun s => if ufield w 51 4 = 1 then (late s).bkptStop c else
      (if ufield w 51 4 = 2 then (late s).yieldNow c x else late s).bkptDue c := fun t ht =>
    canon_ite (canon_bkptStop (hl t ht) c) (canon_bkptDue (canon_ite (canon_yieldNow (hl t ht) c x) (hl t ht)) c)
  unfold State.wordEnd
  dsimp only
  split
  · exact ⟨fun t ht => canon_uevtInside (hl t ht) .., canon_unext h ..⟩
  · exact ⟨stop, h⟩
  · exact ⟨stop, h⟩
  · exact ⟨stop, h⟩

theorem canon_microWord {s0 : State} (h : s0.Canon) (c : CoreId) (x : CtxId) (e : UEnv) (w : BitVec 144) (ram : Bool) (p : UPos) :
    (s0.microWord c x e w ram p).CanonWith fun v => KeepsCanon v.2 := by
  have writes (o : Option LongKind) (l : Option Word) (v : Word) (t : State) (ht : t.Canon) :
      (match o, l with
        | some _, none => (.ok () t : Res Unit)
        | _, _ => t.uwb c x w ram v).state.Canon := by
    split
    · exact ht
    · exact canon_uwb ht ..
  unfold State.microWord
  dsimp only
  refine canonWith_after (canon_wordChecks (s := { s0 with freeCtr := s0.freeCtr + drawn }) h ..) fun _ s1 h1 => ?_
  refine canonWith_bind (canon_umem h1 ..) fun m s2 hm h2 => ?_
  refine canonWith_after (canon_ustack h2 ..) fun _ s3 h3 => ?_
  refine canonWith_after (r := match longKind w with
    | some kind => s3.ulong c x w kind _ _ _
    | none => .ok none s3) ?_ fun lv s4 h4 => ?_
  · split
    · exact canon_ulong h3 ..
    · exact h3
  · refine canonWith_after (writes _ _ _ s4 h4) fun _ _ _ => ?_
    refine canonWith_after (canon_utrn h4 ..) fun xt s5 h5 => ?_
    refine canonWith_after (canon_upin h5 ..) fun xp s6 h6 => ?_
    obtain ⟨after, late⟩ := canon_uevt h6 c x e w ({ s0 with freeCtr := s0.freeCtr + drawn }.ucalc c x e w s0.freeCtr).q
      ({ s0 with freeCtr := s0.freeCtr + drawn }.ucalc c x e w s0.freeCtr).r
    refine canonWith_after (writes _ _ _ _ (canon_spilled after ..)) fun _ s7 h7 => ?_
    exact canon_wordEnd (canon_modCore h7 ..) _ _ _ _ _ _ _ _ fun t ht => hm _ (late t ht)

end Sys2Proof.Machine
end

