-- ==== Sys2Proof/Proofs/CanonInstructions.lean ====
section
/-! SUPPORT. The canonical form through the issue of instructions, vendor meanings, block moves and microcode. -/

set_option Elab.async false

namespace Sys2Proof.Machine

open Sys2Proof

/-! ## Machine/Issue -/

theorem canon_makeRoom {s : State} (h : s.Canon) (c : CoreId) (x : CtxId) : (s.makeRoom c x).Canon := by
  unfold State.makeRoom
  grind [canon_takeX]

theorem canon_Res_noData {α : Type} {r : Res α} (hr : r.state.Canon) : r.noData.state.Canon := by
  cases r with
  | ok v s => exact hr
  | fault s c a => exact hr
  | dfault s c a => exact hr
  | wait s w => exact hr
  | hold s => exact hr

theorem canon_readRow (c : CoreId) (x : CtxId) (a : Word) (l : List Nat) {s : State} (h : s.Canon) :
    (State.readRow c x a l s).state.Canon := by
  induction l generalizing s with
  | nil => exact h
  | cons v l ih =>
    unfold State.readRow
    exact canon_bind (canon_ctxRead h ..) fun _ _ ht => ih ht

theorem canon_refill {s : State} (h : s.Canon) (c : CoreId) (x : CtxId) (a : Word) : (s.refill c x a).state.Canon := by
  unfold State.refill
  grind [State.Canon, canon_modCtx, canon_count, canon_fabAsk, canon_noteSecure, canon_Res_also, canon_pinSlot, canon_cachedLine,
    canon_Res_noData, canon_bind, canon_readRow, Res.state]

theorem canon_fetch {s : State} (h : s.Canon) (c : CoreId) (x : CtxId) (n : Nat) : (s.fetch c x n).state.Canon := by
  unfold State.fetch
  grind [canon_noteSecure, canon_refill, canon_bind, Res.state]

theorem canon_tookBranch {s : State} (h : s.Canon) (c : CoreId) (x : CtxId) (from_ to_ : Word) : (s.tookBranch c x from_ to_).Canon := by
  unfold State.tookBranch
  grind [canon_modCore, canon_modCtx, canon_count]

theorem canon_countEnd {s : State} (h : s.Canon) (c : CoreId) (x : CtxId) : (s.countEnd c x).Canon := by
  unfold State.countEnd
  grind [canon_count]

/-- What an instruction leaves to its end keeps the canonical form. -/
def GoodDone (d : Done) : Prop := KeepsCanon d.late

theorem canon_finish {s : State} (h : s.Canon) (c : CoreId) (x : CtxId) (npc : Word) (p : BitVec 2) (vendor : Bool) {d : Done}
    (hd : GoodDone d) : (s.finish c x npc p vendor d).Canon := by
  unfold State.finish
  refine hd _ (canon_modCore (canon_countEnd ?_ c x) c _)
  split
  · exact canon_tookBranch (canon_modCtx h ..) ..
  · exact canon_modCtx h ..

theorem canon_undo {s : State} (h : s.Canon) (s0 : State) (c : CoreId) (x : CtxId) : (s.undo s0 c x).Canon := by
  unfold State.undo
  grind [canon_modCore, canon_modCtx]

theorem canon_endFault {s : State} (h : s.Canon) (c : CoreId) (x : CtxId) (code : Byte) (a : Word) (dbl vendor : Bool) :
    (s.endFault c x code a dbl vendor).Canon := by
  unfold State.endFault
  grind [canon_modCore, canon_preciseFault, canon_doubleFault]

theorem canon_standIn {s : State} (h : s.Canon) (c : CoreId) (x : CtxId) (r : Routine) : (s.standIn c x r).Canon := by
  unfold State.standIn
  grind [canon_modCtx]

theorem canon_standing {s : State} (h : s.Canon) (c : CoreId) (x : CtxId) (r : Routine) : (s.standing c x r).Canon := by
  unfold State.standing
  grind [canon_standIn]

theorem canon_conclude (s0 : State) (c : CoreId) (x : CtxId) (npc : Word) (keep : Bool) (r : Routine) {q : Res Done}
    (hq : q.CanonWith GoodDone) : (s0.conclude c x npc keep r q).Canon := by
  unfold State.conclude
  cases q with
  | ok d s => exact canon_finish hq.2 _ _ _ _ _ hq.1
  | fault s code a =>
    have h : s.Canon := hq
    exact canon_endFault (canon_ite h (canon_undo h ..)) ..
  | dfault s code a => exact canon_endFault (canon_undo hq ..) ..
  | wait s w => exact canon_enterWait (canon_standing (canon_undo hq ..) ..) ..
  | hold s => exact canon_standing (canon_undo hq ..) ..

theorem canon_unsave {s : State} (h : s.Canon) (c : CoreId) (x : CtxId) : (s.unsave c x).Canon := by
  unfold State.unsave
  grind [canon_modCore, canon_modCtx]

theorem canon_parkBad {s : State} (h : s.Canon) (c : CoreId) (x : CtxId) (r : Routine) : (s.parkBad c x r).Canon := by
  unfold State.parkBad
  grind [canon_parkAbandoned, canon_standIn]

theorem canon_wordHeld {s : State} (h : s.Canon) (c : CoreId) (x : CtxId) (fresh : Bool) (r : Routine) :
    (s.wordHeld c x fresh r).Canon := by
  unfold State.wordHeld
  grind [canon_standIn, canon_standing]

/-- A word's outcome keeps the canonical form. -/
def UStep.Canon : UStep → Prop
  | .on s _ => s.Canon
  | .fin s => s.Canon

theorem ustepCanon_ite {p : Prop} [Decidable p] {s : State} {q : UPos} (h : s.Canon) : UStep.Canon (if p then .on s q else .fin s) := by
  split
  · exact h
  · exact h

theorem canon_microStep {s : State} (h : s.Canon) (c : CoreId) (x : CtxId) (e : UEnv) (r : UPos → Routine) (fresh : Bool) (p : UPos) :
    (s.microStep c x e r fresh p).Canon := by
  have read := canon_readStore h c (s.core[c].patched p.upc)
  unfold State.microStep
  dsimp only
  split
  · next s1 hr =>
    rw [hr] at read
    exact canon_parkBad read ..
  · next w s1 hr =>
    rw [hr] at read
    have counted := canon_count read c x 0x04
    split
    · exact canon_endFault read ..
    · split
      · exact canon_standIn counted ..
      · have word := canon_microWord counted c x e w (isRam (s.core[c].patched p.upc)) { p with upc := s.core[c].patched p.upc }
        split
        · next q late s2 hw =>
          rw [hw] at word
          obtain ⟨late, h2⟩ := word
          have stood := late _ (canon_standIn (canon_modCtx h2 c x fun t =>
            { t with served := none, waitFor := none, moved := none, seen := 0 }) c x (r q))
          have after := canon_ite (p := q.trap = true) (canon_bkptDue stood c) stood
          exact ustepCanon_ite after
        · next f sleep late s2 hw =>
          rw [hw] at word
          obtain ⟨late, h2⟩ := word
          exact canon_finish h2 _ _ _ _ _ fun t ht => late _ (canon_ite (canon_sleepNow ht ..) ht)
        · next s2 code a hw => rw [hw] at word; exact canon_endFault (canon_undo word ..) ..
        · next s2 code a hw => rw [hw] at word; exact canon_endFault (canon_undo word ..) ..
        · next s2 v hw => rw [hw] at word; exact canon_enterWait (canon_wordHeld (canon_undo word ..) ..) ..
        · next s2 hw => rw [hw] at word; exact canon_wordHeld (canon_undo word ..) ..

theorem canon_microRun {s : State} (h : s.Canon) (c : CoreId) (x : CtxId) (e : UEnv) (r : UPos → Routine) (fuel words : Nat)
    (fresh : Bool) (p : UPos) : (State.microRun c x e r fuel words fresh s p).Canon := by
  induction fuel generalizing words fresh s p with
  | zero => exact h
  | succ fuel ih =>
    cases words with
    | zero => exact h
    | succ words =>
      have step := canon_microStep h c x e r fresh p
      unfold State.microRun
      revert step
      generalize s.microStep c x e r fresh p = u
      intro step
      cases u with
      | on t q => exact ih step ..
      | fin t => exact step

theorem canon_romReads {s : State} (h : s.Canon) (c : CoreId) (a : BitVec 12) : (s.romReads c a).Canon :=
  canon_foldl (fun _ b ht => canon_readStore ht c (BitVec.ofNat 12 b)) _ h

theorem canon_microStart {s : State} (h : s.Canon) (c : CoreId) (x : CtxId) (e : Enc) (upc : BitVec 12) (words : Nat) :
    (s.microStart c x e upc words).Canon := by
  unfold State.microStart
  grind [canon_modCore, canon_openRegs, canon_microRun]

theorem canon_microResume {s : State} (h : s.Canon) (c : CoreId) (x : CtxId) (e : Enc) (words : Nat) :
    (s.microResume c x e words).Canon := by
  unfold State.microResume
  grind [canon_unsave, canon_microRun]

/-- A routine's first words keep the canonical form. -/
def Reached.Canon : Reached → Prop
  | .runs s => s.Canon
  | .bad s _ => s.Canon
  | .fault s _ _ => s.Canon

theorem canon_ramWords {s : State} (h : s.Canon) (c : CoreId) (x : CtxId) (e : UEnv) (fuel : Nat) (p : UPos) :
    (State.ramWords c x e fuel s p).Canon := by
  induction fuel generalizing s p with
  | zero => exact h
  | succ fuel ih =>
    have read := canon_readStore h c (s.core[c].patched p.upc)
    unfold State.ramWords
    dsimp only
    split
    · exact h
    · split
      · next s1 hr => rw [hr] at read; exact read
      · next w s1 hr =>
        rw [hr] at read
        have counted := canon_count read c x 0x04
        have word := canon_microWord counted c x e w true { p with upc := s.core[c].patched p.upc }
        split
        · next q late s2 hw => rw [hw] at word; exact ih (word.1 _ word.2) q
        · next f sleep late s2 hw => rw [hw] at word; exact word.1 _ word.2
        · next s2 code a hw => rw [hw] at word; exact canon_undo word ..
        · next s2 code a hw => rw [hw] at word; exact canon_undo word ..
        · exact counted
        · exact counted

theorem canon_reach {s : State} (h : s.Canon) (c : CoreId) (x : CtxId) (e : UEnv) (a : BitVec 12) :
    (s.reach c x e a).Canon := by
  unfold State.reach
  dsimp only
  split
  · exact canon_ramWords (canon_openRegs h c) ..
  · split
    · exact canon_raise (canon_modCore h ..) ..
    · exact canon_romReads h ..

theorem canon_runBody {s1 : State} (h : s1.Canon) (c : CoreId) (x : CtxId) (e : Enc) (npc : Word) (keep : Bool) {body : State → Res Done}
    (hb : ∀ t, t.Canon → (body t).CanonWith GoodDone) : (s1.runBody c x e npc keep body).Canon := by
  unfold State.runBody
  dsimp only
  split
  · have first := canon_reach h c x (e.env npc) (spillStart ((body s1).state.ctx c x).spillKind)
    split
    · next t ht => rw [ht] at first; exact canon_conclude _ _ _ _ _ _ (hb t first)
    · next t a ht => rw [ht] at first; exact canon_parkBad first ..
    · next t code a ht => rw [ht] at first; exact canon_conclude _ _ _ _ _ _ first
  · exact canon_conclude _ _ _ _ _ _ (hb _ h)

theorem canon_afterFetch {s : State} (h : s.Canon) (c : CoreId) (x : CtxId) (n : Nat) {go : State → State}
    (hgo : ∀ t, t.Canon → (go t).Canon) : (s.afterFetch c x n go).Canon := by
  have fetched := canon_fetch h c x n
  unfold State.afterFetch
  revert fetched
  generalize s.fetch c x n = q
  intro h1
  cases q with
  | ok v s1 => exact hgo _ h1
  | fault s1 code a => exact canon_endFault (canon_undo h1 ..) ..
  | dfault s1 code a => exact canon_endFault (canon_undo h1 ..) ..
  | wait s1 w => exact canon_enterWait (canon_undo h1 ..) ..
  | hold s1 => exact canon_undo h1 ..

theorem canon_parkRom {s : State} (h : s.Canon) (c : CoreId) (x : CtxId) (e : Enc) (b : BitVec 12) : (s.parkRom c x e b).Canon := by
  unfold State.parkRom
  grind [canon_modCore, canon_raise, canon_parkBad]

theorem canon_vendor {s : State} (h : s.Canon) (c : CoreId) (x : CtxId) (e : Enc) (keep : Bool) {body : State → Res Done}
    (hb : ∀ t, t.Canon → (body t).CanonWith GoodDone) : (s.vendor c x e keep body).Canon := by
  unfold State.vendor
  refine canon_afterFetch h c x e.len fun t ht => ?_
  split
  · exact canon_microStart ht ..
  · split
    · exact canon_parkRom ht ..
    · exact canon_runBody (canon_romReads ht ..) _ _ _ _ _ hb

theorem canon_spillResume {s : State} (h : s.Canon) (c : CoreId) (x : CtxId) (e : Enc) {body : State → Res Done}
    (hb : ∀ t, t.Canon → (body t).CanonWith GoodDone) (t : State) (ht : s.spillResume c x e body = some t) : t.Canon := by
  have go (f : Ctx → Ctx) (npc : Word) :
      (State.conclude ((s.unsave c x).modCtx c x f) c x npc false e.inSpill (body ((s.unsave c x).modCtx c x f))).Canon :=
    canon_conclude _ _ _ _ _ _ (hb _ (canon_modCtx (canon_unsave h c x) c x f))
  unfold State.spillResume at ht
  dsimp only at ht
  split at ht
  · obtain rfl := Option.some.inj ht
    exact canon_ite (go _ _) h
  · split at ht
    · obtain rfl := Option.some.inj ht
      exact go _ _
    · cases ht
  · cases ht

theorem canon_issue {s : State} (h : s.Canon) (c : CoreId) (x : CtxId) (e : Enc) {body : State → Res Done}
    (hb : ∀ t, t.Canon → (body t).CanonWith GoodDone) : AnsCanon (s.issue c x e body) := by
  unfold State.issue
  have room := canon_makeRoom h c x
  split
  · exact ansCanon_next h
  · dsimp only
    split
    · split
      · next t ht => exact ansCanon_next (canon_spillResume room c x e hb t ht)
      · exact ansCanon_next (canon_microResume room ..)
    · exact ansCanon_next (canon_vendor room _ _ _ _ hb)

theorem canon_Res_done {r : Res (Option Word)} (hr : r.state.Canon) : r.done.CanonWith GoodDone :=
  canonWith_after hr fun _ _ ht => ⟨keepsCanon_none, ht⟩

theorem canon_simple {s : State} (h : s.Canon) (c : CoreId) (x : CtxId) (e : Enc) {body : State → Res (Option Word)}
    (hb : ∀ t, t.Canon → (body t).state.Canon) : AnsCanon (s.simple c x e body) :=
  canon_issue h c x e fun t ht => canon_Res_done (hb t ht)

/-! ## Machine/Arith -/

theorem canon_unary {s : State} (h : s.Canon) (c : CoreId) (x : CtxId) (e : Enc) (f : Word → Word) : AnsCanon (s.unary c x e f) := by
  unfold State.unary
  grind [canon_stackOp, canon_simple, AnsCanon]

theorem canon_binary {s : State} (h : s.Canon) (c : CoreId) (x : CtxId) (e : Enc) (f : Word → Word → Word) :
    AnsCanon (s.binary c x e f) := by
  unfold State.binary
  grind [canon_stackOp, canon_simple, AnsCanon]

theorem canon_execAdd (c : CoreId) (x : CtxId) {s : State} (h : s.Canon) : AnsCanon (execAdd c x s) := by
  unfold execAdd
  grind [canon_binary]

theorem canon_execSub (c : CoreId) (x : CtxId) {s : State} (h : s.Canon) : AnsCanon (execSub c x s) := by
  unfold execSub
  grind [canon_binary]

theorem canon_execNeg (c : CoreId) (x : CtxId) {s : State} (h : s.Canon) : AnsCanon (execNeg c x s) := by
  unfold execNeg
  grind [canon_unary]

theorem canon_execAbs (c : CoreId) (x : CtxId) {s : State} (h : s.Canon) : AnsCanon (execAbs c x s) := by
  unfold execAbs
  grind [canon_unary]

theorem canon_execAnd (c : CoreId) (x : CtxId) {s : State} (h : s.Canon) : AnsCanon (execAnd c x s) := by
  unfold execAnd
  grind [canon_binary]

theorem canon_execOr (c : CoreId) (x : CtxId) {s : State} (h : s.Canon) : AnsCanon (execOr c x s) := by
  unfold execOr
  grind [canon_binary]

theorem canon_execXor (c : CoreId) (x : CtxId) {s : State} (h : s.Canon) : AnsCanon (execXor c x s) := by
  unfold execXor
  grind [canon_binary]

theorem canon_execNot (c : CoreId) (x : CtxId) {s : State} (h : s.Canon) : AnsCanon (execNot c x s) := by
  unfold execNot
  grind [canon_unary]

theorem canon_execShl (c : CoreId) (x : CtxId) {s : State} (h : s.Canon) : AnsCanon (execShl c x s) := by
  unfold execShl
  grind [canon_binary]

theorem canon_execShr (c : CoreId) (x : CtxId) {s : State} (h : s.Canon) : AnsCanon (execShr c x s) := by
  unfold execShr
  grind [canon_binary]

theorem canon_execSar (c : CoreId) (x : CtxId) {s : State} (h : s.Canon) : AnsCanon (execSar c x s) := by
  unfold execSar
  grind [canon_binary]

theorem canon_execRol (c : CoreId) (x : CtxId) {s : State} (h : s.Canon) : AnsCanon (execRol c x s) := by
  unfold execRol
  grind [canon_binary]

theorem canon_execRor (c : CoreId) (x : CtxId) {s : State} (h : s.Canon) : AnsCanon (execRor c x s) := by
  unfold execRor
  grind [canon_binary]

theorem canon_execInc (c : CoreId) (x : CtxId) {s : State} (h : s.Canon) : AnsCanon (execInc c x s) := by
  unfold execInc
  grind [canon_unary]

theorem canon_execDec (c : CoreId) (x : CtxId) {s : State} (h : s.Canon) : AnsCanon (execDec c x s) := by
  unfold execDec
  grind [canon_unary]

theorem canon_execAddsb (c : CoreId) (x : CtxId) {s : State} (h : s.Canon) : AnsCanon (execAddsb c x s) := by
  unfold execAddsb
  grind [canon_binary]

theorem canon_execSubsb (c : CoreId) (x : CtxId) {s : State} (h : s.Canon) : AnsCanon (execSubsb c x s) := by
  unfold execSubsb
  grind [canon_binary]

theorem canon_execMul (c : CoreId) (x : CtxId) {s : State} (h : s.Canon) : AnsCanon (execMul c x s) := by
  unfold execMul
  grind [canon_binary]

theorem canon_execMin (c : CoreId) (x : CtxId) {s : State} (h : s.Canon) : AnsCanon (execMin c x s) := by
  unfold execMin
  grind [canon_binary]

theorem canon_execMax (c : CoreId) (x : CtxId) {s : State} (h : s.Canon) : AnsCanon (execMax c x s) := by
  unfold execMax
  grind [canon_binary]

theorem canon_execMinu (c : CoreId) (x : CtxId) {s : State} (h : s.Canon) : AnsCanon (execMinu c x s) := by
  unfold execMinu
  grind [canon_binary]

theorem canon_execMaxu (c : CoreId) (x : CtxId) {s : State} (h : s.Canon) : AnsCanon (execMaxu c x s) := by
  unfold execMaxu
  grind [canon_binary]

theorem canon_execExtb (c : CoreId) (x : CtxId) {s : State} (h : s.Canon) : AnsCanon (execExtb c x s) := by
  unfold execExtb
  grind [canon_binary]

theorem canon_execClz (c : CoreId) (x : CtxId) {s : State} (h : s.Canon) : AnsCanon (execClz c x s) := by
  unfold execClz
  grind [canon_unary]

theorem canon_execEq (c : CoreId) (x : CtxId) {s : State} (h : s.Canon) : AnsCanon (execEq c x s) := by
  unfold execEq
  grind [canon_binary]

theorem canon_execNe (c : CoreId) (x : CtxId) {s : State} (h : s.Canon) : AnsCanon (execNe c x s) := by
  unfold execNe
  grind [canon_binary]

theorem canon_execLt (c : CoreId) (x : CtxId) {s : State} (h : s.Canon) : AnsCanon (execLt c x s) := by
  unfold execLt
  grind [canon_binary]

theorem canon_execGt (c : CoreId) (x : CtxId) {s : State} (h : s.Canon) : AnsCanon (execGt c x s) := by
  unfold execGt
  grind [canon_binary]

theorem canon_execLtu (c : CoreId) (x : CtxId) {s : State} (h : s.Canon) : AnsCanon (execLtu c x s) := by
  unfold execLtu
  grind [canon_binary]

theorem canon_execGtu (c : CoreId) (x : CtxId) {s : State} (h : s.Canon) : AnsCanon (execGtu c x s) := by
  unfold execGtu
  grind [canon_binary]

theorem canon_execZeq (c : CoreId) (x : CtxId) {s : State} (h : s.Canon) : AnsCanon (execZeq c x s) := by
  unfold execZeq
  grind [canon_unary]

theorem canon_execZlt (c : CoreId) (x : CtxId) {s : State} (h : s.Canon) : AnsCanon (execZlt c x s) := by
  unfold execZlt
  grind [canon_unary]

theorem canon_execSel (c : CoreId) (x : CtxId) {s : State} (h : s.Canon) : AnsCanon (execSel c x s) := by
  unfold execSel
  grind [canon_stackOp, canon_simple, AnsCanon]

theorem canon_execAddi8 (c : CoreId) (x : CtxId) (b : Byte) {s : State} (h : s.Canon) : AnsCanon (execAddi8 c x b s) := by
  unfold execAddi8
  grind [canon_unary]

theorem canon_execShli (c : CoreId) (x : CtxId) (b : Byte) {s : State} (h : s.Canon) : AnsCanon (execShli c x b s) := by
  unfold execShli
  grind [canon_unary]

theorem canon_execShri (c : CoreId) (x : CtxId) (b : Byte) {s : State} (h : s.Canon) : AnsCanon (execShri c x b s) := by
  unfold execShri
  grind [canon_unary]

theorem canon_execSari (c : CoreId) (x : CtxId) (b : Byte) {s : State} (h : s.Canon) : AnsCanon (execSari c x b s) := by
  unfold execSari
  grind [canon_unary]

/-! ## Machine/Block -/

theorem canon_blockWord {s : State} (h : s.Canon) (c : CoreId) (x : CtxId) (o : BlockOp) (b : BlockArgs) (p : BlockPos) :
    (s.blockWord c x o b p).CanonWith KeepsCanon := by
  unfold State.blockWord
  dsimp only
  split
  · exact canon_storeBytes h ..
  · exact canonWith_after (canon_loadBytes h ..) fun _ t ht => canon_storeLanes ht ..
  · exact canonWith_after (canon_loadBytes h ..) fun _ t ht => canon_storeBytes ht ..

theorem canon_blockStand {s : State} (h : s.Canon) (c : CoreId) (x : CtxId) (o : BlockOp) (p : BlockPos) :
    (s.blockStand c x o p).Canon := by
  unfold State.blockStand
  grind [canon_modCore, canon_standIn]

theorem goodDone_none : GoodDone {} := keepsCanon_none

theorem canon_blockRun {s : State} (h : s.Canon) (c : CoreId) (x : CtxId) (o : BlockOp) (b : BlockArgs) (npc : Word) (words : Nat)
    (p : BlockPos) : (State.blockRun c x o b npc words s p).Canon := by
  induction words generalizing s p with
  | zero => exact canon_blockStand h ..
  | succ words ih =>
    have word := canon_blockWord h c x o b p
    unfold State.blockRun
    split
    · next late s1 hw =>
      rw [hw] at word
      have stood := word.1 _ (canon_blockStand (canon_modCtx word.2 c x fun t => { t with served := none, waitFor := none }) c x o
        (p.next o b))
      dsimp only
      split
      · exact stood
      · split
        · exact canon_finish (canon_replace stood ..) _ _ _ _ _ goodDone_none
        · exact ih stood _
    · next s1 code a hw => rw [hw] at word; exact canon_endFault (canon_replace word ..) ..
    · next s1 code a hw => rw [hw] at word; exact canon_endFault word ..
    · next s1 w hw => rw [hw] at word; exact canon_enterWait (canon_blockStand word ..) ..
    · next s1 hw => rw [hw] at word; exact canon_blockStand word ..

theorem canon_blockStart {s : State} (h : s.Canon) (c : CoreId) (x : CtxId) (o : BlockOp) (npc : Word) (words : Nat) :
    (s.blockStart c x o npc words).Canon :=
  canon_ite (canon_finish (canon_replace h ..) _ _ _ _ _ goodDone_none) (canon_blockRun h ..)

theorem canon_blockCheck {s : State} (h : s.Canon) (c : CoreId) (x : CtxId) (o : BlockOp) : (s.blockCheck c x o).state.Canon := by
  unfold State.blockCheck
  grind [canon_needPops, canon_bind, Res.state]

theorem canon_blockResume {s : State} (h : s.Canon) (c : CoreId) (x : CtxId) (o : BlockOp) (npc : Word) (words : Nat) :
    (s.blockResume c x o npc words).Canon := by
  have go (p : BlockPos) (priv : BitVec 2) (b : BlockArgs) (u : State) (hu : u.Canon) :
      (if blockWords o b ≤ p.done then (u.replace c x o.cells []).finish c x npc priv true {}
        else State.blockRun c x o b npc (max 1 words) u p).Canon :=
    canon_ite (canon_finish (canon_replace hu ..) _ _ _ _ _ goodDone_none) (canon_blockRun hu ..)
  have free : ((s.unsave c x).modCtx c x fun t => { t with routine := none }).Canon := canon_modCtx (canon_unsave h c x) ..
  unfold State.blockResume
  dsimp only
  split
  · next page n row col hr =>
    split
    · exact go ⟨n, row, col⟩ _ _ _ free
    · exact h
  · exact go _ _ _ _ free
  · exact h

theorem canon_block {s : State} (h : s.Canon) (c : CoreId) (x : CtxId) (o : BlockOp) (words : Nat) :
    AnsCanon (s.block c x o words) := by
  have room := canon_makeRoom h c x
  unfold State.block
  dsimp only
  split
  · exact ansCanon_next h
  · split
    · split
      · exact ansCanon_next (canon_microResume room ..)
      · exact ansCanon_next (canon_blockResume room ..)
    · refine ansCanon_next (canon_afterFetch room c x 2 fun t ht => ?_)
      split
      · exact canon_microStart ht ..
      · split
        · exact canon_parkRom ht ..
        · have read := canon_romReads ht c (dispatch (Enc.index { op := 0xFE, page := some o.page }))
          have check := canon_blockCheck read c x o
          split
          · next u hc => rw [hc] at check; exact canon_blockStart check ..
          · next u code a hc => rw [hc] at check; exact canon_conclude _ _ _ _ _ _ (q := .fault u code a) check
          · next u code a hc => rw [hc] at check; exact canon_conclude _ _ _ _ _ _ (q := .dfault u code a) check
          · next u w hc => rw [hc] at check; exact canon_conclude _ _ _ _ _ _ (q := .wait u w) check
          · next u hc => rw [hc] at check; exact canon_conclude _ _ _ _ _ _ (q := .hold u) check

theorem canon_execMove (c : CoreId) (x : CtxId) (words : Nat) {s : State} (h : s.Canon) : AnsCanon (execMove c x words s) := by
  unfold execMove
  grind [canon_block]

theorem canon_execFill (c : CoreId) (x : CtxId) (words : Nat) {s : State} (h : s.Canon) : AnsCanon (execFill c x words s) := by
  unfold execFill
  grind [canon_block]

theorem canon_execBlit (c : CoreId) (x : CtxId) (words : Nat) {s : State} (h : s.Canon) : AnsCanon (execBlit c x words s) := by
  unfold execBlit
  grind [canon_block]

theorem canon_execBlitk (c : CoreId) (x : CtxId) (words : Nat) {s : State} (h : s.Canon) : AnsCanon (execBlitk c x words s) := by
  unfold execBlitk
  grind [canon_block]

/-! ## Machine/Control -/

theorem canon_execBr8 (c : CoreId) (x : CtxId) (o : Byte) {s : State} (h : s.Canon) : AnsCanon (execBr8 c x o s) := by
  refine canon_simple h _ _ _ fun t ht => ?_
  grind [Res.state]

theorem canon_execBr16 (c : CoreId) (x : CtxId) (o : BitVec 16) {s : State} (h : s.Canon) : AnsCanon (execBr16 c x o s) := by
  refine canon_simple h _ _ _ fun t ht => ?_
  grind [Res.state]

theorem canon_branchIf {s : State} (h : s.Canon) (c : CoreId) (x : CtxId) (e : Enc) (test : Word → Bool) (off : Word) :
    AnsCanon (s.branchIf c x e test off) := by
  refine canon_simple h _ _ _ fun t ht => ?_
  grind [canon_needPops, canon_replace, canon_bind, Res.state]

theorem canon_execBz8 (c : CoreId) (x : CtxId) (wide : Bool) (o : BitVec 16) {s : State} (h : s.Canon) :
    AnsCanon (execBz8 c x wide o s) := by
  unfold execBz8
  grind [canon_branchIf]

theorem canon_execBnz8 (c : CoreId) (x : CtxId) (wide : Bool) (o : BitVec 16) {s : State} (h : s.Canon) :
    AnsCanon (execBnz8 c x wide o s) := by
  unfold execBnz8
  grind [canon_branchIf]

theorem canon_execBzfN (c : CoreId) (x : CtxId) (n : Fin 16) {s : State} (h : s.Canon) : AnsCanon (execBzfN c x n s) := by
  unfold execBzfN
  grind [canon_branchIf]

theorem canon_callTo {s : State} (h : s.Canon) (c : CoreId) (x : CtxId) (e : Enc) (to_ : Word) : (s.callTo c x e to_).state.Canon := by
  unfold State.callTo
  grind [canon_rpush, canon_bind, Res.state]

theorem canon_execCall16 (c : CoreId) (x : CtxId) (o : BitVec 16) {s : State} (h : s.Canon) : AnsCanon (execCall16 c x o s) := by
  unfold execCall16
  grind [canon_simple, canon_callTo, AnsCanon]

theorem canon_execCall32 (c : CoreId) (x : CtxId) (w : Word) {s : State} (h : s.Canon) : AnsCanon (execCall32 c x w s) := by
  unfold execCall32
  grind [canon_simple, canon_callTo, AnsCanon]

theorem canon_execCallvN (c : CoreId) (x : CtxId) (n : Fin 16) {s : State} (h : s.Canon) : AnsCanon (execCallvN c x n s) := by
  refine canon_simple h _ _ _ fun t ht => canon_bind ?_ fun _ u hu => canon_bind (canon_loadBytes hu ..) fun _ v hv => canon_callTo hv ..
  split
  · exact canon_bind (canon_rpush ht ..) fun _ _ _ => ht
  · exact ht

theorem canon_execCalli (c : CoreId) (x : CtxId) {s : State} (h : s.Canon) : AnsCanon (execCalli c x s) := by
  refine canon_simple h _ _ _ fun t ht => ?_
  grind [canon_needPops, canon_replace, canon_callTo, canon_bind, Res.state]

theorem canon_execJmpi (c : CoreId) (x : CtxId) {s : State} (h : s.Canon) : AnsCanon (execJmpi c x s) := by
  refine canon_simple h _ _ _ fun t ht => ?_
  grind [canon_needPops, canon_replace, canon_bind, Res.state]

theorem canon_execRet (c : CoreId) (x : CtxId) {s : State} (h : s.Canon) : AnsCanon (execRet c x s) := by
  refine canon_simple h _ _ _ fun t ht => ?_
  grind [canon_rpop, canon_bind, Res.state]

theorem canon_execRloop8 (c : CoreId) (x : CtxId) (o : Byte) {s : State} (h : s.Canon) : AnsCanon (execRloop8 c x o s) := by
  refine canon_simple h _ _ _ fun t ht => ?_
  grind [canon_modCtx, canon_rready, canon_bind, Res.state]

theorem canon_execNop (c : CoreId) (x : CtxId) {s : State} (h : s.Canon) : AnsCanon (execNop c x s) := by
  refine canon_simple h _ _ _ fun t ht => ?_
  grind [Res.state]

theorem canon_execSys (c : CoreId) (x : CtxId) (n : Byte) {s : State} (h : s.Canon) : AnsCanon (execSys c x n s) := by
  refine canon_simple h _ _ _ fun t ht => ?_
  grind [canon_modCtx, canon_rpush, canon_bind, Res.state]

theorem canon_execRets (c : CoreId) (x : CtxId) {s : State} (h : s.Canon) : AnsCanon (execRets c x s) := by
  refine canon_simple h _ _ _ fun t ht => ?_
  grind [canon_modCtx, canon_rpop2, canon_bind, Res.state]

theorem canon_retiThread {s : State} (h : s.Canon) (c : CoreId) (x : CtxId) : (s.retiThread c x).CanonWith GoodDone := by
  have sleep (b : Bool) : KeepsCanon (if b then fun t => t.sleepNow c x else Late.none) := by
    cases b with
    | true => exact fun t ht => canon_sleepNow ht c x
    | false => exact keepsCanon_none
  unfold State.retiThread
  dsimp only
  split
  · exact h
  · split
    · exact ⟨keepsCanon_none, canon_count (canon_handleEntry h c x) ..⟩
    · refine canonWith_after (canon_rpop2 h ..) fun p t ht => ?_
      split
      · exact ⟨sleep _, canon_modCore (canon_modCtx ht ..) ..⟩
      · exact ht

theorem canon_execReti (c : CoreId) (x : CtxId) {s : State} (h : s.Canon) : AnsCanon (execReti c x s) := by
  refine canon_issue h _ _ _ fun t ht => ?_
  split
  · exact canonWith_after (canon_rpop2 ht ..) fun _ u hu => ⟨fun v hv => canon_fastExit hv c, hu⟩
  · exact canon_retiThread ht ..

theorem canon_execSleep (c : CoreId) (x : CtxId) {s : State} (h : s.Canon) : AnsCanon (execSleep c x s) := by
  refine canon_issue h _ _ _ fun t ht => ?_
  split
  · exact ht
  · exact ⟨fun u hu => canon_sleepNow hu c x, ht⟩

theorem canon_execYield (c : CoreId) (x : CtxId) {s : State} (h : s.Canon) : AnsCanon (execYield c x s) :=
  canon_issue h _ _ _ fun _ ht => ⟨fun u hu => canon_yieldNow hu c x, ht⟩

theorem canon_execBkpt (c : CoreId) (x : CtxId) {s : State} (h : s.Canon) : AnsCanon (execBkpt c x s) := by
  refine canon_issue h _ _ _ fun t ht => ?_
  split
  · exact ⟨fun u hu => canon_bkptStop hu c, ht⟩
  · exact ht

theorem canon_execVtime (c : CoreId) (x : CtxId) {s : State} (h : s.Canon) : AnsCanon (execVtime c x s) := by
  unfold execVtime
  grind [canon_stackOp, canon_simple, AnsCanon]

theorem canon_execCoreid (c : CoreId) (x : CtxId) {s : State} (h : s.Canon) : AnsCanon (execCoreid c x s) := by
  unfold execCoreid
  grind [canon_stackOp, canon_simple, AnsCanon]

theorem canon_enterBy {s : State} (h : s.Canon) (c : CoreId) (x : CtxId) (fast : Bool) {go : State → State}
    (hgo : ∀ t, t.Canon → (go t).Canon) : (s.enterBy c x fast go).Canon := by
  have first := canon_reach h c x (entryEnv (s.ctx c x)) (entryStart fast)
  unfold State.enterBy
  split
  · next t ht => rw [ht] at first; exact hgo _ (canon_modCore first ..)
  · next t a ht => rw [ht] at first; exact canon_parkBad first ..
  · next t code a ht => rw [ht] at first; exact canon_preciseFault first ..

theorem canon_execFastEntry (c : CoreId) {s : State} (h : s.Canon) : AnsCanon (execFastEntry c s) := by
  unfold execFastEntry
  grind [canon_count, canon_takeX, canon_enterFast, canon_enterBy, AnsCanon]

theorem canon_enterHandler {s : State} (h : s.Canon) (c : CoreId) (x : CtxId) : (s.enterHandler c x).Canon := by
  have pushed := canon_entryPush h c x (s.ctx c x).pc (fld (s.ctx c x).priv 0 ||| flag ((s.ctx c x).st == .sleep) 4)
  unfold State.enterHandler
  dsimp only
  split
  · next s1 hp =>
    rw [hp] at pushed
    exact canon_count (canon_deliver (canon_modCore (canon_setSt (canon_modCtx (canon_dropReads pushed ..) ..) ..) ..) c) ..
  · exact canon_preciseFault h ..
  · next s1 code a hp => rw [hp] at pushed; exact canon_doubleFault (canon_modCtx pushed ..) ..
  · exact h
  · exact h

theorem canon_execNormalEntry (c : CoreId) {s : State} (h : s.Canon) : AnsCanon (execNormalEntry c s) := by
  unfold execNormalEntry
  grind [canon_modCore, canon_takeX, canon_enterBy, canon_enterHandler, AnsCanon]

theorem canon_execFetchInvalidate (c : CoreId) (a : Word) (n : Nat) {s : State} (h : s.Canon) :
    AnsCanon (execFetchInvalidate c a n s) := by
  unfold execFetchInvalidate
  grind [canon_fetchInval, AnsCanon]

theorem canon_execFetchRefill (c : CoreId) (x : CtxId) (a : Word) {s : State} (h : s.Canon) : AnsCanon (execFetchRefill c x a s) := by
  have filled := canon_refill h c x (a &&& 0xFFFFFFE0)
  unfold execFetchRefill
  dsimp only
  split
  · split
    · exact ansCanon_next h
    · split
      · next s1 hr => rw [hr] at filled; exact ansCanon_next filled
      · next s1 l hr => rw [hr] at filled; exact ansCanon_next (canon_modCtx filled ..)
      · next s1 l hr => rw [hr] at filled; exact ansCanon_next (canon_modCtx filled ..)
      · exact ansCanon_next h
  · exact ansCanon_next h

/-! ## Machine/Long -/

theorem canon_longOp {s : State} (h : s.Canon) (c : CoreId) (x : CtxId) (kind : LongKind) (pops pushes : Nat) :
    (s.longOp c x kind pops pushes).state.Canon := by
  unfold State.longOp
  grind [canon_needPops, canon_replace, canon_longRoom, canon_longStart, canon_bind, Res.state]

theorem canon_execDiv (c : CoreId) (x : CtxId) {s : State} (h : s.Canon) : AnsCanon (execDiv c x s) := by
  unfold execDiv
  grind [canon_simple, canon_longOp, AnsCanon]

theorem canon_execMod (c : CoreId) (x : CtxId) {s : State} (h : s.Canon) : AnsCanon (execMod c x s) := by
  unfold execMod
  grind [canon_simple, canon_longOp, AnsCanon]

theorem canon_execDivu (c : CoreId) (x : CtxId) {s : State} (h : s.Canon) : AnsCanon (execDivu c x s) := by
  unfold execDivu
  grind [canon_simple, canon_longOp, AnsCanon]

theorem canon_execModu (c : CoreId) (x : CtxId) {s : State} (h : s.Canon) : AnsCanon (execModu c x s) := by
  unfold execModu
  grind [canon_simple, canon_longOp, AnsCanon]

theorem canon_execSqrt (c : CoreId) (x : CtxId) {s : State} (h : s.Canon) : AnsCanon (execSqrt c x s) := by
  unfold execSqrt
  grind [canon_simple, canon_longOp, AnsCanon]

theorem canon_execMulw (c : CoreId) (x : CtxId) {s : State} (h : s.Canon) : AnsCanon (execMulw c x s) := by
  unfold execMulw
  grind [canon_simple, canon_longOp, AnsCanon]

theorem canon_execMulwu (c : CoreId) (x : CtxId) {s : State} (h : s.Canon) : AnsCanon (execMulwu c x s) := by
  unfold execMulwu
  grind [canon_simple, canon_longOp, AnsCanon]

theorem canon_execLdf (c : CoreId) (x : CtxId) {s : State} (h : s.Canon) : AnsCanon (execLdf c x s) := by
  refine canon_simple h _ _ _ fun t ht => ?_
  grind [canon_needPops, canon_replace, canon_longRoom, canon_ldfStart, canon_bind, Res.state]

theorem canon_execLongOpRetire (c : CoreId) (x : CtxId) (i : Nat) {s : State} (h : s.Canon) : AnsCanon (execLongOpRetire c x i s) := by
  unfold execLongOpRetire
  grind [canon_modCore, canon_knowFault, AnsCanon]

/-! ## Machine/Memory -/

theorem canon_loadOp {s : State} (h : s.Canon) (c : CoreId) (x : CtxId) (e : Enc) (n : Nat) (f g : Word → Word) :
    AnsCanon (s.loadOp c x e n f g) := by
  refine canon_simple h _ _ _ fun t ht => ?_
  grind [canon_needPops, canon_replace, canon_loadBytes, canon_bind, Res.state]

theorem canon_storeOp {s : State} (h : s.Canon) (c : CoreId) (x : CtxId) (e : Enc) (n : Nat) (f : Word → Word) :
    AnsCanon (s.storeOp c x e n f) := by
  refine canon_issue h _ _ _ fun t ht => canonWith_after (canon_needPops ht ..) fun _ u hu => ?_
  exact canonWith_bind (canon_storeBytes hu ..) fun _ v hl hv => ⟨hl, canon_replace hv ..⟩

theorem canon_loadAt {s : State} (h : s.Canon) (c : CoreId) (x : CtxId) (e : Enc) (a : Word) : AnsCanon (s.loadAt c x e a) := by
  refine canon_simple h _ _ _ fun t ht => ?_
  grind [canon_need, canon_replace, canon_loadBytes, canon_bind, Res.state]

theorem canon_storeAt {s : State} (h : s.Canon) (c : CoreId) (x : CtxId) (e : Enc) (a : Word) : AnsCanon (s.storeAt c x e a) := by
  refine canon_issue h _ _ _ fun t ht => canonWith_after (canon_needPops ht ..) fun _ u hu => ?_
  exact canonWith_bind (canon_storeBytes hu ..) fun _ v hl hv => ⟨hl, canon_replace hv ..⟩

theorem canon_execLd (c : CoreId) (x : CtxId) {s : State} (h : s.Canon) : AnsCanon (execLd c x s) := by
  unfold execLd
  grind [canon_loadOp]

theorem canon_execLdh (c : CoreId) (x : CtxId) {s : State} (h : s.Canon) : AnsCanon (execLdh c x s) := by
  unfold execLdh
  grind [canon_loadOp]

theorem canon_execLdhs (c : CoreId) (x : CtxId) {s : State} (h : s.Canon) : AnsCanon (execLdhs c x s) := by
  unfold execLdhs
  grind [canon_loadOp]

theorem canon_execLdb (c : CoreId) (x : CtxId) {s : State} (h : s.Canon) : AnsCanon (execLdb c x s) := by
  unfold execLdb
  grind [canon_loadOp]

theorem canon_execLdbs (c : CoreId) (x : CtxId) {s : State} (h : s.Canon) : AnsCanon (execLdbs c x s) := by
  unfold execLdbs
  grind [canon_loadOp]

theorem canon_execSt (c : CoreId) (x : CtxId) {s : State} (h : s.Canon) : AnsCanon (execSt c x s) := by
  unfold execSt
  grind [canon_storeOp]

theorem canon_execSth (c : CoreId) (x : CtxId) {s : State} (h : s.Canon) : AnsCanon (execSth c x s) := by
  unfold execSth
  grind [canon_storeOp]

theorem canon_execStb (c : CoreId) (x : CtxId) {s : State} (h : s.Canon) : AnsCanon (execStb c x s) := by
  unfold execStb
  grind [canon_storeOp]

theorem canon_execLdp (c : CoreId) (x : CtxId) {s : State} (h : s.Canon) : AnsCanon (execLdp c x s) := by
  refine canon_simple h _ _ _ fun t ht => ?_
  grind [canon_needPops, canon_replace, canon_loadBytes, canon_bind, Res.state]

theorem canon_execStp (c : CoreId) (x : CtxId) {s : State} (h : s.Canon) : AnsCanon (execStp c x s) := by
  refine canon_issue h _ _ _ fun t ht => canonWith_after (canon_needPops ht ..) fun _ u hu => ?_
  exact canonWith_bind (canon_storeBytes hu ..) fun _ v hl hv => ⟨hl, canon_replace hv ..⟩

theorem canon_execLdo (c : CoreId) (x : CtxId) (b : Byte) {s : State} (h : s.Canon) : AnsCanon (execLdo c x b s) := by
  unfold execLdo
  grind [canon_loadOp]

theorem canon_execSto (c : CoreId) (x : CtxId) (b : Byte) {s : State} (h : s.Canon) : AnsCanon (execSto c x b s) := by
  unfold execSto
  grind [canon_storeOp]

theorem canon_execLdl8 (c : CoreId) (x : CtxId) (b : Byte) {s : State} (h : s.Canon) : AnsCanon (execLdl8 c x b s) := by
  unfold execLdl8
  grind [canon_loadAt]

theorem canon_execStl8 (c : CoreId) (x : CtxId) (b : Byte) {s : State} (h : s.Canon) : AnsCanon (execStl8 c x b s) := by
  unfold execStl8
  grind [canon_storeAt]

theorem canon_execLdl16 (c : CoreId) (x : CtxId) (h : BitVec 16) {s : State} (hs : s.Canon) : AnsCanon (execLdl16 c x h s) := by
  unfold execLdl16
  grind [canon_loadAt]

theorem canon_execStl16 (c : CoreId) (x : CtxId) (h : BitVec 16) {s : State} (hs : s.Canon) : AnsCanon (execStl16 c x h s) := by
  unfold execStl16
  grind [canon_storeAt]

theorem canon_execLdgN (c : CoreId) (x : CtxId) (n : Fin 16) {s : State} (h : s.Canon) : AnsCanon (execLdgN c x n s) := by
  unfold execLdgN
  grind [canon_loadAt]

theorem canon_execStgN (c : CoreId) (x : CtxId) (n : Fin 16) {s : State} (h : s.Canon) : AnsCanon (execStgN c x n s) := by
  unfold execStgN
  grind [canon_storeAt]

theorem canon_execClaim (c : CoreId) (x : CtxId) {s : State} (h : s.Canon) : AnsCanon (execClaim c x s) := by
  refine canon_simple h _ _ _ fun t ht => canon_Res_onFault (canon_bind (canon_needPops ht ..) fun _ u hu => ?_) fun u hu =>
    canon_modCtx hu ..
  exact canon_bind (canon_claimAt hu ..) fun _ v hv => canon_replace hv ..

theorem canon_execCommit (c : CoreId) (x : CtxId) (elapsed : Nat) {s : State} (h : s.Canon) : AnsCanon (execCommit c x elapsed s) := by
  refine canon_simple h _ _ _ fun t ht => ?_
  grind [canon_needPops, canon_replace, canon_commitAt, canon_bind, Res.state]

theorem canon_execFence (c : CoreId) (x : CtxId) {s : State} (h : s.Canon) : AnsCanon (execFence c x s) := by
  refine canon_simple h _ _ _ fun t ht => ?_
  grind [Res.state]

theorem canon_execDrain (c : CoreId) (x : CtxId) {s : State} (h : s.Canon) : AnsCanon (execDrain c x s) := by
  refine canon_simple h _ _ _ fun t ht => ?_
  grind [Res.state]

theorem canon_execPinr (c : CoreId) (x : CtxId) {s : State} (h : s.Canon) : AnsCanon (execPinr c x s) := by
  refine canon_simple h _ _ _ fun t ht => ?_
  grind [canon_needPops, canon_replace, canon_pinRead, canon_bind, Res.state]

theorem canon_execPinw (c : CoreId) (x : CtxId) {s : State} (h : s.Canon) : AnsCanon (execPinw c x s) := by
  refine canon_simple h _ _ _ fun t ht => ?_
  grind [canon_needPops, canon_replace, canon_pinWrite, canon_bind, Res.state]

theorem canon_execPinrw (c : CoreId) (x : CtxId) {s : State} (h : s.Canon) : AnsCanon (execPinrw c x s) := by
  refine canon_simple h _ _ _ fun t ht => ?_
  grind [canon_needPops, canon_replace, canon_pinGroup, canon_bind, Res.state]

theorem canon_execPinwm (c : CoreId) (x : CtxId) {s : State} (h : s.Canon) : AnsCanon (execPinwm c x s) := by
  refine canon_simple h _ _ _ fun t ht => ?_
  grind [canon_needPops, canon_replace, canon_pinWriteMask, canon_bind, Res.state]

theorem canon_execStim (c : CoreId) (x : CtxId) (b : Byte) {s : State} (h : s.Canon) : AnsCanon (execStim c x b s) := by
  refine canon_simple h _ _ _ fun t ht => ?_
  grind [canon_needPops, canon_replace, canon_stimWrite, canon_bind, Res.state]

theorem canon_execTransit (c : CoreId) (x : CtxId) {s : State} (h : s.Canon) : AnsCanon (execTransit c x s) := by
  refine canon_simple h _ _ _ fun t ht => ?_
  grind [canon_needPops, canon_replace, canon_stageTransit, canon_bind, Res.state]

theorem canon_execTwait (c : CoreId) (x : CtxId) {s : State} (h : s.Canon) : AnsCanon (execTwait c x s) := by
  refine canon_issue h _ _ _ fun t ht => ?_
  split
  · exact ht
  · refine canonWith_after (canon_needPops ht ..) fun _ u hu => canonWith_after (canon_stageWake hu ..) fun _ v hv => ?_
    exact ⟨fun w hw => canon_sleepNow hw c x, canon_replace hv ..⟩

theorem canon_execBeam (c : CoreId) (x : CtxId) {s : State} (h : s.Canon) : AnsCanon (execBeam c x s) := by
  refine canon_simple h _ _ _ fun t ht => ?_
  grind [canon_needPops, canon_replace, canon_beamRead, canon_bind, Res.state]

theorem canon_execFrame (c : CoreId) (x : CtxId) {s : State} (h : s.Canon) : AnsCanon (execFrame c x s) := by
  refine canon_simple h _ _ _ fun t ht => ?_
  grind [canon_needPops, canon_replace, canon_frameRead, canon_bind, Res.state]

end Sys2Proof.Machine
end

