-- ==== Sys2Proof/Proofs/CanonCommands.lean ====
section
/-! SUPPORT. The canonical form through register rows, the dictionary, ring commands, the fabric slave, the banks' own rows, resets and ticks. -/

set_option Elab.async false

namespace Sys2Proof.Machine

open Sys2Proof

/-! ## Machine/RegRows -/

theorem canon_execThrCtlStart (w : Agent) (c : CoreId) (x : CtxId) (v : Word) {s : State} (h : s.Canon) :
    AnsCanon (execThrCtlStart w c x v s) := by
  unfold execThrCtlStart
  grind [canon_writeBy, AnsCanon]

theorem canon_execThrCtlStop (w : Agent) (c : CoreId) (x : CtxId) (v : Word) {s : State} (h : s.Canon) :
    AnsCanon (execThrCtlStop w c x v s) := by
  unfold execThrCtlStop
  grind [canon_writeBy, AnsCanon]

theorem canon_execThrCtlResume (w : Agent) (c : CoreId) (x : CtxId) (v : Word) {s : State} (h : s.Canon) :
    AnsCanon (execThrCtlResume w c x v s) := by
  unfold execThrCtlResume
  grind [canon_writeBy, AnsCanon]

theorem canon_execThrCtlReset (w : Agent) (c : CoreId) (x : CtxId) (v : Word) {s : State} (h : s.Canon) :
    AnsCanon (execThrCtlReset w c x v s) := by
  unfold execThrCtlReset
  grind [canon_writeBy, AnsCanon]

theorem canon_execThrCtlCntd (w : Agent) (c : CoreId) (x : CtxId) (v : Word) {s : State} (h : s.Canon) :
    AnsCanon (execThrCtlCntd w c x v s) := by
  unfold execThrCtlCntd
  grind [canon_writeBy, AnsCanon]

theorem canon_execThrStatPrivWrite (w : Agent) (c : CoreId) (x : CtxId) (v : Word) {s : State} (h : s.Canon) :
    AnsCanon (execThrStatPrivWrite w c x v s) := by
  unfold execThrStatPrivWrite
  grind [canon_writeBy, AnsCanon]

theorem canon_execSpillAreaWrite (w : Agent) (c : CoreId) (x : CtxId) (size : Bool) (v : Word) {s : State} (h : s.Canon) :
    AnsCanon (execSpillAreaWrite w c x size v s) := by
  unfold execSpillAreaWrite
  grind [canon_writeBy, AnsCanon]

theorem canon_execWindatRead (c : CoreId) (x : CtxId) {s : State} (h : s.Canon) : AnsCanon (execWindatRead c x s) := by
  unfold execWindatRead
  grind [canon_readBy, AnsCanon]

theorem canon_execWindatWrite (c : CoreId) (x : CtxId) (v : Word) {s : State} (h : s.Canon) : AnsCanon (execWindatWrite c x v s) := by
  unfold execWindatWrite
  grind [canon_writeBy, AnsCanon]

theorem canon_execPipeCtlBtbInv (w : Agent) (c : CoreId) (v : Word) {s : State} (h : s.Canon) : AnsCanon (execPipeCtlBtbInv w c v s) := by
  unfold execPipeCtlBtbInv
  grind [canon_writeBy, AnsCanon]

theorem canon_execRcFieldRead (w : Agent) (a : Word) {s : State} (h : s.Canon) : AnsCanon (execRcFieldRead w a s) := by
  unfold execRcFieldRead
  grind [canon_readBy, AnsCanon]

theorem canon_execUcLdctlHold (w : Agent) (cores : BitVec 16) {s : State} (h : s.Canon) : AnsCanon (execUcLdctlHold w cores s) := by
  unfold execUcLdctlHold
  grind [canon_writeBy, AnsCanon]

theorem canon_execUcLdctlRelease (w : Agent) {s : State} (h : s.Canon) : AnsCanon (execUcLdctlRelease w s) := by
  unfold execUcLdctlRelease
  grind [canon_writeBy, AnsCanon]

theorem canon_execUcLdctlLock (w : Agent) {s : State} (h : s.Canon) : AnsCanon (execUcLdctlLock w s) := by
  unfold execUcLdctlLock
  grind [canon_writeBy, AnsCanon]

theorem canon_execUcCmdWrite (w : Agent) {s : State} (h : s.Canon) : AnsCanon (execUcCmdWrite w s) := by
  unfold execUcCmdWrite
  grind [canon_writeBy, AnsCanon]

theorem canon_execUcCmdRead (w : Agent) {s : State} (h : s.Canon) : AnsCanon (execUcCmdRead w s) := by
  unfold execUcCmdRead
  grind [canon_writeBy, AnsCanon]

theorem canon_execFlushKey (w : Agent) {s : State} (h : s.Canon) : AnsCanon (execFlushKey w s) := by
  unfold execFlushKey
  grind [canon_writeBy, AnsCanon]

theorem canon_execFlushTb (w : Agent) {s : State} (h : s.Canon) : AnsCanon (execFlushTb w s) := by
  unfold execFlushTb
  grind [canon_writeBy, AnsCanon]

theorem canon_execReadEntry (w : Agent) {s : State} (h : s.Canon) : AnsCanon (execReadEntry w s) := by
  unfold execReadEntry
  grind [canon_writeBy, AnsCanon]

theorem canon_execReadQueue (w : Agent) {s : State} (h : s.Canon) : AnsCanon (execReadQueue w s) := by
  unfold execReadQueue
  grind [canon_writeBy, AnsCanon]

theorem canon_execResetEph (w : Agent) {s : State} (h : s.Canon) : AnsCanon (execResetEph w s) := by
  unfold execResetEph
  grind [canon_writeBy, AnsCanon]

theorem canon_execTbnCfgWrite (w : Agent) (t : TbId) (v : Word) {s : State} (h : s.Canon) : AnsCanon (execTbnCfgWrite w t v s) := by
  unfold execTbnCfgWrite
  grind [canon_writeBy, AnsCanon]

theorem canon_execBpnCtlWrite (w : Agent) (p : Fin 8) (v : Word) {s : State} (h : s.Canon) : AnsCanon (execBpnCtlWrite w p v s) := by
  unfold execBpnCtlWrite
  grind [canon_writeBy, AnsCanon]

theorem canon_execNmsgSend (w : Agent) (v : Word) {s : State} (h : s.Canon) : AnsCanon (execNmsgSend w v s) := by
  unfold execNmsgSend
  grind [canon_writeBy, AnsCanon]

theorem canon_execHmsgEmpty (w : Agent) {s : State} (h : s.Canon) : AnsCanon (execHmsgEmpty w s) := by
  unfold execHmsgEmpty
  grind [canon_writeBy, AnsCanon]

theorem canon_execRppCtlWrite (w : Agent) (p : PortId) (v : Word) {s : State} (h : s.Canon) : AnsCanon (execRppCtlWrite w p v s) := by
  unfold execRppCtlWrite
  grind [canon_writeBy, AnsCanon]

theorem canon_execPwrReqNap (w : Agent) {s : State} (h : s.Canon) : AnsCanon (execPwrReqNap w s) := by
  unfold execPwrReqNap
  grind [canon_writeBy, AnsCanon]

theorem canon_execPwrReqVesperOnly (w : Agent) {s : State} (h : s.Canon) : AnsCanon (execPwrReqVesperOnly w s) := by
  unfold execPwrReqVesperOnly
  grind [canon_writeBy, AnsCanon]

theorem canon_execPwrReqCancel (w : Agent) {s : State} (h : s.Canon) : AnsCanon (execPwrReqCancel w s) := by
  unfold execPwrReqCancel
  grind [canon_writeBy, AnsCanon]

theorem canon_execClkPllaWrite (w : Agent) (v : Word) {s : State} (h : s.Canon) : AnsCanon (execClkPllaWrite w v s) := by
  unfold execClkPllaWrite
  grind [canon_writeBy, AnsCanon]

theorem canon_execClkCdivWrite (w : Agent) (hi : Bool) (v : Word) {s : State} (h : s.Canon) : AnsCanon (execClkCdivWrite w hi v s) := by
  unfold execClkCdivWrite
  grind [canon_writeBy, AnsCanon]

theorem canon_execClkSdivWrite (w : Agent) (v : Word) {s : State} (h : s.Canon) : AnsCanon (execClkSdivWrite w v s) := by
  unfold execClkSdivWrite
  grind [canon_writeBy, AnsCanon]

theorem canon_execCoreSoftReset (w : Agent) (c : CoreId) {s : State} (h : s.Canon) : AnsCanon (execCoreSoftReset w c s) := by
  unfold execCoreSoftReset
  grind [canon_writeBy, AnsCanon]

theorem canon_execVtLoWrite (w : Agent) (v : Word) {s : State} (h : s.Canon) : AnsCanon (execVtLoWrite w v s) := by
  unfold execVtLoWrite
  grind [canon_writeBy, AnsCanon]

theorem canon_execVtLoRead (w : Agent) {s : State} (h : s.Canon) : AnsCanon (execVtLoRead w s) := by
  unfold execVtLoRead
  grind [canon_readBy, AnsCanon]

theorem canon_execMarchStart (w : Agent) (v : Word) {s : State} (h : s.Canon) : AnsCanon (execMarchStart w v s) := by
  unfold execMarchStart
  grind [canon_writeBy, AnsCanon]

theorem canon_execMarchStop (w : Agent) (v : Word) {s : State} (h : s.Canon) : AnsCanon (execMarchStop w v s) := by
  unfold execMarchStop
  grind [canon_writeBy, AnsCanon]

theorem canon_execLcPinWrite (w : Agent) (c : CoreId) (v : Word) {s : State} (h : s.Canon) : AnsCanon (execLcPinWrite w c v s) := by
  unfold execLcPinWrite
  grind [canon_writeBy, AnsCanon]

theorem canon_execLcPinld (w : Agent) (c : CoreId) (v : Word) {s : State} (h : s.Canon) : AnsCanon (execLcPinld w c v s) := by
  unfold execLcPinld
  grind [canon_writeBy, AnsCanon]

theorem canon_execLcCtlWrite (w : Agent) (c : CoreId) (v : Word) {s : State} (h : s.Canon) : AnsCanon (execLcCtlWrite w c v s) := by
  unfold execLcCtlWrite
  grind [canon_writeBy, AnsCanon]

theorem canon_execFabWinWrite (w : Agent) (v : Word) {s : State} (h : s.Canon) : AnsCanon (execFabWinWrite w v s) := by
  unfold execFabWinWrite
  grind [canon_writeBy, AnsCanon]

theorem canon_execEvSwset (w : Agent) (v : Word) {s : State} (h : s.Canon) : AnsCanon (execEvSwset w v s) := by
  unfold execEvSwset
  grind [canon_writeBy, AnsCanon]

theorem canon_execEvSrcWrite (w : Agent) (n : SrcId) (v : Word) {s : State} (h : s.Canon) : AnsCanon (execEvSrcWrite w n v s) := by
  unfold execEvSrcWrite
  grind [canon_writeBy, AnsCanon]

theorem canon_execEvqBaseWrite (w : Agent) (c : CoreId) (v : Word) {s : State} (h : s.Canon) : AnsCanon (execEvqBaseWrite w c v s) := by
  unfold execEvqBaseWrite
  grind [canon_writeBy, AnsCanon]

theorem canon_execEvqRdWrite (w : Agent) (c : CoreId) (v : Word) {s : State} (h : s.Canon) : AnsCanon (execEvqRdWrite w c v s) := by
  unfold execEvqRdWrite
  grind [canon_writeBy, AnsCanon]

theorem canon_execEvqWrRead (w : Agent) (c : CoreId) {s : State} (h : s.Canon) : AnsCanon (execEvqWrRead w c s) := by
  unfold execEvqWrRead
  grind [canon_readBy, AnsCanon]

theorem canon_execGpMuxWrite (w : Agent) (j : Fin 8) (v : Word) {s : State} (h : s.Canon) : AnsCanon (execGpMuxWrite w j v s) := by
  unfold execGpMuxWrite
  grind [canon_writeBy, AnsCanon]

theorem canon_execGpFiltWrite (w : Agent) (k : Fin 64) (v : Word) {s : State} (h : s.Canon) : AnsCanon (execGpFiltWrite w k v s) := by
  unfold execGpFiltWrite
  grind [canon_writeBy, AnsCanon]

theorem canon_execGpOwnWrite (w : Agent) (c : CoreId) (hi : Bool) (v : Word) {s : State} (h : s.Canon) :
    AnsCanon (execGpOwnWrite w c hi v s) := by
  unfold execGpOwnWrite
  grind [canon_writeBy, AnsCanon]

theorem canon_execDbgUnreq (w : Agent) (v : Word) {s : State} (h : s.Canon) : AnsCanon (execDbgUnreq w v s) := by
  unfold execDbgUnreq
  grind [canon_writeBy, AnsCanon]

theorem canon_execDbgRespLo (w : Agent) (v : Word) {s : State} (h : s.Canon) : AnsCanon (execDbgRespLo w v s) := by
  unfold execDbgRespLo
  grind [canon_writeBy, AnsCanon]

theorem canon_execDbgLock (w : Agent) {s : State} (h : s.Canon) : AnsCanon (execDbgLock w s) := by
  unfold execDbgLock
  grind [canon_writeBy, AnsCanon]

theorem canon_execDbgCoreHalt (w : Agent) (c : CoreId) {s : State} (h : s.Canon) : AnsCanon (execDbgCoreHalt w c s) := by
  unfold execDbgCoreHalt
  grind [canon_writeBy, AnsCanon]

theorem canon_execDbgCoreStep (w : Agent) (c : CoreId) (v : Word) {s : State} (h : s.Canon) : AnsCanon (execDbgCoreStep w c v s) := by
  unfold execDbgCoreStep
  grind [canon_writeBy, AnsCanon]

theorem canon_execXtmFire (w : Agent) (lines : BitVec 4) {s : State} (h : s.Canon) : AnsCanon (execXtmFire w lines s) := by
  unfold execXtmFire
  grind [canon_writeBy, AnsCanon]

theorem canon_execDbgRel (w : Agent) (members : BitVec 18) {s : State} (h : s.Canon) : AnsCanon (execDbgRel w members s) := by
  unfold execDbgRel
  grind [canon_writeBy, AnsCanon]

theorem canon_execDbgMctlGo (w : Agent) (v : Word) {s : State} (h : s.Canon) : AnsCanon (execDbgMctlGo w v s) := by
  unfold execDbgMctlGo
  grind [canon_writeBy, AnsCanon]

theorem canon_vdataRead {s : State} (h : s.Canon) (w : Agent) : (s.vdataRead w).Canon := by
  unfold State.vdataRead
  grind [canon_viewAccess]

theorem canon_execDbgVdataAccess (w : Agent) (v : Option Word) {s : State} (h : s.Canon) : AnsCanon (execDbgVdataAccess w v s) := by
  unfold execDbgVdataAccess
  grind [canon_writeBy, canon_vdataRead, AnsCanon]

theorem canon_execTrcCtlWrite (w : Agent) (v : Word) {s : State} (h : s.Canon) : AnsCanon (execTrcCtlWrite w v s) := by
  unfold execTrcCtlWrite
  grind [canon_writeBy, AnsCanon]

theorem canon_execCntGctlClr (w : Agent) (v : Word) {s : State} (h : s.Canon) : AnsCanon (execCntGctlClr w v s) := by
  unfold execCntGctlClr
  grind [canon_writeBy, AnsCanon]

theorem canon_execCntnLoWrite (w : Agent) (n : Fin 80) (v : Word) {s : State} (h : s.Canon) : AnsCanon (execCntnLoWrite w n v s) := by
  unfold execCntnLoWrite
  grind [canon_writeBy, AnsCanon]

theorem canon_execWdtKick (w : Agent) (c : CoreId) (v : Word) {s : State} (h : s.Canon) : AnsCanon (execWdtKick w c v s) := by
  unfold execWdtKick
  grind [canon_writeBy, AnsCanon]

theorem canon_execNlCtlClear (w : Agent) {s : State} (h : s.Canon) : AnsCanon (execNlCtlClear w s) := by
  unfold execNlCtlClear
  grind [canon_writeBy, AnsCanon]

theorem canon_execNlSwreq (w : Agent) {s : State} (h : s.Canon) : AnsCanon (execNlSwreq w s) := by
  unfold execNlSwreq
  grind [canon_writeBy, AnsCanon]

theorem canon_execLcReq (w : Agent) (code : Byte) {s : State} (h : s.Canon) : AnsCanon (execLcReq w code s) := by
  unfold execLcReq
  grind [canon_writeBy, AnsCanon]

theorem canon_execTmpForce (w : Agent) {s : State} (h : s.Canon) : AnsCanon (execTmpForce w s) := by
  unfold execTmpForce
  grind [canon_writeBy, AnsCanon]

/-! ## Machine/Dict -/

theorem canon_modDict {s : State} (h : s.Canon) (f : Dict → Dict) : (s.modDict f).Canon := by
  unfold State.modDict
  grind [State.Canon]

theorem canon_storeRefresh {s : State} (h : s.Canon) : (s.storeRefresh).Canon := by
  unfold State.storeRefresh
  grind [canon_modDict]

theorem canon_storeRows {s : State} (h : s.Canon) (rows : List (Nat × Line)) : (s.storeRows rows).Canon := by
  unfold State.storeRows
  grind [State.Canon, canon_nvmKick, canon_modDict]

theorem canon_copyHeld {s : State} (h : s.Canon) : (s.copyHeld).Canon := by
  unfold State.copyHeld
  grind [canon_modDict]

theorem canon_saveBegin {s : State} (h : s.Canon) : (s.saveBegin).Canon := by
  unfold State.saveBegin
  grind [canon_storeRows, canon_copyHeld]

theorem canon_restoreBegin {s : State} (h : s.Canon) : (s.restoreBegin).Canon := by
  unfold State.restoreBegin
  grind [canon_storeRows]

theorem canon_codeBegin {s : State} (h : s.Canon) (v : BitVec 64) : (s.codeBegin v).Canon := by
  unfold State.codeBegin
  grind [canon_storeRows]

theorem canon_storeDone {s : State} (h : s.Canon) : ∀ z, (s.storeDone) = some z → z.2.Canon := by
  unfold State.storeDone
  grind [canon_storeRefresh]

theorem canon_startCores {s : State} (h : s.Canon) (mask : BitVec 16) : (s.startCores mask).2.Canon := by
  unfold State.startCores
  grind [canon_startCtx, canon_foldl]

theorem canon_inject {s : State} (h : s.Canon) (v : Word) : (s.inject v).2.Canon := by
  unfold State.inject
  grind [canon_modTransit]

theorem canon_unlock {s : State} (h : s.Canon) (v : BitVec 64) : (s.unlock v).2.Canon := by
  unfold State.unlock
  grind [canon_modDict]

theorem canon_readWords {s : State} (h : s.Canon) (l : List Nat) (acc : List Byte) : (s.readWords l acc).2.Canon := by
  induction l generalizing s acc with
  | nil => exact h
  | cons w l ih =>
    have read := canon_spadRead (canon_granted h 17 w) w
    unfold State.readWords
    split
    · exact h
    · split
      · next v t hr => rw [hr] at read; exact ih read _
      · next t hr => rw [hr] at read; exact read

theorem canon_writeWords {s : State} (h : s.Canon) (l : List (Nat × Word)) : (s.writeWords l).2.Canon := by
  induction l generalizing s with
  | nil => exact h
  | cons w l ih =>
    unfold State.writeWords
    split
    · exact h
    · exact ih (canon_spadPut (canon_granted h ..) ..)

theorem canon_spadImg {s : State} (h : s.Canon) (off n : Nat) (data : Option (List Byte)) : (s.spadImg off n data).2.Canon := by
  unfold State.spadImg
  grind [canon_secRefuse, canon_readWords, canon_writeWords]

theorem canon_flashNext {s : State} (h : s.Canon) : (s.flashNext).Canon := by
  unfold State.flashNext
  grind [canon_flashAsk, canon_modFlash, canon_modDict]

theorem canon_flashBegin {s : State} (h : s.Canon) (todo : List (BitVec 26 × Option Word)) (skip want : Nat) :
    (s.flashBegin todo skip want).2.Canon := by
  unfold State.flashBegin
  grind [canon_modDict, canon_flashNext]

theorem canon_flashImg {s : State} (h : s.Canon) (off n : Nat) (data : Option (List Byte)) : (s.flashImg off n data).2.Canon := by
  unfold State.flashImg
  grind [canon_flashBegin]

theorem canon_flashCtl {s : State} (h : s.Canon) (v : BitVec 64) : (s.flashCtl v).2.Canon := by
  unfold State.flashCtl
  grind [canon_modFlash, canon_modDict]

theorem canon_flashDone {s : State} (h : s.Canon) : ∀ z, (s.flashDone) = some z → z.2.Canon := by
  unfold State.flashDone
  grind [canon_modDict]

theorem canon_staged {s : State} (h : s.Canon) : (s.staged).2.Canon := by
  unfold State.staged
  grind [canon_readWords]

theorem canon_ucIdle {s : State} (h : s.Canon) (reason : Byte) : (s.ucIdle reason).Canon := by
  unfold State.ucIdle
  grind [canon_modDict]

theorem canon_ucFlag {s : State} (h : s.Canon) (reason : Byte) : (s.ucFlag reason).Canon := by
  unfold State.ucFlag
  grind [canon_modLoad]

theorem canon_ucImage {s : State} (h : s.Canon) : (s.ucImage).2.Canon := by
  unfold State.ucImage
  grind [canon_staged, canon_ucIdle, canon_ucFlag]

theorem canon_ucCommit {s : State} (h : s.Canon) : (s.ucCommit).2.Canon := by
  unfold State.ucCommit
  grind [canon_modLoad, canon_modDict, canon_ucIdle, canon_ucImage]

theorem canon_ucDone {s : State} (h : s.Canon) : ∀ z, (s.ucDone) = some z → z.2.Canon := by
  unfold State.ucDone
  grind [canon_allCores, canon_releaseHold, canon_ucIdle, canon_ucImage]

theorem canon_ucWriteImg {s : State} (h : s.Canon) (off : Nat) (data : List Byte) : (s.ucWriteImg off data).2.Canon := by
  unfold State.ucWriteImg
  grind [canon_modDict, canon_writeWords]

theorem canon_ucReadImg {s : State} (h : s.Canon) (off n : Nat) : (s.ucReadImg off n).2.Canon := by
  unfold State.ucReadImg
  grind [canon_readWords]

theorem canon_ucCtl {s : State} (h : s.Canon) (v : Byte) : (s.ucCtl v).2.Canon := by
  unfold State.ucCtl
  grind [canon_modDict, canon_ucIdle, canon_ucCommit]

theorem canon_lcReqDict {s : State} (h : s.Canon) (q : Req) (code : Byte) : (s.lcReqDict q code).2.Canon := by
  unfold State.lcReqDict
  grind [canon_lcBegin]

theorem canon_lcDone {s : State} (h : s.Canon) (code : BitVec 2) : ∀ z, (s.lcDone code) = some z → z.2.Canon := by
  unfold State.lcDone
  grind

theorem canon_mctlDone {s : State} (h : s.Canon) : ∀ z, (s.mctlDone) = some z → z.2.Canon := by
  unfold State.mctlDone
  grind

theorem canon_mctlDict {s : State} (h : s.Canon) (v : Word) : (s.mctlDict v).2.Canon := by
  unfold State.mctlDict
  grind [canon_modDbg, canon_mctlTry]

theorem canon_poll {s : State} (h : s.Canon) (b : Busy) (z : RanS) (hz : s.poll b = some z) : z.2.Canon := by
  cases b with
  | start m =>
    unfold State.poll at hz
    dsimp only at hz
    split at hz
    · obtain rfl := Option.some.inj hz
      exact canon_startCores h m
    · cases hz
  | nvm => exact canon_storeDone h z hz
  | lifecycle code => exact canon_lcDone h code z hz
  | flash => exact canon_flashDone h z hz
  | debugMem => exact canon_mctlDone h z hz
  | commit => exact canon_ucDone h z hz

theorem canon_mirrorRead {s : State} (h : s.Canon) (q : Req) (r : Reg) : (s.mirrorRead q r).2.Canon := by
  unfold State.mirrorRead
  grind [canon_regRead, canon_viewAccess]

theorem canon_objRead {s : State} (h : s.Canon) (q : Req) (o : Obj) : (s.objRead q o).2.Canon := by
  cases o with
  | plim =>
    unfold State.objRead
    dsimp only
    split
    · exact h
    · exact h
  | mirror r => exact canon_mirrorRead h q r
  | _ => exact h

theorem canon_noteHeld {s : State} (h : s.Canon) (r : Reg) : (s.noteHeld r).Canon := by
  unfold State.noteHeld
  grind [canon_modDict]

theorem canon_setHeld {s : State} (h : s.Canon) (i : Fin 43) (v : Word) : (s.setHeld i v).Canon := by
  unfold State.setHeld
  grind [canon_modDict]

theorem canon_mirrorWrite {s : State} (h : s.Canon) (q : Req) (r : Reg) (v : Word) : (s.mirrorWrite q r v).2.Canon := by
  unfold State.mirrorWrite
  grind [canon_viewAccess, canon_regWrite, canon_mctlDict, canon_noteHeld]

theorem canon_objWrite {s : State} (h : s.Canon) (q : Req) (o : Obj) (b : List Byte) : (s.objWrite q o b).2.Canon := by
  unfold State.objWrite
  grind [canon_modCtx, canon_modDict, canon_saveBegin, canon_restoreBegin, canon_codeBegin, canon_startCores, canon_inject, canon_unlock,
    canon_flashCtl, canon_ucCtl, canon_lcReqDict, canon_mirrorWrite]

theorem canon_wakeNap {s : State} (h : s.Canon) : (s.wakeNap).Canon := by
  unfold State.wakeNap
  grind [canon_modPower]

theorem canon_gated {s : State} (h : s.Canon) (n : Need) {held : Fin 43 → RanS} {f : RanS} (hheld : ∀ i, (held i).2.Canon)
    (hf : f.2.Canon) : (s.gated n held f).2.Canon := by
  unfold State.gated
  grind [canon_wakeNap]

theorem canon_dictRead {s : State} (h : s.Canon) (q : Req) (index : BitVec 16) (sub : Byte) (small : Bool) :
    (s.dictRead q index sub small).2.Canon := by
  unfold State.dictRead
  grind [canon_objRead, canon_gated]

theorem canon_dictWrite {s : State} (h : s.Canon) (q : Req) (index : BitVec 16) (sub : Byte) (data : List Byte) (small : Bool) :
    (s.dictWrite q index sub data small).2.Canon := by
  unfold State.dictWrite
  grind [canon_setHeld, canon_objWrite, canon_gated]

theorem canon_dictDomain {s : State} (h : s.Canon) (q : Req) (index : BitVec 16) (sub : Byte) (off n : Nat) (data : Option (List Byte)) :
    (s.dictDomain q index sub off n data).2.Canon := by
  unfold State.dictDomain
  grind [canon_spadImg, canon_flashImg, canon_ucWriteImg, canon_ucReadImg, canon_gated]

/-! ## Machine/RingCmd -/

theorem canon_sendResp {s : State} (h : s.Canon) (r : Resp) : (s.sendResp r).Canon := by
  unfold State.sendResp
  grind [canon_modRp]

theorem canon_answer {s : State} (hs : s.Canon) (code : Byte) (h : RingHdr) (st : Byte) (payload : List Byte) :
    (s.answer code h st payload).Canon := by
  unfold State.answer
  grind [canon_countB, canon_sendResp]

theorem canon_complete {s : State} (h : s.Canon) (r : Ran) : (s.complete r).Canon := by
  unfold State.complete
  grind [canon_modRing, canon_sendResp]

theorem canon_runMsg {s : State} (h : s.Canon) (data : List Byte) : (s.runMsg data).2.Canon := by
  unfold State.runMsg
  grind [canon_modRing, canon_raise, canon_vesperWake]

theorem canon_runCmd {s : State} (h : s.Canon) (k : RingCmd) : (s.runCmd k).2.Canon := by
  unfold State.runCmd
  grind [canon_dictRead, canon_dictWrite, canon_dictDomain, canon_runMsg]

theorem canon_daccEnd {s : State} (h : s.Canon) (r : Ran) : (s.daccEnd r).Canon := by
  unfold State.daccEnd
  grind [canon_modDict]

theorem canon_daccRun {s : State} (h : s.Canon) (op : BitVec 2 × Byte × BitVec 16 × Word) : (s.daccRun op).1.Canon := by
  unfold State.daccRun
  grind [canon_modDict, canon_dictRead, canon_dictWrite, canon_daccEnd]

theorem canon_runResync {s : State} (h : s.Canon) (k : RingCmd) : (s.runResync k).Canon := by
  unfold State.runResync
  grind [canon_modRing, canon_answer]

theorem canon_frontStep {s : State} (h : s.Canon) : (s.frontStep).1.Canon := by
  unfold State.frontStep
  grind [canon_modRing, canon_complete, canon_runCmd, canon_runResync]

theorem canon_agentStep {s : State} (h : s.Canon) : s.agentStep.1.Canon := by
  unfold State.agentStep
  split
  · next b hb =>
    split
    · next x t hp =>
      have polled := canon_poll h b _ hp
      split
      · exact canon_modRing polled ..
      · exact canon_complete polled ..
    · exact canon_flashNext h
  · split
    · next b hb =>
      split
      · next x t hp => exact canon_daccEnd (canon_poll h b _ hp) ..
      · exact canon_flashNext h
    · split
      · next op hop =>
        have ran := canon_daccRun h op
        dsimp only
        split
        · exact ran
        · exact canon_frontStep ran
      · exact canon_frontStep h

theorem canon_agentRun {s : State} (h : s.Canon) (n : Nat) : (State.agentRun n s).Canon := by
  induction n generalizing s with
  | zero => exact h
  | succ n ih =>
    have step := canon_agentStep h
    unfold State.agentRun
    exact canon_ite (ih step) step

theorem canon_ringKick {s : State} (h : s.Canon) : (s.ringKick).Canon := by
  unfold State.ringKick
  grind [canon_agentRun]

theorem canon_mainLost {s : State} (h : s.Canon) : (s.mainLost).Canon := by
  unfold State.mainLost
  grind [canon_modRing, canon_complete, canon_daccEnd]

theorem canon_replay {s : State} (hs : s.Canon) (h : RingHdr) (r : Resp) : (s.replay h r).Canon := by
  unfold State.replay
  grind [canon_sendResp]

theorem canon_takeCmd {s : State} (hs : s.Canon) (code : Byte) (h : RingHdr) (data : List Byte) : (s.takeCmd code h data).Canon := by
  unfold State.takeCmd
  grind [canon_modRing, canon_countB, canon_answer, canon_ringKick, canon_replay]

theorem canon_execFrameForward (p : PortId) (f : Frame) (ahead : Nat) {s : State} (h : s.Canon) :
    AnsCanon (execFrameForward p f ahead s) := by
  unfold execFrameForward
  grind [canon_forward, canon_assign, canon_takeCmd, AnsCanon]

theorem canon_execRead (h : RingHdr) (data : List Byte) {s : State} (hs : s.Canon) : AnsCanon (execRead h data s) := by
  unfold execRead
  grind [canon_takeCmd, AnsCanon]

theorem canon_execWrite (h : RingHdr) (data : List Byte) {s : State} (hs : s.Canon) : AnsCanon (execWrite h data s) := by
  unfold execWrite
  grind [canon_takeCmd, AnsCanon]

theorem canon_execDread (h : RingHdr) (data : List Byte) {s : State} (hs : s.Canon) : AnsCanon (execDread h data s) := by
  unfold execDread
  grind [canon_takeCmd, AnsCanon]

theorem canon_execDwrite (h : RingHdr) (data : List Byte) {s : State} (hs : s.Canon) : AnsCanon (execDwrite h data s) := by
  unfold execDwrite
  grind [canon_takeCmd, AnsCanon]

theorem canon_execMsg (h : RingHdr) (data : List Byte) {s : State} (hs : s.Canon) : AnsCanon (execMsg h data s) := by
  unfold execMsg
  grind [canon_takeCmd, AnsCanon]

theorem canon_execPing (h : RingHdr) (data : List Byte) {s : State} (hs : s.Canon) : AnsCanon (execPing h data s) := by
  unfold execPing
  grind [canon_answer, AnsCanon]

theorem canon_execResync (h : RingHdr) (data : List Byte) {s : State} (hs : s.Canon) : AnsCanon (execResync h data s) := by
  unfold execResync
  grind [canon_modRing, canon_countB, canon_answer, canon_ringKick, AnsCanon]

/-! ## Machine/Slave -/

theorem canon_slaveSpad {s : State} (h : s.Canon) (r : SlaveReq) (w : Nat) (via : Via) :
    ∀ z, (s.slaveSpad r w via) = some z → z.2.Canon := by
  unfold State.slaveSpad
  grind [canon_granted, canon_spadRead, canon_spadStore, canon_secRefuse]

theorem canon_slaveCtl {s : State} (h : s.Canon) (r : SlaveReq) : (s.slaveCtl r).2.Canon := by
  unfold State.slaveCtl
  grind [canon_regRead, canon_regWrite]

theorem canon_slaveServe {s : State} (h : s.Canon) (r : SlaveReq) (z : SlaveResp × State) (hz : s.slaveServe r = some z) :
    z.2.Canon := by
  unfold State.slaveServe at hz
  split at hz
  · cases hz
  · split at hz
    · exact canon_slaveSpad h _ _ _ z hz
    · obtain rfl := Option.some.inj hz
      exact canon_slaveCtl h r
    · obtain rfl := Option.some.inj hz
      exact h

theorem canon_slaveKick {s : State} (h : s.Canon) : s.slaveKick.Canon := by
  refine canon_foldl (fun t r ht => ?_) _ h
  split
  · next p u hp => exact canon_slaveServe ht r _ hp
  · exact ht

theorem canon_kick {s : State} (h : s.Canon) : (s.kick).Canon := by
  unfold State.kick
  grind [canon_ringKick, canon_slaveKick]

theorem canon_execFabricSlaveRequest (write : Bool) (a d : Word) (be : BitVec 4) (tag : Fin 16) (parOk : Bool) {s : State}
    (h : s.Canon) : AnsCanon (execFabricSlaveRequest write a d be tag parOk s) := by
  unfold execFabricSlaveRequest
  split
  · exact ansCanon_next h
  · have counted := canon_countB h 0x59 1
    generalize s.countB 0x59 = u at counted
    dsimp only
    split
    · exact ansCanon_next counted
    · split
      · next p t hp => exact ansCanon_next (canon_slaveServe (s := { u with fabric := { u.fabric with resp := [] } }) counted _ _ hp)
      · refine ansCanon_next ?_
        split
        · exact counted
        · exact counted

theorem canon_execLineFillArrival (c : CoreId) (i : Fin 4) {s : State} (h : s.Canon) : AnsCanon (execLineFillArrival c i s) := by
  unfold execLineFillArrival
  grind [canon_fillArrival, canon_debugLine, canon_ringKick, AnsCanon]

theorem canon_execFabricWriteResponse (tag : Fin 32) (err : Bool) {s : State} (h : s.Canon) :
    AnsCanon (execFabricWriteResponse tag err s) := by
  unfold execFabricWriteResponse
  grind [canon_fabricResponse, canon_ringKick, AnsCanon]

theorem canon_execFabricReadResponse (tag : Fin 32) (data : Line) (err : Bool) {s : State} (h : s.Canon) :
    AnsCanon (execFabricReadResponse tag data err s) := by
  unfold execFabricReadResponse
  grind [canon_fabricResponse, canon_ringKick, AnsCanon]

theorem canon_execFlashReadBeat (tag : Fin 4) (data : Word) (err parOk : Bool) {s : State} (h : s.Canon) :
    AnsCanon (execFlashReadBeat tag data err parOk s) := by
  unfold execFlashReadBeat
  grind [canon_flashBeat, canon_ringKick, AnsCanon]

theorem canon_execFlashWriteAck (tag : Fin 4) (err : Bool) {s : State} (h : s.Canon) : AnsCanon (execFlashWriteAck tag err s) := by
  unfold execFlashWriteAck
  grind [canon_flashAck, canon_ringKick, AnsCanon]

theorem canon_execFlCtlWrite (w : Agent) (v : Word) {s : State} (h : s.Canon) : AnsCanon (execFlCtlWrite w v s) := by
  unfold execFlCtlWrite
  grind [canon_writeBy, canon_ringKick, AnsCanon]

theorem canon_execCoreHeld (c : CoreId) {s : State} (h : s.Canon) : AnsCanon (execCoreHeld c s) := by
  unfold execCoreHeld
  grind [canon_modCore, canon_takeX, canon_ringKick, AnsCanon]

theorem canon_execControlStoreCheckDone (c : CoreId) (failed : Bool) {s : State} (h : s.Canon) :
    AnsCanon (execControlStoreCheckDone c failed s) := by
  unfold execControlStoreCheckDone
  grind [canon_modCore, canon_countN, canon_raise, canon_bootAuto, canon_ringKick, AnsCanon]

theorem canon_execNvmRowWriteEnd (ok : Bool) {s : State} (h : s.Canon) : AnsCanon (execNvmRowWriteEnd ok s) := by
  unfold execNvmRowWriteEnd
  grind [canon_nvmKick, canon_modNight, canon_rowWritten, canon_modDict, canon_ringKick, AnsCanon]

theorem canon_act {s : State} (h : s.Canon) (f : State → RanS) (hf : ∀ t, t.Canon → (f t).2.Canon) : (s.act f).Canon := by
  unfold State.act
  grind [canon_modRing, canon_ringKick]

theorem canon_actMain {s : State} (h : s.Canon) (f : State → RanS) (hf : ∀ t, t.Canon → (f t).2.Canon) : (s.actMain f).Canon := by
  unfold State.actMain
  grind [canon_act]

theorem canon_execSave {s : State} (h : s.Canon) : AnsCanon (execSave s) := by
  unfold execSave
  grind [canon_objWrite, canon_act, AnsCanon]

theorem canon_execRestore {s : State} (h : s.Canon) : AnsCanon (execRestore s) := by
  unfold execRestore
  grind [canon_objWrite, canon_act, AnsCanon]

theorem canon_execStart (mask : BitVec 16) {s : State} (h : s.Canon) : AnsCanon (execStart mask s) := by
  unfold execStart
  grind [canon_objWrite, canon_actMain, AnsCanon]

theorem canon_execInjWhen (v : Word) {s : State} (h : s.Canon) : AnsCanon (execInjWhen v s) := by
  unfold execInjWhen
  grind [canon_objWrite, canon_actMain, AnsCanon]

theorem canon_execIntCode (v : BitVec 64) {s : State} (h : s.Canon) : AnsCanon (execIntCode v s) := by
  unfold execIntCode
  grind [canon_objWrite, canon_act, AnsCanon]

theorem canon_execIntUnlock (v : BitVec 64) {s : State} (h : s.Canon) : AnsCanon (execIntUnlock v s) := by
  unfold execIntUnlock
  grind [canon_objWrite, canon_act, AnsCanon]

theorem canon_execIntLock {s : State} (h : s.Canon) : AnsCanon (execIntLock s) := by
  unfold execIntLock
  grind [canon_objWrite, canon_act, AnsCanon]

theorem canon_execFlashCtlw (v : BitVec 64) {s : State} (h : s.Canon) : AnsCanon (execFlashCtlw v s) := by
  unfold execFlashCtlw
  grind [canon_objWrite, canon_actMain, AnsCanon]

theorem canon_execUcCtlBegin {s : State} (h : s.Canon) : AnsCanon (execUcCtlBegin s) := by
  unfold execUcCtlBegin
  grind [canon_objWrite, canon_actMain, AnsCanon]

theorem canon_execUcCtlCommit {s : State} (h : s.Canon) : AnsCanon (execUcCtlCommit s) := by
  unfold execUcCtlCommit
  grind [canon_objWrite, canon_actMain, AnsCanon]

theorem canon_execUcCtlAbandon {s : State} (h : s.Canon) : AnsCanon (execUcCtlAbandon s) := by
  unfold execUcCtlAbandon
  grind [canon_objWrite, canon_actMain, AnsCanon]

theorem canon_execDacc (op : BitVec 2) (sub : Byte) (index : BitVec 16) (data : Word) {s : State} (h : s.Canon) :
    AnsCanon (execDacc op sub index data s) := by
  unfold execDacc
  grind [canon_modDict, canon_ringKick, AnsCanon]

/-! ## Machine/SpadRows -/

theorem canon_execWipeStart {s : State} (h : s.Canon) : AnsCanon (execWipeStart s) := by
  have begun (f : CoreId → Core → Core) :
      State.Canon { s.allCores f with spad := { (s.allCores f).spad with wiping := true } } := (canon_allCores h f).of_mem rfl rfl rfl
  unfold execWipeStart
  dsimp only
  split
  · split
    · split
      · exact ansCanon_next (canon_sliceLeft (canon_modMarch (begun _) _))
      · exact ansCanon_next (begun _)
    · exact ansCanon_next (begun _)
  · exact ansCanon_next h

theorem canon_execWipeDone {s : State} (h : s.Canon) : AnsCanon (execWipeDone s) := by
  have wiped : State.Canon { s with spad := s.spad.wiped } := wiped_wf h
  unfold execWipeDone
  split
  · exact ansCanon_next (canon_kick (canon_step6 (canon_raise (canon_countB (canon_setWipePend wiped ..) ..) ..)))
  · exact ansCanon_next h

theorem canon_execZeroingDone {s : State} (h : s.Canon) : AnsCanon (execZeroingDone s) := by
  have zeroed : State.Canon { s with spad := { (s.spad.zeroWhere fun _ => true) with undef := [], clean := [] } } := zeroed_wf s.spad
  unfold execZeroingDone
  split
  · exact ansCanon_next (canon_kick (canon_step6End zeroed ..))
  · exact ansCanon_next h

theorem canon_execMarchRunEnd {s : State} (h : s.Canon) : AnsCanon (execMarchRunEnd s) := by
  unfold execMarchRunEnd
  grind [canon_marchEnd, canon_step6End, canon_kick, AnsCanon]

theorem canon_execSpadEccWriteback (a : Word) {s : State} (h : s.Canon) : AnsCanon (execSpadEccWriteback a s) := by
  unfold execSpadEccWriteback
  dsimp only
  split
  · exact ansCanon_next (h.of_mem rfl rfl rfl)
  · exact ansCanon_next h

theorem canon_serveAll {s : State} (h : s.Canon) (bank : Nat) : (s.serveAll bank).Canon := by
  unfold State.serveAll
  grind [canon_modMarch, canon_serveSlice, canon_ringKick, canon_slaveKick]

theorem canon_execMarchElementEnd (got : List (Nat × Nat × Word)) {s : State} (h : s.Canon) : AnsCanon (execMarchElementEnd got s) := by
  unfold execMarchElementEnd
  grind [canon_modMarch, canon_marchFail, canon_saveSlice, canon_serveAll, canon_foldl, AnsCanon]

theorem canon_execMarchSliceEnd {s : State} (h : s.Canon) : AnsCanon (execMarchSliceEnd s) := by
  unfold execMarchSliceEnd
  grind [canon_countB, canon_sliceRestore, canon_nextSlice, canon_sliceLeft, canon_kick, AnsCanon]

/-! ## Machine/Stacks -/

theorem canon_pushValue {s : State} (h : s.Canon) (c : CoreId) (x : CtxId) (v : Word) : (s.pushValue c x v).state.Canon := by
  unfold State.pushValue
  grind [canon_stackOp, Res.state]

theorem canon_execLitN (c : CoreId) (x : CtxId) (n : Fin 32) {s : State} (h : s.Canon) : AnsCanon (execLitN c x n s) := by
  refine canon_simple h _ _ _ fun t ht => ?_
  grind [canon_pushValue, Res.state]

theorem canon_execLitM1 (c : CoreId) (x : CtxId) {s : State} (h : s.Canon) : AnsCanon (execLitM1 c x s) := by
  refine canon_simple h _ _ _ fun t ht => ?_
  grind [canon_pushValue, Res.state]

theorem canon_execLit8 (c : CoreId) (x : CtxId) (b : Byte) {s : State} (h : s.Canon) : AnsCanon (execLit8 c x b s) := by
  refine canon_simple h _ _ _ fun t ht => ?_
  grind [canon_pushValue, Res.state]

theorem canon_execLit16 (c : CoreId) (x : CtxId) (h : BitVec 16) {s : State} (hs : s.Canon) : AnsCanon (execLit16 c x h s) := by
  refine canon_simple hs _ _ _ fun t ht => ?_
  grind [canon_pushValue, Res.state]

theorem canon_execLit32 (c : CoreId) (x : CtxId) (w : Word) {s : State} (h : s.Canon) : AnsCanon (execLit32 c x w s) := by
  refine canon_simple h _ _ _ fun t ht => ?_
  grind [canon_pushValue, Res.state]

theorem canon_execLit16U (c : CoreId) (x : CtxId) (h : BitVec 16) {s : State} (hs : s.Canon) : AnsCanon (execLit16U c x h s) := by
  refine canon_simple hs _ _ _ fun t ht => ?_
  grind [canon_pushValue, Res.state]

theorem canon_execDup (c : CoreId) (x : CtxId) {s : State} (h : s.Canon) : AnsCanon (execDup c x s) := by
  refine canon_simple h _ _ _ fun t ht => ?_
  grind [canon_stackOp, Res.state]

theorem canon_execDrop (c : CoreId) (x : CtxId) {s : State} (h : s.Canon) : AnsCanon (execDrop c x s) := by
  refine canon_simple h _ _ _ fun t ht => ?_
  grind [canon_stackOp, Res.state]

theorem canon_execSwap (c : CoreId) (x : CtxId) {s : State} (h : s.Canon) : AnsCanon (execSwap c x s) := by
  refine canon_simple h _ _ _ fun t ht => ?_
  grind [canon_stackOp, Res.state]

theorem canon_execOver (c : CoreId) (x : CtxId) {s : State} (h : s.Canon) : AnsCanon (execOver c x s) := by
  refine canon_simple h _ _ _ fun t ht => ?_
  grind [canon_stackOp, Res.state]

theorem canon_execRot (c : CoreId) (x : CtxId) {s : State} (h : s.Canon) : AnsCanon (execRot c x s) := by
  refine canon_simple h _ _ _ fun t ht => ?_
  grind [canon_stackOp, Res.state]

theorem canon_execNip (c : CoreId) (x : CtxId) {s : State} (h : s.Canon) : AnsCanon (execNip c x s) := by
  refine canon_simple h _ _ _ fun t ht => ?_
  grind [canon_stackOp, Res.state]

theorem canon_execTuck (c : CoreId) (x : CtxId) {s : State} (h : s.Canon) : AnsCanon (execTuck c x s) := by
  refine canon_simple h _ _ _ fun t ht => ?_
  grind [canon_stackOp, Res.state]

theorem canon_execTwoDup (c : CoreId) (x : CtxId) {s : State} (h : s.Canon) : AnsCanon (execTwoDup c x s) := by
  refine canon_simple h _ _ _ fun t ht => ?_
  grind [canon_stackOp, Res.state]

theorem canon_execTwoDrop (c : CoreId) (x : CtxId) {s : State} (h : s.Canon) : AnsCanon (execTwoDrop c x s) := by
  refine canon_simple h _ _ _ fun t ht => ?_
  grind [canon_stackOp, Res.state]

theorem canon_execTwoSwap (c : CoreId) (x : CtxId) {s : State} (h : s.Canon) : AnsCanon (execTwoSwap c x s) := by
  refine canon_simple h _ _ _ fun t ht => ?_
  grind [canon_stackOp, Res.state]

theorem canon_execPickN (c : CoreId) (x : CtxId) (n : Fin 5) {s : State} (h : s.Canon) : AnsCanon (execPickN c x n s) := by
  refine canon_simple h _ _ _ fun t ht => ?_
  grind [canon_stackOp, Res.state]

theorem canon_execDepth (c : CoreId) (x : CtxId) {s : State} (h : s.Canon) : AnsCanon (execDepth c x s) := by
  refine canon_simple h _ _ _ fun t ht => ?_
  grind [canon_pushValue, Res.state]

theorem canon_execPokeN (c : CoreId) (x : CtxId) (n : Fin 6) {s : State} (h : s.Canon) : AnsCanon (execPokeN c x n s) := by
  refine canon_simple h _ _ _ fun t ht => ?_
  grind [canon_stackOp, Res.state]

theorem canon_execToR (c : CoreId) (x : CtxId) {s : State} (h : s.Canon) : AnsCanon (execToR c x s) := by
  refine canon_simple h _ _ _ fun t ht => ?_
  grind [canon_needPops, canon_replace, canon_rpush, canon_bind, Res.state]

theorem canon_execRFrom (c : CoreId) (x : CtxId) {s : State} (h : s.Canon) : AnsCanon (execRFrom c x s) := by
  refine canon_simple h _ _ _ fun t ht => ?_
  grind [canon_need, canon_replace, canon_rpop, canon_bind, Res.state]

theorem canon_execRFetch (c : CoreId) (x : CtxId) {s : State} (h : s.Canon) : AnsCanon (execRFetch c x s) := by
  refine canon_simple h _ _ _ fun t ht => ?_
  grind [canon_need, canon_replace, canon_rready, canon_bind, Res.state]

theorem canon_execRdrop (c : CoreId) (x : CtxId) {s : State} (h : s.Canon) : AnsCanon (execRdrop c x s) := by
  refine canon_simple h _ _ _ fun t ht => ?_
  grind [canon_rpop, canon_bind, Res.state]

theorem canon_execEnter (c : CoreId) (x : CtxId) {s : State} (h : s.Canon) : AnsCanon (execEnter c x s) := by
  refine canon_simple h _ _ _ fun t ht => ?_
  grind [canon_enter, Res.state]

theorem canon_execLeave (c : CoreId) (x : CtxId) {s : State} (h : s.Canon) : AnsCanon (execLeave c x s) := by
  refine canon_simple h _ _ _ fun t ht => ?_
  grind [canon_leave, Res.state]

/-! ## Machine/PowerRows -/

theorem canon_supplyLost {s : State} (h : s.Canon) : (s.supplyLost).Canon := by
  unfold State.supplyLost
  grind [canon_modTransit]

theorem canon_enterVesper {s : State} (h : s.Canon) (cause : BitVec 2) : (s.enterVesper cause).Canon := by
  unfold State.enterVesper
  grind [canon_modPower, canon_mainReset, canon_ringKick, canon_mainLost]

theorem canon_execMainOkFall {s : State} (h : s.Canon) : AnsCanon (execMainOkFall s) := by
  unfold execMainOkFall
  grind [canon_modPower, canon_supplyLost, canon_enterVesper, AnsCanon]

theorem canon_execRstnMainFall {s : State} (h : s.Canon) : AnsCanon (execRstnMainFall s) := by
  unfold execRstnMainFall
  grind [canon_modPower, canon_enterVesper, AnsCanon]

theorem canon_execVesperOnlyEntry {s : State} (h : s.Canon) : AnsCanon (execVesperOnlyEntry s) := by
  unfold execVesperOnlyEntry
  grind [canon_modPower, canon_supplyLost, canon_enterVesper, AnsCanon]

theorem canon_execPornAonAssert {s : State} (h : s.Canon) : AnsCanon (execPornAonAssert s) := by
  unfold execPornAonAssert
  grind [State.Canon, canon_rowWritten, canon_mainReset, canon_supplyLost, AnsCanon]

theorem canon_loadHeld {s : State} (h : s.Canon) : (s.loadHeld).Canon := by
  unfold State.loadHeld
  grind [canon_modDict]

theorem canon_writeHeld {s : State} (h : s.Canon) (l : List (Fin 43)) : (s.writeHeld l).Canon := by
  unfold State.writeHeld
  grind [canon_regWriteRaw, canon_foldl]

theorem canon_execPornAonRelease {s : State} (h : s.Canon) : AnsCanon (execPornAonRelease s) := by
  unfold execPornAonRelease
  grind [canon_nvmKick, canon_dbgDefault, canon_modNight, canon_modPower, canon_loadHeld, canon_writeHeld, AnsCanon]

theorem canon_execMainResetRelease {s : State} (h : s.Canon) : AnsCanon (execMainResetRelease s) := by
  unfold execMainResetRelease
  grind [canon_thawPins, canon_modPower, AnsCanon]

theorem canon_raiseDeferred {s : State} (h : s.Canon) : (s.raiseDeferred).Canon := by
  unfold State.raiseDeferred
  grind [canon_modRing, canon_raise, canon_foldl]

theorem canon_execPllLock {s : State} (h : s.Canon) : AnsCanon (execPllLock s) := by
  unfold execPllLock
  grind [canon_step6, canon_modPower, canon_modDict, canon_ringKick, canon_writeHeld, canon_raiseDeferred, AnsCanon]

theorem canon_execNapExit {s : State} (h : s.Canon) : AnsCanon (execNapExit s) := by
  unfold execNapExit
  grind [canon_resumeAll, canon_modPower, canon_kick, AnsCanon]

theorem canon_execBankWake {s : State} (h : s.Canon) : AnsCanon (execBankWake s) := by
  have awake : State.Canon { s with spad := { s.spad with asleep := false } } := h.of_mem rfl rfl rfl
  unfold execBankWake
  split
  · exact ansCanon_next (canon_kick (canon_modPower awake _))
  · exact ansCanon_next h

theorem canon_execRegisterWrite (w : Agent) (a v : Word) {s : State} (h : s.Canon) : AnsCanon (execRegisterWrite w a v s) := by
  unfold execRegisterWrite
  grind [canon_writeBy, canon_ringKick, AnsCanon]

/-! ## Machine/Tick -/

theorem canon_tickTimers {s : State} (h : s.Canon) (slow : Bool) : (s.tickTimers slow).Canon := by
  unfold State.tickTimers
  grind [canon_timerTick, canon_foldl]

theorem canon_tickHolds {s : State} (h : s.Canon) : (s.tickHolds).Canon := by
  unfold State.tickHolds
  grind [canon_modEv]

theorem canon_tickTime {s : State} (h : s.Canon) : s.tickTime.Canon := by
  have alarm := canon_execVesperAlarm (canon_modPower h fun p => { p with vt := p.vt + 1 })
  unfold State.tickTime
  dsimp only
  split
  · next t ht => exact alarm t ht
  · exact h

theorem canon_tickWindow {s : State} (h : s.Canon) : s.tickWindow.Canon := by
  have window := canon_execTraceBudgetWindow h
  unfold State.tickWindow
  split
  · split
    · next t ht => exact window t ht
    · exact h
  · exact h

theorem canon_tick {s : State} (h : s.Canon) : (s.tick).Canon := by
  unfold State.tick
  grind [canon_kick, canon_tickTimers, canon_tickHolds, canon_tickTime, canon_tickWindow]

/-! ## Machine/User -/

theorem canon_execUserInstruction (c : CoreId) (x : CtxId) (p : Byte) (opnd : Word) (words : Nat) {s : State} (h : s.Canon) :
    AnsCanon (execUserInstruction c x p opnd words s) := by
  have room := canon_makeRoom h c x
  unfold execUserInstruction
  dsimp only
  split
  · exact ansCanon_next h
  · split
    · exact ansCanon_next (canon_microResume room ..)
    · refine ansCanon_next (canon_afterFetch room c x 2 fun t ht => ?_)
      split
      · exact canon_endFault ht ..
      · exact canon_afterFetch ht c x _ fun u hu => canon_microStart hu ..

theorem canon_f16Fault {s : State} (h : s.Canon) (c : CoreId) (x : CtxId) (code : Byte) (a : Word) (dbl : Bool) :
    (s.f16Fault c x code a dbl).Canon := by
  unfold State.f16Fault
  grind [canon_modCtx, canon_endFault]

theorem canon_readVert {s : State} (h : s.Canon) (c : CoreId) (va : BitVec 11) : (s.readVert c va).2.Canon := by
  unfold State.readVert
  grind [canon_modCore, canon_countC, canon_raise]

/-- A vertical word's outcome keeps the canonical form. -/
def FStep.Canon : FStep → Prop
  | .on s _ => s.Canon
  | .fin s => s.Canon

theorem canon_f16Help {s : State} (h : s.Canon) (c : CoreId) (x : CtxId) (e : UEnv) (r : FPos → Routine) (p : UPos) :
    (s.f16Help c x e r p).Canon := by
  have step := canon_microStep h c x e (fun p => r p.place) false p
  unfold State.f16Help
  split
  · next t q ht => rw [ht] at step; exact step
  · next t ht =>
    rw [ht] at step
    split
    · exact canon_modCtx (s := t) step ..
    · exact step

theorem canon_f16Vert {s : State} (h : s.Canon) (c : CoreId) (x : CtxId) (e : UEnv) (r : FPos → Routine) (fresh : Bool)
    (va : BitVec 11) (npc : Option Word) : (s.f16Vert c x e r fresh va npc).Canon := by
  have read := canon_readVert h c va
  unfold State.f16Vert
  split
  · next t hr => rw [hr] at read; exact canon_parkBad read ..
  · next v t hr =>
    rw [hr] at read
    have held (u : State) (hu : u.Canon) : ((u.undo t c x).wordHeld c x fresh (r (.vert va npc))).Canon :=
      canon_wordHeld (canon_undo hu ..) ..
    dsimp only
    split
    · exact read
    · have cell := canon_cellThere read c x 0
      split
      · next u hc => rw [hc] at cell; exact cell
      · next u code a hc => rw [hc] at cell; exact canon_f16Fault (canon_undo cell ..) ..
      · next u code a hc => rw [hc] at cell; exact canon_f16Fault (canon_undo cell ..) ..
      · next u w hc => rw [hc] at cell; exact canon_enterWait (held u cell) ..
      · next u hc => rw [hc] at cell; exact held u cell
    · exact canon_modCore (s := t) read ..
    · exact canon_finish read _ _ _ _ _ keepsCanon_none
    · have word := canon_microWord read c x e (vertWord v) false { upc := 0, npc := npc }
      split
      · next q late u hw => rw [hw] at word; exact word.1 _ (canon_modCtx word.2 ..)
      · next f sleep late u hw => rw [hw] at word; exact word.1 _ word.2
      · next u code a hw => rw [hw] at word; exact canon_f16Fault (canon_undo word ..) ..
      · next u code a hw => rw [hw] at word; exact canon_f16Fault (canon_undo word ..) ..
      · next u w hw => rw [hw] at word; exact canon_enterWait (held u word) ..
      · next u hw => rw [hw] at word; exact held u word

theorem canon_f16Run {s : State} (h : s.Canon) (c : CoreId) (x : CtxId) (e : UEnv) (r : FPos → Routine) (fuel words : Nat)
    (fresh : Bool) (q : FPos) : (State.f16Run c x e r fuel words fresh s q).Canon := by
  induction fuel generalizing words fresh s q with
  | zero => exact canon_standIn h ..
  | succ fuel ih =>
    cases q with
    | vert va npc =>
      have step := canon_f16Vert h c x e r fresh va npc
      unfold State.f16Run
      dsimp only
      split
      · next t q ht => rw [ht] at step; exact ih (canon_standIn step ..) ..
      · next t ht => rw [ht] at step; exact step
    | help p =>
      have step := canon_f16Help h c x e r p
      unfold State.f16Run
      dsimp only
      split
      · exact canon_standIn h ..
      · split
        · next t q ht => rw [ht] at step; exact ih step ..
        · next t ht => rw [ht] at step; exact step

theorem canon_f16Resume {s : State} (h : s.Canon) (c : CoreId) (x : CtxId) (op : Byte) (opnd : BitVec 16) (len words : Nat) :
    (s.f16Resume c x op opnd len words).Canon := by
  unfold State.f16Resume
  grind [canon_unsave, canon_f16Run]

theorem canon_execF16Instruction (c : CoreId) (x : CtxId) (op : Byte) (opnd : BitVec 16) (len : Fin 4) (words : Nat) {s : State}
    (h : s.Canon) : AnsCanon (execF16Instruction c x op opnd len words s) := by
  have room := canon_makeRoom h c x
  unfold execF16Instruction
  dsimp only
  split
  · exact ansCanon_next h
  · split
    · exact ansCanon_next (canon_f16Resume room ..)
    · refine ansCanon_next (canon_afterFetch room c x _ fun t ht => ?_)
      split
      · exact canon_endFault ht ..
      · exact canon_f16Run (canon_modCtx (canon_modCore (canon_openRegs ht ..) ..) ..) ..

theorem canon_execUnassignedOpcode (c : CoreId) (x : CtxId) (ext : Bool) (b : Byte) {s : State} (h : s.Canon) :
    AnsCanon (execUnassignedOpcode c x ext b s) := canon_issue h _ _ _ fun _ ht => ht

/-! ## Every command -/

/-- Every command keeps the canonical form. -/
theorem canon_exec (i : Instr) {s : State} (hs : s.Canon) : AnsCanon (exec i s) :=
  match i with
  | .litN c x n => canon_execLitN c x n hs
  | .litM1 c x => canon_execLitM1 c x hs
  | .lit8 c x b => canon_execLit8 c x b hs
  | .lit16 c x h => canon_execLit16 c x h hs
  | .lit32 c x w => canon_execLit32 c x w hs
  | .lit16U c x h => canon_execLit16U c x h hs
  | .dup c x => canon_execDup c x hs
  | .drop c x => canon_execDrop c x hs
  | .swap c x => canon_execSwap c x hs
  | .over c x => canon_execOver c x hs
  | .rot c x => canon_execRot c x hs
  | .nip c x => canon_execNip c x hs
  | .tuck c x => canon_execTuck c x hs
  | .twoDup c x => canon_execTwoDup c x hs
  | .twoDrop c x => canon_execTwoDrop c x hs
  | .twoSwap c x => canon_execTwoSwap c x hs
  | .pickN c x n => canon_execPickN c x n hs
  | .depth c x => canon_execDepth c x hs
  | .pokeN c x n => canon_execPokeN c x n hs
  | .toR c x => canon_execToR c x hs
  | .rFrom c x => canon_execRFrom c x hs
  | .rFetch c x => canon_execRFetch c x hs
  | .rdrop c x => canon_execRdrop c x hs
  | .enter c x => canon_execEnter c x hs
  | .leave c x => canon_execLeave c x hs
  | .add c x => canon_execAdd c x hs
  | .sub c x => canon_execSub c x hs
  | .neg c x => canon_execNeg c x hs
  | .abs c x => canon_execAbs c x hs
  | .and c x => canon_execAnd c x hs
  | .or c x => canon_execOr c x hs
  | .xor c x => canon_execXor c x hs
  | .not c x => canon_execNot c x hs
  | .shl c x => canon_execShl c x hs
  | .shr c x => canon_execShr c x hs
  | .sar c x => canon_execSar c x hs
  | .rol c x => canon_execRol c x hs
  | .ror c x => canon_execRor c x hs
  | .inc c x => canon_execInc c x hs
  | .dec c x => canon_execDec c x hs
  | .addsb c x => canon_execAddsb c x hs
  | .subsb c x => canon_execSubsb c x hs
  | .mul c x => canon_execMul c x hs
  | .min c x => canon_execMin c x hs
  | .max c x => canon_execMax c x hs
  | .minu c x => canon_execMinu c x hs
  | .maxu c x => canon_execMaxu c x hs
  | .extb c x => canon_execExtb c x hs
  | .clz c x => canon_execClz c x hs
  | .eq c x => canon_execEq c x hs
  | .ne c x => canon_execNe c x hs
  | .lt c x => canon_execLt c x hs
  | .gt c x => canon_execGt c x hs
  | .ltu c x => canon_execLtu c x hs
  | .gtu c x => canon_execGtu c x hs
  | .zeq c x => canon_execZeq c x hs
  | .zlt c x => canon_execZlt c x hs
  | .sel c x => canon_execSel c x hs
  | .addi8 c x b => canon_execAddi8 c x b hs
  | .shli c x b => canon_execShli c x b hs
  | .shri c x b => canon_execShri c x b hs
  | .sari c x b => canon_execSari c x b hs
  | .div c x => canon_execDiv c x hs
  | .mod c x => canon_execMod c x hs
  | .divu c x => canon_execDivu c x hs
  | .modu c x => canon_execModu c x hs
  | .sqrt c x => canon_execSqrt c x hs
  | .mulw c x => canon_execMulw c x hs
  | .mulwu c x => canon_execMulwu c x hs
  | .ldf c x => canon_execLdf c x hs
  | .longOpRetire c x j => canon_execLongOpRetire c x j hs
  | .impreciseFault c x => canon_execImpreciseFault c x hs
  | .ld c x => canon_execLd c x hs
  | .ldh c x => canon_execLdh c x hs
  | .ldhs c x => canon_execLdhs c x hs
  | .ldb c x => canon_execLdb c x hs
  | .ldbs c x => canon_execLdbs c x hs
  | .st c x => canon_execSt c x hs
  | .sth c x => canon_execSth c x hs
  | .stb c x => canon_execStb c x hs
  | .ldp c x => canon_execLdp c x hs
  | .stp c x => canon_execStp c x hs
  | .ldo c x b => canon_execLdo c x b hs
  | .sto c x b => canon_execSto c x b hs
  | .ldl8 c x b => canon_execLdl8 c x b hs
  | .stl8 c x b => canon_execStl8 c x b hs
  | .ldl16 c x h => canon_execLdl16 c x h hs
  | .stl16 c x h => canon_execStl16 c x h hs
  | .ldgN c x n => canon_execLdgN c x n hs
  | .stgN c x n => canon_execStgN c x n hs
  | .claim c x => canon_execClaim c x hs
  | .commit c x elapsed => canon_execCommit c x elapsed hs
  | .fence c x => canon_execFence c x hs
  | .drain c x => canon_execDrain c x hs
  | .pinr c x => canon_execPinr c x hs
  | .pinw c x => canon_execPinw c x hs
  | .pinrw c x => canon_execPinrw c x hs
  | .pinwm c x => canon_execPinwm c x hs
  | .stim c x b => canon_execStim c x b hs
  | .transit c x => canon_execTransit c x hs
  | .twait c x => canon_execTwait c x hs
  | .beam c x => canon_execBeam c x hs
  | .frame c x => canon_execFrame c x hs
  | .br8 c x o => canon_execBr8 c x o hs
  | .br16 c x o => canon_execBr16 c x o hs
  | .bz8 c x wide o => canon_execBz8 c x wide o hs
  | .bnz8 c x wide o => canon_execBnz8 c x wide o hs
  | .bzfN c x n => canon_execBzfN c x n hs
  | .call16 c x o => canon_execCall16 c x o hs
  | .call32 c x w => canon_execCall32 c x w hs
  | .callvN c x n => canon_execCallvN c x n hs
  | .calli c x => canon_execCalli c x hs
  | .jmpi c x => canon_execJmpi c x hs
  | .ret c x => canon_execRet c x hs
  | .rloop8 c x o => canon_execRloop8 c x o hs
  | .nop c x => canon_execNop c x hs
  | .sys c x n => canon_execSys c x n hs
  | .rets c x => canon_execRets c x hs
  | .reti c x => canon_execReti c x hs
  | .sleep c x => canon_execSleep c x hs
  | .yield c x => canon_execYield c x hs
  | .bkpt c x => canon_execBkpt c x hs
  | .vtime c x => canon_execVtime c x hs
  | .coreid c x => canon_execCoreid c x hs
  | .move c x words => canon_execMove c x words hs
  | .fill c x words => canon_execFill c x words hs
  | .blit c x words => canon_execBlit c x words hs
  | .blitk c x words => canon_execBlitk c x words hs
  | .userInstruction c x p opnd words => canon_execUserInstruction c x p opnd words hs
  | .f16Instruction c x op opnd len words => canon_execF16Instruction c x op opnd len words hs
  | .ucodeRamRewrite c a => canon_execUcodeRamRewrite c a hs
  | .waitEnd c x => canon_execWaitEnd c x hs
  | .quantumExpiry c => canon_execQuantumExpiry c hs
  | .fetchInvalidate c a n => canon_execFetchInvalidate c a n hs
  | .fetchRefill c x a => canon_execFetchRefill c x a hs
  | .thrCtlStart w c x v => canon_execThrCtlStart w c x v hs
  | .thrCtlStop w c x v => canon_execThrCtlStop w c x v hs
  | .parkAtBoundary c x => canon_execParkAtBoundary c x hs
  | .thrCtlResume w c x v => canon_execThrCtlResume w c x v hs
  | .thrCtlReset w c x v => canon_execThrCtlReset w c x v hs
  | .thrCtlCntd w c x v => canon_execThrCtlCntd w c x v hs
  | .cntdTakeEffect c x => canon_execCntdTakeEffect c x hs
  | .thrStatPrivWrite w c x v => canon_execThrStatPrivWrite w c x v hs
  | .spillAreaWrite w c x size v => canon_execSpillAreaWrite w c x size v hs
  | .windatRead c x => canon_execWindatRead c x hs
  | .windatWrite c x v => canon_execWindatWrite c x v hs
  | .pipeCtlBtbInv w c v => canon_execPipeCtlBtbInv w c v hs
  | .rcFieldRead w a => canon_execRcFieldRead w a hs
  | .registerWrite w a v => canon_execRegisterWrite w a v hs
  | .ucLdctlHold w cores => canon_execUcLdctlHold w cores hs
  | .coreHeld c => canon_execCoreHeld c hs
  | .ucLdctlRelease w => canon_execUcLdctlRelease w hs
  | .ucLdctlLock w => canon_execUcLdctlLock w hs
  | .ucCmdWrite w => canon_execUcCmdWrite w hs
  | .ucCmdRead w => canon_execUcCmdRead w hs
  | .transitAccept g => canon_execTransitAccept g hs
  | .lateInsertMerge t => canon_execLateInsertMerge t hs
  | .beamPositionSample n line quad run hold par => canon_execBeamPositionSample n line quad run hold par hs
  | .walkEnd t => canon_execWalkEnd t hs
  | .sortEnd t => canon_execSortEnd t hs
  | .soundPositionSample m blk smp run hold par aclks => canon_execSoundPositionSample m blk smp run hold par aclks hs
  | .flushKey w => canon_execFlushKey w hs
  | .flushTb w => canon_execFlushTb w hs
  | .readEntry w => canon_execReadEntry w hs
  | .readQueue w => canon_execReadQueue w hs
  | .resetEph w => canon_execResetEph w hs
  | .trnCmdDone => canon_execTrnCmdDone hs
  | .tbnCfgWrite w t v => canon_execTbnCfgWrite w t v hs
  | .queueStateClearDone => canon_execQueueStateClearDone hs
  | .bpnCtlWrite w p v => canon_execBpnCtlWrite w p v hs
  | .sync p src r came within => canon_execSync p src r came within hs
  | .meridianMissExpiry n => canon_execMeridianMissExpiry n hs
  | .meridianHoldoverExpiry n => canon_execMeridianHoldoverExpiry n hs
  | .linkUp p g => canon_execLinkUp p g hs
  | .linkDown p => canon_execLinkDown p hs
  | .dlyReq p num turn => canon_execDlyReq p num turn hs
  | .dlyRsp p num t32 trip => canon_execDlyRsp p num t32 trip hs
  | .frameForward p f ahead => canon_execFrameForward p f ahead hs
  | .frameError p e => canon_execFrameError p e hs
  | .ownFrameSend p => canon_execOwnFrameSend p hs
  | .read h data => canon_execRead h data hs
  | .write h data => canon_execWrite h data hs
  | .dread h data => canon_execDread h data hs
  | .dwrite h data => canon_execDwrite h data hs
  | .ping h data => canon_execPing h data hs
  | .resync h data => canon_execResync h data hs
  | .assign h data => canon_execAssign h data hs
  | .msg h data => canon_execMsg h data hs
  | .ringTclkLoss => canon_execRingTclkLoss hs
  | .ringTclkPresent => canon_execRingTclkPresent hs
  | .fastClockAbsent => canon_execFastClockAbsent hs
  | .nmsgSend w v => canon_execNmsgSend w v hs
  | .nmsgSent => canon_execNmsgSent hs
  | .hmsgEmpty w => canon_execHmsgEmpty w hs
  | .rppCtlWrite w p v => canon_execRppCtlWrite w p v hs
  | .save => canon_execSave hs
  | .restore => canon_execRestore hs
  | .start mask => canon_execStart mask hs
  | .injWhen v => canon_execInjWhen v hs
  | .intCode v => canon_execIntCode v hs
  | .intUnlock v => canon_execIntUnlock v hs
  | .intLock => canon_execIntLock hs
  | .flashCtlw v => canon_execFlashCtlw v hs
  | .ucCtlBegin => canon_execUcCtlBegin hs
  | .ucCtlCommit => canon_execUcCtlCommit hs
  | .ucCtlAbandon => canon_execUcCtlAbandon hs
  | .dacc op sub index data => canon_execDacc op sub index data hs
  | .pornAonAssert => canon_execPornAonAssert hs
  | .pornAonRelease => canon_execPornAonRelease hs
  | .mainOkFall => canon_execMainOkFall hs
  | .rstnMainFall => canon_execRstnMainFall hs
  | .mainResetRelease => canon_execMainResetRelease hs
  | .pllLock => canon_execPllLock hs
  | .cacheInvalidateDone c => canon_execCacheInvalidateDone c hs
  | .controlStoreCheckDone c failed => canon_execControlStoreCheckDone c failed hs
  | .mainWarnRise => canon_execMainWarnRise hs
  | .dbgRstn => canon_execDbgRstn hs
  | .trstn => canon_execTrstn hs
  | .pwrReqNap w => canon_execPwrReqNap w hs
  | .napEntry => canon_execNapEntry hs
  | .napExit => canon_execNapExit hs
  | .bankWake => canon_execBankWake hs
  | .pwrReqVesperOnly w => canon_execPwrReqVesperOnly w hs
  | .vesperOnlyEntry => canon_execVesperOnlyEntry hs
  | .pwrReqCancel w => canon_execPwrReqCancel w hs
  | .dozeEntry c => canon_execDozeEntry c hs
  | .dozeExit c => canon_execDozeExit c hs
  | .clkPllaWrite w v => canon_execClkPllaWrite w v hs
  | .pllaRelock => canon_execPllaRelock hs
  | .clkCdivWrite w hi v => canon_execClkCdivWrite w hi v hs
  | .clkSdivWrite w v => canon_execClkSdivWrite w v hs
  | .coreSoftReset w c => canon_execCoreSoftReset w c hs
  | .vtLoWrite w v => canon_execVtLoWrite w v hs
  | .vtLoRead w => canon_execVtLoRead w hs
  | .vesperAlarm => canon_execVesperAlarm hs
  | .spadEccWriteback a => canon_execSpadEccWriteback a hs
  | .wipeStart => canon_execWipeStart hs
  | .wipeDone => canon_execWipeDone hs
  | .zeroingDone => canon_execZeroingDone hs
  | .marchStart w v => canon_execMarchStart w v hs
  | .marchStop w v => canon_execMarchStop w v hs
  | .marchElementEnd got => canon_execMarchElementEnd got hs
  | .marchSliceEnd => canon_execMarchSliceEnd hs
  | .marchRunEnd => canon_execMarchRunEnd hs
  | .lineFillArrival c j => canon_execLineFillArrival c j hs
  | .lcAgeTick c => canon_execLcAgeTick c hs
  | .lcPinWrite w c v => canon_execLcPinWrite w c v hs
  | .lcPinld w c v => canon_execLcPinld w c v hs
  | .pinldDone c => canon_execPinldDone c hs
  | .lcCtlWrite w c v => canon_execLcCtlWrite w c v hs
  | .fabWinWrite w v => canon_execFabWinWrite w v hs
  | .storeBufferSend c => canon_execStoreBufferSend c hs
  | .fabricWriteResponse tag err => canon_execFabricWriteResponse tag err hs
  | .fabricReadResponse tag data err => canon_execFabricReadResponse tag data err hs
  | .snoop a parOk => canon_execSnoop a parOk hs
  | .flashPortIssue => canon_execFlashPortIssue hs
  | .flashRequestGrant => canon_execFlashRequestGrant hs
  | .flashReadBeat tag data err parOk => canon_execFlashReadBeat tag data err parOk hs
  | .flashWriteAck tag err => canon_execFlashWriteAck tag err hs
  | .flCtlWrite w v => canon_execFlCtlWrite w v hs
  | .fabricSlaveRequest write a d be tag parOk => canon_execFabricSlaveRequest write a d be tag parOk hs
  | .sourceRaise st_ payload => canon_execSourceRaise st_ payload hs
  | .fastEntry c => canon_execFastEntry c hs
  | .eventRecordWrite => canon_execEventRecordWrite hs
  | .normalEntry c => canon_execNormalEntry c hs
  | .holdoffExpiry g => canon_execHoldoffExpiry g hs
  | .timerExpiry n => canon_execTimerExpiry n hs
  | .evSwset w v => canon_execEvSwset w v hs
  | .evSrcWrite w st_ v => canon_execEvSrcWrite w st_ v hs
  | .evqBaseWrite w c v => canon_execEvqBaseWrite w c v hs
  | .evqRdWrite w c v => canon_execEvqRdWrite w c v hs
  | .evqWrRead w c => canon_execEvqWrRead w c hs
  | .fvecReload c k => canon_execFvecReload c k hs
  | .pinInputChange k level => canon_execPinInputChange k level hs
  | .gpioFilterExpiry k => canon_execGpioFilterExpiry k hs
  | .evtInChange k level => canon_execEvtInChange k level hs
  | .pinWriteApply => canon_execPinWriteApply hs
  | .gpMuxWrite w j v => canon_execGpMuxWrite w j v hs
  | .gpFiltWrite w k v => canon_execGpFiltWrite w k v hs
  | .gpOwnWrite w c hi v => canon_execGpOwnWrite w c hi v hs
  | .dbgUnreq w v => canon_execDbgUnreq w v hs
  | .dbgRespLo w v => canon_execDbgRespLo w v hs
  | .unlockCheckDone => canon_execUnlockCheckDone hs
  | .dbgLock w => canon_execDbgLock w hs
  | .dbgCoreHalt w c => canon_execDbgCoreHalt w c hs
  | .haltArrival m => canon_execHaltArrival m hs
  | .dbgCoreStep w c v => canon_execDbgCoreStep w c v hs
  | .stepDone c => canon_execStepDone c hs
  | .xtmFire w lines => canon_execXtmFire w lines hs
  | .dbgRel w members => canon_execDbgRel w members hs
  | .dbgMctlGo w v => canon_execDbgMctlGo w v hs
  | .dbgVdataAccess w v => canon_execDbgVdataAccess w v hs
  | .tracePortPacket => canon_execTracePortPacket hs
  | .traceBufferWrite => canon_execTraceBufferWrite hs
  | .trcCtlWrite w v => canon_execTrcCtlWrite w v hs
  | .cntOverflow n => canon_execCntOverflow n hs
  | .cntGctlClr w v => canon_execCntGctlClr w v hs
  | .cntnLoWrite w n v => canon_execCntnLoWrite w n v hs
  | .watchdogWarning c => canon_execWatchdogWarning c hs
  | .watchdogBite c => canon_execWatchdogBite c hs
  | .wdtKick w c v => canon_execWdtKick w c v hs
  | .nvmRowWriteEnd ok => canon_execNvmRowWriteEnd ok hs
  | .nlCtlClear w => canon_execNlCtlClear w hs
  | .nlSwreq w => canon_execNlSwreq w hs
  | .lcReq w code => canon_execLcReq w code hs
  | .tamperEvent => canon_execTamperEvent hs
  | .tmpForce w => canon_execTmpForce w hs
  | .unassignedOpcode c x ext b => canon_execUnassignedOpcode c x ext b hs
  | .mainWarnFall => canon_execMainWarnFall hs
  | .fastClockPresent => canon_execFastClockPresent hs
  | .vdbgLoss => canon_execVdbgLoss hs
  | .vdbgReturn => canon_execVdbgReturn hs
  | .fabricRequestAccept => canon_execFabricRequestAccept hs
  | .errorWindowEnd p => canon_execErrorWindowEnd p hs
  | .traceBudgetWindow => canon_execTraceBudgetWindow hs

/-- Settles O60: by the form's lemma of each command, and of a tick. -/
theorem stepsKeepMemoryCanonical : Obligations.StepsKeepMemoryCanonical := by
  intro s t h ht
  unfold step at ht
  split at ht
  · exact ansCanon_next (canon_tick h) t ht
  · next i rest _ => exact canon_exec i (s := { s with pending := rest }) h t ht

end Sys2Proof.Machine
end

