-- ==== Sys2Proof/Proofs/Effects.lean ====
section
/-! SUPPORT. An instruction that changes its stacks and something else, some of it at its end (R83, R98, R124). -/

set_option Elab.async false

namespace Sys2Proof.Machine

open Sys2Proof

/-- The instruction is done, at `to_`: cells of the current frame are replaced and the return cache is that of `u`. -/
def EffectOf (s t : State) (c : CoreId) (x : CtxId) (to_ : Word) (pops : Nat) (vs : List Word) (u : Ctx) : Prop :=
  (t.ctx c x).pc = to_ ∧ StackDone s t c x pops vs ∧
  ((t.ctx c x).rstk = u.rstk ∧ (t.ctx c x).rtag = u.rtag ∧ (t.ctx c x).rtop = u.rtop) ∧
  CtxKept s t c x ∧ CoreKept s t c x ∧ RestKept s t

theorem EffectOf.completed {s t : State} {c : CoreId} {x : CtxId} {to_ : Word} {pops : Nat} {vs : List Word} {u : Ctx}
    (h : EffectOf s t c x to_ pops vs u) (h1 : u.rstk = (s.ctx c x).rstk) (h2 : u.rtag = (s.ctx c x).rtag) (h3 : u.rtop = (s.ctx c x).rtop) :
    Completed s t c x to_ pops vs := by
  obtain ⟨pc, done, ⟨e1, e2, e3⟩, kept⟩ := h
  exact ⟨pc, done, ⟨e1.trans h1, e2.trans h2, e3.trans h3⟩, kept⟩

theorem EffectOf.completedR {s t : State} {c : CoreId} {x : CtxId} {to_ : Word} {pops : Nat} {vs l : List Word} {u : Ctx}
    (h : EffectOf s t c x to_ pops vs u) (hl : Holds x u l) : CompletedR s t c x to_ pops vs l := by
  obtain ⟨pc, done, ⟨e1, e2, e3⟩, kept⟩ := h
  obtain ⟨l1, l2, l3⟩ := hl
  refine ⟨pc, done, ⟨?_, ?_, fun q => ?_⟩, kept⟩
  · rw [returns_congr e1 e2 e3, l1]
  · exact (groupsOk_congr e2).mpr l2
  · simp only [e2, e3]; exact l3 q

/-- How an instruction goes on: to a target, or to the next one. -/
def flowOf (o : Option Word) : Flow := match o with | some a => .jump a | none => .seq

/-- An instruction that is ready and goes well has its effect on the state `s'` that its other changes give, and then its last change. -/
theorem issue_effect {s s' s1 : State} {c : CoreId} {x : CtxId} {e : Enc} {body : State → Res Done} {o : Option Word} {l : Late} {g : Ctx → Ctx}
    {pops : Nat} {vs : List Word} (h : Ready s c x e)
    (hb : body s = .ok { flow := flowOf o, late := l } s1)
    (hc : s1.core = (s'.modCtx c x fun t => (g t).replace pops vs).core) (hr : RestKept s' s1)
    (hm : (s'.ctx c x).moved = (s.ctx c x).moved) (hg : ReturnsOnly (s'.ctx c x) (g (s'.ctx c x))) (hs : Fits (s'.ctx c x) pops vs) :
    ∃ t, s.issue c x e body = .next (l t) ∧
      EffectOf s' t c x (o.getD (after s c x e.len)) pops vs (g (s'.ctx c x)) := by
  obtain ⟨v, hv⟩ : ∃ v, v = g (s'.ctx c x) := ⟨_, rfl⟩
  have hw : v.replace pops vs = { (s'.ctx c x).replace pops vs with rstk := v.rstk, rtag := v.rtag, rtop := v.rtop } := by
    conv_lhs => rw [show v = _ from hv ▸ hg]
    rw [replace_returns]
  have own : s1.ctx c x = v.replace pops vs := by
    rw [hv, ← State.ctx_modCtx s' c x fun t => (g t).replace pops vs, State.ctx, hc]; rfl
  have moved : (s1.ctx c x).moved = (s.ctx c x).moved := by rw [own, hw, replace_fields]; exact hm
  obtain ⟨t, ht⟩ : ∃ t, t = s1.finish c x (after s c x e.len) (s.ctx c x).priv true { flow := flowOf o } := ⟨_, rfl⟩
  have fin : (∃ q, t.ctx c x = { (v.replace pops vs).ended (o.getD (after s c x e.len)) with btbAt := q }) ∧
      CoreKept s' t c x ∧ RestKept s' t := by
    rw [ht, hv]
    exact finish_kept (x := x) (c := c) (f := fun t => (g t).replace pops vs) (after s c x e.len) (s.ctx c x).priv true o hc hr
  obtain ⟨⟨q, hx⟩, core, rest⟩ := fin
  rw [← hv]
  have hu : v.replace pops vs = { s'.ctx c x with
      dstk := (v.replace pops vs).dstk, wtag := (v.replace pops vs).wtag, frame := (v.replace pops vs).frame,
      rstk := (v.replace pops vs).rstk, rtag := (v.replace pops vs).rtag, rtop := (v.replace pops vs).rtop } := by
    rw [hw, replace_fields]
  refine ⟨t, ?_, ?_⟩
  · rw [issue_ready _ h, runBody_ok _ _ _ hb moved, ht]
    rfl
  obtain ⟨pc, kept⟩ := ctxKept_ended hu hx
  have ended := endedAt_fields (v.replace pops vs) (o.getD (after s c x e.len)) q
  simp only [← hx] at ended
  refine ⟨pc, ?_, ⟨?_, ?_, ?_⟩, kept, core, rest⟩
  · rcases hs with ⟨rfl, rfl⟩ | ⟨h1, h2⟩
    · have none : (s'.ctx c x).replace 0 [] = s'.ctx c x := by simp [Ctx.replace]
      rw [none] at hw
      exact stackDone_same (by rw [ended, hw]) (by rw [ended, hw]) (by rw [ended, hw])
    · exact stackDone_ended h1 h2 (by rw [hw]) (by rw [hw]) (by rw [hw, replace_fields]) hx
  all_goals rw [ended, hw]

/-- `issue_effect` for an instruction of `simple`. -/
theorem simple_effectTo {s s' s1 : State} {c : CoreId} {x : CtxId} {e : Enc} {body : State → Res (Option Word)} {o : Option Word} {g : Ctx → Ctx}
    {pops : Nat} {vs : List Word} (h : Ready s c x e) (hb : body s = .ok o s1)
    (hc : s1.core = (s'.modCtx c x fun t => (g t).replace pops vs).core) (hr : RestKept s' s1)
    (hm : (s'.ctx c x).moved = (s.ctx c x).moved) (hg : ReturnsOnly (s'.ctx c x) (g (s'.ctx c x))) (hs : Fits (s'.ctx c x) pops vs) :
    ∃ t, s.simple c x e body = .next t ∧ EffectOf s' t c x (o.getD (after s c x e.len)) pops vs (g (s'.ctx c x)) :=
  issue_effect (l := Late.none) h (by simp only [hb]; cases o <;> rfl) hc hr hm hg hs

/-! ## Changes at the end of an instruction -/

theorem EffectOf.count {s t : State} {c : CoreId} {x : CtxId} {to_ : Word} {pops : Nat} {vs : List Word} {u : Ctx} (y : CtxId) (n : Nat)
    (h : EffectOf s t c x to_ pops vs u) : EffectOf s (t.count c y n) c x to_ pops vs u := by
  obtain ⟨pc, done, returns, kept, ⟨cores, ctxs, core⟩, rest⟩ := h
  have same : ∀ d z, (t.count c y n).ctx d z = t.ctx d z := fun d z => by simp only [State.ctx, State.count_core]
  refine ⟨by rw [same]; exact pc, ?_, by rw [same]; exact returns, ?_, ⟨?_, ?_, ?_⟩, rest.trans (countN_rest ..)⟩
  · simp only [StackDone, same]; exact done
  · simp only [CtxKept, same]; exact kept
  · simp only [State.count_core]; exact cores
  · simp only [same]; exact ctxs
  · simp only [State.count_core]; exact core

/-- The states `s'` and `t'` come from `s` and `t` by one change, of what instructions leave alone: the context's state, privilege and wake
flag, and who has or seeks the decode register. -/
structure OneChange (s s' t t' : State) (c : CoreId) (x : CtxId) : Prop where
  ctxs : ∀ y, y ≠ x → s'.ctx c y = s.ctx c y ∧ t'.ctx c y = t.ctx c y
  cores : ∀ d, d ≠ c → s'.core[d] = s.core[d] ∧ t'.core[d] = t.core[d]
  own : ∃ p st w, s'.ctx c x = { s.ctx c x with priv := p, st := st, wake := w } ∧ t'.ctx c x = { t.ctx c x with priv := p, st := st, wake := w }
  core : ∃ h q l, (∃ n, s'.core[c] = { s.core[c] with ctx := s'.core[c].ctx, holder := h, search := q, qload := l, qcount := n }) ∧
    ∃ n, t'.core[c] = { t.core[c] with ctx := t'.core[c].ctx, holder := h, search := q, qload := l, qcount := n }
  rest : RestKept s s' ∧ RestKept t t'

theorem RestKept.both {s s' t t' : State} (h : RestKept s t) (hs : RestKept s s') (ht : RestKept t t') : RestKept s' t' := by
  unfold RestKept at *
  rw [ht, h, hs]

theorem EffectOf.oneChange {s s' t t' : State} {c : CoreId} {x : CtxId} {to_ : Word} {pops : Nat} {vs : List Word} {u : Ctx}
    (h : EffectOf s t c x to_ pops vs u) (hc : OneChange s s' t t' c x) : EffectOf s' t' c x to_ pops vs u := by
  obtain ⟨pc, done, returns, ⟨kept, routine⟩, ⟨cores, ctxs, core⟩, rest⟩ := h
  obtain ⟨ctxs', cores', ⟨p, st, w, hs, ht⟩, ⟨h, q, l, ⟨n1, cs⟩, n2, ct⟩, rs, rt⟩ := hc
  refine ⟨by rw [ht]; exact pc, ?_, by rw [ht]; exact returns, ⟨?_, ?_⟩, ⟨fun d hd => ?_, fun y hy => ?_, ?_⟩, rest.both rs rt⟩
  · simp only [StackDone, hs, ht]; exact done
  · simp only [hs, ht]; rw [kept]
  · simp only [hs, ht]; exact routine
  · rw [(cores' d hd).1, (cores' d hd).2, cores d hd]
  · rw [(ctxs' y hy).1, (ctxs' y hy).2, ctxs y hy]
  · rw [ct, cs, core]

/-- Two states of a core agree in what the decode register goes by (R124). -/
structure SameSeat (k m : Core) : Prop where
  holder : m.holder = k.holder
  search : m.search = k.search
  quantum : m.quantum = k.quantum
  qload : m.qload = k.qload
  wants : ∀ t, m.wants t = k.wants t

theorem SameSeat.seat {k m : Core} (h : SameSeat k m) : SameSeat k.seat m.seat := by
  obtain ⟨e1, e2, e3, e4, e5⟩ := h
  have found : (((List.finRange 8).map fun i => m.search + i).find? m.wants) = ((List.finRange 8).map fun i => k.search + i).find? k.wants := by
    rw [e2, funext e5]
  unfold Core.seat
  cases hk : k.holder with
  | some t =>
    simp only [e1.trans hk]
    exact ⟨e1, e2, e3, e4, e5⟩
  | none =>
    simp only [e1.trans hk, found]
    split
    · exact ⟨rfl, e2, e3, e3, e5⟩
    · exact ⟨e1, e2, e3, e4, e5⟩

theorem SameSeat.giveUp {k m : Core} (h : SameSeat k m) (x : CtxId) : SameSeat (k.giveUp x) (m.giveUp x) := by
  obtain ⟨e1, e2, e3, e4, e5⟩ := h
  unfold Core.giveUp
  split
  · next t _ =>
    by_cases hk : k.holder = some t
    · simp only [e1.trans hk, hk, if_true]
      exact ⟨rfl, rfl, e3, e4, e5⟩
    · simp only [hk, e1 ▸ hk, if_false]
      exact ⟨e1, e2, e3, e4, e5⟩
  · exact ⟨e1, e2, e3, e4, e5⟩

theorem SameSeat.modCtx_st {k m : Core} (h : SameSeat k m) (x : CtxId) (st : CtxState) (hx : m.ctx[x.val].cntd = k.ctx[x.val].cntd) :
    SameSeat (k.modCtx x fun t => { t with st := st }) (m.modCtx x fun t => { t with st := st }) := by
  obtain ⟨e1, e2, e3, e4, e5⟩ := h
  refine ⟨e1, e2, e3, e4, fun t => ?_⟩
  by_cases ht : t.castSucc = x
  · subst ht
    simp only [Core.wants, Fin.getElem_fin, Core.modCtx_self, hx]
  · simp only [Core.wants, Fin.getElem_fin, Core.modCtx_ne _ _ _ _ ht]
    exact e5 t

theorem SameSeat.setSt {k m : Core} (h : SameSeat k m) (x : CtxId) (st : CtxState) (hx : m.ctx[x.val].cntd = k.ctx[x.val].cntd) :
    SameSeat (k.setSt x st) (m.setSt x st) := by
  have set := h.modCtx_st x st hx
  unfold Core.setSt
  dsimp only
  split
  · exact set.seat
  · exact (set.giveUp x).seat

/-- An instruction that is done has left the decode register's core as it was. -/
theorem EffectOf.sameSeat {s t : State} {c : CoreId} {x : CtxId} {to_ : Word} {pops : Nat} {vs : List Word} {u : Ctx}
    (h : EffectOf s t c x to_ pops vs u) : SameSeat s.core[c] t.core[c] := by
  obtain ⟨-, -, -, ⟨kept, -⟩, ⟨-, ctxs, core⟩, -⟩ := h
  refine ⟨by rw [core], by rw [core], by rw [core], by rw [core], fun y => ?_⟩
  have same : (t.ctx c y.castSucc).st = (s.ctx c y.castSucc).st ∧ (t.ctx c y.castSucc).cntd = (s.ctx c y.castSucc).cntd := by
    by_cases hy : y.castSucc = x
    · rw [hy, kept]; exact ⟨rfl, rfl⟩
    · rw [ctxs _ hy]; exact ⟨rfl, rfl⟩
  simp only [State.ctx] at same
  simp only [Core.wants, same]

/-- The state of the context changes at the end. -/
theorem EffectOf.setSt {s t : State} {c : CoreId} {x : CtxId} {to_ : Word} {pops : Nat} {vs : List Word} {u : Ctx}
    (h : EffectOf s t c x to_ pops vs u) (st : CtxState) : EffectOf (s.setSt c x st) (t.setSt c x st) c x to_ pops vs u := by
  have cntd : (t.ctx c x).cntd = (s.ctx c x).cntd := by
    obtain ⟨-, -, -, ⟨kept, -⟩, -⟩ := h
    rw [kept]
  have wake : (t.ctx c x).priv = (s.ctx c x).priv ∧ (t.ctx c x).wake = (s.ctx c x).wake := by
    obtain ⟨-, -, -, ⟨kept, -⟩, -⟩ := h
    rw [kept]; exact ⟨rfl, rfl⟩
  obtain ⟨e1, e2, -, e4, -⟩ := h.sameSeat.setSt x st cntd
  have self : ∀ r : State, (r.setSt c x st).core[c] = r.core[c].setSt x st := fun r => by
    rw [State.setSt]; simp only [Fin.getElem_fin, seating_core, State.modCore_self]
  have other : ∀ (r : State) (y : CtxId), y ≠ x → (r.setSt c x st).ctx c y = r.ctx c y := fun r y hy => by
    obtain ⟨-, ctxs, -⟩ := faultReach_setSt r c x st
    exact ctxs y hy
  have others : ∀ (r : State) (d : CoreId), d ≠ c → (r.setSt c x st).core[d] = r.core[d] := fun r d hd => by
    obtain ⟨cores, -⟩ := faultReach_setSt r c x st
    exact cores d hd
  refine h.oneChange ⟨fun y hy => ⟨other s y hy, other t y hy⟩, fun d hd => ⟨others s d hd, others t d hd⟩,
    ⟨(s.ctx c x).priv, st, (s.ctx c x).wake, ctx_setSt s c x st, ?_⟩,
    ⟨(s.core[c].setSt x st).holder, (s.core[c].setSt x st).search, (s.core[c].setSt x st).qload, ⟨(s.core[c].setSt x st).qcount, ?_⟩,
     ⟨(t.core[c].setSt x st).qcount, ?_⟩⟩, seating_rest .., seating_rest ..⟩
  · rw [ctx_setSt, wake.1.symm, wake.2.symm]
  · rw [self, core_setSt_ctx]
    exact setSt_fields ..
  · rw [self, ← e1, ← e2, ← e4, core_setSt_ctx]
    exact setSt_fields ..

/-- The wake flag clears at the end. -/
theorem EffectOf.clearWake {s t : State} {c : CoreId} {x : CtxId} {to_ : Word} {pops : Nat} {vs : List Word} {u : Ctx}
    (h : EffectOf s t c x to_ pops vs u) :
    EffectOf (s.modCtx c x fun t => { t with wake := false }) (t.modCtx c x fun t => { t with wake := false }) c x to_ pops vs u := by
  have same : (t.ctx c x).priv = (s.ctx c x).priv ∧ (t.ctx c x).st = (s.ctx c x).st := by
    obtain ⟨-, -, -, ⟨kept, -⟩, -⟩ := h
    rw [kept]; exact ⟨rfl, rfl⟩
  obtain ⟨e1, e2, -, e4, -⟩ := h.sameSeat
  refine h.oneChange ⟨fun y hy => ⟨State.ctx_modCtx_ne _ _ _ _ _ hy, State.ctx_modCtx_ne _ _ _ _ _ hy⟩, fun d hd => ⟨State.modCore_ne _ _ _ _ hd, State.modCore_ne _ _ _ _ hd⟩,
    ⟨(s.ctx c x).priv, (s.ctx c x).st, false, State.ctx_modCtx .., ?_⟩,
    ⟨s.core[c].holder, s.core[c].search, s.core[c].qload, ⟨s.core[c].qcount, ?_⟩, ⟨t.core[c].qcount, ?_⟩⟩, modCore_rest .., modCore_rest ..⟩
  · rw [State.ctx_modCtx, same.1.symm, same.2.symm]
  · simp only [State.modCtx, Fin.getElem_fin, State.modCore_self]; rfl
  · rw [← e1, ← e2, ← e4]
    simp only [State.modCtx, Fin.getElem_fin, State.modCore_self]; rfl

theorem EffectOf.wake_eq {s t : State} {c : CoreId} {x : CtxId} {to_ : Word} {pops : Nat} {vs : List Word} {u : Ctx}
    (h : EffectOf s t c x to_ pops vs u) : (t.ctx c x).wake = (s.ctx c x).wake := by
  obtain ⟨-, -, -, ⟨kept, -⟩, -⟩ := h
  rw [kept]

/-- SLEEP at the end of an instruction (R98, R228). -/
theorem EffectOf.sleeps {s t : State} {c : CoreId} {x : CtxId} {to_ : Word} {pops : Nat} {vs : List Word} {u : Ctx}
    (h : EffectOf s t c x to_ pops vs u) (hw : (s.ctx c x).wake = false) :
    EffectOf (s.setSt c x .sleep) (t.sleepNow c x) c x to_ pops vs u := by
  rw [State.sleepNow, if_neg (by rw [h.wake_eq, hw]; exact Bool.false_ne_true)]
  exact (h.setSt .sleep).count x 0x36

/-- A set wake flag ends SLEEP at once (R228). -/
theorem EffectOf.staysAwake {s t : State} {c : CoreId} {x : CtxId} {to_ : Word} {pops : Nat} {vs : List Word} {u : Ctx}
    (h : EffectOf s t c x to_ pops vs u) (hw : (s.ctx c x).wake = true) :
    EffectOf (s.modCtx c x fun t => { t with wake := false }) (t.sleepNow c x) c x to_ pops vs u := by
  rw [State.sleepNow, if_pos (h.wake_eq.trans hw)]
  exact h.clearWake

end Sys2Proof.Machine
end

