-- ==== Sys2Proof/Proofs/SideUnits.lean ====
section
/-! SUPPORT. Instructions of the side units: pins, stimulus ports, staging, timebases (R86, R90, R111 to R118). -/

set_option Elab.async false

namespace Sys2Proof.Machine

open Sys2Proof

/-! ## Values made of fields -/

/-- A field above what stands below its place. -/
theorem field_or {a b k : Nat} (h : b < 2 ^ k) : a <<< k ||| b = a * 2 ^ k + b := by
  rw [← Nat.shiftLeft_add_eq_or_of_lt h, Nat.shiftLeft_eq]

theorem fld_toNat {n : Nat} (v : BitVec n) (k : Nat) (h : v.toNat * 2 ^ k < 2 ^ 32) : (fld v k).toNat = v.toNat <<< k := by
  have hv : v.toNat < 2 ^ 32 := Nat.lt_of_le_of_lt (Nat.le_mul_of_pos_right _ (Nat.two_pow_pos k)) h
  simp only [fld, BitVec.toNat_shiftLeft, BitVec.toNat_setWidth, Nat.mod_eq_of_lt hv]
  rw [Nat.shiftLeft_eq, Nat.mod_eq_of_lt h]

theorem fld_zero {n : Nat} (v : BitVec n) : fld v 0 = v.setWidth 32 := by simp [fld]

/-- A field above a word that ends below its place. -/
theorem fld_or {n : Nat} (v : BitVec n) (k : Nat) (r : Word) (hr : r.toNat < 2 ^ k) (hv : v.toNat * 2 ^ k < 2 ^ 32) :
    (fld v k ||| r).toNat = v.toNat * 2 ^ k + r.toNat := by
  rw [BitVec.toNat_or, fld_toNat v k hv, field_or hr]

theorem fld_zero_toNat {n : Nat} (v : BitVec n) (h : n ≤ 32) : (fld v 0).toNat = v.toNat := by
  rw [fld_toNat v 0 (by rw [pow_zero, Nat.mul_one]; exact Nat.lt_of_lt_of_le v.isLt (Nat.pow_le_pow_right (by decide) h)), Nat.shiftLeft_zero]

theorem beamValue_runs {s : State} {t : TbId} (h : s.tbRuns t = true) : s.beamValue t =
    BitVec.ofNat 32 (t.val * 2 ^ 29 + s.transit.tb[t].slot % 2 ^ 13 * 2 ^ 16 + s.transit.tb[t].grain % 2 ^ 14) := by
  have grain := fld_zero_toNat (BitVec.ofNat 14 s.transit.tb[t].grain) (by decide)
  have slot := fld_or (BitVec.ofNat 13 s.transit.tb[t].slot) 16 (fld (BitVec.ofNat 14 s.transit.tb[t].grain) 0)
  have tb := fld_or (BitVec.ofNat 3 t.val) 29 (fld (BitVec.ofNat 13 s.transit.tb[t].slot) 16 ||| fld (BitVec.ofNat 14 s.transit.tb[t].grain) 0)
  simp only [BitVec.toNat_ofNat] at grain slot tb
  have ht := t.isLt
  apply BitVec.eq_of_toNat_eq
  simp only [State.beamValue, h, if_true, BitVec.or_assoc]
  rw [tb (by rw [slot] <;> omega) (by omega), slot (by omega) (by omega), grain, BitVec.toNat_ofNat]
  omega

theorem beamValue_waits {s : State} {t : TbId} (h : s.tbRuns t = false) : s.beamValue t = BitVec.ofNat 32 (t.val * 2 ^ 29 + 3 * 2 ^ 14) := by
  have two := fld_toNat (3#2) 14 (by decide)
  have tb := fld_or (BitVec.ofNat 3 t.val) 29 (fld (3#2) 14)
  simp only [BitVec.toNat_ofNat] at tb
  have ht := t.isLt
  apply BitVec.eq_of_toNat_eq
  simp only [State.beamValue, h, Bool.false_eq_true, if_false]
  rw [tb (by rw [two]; decide) (by omega), two, BitVec.toNat_ofNat]
  simp only [BitVec.toNat_ofNat, Nat.shiftLeft_eq]
  omega

theorem coreId_eq (s : State) (c : CoreId) (x : CtxId) :
    s.coreId c x = BitVec.ofNat 32 (x.val + 16 * c.val + 256 * s.ring.node.toNat) := by
  have ctx := fld_zero_toNat (BitVec.ofNat 4 x.val) (by decide)
  have core := fld_or (BitVec.ofNat 4 c.val) 4 (fld (BitVec.ofNat 4 x.val) 0)
  have node := fld_or s.ring.node 8 (fld (BitVec.ofNat 4 c.val) 4 ||| fld (BitVec.ofNat 4 x.val) 0)
  simp only [BitVec.toNat_ofNat] at ctx core
  have hx := x.isLt
  have hc := c.isLt
  have hn := s.ring.node.isLt
  apply BitVec.eq_of_toNat_eq
  rw [State.coreId, BitVec.or_comm, BitVec.or_comm (fld (BitVec.ofNat 4 x.val) 0), node (by rw [core] <;> omega) (by omega),
    core (by omega) (by omega), ctx, BitVec.toNat_ofNat]
  omega

/-! ## O15 -/

/-- An instruction that gives a value for the cell it takes. -/
theorem does_valueOf {s : State} {c : CoreId} {x : CtxId} {i : Instr} {e : Enc} {read : Word → State → Res Word} {v : Word}
    (hi : exec i s = s.simple c x e fun s =>
      let u := (s.ctx c x).cell 0
      (s.needPops c x 1 1).bind fun _ s => (read u s).bind fun v s => .ok none (s.replace c x 1 [v]))
    (hr : read ((s.ctx c x).cell 0) s = .ok v s) (h : Cells s c x 1) : Does s c x i e 1 [v] := by
  have room : (s.ctx c x).depth - 1 + 1 ≤ 8 := by have := h.1; have := h.2.1; omega
  have need : s.needPops c x 1 1 = .ok () s := needPops_cells h room
  intro ready
  rw [hi]
  exact simple_completes _ 1 [v] ready (by simp only [need, hr, Res.bind_ok]) h.1 room

/-- An instruction that pushes what it reads of the state. -/
theorem does_pushes {s : State} {c : CoreId} {x : CtxId} {i : Instr} {e : Enc} {vs : State → List Word}
    (hi : exec i s = s.simple c x e fun s => s.stackOp c x 0 [] 0 fun _ => vs s) (h : Cells s c x 0)
    (hd : (s.ctx c x).depth + (vs s).length ≤ 8) : Does s c x i e 0 (vs s) := by
  intro hr
  rw [hi]
  exact simple_completes _ 0 (vs s) hr (stackOp_cells (vs := fun _ => vs s) h (by simp) (by omega) (by omega)) (by omega) (by omega)

/-- Settles O15: nothing is outstanding, or the value of a pin, a group, a timebase, the core or the clock is pushed. -/
theorem sideUnitsRead : Obligations.SideUnitsRead := by
  intro s c x u
  have tb (t : TbId) (ht : u.toNat = t.val) :
      s.frameRead u = .ok (fld s.transit.tb[t].frame 0) s ∧ s.beamRead u = .ok (s.beamValue t) s := by
    have h8 : u.toNat < 8 := by have := t.isLt; omega
    obtain rfl : t = ⟨u.toNat, h8⟩ := Fin.ext ht.symm
    exact ⟨dif_pos h8, dif_pos h8⟩
  refine ⟨fun hl => ?_, fun hb => ?_, fun h => ⟨fun hu => ?_, fun hu => ?_, fun t ht => ⟨?_, fun run => ?_, fun run => ?_⟩⟩, fun h hd => ?_,
    fun h hd => ?_⟩
  · exact goes_always (body := fun r => if (r.ctx c x).longs.isEmpty then .ok none r else .wait r .fence) none rfl
      (if_pos (by rw [hl]; rfl)) rfl
  · have all : s.core[c].sb.all (fun e => e.ctx != x) = true := by simpa [List.all_eq_true] using hb
    exact goes_always (body := fun r => if r.core[c].sb.all (fun e => e.ctx != x) then .ok none r else .wait r .drain) none rfl
      (if_pos all) rfl
  · exact does_valueOf (read := fun u r => r.pinRead u) rfl (if_pos hu) h
  · exact does_valueOf (read := fun u r => r.pinGroup u) rfl ((if_pos hu).trans (by rw [bits_eq_ofNat])) h
  · exact does_valueOf (read := fun u r => r.frameRead u) rfl
      ((tb t ht).1.trans (by rw [fld_zero])) h
  · exact does_valueOf (read := fun u r => r.beamRead u) rfl
      ((tb t ht).2.trans (by rw [beamValue_runs run])) h
  · exact does_valueOf (read := fun u r => r.beamRead u) rfl
      ((tb t ht).2.trans (by rw [beamValue_waits run])) h
  · exact coreId_eq s c x ▸ does_pushes (vs := fun r => [r.coreId c x]) rfl h (by simpa using Nat.lt_succ_of_le hd)
  · have := does_pushes (i := .vtime c x) (e := { op := 0xFE, page := some 0x40 })
      (vs := fun r => [bits r.power.vt 0 32, fld (bits r.power.vt 32 16 : BitVec 16) 0]) rfl h
      (by simp only [List.length_cons, List.length_nil]; omega)
    have high : fld (bits s.power.vt 32 16 : BitVec 16) 0 = BitVec.ofNat 32 (s.power.vt.toNat / 2 ^ 32) := by
      apply BitVec.eq_of_toNat_eq
      rw [fld_zero_toNat _ (by decide), bits_eq_ofNat, BitVec.toNat_ofNat, BitVec.toNat_ofNat]
      have := s.power.vt.isLt
      omega
    rwa [high, bits_eq_ofNat, pow_zero, Nat.div_one] at this

/-! ## Instructions that take cells and act (O16 to O18) -/

theorem simple_faults {s : State} {c : CoreId} {x : CtxId} {i : Instr} {e : Enc} {body : State → Res (Option Word)} {code : Byte} {a : Word}
    (hi : exec i s = s.simple c x e body) (hb : body s = .fault s code a) : Faults s c x i e code a := by
  intro h
  rw [hi]
  exact issue_faults h (by simp only [hb]; rfl)

/-- An instruction that takes `n` cells and does something to a state whose stacks stay. -/
theorem does_act {s s' s1 : State} {c : CoreId} {x : CtxId} {i : Instr} {e : Enc} {body : State → Res (Option Word)} {act : State → Res Unit} {n : Nat}
    (hi : exec i s = s.simple c x e body)
    (hb : body s = (s.needPops c x n 0).bind fun _ r => (act r).bind fun _ s => .ok none (s.replace c x n [])) (h : Cells s c x n)
    (ha : act s = .ok () s1) (hc : s1.core = s'.core) (hr : RestKept s' s1) (hx : s'.ctx c x = s.ctx c x) : DoesTo s s' c x i e n [] := by
  intro ready
  have need : s.needPops c x n 0 = .ok () s := needPops_cells h (by have := h.2.1; omega)
  have body_ok : body s = .ok none (s1.replace c x n []) := by simp only [hb, need, ha, Res.bind_ok]
  rw [hi]
  obtain ⟨t, goes, effect⟩ := simple_effectTo (s' := s') (g := id) (pops := n) (vs := []) ready body_ok
    (by simp only [State.replace, State.modCtx, State.modCore, hc, id_eq]) (hr.trans (replace_rest ..)) (by rw [hx]) (.refl _)
    (by rw [hx]; exact fits_cells h)
  exact ⟨t, goes, effect.completed rfl rfl rfl⟩

theorem act_faults {s : State} {c : CoreId} {x : CtxId} {i : Instr} {e : Enc} {body : State → Res (Option Word)} {act : State → Res Unit} {n : Nat}
    {code : Byte} (hi : exec i s = s.simple c x e body)
    (hb : body s = (s.needPops c x n 0).bind fun _ r => (act r).bind fun _ s => .ok none (s.replace c x n [])) (h : Cells s c x n)
    (ha : act s = .fault s code 0) : Faults s c x i e code 0 := by
  have need : s.needPops c x n 0 = .ok () s := needPops_cells h (by have := h.2.1; omega)
  exact simple_faults hi (by rw [hb, need, Res.bind_ok, ha]; rfl)

/-- The write of pins that the core owns. -/
theorem pinPut_owned {s : State} {c : CoreId} (x : CtxId) {m d : BitVec 64} (h : m &&& ~~~s.gpio.own[c] = 0) :
    s.pinPut c x m d = .ok () ((s.modGpio fun g => { g with writes := g.writes ++ [(c, m, d)] }).count c x 0x3C) :=
  if_neg fun q => q h

theorem pinPut_other {s : State} {c : CoreId} (x : CtxId) {m d : BitVec 64} (h : m &&& ~~~s.gpio.own[c] ≠ 0) :
    s.pinPut c x m d = .fault s 0x0A 0 := if_pos h

/-- One pin is owned, or is not. -/
theorem pin_owned (own : BitVec 64) {k : Nat} (hk : k < 64) : (1#64 <<< k) &&& ~~~own = 0 ↔ own.getLsbD k = true := by
  constructor
  · intro h
    have bit := congrArg (fun v : BitVec 64 => v.getLsbD k) h
    simpa [hk] using bit
  · intro h
    apply BitVec.eq_of_getLsbD_eq
    intro j hj
    by_cases hjk : j = k
    · subst hjk; simp [h]
    · have : decide (j - k = 0) = false ∨ j < k := by simp; omega
      simp only [BitVec.getLsbD_and, BitVec.getLsbD_shiftLeft, BitVec.getLsbD_one]
      simp; omega

/-- Settles O16: ownership of the whole mask decides. -/
theorem pinWritesNeedOwnership : Obligations.PinWritesNeedOwnership := by
  intro s c x f put pin group
  have goes {i : Instr} {e : Enc} {body : State → Res (Option Word)} {n : Nat} {m d : BitVec 64} {act : State → Res Unit} (h : Cells s c x n)
      (hi : exec i s = s.simple c x e body) (ha : act s = s.pinPut c x m d)
      (hb : body s = (s.needPops c x n 0).bind fun _ r => (act r).bind fun _ s => .ok none (s.replace c x n [])) :
      (m &&& ~~~s.gpio.own[c] = 0 → DoesTo s (put m d) c x i e n []) ∧ (m &&& ~~~s.gpio.own[c] ≠ 0 → Faults s c x i e 0x0A 0) := by
    refine ⟨fun ho => does_act (s' := put m d) hi hb h (ha.trans (pinPut_owned x ho)) (State.count_core ..) (countN_rest ..) rfl, fun ho => act_faults hi hb h (ha.trans (pinPut_other x ho))⟩
  refine ⟨fun h hk => ?_, fun h hk => ?_⟩
  · obtain ⟨owned, other⟩ := goes (i := .pinw c x) (e := { op := 0x86 }) (m := pin) (d := if f 1 = 0 then 0 else pin)
      (act := fun r => r.pinWrite c x (f 1) (f 0)) h rfl (if_pos hk) rfl
    refine ⟨fun ho => owned ((pin_owned _ hk).mpr ho), fun ho => other fun q => ?_⟩
    rw [(pin_owned _ hk).mp q] at ho
    cases ho
  · exact goes (i := .pinwm c x) (e := { op := 0xFE, page := some 0x21 }) (act := fun r => r.pinWriteMask c x (f 2) (f 1) (f 0)) h rfl (if_pos hk) rfl

/-! ## Stimulus packets (R114, R479) -/

/-- Nothing leaves the FIFO and no DROP packet follows: its packets wait for a sink, and none was dropped or there is no room. -/
theorem traceSettle_waits {s : State} (hq : ∀ q ∈ s.dbg.fifo, s.dbg.taken q = false) (hd : s.dbg.dropped = 0 ∨ 64 ≤ s.dbg.fifo.length) :
    s.traceSettle = s := by
  have all : s.dbg.fifo.filter (fun p => !s.dbg.taken p) = s.dbg.fifo := List.filter_eq_self.mpr fun q h => by simp [hq q h]
  have none : ¬(s.dbg.dropped ≠ 0 ∧ s.dbg.fifo.length < 64) := by
    rintro ⟨h1, h2⟩
    rcases hd with h | h
    · exact h1 h
    · omega
  have noDrop : ∀ d : Debug, (if s.dbg.dropped ≠ 0 ∧ s.dbg.fifo.length < 64 then d else s.dbg) = s.dbg := fun _ => if_neg none
  simp only [State.traceSettle, all, noDrop]

/-- Which sinks have taken a packet depends on the sinks alone. -/
theorem taken_congr {d d' : Debug} (h : d'.sink = d.sink) (q : Packet) : d'.taken q = d.taken q := by simp only [Debug.taken, h]

/-- No sink has taken a packet that enters the FIFO. -/
theorem taken_fresh {d : Debug} (h : d.sink ≠ 0) (v : BitVec 128) : d.taken { bits := v, halt := false } = false := by
  have two : ∀ k : BitVec 2, k ≠ 0 → ((!k.getLsbD 0 || false) && (!k.getLsbD 1 || false)) = false := by decide
  exact two _ h

/-- A stimulus packet enters a FIFO that has room and that nothing leaves (R479). -/
theorem packet_enters {s : State} (low v : Word) (hs : s.dbg.sink ≠ 0) (h0 : s.dbg.dropped = 0)
    (hq : ∀ q ∈ s.dbg.fifo, s.dbg.taken q = false) (hl : s.dbg.fifo.length < 64) :
    s.packet false low v = s.modDbg fun d => { d with
      seq := d.seq + 1, fifo := d.fifo ++ [{ bits := packetBits low d.seq (s.stamp d.tsel) v, halt := false }] } := by
  refine (if_neg (by omega)).trans (traceSettle_waits (fun q hm => ?_) (.inl h0))
  have same : ∀ q, (s.modDbg fun d => d.enter false (packetBits low d.seq (s.stamp d.tsel) v)).dbg.taken q = s.dbg.taken q :=
    taken_congr rfl
  rw [same]
  rcases List.mem_append.mp (show q ∈ s.dbg.fifo ++ _ from hm) with hm | hm
  · exact hq q hm
  · rw [List.mem_singleton.mp hm]
    exact taken_fresh hs _

/-- A packet that is dropped while the FIFO is full. -/
theorem packet_dropped {s : State} (hq : ∀ q ∈ s.dbg.fifo, s.dbg.taken q = false) (hl : s.dbg.fifo.length = 64) :
    (s.modDbg fun d => { d with drop := satInc d.drop, dropped := satInc d.dropped }).traceSettle =
      s.modDbg fun d => { d with drop := satInc d.drop, dropped := satInc d.dropped } :=
  traceSettle_waits (fun q hm => hq q hm) (.inr hl.ge)

theorem stamp_count (s : State) (c : CoreId) (x : CtxId) (n : Nat) (k : BitVec 4) : (s.count c x n).stamp k = s.stamp k := by
  simp only [State.stamp, State.beamValue, State.tbRuns, State.count_transit, State.count_ports, State.count_power]
  rfl

theorem stimLow_eq {b : Byte} (hb : b.toNat < 32) (x : CtxId) (c : CoreId) :
    fld (bits b 0 5 : BitVec 5) 0 ||| fld (BitVec.ofNat 4 x.val) 5 ||| fld (BitVec.ofNat 4 c.val) 9 =
      BitVec.ofNat 32 (b.toNat + 32 * x.val + 512 * c.val) := by
  have port := fld_zero_toNat (bits b 0 5 : BitVec 5) (by decide)
  have ctx := fld_or (BitVec.ofNat 4 x.val) 5 (fld (bits b 0 5 : BitVec 5) 0)
  have core := fld_or (BitVec.ofNat 4 c.val) 9 (fld (BitVec.ofNat 4 x.val) 5 ||| fld (bits b 0 5 : BitVec 5) 0)
  rw [bits_eq_ofNat] at *
  simp only [BitVec.toNat_ofNat] at port ctx core
  have hx := x.isLt
  have hc := c.isLt
  apply BitVec.eq_of_toNat_eq
  rw [BitVec.or_comm, BitVec.or_comm (fld (BitVec.ofNat 5 _) 0), core (by rw [ctx] <;> omega) (by omega), ctx (by omega) (by omega), port,
    BitVec.toNat_ofNat]
  omega

theorem modDbg_core (s : State) (f : Debug → Debug) : (s.modDbg f).core = s.core := rfl

theorem RestKept.modDbg {s t : State} (h : RestKept s t) (f : Debug → Debug) : RestKept (s.modDbg f) (t.modDbg f) := by
  unfold RestKept at *
  rw [h]
  rfl

/-- STIM's port is traced for the context (R114). -/
def State.traced (s : State) (c : CoreId) (x : CtxId) (b : Byte) : Prop :=
  s.tracing = true ∧ s.dbg.trc[c].plo.toNat ≤ b.toNat ∧ b.toNat ≤ s.dbg.trc[c].phi.toNat ∧ s.dbg.trc[c].ctxm.getLsbD x.val = true

/-- The meaning of STIM, once its cell is there. -/
theorem stimWrite_cases {s : State} {c : CoreId} {x : CtxId} {b : Byte} (v : Word) (hb : b.toNat < 32) :
    (¬s.traced c x b → s.stimWrite c x (bits b 0 5) v = s.count c x 0x3A) ∧
    (s.traced c x b → s.dbg.trc[c].budget ≠ 0 ∧ 2 ^ s.dbg.trc[c].budget.toNat ≤ s.dbg.trc[c].spent →
      s.stimWrite c x (bits b 0 5) v =
        ((s.count c x 0x3A).modDbg fun d => { d with drop := satInc d.drop, dropped := satInc d.dropped }).traceSettle.count c x 0x3B) ∧
    (s.traced c x b → ¬(s.dbg.trc[c].budget ≠ 0 ∧ 2 ^ s.dbg.trc[c].budget.toNat ≤ s.dbg.trc[c].spent) → s.dbg.fifo.length < 64 →
      s.stimWrite c x (bits b 0 5) v =
        ((s.count c x 0x3A).packet false (BitVec.ofNat 32 (b.toNat + 32 * x.val + 512 * c.val)) v).modDbg fun d =>
          { d with trc := d.trc.set c { d.trc[c] with spent := d.trc[c].spent + 1 } }) := by
  have port : (bits b 0 5 : BitVec 5).toNat = b.toNat := by
    rw [bits_eq_ofNat, BitVec.toNat_ofNat]; omega
  have test : ((s.count c x 0x3A).tracing && decide ((s.count c x 0x3A).dbg.trc[c].plo.toNat ≤ (bits b 0 5 : BitVec 5).toNat) &&
      decide ((bits b 0 5 : BitVec 5).toNat ≤ (s.count c x 0x3A).dbg.trc[c].phi.toNat) && (s.count c x 0x3A).dbg.trc[c].ctxm.getLsbD x.val) = true ↔ s.traced c x b := by
    simp only [State.tracing, State.traced, port, State.count_dbg, State.count_power, Bool.and_eq_true, decide_eq_true_eq, and_assoc]
  refine ⟨fun h => ?_, fun h hs => ?_, fun h hs hl => ?_⟩
  · exact if_neg fun q => h (test.mp q)
  · refine (if_pos (test.mpr h)).trans (if_pos ?_)
    rw [State.count_dbg]; exact hs
  · refine ((if_pos (test.mpr h)).trans (if_neg ?_)).trans ?_
    · rw [State.count_dbg]; exact hs
    · have full : decide (64 ≤ (s.count c x 0x3A).dbg.fifo.length) = false := by simp only [State.count_dbg]; simp; omega
      simp only [full, stimLow_eq hb, Bool.false_eq_true, if_false]

/-- Settles O17: dropped untraced, dropped over budget, or sent. -/
theorem stimulusWrites : Obligations.StimulusWrites := by
  intro s c x b h e
  have need : s.needPops c x 1 0 = .ok () s := needPops_cells h (by have := h.2.1; omega)
  refine ⟨fun hb => ?_, ?_⟩
  · refine simple_faults (i := .stim c x b) rfl ?_
    exact (congrArg (fun q => Res.bind q _) need).trans (if_neg (by omega))
  intro hb k traced
  have act {s' s1 : State} (ha : s.stimWrite c x (bits b 0 5) ((s.ctx c x).cell 0) = s1) (hc : s1.core = s'.core) (hr : RestKept s' s1)
      (hx : s'.ctx c x = s.ctx c x) : DoesTo s s' c x (.stim c x b) e 1 [] := by
    refine does_act (act := fun r => .ok () (r.stimWrite c x (bits b 0 5) ((s.ctx c x).cell 0))) rfl ?_ h (congrArg (Res.ok ()) ha) hc hr hx
    exact congrArg (fun f : Unit → State → Res (Option Word) => (s.needPops c x 1 0).bind f) (funext fun _ => funext fun _ => if_pos hb)
  obtain ⟨none, spent, sent⟩ := stimWrite_cases (s := s) (c := c) (x := x) ((s.ctx c x).cell 0) hb
  refine ⟨fun ht => ?_, fun ht h0 h1 hl hq => ?_, fun ht hk hs h0 hq hl => ?_⟩
  · exact act (none ht) (State.count_core ..) (countN_rest ..) rfl
  · have write := spent ht ⟨h0, h1⟩
    rw [packet_dropped] at write
    · refine act (s' := s.modDbg fun d => { d with drop := satInc d.drop, dropped := satInc d.dropped }) write ?_
        ((RestKept.modDbg (countN_rest ..) _).trans (countN_rest ..)) rfl
      simp only [modDbg_core, State.count_core]
    all_goals simp only [State.count_dbg]
    · exact hq
    · exact hl
  · intro low
    have budget : ¬(s.dbg.trc[c].budget ≠ 0 ∧ 2 ^ s.dbg.trc[c].budget.toNat ≤ s.dbg.trc[c].spent) := by
      rintro ⟨q1, q2⟩
      rcases hk with hk | hk
      · exact q1 hk
      · exact absurd q2 (Nat.not_le.mpr hk)
    have write := sent ht budget hl
    rw [packet_enters] at write
    · refine act (s' := (s.modDbg fun d => { d with
          seq := d.seq + 1, fifo := d.fifo ++ [{ bits := packetBits low d.seq (s.stamp d.tsel) ((s.ctx c x).cell 0), halt := false }] }).modDbg fun d =>
            { d with trc := d.trc.set c { d.trc[c] with spent := d.trc[c].spent + 1 } }) write ?_ ?_ rfl
      · simp only [modDbg_core, State.count_core]
      · simp only [stamp_count]
        exact RestKept.modDbg (RestKept.modDbg (countN_rest ..) _) _
    all_goals simp only [State.count_dbg]
    · exact hs
    · exact h0
    · exact hq
    · exact hl

/-! ## Staging (R117, R118, R203, R204) -/

/-- The timebase that a when-word names. -/
theorem whenTb_eq (w : Word) : (bits w 29 3 : BitVec 3).toFin = (⟨w.toNat / 2 ^ 29, by omega⟩ : TbId) := by
  apply Fin.ext
  rw [bits_eq_ofNat]
  simp only [BitVec.toFin_ofNat, Fin.val_ofNat]
  omega

theorem bits_zero {m : Nat} (v : BitVec m) (n : Nat) : bits v 0 n = BitVec.ofNat n v.toNat := by
  rw [bits_eq_ofNat, pow_zero, Nat.div_one]

/-- An entry that has been checked, as it is staged (R204). -/
def stagedEntry (s : State) (when_ : Word) (target : BitVec 20) (data : Word) (be tag mode : BitVec 4) (lane : Bool) : Staged :=
  let tb : TbId := ⟨when_.toNat / 2 ^ 29, by omega⟩
  { tb := tb, slot := BitVec.ofNat 13 (when_.toNat / 2 ^ 16), cls := BitVec.ofNat 2 (when_.toNat / 2 ^ 14),
    e := { target := target, data := data, be := be, grain := BitVec.ofNat 14 when_.toNat, tag := tag, mode := mode },
    period := s.transit.tb[tb].period, lane := lane }

theorem mkStaged_eq (s : State) (when_ : Word) (be tag mode : BitVec 4) (target : BitVec 20) (data : Word) (lane : Bool) :
    s.mkStaged when_ be tag mode target data lane = stagedEntry s when_ target data be tag mode lane := by
  simp only [State.mkStaged, stagedEntry, whenTb_eq]
  simp only [bits_eq_ofNat, pow_zero, Nat.div_one]

/-- The entry joins the core's staging FIFO (R204). -/
def State.stagedIn (s : State) (c : CoreId) (g : Staged) : State := s.modCore c fun k => { k with staging := k.staging ++ [g] }

theorem ctx_stagedIn (s : State) (c : CoreId) (g : Staged) (x : CtxId) : (s.stagedIn c g).ctx c x = s.ctx c x := ctx_modCore ..

theorem stageEntry_free {s : State} {c : CoreId} {x : CtxId} (g : Staged) (h : s.core[c].stageFree x = true) :
    s.stageEntry c x g = .ok () ((s.stagedIn c g).count c x 0x33) := if_pos h

/-- TRANSIT (R203, R204). -/
theorem stageTransit_cases {s : State} {c : CoreId} {x : CtxId} (data where_ when_ : Word) (h : s.core[c].stageFree x = true) :
    let be := BitVec.ofNat 4 (where_.toNat / 2 ^ 20)
    let tag := BitVec.ofNat 4 (where_.toNat / 2 ^ 24)
    let mode := BitVec.ofNat 4 (where_.toNat / 2 ^ 28)
    let target := BitVec.ofNat 20 where_.toNat
    let ok := s.transitOk (if (s.ctx c x).priv = 0 then some c else none) when_ be tag mode target
    (ok = true → s.stageTransit c x data where_ when_ =
      .ok () ((s.stagedIn c (stagedEntry s when_ target data be tag mode (s.ctx c x).cntd)).count c x 0x33)) ∧
    (ok = false → s.stageTransit c x data where_ when_ = .fault s fcRange 0) := by
  intro be tag mode target ok
  have form : s.stageTransit c x data where_ when_ =
      if !ok then .fault s fcRange 0 else s.stageEntry c x (stagedEntry s when_ target data be tag mode (s.ctx c x).cntd) := by
    simp only [State.stageTransit, mkStaged_eq, bits_eq_ofNat, pow_zero, Nat.div_one]
    rfl
  refine ⟨fun hok => ?_, fun hok => ?_⟩
  · rw [form, hok]
    exact stageEntry_free _ h
  · rw [form, hok]; rfl

/-- TWAIT of a class 3 entry that is accepted (R118). -/
theorem stageWake_ok {s : State} {c : CoreId} {x : CtxId} (when_ tag : Word) (h : s.core[c].stageFree x = true)
    (h3 : when_.toNat / 2 ^ 14 % 4 = 3)
    (hok : s.transitOk none when_ 0 (BitVec.ofNat 4 tag.toNat) 1 (BitVec.ofNat 20 (16 * c.val + x.val)) = true) :
    s.stageWake c x when_ tag = .ok () (((s.stagedIn c
      (stagedEntry s when_ (BitVec.ofNat 20 (16 * c.val + x.val)) 0 0 (BitVec.ofNat 4 tag.toNat) 1 (s.ctx c x).cntd)).count c x 0x33).modCtx c x
        fun t => { t with wake := false }) := by
  have cls : (bits when_ 14 2 : BitVec 2) = 3 := by
    rw [bits_eq_ofNat]
    apply BitVec.eq_of_toNat_eq
    exact (BitVec.toNat_ofNat ..).trans h3
  simp only [State.stageWake, cls, bits_zero, wakeTarget, hok, mkStaged_eq, ne_eq, not_true, Bool.not_true, Bool.false_eq_true, or_self, if_false,
    stageEntry_free _ h, Res.bind_ok]

theorem modCtx_core_congr {s t : State} (h : s.core = t.core) (c : CoreId) (x : CtxId) (f : Ctx → Ctx) :
    (s.modCtx c x f).core = (t.modCtx c x f).core := by simp only [State.modCtx, State.modCore, h]

/-- TWAIT, once its entry is staged: the wake flag is clear, and the thread sleeps. -/
theorem twait_sleeps {s s1 : State} {c : CoreId} {x : CtxId} (hx : x ≠ fCtx) (h : Cells s c x 2)
    (stage : s.stageWake c x ((s.ctx c x).cell 1) ((s.ctx c x).cell 0) =
      .ok () ((s1.count c x 0x33).modCtx c x fun t => { t with wake := false }))
    (own : s1.ctx c x = s.ctx c x) :
    DoesTo s ((s1.modCtx c x fun t => { t with wake := false }).setSt c x .sleep) c x (.twait c x) { op := 0xFE, page := some 0x30 } 2 [] := by
  intro ready
  have need : s.needPops c x 2 0 = .ok () s := needPops_cells h (by have := h.2.1; omega)
  let body (r : State) : Res Done :=
    if x = fCtx then .fault r fcIllegal 0
    else (r.needPops c x 2 0).bind fun _ q => (q.stageWake c x ((r.ctx c x).cell 1) ((r.ctx c x).cell 0)).bind fun _ q =>
      .ok { late := fun q => q.sleepNow c x } (q.replace c x 2 [])
  have runs : body s = .ok { flow := flowOf none, late := fun q => q.sleepNow c x }
      (((s1.count c x 0x33).modCtx c x fun t => { t with wake := false }).replace c x 2 []) := by
    simp only [body, if_neg hx, need, stage, Res.bind_ok]
    rfl
  obtain ⟨t, goes, effect⟩ := issue_effect (s' := s1.modCtx c x fun t => { t with wake := false }) (g := id) (pops := 2) (vs := []) ready runs
    (modCtx_core_congr (modCtx_core_congr (State.count_core ..) ..) ..)
    (((countN_rest ..).both (modCore_rest ..) (modCore_rest ..)).trans (replace_rest ..))
    (by rw [State.ctx_modCtx, own]) (.refl _) (by rw [State.ctx_modCtx, own]; exact fits_cells h)
  refine ⟨_, goes, (effect.sleeps (by rw [State.ctx_modCtx])).completed ?_ ?_ ?_⟩ <;> rw [ctx_setSt, id]

/-- Settles O18: staged where the checks pass; TWAIT then sleeps. -/
theorem transitsStage : Obligations.TransitsStage := by
  intro s c x u f t staged entry free
  refine ⟨fun h => ?_, fun h hx => ?_⟩
  · obtain ⟨ok, bad⟩ := stageTransit_cases (f 2) (f 1) (f 0) free
    refine ⟨fun hok => ?_, fun hok => ?_⟩
    · exact does_act (act := fun r => r.stageTransit c x (f 2) (f 1) (f 0)) rfl rfl h (ok hok) (State.count_core ..) (countN_rest ..)
        (ctx_stagedIn ..)
    · exact act_faults (act := fun r => r.stageTransit c x (f 2) (f 1) (f 0)) rfl rfl h (bad hok)
  · intro when_ tb me tag h3 hok ready
    exact twait_sleeps hx h (stageWake_ok when_ (f 0) free h3 hok) (ctx_stagedIn ..) ready

end Sys2Proof.Machine
end

