-- ==== Sys2Proof/Proofs/System.lean ====
section
/-! SUPPORT. SYS, RETS, RETI, SLEEP and YIELD (R31 to R37, R98, R124, R228, R333, R334). -/

set_option Elab.async false

namespace Sys2Proof.Machine

open Sys2Proof

/-! ## The return cache beside other changes of a context -/

/-- A change of a context that has nothing to do with its return cache. -/
def OffReturns (f : Ctx → Ctx) : Prop :=
  ∀ (u : Ctx) (a : Vector Word 16) (b : Vector GrpTag 2) (r : Fin 2),
    f { u with rstk := a, rtag := b, rtop := r } = { f u with rstk := a, rtag := b, rtop := r }

theorem offReturns_priv (p : BitVec 2) : OffReturns fun u => { u with priv := p } := fun _ _ _ _ => rfl

theorem offReturns_privAwake (p : BitVec 2) : OffReturns fun u => { u with priv := p, wake := false } := fun _ _ _ _ => rfl

theorem Holds.congr {x : CtxId} {u w : Ctx} {l : List Word} (h : Holds x u l) (h1 : w.rstk = u.rstk) (h2 : w.rtag = u.rtag) (h3 : w.rtop = u.rtop) :
    Holds x w l := by
  obtain ⟨l1, l2, l3⟩ := h
  refine ⟨(returns_congr h1 h2 h3).trans l1, (groupsOk_congr h2).mpr l2, fun q => ?_⟩
  simp only [h2, h3]; exact l3 q

/-- The return cache of `g u`, with what else there is of `u`. -/
def Ctx.returnsOf (u v : Ctx) : Ctx := { u with rstk := v.rstk, rtag := v.rtag, rtop := v.rtop }

theorem returnsOf_only (u v : Ctx) : ReturnsOnly u (u.returnsOf v) := rfl

theorem holds_returnsOf {x : CtxId} {v : Ctx} {l : List Word} (u : Ctx) (h : Holds x v l) : Holds x (u.returnsOf v) l := h.congr rfl rfl rfl

theorem OffReturns.after {f g : Ctx → Ctx} (hf : OffReturns f) {u : Ctx} (hg : ReturnsOnly u (g u)) : f (g u) = (f u).returnsOf (g u) := by
  conv_lhs => rw [hg]
  exact hf u _ _ _

theorem modCtx_off (s : State) (c : CoreId) (x : CtxId) {f g : Ctx → Ctx} (hf : OffReturns f) (hg : ReturnsOnly (s.ctx c x) (g (s.ctx c x))) :
    (s.modCtx c x g).modCtx c x f = (s.modCtx c x f).modCtx c x fun u => u.returnsOf (g (s.ctx c x)) := by
  rw [modCtx_modCtx, modCtx_modCtx]
  exact modCtx_congr _ _ _ _ _ (hf.after hg)

/-- An instruction that changes its return cache by `g` and then its context by `f`. -/
theorem simple_returnsTo {s : State} {c : CoreId} {x : CtxId} {i : Instr} {e : Enc} {body : State → Res (Option Word)} {to_ : Word} {f g : Ctx → Ctx}
    {l : List Word} (hi : exec i s = s.simple c x e body) (hb : body s = .ok (some to_) ((s.modCtx c x g).modCtx c x f)) (hf : OffReturns f)
    (hm : (f (s.ctx c x)).moved = (s.ctx c x).moved) (hg : ReturnsOnly (s.ctx c x) (g (s.ctx c x))) (hl : Holds x (g (s.ctx c x)) l) :
    GoesRTo s (s.modCtx c x f) c x i e to_ 0 [] l := by
  intro ready
  rw [modCtx_off _ _ _ hf hg] at hb
  have own : (s.modCtx c x f).ctx c x = f (s.ctx c x) := State.ctx_modCtx ..
  obtain ⟨t, goes, effect⟩ := simple_effectTo (s' := s.modCtx c x f) (g := fun u => u.returnsOf (g (s.ctx c x))) (pops := 0) (vs := []) ready hb
    (noCells_core ..) (modCore_rest ..) (by rw [own]; exact hm) (returnsOf_only ..) (fits_none _)
  exact ⟨t, hi ▸ goes, effect.completedR (holds_returnsOf _ hl)⟩

/-! ## SYS (R36, R333) -/

/-- There is room for one entry less after a push. -/
theorem roomFor_pushed {u : Ctx} {x : CtxId} {n : Nat} (v : Word)
    (h : u.rtag[u.rtop].count.toNat + (n + 1) ≤ 8 ∨ (x ≠ fCtx ∧ n + 1 ≤ 8 ∧ u.rtag[rOther u.rtop].live = false)) :
    (u.pushed v).rtag[(u.pushed v).rtop].count.toNat + n ≤ 8 ∨ (x ≠ fCtx ∧ n ≤ 8 ∧ (u.pushed v).rtag[rOther (u.pushed v).rtop].live = false) := by
  by_cases h8 : u.rtag[u.rtop].count.toNat < 8
  · have put : u.pushed v = u.rput u.rtop u.rtag[u.rtop].count.toNat v := if_pos h8
    rcases h with h | ⟨hx, hn, live⟩
    · left
      simp only [put, Ctx.rput, Fin.getElem_fin, rtag_set, if_true, BitVec.toNat_ofNat]
      simp only [Fin.getElem_fin] at h
      omega
    · refine .inr ⟨hx, by omega, ?_⟩
      simp only [put, Ctx.rput, Fin.getElem_fin, rtag_set, if_neg (rOther_ne _)]
      exact live
  · have put : u.pushed v = u.rput (rOther u.rtop) 0 v := if_neg h8
    rcases h with h | ⟨hx, hn, live⟩
    · omega
    · left
      simp only [put, Ctx.rput, Fin.getElem_fin, rtag_set, if_true, BitVec.toNat_ofNat]
      omega

/-- Two pushes that find room. -/
theorem rpush_two {s : State} {c : CoreId} {x : CtxId} {l : List Word} (a w : Word) (hl : Returns s c x l) (hroom : RoomFor s c x 2) :
    s.rpush c x a = .ok () (s.modCtx c x fun u => u.pushed a) ∧
    (s.modCtx c x fun u => u.pushed a).rpush c x w = .ok () (s.modCtx c x fun u => (u.pushed a).pushed w) ∧
    Holds x (((s.ctx c x).pushed a).pushed w) (l ++ [a, w]) ∧ ReturnsOnly (s.ctx c x) (((s.ctx c x).pushed a).pushed w) := by
  have room1 : RoomFor s c x 1 := by
    rcases hroom with h | ⟨h1, h2, h3⟩
    · exact .inl (by omega)
    · exact .inr ⟨h1, by omega, h3⟩
  have own : (s.modCtx c x fun u => u.pushed a).ctx c x = (s.ctx c x).pushed a := State.ctx_modCtx ..
  have room2 : RoomFor (s.modCtx c x fun u => u.pushed a) c x 1 := by
    simp only [RoomFor, own]; exact roomFor_pushed (n := 1) a hroom
  have once : Returns (s.modCtx c x fun u => u.pushed a) c x (l ++ [a]) := by
    simp only [Returns, own]; exact pushed_holds a hl room1
  have twice := pushed_holds w once room2
  rw [own, List.append_assoc] at twice
  refine ⟨rpush_room _ _ _ _ room1, ?_, twice, (pushed_only ..).trans (pushed_only ..)⟩
  rw [rpush_room _ _ _ _ room2, modCtx_modCtx]

theorem statusWord_eq (p : BitVec 2) (active : Bool) : fld p 0 ||| flag active 2 = BitVec.ofNat 32 (p.toNat + if active then 4 else 0) := by
  revert p active; decide

theorem sysEntry_eq (k : Core) (n : Byte) : k.sysEntry n =
    (if n.toNat < 240 then k.sysBase + BitVec.ofNat 32 (16 * n.toNat) else k.secBase + BitVec.ofNat 32 (16 * (n.toNat - 240)),
     if n.toNat < 240 then 1 else 3) := by
  unfold Core.sysEntry
  split <;> rfl

theorem sys_enters {s : State} {c : CoreId} {x : CtxId} {l : List Word} (n : Byte) (hl : Returns s c x l) (hroom : RoomFor s c x 2) :
    GoesRTo s (s.modCtx c x fun u => { u with priv := (s.core[c].sysEntry n).2 }) c x (.sys c x n) { op := 0x9B, opnd := n.setWidth 32, width := 1 }
      (s.core[c].sysEntry n).1 0 [] (l ++ [after s c x 2, fld (s.ctx c x).priv 0 ||| flag s.core[c].active 2]) := by
  obtain ⟨push1, push2, holds, only⟩ := rpush_two (after s c x 2) (fld (s.ctx c x).priv 0 ||| flag s.core[c].active 2) hl hroom
  refine simple_returnsTo (g := fun u => (u.pushed (after s c x 2)).pushed (fld (s.ctx c x).priv 0 ||| flag s.core[c].active 2)) rfl ?_
    (offReturns_priv _) rfl only holds
  have base : ∀ f : Ctx → Ctx, (s.modCtx c x f).core[c].sysEntry n = s.core[c].sysEntry n := fun f => by
    simp only [State.modCtx, Fin.getElem_fin, State.modCore_self]; rfl
  have npc : s.npc c x 2 = after s c x 2 := rfl
  have len : ({ op := 0x9B, opnd := n.setWidth 32, width := 1 } : Enc).len = 2 := rfl
  simp only [len, npc, push1, push2, Res.bind_ok, base]

/-! ## RETS and RETI in a thread (R36, R37, R333) -/

/-- Two pops of entries that are in the cache. -/
theorem rpop2_present {s : State} {c : CoreId} {x : CtxId} {l : List Word} {a w : Word} (hl : Returns s c x (l ++ [a, w])) :
    s.rpop2 c x = .ok (w, a) (s.modCtx c x fun u => u.popped.popped) ∧ Holds x (s.ctx c x).popped.popped l ∧
      ReturnsOnly (s.ctx c x) (s.ctx c x).popped.popped := by
  have hl2 : Returns s c x ((l ++ [a]) ++ [w]) := by rw [List.append_assoc]; exact hl
  have own : (s.modCtx c x Ctx.popped).ctx c x = (s.ctx c x).popped := State.ctx_modCtx ..
  have once : Returns (s.modCtx c x Ctx.popped) c x (l ++ [a]) := by
    simp only [Returns, own]; exact popped_holds hl2
  have twice := popped_holds once
  rw [own] at twice
  refine ⟨?_, twice, (popped_only _).trans (popped_only _)⟩
  have first := (rpop_present s c x _ w hl2).1
  have second := (rpop_present _ c x _ a once).1
  simp only [State.rpop2, first, second, Res.bind_ok, modCtx_modCtx]

theorem bits_low2 (w : Word) : (bits w 0 2 : BitVec 2) = w.setWidth 2 := by simp [bits]

theorem privOk_iff (w : Word) (now : BitVec 2) : privOk w now = true ↔ w.setWidth 2 ≠ (2 : BitVec 2) ∧ (w.setWidth 2 : BitVec 2).toNat ≤ now.toNat := by
  simp only [privOk, bits_low2, Bool.and_eq_true, bne_iff_ne, decide_eq_true_eq]

/-- What an instruction did to its return cache before it faulted is undone (R83). -/
theorem undo_returns {s : State} {c : CoreId} {x : CtxId} {g : Ctx → Ctx} (hg : ReturnsOnly (s.ctx c x) (g (s.ctx c x))) :
    (s.modCtx c x g).undo s c x = s.undo s c x := by
  unfold ReturnsOnly at hg
  have fields : (g (s.ctx c x)).fbuf = (s.ctx c x).fbuf ∧ (g (s.ctx c x)).rsv = (s.ctx c x).rsv ∧ (g (s.ctx c x)).served = (s.ctx c x).served ∧
      (g (s.ctx c x)).ahead = (s.ctx c x).ahead ∧ (g (s.ctx c x)).moved = (s.ctx c x).moved ∧
      (g (s.ctx c x)).spillKind = (s.ctx c x).spillKind := by
    rw [hg]; exact ⟨rfl, rfl, rfl, rfl, rfl, rfl⟩
  obtain ⟨e1, e2, e3, e4, e5, e6⟩ := fields
  simp only [State.undo, modCtx_modCtx]
  congr 1
  exact modCtx_congr _ _ _ _ _ (by simp only [e1, e2, e3, e4, e5, e6])

/-- A precise fault after pops. -/
theorem issue_faultsPopped {s : State} {c : CoreId} {x : CtxId} {e : Enc} {body : State → Res Done} {g : Ctx → Ctx} {code : Byte} {a : Word}
    (h : Ready s c x e) (hg : ReturnsOnly (s.ctx c x) (g (s.ctx c x))) (hb : body s = .fault (s.modCtx c x g) code a) :
    ∃ t, s.issue c x e body = .next t ∧ TookFault s t c x code a false := by
  have same : s.issue c x e body = s.issue c x e fun r => .fault r code a := by
    obtain ⟨-, -, inSpill, -⟩ := h.1
    simp only [issue_ready _ h, State.runBody, hb, Res.state, inSpill, State.ctx_modCtx, Option.isNone_none, Bool.true_and, State.conclude,
      Bool.false_eq_true, if_false, undo_returns hg]
    have kept : (g (s.ctx c x)).moved = none := by
      unfold ReturnsOnly at hg
      rw [hg]; exact inSpill
    simp only [kept, Option.isSome_none, Bool.false_eq_true, if_false]
  rw [same]
  exact issue_faults h rfl

/-- RETS, once its entries are popped. -/
def retsBody (c : CoreId) (x : CtxId) (s : State) : Res (Option Word) :=
  (s.rpop2 c x).bind fun p r =>
    if privOk p.1 (s.ctx c x).priv then .ok (some p.2) (r.modCtx c x fun t => { t with priv := bits p.1 0 2 }) else .fault r fcPriv 0

theorem exec_rets (c : CoreId) (x : CtxId) (s : State) : exec (.rets c x) s = s.simple c x { op := 0x9C } (retsBody c x) := rfl

theorem rets_returns {s : State} {c : CoreId} {x : CtxId} {l : List Word} {a w : Word} (hl : Returns s c x (l ++ [a, w]))
    (ok : privOk w (s.ctx c x).priv = true) :
    GoesRTo s (s.modCtx c x fun u => { u with priv := w.setWidth 2 }) c x (.rets c x) { op := 0x9C } a 0 [] l := by
  obtain ⟨pops, holds, only⟩ := rpop2_present hl
  refine simple_returnsTo (g := fun u => u.popped.popped) (exec_rets c x s) ?_ (offReturns_priv _) rfl only holds
  simp only [retsBody, pops, Res.bind_ok, ok, if_true, bits_low2]

theorem rets_refused {s : State} {c : CoreId} {x : CtxId} {l : List Word} {a w : Word} (hl : Returns s c x (l ++ [a, w]))
    (bad : privOk w (s.ctx c x).priv = false) : Faults s c x (.rets c x) { op := 0x9C } 0x02 0 := by
  obtain ⟨pops, -, only⟩ := rpop2_present hl
  intro ready
  rw [exec_rets]
  refine issue_faultsPopped (g := fun u => u.popped.popped) ready only ?_
  simp only [retsBody, pops, Res.bind_ok, bad, Bool.false_eq_true, if_false]
  rfl

/-- RETI's meaning. -/
def retiBody (c : CoreId) (x : CtxId) (s : State) : Res Done :=
  if x = fCtx then (s.rpop2 c x).bind fun _ s => .ok { late := fun s => s.fastExit c } s else s.retiThread c x

theorem exec_reti (c : CoreId) (x : CtxId) (s : State) : exec (.reti c x) s = s.issue c x { op := 0x9D } (retiBody c x) := rfl

/-- The thread after RETI's pops, with the privilege and the core's mark of the handler that the status word gives. -/
def State.leftHandler (s : State) (c : CoreId) (x : CtxId) (w : Word) : State :=
  (s.modCtx c x fun u => { u with priv := w.setWidth 2 }).modCore c fun k => { k with active := w.getLsbD 2 }

theorem ctx_leftHandler (s : State) (c : CoreId) (x : CtxId) (w : Word) :
    (s.leftHandler c x w).ctx c x = { s.ctx c x with priv := w.setWidth 2 } := by
  rw [State.leftHandler, ctx_modCore]
  exact State.ctx_modCtx ..

theorem leftHandler_popped {s : State} {c : CoreId} {x : CtxId} (w : Word) {l : List Word} {a : Word} (hl : Returns s c x (l ++ [a, w])) :
    ((s.modCtx c x fun u => u.popped.popped).modCtx c x fun t => { t with priv := w.setWidth 2 }).modCore c
      (fun k => { k with active := w.getLsbD 2 }) = (s.leftHandler c x w).modCtx c x fun u => u.returnsOf (s.ctx c x).popped.popped := by
  obtain ⟨-, -, only⟩ := rpop2_present hl
  rw [modCtx_off s c x (g := fun u => u.popped.popped) (offReturns_priv (w.setWidth 2)) only]
  simp only [State.leftHandler, State.modCtx, State.modCore, Core.modCtx, Fin.getElem_fin, Vector.getElem_set_self, Vector.set_set]

/-- RETI in a thread: both entries are popped, and the thread may sleep at the end. -/
theorem retiBody_leaves {s : State} {c : CoreId} {x : CtxId} {l : List Word} {a w : Word} (hl : Returns s c x (l ++ [a, w])) (hx : x ≠ fCtx)
    (hp : (s.ctx c x).priv ≠ 0) (hc : s.chains c x = false) (ok : privOk w (s.ctx c x).priv = true) :
    retiBody c x s = .ok { flow := flowOf (some a), late := if w.getLsbD 4 then fun s => s.sleepNow c x else Late.none }
      ((s.leftHandler c x w).modCtx c x fun u => u.returnsOf (s.ctx c x).popped.popped) := by
  rw [← leftHandler_popped w hl]
  simp only [retiBody, if_neg hx, State.retiThread, if_neg hp, hc, Bool.false_eq_true, if_false, (rpop2_present hl).1, Res.bind_ok, ok, if_true,
    bits_low2]
  rfl

/-- RETI in a thread, before its last change. -/
theorem reti_effect {s : State} {c : CoreId} {x : CtxId} {l : List Word} {a w : Word} (hl : Returns s c x (l ++ [a, w])) (hx : x ≠ fCtx)
    (hp : (s.ctx c x).priv ≠ 0) (hc : s.chains c x = false) (ok : privOk w (s.ctx c x).priv = true) (ready : Ready s c x { op := 0x9D }) :
    ∃ t u, exec (.reti c x) s = .next ((if w.getLsbD 4 then fun s : State => s.sleepNow c x else Late.none) t) ∧ Holds x u l ∧
      EffectOf (s.leftHandler c x w) t c x a 0 [] u := by
  obtain ⟨-, holds, -⟩ := rpop2_present hl
  have moved : ((s.leftHandler c x w).ctx c x).moved = (s.ctx c x).moved := by rw [ctx_leftHandler]
  obtain ⟨t, goes, effect⟩ := issue_effect (s' := s.leftHandler c x w) (g := fun u => u.returnsOf (s.ctx c x).popped.popped) (pops := 0) (vs := [])
    ready (retiBody_leaves hl hx hp hc ok) (noCells_core ..) (modCore_rest ..) moved (returnsOf_only ..) (fits_none _)
  exact ⟨t, _, (exec_reti c x s).trans goes, holds_returnsOf _ holds, effect⟩

/-- RETI in a thread whose privilege may not go back as asked. -/
theorem reti_refused {s : State} {c : CoreId} {x : CtxId} {l : List Word} {a w : Word} (hl : Returns s c x (l ++ [a, w])) (hx : x ≠ fCtx)
    (hp : (s.ctx c x).priv ≠ 0) (hc : s.chains c x = false) (bad : privOk w (s.ctx c x).priv = false) :
    Faults s c x (.reti c x) { op := 0x9D } 0x02 0 := by
  obtain ⟨pops, -, only⟩ := rpop2_present hl
  intro ready
  rw [exec_reti]
  refine issue_faultsPopped (g := fun u => u.popped.popped) ready only ?_
  simp only [retiBody, if_neg hx, State.retiThread, if_neg hp, hc, Bool.false_eq_true, if_false, pops, Res.bind_ok, bad]
  rfl

/-- Where the wake flag clears too. -/
theorem leftHandler_awake (s : State) (c : CoreId) (x : CtxId) (w : Word) :
    ((s.leftHandler c x w).modCtx c x fun t => { t with wake := false }) =
      (s.modCtx c x fun u => { u with priv := w.setWidth 2, wake := false }).modCore c fun k => { k with active := w.getLsbD 2 } := by
  simp only [State.leftHandler, State.modCtx, State.modCore, Core.modCtx, Fin.getElem_fin, Vector.getElem_set_self, Vector.set_set]

/-- Settles O19: SYS by two pushes, RETS and RETI by two pops. -/
theorem systemCallsReturn : Obligations.SystemCallsReturn := by
  intro s c x l a w u p ok
  have okOf : ok → privOk w (s.ctx c x).priv = true := (privOk_iff w _).mpr
  have badOf : ¬ok → privOk w (s.ctx c x).priv = false := fun h => Bool.eq_false_iff.mpr fun q => h ((privOk_iff w _).mp q)
  refine ⟨fun n hl hroom => ?_, fun hl => ⟨fun h => rets_returns hl (okOf h), fun h => rets_refused hl (badOf h), fun hx hp => ?_,
    fun hx hp hc => ⟨fun h hw ready => ?_, fun h hw => ⟨fun wake ready => ?_, fun wake ready => ?_⟩, fun h => reti_refused hl hx hp hc (badOf h)⟩⟩⟩
  · have enters := sys_enters n hl hroom
    rw [sysEntry_eq, statusWord_eq] at enters
    exact enters
  · intro ready
    rw [exec_reti]
    exact issue_faults ready ((if_neg hx).trans (if_pos hp))
  · obtain ⟨t, v, goes, holds, effect⟩ := reti_effect hl hx hp hc (okOf h) ready
    simp only [hw, Bool.false_eq_true, if_false] at goes
    exact ⟨t, goes, effect.completedR holds⟩
  · obtain ⟨t, v, goes, holds, effect⟩ := reti_effect hl hx hp hc (okOf h) ready
    simp only [hw, if_true] at goes
    exact ⟨_, goes, (effect.sleeps (by rw [ctx_leftHandler]; exact wake)).completedR holds⟩
  · obtain ⟨t, v, goes, holds, effect⟩ := reti_effect hl hx hp hc (okOf h) ready
    simp only [hw, if_true] at goes
    have awake := effect.staysAwake (by rw [ctx_leftHandler]; exact wake)
    rw [leftHandler_awake] at awake
    exact ⟨_, goes, awake.completedR holds⟩

/-! ## RETI in F (R334) -/

theorem fastNext_congr {s t : State} (h : RestKept s t) (c : CoreId) : t.fastNext c = s.fastNext c := by
  have ev : t.ev = s.ev := by rw [h]
  simp only [State.fastNext, State.fastOf, ev]

/-- Settles O20: two pops, and F is IDLE at the end. -/
theorem fastHandlerExits : Obligations.FastHandlerExits := by
  intro s c l a w hl none ready
  obtain ⟨pops, holds, only⟩ := rpop2_present hl
  have body : retiBody c fCtx s = .ok { flow := flowOf Option.none, late := fun s => s.fastExit c } (s.modCtx c fCtx fun u => u.popped.popped) := by
    simp only [retiBody, if_true, pops, Res.bind_ok]
    rfl
  obtain ⟨t, goes, effect⟩ := issue_effect (s' := s) (g := fun u => u.popped.popped) (pops := 0) (vs := []) ready body (noCells_core ..)
    (modCore_rest ..) rfl only (fits_none _)
  obtain ⟨-, -, -, -, -, rest⟩ := id effect
  have exits : t.fastExit c = t.setSt c fCtx .idle := by
    rw [State.fastExit, fastNext_congr rest, none]
  exact ⟨_, (exec_reti c fCtx s).trans (goes.trans (by rw [exits])), (effect.setSt .idle).completedR holds⟩

/-! ## SLEEP and YIELD (R98, R124, R228) -/

/-- An instruction of which only its last change shows. -/
theorem issue_late {s : State} {c : CoreId} {x : CtxId} {e : Enc} {body : State → Res Done} {l : Late} (ready : Ready s c x e)
    (hb : body s = .ok { late := l } s) :
    ∃ t, s.issue c x e body = .next (l t) ∧ EffectOf s t c x (after s c x e.len) 0 [] (s.ctx c x) :=
  issue_effect (s' := s) (g := id) (o := none) ready hb (modCtx_id _ _ _ _ (by simp [Ctx.replace])).symm (.refl s) rfl (.refl _) (fits_none _)

/-- A thread that does not hold the decode register, or has no rival for it, does not pass it on. -/
theorem yieldNow_keeps {s : State} {c : CoreId} {x : CtxId} (h : s.core[c].holder ≠ threadOf x ∨ x = fCtx ∨ s.core[c].rival x = false) :
    s.yieldNow c x = s := by
  refine if_neg fun q => ?_
  simp only [Bool.and_eq_true, beq_iff_eq] at q
  obtain ⟨⟨holds, some⟩, rival⟩ := q
  rcases h with h | rfl | h
  · exact h holds
  · rw [holds] at some; cases some
  · rw [h] at rival; cases rival

/-- The rivals of a thread are those that want the register. -/
theorem rival_congr {k m : Core} (h : ∀ t, m.wants t = k.wants t) (x : CtxId) : m.rival x = k.rival x := by
  simp only [Core.rival, h]

theorem add_sub_fin8 (t y : Fin 8) : t + 1 + (y - (t + 1)) = y := by revert t y; decide

/-- The search from the next thread on finds a rival. -/
theorem search_finds {k : Core} {t : Fin 8} (h : k.rival (thr t) = true) :
    ∃ y, ((List.finRange 8).map fun i => t + 1 + i).find? k.wants = some y := by
  simp only [Core.rival, List.any_eq_true, Bool.and_eq_true] at h
  obtain ⟨y, -, -, wants⟩ := h
  rw [← Option.isSome_iff_exists, List.find?_isSome]
  exact ⟨y, List.mem_map.mpr ⟨y - (t + 1), List.mem_finRange _, add_sub_fin8 t y⟩, wants⟩

/-- The core after its holder `t` has passed the register on to `y`. -/
theorem passedOn_core {k : Core} {t y : Fin 8} (hk : k.holder = some t) (hy : ((List.finRange 8).map fun i => t + 1 + i).find? k.wants = some y) :
    (k.giveUp (thr t)).seat = { k with holder := some y, search := t + 1, qcount := 0, qload := k.quantum } := by
  have thread : threadOf (thr t) = some t := dif_pos t.isLt
  have given : k.giveUp (thr t) = { k with holder := none, search := t + 1 } := by
    simp only [Core.giveUp, thread, hk, if_true]
  have found : ((List.finRange 8).map fun i => t + 1 + i).find? ({ k with holder := none, search := t + 1 } : Core).wants = some y := hy
  rw [given, Core.seat]
  simp only [found]

/-- The holder passes the register on at the end. -/
theorem EffectOf.passesOn {s t : State} {c : CoreId} {y z : Fin 8} {to_ : Word} {pops : Nat} {vs : List Word} {u : Ctx}
    (h : EffectOf s t c (thr y) to_ pops vs u) (hk : s.core[c].holder = some y)
    (hz : ((List.finRange 8).map fun i => y + 1 + i).find? s.core[c].wants = some z) :
    EffectOf (s.modCore c fun k => { k with holder := some z, search := y + 1, qload := k.quantum }) (t.passOn c (thr y)) c (thr y) to_ pops vs u := by
  obtain ⟨e1, e2, e3, e4, e5⟩ := h.sameSeat
  have kept : (t.ctx c (thr y)).priv = (s.ctx c (thr y)).priv ∧ (t.ctx c (thr y)).st = (s.ctx c (thr y)).st ∧
      (t.ctx c (thr y)).wake = (s.ctx c (thr y)).wake := by
    obtain ⟨-, -, -, ⟨kept, -⟩, -⟩ := h
    rw [kept]; exact ⟨rfl, rfl, rfl⟩
  have self : (t.passOn c (thr y)).core[c] = { t.core[c] with holder := some z, search := y + 1, qcount := 0, qload := t.core[c].quantum } := by
    rw [← passedOn_core (e1.trans hk) (by rw [funext e5]; exact hz), State.passOn]
    simp only [Fin.getElem_fin, seating_core, State.modCore_self]
  have ctxs : ∀ x, (t.passOn c (thr y)).ctx c x = t.ctx c x := fun x => by simp only [State.ctx, self]
  have cores : ∀ d, d ≠ c → (t.passOn c (thr y)).core[d] = t.core[d] := fun d hd => by
    rw [State.passOn, seating_core]; exact State.modCore_ne _ _ _ _ hd
  refine h.oneChange ⟨fun x _ => ⟨ctx_modCore .., ctxs x⟩, fun d hd => ⟨State.modCore_ne _ _ _ _ hd, cores d hd⟩,
    ⟨(s.ctx c (thr y)).priv, (s.ctx c (thr y)).st, (s.ctx c (thr y)).wake, ctx_modCore .., ?_⟩,
    ⟨some z, y + 1, s.core[c].quantum, ⟨s.core[c].qcount, ?_⟩, ⟨0, ?_⟩⟩, modCore_rest .., seating_rest ..⟩
  · rw [ctxs, ← kept.1, ← kept.2.1, ← kept.2.2]
  · simp only [Fin.getElem_fin, State.modCore_self]
  · rw [self, e3]

/-- SLEEP's meaning. -/
def sleepBody (c : CoreId) (x : CtxId) (s : State) : Res Done :=
  if x = fCtx then .fault s fcIllegal 0 else .ok { late := fun s => s.sleepNow c x } s

/-- YIELD's meaning. -/
def yieldBody (c : CoreId) (x : CtxId) (s : State) : Res Done := .ok { late := fun s => s.yieldNow c x } s

theorem exec_sleep (c : CoreId) (x : CtxId) (s : State) : exec (.sleep c x) s = s.issue c x { op := 0xA0 } (sleepBody c x) := rfl

theorem exec_yield (c : CoreId) (x : CtxId) (s : State) : exec (.yield c x) s = s.issue c x { op := 0xA1 } (yieldBody c x) := rfl

/-- Settles O21: SLEEP and YIELD have their effect at the end of an instruction that changes nothing else. -/
theorem threadsGiveWay : Obligations.ThreadsGiveWay := by
  intro s c x next
  refine ⟨fun hx => ⟨fun wake ready => ?_, fun wake ready => ?_⟩, fun hx ready => ?_, fun h ready => ?_, fun y hx hh hr ready => ?_⟩
  · obtain ⟨t, goes, effect⟩ := issue_late (body := sleepBody c x) ready (if_neg hx)
    refine ⟨_, (exec_sleep c x s).trans goes, (effect.staysAwake wake).completed ?_ ?_ ?_⟩ <;> rw [State.ctx_modCtx]
  · obtain ⟨t, goes, effect⟩ := issue_late (body := sleepBody c x) ready (if_neg hx)
    refine ⟨_, (exec_sleep c x s).trans goes, (effect.sleeps wake).completed ?_ ?_ ?_⟩ <;> rw [ctx_setSt]
  · rw [exec_sleep]
    exact issue_faults ready (if_pos hx)
  · obtain ⟨t, goes, effect⟩ := issue_late (body := yieldBody c x) ready rfl
    have same := effect.sameSeat
    have keeps : t.yieldNow c x = t := yieldNow_keeps (by rw [same.holder, rival_congr same.wants]; exact h)
    exact ⟨t, (exec_yield c x s).trans (goes.trans (by rw [keeps])), effect.completed rfl rfl rfl⟩
  · subst hx
    obtain ⟨t, goes, effect⟩ := issue_late (body := yieldBody c (thr y)) ready rfl
    obtain ⟨z, hz⟩ := search_finds hr
    have same := effect.sameSeat
    have thread : threadOf (thr y) = some y := dif_pos y.isLt
    have passes : t.yieldNow c (thr y) = t.passOn c (thr y) := by
      refine if_pos ?_
      rw [same.holder, rival_congr same.wants, hh, hr, thread]
      simp
    have on := effect.passesOn hh hz
    rw [← hz] at on
    refine ⟨_, (exec_yield c (thr y) s).trans (goes.trans (by rw [passes])), on.completed ?_ ?_ ?_⟩ <;> rw [ctx_modCore] <;> rfl

end Sys2Proof.Machine
end

