-- ==== Sys2Proof/Proofs/Limits.lean ====
section
/-! SUPPORT. Instructions that lack cells, have no room for theirs, or name an address they may not reach (R39, R79, R82 to R84, R91). -/

set_option Elab.async false

namespace Sys2Proof.Machine

open Sys2Proof

/-! ## Cells (R39, R91) -/

theorem need_under {s : State} {c : CoreId} {x : CtxId} {n : Nat} {touch : List Nat} {pops pushes : Nat} (h : (s.ctx c x).depth < n)
    (h8 : (s.ctx c x).depth ≤ 8) : s.need c x n touch pops pushes = .fault s 0x11 0 :=
  (if_neg (by omega)).trans (if_pos h)

theorem need_full {s : State} {c : CoreId} {x : CtxId} {n : Nat} {touch : List Nat} {pops pushes : Nat} (h : n ≤ (s.ctx c x).depth)
    (h8 : (s.ctx c x).depth = 8) (hp : 8 < 8 - pops + pushes) : s.need c x n touch pops pushes = .fault s 0x10 0 :=
  (if_neg (by omega)).trans ((if_neg (by omega)).trans (if_pos (by omega)))

/-- An instruction that first asks for its cells. -/
theorem simple_under {s : State} {c : CoreId} {x : CtxId} {i : Instr} {e : Enc} {n : Nat} {touch : List Nat} {pops : Nat} {pushes : State → Nat}
    {k : State → Unit → State → Res (Option Word)}
    (hi : exec i s = s.simple c x e fun r => (r.need c x n touch pops (pushes r)).bind (k r)) (h : (s.ctx c x).depth < n)
    (h8 : (s.ctx c x).depth ≤ 8) : Faults s c x i e 0x11 0 :=
  simple_faults hi (by rw [need_under h h8]; rfl)

theorem simple_full {s : State} {c : CoreId} {x : CtxId} {i : Instr} {e : Enc} {n : Nat} {touch : List Nat} {pops : Nat} {pushes : State → Nat}
    {k : State → Unit → State → Res (Option Word)}
    (hi : exec i s = s.simple c x e fun r => (r.need c x n touch pops (pushes r)).bind (k r)) (h : n ≤ (s.ctx c x).depth)
    (h8 : (s.ctx c x).depth = 8) (hp : 8 < 8 - pops + pushes s) : Faults s c x i e 0x10 0 :=
  simple_faults hi (by rw [need_full h h8 hp]; rfl)

theorem issue_under {s : State} {c : CoreId} {x : CtxId} {i : Instr} {e : Enc} {n : Nat} {touch : List Nat} {pops : Nat} {pushes : State → Nat}
    {k : State → Unit → State → Res Done}
    (hi : exec i s = s.issue c x e fun r => (r.need c x n touch pops (pushes r)).bind (k r)) (h : (s.ctx c x).depth < n)
    (h8 : (s.ctx c x).depth ≤ 8) : Faults s c x i e 0x11 0 := by
  intro ready
  rw [hi]
  exact issue_faults ready (by rw [need_under h h8]; rfl)

/-! ## Data addresses (R79, R82 to R84) -/

/-- An address that its access may not use; the secure region is not concerned. -/
structure BadAddress (s : State) (c : CoreId) (x : CtxId) (a : Word) (n : Nat) (store : Bool) (code : Byte) : Prop where
  found : s.checkData c (s.ctx c x) a n store false = some code
  plain : code ≠ fcPriv

theorem BadAddress.unnoted {s : State} {c : CoreId} {x : CtxId} {a : Word} {n : Nat} {store : Bool} {code : Byte}
    (h : BadAddress s c x a n store code) : s.noteSecure c a code = s := by
  have other : (code == fcPriv) = false := beq_eq_false_iff_ne.mpr h.plain
  unfold State.noteSecure
  split
  · simp only [other, Bool.and_false, Bool.false_eq_true, if_false]
  · rfl

theorem BadAddress.load {s : State} {c : CoreId} {x : CtxId} {a : Word} {n : Nat} {code : Byte} (h : BadAddress s c x a n false code) :
    s.loadBytes c x a n false = .fault s code a := by
  simp only [State.loadBytes, h.found, h.unnoted]

theorem BadAddress.store {s : State} {c : CoreId} {x : CtxId} {a v : Word} {n : Nat} {code : Byte} (h : BadAddress s c x a n true code) :
    s.storeBytes c x a n v = .fault s code a := by
  simp only [State.storeBytes, State.storeLanes, h.found, h.unnoted]

theorem badAddress_align {s : State} {c : CoreId} {x : CtxId} {a : Word} {n : Nat} (store : Bool) (h : a.toNat % n ≠ 0) :
    BadAddress s c x a n store 0x03 :=
  ⟨if_pos (by simp [h]), by decide⟩

/-- A register takes whole words only (R510). -/
theorem badAddress_register {s : State} {c : CoreId} {x : CtxId} {a : Word} {n : Nat} (h : target (some c) a = .ctl) (hn : n < 4) :
    BadAddress s c x a n true 0x03 :=
  ⟨if_pos (by simp [h, hn]), by decide⟩

theorem badAddress_unmapped {s : State} {c : CoreId} {x : CtxId} {a : Word} {n : Nat} (hc : (s.ctx c x).cntd = false)
    (h : target (some c) a = .unmapped) (ha : a.toNat % n = 0) : BadAddress s c x a n false 0x04 :=
  ⟨by simp [State.checkData, h, ha, Ctx.counted, hc]; rfl, by decide⟩

theorem badAddress_flash {s : State} {c : CoreId} {x : CtxId} {a : Word} {n : Nat} (hc : (s.ctx c x).cntd = false)
    (h : target (some c) a = .flash) (ha : a.toNat % n = 0) : BadAddress s c x a n true 0x05 :=
  ⟨by simp [State.checkData, h, ha, Ctx.counted, hc]; rfl, by decide⟩

/-- A load from a bad address. -/
theorem load_faults {s : State} {c : CoreId} {x : CtxId} {i : Instr} {e : Enc} {n : Nat} {g : Word → Word} {code : Byte}
    (hi : exec i s = s.loadOp c x e n id g) (h : Cells s c x 1) (bad : BadAddress s c x ((s.ctx c x).cell 0) n false code) :
    Faults s c x i e code ((s.ctx c x).cell 0) := by
  have need : s.needPops c x 1 1 = .ok () s := needPops_cells h (by have := h.1; have := h.2.1; omega)
  refine simple_faults hi ?_
  simp only [need, Res.bind_ok, id, bad.load]
  rfl

/-- A store to a bad address. -/
theorem store_faults {s : State} {c : CoreId} {x : CtxId} {i : Instr} {e : Enc} {n pushes : Nat} {vs : State → List Word} {code : Byte}
    (hi : exec i s = s.issue c x e fun s => (s.needPops c x 2 pushes).bind fun _ q =>
      (q.storeBytes c x ((s.ctx c x).cell 0) n ((s.ctx c x).cell 1)).bind fun l q => .ok { late := l } (q.replace c x 2 (vs s)))
    (h : Cells s c x 2) (hp : pushes ≤ 1) (bad : BadAddress s c x ((s.ctx c x).cell 0) n true code) :
    Faults s c x i e code ((s.ctx c x).cell 0) := by
  have need : s.needPops c x 2 pushes = .ok () s := needPops_cells h (by have := h.1; have := h.2.1; omega)
  intro ready
  rw [hi]
  refine issue_faults ready ?_
  simp only [need, Res.bind_ok, bad.store]
  rfl

/-- Settles O23: the cells are counted, and the address judged, before anything else. -/
theorem limitsFault : Obligations.LimitsFault := by
  intro s c x u a fault
  refine ⟨fun h => ?_, fun h => ?_, fun h => ?_, fun h => ⟨fun ha => ?_, fun ha => ⟨?_, ?_⟩, fun hc ht => ⟨?_, ?_, fun ha => ?_⟩⟩,
    fun h => ⟨fun ha => ⟨?_, ?_⟩, fun ha => ?_, fun ht => ?_, fun hc ht => ⟨?_, fun ha => ?_⟩⟩⟩
  · have h : (s.ctx c x).depth = 0 := h
    have none : (s.ctx c x).depth < 1 := by omega
    have h8 : (s.ctx c x).depth ≤ 8 := by omega
    exact ⟨simple_under rfl none h8, simple_under rfl none h8, simple_under rfl none h8, simple_under rfl none h8, simple_under rfl none h8,
      simple_under rfl none h8, simple_under rfl none h8, simple_under rfl none h8, simple_under rfl none h8, simple_under rfl none h8⟩
  · have h : (s.ctx c x).depth ≤ 1 := h
    have one : (s.ctx c x).depth < 2 := by omega
    have h8 : (s.ctx c x).depth ≤ 8 := by omega
    have leave : s.leave c x = .fault s 0x11 0 := (if_neg (by omega)).trans (if_pos (.inl one))
    exact ⟨simple_under rfl one h8, simple_under rfl one h8, simple_under rfl one h8, simple_under rfl one h8, simple_under rfl one h8,
      issue_under rfl one h8, simple_under rfl one h8, simple_faults (body := fun s => s.leave c x) rfl leave⟩
  · have full : (s.ctx c x).depth = 8 := h
    have all (n : Nat) (hn : n ≤ 8) : n ≤ (s.ctx c x).depth := by omega
    exact ⟨fun n => simple_full (pops := 0) rfl (all 0 (by decide)) full (by simp), simple_full (pops := 0) rfl (all 0 (by decide)) full (by simp),
      simple_full (pops := 0) rfl (all 1 (by decide)) full (by simp), simple_full (pops := 0) rfl (all 2 (by decide)) full (by simp),
      simple_full (pops := 2) rfl (all 2 (by decide)) full (by simp), simple_full (pops := 0) rfl (all 2 (by decide)) full (by simp),
      simple_full (pops := 0) rfl (all 0 (by decide)) full (by simp), simple_full (pops := 1) rfl (all 1 (by decide)) full (by simp)⟩
  · exact load_faults (g := id) rfl h (badAddress_align _ ha)
  · exact load_faults (g := id) rfl h (badAddress_align _ ha)
  · exact load_faults (g := sext16) rfl h (badAddress_align _ ha)
  · exact load_faults (g := id) rfl h (badAddress_unmapped hc ht (Nat.mod_one _))
  · exact load_faults (g := sext8) rfl h (badAddress_unmapped hc ht (Nat.mod_one _))
  · exact load_faults (g := id) rfl h (badAddress_unmapped hc ht ha)
  · exact store_faults (vs := fun _ => []) rfl h (by decide) (badAddress_align _ ha)
  · exact store_faults (vs := fun s => [(s.ctx c x).cell 0 + 4]) rfl h (by decide) (badAddress_align _ ha)
  · exact store_faults (vs := fun _ => []) rfl h (by decide) (badAddress_align _ ha)
  · exact store_faults (vs := fun _ => []) rfl h (by decide) (badAddress_register ht (by decide))
  · exact store_faults (vs := fun _ => []) rfl h (by decide) (badAddress_flash hc ht (Nat.mod_one _))
  · exact store_faults (vs := fun _ => []) rfl h (by decide) (badAddress_flash hc ht ha)

end Sys2Proof.Machine
end

