-- ==== Sys2Proof/Proofs/Boundaries.lean ====
section
/-! SUPPORT. A STOP of context F where no thread is READY (R64, R124). -/

set_option Elab.async false

namespace Sys2Proof.Machine

open Sys2Proof

/-- Out of reset, context F of core 0 is READY and is asked to stop; no thread is READY. -/
def stoppingF : State := State.reset.modCtx 0 fCtx fun u => { u with st := .ready, stopReq := true }

/-- The holder of core 0's decode register after F's park. -/
def holderAfterPark : Option (Option (Fin 8)) :=
  match exec (.parkAtBoundary 0 fCtx) stoppingF with
  | .next t => some t.core[(0 : CoreId)].holder
  | _ => none

theorem holderAfterPark_none : holderAfterPark = some none := by decide +kernel

/-- Refutes O26: F holds no decode register to pass on, so after its park the register is still nobody's, as F's thread number is none. -/
theorem not_boundariesAct : ¬ Obligations.BoundariesAct := by
  intro h
  obtain ⟨-, -, park, -⟩ := h.1 stoppingF 0 fCtx
  obtain ⟨t, ht, -, -, -, holder⟩ := park (by decide +kernel) (by decide +kernel) (by decide +kernel) (.inl (by decide +kernel))
  have none : some t.core[(0 : CoreId)].holder = holderAfterPark := by rw [holderAfterPark, ht]
  rw [holderAfterPark_none] at none
  exact holder (Option.some.inj none)

end Sys2Proof.Machine
end

