-- ==== Sys2Proof/Proofs/Fetch.lean ====
section
/-! SUPPORT. Refills of the fetch buffer, and writes that reach it (R130, R144, R146). -/

set_option Elab.async false

namespace Sys2Proof.Machine

open Sys2Proof

/-! ## A write that another master makes -/

/-- What a write of `n` bytes at `a` leaves of a context's view of code. -/
def Ctx.codeWritten (t : Ctx) (c : CoreId) (a : Word) (n : Nat) : Ctx :=
  (({ t with fbuf := t.fbuf.filter fun l => !touches (plainOf c l) a n } : Ctx).btbLose c a n).aheadLose c a n

theorem fetchInval_other (s : State) (c : CoreId) (a : Word) (n : Nat) :
    s.fetchInval c a n none = s.modCore c fun k => (k.allCtx fun _ t => t.codeWritten c a n).btbDrop c a n := rfl

theorem btbLose_some {t : Ctx} {c : CoreId} {a : Word} {n : Nat} {p : Word} (h : (t.btbLose c a n).btbAt = some p) :
    t.btbAt = some p ∧ ((plainOf c p).toNat < a.toNat + n && a.toNat < (plainOf c p).toNat + 16) = false := by
  unfold Ctx.btbLose at h
  split at h
  · next q hq =>
    split at h
    · cases h
    · next hit =>
      obtain rfl : q = p := Option.some.inj (hq.symm.trans h)
      exact ⟨hq, by simpa using hit⟩
  · next hq => rw [hq] at h; cases h

theorem aheadLose_some (t : Ctx) (c : CoreId) (a : Word) (n : Nat) (l : Word) :
    (t.aheadLose c a n).ahead = some l ↔ t.ahead = some l ∧ touches (plainOf c l) a n = false := by
  unfold Ctx.aheadLose
  cases h : t.ahead with
  | none => simp [h]
  | some q =>
    by_cases hit : touches (plainOf c q) a n = true
    · simp only [hit, if_true, Option.some.injEq]
      constructor
      · intro z; cases z
      · rintro ⟨rfl, z⟩; rw [hit] at z; cases z
    · simp only [hit, Bool.false_eq_true, if_false, h, Option.some.injEq]
      constructor
      · rintro rfl; exact ⟨rfl, by simpa using hit⟩
      · exact fun z => z.1

/-- Bytes from `p` on that a write does not reach. -/
theorem apart_of_noHit {p a : Nat} {len n : Nat} (h : (decide (p < a + n) && decide (a < p + len)) = false) :
    ∀ k < n, ∀ j < len, p + j ≠ a + k := by
  simp only [Bool.and_eq_false_iff, decide_eq_false_iff_not] at h
  omega

theorem codeWritten_fields (t : Ctx) (c : CoreId) (a : Word) (n : Nat) :
    t.codeWritten c a n = { t with fbuf := t.fbuf.filter fun l => !touches (plainOf c l) a n,
                                   btbAt := (t.codeWritten c a n).btbAt, ahead := (t.codeWritten c a n).ahead } := by
  unfold Ctx.codeWritten
  have first := btbLose_fields { t with fbuf := t.fbuf.filter fun l => !touches (plainOf c l) a n } c a n
  generalize ({ t with fbuf := t.fbuf.filter fun l => !touches (plainOf c l) a n } : Ctx).btbLose c a n = v at first ⊢
  have last := aheadLose_fields v c a n
  generalize v.aheadLose c a n = w at last ⊢
  conv_lhs => rw [last, first]
  congr 1
  rw [last]

theorem codeWritten_btbAt (t : Ctx) (c : CoreId) (a : Word) (n : Nat) (p : Word) (h : (t.codeWritten c a n).btbAt = some p) :
    t.btbAt = some p ∧ ∀ k < n, ∀ j < 16, (plainOf c p).toNat + j ≠ a.toNat + k := by
  unfold Ctx.codeWritten at h
  rw [aheadLose_fields] at h
  obtain ⟨h1, h2⟩ := btbLose_some h
  exact ⟨h1, apart_of_noHit h2⟩

theorem codeWritten_ahead (t : Ctx) (c : CoreId) (a : Word) (n : Nat) (l : Word) :
    (t.codeWritten c a n).ahead = some l ↔ t.ahead = some l ∧ touches (plainOf c l) a n = false := by
  unfold Ctx.codeWritten
  rw [aheadLose_some, btbLose_fields]

theorem ctx_fetchInval (s : State) (c : CoreId) (a : Word) (n : Nat) (y : CtxId) :
    (s.fetchInval c a n none).ctx c y = (s.ctx c y).codeWritten c a n := by
  rw [fetchInval_other, ctx_modCore]
  simp only [Core.btbDrop, Core.allCtx, Vector.getElem_ofFn, Fin.getElem_fin]
  rfl

theorem btb_fetchInval {s : State} {c : CoreId} {a : Word} {n : Nat} {e : BtbEntry} (h : e ∈ (s.fetchInval c a n none).core[c].btb) :
    e ∈ s.core[c].btb ∧ ∀ k < n, ∀ j < 16, (plainOf c e.target).toNat + j ≠ a.toNat + k := by
  rw [fetchInval_other] at h
  simp only [Fin.getElem_fin, State.modCore_self, Core.btbDrop, Core.allCtx, List.mem_filter, Bool.not_eq_true', Bool.or_eq_false_iff] at h
  exact ⟨h.1, apart_of_noHit h.2.2⟩

/-! ## A refill from the scratchpad (R130) -/

/-- Ports have granted a master: of the state only the ports' pointers and counts, the counters and the free values have moved on. -/
def GrantsOnly (s t : State) : Prop :=
  t = { s with counters := { s.counters with cnt := t.counters.cnt }, freeCtr := t.freeCtr,
               spad := { s.spad with conf := t.spad.conf, rr := t.spad.rr } }

theorem GrantsOnly.refl (s : State) : GrantsOnly s s := rfl

theorem GrantsOnly.trans {s t u : State} (h1 : GrantsOnly s t) (h2 : GrantsOnly t u) : GrantsOnly s u := by
  unfold GrantsOnly at *
  rw [h2, h1]

/-- The instruction that was served has changed its core too. -/
theorem GrantsOnly.rest {s t u : State} (g : GrantsOnly s t) (r : RestKept t u) :
    u = { s with core := u.core, counters := { s.counters with cnt := u.counters.cnt }, freeCtr := u.freeCtr,
                 spad := { s.spad with conf := u.spad.conf, rr := u.spad.rr } } := by
  unfold GrantsOnly at g
  unfold RestKept at r
  have free : u.freeCtr = t.freeCtr := by rw [r]
  have spad : u.spad = t.spad := by rw [r]
  rw [free, spad]
  conv_lhs => rw [r, g]

theorem grantsOnly_reached (s : State) (c : CoreId) (w : Nat) : GrantsOnly s (s.reached c w) := by
  unfold GrantsOnly
  conv_lhs => rw [reached_rest]

/-- A word that a context may read now, and whose check is good. -/
def Readable (s : State) (w : Nat) : Prop := s.wordShut w = false ∧ s.borrowed w = none ∧ s.spad.check w = 0

theorem Readable.of_grants {s t : State} {w : Nat} (h : Readable s w) (g : GrantsOnly s t) : Readable t w := by
  obtain ⟨h1, h2, h3⟩ := h
  unfold GrantsOnly at g
  rw [g]
  exact ⟨h1, h2, h3⟩

theorem ctxRead_readable {s : State} {c : CoreId} {x : CtxId} {a : Word} {w : Nat} (h : Readable s w) :
    s.ctxRead c x a w = .ok (s.spad.word w) (s.reached c w) := by
  obtain ⟨h1, h2, h3⟩ := h
  have good := spadRead_good (s := s.reached c w) (w := w) (by rw [reached_borrowed]; exact h2) (by rw [check_reached]; exact h3)
  simp only [State.ctxRead, spadGate_free x a h1 h2, Res.bind_ok, good, word_reached]

/-- The words of a line are read one after another. -/
theorem readRow_readable {c : CoreId} {x : CtxId} {a : Word} {l : List Nat} {s : State} (h : ∀ w ∈ l, Readable s w) :
    ∃ t, State.readRow c x a l s = .ok () t ∧ GrantsOnly s t ∧ ((∀ w ∈ l, portA c w = true) → t = s) := by
  induction l generalizing s with
  | nil => exact ⟨s, rfl, .refl s, fun _ => rfl⟩
  | cons w l ih =>
    have grant := grantsOnly_reached s c w
    obtain ⟨t, row, rest, same⟩ := ih (s := s.reached c w) fun v hv => (h v (List.mem_cons_of_mem _ hv)).of_grants grant
    refine ⟨t, ?_, grant.trans rest, fun ha => ?_⟩
    · simp only [State.readRow, ctxRead_readable (h w List.mem_cons_self), Res.bind_ok, row]
    · have own : s.reached c w = s := if_pos (ha w List.mem_cons_self)
      rw [same fun v hv => ha v (List.mem_cons_of_mem _ hv), own]

/-- A context's own local scratchpad is reached through port A (R266, R267). -/
theorem portA_own {c : CoreId} {a : Word} {w i : Nat} {via : Via} (h : target (some c) a = .spad w via true) (ha : a.toNat % 32 = 0) (hi : i < 32) :
    portA c (w + i) = true := by
  have range : 0x01000000 + c.val * 0x40000 ≤ w ∧ w + 32 ≤ 0x01000000 + (c.val + 1) * 0x40000 := by
    have place : ∀ {n base : Nat} {v : Via}, n % 32 = 0 → base % 32 = 0 → base ≤ n → spadTarget (some c) n base v = .spad w via true →
        0x01000000 + c.val * 0x40000 ≤ w ∧ w + 32 ≤ 0x01000000 + (c.val + 1) * 0x40000 := by
      intro n base v h1 h2 h3 h
      unfold spadTarget at h
      dsimp only at h
      split at h
      · simp only [Target.spad.injEq, localBase] at h; omega
      · split at h
        · simp only [Target.spad.injEq, decide_eq_true_eq] at h; omega
        · split at h <;> simp at h
    unfold target at h
    dsimp only at h
    split at h
    · exact place ha rfl (Nat.zero_le _) h
    split at h
    · exact place ha rfl (by omega) h
    split at h
    · exact place ha rfl (by omega) h
    repeat' split at h
    all_goals cases h
  have hc := c.isLt
  simp only [portA, isShared, Bool.and_eq_true, Bool.not_eq_true', decide_eq_false_iff_not, decide_eq_true_eq]
  omega

/-- The context may fetch a line of the scratchpad there (R35, R82, R148). -/
theorem fetchBad_spad {s : State} {c : CoreId} {u : Ctx} {a : Word} {w : Nat} {own : Bool} (ht : target (some c) a = .spad w .plain own)
    (hc : u.cntd = true → own = true) (hs : isSecure w = true → u.priv = 3) (hd : s.destroyed w = false) : s.fetchBad c u a = none := by
  simp only [State.fetchBad, ht, Ctx.counted]
  cases hq : u.cntd
  · cases hw : isSecure w
    · simp [hd]
    · simp [hs hw, hd, isSecPriv]
  · simp [hc hq]

/-- A line of the scratchpad joins the fetch buffer of a context that has none (R130). -/
theorem refill_spad {s : State} {c : CoreId} {x : CtxId} {a : Word} {w : Nat} {own : Bool} (ht : target (some c) a = .spad w .plain own)
    (hb : s.fetchBad c (s.ctx c x) a = none) (ha : a.toNat % 32 = 0) (hw : ∀ i < 8, Readable s (w + 4 * i)) (hs : (s.ctx c x).served = none) :
    ∃ t, s.refill c x a = .ok () ((t.modCtx c x fun u => { u.buffer a with served := none }).count c x 0x11) ∧ GrantsOnly s t ∧
      (own = true → t.spad = s.spad ∧ t.freeCtr = s.freeCtr) := by
  obtain ⟨t, row, grants, same⟩ := readRow_readable (c := c) (x := x) (a := a) (l := (List.range 8).map fun i => w + 4 * i) (s := s) (by
    intro v hv
    obtain ⟨i, hi, rfl⟩ := List.mem_map.mp hv
    exact hw i (List.mem_range.mp hi))
  have own_ctx : t.ctx c x = s.ctx c x := by
    have core : t.core = s.core := by rw [grants]
    simp only [State.ctx, core]
  obtain ⟨r, hr⟩ : ∃ r : State, r = if own then t else t.count c x 0x21 := ⟨_, rfl⟩
  have ctx_r : r.ctx c x = s.ctx c x := by
    rw [hr, ← own_ctx]
    split
    · rfl
    · exact State.count_ctx ..
  refine ⟨r, ?_, ?_, fun ho => ?_⟩
  · have unserved : ((s.ctx c x).servedLine (lineOf (cachedForm a))).isSome = false := by
      simp only [Ctx.servedLine, hs, Option.isSome_none]
    have change : (r.modCtx c x fun u => { u.buffer a with served := if (u.servedLine (lineOf (cachedForm a))).isSome then none else u.served }) =
        r.modCtx c x fun u => { u.buffer a with served := none } := by
      refine modCtx_congr _ _ _ _ _ ?_
      simp only [ctx_r, unserved, hs, Bool.false_eq_true, if_false]
    simp only [State.refill, hb, ht, row, Res.also_ok, Res.noData, ← hr, change]
  · rw [hr]
    split
    · exact grants
    · exact grants.trans (by unfold GrantsOnly; simp only [State.count, State.countN])
  · have same := same fun v hv => by
      obtain ⟨i, hi, rfl⟩ := List.mem_map.mp hv
      have := List.mem_range.mp hi
      exact portA_own (ho ▸ ht) ha (by omega)
    rw [hr, if_pos ho, same]
    exact ⟨rfl, rfl⟩

theorem buffer_first {u : Ctx} {a : Word} (hb : u.fbuf = []) (hs : u.served = none) (ha : u.ahead = none) :
    ({ u.buffer a with served := none } : Ctx) = { u with fbuf := [a] } := by
  simp [Ctx.buffer, hb, ha, ← hs]

/-- An address at the start of a line is its line's address. -/
theorem lineAddr_self {a : Word} (h : a.toNat % 32 = 0) : a &&& 0xFFFFFFE0 = a := by
  apply BitVec.eq_of_getLsbD_eq
  intro i hi
  rw [BitVec.getLsbD_and]
  by_cases h5 : i < 5
  · have zero : a.getLsbD i = false := by
      rw [BitVec.getLsbD, Nat.testBit_eq_decide_div_mod_eq, decide_eq_false_iff_not]
      have hv : i = 0 ∨ i = 1 ∨ i = 2 ∨ i = 3 ∨ i = 4 := by omega
      rcases hv with rfl | rfl | rfl | rfl | rfl <;> omega
    rw [zero, Bool.false_and]
  · have one : (0xFFFFFFE0 : Word).getLsbD i = true := by
      have all : ∀ k : Fin 32, 5 ≤ k.val → (0xFFFFFFE0 : Word).getLsbD k.val = true := by decide
      exact all ⟨i, hi⟩ (Nat.le_of_not_lt h5)
    rw [one, Bool.and_true]

theorem execFetchRefill_here {s s1 : State} {c : CoreId} {x : CtxId} {a : Word} (hr : s.mainRuns = true) (hst : (s.ctx c x).st = .ready)
    (hline : a &&& 0xFFFFFFE0 = a) (hpc : (s.ctx c x).codeAddr 0 = a) (hb : (s.ctx c x).fbuf = []) (hh : (s.ctx c x).ahead = none)
    (fill : s.refill c x a = .ok () s1) : exec (.fetchRefill c x a) s = .next s1 := by
  have same : exec (.fetchRefill c x a) s = execFetchRefill c x a s := rfl
  rw [same, execFetchRefill]
  simp only [hr, hst, hline, hpc, hb, hh, fill]
  simp

/-- Settles O27: the words of the line are read, and a write drops what it touches. -/
theorem fetchBuffersFollow : Obligations.FetchBuffersFollow := by
  intro s c x u
  refine ⟨fun w own hr hst h16 hpc hb hs hh ht hc hsec hd hsl hw => ?_, fun a n => ?_⟩
  · have readable : ∀ i < 8, Readable s (w + 4 * i) := fun i hi =>
      ⟨(hw i hi).1, by simp only [State.borrowed, hsl], (hw i hi).2⟩
    obtain ⟨t, fill, grants, same⟩ := refill_spad ht (fetchBad_spad ht hc hsec hd) hpc readable hs
    have first : (s.ctx c x).codeAddr 0 = u.pc := by
      have plain : (s.ctx c x).f16 = false := h16
      simp [Ctx.codeAddr, plain, u]
    have core : t.core = s.core := by rw [grants]
    refine ⟨_, execFetchRefill_here hr hst (lineAddr_self hpc) first hb hh fill, ?_, fun ho => ?_, ?_⟩
    · rw [State.count_core]
      simp only [State.modCtx, State.modCore, core]
      exact congrArg (fun v => s.core.set c v) (congrArg (fun v => { s.core[c] with ctx := v }) (congrArg (fun v => s.core[c].ctx.set x v)
        (buffer_first hb hs hh)))
    · obtain ⟨spad, free⟩ := same ho
      exact ⟨(State.count_freeCtr ..).trans free, (State.count_spad ..).trans spad⟩
    · exact grants.rest ((modCore_rest ..).trans (countN_rest ..))
  · refine ⟨s.fetchInval c (plainOf c a) n none, rfl, fun y => ?_, fun e he => btb_fetchInval he, fun d hd => ?_, rfl⟩
    · rw [ctx_fetchInval]
      exact ⟨codeWritten_fields .., fun p hp => codeWritten_btbAt _ _ _ _ _ hp, fun l => codeWritten_ahead ..⟩
    · rw [fetchInval_other]; exact State.modCore_ne _ _ _ _ hd

end Sys2Proof.Machine
end

