-- ==== Sys2Proof/Proofs/ThreadRegisters.lean ====
section
/-! SUPPORT. The registers of threads: the rights to them, THR_STAT and the spill area (R34, R37, R52, R64). -/

set_option Elab.async false

namespace Sys2Proof.Machine

open Sys2Proof

/-! ## Where the registers lie -/

theorem regAt_thrCtl : ∀ (c : CoreId) (x : CtxId), regAt (thrWord c x 0) = some (.thrCtl c x) := by decide +kernel

theorem regAt_thrStat : ∀ (c : CoreId) (x : CtxId), regAt (thrWord c x 4) = some (.thrStat c x) := by decide +kernel

theorem regAt_spillp : ∀ (c : CoreId) (x : CtxId), regAt (thrWord c x 0x14) = some (.spillp c x) := by decide +kernel

theorem regAt_spillsz : ∀ (c : CoreId) (x : CtxId), regAt (thrWord c x 0x18) = some (.spillsz c x) := by decide +kernel

/-! ## Writes of thread registers -/

/-- A write of a core's register reaches it once the core is asked to leave DOZE (R426). -/
theorem writeBy_core {s : State} {w : Agent} {a : Word} {r : Reg} {c : CoreId} (ha : regAt a = some r) (hb : r.block = .core c)
    (hd : r ≠ .dbgVdata) (h : MayWrite s w r) (v : Word) : s.writeBy w a v = (s.rouse c).regWrite1 w r v := by
  rw [writeBy_may ha h]
  cases r <;> simp_all [State.regWrite, State.regWriteRaw]

/-- A change of a core that keeps its contexts keeps every context. -/
theorem ctx_modCore_kept (s : State) (c d : CoreId) (y : CtxId) (f : Core → Core) (h : (f s.core[c.val]).ctx = s.core[c.val].ctx) :
    (s.modCore c f).ctx d y = s.ctx d y := by
  unfold State.ctx
  by_cases e : d = c
  · subst e
    simp only [Fin.getElem_fin, State.modCore_self, h]
  · simp only [Fin.getElem_fin, State.modCore_ne _ _ _ _ e]

theorem ctx_rouse (s : State) (c d : CoreId) (y : CtxId) : (s.rouse c).ctx d y = s.ctx d y := ctx_modCore_kept _ _ _ _ _ rfl

theorem rouse_rouse (s : State) (c : CoreId) : (s.rouse c).rouse c = s.rouse c := by
  simp [State.rouse, State.modCore]

theorem who_rouse (s : State) (c : CoreId) (w : Agent) : ((s.rouse c).who w).priv = (s.who w).priv := by
  cases w
  case ctx d y => exact congrArg Ctx.priv (ctx_rouse s c d y)
  all_goals rfl

/-- A field that only a stopped context's write changes; those of threads F has not (R64). -/
theorem thrField_cases (s : State) (c : CoreId) (x : CtxId) (f : Ctx → Ctx) :
    s.thrField c x true f = if (s.ctx c x).isStopped = true ∧ x ≠ fCtx then s.modCtx c x f else s := by
  unfold State.thrField
  by_cases hs : (s.ctx c x).isStopped = true <;> by_cases hx : x = fCtx <;> simp [hs, hx]

/-! ## THR_STAT and the spill area -/

/-- PRIV takes a lower value only; 0b10 stands for 0b01 (R37). -/
theorem statWrite_fields (u : Ctx) (v : Word) : u.statWrite v =
    let p : BitVec 2 := BitVec.ofNat 2 (v.toNat / 16)
    { u with priv := if p = 2 then (if 1 < u.priv.toNat then 1 else u.priv) else if p.toNat < u.priv.toNat then p else u.priv,
             cntdErr := u.cntdErr && !v.getLsbD 6, maband := u.maband && !v.getLsbD 7 } := by
  have field : (bits v 4 2 : BitVec 2) = BitVec.ofNat 2 (v.toNat / 16) := bits_eq_ofNat v 4 2
  simp only [Ctx.statWrite, field]
  generalize BitVec.ofNat 2 (v.toNat / 16) = p
  by_cases hp : p = 2
  · simp only [hp, if_true]; rfl
  · simp only [hp, if_false]

/-- Settles O29: THR_STAT by `statWrite_fields`, the spill area because only a stopped thread takes it. -/
theorem threadRegistersWrite : Obligations.ThreadRegistersWrite := by
  intro s w c x v u p
  refine ⟨fun may => ?_, fun may => ?_, fun may => ?_⟩
  · refine congrArg Host.Outcome.next ((writeBy_core (regAt_thrStat c x) rfl (by simp) may v).trans ?_)
    exact modCtx_congr _ _ _ _ _ (statWrite_fields _ v)
  · refine congrArg Host.Outcome.next ((writeBy_core (regAt_spillp c x) rfl (by simp) may v).trans ?_)
    refine (thrField_cases ..).trans ?_
    rw [ctx_rouse]
    rfl
  · refine congrArg Host.Outcome.next ((writeBy_core (regAt_spillsz c x) rfl (by simp) may v).trans ?_)
    refine (thrField_cases ..).trans ?_
    rw [ctx_rouse]
    have field : (bits v 0 20 : BitVec 20) = v.setWidth 20 := by simp [bits]
    simp only [Ctx.spillWrite, field, if_true]
    rfl

end Sys2Proof.Machine
end

