-- ==== Sys2Proof/Proofs/ThreadControl.lean ====
section
/-! SUPPORT. THR_CTL: attributes, START, STOP, RESUME and RESET (R38, R59, R64, R65, R87, R154). -/

set_option Elab.async false

namespace Sys2Proof.Machine

open Sys2Proof

/-! ## Changes that reach one context -/

theorem OnlyCtx.refl (s : State) (c : CoreId) (x : CtxId) : OnlyCtx s s c x := ⟨fun _ _ => rfl, fun _ _ => rfl, rfl, rfl⟩

theorem OnlyCtx.trans {s t u : State} {c : CoreId} {x : CtxId} (h : OnlyCtx s t c x) (g : OnlyCtx t u c x) : OnlyCtx s u c x := by
  obtain ⟨hd, hy, hc, hs⟩ := h
  obtain ⟨gd, gy, gc, gs⟩ := g
  refine ⟨fun d e => (gd d e).trans (hd d e), fun y e => (gy y e).trans (hy y e), ?_, ?_⟩
  · rw [gc, hc]
  · rw [gs, hs]

theorem ctx_seating (s : State) (c : CoreId) (f : Core → Core) (y : CtxId) :
    (s.seating c f).ctx c y = (f s.core[c.val]).ctx[y.val] := by
  have same : (s.seating c f).ctx c y = (s.modCore c f).ctx c y := by unfold State.ctx; rw [seating_core]
  rw [same, ctx_modCore]
  rfl

theorem ctx_seating_ne (s : State) {c d : CoreId} (f : Core → Core) (y : CtxId) (h : d ≠ c) : (s.seating c f).ctx d y = s.ctx d y := by
  unfold State.ctx
  rw [seating_core]
  exact congrArg (fun k : Core => k.ctx[y]) (State.modCore_ne s c d f h)

/-- A change of the context, and of who has or seeks its core's decode register. -/
theorem onlyCtx_seating {s : State} {c : CoreId} {x : CtxId} {f : Core → Core}
    (hf : ∀ k, f k = { k with ctx := (f k).ctx, holder := (f k).holder, search := (f k).search, qcount := (f k).qcount,
                              qload := (f k).qload })
    (hx : ∀ k y, y ≠ x → (f k).ctx[y.val] = k.ctx[y.val]) : OnlyCtx s (s.seating c f) c x := by
  refine ⟨fun d e => ?_, fun y e => ?_, ?_, seating_rest ..⟩
  · rw [seating_core]; exact State.modCore_ne _ _ _ _ e
  · simp only [State.ctx, seating_core, Fin.getElem_fin, State.modCore_self]; exact hx _ _ e
  · rw [seating_core, Fin.getElem_fin, State.modCore_self]; exact hf _

theorem onlyCtx_modCtx (s : State) (c : CoreId) (x : CtxId) (f : Ctx → Ctx) : OnlyCtx s (s.modCtx c x f) c x := by
  refine ⟨fun d e => State.modCore_ne _ _ _ _ e, fun y e => State.ctx_modCtx_ne _ _ _ _ _ e, ?_, rfl⟩
  simp only [State.modCtx, Fin.getElem_fin, State.modCore_self]
  rfl

theorem onlyCtx_setSt (s : State) (c : CoreId) (x : CtxId) (st : CtxState) : OnlyCtx s (s.setSt c x st) c x := by
  refine onlyCtx_seating (fun k => ?_) fun k y e => ?_
  · rw [setSt_fields]; rfl
  · rw [core_setSt_ctx]; exact Core.modCtx_ne _ _ _ _ e

/-! ## The attributes (R60, R64, R65, R154) -/

/-- The command bits that a row of THR_CTL sets leave the attribute bits as they are written. -/
theorem ctlBits_high (v n : Word) (hn : n < 16#32) (i : Nat) (hi : 4 ≤ i) (hl : i < 32) : (ctlBits v n).getLsbD i = v.getLsbD i := by
  have zero : n.getLsbD i = false := by
    apply Nat.testBit_lt_two_pow
    calc n.toNat < 16 := hn
      _ = 2 ^ 4 := rfl
      _ ≤ 2 ^ i := Nat.pow_le_pow_right (by decide) hi
  have ones : ∀ i < 32, 4 ≤ i → (0xFFFFFFF0#32).getLsbD i = true := by decide
  simp [ctlBits, zero, ones i hl hi]

theorem ctlBits_low (v n : Word) (i : Nat) (hi : i < 4) : (ctlBits v n).getLsbD i = n.getLsbD i := by
  have zeros : ∀ i < 4, (0xFFFFFFF0#32).getLsbD i = false := by decide
  simp [ctlBits, zeros i hi]

theorem ctlBits_privInit (v n : Word) (hn : n < 16#32) : (bits (ctlBits v n) 8 2 : BitVec 2) = BitVec.ofNat 2 (v.toNat / 256) := by
  rw [show (256 : Nat) = 2 ^ 8 from rfl, ← bits_eq_ofNat]
  apply BitVec.eq_of_getLsbD_eq
  intro i hi
  simp only [bits, BitVec.getLsbD_setWidth, BitVec.getLsbD_ushiftRight]
  rw [ctlBits_high v n hn _ (by omega) (by omega)]

/-- Another thread of the core is counted, or is to be (R154). -/
def State.cntdElsewhere (s : State) (c : CoreId) (x : CtxId) : Prop := ∃ y : Fin 8, thr y ≠ x ∧ (s.ctx c (thr y)).cntdBit = true

theorem thrAttr_running {s : State} {c : CoreId} {x : CtxId} (v : Word) (hx : x ≠ fCtx) (hst : (s.ctx c x).st ≠ .idle) :
    (¬s.cntdElsewhere c x ∨ v.getLsbD 4 = false → s.thrAttr c x v = s.modCtx c x fun u =>
      { u with cntdNext := if u.cntd = v.getLsbD 4 then none else some (v.getLsbD 4), privInit := bits v 8 2 }) ∧
    (s.cntdElsewhere c x → v.getLsbD 4 = true → s.thrAttr c x v = s.modCtx c x fun u =>
      { u with cntdErr := true, cntdNext := if u.cntd then some false else none, privInit := bits v 8 2 }) := by
  have held : ((List.finRange 8).any fun y => thr y != x && (s.core[c].ctx[thr y]).cntdBit) = true ↔ s.cntdElsewhere c x := by
    simp [State.cntdElsewhere, State.ctx]
  have run : ¬(s.core[c].ctx[x]).st = .idle := hst
  unfold State.thrAttr
  rw [if_neg hx]
  dsimp only
  generalize ((List.finRange 8).any fun y => thr y != x && (s.core[c].ctx[thr y]).cntdBit) = other at held
  constructor
  · intro h
    have taken : ¬(v.getLsbD 4 && other) = true := by
      rw [Bool.and_eq_true, held]
      exact fun ⟨a, b⟩ => h.elim (· b) (by simp [a])
    rw [if_neg taken, if_neg run, modCtx_modCtx]
    refine modCtx_congr _ _ _ _ _ ?_
    simp only [hst, if_false]
  · intro h hv
    rw [if_pos (by rw [hv, held.mpr h]; rfl), modCtx_modCtx]
    refine modCtx_congr _ _ _ _ _ ?_
    simp only [hst, if_false]

/-- What CNTD taking effect makes of the context (R154). -/
def Ctx.withCntd (t : Ctx) (b : Bool) : Ctx :=
  { t with cntd := b, cntdNext := none, fbuf := if t.cntd = b then t.fbuf else [], btbAt := if t.cntd = b then t.btbAt else none,
           ahead := if t.cntd = b then t.ahead else none }

/-- What CNTD taking effect makes of the core. -/
def Core.withCntd (x : CtxId) (b : Bool) (k : Core) : Core :=
  let k : Core := if k.ctx[x].cntd && !b then { k with staging := k.staging.map fun g => { g with lane := false } } else k
  let k := k.modCtx x (·.withCntd b)
  (if b then k.giveUp x else k).seat

theorem setCntd_eq (s : State) (c : CoreId) (x : CtxId) (b : Bool) : s.setCntd c x b = s.seating c (Core.withCntd x b) := rfl

theorem withCntd_fields (k : Core) (x : CtxId) (b : Bool) : k.withCntd x b = { k.modCtx x (·.withCntd b) with
    staging := (k.withCntd x b).staging, holder := (k.withCntd x b).holder, search := (k.withCntd x b).search,
    qcount := (k.withCntd x b).qcount, qload := (k.withCntd x b).qload } := by
  unfold Core.withCntd
  dsimp only
  rw [seat_fields]
  cases b
  · simp only [Bool.false_eq_true, if_false]
    split <;> rfl
  · simp only [if_true]
    rw [giveUp_fields]
    split <;> rfl

theorem withCntd_ctx (k : Core) (x : CtxId) (b : Bool) : (k.withCntd x b).ctx = (k.modCtx x (·.withCntd b)).ctx := by
  rw [withCntd_fields]

/-- CNTD rising, or staying as it is, leaves the staging FIFO's lanes. -/
theorem withCntd_staging (k : Core) (x : CtxId) (b : Bool) (h : k.ctx[x].cntd = true → b = true) :
    (k.withCntd x b).staging = k.staging := by
  have lanes : ¬(k.ctx[x].cntd && !b) = true := by cases hk : k.ctx[x].cntd <;> simp_all
  unfold Core.withCntd
  dsimp only
  rw [if_neg lanes, seat_fields]
  cases b
  · rfl
  · simp only [if_true]; rw [giveUp_fields]; rfl

theorem withCntd_kept (k : Core) (x : CtxId) (b : Bool) (h : k.ctx[x].cntd = true → b = true) :
    k.withCntd x b = { k with ctx := (k.withCntd x b).ctx, holder := (k.withCntd x b).holder, search := (k.withCntd x b).search,
                              qcount := (k.withCntd x b).qcount, qload := (k.withCntd x b).qload } := by
  conv_lhs => rw [withCntd_fields, withCntd_staging k x b h]
  rw [withCntd_ctx]
  rfl

theorem ctx_setCntd (s : State) (c : CoreId) (x : CtxId) (b : Bool) : (s.setCntd c x b).ctx c x = (s.ctx c x).withCntd b := by
  rw [setCntd_eq, ctx_seating]
  simp only [withCntd_ctx, Core.modCtx_self]
  rfl

theorem ctx_setCntd_ne (s : State) (c d : CoreId) (x y : CtxId) (b : Bool) (h : d ≠ c ∨ y ≠ x) :
    (s.setCntd c x b).ctx d y = s.ctx d y := by
  by_cases e : d = c
  · subst e
    rw [setCntd_eq, ctx_seating]
    simp only [withCntd_ctx, Core.modCtx_ne _ _ _ _ (h.resolve_left (· rfl))]
    rfl
  · exact ctx_seating_ne _ _ _ e

theorem onlyCtx_setCntd (s : State) (c : CoreId) (x : CtxId) (b : Bool) (h : (s.ctx c x).cntd = true → b = true) :
    OnlyCtx s (s.setCntd c x b) c x := by
  refine ⟨fun d e => ?_, fun y e => ctx_setCntd_ne _ _ _ _ _ _ (.inr e), ?_, seating_rest ..⟩
  · rw [setCntd_eq, seating_core]; exact State.modCore_ne _ _ _ _ e
  · simp only [setCntd_eq, seating_core, Fin.getElem_fin, State.modCore_self]
    exact withCntd_kept s.core[c] x b h

/-! ## START, STOP and RESUME (R38, R64) -/

theorem thrAttr_idle {s : State} {c : CoreId} {x : CtxId} {v : Word} (hx : x ≠ fCtx) (hst : (s.ctx c x).st = .idle)
    (hv : v.getLsbD 4 = false) :
    s.thrAttr c x v = (s.setCntd c x false).modCtx c x fun t => { t with f16 := v.getLsbD 5, privInit := bits v 8 2 } := by
  have run : (s.core[c].ctx[x]).st = .idle := hst
  unfold State.thrAttr
  rw [if_neg hx]
  dsimp only
  rw [hv, Bool.false_and, if_neg (by simp), if_pos run]
  refine modCtx_congr _ _ _ _ _ ?_
  have st : ((s.setCntd c x false).ctx c x).st = .idle := by rw [ctx_setCntd]; exact hst
  rw [if_pos st]

theorem makeReady_runs {s : State} {c : CoreId} (x : CtxId) (h : s.core[c].halted = false) : s.makeReady c x = s.setSt c x .ready := by
  unfold State.makeReady
  rw [h]
  rfl

/-- A started context (R38, R39, R228). -/
def Ctx.started (t : Ctx) (p : BitVec 2) : Ctx :=
  { t.freshStacks with priv := p, wake := false, stopReq := false, routine := none, waitFor := none, served := none,
                       fbuf := [], btbAt := none, ahead := none, redo := false }

theorem startCtx_runs {s : State} {c : CoreId} {x : CtxId} (p : BitVec 2) (hst : (s.ctx c x).st = .idle)
    (hchk : s.core[c].chkFail = false) (hh : s.core[c].halted = false) (hr : s.core[c].rhalt = false) :
    s.startCtx c x p = ((s.modCtx c x (·.started p)).setSt c x .ready).rouse c := by
  have alive : ¬((s.ctx c x).st ≠ .idle ∨ (!s.core[c].alive) = true) := by
    simp only [hst, Core.alive, hchk]; simp
  have ready : (s.modCtx c x (·.started p)).makeReady c x = (s.modCtx c x (·.started p)).setSt c x .ready :=
    makeReady_runs x (by simpa [State.modCtx, Core.modCtx] using hh)
  have calm : (((s.modCtx c x (·.started p)).setSt c x .ready).rouse c).core[c].rhalt = false := by
    obtain ⟨_, _, core, _⟩ := (onlyCtx_modCtx s c x (·.started p)).trans (onlyCtx_setSt _ c x .ready)
    simp only [State.rouse, Fin.getElem_fin, State.modCore_self]
    rw [← Fin.getElem_fin, core]
    exact hr
  unfold State.startCtx
  rw [if_neg alive]
  rw [← ready] at calm ⊢
  refine if_neg (fun h => ?_)
  rw [Bool.and_eq_true, Bool.and_eq_true, Bool.and_eq_true] at h
  obtain ⟨⟨⟨halts, _⟩, _⟩, _⟩ := h
  exact Bool.false_ne_true (calm.symm.trans halts)

theorem OnlyCtx.rouse {s t : State} {c : CoreId} {x : CtxId} (h : OnlyCtx s t c x) : OnlyCtx (s.rouse c) (t.rouse c) c x := by
  obtain ⟨cores, ctxs, core, rest⟩ := h
  refine ⟨fun d e => ?_, fun y e => ?_, ?_, ?_⟩
  · simp only [State.rouse, Fin.getElem_fin, State.modCore_ne _ _ _ _ e]; exact cores d e
  · rw [ctx_rouse, ctx_rouse, ctxs y e]
  · simp only [State.rouse, Fin.getElem_fin, State.modCore_self]
    simp only [Fin.getElem_fin] at core
    rw [core]
  · rw [rest]; rfl

theorem writeBy_thrCtl {s : State} {w : Agent} {c : CoreId} {x : CtxId} (may : MayWrite s w (.thrCtl c x)) (v : Word) :
    s.writeBy w (thrWord c x 0) v = (s.rouse c).thrCtl c x v (s.who w).priv := by
  rw [writeBy_core (regAt_thrCtl c x) rfl (by simp) may v, ← who_rouse s c w]
  rfl

/-- What a command of THR_CTL does once the attributes are taken: `n` holds the command bits. -/
theorem thrCtl_commands (s : State) (c : CoreId) (x : CtxId) (v n : Word) (wp : BitVec 2) :
    s.thrCtl c x (ctlBits v n) wp =
      let t := s.thrAttr c x (ctlBits v n)
      if n.getLsbD 3 then t.resetCtx c x
      else if n.getLsbD 2 then t.resumeCtx c x
      else if n.getLsbD 1 then t.stopCtx c x
      else if n.getLsbD 0 ∧ x ≠ fCtx then t.startCtx c x (startPriv (t.ctx c x).privInit wp)
      else t := by
  unfold State.thrCtl
  rw [ctlBits_low v n 3 (by decide), ctlBits_low v n 2 (by decide), ctlBits_low v n 1 (by decide), ctlBits_low v n 0 (by decide)]

theorem startPriv_min (p w : BitVec 2) :
    let up (p : BitVec 2) : Nat := if p = 2 then 1 else p.toNat
    (startPriv p w).toNat = min (up p) (up w) := by
  revert p w; decide

/-- START of an idle thread that is not counted, and is not to be (R38). -/
theorem thrCtl_starts {s : State} {c : CoreId} {x : CtxId} (v : Word) (wp : BitVec 2) (hx : x ≠ fCtx) (hv : v.getLsbD 4 = false)
    (hc : (s.ctx c x).cntd = false) (hst : (s.ctx c x).st = .idle) (hchk : s.core[c].chkFail = false) (hh : s.core[c].halted = false)
    (hr : s.core[c].rhalt = false) :
    let p : BitVec 2 := BitVec.ofNat 2 (v.toNat / 256)
    OnlyCtx (s.rouse c) ((s.rouse c).thrCtl c x (ctlBits v 1) wp) c x ∧
    ((s.rouse c).thrCtl c x (ctlBits v 1) wp).ctx c x =
      { Ctx.started { (s.ctx c x).withCntd false with f16 := v.getLsbD 5, privInit := p } (startPriv p wp) with st := .ready } := by
  intro p
  obtain ⟨r, hrs⟩ : ∃ r, r = s.rouse c := ⟨_, rfl⟩
  have same : r.ctx c x = s.ctx c x := by rw [hrs, ctx_rouse]
  have again : r.rouse c = r := by rw [hrs, rouse_rouse]
  have kchk : r.core[c].chkFail = false := by rw [hrs]; simpa [State.rouse] using hchk
  have khalt : r.core[c].halted = false := by rw [hrs]; simpa [State.rouse] using hh
  have krhalt : r.core[c].rhalt = false := by rw [hrs]; simpa [State.rouse] using hr
  have attr := thrAttr_idle (v := ctlBits v 1) hx (same ▸ hst) ((ctlBits_high v 1 (by decide) 4 (by decide) (by decide)).trans hv)
  rw [ctlBits_high v 1 (by decide) 5 (by decide) (by decide), ctlBits_privInit v 1 (by decide)] at attr
  have only : OnlyCtx r (r.thrAttr c x (ctlBits v 1)) c x := by
    rw [attr]
    exact (onlyCtx_setCntd r c x false (by rw [same, hc]; simp)).trans (onlyCtx_modCtx ..)
  have ctx : (r.thrAttr c x (ctlBits v 1)).ctx c x = { (s.ctx c x).withCntd false with f16 := v.getLsbD 5, privInit := p } := by
    rw [attr, State.ctx_modCtx, ctx_setCntd, same]
  rw [← hrs, thrCtl_commands]
  dsimp only
  rw [if_neg (by decide), if_neg (by decide), if_neg (by decide), if_pos ⟨by decide, hx⟩]
  generalize r.thrAttr c x (ctlBits v 1) = t at only ctx
  obtain ⟨_, _, core, _⟩ := id only
  have start := startCtx_runs (s := t) (startPriv (t.ctx c x).privInit wp) (by rw [ctx]; exact hst) (by rw [core]; exact kchk)
    (by rw [core]; exact khalt) (by rw [core]; exact krhalt)
  rw [start]
  constructor
  · have := (only.trans ((onlyCtx_modCtx t c x (·.started (startPriv (t.ctx c x).privInit wp))).trans (onlyCtx_setSt _ c x .ready))).rouse
    rwa [again] at this
  · rw [ctx_rouse, ctx_setSt, State.ctx_modCtx, ctx]

/-- The attributes that a write of THR_CTL gives a thread that is not counted, and is not to be (R64, R154). -/
def Ctx.attributed (v : Word) (t : Ctx) : Ctx := { t with cntdNext := none, privInit := BitVec.ofNat 2 (v.toNat / 256) }

theorem thrAttr_uncounted {s : State} {c : CoreId} {x : CtxId} (v n : Word) (hn : n < 16#32) (hx : x ≠ fCtx) (hst : (s.ctx c x).st ≠ .idle)
    (hv : v.getLsbD 4 = false) (hc : (s.ctx c x).cntd = false) : s.thrAttr c x (ctlBits v n) = s.modCtx c x (·.attributed v) := by
  have bit : (ctlBits v n).getLsbD 4 = false := (ctlBits_high v n hn 4 (by decide) (by decide)).trans hv
  rw [(thrAttr_running (ctlBits v n) hx hst).1 (.inr bit), ctlBits_privInit v n hn, bit]
  exact modCtx_congr _ _ _ _ _ (by simp only [Ctx.attributed, hc, if_true])

/-- STOP asks a running thread to park (R64). -/
theorem thrCtl_stops {s : State} {c : CoreId} {x : CtxId} (v : Word) (wp : BitVec 2) (hx : x ≠ fCtx) (hv : v.getLsbD 4 = false)
    (hc : (s.ctx c x).cntd = false) (hst : (s.ctx c x).st = .ready ∨ (s.ctx c x).st = .wait ∨ (s.ctx c x).st = .sleep) :
    s.thrCtl c x (ctlBits v 2) wp = s.modCtx c x fun u => { u.attributed v with stopReq := true } := by
  have running : (s.ctx c x).st ≠ .idle := by rcases hst with h | h | h <;> simp [h]
  rw [thrCtl_commands, thrAttr_uncounted v 2 (by decide) hx running hv hc]
  dsimp only
  rw [if_neg (by decide), if_neg (by decide), if_pos (by decide)]
  have st : ((s.modCtx c x (·.attributed v)).ctx c x).st = (s.ctx c x).st := by rw [State.ctx_modCtx]; rfl
  unfold State.stopCtx
  rcases hst with h | h | h <;> simp only [st, h] <;> exact modCtx_modCtx ..

/-- RESUME makes a stopped thread READY; one in DFAULT repeats what a double fault ended (R54, R64). -/
theorem thrCtl_resumes {s : State} {c : CoreId} {x : CtxId} (v : Word) (wp : BitVec 2) (hx : x ≠ fCtx) (hv : v.getLsbD 4 = false)
    (hc : (s.ctx c x).cntd = false) (hh : s.core[c].halted = false)
    (hst : (s.ctx c x).st = .parked ∨ (s.ctx c x).st = .fault ∨ (s.ctx c x).st = .dfault) :
    OnlyCtx s (s.thrCtl c x (ctlBits v 4) wp) c x ∧
    (s.thrCtl c x (ctlBits v 4) wp).ctx c x =
      { (s.ctx c x).attributed v with st := .ready, redo := (s.ctx c x).redo || (s.ctx c x).st == .dfault } := by
  have stopped : (s.ctx c x).st ≠ .idle := by rcases hst with h | h | h <;> simp [h]
  rw [thrCtl_commands, thrAttr_uncounted v 4 (by decide) hx stopped hv hc]
  dsimp only
  rw [if_neg (by decide), if_pos (by decide)]
  have st : ((s.modCtx c x (·.attributed v)).ctx c x).st = (s.ctx c x).st := by rw [State.ctx_modCtx]; rfl
  have only := onlyCtx_modCtx s c x (·.attributed v)
  have ctx := State.ctx_modCtx s c x (·.attributed v)
  generalize s.modCtx c x (·.attributed v) = t at st only ctx
  have halted : t.core[c].halted = false := by
    obtain ⟨_, _, core, _⟩ := only
    rw [core]; exact hh
  have redone : (t.modCtx c x fun t => { t with redo := true }).core[c].halted = false := by
    simpa [State.modCtx, Core.modCtx] using halted
  unfold State.resumeCtx
  rcases hst with h | h | h <;> rw [st, h] <;> dsimp only
  · rw [makeReady_runs x halted]
    refine ⟨only.trans (onlyCtx_setSt ..), ?_⟩
    rw [ctx_setSt, ctx]
    rw [show (CtxState.parked == CtxState.dfault) = false from rfl, Bool.or_false]
    rfl
  · rw [makeReady_runs x halted]
    refine ⟨only.trans (onlyCtx_setSt ..), ?_⟩
    rw [ctx_setSt, ctx]
    rw [show (CtxState.fault == CtxState.dfault) = false from rfl, Bool.or_false]
    rfl
  · rw [makeReady_runs x redone]
    refine ⟨only.trans ((onlyCtx_modCtx ..).trans (onlyCtx_setSt ..)), ?_⟩
    rw [ctx_setSt, State.ctx_modCtx, ctx]
    rw [show (CtxState.dfault == CtxState.dfault) = true from rfl, Bool.or_true]

/-! ## RESET (R58, R59, R87) -/

/-- Every other context and the scratchpads are as they were. -/
def Beside (s t : State) (c : CoreId) (x : CtxId) : Prop :=
  (∀ d y, (d ≠ c ∨ y ≠ x) → t.ctx d y = s.ctx d y) ∧ t.spad = s.spad

theorem Beside.trans {s t u : State} {c : CoreId} {x : CtxId} (h : Beside s t c x) (g : Beside t u c x) : Beside s u c x :=
  ⟨fun d y e => (g.1 d y e).trans (h.1 d y e), g.2.trans h.2⟩

theorem FaultReach.beside {s t : State} {c : CoreId} {x : CtxId} (h : FaultReach s t c x) : Beside s t c x := by
  obtain ⟨cores, ctxs, _, rest⟩ := h
  refine ⟨fun d y e => ?_, by rw [rest]⟩
  by_cases hd : d = c
  · subst hd; exact ctxs y (e.resolve_left (· rfl))
  · exact congrArg (fun k : Core => k.ctx[y]) (cores d hd)

theorem beside_rouse (s : State) (c : CoreId) (x : CtxId) : Beside s (s.rouse c) c x := ⟨fun d y _ => ctx_rouse s c d y, rfl⟩

theorem beside_setCntd (s : State) (c : CoreId) (x : CtxId) (b : Bool) : Beside s (s.setCntd c x b) c x :=
  ⟨fun d y e => ctx_setCntd_ne _ _ _ _ _ _ e, by rw [setCntd_eq, seating_rest s c (Core.withCntd x b)]⟩

theorem beside_abandon (s : State) (c : CoreId) (x : CtxId) : Beside s (s.abandon c x) c x := by
  unfold State.abandon
  dsimp only
  split
  · exact ((faultReach_modCtx ..).trans (faultReach_countN ..)).beside
  · exact ⟨fun _ _ _ => rfl, rfl⟩

theorem beside_resetCtx (s : State) (c : CoreId) (x : CtxId) : Beside s (s.resetCtx c x) c x := by
  have divq (t : State) : Beside t (t.modCore c fun k => { k with divq := k.divq.filter (· ≠ x) }) c x :=
    ⟨fun d y _ => ctx_modCore_kept _ _ _ _ _ rfl, rfl⟩
  unfold State.resetCtx State.unrecorded
  dsimp only
  refine Beside.trans ?_ (faultReach_setSt ..).beside
  refine Beside.trans ?_ (divq _)
  refine Beside.trans ?_ (faultReach_modCtx ..).beside
  refine Beside.trans ?_ (faultReach_countN ..).beside
  refine Beside.trans ?_ (faultReach_countN ..).beside
  refine Beside.trans ?_ (faultReach_modCtx ..).beside
  exact (beside_abandon s c x).trans (faultReach_dropReads ..).beside

/-- What RESET makes of a context whose routines are abandoned (R59). -/
def Ctx.discarded (t : Ctx) : Ctx :=
    { t with wtag := Vector.replicate 8 {}, rtag := Vector.replicate 2 {}, dpend := Vector.replicate 64 false, frame := 0,
             rtop := 0, fbase := 0, doff := 0, roff := t.spillsz, rsv := none, wake := false, stopReq := false, longs := [],
             waitFor := none, served := none, redo := false, routine := none, held := none, slot := { t.slot with valid := false },
             ahead := none, impKnown := [], st := .idle }

theorem ctx_resetCtx (s : State) (c : CoreId) (x : CtxId) : (s.resetCtx c x).ctx c x = ((s.abandon c x).ctx c x).discarded := by
  unfold State.resetCtx State.unrecorded
  dsimp only
  rw [ctx_setSt, ctx_modCore_kept _ _ _ _ _ rfl, State.ctx_modCtx, ctx_countN, ctx_countN, State.ctx_modCtx, ctx_dropReads]
  rfl

theorem ctx_abandon (s : State) (c : CoreId) (x : CtxId) : (s.abandon c x).ctx c x =
    if (s.ctx c x).inRoutine || (s.ctx c x).held.isSome then
      { s.ctx c x with maband := true, progUpc := ((s.ctx c x).routineAt s.core[c]).1, prog := ((s.ctx c x).routineAt s.core[c]).2,
                       routine := none, held := none, moved := none, seen := 0, slot := { (s.ctx c x).slot with valid := false } }
    else s.ctx c x := by
  unfold State.abandon
  dsimp only
  split
  · rw [State.count, ctx_countN, State.ctx_modCtx]
  · rfl

/-- Context `u` with the attributes, and the fetch buffer, of `t`. -/
def Ctx.attributesOf (u t : Ctx) : Ctx :=
  { u with cntd := t.cntd, cntdNext := t.cntdNext, cntdErr := t.cntdErr, fbuf := t.fbuf, btbAt := t.btbAt, ahead := t.ahead,
           f16 := t.f16, privInit := t.privInit }

/-- Only attributes of the context differ, and what else of the core no routine or stack needs. -/
def AttributesOnly (s t : State) (c : CoreId) (x : CtxId) : Prop :=
  Beside s t c x ∧ t.ctx c x = (s.ctx c x).attributesOf (t.ctx c x) ∧ t.core[c].u = s.core[c].u

theorem AttributesOnly.trans {s t u : State} {c : CoreId} {x : CtxId} (h : AttributesOnly s t c x) (g : AttributesOnly t u c x) :
    AttributesOnly s u c x := by
  obtain ⟨hb, hx, hu⟩ := h
  obtain ⟨gb, gx, gu⟩ := g
  refine ⟨hb.trans gb, ?_, gu.trans hu⟩
  rw [hx] at gx
  exact gx

theorem attributesOnly_modCtx (s : State) (c : CoreId) (x : CtxId) (f : Ctx → Ctx) (hf : ∀ u, f u = u.attributesOf (f u)) :
    AttributesOnly s (s.modCtx c x f) c x := by
  refine ⟨(faultReach_modCtx ..).beside, ?_, ?_⟩
  · rw [State.ctx_modCtx]; exact hf _
  · simp [State.modCtx, Core.modCtx]

theorem attributesOnly_setCntd (s : State) (c : CoreId) (x : CtxId) (b : Bool) : AttributesOnly s (s.setCntd c x b) c x := by
  refine ⟨beside_setCntd .., ?_, ?_⟩
  · rw [ctx_setCntd]; rfl
  · rw [setCntd_eq, seating_core, Fin.getElem_fin, State.modCore_self, withCntd_fields]; rfl

theorem attributesOnly_thrAttr (s : State) (c : CoreId) (x : CtxId) (v : Word) : AttributesOnly s (s.thrAttr c x v) c x := by
  unfold State.thrAttr
  split
  · exact ⟨⟨fun _ _ _ => rfl, rfl⟩, rfl, rfl⟩
  · refine AttributesOnly.trans ?_ (attributesOnly_modCtx _ _ _ _ fun _ => rfl)
    split
    · exact attributesOnly_modCtx _ _ _ _ fun _ => rfl
    · split
      · exact attributesOnly_setCntd ..
      · exact attributesOnly_modCtx _ _ _ _ fun _ => rfl

theorem routineAt_attributesOf (u t : Ctx) {k l : Core} (h : l.u = k.u) : (u.attributesOf t).routineAt l = u.routineAt k := by
  unfold Ctx.routineAt Ctx.routineSlot
  rw [h]
  rfl

/-- RESET of a context: what its routines were is recorded, and its stacks are empty (R58, R59). -/
theorem thrCtl_resets (s : State) (c : CoreId) (x : CtxId) (v : Word) (wp : BitVec 2) :
    let n := (s.thrCtl c x (ctlBits v 8) wp).ctx c x
    let u := s.ctx c x
    Beside s (s.thrCtl c x (ctlBits v 8) wp) c x ∧ (∃ t : Ctx, n = t.discarded) ∧ n.pc = u.pc ∧ n.priv = u.priv ∧
    n.spillp = u.spillp ∧ n.spillsz = u.spillsz ∧
    (u.inRoutine = true → n.maband = true ∧ n.progUpc = (u.routineAt s.core[c]).1 ∧ n.prog = (u.routineAt s.core[c]).2) := by
  intro n u
  obtain ⟨beside, attr, regs⟩ := attributesOnly_thrAttr s c x (ctlBits v 8)
  have value : n = (((s.thrAttr c x (ctlBits v 8)).abandon c x).ctx c x).discarded := by
    simp only [n]
    rw [thrCtl_commands]
    dsimp only
    rw [if_pos (by decide), ctx_resetCtx]
  refine ⟨?_, ⟨_, value⟩, ?_⟩
  · rw [thrCtl_commands]
    dsimp only
    rw [if_pos (by decide)]
    exact beside.trans (beside_resetCtx ..)
  · rw [ctx_abandon] at value
    have place := routineAt_attributesOf u ((s.thrAttr c x (ctlBits v 8)).ctx c x) regs
    rw [attr] at value
    generalize (s.thrAttr c x (ctlBits v 8)).ctx c x = t at value place
    change n = (if u.inRoutine || u.held.isSome then _ else _ : Ctx).discarded at value
    rw [place] at value
    rw [value]
    split
    · exact ⟨rfl, rfl, rfl, rfl, fun _ => ⟨rfl, rfl, rfl⟩⟩
    · next h => exact ⟨rfl, rfl, rfl, rfl, fun inside => absurd (by rw [inside]; rfl) h⟩

theorem discarded_wtag (t : Ctx) (i : Fin 8) : t.discarded.wtag[i] = {} := by simp [Ctx.discarded]

/-- Settles O28: START, STOP and RESUME after the attributes (`thrCtl_starts`, `thrCtl_stops`, `thrCtl_resumes`), RESET by
`thrCtl_resets`, CNTD by `thrAttr_running`. -/
theorem threadsAreControlled : Obligations.ThreadsAreControlled := by
  constructor
  · intro s w c x v u up attr may hx hv hc hh
    refine ⟨fun hst hchk hr => ?_, fun hst => ?_, fun hst => ?_⟩
    · obtain ⟨only, ctx⟩ := thrCtl_starts v (s.who w).priv hx hv hc hst hchk hh hr
      refine ⟨_, congrArg Host.Outcome.next (writeBy_thrCtl may (ctlBits v 1)), only, ?_⟩
      rw [ctx]
      exact ⟨rfl, rfl, rfl, rfl, rfl, rfl, rfl, rfl, rfl, rfl, startPriv_min .., rfl, rfl, rfl, rfl⟩
    · refine congrArg Host.Outcome.next ((writeBy_thrCtl may (ctlBits v 2)).trans ?_)
      exact thrCtl_stops v _ hx hv (ctx_rouse s c c x ▸ hc) (ctx_rouse s c c x ▸ hst)
    · have halted : (s.rouse c).core[c].halted = false := by simpa [State.rouse] using hh
      obtain ⟨only, ctx⟩ := thrCtl_resumes v (s.who w).priv hx hv (ctx_rouse s c c x ▸ hc) halted (ctx_rouse s c c x ▸ hst)
      rw [ctx_rouse] at ctx
      exact ⟨_, congrArg Host.Outcome.next (writeBy_thrCtl may (ctlBits v 4)), only, ctx⟩
  · intro s w c x v may u
    constructor
    · obtain ⟨⟨others, spad⟩, ⟨t, gone⟩, pc, priv, spillp, spillsz, abandoned⟩ := thrCtl_resets (s.rouse c) c x v (s.who w).priv
      rw [ctx_rouse] at pc priv spillp spillsz abandoned
      refine ⟨_, congrArg Host.Outcome.next (writeBy_thrCtl may (ctlBits v 8)), fun d y e => (others d y e).trans (ctx_rouse ..), spad, ?_⟩
      have roff : (((s.rouse c).thrCtl c x (ctlBits v 8) (s.who w).priv).ctx c x).roff = u.spillsz := by
        rw [← spillsz, gone]; rfl
      have core : (s.rouse c).core[c].u = s.core[c].u := by simp [State.rouse]
      rw [show u.routineAt (s.rouse c).core[c] = u.routineAt s.core[c] from routineAt_attributesOf u u core] at abandoned
      intro n
      have inside : u.routine.isSome ∨ u.slot.valid = true → u.inRoutine = true := by simp [Ctx.inRoutine]
      have rest : n = t.discarded := gone
      refine ⟨?_, pc, priv, ?_, ?_, ?_, ?_, ?_, ?_, ?_, ?_, ?_, ?_, ?_, spillp, spillsz, ?_, roff, fun h => abandoned (inside h)⟩
      all_goals rw [rest]
      any_goals rfl
      exact discarded_wtag t
    · intro hx hst held attr
      have other : (s.rouse c).cntdElsewhere c x ↔ held := by simp only [State.cntdElsewhere, ctx_rouse, held]
      have bit : (ctlBits v 0).getLsbD 4 = v.getLsbD 4 := ctlBits_high v 0 (by decide) 4 (by decide) (by decide)
      obtain ⟨free, taken⟩ := thrAttr_running (s := s.rouse c) (ctlBits v 0) hx (by rw [ctx_rouse]; exact hst)
      rw [other, bit, ctlBits_privInit v 0 (by decide)] at free taken
      have write : exec (.thrCtlCntd w c x v) s = .next ((s.rouse c).thrAttr c x (ctlBits v 0)) := by
        refine congrArg Host.Outcome.next ((writeBy_thrCtl may (ctlBits v 0)).trans ?_)
        rw [thrCtl_commands]
        dsimp only
        rw [if_neg (by decide), if_neg (by decide), if_neg (by decide), if_neg (by simp)]
      rw [write]
      exact ⟨fun h => by rw [free h], fun h hv => by rw [taken h hv]⟩

end Sys2Proof.Machine
end

