-- ==== Sys2Proof/Proofs/RegisterRights.lean ====
section
/-! SUPPORT. WINDAT, and the rights of a register's block (R12, R34, R62, R63, R66 to R69, R155). -/

set_option Elab.async false

namespace Sys2Proof.Machine

open Sys2Proof

/-! ## Cores that are not in DOZE -/

theorem modCore_id {s : State} {c : CoreId} {f : Core → Core} (h : f s.core[c.val] = s.core[c.val]) : s.modCore c f = s := by
  unfold State.modCore
  rw [Fin.getElem_fin, h, Vector.set_getElem_self]

/-- A core that is not in DOZE is not asked to leave it. -/
theorem rouse_awake {s : State} {c : CoreId} (h : s.core[c].dozed = false) : s.rouse c = s := by
  have awake : (s.core[c.val].dozeWake || s.core[c.val].dozed) = s.core[c.val].dozeWake := by
    rw [show s.core[c.val].dozed = false from h, Bool.or_false]
  refine modCore_id ?_
  rw [awake]

theorem coreRuns_awake {s : State} {c : CoreId} (h : s.coreRuns c = true) : s.core[c].dozed = false := by
  simp only [State.coreRuns, Bool.and_eq_true, Bool.not_eq_true'] at h
  obtain ⟨⟨⟨_, awake⟩, _⟩, _⟩ := h
  exact awake

/-- A context that may make an access runs. -/
theorem canAccess_runs {s : State} {c : CoreId} {x : CtxId} {r : Reg} (h : s.canAccess (.ctx c x) r = true) :
    s.coreRuns c = true ∧ s.core[c].halted = false ∧ (s.ctx c x).st = .ready := by
  simpa [State.canAccess, and_assoc] using h

/-! ## WINDAT (R62, R66 to R69) -/

theorem regAt_windat : ∀ c : CoreId, regAt (coreWord c 0x384) = some (.windat c) := by decide +kernel

/-- A read that its agent may make goes to its register. -/
theorem readBy_may {s : State} {w : Agent} {a : Word} {r : Reg} (ha : regAt a = some r) (h : MayRead s w r) :
    s.readBy w a = s.regRead w r := by
  obtain ⟨nap, can, may⟩ := h
  simp only [State.readBy, ha, nap, can, may, Bool.false_eq_true, if_false, if_true, Bool.not_true]

theorem winOk_bank {s : State} {c : CoreId} {x y : CtxId} (h : (s.ctx c x).winsel.ctx = some y) :
    s.winOk c x = true ↔ (y = x ∨ (s.ctx c y).isStopped = true) ∧ ((s.ctx c y).priv = 3 → (s.ctx c x).priv = 3) := by
  simp only [State.winOk, h, Bool.and_eq_true, Bool.or_eq_true, beq_iff_eq, Bool.not_eq_true', Bool.and_eq_false_iff, beq_eq_false_iff_ne,
    bne_eq_false_iff_eq, ne_eq]
  tauto

theorem winsel_bank {w : WinSel} {y : CtxId} (h : w.bank.toNat = y.val) : w.ctx = some y := by
  simp only [WinSel.ctx, h]
  exact dif_pos y.isLt

/-- The data-stack entries of a bank: 64 of a thread, 16 of F (R66). -/
theorem bankHas_data {y : CtxId} {k : Nat} (hk : k < 64) (hf : y = fCtx → k < 16) : bankHas y 0 k = true := by
  unfold bankHas
  by_cases h : y = fCtx
  · simp [h, hf h]
  · simp [h, hk]

/-- AINC moves WINSEL on over the 64 data-stack entries (R66). -/
theorem advance_data {w : WinSel} (h : w.area = 0) :
    w.advance = { w with entry := if w.ainc then BitVec.ofNat 6 ((w.entry.toNat + 1) % 64) else w.entry } := by
  have size : areaSize w.area = 64 := by rw [h]; rfl
  unfold WinSel.advance
  rw [size]
  split
  · rfl
  · rfl

theorem bankRead_data {u : Ctx} {y : CtxId} {k : Fin 64} (h : bankHas y 0 k.val = true) :
    u.bankRead y 0 k.val = if u.f16 then u.dstk[k] &&& 0xFFFF else u.dstk[k] := by
  have place : (⟨k.val % 64, by omega⟩ : Fin 64) = k := Fin.ext (Nat.mod_eq_of_lt k.isLt)
  simp only [Ctx.bankRead, h, Bool.not_true, Bool.false_eq_true, if_false]
  exact congrArg u.entry place

/-- Entry `e` of the data stack takes `v`, and window `w` is dirty. -/
def Ctx.dataPut (u : Ctx) (e : Fin 64) (w : Fin 8) (v : Word) : Ctx :=
  { u with dstk := u.dstk.set e v, wtag := u.wtag.set w { u.wtag[w] with dirty := true } }

theorem bankWrite_data {u : Ctx} {y : CtxId} {k : Fin 64} (v : Word) (h : bankHas y 0 k.val = true) :
    u.bankWrite y 0 k.val v = u.dataPut k (⟨k.val / 8, by omega⟩ : Fin 8) v := by
  have place : (⟨k.val % 64, by omega⟩ : Fin 64) = k := Fin.ext (Nat.mod_eq_of_lt k.isLt)
  have window : (⟨k.val / 8 % 8, by omega⟩ : Fin 8) = ⟨k.val / 8, by omega⟩ := Fin.ext (Nat.mod_eq_of_lt (by omega))
  simp only [Ctx.bankWrite, h, Bool.not_true, Bool.false_eq_true, if_false]
  change u.dataPut (⟨k.val % 64, by omega⟩ : Fin 64) (⟨k.val / 8 % 8, by omega⟩ : Fin 8) v = _
  rw [place, window]

/-- Settles O30: WINDAT by the bank that WINSEL names, whose context must be stopped or the accessing one. -/
theorem windowsReach : Obligations.WindowsReach := by
  intro s c x y v k z denied moved open_ bank area entry inF
  have target : z.ctx = some y := winsel_bank bank
  have has : bankHas y 0 k.val = true := bankHas_data k.isLt inF
  have ok : s.winOk c x = true ↔ open_ := winOk_bank target
  have step (t : State) (ht : (t.ctx c x).winsel = z) : (t.modCtx c x fun u => { u with winsel := u.winsel.advance }) = t.modCtx c x moved := by
    refine modCtx_congr _ _ _ _ _ ?_
    simp only [ht, advance_data area, moved]
  have shut (w : Option Word) (h : ¬open_) : (s.windat c x w).2 = denied := by
    have no : (!s.winOk c x) = true := by rw [Bool.not_eq_true', Bool.eq_false_iff]; exact fun h' => h (ok.mp h')
    unfold State.windat
    rw [if_pos no]
  have reach (w : Option Word) (h : open_) : s.windat c x w = match w with
      | some v => (0, (s.modCtx c y fun t => t.bankWrite y 0 k.val v).modCtx c x fun u => { u with winsel := u.winsel.advance })
      | none => ((s.ctx c y).bankRead y 0 k.val, s.modCtx c x fun u => { u with winsel := u.winsel.advance }) := by
    have yes : ¬(!s.winOk c x) = true := by rw [ok.mpr h]; simp
    unfold State.windat
    rw [if_neg yes]
    change (match z.ctx with | none => _ | some y => _) = _
    rw [target]
    change (match w with | some v => (0, (s.modCtx c y fun t => t.bankWrite y z.area z.entry.toNat v).modCtx c x _)
                         | none => ((s.ctx c y).bankRead y z.area z.entry.toNat, _)) = _
    rw [area, entry]
  refine ⟨fun may => ?_, fun may => ?_⟩
  · have read : exec (.windatRead c x) s = .next (s.windat c x none).2 := by
      refine congrArg Host.Outcome.next (congrArg Prod.snd ((readBy_may (regAt_windat c) may).trans ?_))
      simp [State.regRead]
    rw [read]
    refine ⟨fun h => ⟨congrArg _ ?_, ?_⟩, fun h => congrArg _ (shut none h)⟩
    · rw [reach none h]; exact step s rfl
    · rw [reach none h]; exact bankRead_data has
  · obtain ⟨_, can, _⟩ := id may
    have awake := rouse_awake (coreRuns_awake (canAccess_runs (r := .windat c) can).1)
    have write : exec (.windatWrite c x v) s = .next (s.windat c x (some v)).2 := by
      refine congrArg Host.Outcome.next ((writeBy_core (regAt_windat c) rfl (by simp) may v).trans ?_)
      rw [awake]
      exact if_pos rfl
    rw [write]
    refine ⟨fun h => congrArg _ ?_, fun h => congrArg _ (shut (some v) h)⟩
    rw [reach (some v) h]
    refine (step _ ?_).trans ?_
    · by_cases e : x = y
      · subst e; rw [State.ctx_modCtx, bankWrite_data v has]; rfl
      · rw [State.ctx_modCtx_ne _ _ _ _ _ e]
    · rw [modCtx_congr s c y _ (fun u => u.dataPut k ⟨k.val / 8, by omega⟩ v) (bankWrite_data v has)]
      rfl

/-! ## Reads that clear, and rights (R12, R34, R63, R155) -/

theorem regAt_evcDrop : ∀ c : CoreId, regAt (BitVec.ofNat 32 (0x30000000 + 0x1000 * c.val + 0x620) &&& 0xFFFFFFFC) = some (.evcDrop c) := by
  decide +kernel

theorem regAt_sysBase : ∀ c : CoreId, regAt (BitVec.ofNat 32 (0x30000000 + 0x1000 * c.val + 0x10) &&& 0xFFFFFFFC) = some (.sysBase c) := by
  decide +kernel

theorem regAt_evqVec : ∀ c : CoreId, regAt (BitVec.ofNat 32 (0x30000000 + 0x1000 * c.val + 0x60C) &&& 0xFFFFFFFC) = some (.evqVec c) := by
  decide +kernel

theorem evqVec_aligned : ∀ c : CoreId,
    BitVec.ofNat 32 (0x30000000 + 0x1000 * c.val + 0x60C) &&& 0xFFFFFFFC = BitVec.ofNat 32 (0x30000000 + 0x1000 * c.val + 0x60C) := by
  decide +kernel

theorem regAt_pipeCtl : ∀ c : CoreId, regAt (coreWord c 0x20) = some (.pipeCtl c) := by decide +kernel

/-- PIPE_CTL with BTB_INV set empties the branch-target buffer (R155). -/
theorem pipeCtlWrite_invalidates (k : Core) (v : Word) : k.pipeCtlWrite (v ||| 4) =
    { k with btbEn := v.getLsbD 0, switchEn := v.getLsbD 1, quantum := BitVec.ofNat 4 (v.toNat / 256), btb := [] } := by
  have quantum : (bits (v ||| 4) 8 4 : BitVec 4) = BitVec.ofNat 4 (v.toNat / 256) := by
    rw [show (256 : Nat) = 2 ^ 8 from rfl, ← bits_eq_ofNat]
    apply BitVec.eq_of_getLsbD_eq
    intro i hi
    have clear : ∀ i < 4, (4#32).getLsbD (8 + i) = false := by decide
    simp [bits, clear i hi]
  have b0 : (v ||| 4).getLsbD 0 = v.getLsbD 0 := by simp
  have b1 : (v ||| 4).getLsbD 1 = v.getLsbD 1 := by simp
  have b2 : (v ||| 4).getLsbD 2 = true := by simp
  simp only [Core.pipeCtlWrite, quantum, b0, b1, b2, if_true]

/-- A context that runs may try any access (R12). -/
theorem canAccess_ctx {s : State} {d : CoreId} {x : CtxId} (r : Reg) (runs : s.coreRuns d = true) (free : s.core[d].halted = false)
    (ready : (s.ctx d x).st = .ready) : s.napAccess (.ctx d x) r = false ∧ s.canAccess (.ctx d x) r = true := by
  have napping : s.napAccess (.ctx d x) r = false := by simp [State.napAccess]
  exact ⟨napping, by rw [State.canAccess, runs, free, ready]; rfl⟩

/-- The rights of a context over EVQ_VEC (R34, R63). -/
theorem mayWrite_evqVec (s : State) (c d : CoreId) (x : CtxId) : s.mayWrite (.ctx d x) (.evqVec c) =
    if (s.ctx d x).priv = 0 then .refused else if d = c then .ok else .ignored := by
  simp [State.mayWrite, State.rightOf, State.who, Reg.threadOf, Reg.block]

/-- A context's register access that is refused faults with PRIV at the register's address (R34). -/
theorem preciseFault_took {s : State} {c : CoreId} {x : CtxId} (code : Byte) (a : Word) (runs : s.coreRuns c = true)
    (ready : (s.ctx c x).st = .ready) (routine : (s.ctx c x).routine = none) : TookFault s (s.preciseFault c x code a) c x code a false := by
  obtain ⟨hm, hn⟩ := coreRuns_power runs
  let s2 := (s.modCtx c x fun t => { t with routine := none, moved := none, seen := 0, image := none }).count c x 0x29
  have own2 : s2.ctx c x = { s.ctx c x with routine := none, moved := none, seen := 0, image := none } := by
    rw [State.count_ctx, State.ctx_modCtx]
  have reach2 : FaultReach s s2 c x := (faultReach_modCtx ..).trans (faultReach_countN ..)
  obtain ⟨s3, eq3, reach3, own3⟩ := takeFault_reach (s := s2) code a false (by rw [own2, ready]; decide)
  rw [State.preciseFault]
  rw [eq3]
  refine tookFault_of hm (by rw [hn]; decide) (reach2.trans reach3) ?_
  rw [own3, own2]
  simp only [Bool.false_eq_true, if_false, routine]

theorem TookFault.idle {s t : State} {c : CoreId} {x : CtxId} {code : Byte} {a : Word} {b : Bool} (h : TookFault s t c x code a b)
    (idle : AgentIdle s) : AgentIdle t := by
  obtain ⟨_, _, _, _, _, rest⟩ := h
  rw [rest]
  exact idle

/-- Settles O31: by the rights of each register's block, which its agent meets or not. -/
theorem registersFollowRights : Obligations.RegistersFollowRights := by
  intro s w c d x v at_
  refine ⟨fun may => ?_, fun may => ?_, fun may idle => ?_, fun runs free ready idle => ⟨fun priv e => ?_, fun priv e => ?_, fun priv routine => ?_⟩⟩
  · refine congrArg Host.Outcome.next (congrArg Prod.snd ((readBy_may (regAt_evcDrop c) may).trans (b := if w = .debug then (s.regWord w (.evcDrop c), s) else (s.regWord w (.evcDrop c), s.regClear (.evcDrop c))) rfl) |>.trans ?_)
    split <;> rfl
  · refine congrArg Host.Outcome.next ((writeBy_core (regAt_pipeCtl c) rfl (by simp) may (v ||| 4)).trans ?_)
    exact congrArg (State.modCore _ c) (funext fun k => pipeCtlWrite_invalidates k v)
  · refine congrArg Host.Outcome.next ((congrArg State.ringKick (writeBy_core (regAt_sysBase c) rfl (by simp) may v)).trans ?_)
    exact ringKick_idle idle
  · obtain ⟨nap, can⟩ := canAccess_ctx (.evqVec c) runs free ready
    have may : MayWrite s (.ctx d x) (.evqVec c) := ⟨nap, can, by
      rw [mayWrite_evqVec, if_neg (by rintro h; simp [h] at priv), if_pos e.symm]⟩
    refine congrArg Host.Outcome.next ((congrArg State.ringKick (writeBy_core (regAt_evqVec c) rfl (by simp) may v)).trans ?_)
    rw [rouse_awake (e ▸ coreRuns_awake runs)]
    exact ringKick_idle idle
  · obtain ⟨nap, can⟩ := canAccess_ctx (.evqVec c) runs free ready
    have ignored : s.mayWrite (.ctx d x) (.evqVec c) = .ignored := by
      rw [mayWrite_evqVec, if_neg (by rintro h; simp [h] at priv), if_neg (Ne.symm e)]
    have write : s.writeBy (.ctx d x) (at_ 0x60C &&& 0xFFFFFFFC) v = s := by
      simp only [State.writeBy, at_, regAt_evqVec c, nap, can, ignored, Bool.not_true, Bool.false_eq_true, if_false]
    refine congrArg Host.Outcome.next ((congrArg State.ringKick write).trans (ringKick_idle idle))
  · obtain ⟨nap, can⟩ := canAccess_ctx (.evqVec c) runs free ready
    have refused : s.mayWrite (.ctx d x) (.evqVec c) = .refused := by rw [mayWrite_evqVec, if_pos priv]
    have write : s.writeBy (.ctx d x) (at_ 0x60C &&& 0xFFFFFFFC) v = s.preciseFault d x fcPriv (at_ 0x60C) := by
      rw [State.writeBy]
      simp only [at_, regAt_evqVec c, nap, can, refused, Bool.not_true, Bool.false_eq_true, if_false]
      rw [evqVec_aligned c]
    have took := preciseFault_took fcPriv (at_ 0x60C) runs ready routine
    exact ⟨_, congrArg Host.Outcome.next ((congrArg State.ringKick write).trans (ringKick_idle (took.idle idle))), took⟩

end Sys2Proof.Machine
end

