-- ==== Sys2Proof/Proofs/LoadUnit.lean ====
section
/-! SUPPORT. The load unit: HOLD, LOCK and release, UC_CMD, and the start-up check (R160, R161, R184 to R189). -/

set_option Elab.async false

namespace Sys2Proof.Machine

open Sys2Proof

/-! ## UC_LDCTL (R185, R187) -/

theorem regAt_ucLdctl : regAt 0x30010000 = some .ucLdctl := by decide +kernel

theorem regAt_ucCmd : regAt 0x30010024 = some .ucCmd := by decide +kernel

theorem writeBy_ucLdctl {s : State} {w : Agent} (may : MayWrite s w .ucLdctl) (v : Word) :
    s.writeBy w 0x30010000 v = s.ldctlWrite (w == .ring) (agentCore w) v := writeBy_may regAt_ucLdctl may v

theorem writeBy_ucCmd {s : State} {w : Agent} (may : MayWrite s w .ucCmd) (v : Word) :
    s.writeBy w 0x30010024 v = s.ucCmd (w == .ring) v := writeBy_may regAt_ucCmd may v

/-- CORES, HOLD and LOCK of a word of UC_LDCTL. -/
theorem ldctlWord_bits (cores : BitVec 16) (r : Word) (h : ∀ i < 16, r.getLsbD i = false) :
    (bits (fld cores 0 ||| r) 0 16 : BitVec 16) = cores ∧ (fld cores 0 ||| r).getLsbD 16 = r.getLsbD 16 ∧
    (fld cores 0 ||| r).getLsbD 17 = r.getLsbD 17 := by
  refine ⟨?_, by simp [fld], by simp [fld]⟩
  apply BitVec.eq_of_getLsbD_eq
  intro i hi
  have low : i < 32 := by omega
  have zero : r.getLsbD i = false := h i hi
  rw [BitVec.getLsbD_eq_getElem low] at zero
  simp [bits, fld, zero, hi, low]

/-- A write of UC_LDCTL with neither HOLD shut out nor held: it selects the cores. -/
theorem ldctlWrite_open {s : State} {ring : Bool} {own : Option CoreId} {v : Word} (hold : s.load.hold = false) :
    s.ldctlWrite ring own v = s.modLoad fun l =>
      let l := { l with cores := bits v 0 16 }
      let self := match own with | some c => l.cores.getLsbD c.val | none => false
      let l := if v.getLsbD 16 then (if l.lock then l else if self then { l with selfHold := true } else { l with hold := true, owner := ring })
        else l
      { l with lock := l.lock || v.getLsbD 17 } := by
  have free : ¬s.load.shut ring = true := by simp [LoadUnit.shut, hold]
  unfold State.ldctlWrite
  rw [if_neg free]
  simp only [State.modLoad, hold, Bool.false_eq_true, if_false, Bool.false_or]
  split
  · split
    · rfl
    · cases own with
      | none => rfl
      | some c =>
        dsimp only
        split <;> rfl
  · rfl

/-- No core is held: a release clears HOLD alone. -/
theorem releaseHold_none {s : State} (h : ∀ c : CoreId, s.core[c].held = false) :
    s.releaseHold = s.modLoad fun l => { l with hold := false } := by
  have same (l : List CoreId) (t : State) (ht : ∀ c : CoreId, t.core[c].held = false) : l.foldl State.releaseHeld t = t := by
    induction l with
    | nil => rfl
    | cons c cs ih =>
      have one : t.releaseHeld c = t := by
        have none_ : (!t.core[c].held) = true := by rw [ht c]; rfl
        unfold State.releaseHeld
        exact if_pos none_
      rw [List.foldl_cons, one, ih]
  exact same _ _ h

/-- A write of UC_LDCTL while the writer's own kind holds. -/
theorem ldctlWrite_held {s : State} {ring : Bool} {own : Option CoreId} {v : Word} (hold : s.load.hold = true) (owner : s.load.owner = ring) :
    s.ldctlWrite ring own v =
      (if v.getLsbD 16 then s else s.releaseHold).modLoad fun l => { l with lock := l.lock || v.getLsbD 17 } := by
  have free : ¬s.load.shut ring = true := by simp [LoadUnit.shut, owner]
  have kept : (s.modLoad fun l => if l.hold then l else { l with cores := bits v 0 16 }) = s := by
    simp only [State.modLoad, hold, if_true]
  unfold State.ldctlWrite
  rw [if_neg free, kept]
  dsimp only
  rw [hold, Bool.true_or]
  simp only [if_true]

/-! ## UC_CMD (R184, R189) -/

/-- The writer is not shut out, nothing is locked, ADDR is in range, and every target core is held. -/
def LoadReady (s : State) (ring : Bool) : Prop :=
  (s.load.hold = false ∨ s.load.owner = ring) ∧ s.load.lock = false ∧ s.load.inRange true = true ∧
  ∀ c : CoreId, s.load.cores.getLsbD c.val = true → s.core[c].held = true

theorem LoadReady.admitted {s : State} {ring : Bool} (h : LoadReady s ring) : ¬(s.load.shut ring || s.load.lock) = true := by
  obtain ⟨free, lock, _, _⟩ := h
  rcases free with h | h <;> simp [LoadUnit.shut, h, lock]

theorem LoadReady.allHeld {s : State} {ring : Bool} (h : LoadReady s ring) :
    ¬((List.finRange 16).any fun c => s.load.cores.getLsbD c.val && !s.core[c].held) = true := by
  obtain ⟨_, _, _, held⟩ := h
  rw [List.any_eq_true]
  rintro ⟨c, -, h⟩
  rw [Bool.and_eq_true, Bool.not_eq_true'] at h
  exact Bool.false_ne_true (h.2.symm.trans (held c h.1))

theorem ucWrite_stores {s : State} {ring : Bool} {f : Core → Core} (h : LoadReady s ring) (put : s.loadPut = some f) :
    s.ucWrite ring = (s.allCores fun c k => if s.load.cores.getLsbD c.val && k.held then f k else k).modLoad LoadUnit.advance := by
  obtain ⟨_, _, range, _⟩ := id h
  unfold State.ucWrite
  rw [if_neg h.admitted, if_neg (by rw [range]; simp)]
  dsimp only
  rw [if_neg h.allHeld, put]

theorem ucWrite_refuses {s : State} {ring : Bool} (h : LoadReady s ring) (put : s.loadPut = none) (space : s.load.space = 0) :
    s.ucWrite ring = (s.modLoad fun l => { l with badWord := true }).modLoad LoadUnit.advance := by
  obtain ⟨_, _, range, _⟩ := id h
  unfold State.ucWrite
  rw [if_neg h.admitted, if_neg (by rw [range]; simp)]
  dsimp only
  rw [if_neg h.allHeld, put]
  simp only [State.modLoad, space]
  rfl

theorem advance_eq (l : LoadUnit) : l.advance = { l with addr := if l.ainc then l.addr + 1 else l.addr } := by
  unfold LoadUnit.advance
  split <;> rfl

/-- A stored value reaches exactly the target cores. -/
theorem ucWrite_reaches {s : State} {ring : Bool} {f : Core → Core} (h : LoadReady s ring) (put : s.loadPut = some f) :
    s.ucWrite ring = { s with core := (s.ucWrite ring).core,
                              load := { s.load with addr := if s.load.ainc then s.load.addr + 1 else s.load.addr } } ∧
    ∀ c : CoreId, (s.ucWrite ring).core[c] = if s.load.cores.getLsbD c.val then f s.core[c] else s.core[c] := by
  obtain ⟨_, _, _, held⟩ := id h
  rw [ucWrite_stores h put]
  refine ⟨by rw [← advance_eq]; rfl, fun c => ?_⟩
  simp only [State.modLoad, State.allCores, Fin.getElem_fin, Vector.getElem_ofFn]
  cases hc : s.load.cores.getLsbD c.val with
  | false => simp
  | true =>
    have : s.core[c.val].held = true := held c hc
    simp [this]

/-- ADDR as the number of a patch register. -/
theorem patchAt {a : BitVec 12} {k : Fin 64} (h : a.toNat = k.val) : (bits a 0 6 : BitVec 6).toFin = k := by
  apply Fin.ext
  show (bits a 0 6 : BitVec 6).toNat = k.val
  rw [bits_eq_ofNat, BitVec.toNat_ofNat, h, pow_zero, Nat.div_one]
  exact Nat.mod_eq_of_lt k.isLt

theorem ucRead_patch {s : State} {ring : Bool} {c : CoreId} {k : Fin 64} (free : s.load.hold = false ∨ s.load.owner = ring)
    (hc : s.load.cores.getLsbD c.val = true) (first : ∀ d : CoreId, d.val < c.val → s.load.cores.getLsbD d.val = false)
    (space : s.load.space = 2) (addr : s.load.addr.toNat = k.val) :
    s.ucRead ring = (s.modLoad fun l => { l with data := l.data.set 0 s.core[c].patch[k] }).modLoad LoadUnit.advance := by
  have open_ : ¬s.load.shut ring = true := by rcases free with h | h <;> simp [LoadUnit.shut, h]
  have number : s.load.space.toNat = 2 := by rw [space]; rfl
  have range : s.load.inRange false = true := by
    simp only [LoadUnit.inRange, number, addr]
    simp
  have found : (List.finRange 16).find? (fun c => s.load.cores.getLsbD c.val) = some c := by
    rw [List.find?_eq_some_iff_getElem]
    refine ⟨hc, c.val, by simp, by simp, fun j hj => ?_⟩
    simpa using first ⟨j, by omega⟩ hj
  unfold State.ucRead
  rw [if_neg open_, if_neg (by rw [range]; simp), found]
  dsimp only
  rw [number]
  simp only [patchAt addr]

/-! ## The start-up check (R160, R161) -/

/-- ROM words among a store's errors. -/
def romErrors (l : List Nat) : List Nat := l.filter (· < 0xC00)

/-- The last word that the check cannot correct. -/
def Core.worstWord (k : Core) : Option Nat := (romErrors k.csBad ++ k.vsBad).getLast?

/-- A core after its start-up check. -/
def Core.checked (bad : Bool) (k : Core) : Core :=
  { k with
    chkDone := true, chkFail := bad || k.worstWord.isSome, ram := [], uvec := [], patch := Vector.replicate 64 0,
    csCorr := romErrors k.csCorr, csBad := romErrors k.csBad, ccnt := satAdd k.ccnt ((romErrors k.csCorr).length + k.vsCorr.length),
    cErrAddr := (k.worstWord.map (BitVec.ofNat 12)).getD k.cErrAddr, cUncorr := k.cUncorr || k.worstWord.isSome }

theorem storeBad_checkStore (k : Core) : k.checkStore.storeBad = k.worstWord.isSome := by
  have lists : k.checkStore.csBad = romErrors k.csBad ∧ k.checkStore.vsBad = k.vsBad := by
    unfold Core.checkStore
    dsimp only
    split <;> exact ⟨rfl, rfl⟩
  rw [Core.storeBad, lists.1, lists.2, Core.worstWord, Bool.eq_iff_iff]
  simp only [Bool.or_eq_true, Bool.not_eq_true', List.isEmpty_eq_false_iff, List.getLast?_isSome, ne_eq, List.append_eq_nil_iff]
  tauto

theorem checkStore_checked (bad : Bool) (k : Core) :
    { k.checkStore with chkDone := true, chkFail := bad || k.checkStore.storeBad, ram := [], uvec := [], patch := Vector.replicate 64 0 } =
      k.checked bad := by
  rw [storeBad_checkStore]
  unfold Core.checkStore Core.checked
  have worst : ((k.csBad.filter (· < 0xC00)) ++ k.vsBad).getLast? = k.worstWord := rfl
  dsimp only
  rw [worst]
  cases k.worstWord with
  | none => simp only [Option.isSome_none, Bool.or_false]; rfl
  | some a => simp only [Option.isSome_some, Bool.or_true]; rfl

theorem bootAuto_booted {s : State} (h : s.dict.bootWait = false) : s.bootAuto = s := by
  unfold State.bootAuto
  rw [h, Bool.false_and]
  rfl

/-- What the end of the check leaves before its error is raised. -/
def State.checkEnds (s : State) (c : CoreId) (bad : Bool) : State :=
  (s.countN c none 0x39 ((romErrors s.core[c].csCorr).length + s.core[c].vsCorr.length)).modCore c (Core.checked bad)

theorem checkEnds_core (s : State) (c : CoreId) (bad : Bool) : (s.checkEnds c bad).core = (s.modCore c (Core.checked bad)).core := by
  simp only [State.checkEnds, State.modCore, State.countN_core]

theorem checkEnds_rest (s : State) (c : CoreId) (bad : Bool) : RestKept s (s.checkEnds c bad) :=
  (countN_rest ..).trans (modCore_rest ..)

theorem exec_checkDone {s : State} {c : CoreId} (bad : Bool) (idle : AgentIdle s) (runs : s.mainRuns = true) (boot : s.dict.bootWait = false)
    (chk : s.core[c].chkDone = false) (inv : s.core[c].invBusy = false) :
    exec (.controlStoreCheckDone c bad) s = .next (if (s.checkEnds c bad).core[c].chkFail then
      (s.checkEnds c bad).raise (csSrc c) (s.checkEnds c bad).core[c].cstat else s.checkEnds c bad) := by
  have goes : ¬(!s.mainRuns || s.core[c].chkDone || s.core[c].invBusy) = true := by rw [runs, chk, inv]; simp
  have power : s.power.mainRst = false := by
    simp only [State.mainRuns, Bool.and_eq_true, Bool.not_eq_true'] at runs
    exact runs.1.1
  have ends : exec (.controlStoreCheckDone c bad) s = .next (if (s.checkEnds c bad).core[c].chkFail then
      (s.checkEnds c bad).raise (csSrc c) (s.checkEnds c bad).core[c].cstat else s.checkEnds c bad).bootAuto.ringKick := by
    refine (if_neg goes).trans ?_
    rw [State.checkEnds, ← funext (checkStore_checked bad)]
    rfl
  rw [ends]
  refine congrArg _ ?_
  split
  · obtain ⟨_, _, rest⟩ := sourcesOnly_raise (s := s.checkEnds c bad) (csSrc c) (s.checkEnds c bad).core[c].cstat power
    have booted : ((s.checkEnds c bad).raise (csSrc c) (s.checkEnds c bad).core[c].cstat).dict.bootWait = false := by rw [rest]; exact boot
    have still : AgentIdle ((s.checkEnds c bad).raise (csSrc c) (s.checkEnds c bad).core[c].cstat) := by rw [rest]; exact idle
    rw [bootAuto_booted booted, ringKick_idle still]
  · have still : AgentIdle (s.checkEnds c bad) := idle
    rw [bootAuto_booted (s := s.checkEnds c bad) boot, ringKick_idle still]

theorem modCore_congr {s : State} {c : CoreId} {f g : Core → Core} (h : f s.core[c] = g s.core[c]) : s.modCore c f = s.modCore c g := by
  simp only [State.modCore, h]

/-- A raise from a state that differs in event counters alone. -/
theorem Raised.of_counts {u v t : State} {n : Nat} {p : Word} (h : v = { u with counters := { u.counters with cnt := v.counters.cnt } })
    (r : Raised v t n p) : Raised u t n p := by
  obtain ⟨own, others, cores, rest⟩ := r
  have src (m : Nat) : v.src m = u.src m := by rw [h]; rfl
  refine ⟨fun en => own (by rw [src]; exact en), fun m e => (others m e).trans (src m), fun d => ?_, ?_⟩
  · rw [cores d, h]
  · rw [rest, h]

theorem csSrc_kind : ∀ c : CoreId, srcKind (csSrc c).val ≠ .reserved := by decide +kernel

/-- Settles O32: UC_LDCTL by whether HOLD is set, UC_CMD by `ucWrite_reaches` and `ucRead_patch`, the check by `exec_checkDone`. -/
theorem loadUnitActs : Obligations.LoadUnitActs := by
  constructor
  · intro s w cores may
    obtain ⟨ask16, ask17⟩ : (0x10000 : Word).getLsbD 16 = true ∧ (0x10000 : Word).getLsbD 17 = false := by decide
    refine ⟨fun hold lock others => ?_, fun c x e hold lock own => ?_, fun hold owner => ?_, fun free => ?_, fun hold owner none_ => ?_⟩
    · refine congrArg Host.Outcome.next ((writeBy_ucLdctl may _).trans ?_)
      obtain ⟨c16, hold16, lock17⟩ := ldctlWord_bits cores 0x10000 (by decide)
      rw [ldctlWrite_open hold, c16, hold16.trans ask16, lock17.trans ask17]
      cases w
      case ctx c x => simp only [State.modLoad, agentCore, lock, others c x rfl, if_true, Bool.false_eq_true, if_false, Bool.or_false]
      all_goals simp only [State.modLoad, agentCore, lock, if_true, Bool.false_eq_true, if_false, Bool.or_false]
    · refine congrArg Host.Outcome.next ((writeBy_ucLdctl may _).trans ?_)
      obtain ⟨c16, hold16, lock17⟩ := ldctlWord_bits cores 0x10000 (by decide)
      rw [ldctlWrite_open hold, c16, hold16.trans ask16, lock17.trans ask17, e]
      simp only [State.modLoad, agentCore, lock, own, if_true, Bool.false_eq_true, if_false, Bool.or_false]
    · refine congrArg Host.Outcome.next ((writeBy_ucLdctl may _).trans ?_)
      have shut : s.load.shut (w == .ring) = true := by simp [LoadUnit.shut, hold, owner]
      exact if_pos shut
    · refine congrArg Host.Outcome.next ((writeBy_ucLdctl may _).trans ?_)
      obtain ⟨c16, hold16, lock17⟩ := ldctlWord_bits s.load.cores (flag s.load.hold 16 ||| flag s.load.lock 17 ||| 0x20000)
        (by cases s.load.hold <;> cases s.load.lock <;> decide)
      have word : s.load.ctl ||| 0x20000 = fld s.load.cores 0 ||| (flag s.load.hold 16 ||| flag s.load.lock 17 ||| 0x20000) := by
        simp only [LoadUnit.ctl, BitVec.or_assoc]
      have bit16 : (flag s.load.hold 16 ||| flag s.load.lock 17 ||| 0x20000).getLsbD 16 = s.load.hold := by
        cases s.load.hold <;> cases s.load.lock <;> decide
      have bit17 : (flag s.load.hold 16 ||| flag s.load.lock 17 ||| 0x20000).getLsbD 17 = true := by
        cases s.load.hold <;> cases s.load.lock <;> decide
      rw [bit16] at hold16
      rw [bit17] at lock17
      rw [word]
      rcases Bool.eq_false_or_eq_true s.load.hold with hold | hold
      · rw [ldctlWrite_held hold (free.resolve_left (by rw [hold]; simp)), hold16, lock17, hold]
        simp [State.modLoad]
      · rw [ldctlWrite_open hold, c16, hold16, lock17, hold]
        simp only [State.modLoad, Bool.false_eq_true, if_false, Bool.or_true]
    · refine congrArg Host.Outcome.next ((writeBy_ucLdctl may _).trans ?_)
      obtain ⟨_, hold16, lock17⟩ := ldctlWord_bits s.load.cores 0#32 (by decide)
      rw [BitVec.or_zero] at hold16 lock17
      rw [ldctlWrite_held hold owner, hold16, lock17, releaseHold_none none_]
      simp [State.modLoad]
  · intro s w l next target free
    refine ⟨fun may adm lock held => ⟨fun space ram => ⟨fun legal => ?_, fun bad => ?_⟩, fun k space addr ok => ?_⟩,
      fun may adm c k hc first space addr => ?_, fun c idle hold hc outside => ?_, fun c bad idle runs boot chk inv => ?_⟩
    · have ready : LoadReady s (w == .ring) := ⟨adm, lock, by simp [LoadUnit.inRange, isRam, l, space, ram], held⟩
      have put : s.loadPut = some fun k => k.putWord l.addr l.word := by
        have legal' : legalWord s.load.word = true := legal
        simp [State.loadPut, show s.load.space = 0 from space, legal', l]
      exact ⟨_, congrArg Host.Outcome.next (writeBy_ucCmd may 1), ucWrite_reaches ready put⟩
    · have ready : LoadReady s (w == .ring) := ⟨adm, lock, by simp [LoadUnit.inRange, isRam, l, space, ram], held⟩
      have put : s.loadPut = none := by
        have bad' : legalWord s.load.word = false := bad
        simp [State.loadPut, show s.load.space = 0 from space, bad']
      refine congrArg Host.Outcome.next ((writeBy_ucCmd may 1).trans ?_)
      refine (ucWrite_refuses ready put space).trans ?_
      simp only [State.modLoad, advance_eq]
      rfl
    · have ready : LoadReady s (w == .ring) := ⟨adm, lock, by simp [LoadUnit.inRange, l, space, addr], held⟩
      have put : s.loadPut = some fun j => j.putPatch k l.data[0] := by
        have ok' : s.patchOk s.load.data[0] = true := ok
        simp [State.loadPut, show s.load.space = 2 from space, ok', patchAt addr, l]
      exact ⟨_, congrArg Host.Outcome.next (writeBy_ucCmd may 1), ucWrite_reaches ready put⟩
    · refine congrArg Host.Outcome.next ((writeBy_ucCmd may 2).trans ?_)
      refine (ucRead_patch adm hc first space addr).trans ?_
      simp only [State.modLoad, advance_eq]
      rfl
    · have take : s.core[c].takeable = true := by rw [Core.takeable, outside]
      have free_ : s.takeX c = s := by rw [State.takeX, outside]
      have cond : (s.load.hold && s.load.cores.getLsbD c.val && s.core[c].takeable) = true := by
        rw [hold, take, show s.load.cores.getLsbD c.val = true from hc]; rfl
      refine (if_pos cond).trans (congrArg _ ?_)
      rw [free_]
      exact ringKick_idle idle
    · intro rom worst u
      have core : s.modCore c (Core.checked bad) = u := modCore_congr rfl
      have fail : (s.checkEnds c bad).core[c].chkFail = (bad || worst.isSome) := by
        rw [checkEnds_core, core]
        simp [u, worst]
      have same : s.checkEnds c bad = { u with counters := { u.counters with cnt := (s.checkEnds c bad).counters.cnt } } := by
        have rest := checkEnds_rest s c bad
        rw [RestKept, checkEnds_core, core] at rest
        exact rest
      rw [exec_checkDone bad idle runs boot chk inv, fail]
      refine ⟨fun good none_ => ?_, fun wrong => ?_⟩
      · rw [if_neg (by rw [good, none_]; simp)]
        exact ⟨_, rfl, same⟩
      · have any : (bad || worst.isSome) = true := by
          rcases wrong with h | h
          · rw [h, Bool.true_or]
          · rw [Option.isSome_iff_ne_none.mpr h, Bool.or_true]
        rw [if_pos any]
        have power : s.power.mainRst = false := by
          simp only [State.mainRuns, Bool.and_eq_true, Bool.not_eq_true'] at runs
          exact runs.1.1
        have word : (s.checkEnds c bad).core[c].cstat = u.core[c].cstat := by rw [checkEnds_core, core]
        rw [word]
        exact ⟨_, rfl, Raised.of_counts same (raise_raised (csSrc c) u.core[c].cstat power (csSrc_kind c))⟩

end Sys2Proof.Machine
end

