-- ==== Sys2Proof/Proofs/TransitEntries.lean ====
section
/-! SUPPORT. Acceptance: an entry that is accepted joins its queue (R200 to R211). -/

set_option Elab.async false

namespace Sys2Proof.Machine

open Sys2Proof

/-! ## The Ephemeris-low source (R208, R325) -/

theorem UptoEvents.refl (s : State) : UptoEvents s s := ⟨fun _ _ => rfl, fun _ => rfl, rfl⟩

theorem UptoEvents.trans {s t u : State} (h : UptoEvents s t) (g : UptoEvents t u) : UptoEvents s u := by
  obtain ⟨src1, core1, rest1⟩ := h
  obtain ⟨src2, core2, rest2⟩ := g
  refine ⟨fun n e => (src2 n e).trans (src1 n e), fun d => ?_, ?_⟩
  · rw [core2 d, core1 d]
  · rw [rest2, rest1]

theorem SourcesOnly.upto {s t : State} (h : SourcesOnly s t [176]) : UptoEvents s t := by
  obtain ⟨src, core, rest⟩ := h
  refine ⟨fun n e => src n (by simpa using e), fun d => ?_, rest⟩
  rw [core d]

/-- A source that becomes inactive marks a spurious record of its core at most (R340). -/
theorem uptoEvents_wentQuiet (s : State) (v : Source) : UptoEvents s (s.wentQuiet v) := by
  have mark (c : CoreId) : UptoEvents s (s.modCore c fun k => { k with evSpur := true, spurCnt := satInc k.spurCnt }) := by
    refine ⟨fun _ _ => rfl, fun d => ?_, rfl⟩
    by_cases hd : d = c
    · subst hd; simp only [Fin.getElem_fin, State.modCore_self]
    · simp only [Fin.getElem_fin, State.modCore_ne _ _ _ _ hd]
  unfold State.wentQuiet
  split
  · split
    · exact .refl s
    · exact (mark _).trans (sourcesOnly_countB _ 0x4F 1 [176]).upto
  · exact .refl s

/-- FREE's level reaches events alone (R208). -/
theorem uptoEvents_ephLevel (s : State) : UptoEvents s s.ephLevel := by
  have raised (t : State) (p : Word) : UptoEvents t (t.raiseNow 176 p) := (sourcesOnly_raiseAt ..).upto
  have set (t : State) (v : Source) : UptoEvents t (t.setSrc 176 v) := (sourcesOnly_setSrc t 176 v).upto
  unfold State.ephLevel State.setLevel
  split
  · exact .refl s
  · dsimp only
    split
    · exact set ..
    split
    · split
      · split
        · exact (set ..).trans (raised ..)
        · exact set ..
      · exact ((set ..).trans (set ..)).trans (uptoEvents_wentQuiet ..)
    · split
      · exact (set ..).trans (raised ..)
      · exact set ..

/-! ## Entries and queues (R200 to R202) -/

theorem queue_setQueue (x : Transit) (k : Nat) (q : Queue) (j : Nat) : (x.setQueue k q).queue j = if k = j then q else x.queue j := by
  simp only [Transit.queue, Transit.setQueue]
  by_cases hq : q = {}
  · rw [if_pos hq, alGet_alErase]
    split
    · rw [hq, Option.getD_none]
    · rfl
  · rw [if_neg hq, alGet_alSet]
    split <;> rfl

theorem entry_setEntry (x : Transit) (i : Nat) (e : EphEntry) (j : Nat) : (x.setEntry i e).entry j = if i = j then e else x.entry j := by
  simp only [Transit.entry, Transit.setEntry, alGet_alSet]
  split <;> rfl

/-- Only LINK fields of entries differ. -/
def LinksOnly (x y : Transit) : Prop :=
  y = { x with eph := y.eph } ∧ ∀ j, y.entry j = { x.entry j with link := (y.entry j).link }

theorem LinksOnly.refl (x : Transit) : LinksOnly x x := ⟨rfl, fun _ => rfl⟩

theorem LinksOnly.trans {x y z : Transit} (h : LinksOnly x y) (g : LinksOnly y z) : LinksOnly x z := by
  obtain ⟨hx, he⟩ := h
  obtain ⟨gx, ge⟩ := g
  refine ⟨by rw [gx, hx], fun j => ?_⟩
  rw [ge j, he j]

theorem linksOnly_setLink (x : Transit) (i : Nat) (l : BitVec 17) : LinksOnly x (x.setEntry i { x.entry i with link := l }) := by
  refine ⟨rfl, fun j => ?_⟩
  rw [entry_setEntry]
  split
  · next e => rw [e]
  · rfl

theorem linksOnly_relink (l : List Nat) (x : Transit) : LinksOnly x (x.relink l) := by
  induction l generalizing x with
  | nil => exact .refl x
  | cons i l ih =>
    cases l with
    | nil => exact linksOnly_setLink ..
    | cons j l => exact (linksOnly_setLink ..).trans (ih _)

/-- The last entry of a chain names itself (R200). -/
theorem relink_last (l : List Nat) (n : Nat) (x : Transit) : (x.relink (l ++ [n])).entry n = { x.entry n with link := BitVec.ofNat 17 n } := by
  induction l generalizing x with
  | nil => rw [List.nil_append, Transit.relink, entry_setEntry, if_pos rfl]
  | cons i l ih =>
    have step : x.relink (i :: l ++ [n]) = (x.setEntry i { x.entry i with link := BitVec.ofNat 17 ((l ++ [n]).headD 0) }).relink (l ++ [n]) := by
      cases l <;> rfl
    obtain ⟨_, links⟩ := linksOnly_setLink x i (BitVec.ofNat 17 ((l ++ [n]).headD 0))
    rw [step, ih, links n]

theorem relinkTail_last (l : List Nat) (n : Nat) (x : Transit) :
    (x.relinkTail (l ++ [n])).entry n = { x.entry n with link := BitVec.ofNat 17 n } := by
  have tail : (l ++ [n]).drop ((l ++ [n]).length - 2) = l.drop (l.length - 1) ++ [n] := by
    rw [List.length_append, List.length_singleton, show l.length + 1 - 2 = l.length - 1 by omega, List.drop_append_of_le_length (by omega)]
  rw [Transit.relinkTail, tail, relink_last]

/-! ## Allocation and linking (R202, R211) -/

/-- The lowest untouched entry is taken where no freed one waits. -/
theorem alloc_untouched {x : Transit} (e : EphEntry) (h : x.ephFree = []) : x.alloc e =
    (x.ephNext, { x.setEntry x.ephNext { e with link := BitVec.ofNat 17 x.ephNext } with
                  ephNext := x.ephNext + 1, ephCorr := x.ephCorr.filter (· ≠ x.ephNext), ephBad := x.ephBad.filter (· ≠ x.ephNext) }) := by
  simp only [Transit.alloc, h]

theorem readQueue_good {s : State} {k : Nat} (h : (s.transit.queue k).parOk = true) : s.readQueue k = (s.transit.queue k, s) := by
  simp only [State.readQueue, h, if_true]

/-- An entry is linked at the tail of its queue. -/
theorem link_tail {s : State} {tb : TbId} {slot : Nat} {cls : BitVec 2} (n : Nat) (h : (s.transit.queue (qkey tb slot cls)).parOk = true) :
    ∃ x, s.link tb slot cls n = { s with transit := x } ∧
      x = { s.transit with eph := x.eph, queues := x.queues } ∧
      (x.queue (qkey tb slot cls)).items = (s.transit.queue (qkey tb slot cls)).items ++ [n] ∧
      (∀ j, j ≠ qkey tb slot cls → x.queue j = s.transit.queue j) ∧
      (x.entry n = { s.transit.entry n with link := BitVec.ofNat 17 n }) ∧
      ∀ j, x.entry j = { s.transit.entry j with link := (x.entry j).link } := by
  obtain ⟨q, hq, linked⟩ : ∃ q : Queue, q.items = (s.transit.queue (qkey tb slot cls)).items ++ [n] ∧
      s.link tb slot cls n = s.modTransit fun x => (x.setQueue (qkey tb slot cls) q).relinkTail q.items := by
    unfold State.link
    dsimp only
    rw [readQueue_good h]
    exact ⟨_, rfl, rfl⟩
  obtain ⟨rest, links⟩ := linksOnly_relink (q.items.drop (q.items.length - 2)) (s.transit.setQueue (qkey tb slot cls) q)
  change ((s.transit.setQueue (qkey tb slot cls) q).relinkTail q.items) = _ at rest
  have listed : ((s.transit.setQueue (qkey tb slot cls) q).relinkTail q.items).queues = (s.transit.setQueue (qkey tb slot cls) q).queues := by
    rw [rest]
  have queues (j : Nat) : ((s.transit.setQueue (qkey tb slot cls) q).relinkTail q.items).queue j =
      (s.transit.setQueue (qkey tb slot cls) q).queue j := by
    unfold Transit.queue
    rw [listed]
  refine ⟨_, linked, ?_, ?_, fun j e => ?_, ?_, fun j => links j⟩
  · dsimp only
    rw [listed]
    exact rest
  · rw [queues, queue_setQueue, if_pos rfl, hq]
  · rw [queues, queue_setQueue, if_neg (Ne.symm e)]
  · rw [hq, relinkTail_last]
    rfl

/-! ## Acceptance (R204 to R211) -/

/-- A one-shot entry of a timebase that is starting is linked (R211). -/
theorem path_starting {s : State} {tb : TbId} {e : EphEntry} {p : Policy} (slot : Nat) (mode : modeOf e.mode = some (.oneShot, p))
    (start : s.transit.tb[tb].starting = true) : s.path tb slot e = .link := by
  have kind : e.kind = .oneShot := by simp [EphEntry.kind, mode]
  unfold State.path
  rw [kind]
  dsimp only
  rw [if_pos start]

/-- What acceptance of a one-shot entry makes of the transit unit while its timebase is starting. -/
theorem accept_starting {s : State} {e : Staged} {p : Policy} (en : s.transit.tb[e.tb].en = true)
    (start : s.transit.tb[e.tb].starting = true) (period : s.transit.tb[e.tb].period = e.period)
    (mode : modeOf e.e.mode = some (.oneShot, p)) (free : s.transit.ephFree = [])
    (par : (s.transit.queue (qkey e.tb e.slot.toNat e.cls)).parOk = true) :
    ∃ u : State, s.accept e = u.ephLevel ∧ u.core = s.core ∧ u.spad = s.spad ∧
      u.transit.rr = s.transit.rr ∧ u.transit.tb = s.transit.tb ∧ u.transit.ephNext = s.transit.ephNext + 1 ∧
      u.transit.entry s.transit.ephNext = { e.e with link := BitVec.ofNat 17 s.transit.ephNext } ∧
      s.transit.ephNext ∉ u.transit.ephBad ∧ s.transit.ephNext ∉ u.transit.ephCorr ∧
      (u.transit.queue (qkey e.tb e.slot.toNat e.cls)).items =
        (s.transit.queue (qkey e.tb e.slot.toNat e.cls)).items ++ [s.transit.ephNext] ∧
      (∀ j, j ≠ qkey e.tb e.slot.toNat e.cls → u.transit.queue j = s.transit.queue j) ∧
      ∀ j, j ≠ s.transit.ephNext → u.transit.entry j = { s.transit.entry j with link := (u.transit.entry j).link } := by
  have goes : ¬(!s.transit.tb[e.tb].en || s.transit.tb[e.tb].period != e.period) = true := by rw [en, period]; simp
  obtain ⟨n, hn⟩ : ∃ n, n = s.transit.ephNext := ⟨_, rfl⟩
  obtain ⟨y, hy⟩ : ∃ y : Transit, y = { s.transit.setEntry n { e.e with link := BitVec.ofNat 17 n } with
    ephNext := n + 1, ephCorr := s.transit.ephCorr.filter (· ≠ n), ephBad := s.transit.ephBad.filter (· ≠ n) } := ⟨_, rfl⟩
  have alloc : s.transit.alloc e.e = (n, y) := by rw [alloc_untouched _ free, ← hn, hy]
  obtain ⟨t, ht⟩ : ∃ t : State, t = ({ s with transit := y } : State).countB 0x41 := ⟨_, rfl⟩
  have ttr : t.transit = y := by rw [ht, State.countB_transit]
  have own : y.entry n = { e.e with link := BitVec.ofNat 17 n } := by
    rw [hy]
    exact (entry_setEntry ..).trans (if_pos rfl)
  have path : t.path e.tb e.slot.toNat (t.transit.entry n) = .link := by
    refine path_starting (p := p) _ ?_ ?_
    · rw [ttr, own]; exact mode
    · rw [ttr, hy]; exact start
  have accepted : s.accept e = (t.link e.tb e.slot.toNat e.cls n).ephLevel := by
    unfold State.accept
    dsimp only
    rw [if_neg goes, alloc]
    dsimp only
    rw [← ht, State.decidePath, path]
  have queues (j : Nat) : y.queue j = s.transit.queue j := by rw [hy]; rfl
  obtain ⟨x, linked, rest, items, others, last, entries⟩ := link_tail (s := t) (tb := e.tb) (slot := e.slot.toNat) (cls := e.cls) n
    (by rw [ttr, queues]; exact par)
  rw [ttr] at rest items others last entries
  rw [← hn]
  refine ⟨_, accepted, ?_⟩
  rw [linked]
  refine ⟨?_, ?_, ?_, ?_, ?_, ?_, ?_, ?_, ?_, fun j h => ?_, fun j h => ?_⟩
  · show t.core = s.core
    rw [ht, State.countB_core]
  · show t.spad = s.spad
    rw [ht, State.countB_spad]
  all_goals dsimp only
  · rw [rest, hy]; rfl
  · rw [rest, hy]; rfl
  · rw [rest, hy]
  · rw [last, own]
  · rw [rest, hy]; simp
  · rw [rest, hy]; simp
  · rw [items, queues]
  · rw [others j h, queues]
  · rw [entries j]
    have kept : y.entry j = s.transit.entry j := by
      rw [hy]
      exact (entry_setEntry ..).trans (if_neg (Ne.symm h))
    rw [kept]

/-- One core of the group offers its staged entry. -/
theorem offer_single {s : State} {c : CoreId} {e : Staged} (h : s.core[c].staging = [e]) (go : s.offerWaits e = false) :
    s.offer c = some e := by
  simp only [State.offer, h, List.find?_cons, List.find?_nil, List.head?_cons]
  cases e.lane <;> simp [go]

theorem offer_empty {s : State} {c : CoreId} (h : s.core[c].staging = []) : s.offer c = none := by
  simp only [State.offer, h, List.find?_nil, List.head?_nil]

/-- The order of a round of the group's cores, from any start, has each core once. -/
theorem round_filter (r i : Fin 4) (f : Fin 4 → Bool) (h : f i = true) (others : ∀ j, j ≠ i → f j = false) :
    ((List.finRange 4).map fun k => r + k).filter f = [i] := by
  have fi : ∀ j, f j = decide (j = i) := fun j => by
    by_cases e : j = i
    · simp [e, h]
    · simp [e, others j e]
  rw [List.filter_congr fun j _ => fi j]
  clear fi h others
  revert r i
  decide

/-- The group's only offer is accepted, whichever lane it stands in (R206). -/
theorem transitAccept_single {s : State} {g i : Fin 4} {e : Staged} (accepts : s.accepts = true) (room : s.transit.rsvOnly = false)
    (own : s.core[4 * g.val + i.val].staging = [e]) (others : ∀ j : Fin 4, j ≠ i → s.core[4 * g.val + j.val].staging = [])
    (go : s.offerWaits e = false) :
    s.transitAccept g = ((s.modCore ⟨4 * g.val + i.val, by omega⟩ fun k => { k with staging := k.staging.erase e }).modTransit fun x =>
      { x with rr := x.rr.set g (i + 1) }).accept e := by
  have mine : s.offer ⟨4 * g.val + i.val, by omega⟩ = some e := offer_single own go
  have offers : (((List.finRange 4).map fun k => s.transit.rr[g] + k).filter fun j => (s.offer ⟨4 * g.val + j.val, by omega⟩).isSome) = [i] := by
    refine round_filter _ i _ (by rw [mine]; rfl) fun j h => ?_
    rw [offer_empty (others j h)]; rfl
  unfold State.transitAccept
  rw [if_neg (by rw [accepts]; simp)]
  dsimp only
  rw [offers]
  simp only [List.find?_cons, List.find?_nil, List.head?_cons, mine]
  cases e.lane
  · simp only [room, Bool.false_eq_true, if_false, mine]
  · simp only [mine]

/-- Settles O33: the only offer is taken, and acceptance links it (`accept_starting`); FREE's level touches events alone. -/
theorem entriesJoinTheirQueues : Obligations.EntriesJoinTheirQueues := by
  intro s g i e p core x b k n accepts room own others en start pause flush period mode free par
  have go : s.offerWaits e = false := by
    have h1 : s.transit.tb[e.tb].pause = none := pause
    have h2 : s.transit.tb[e.tb].flushing = false := flush
    rw [State.offerWaits, h1, h2]; rfl
  obtain ⟨r, hr⟩ : ∃ r : State, r = (s.modCore (core i) fun k => { k with staging := k.staging.erase e }).modTransit fun x =>
      { x with rr := x.rr.set g (i + 1) } := ⟨_, rfl⟩
  have taken : exec (.transitAccept g) s = .next (r.accept e) := by
    rw [hr]
    exact congrArg Host.Outcome.next (transitAccept_single accepts room own others go)
  have rtr : r.transit = { x with rr := x.rr.set g (i + 1) } := by rw [hr]; rfl
  have queues (j : Nat) : r.transit.queue j = x.queue j := by rw [rtr]; rfl
  have entries (j : Nat) : r.transit.entry j = x.entry j := by rw [rtr]; rfl
  have next : r.transit.ephNext = n := by rw [rtr]
  have tbs : r.transit.tb = x.tb := by rw [rtr]
  obtain ⟨u, accepted, ucore, uspad, urr, utb, unext, uentry, ubad, ucorr, uitems, uqueues, uentries⟩ :=
    accept_starting (s := r) (e := e) (p := p) (by rw [tbs]; exact en) (by rw [tbs]; exact start) (by rw [tbs]; exact period) mode
      (by rw [rtr]; exact free) (by rw [queues]; exact par)
  rw [next] at unext uentry ubad ucorr uitems uentries
  obtain ⟨_, events, rest⟩ := uptoEvents_ephLevel u
  have staging (d : CoreId) : (u.ephLevel).core[d].staging = r.core[d].staging := by rw [events d, ucore]
  have mine : r.core[core i].staging = [] := by
    rw [hr]
    simp only [State.modTransit, Fin.getElem_fin, State.modCore_self]
    have single : s.core[(core i).val].staging = [e] := own
    rw [single]
    simp
  rw [accepted] at taken
  refine ⟨_, taken, (staging _).trans mine, fun d hd => (staging d).trans ?_, ?_⟩
  · rw [hr]
    simp only [State.modTransit, Fin.getElem_fin, State.modCore_ne _ _ _ _ hd]
  · have rr : u.ephLevel.transit.rr = x.rr.set g (i + 1) := by rw [ephLevel_transit, urr, rtr]
    refine ⟨by simp only [Fin.getElem_fin, rr]; exact Vector.getElem_set_self _, ?_⟩
    rw [ephLevel_transit]
    refine ⟨unext, uentry, ubad, ucorr, ?_, fun j hj => ?_, fun j hj => ?_, ?_, ?_⟩
    · rw [uitems, queues]
    · rw [uqueues j hj, queues]
    · rw [uentries j hj, entries]
    · rw [utb, tbs]
    · rw [rest]
      exact uspad.trans (by rw [hr]; rfl)

end Sys2Proof.Machine
end

