-- ==== Sys2Proof/Proofs/TransitWalks.lean ====
section
/-! SUPPORT. Walks, the sort and the merge of late inserts (R212 to R216). -/

set_option Elab.async false

namespace Sys2Proof.Machine

open Sys2Proof

/-! ## A walk over one-shot entries (R212 to R215) -/

/-- The entry belongs to frame `f` (R212). -/
def Transit.tagged (x : Transit) (f : BitVec 16) (i : Nat) : Bool := (x.entry i).tag == BitVec.ofNat 4 f.toNat

/-- Entry `i` as it is placed into the store. -/
def Transit.placedItem (x : Transit) (cls : BitVec 2) (f : BitVec 16) (slot : Nat) (i : Nat) : BufItem := ⟨i, cls, x.entry i, f, slot⟩

/-- What a walk has of one queue after it has read `l` of it: the entries of its frame placed, the others kept. -/
structure WalkRead (x : Transit) (cls : BitVec 2) (f : BitVec 16) (slot : Nat) (a b : QueueAcc) (l : List Nat) : Prop where
  store : b.w.store = a.w.store ++ (l.filter (x.tagged f)).map (x.placedItem cls f slot)
  placed : b.w.placed = a.w.placed + (l.filter (x.tagged f)).length
  reads : b.w.reads = a.w.reads + l.length
  kept : b.kept = a.kept ++ l.filter fun i => !x.tagged f i
  freed : b.freed = a.freed
  late : b.late = a.late
  met : b.met = a.met
  ended : b.ended = a.ended

/-- Below the limits a one-shot entry of the frame is placed, another stays. -/
theorem walkRead_entry {x : Transit} {tb : TbId} (f : BitVec 16) (slot : Nat) (cls : BitVec 2) {i : Nat} {a : QueueAcc}
    (run : a.ended = false) (room : a.w.placed < slotLimit tb) (reads : a.w.reads < readLimit tb)
    (kind : (x.entry i).kind = .oneShot) (good : i ∉ x.ephBad) :
    WalkRead x cls f slot a (walkEntry x tb .place f slot cls a i) [i] := by
  have open_ : ¬(decide (slotLimit tb ≤ a.w.placed) || decide (readLimit tb ≤ a.w.reads)) = true := by
    simp only [Bool.or_eq_true, decide_eq_true_eq]; omega
  have fine : ¬(x.ephBad.contains i) = true := by simpa using good
  have tag : (bits f 0 4 : BitVec 4) = BitVec.ofNat 4 f.toNat := bits_zero f 4
  unfold walkEntry
  rw [if_neg (by rw [run]; simp), if_neg fine]
  simp only [kind, tag, if_neg (show ¬WalkMode.place = .shots by decide), if_neg (show ¬WalkMode.place = .cleanup by decide)]
  by_cases mine : (x.entry i).tag = BitVec.ofNat 4 f.toNat
  · have yes : x.tagged f i = true := by simp [Transit.tagged, mine]
    rw [if_neg (by simp [mine]), if_neg open_]
    constructor <;> simp [yes, Transit.placedItem]
  · have no : x.tagged f i = false := by simpa [Transit.tagged] using mine
    rw [if_pos mine]
    constructor <;> simp [no]

theorem WalkRead.cons {x : Transit} {cls : BitVec 2} {f : BitVec 16} {slot : Nat} {a b c : QueueAcc} {i : Nat} {l : List Nat}
    (h : WalkRead x cls f slot a b [i]) (g : WalkRead x cls f slot b c l) : WalkRead x cls f slot a c (i :: l) := by
  have split (p : Nat → Bool) : (i :: l).filter p = [i].filter p ++ l.filter p := List.filter_append [i] l
  constructor
  · rw [g.store, h.store, split, List.map_append, List.append_assoc]
  · rw [g.placed, h.placed, split, List.length_append, Nat.add_assoc]
  · rw [g.reads, h.reads, List.length_singleton, List.length_cons]; omega
  · rw [g.kept, h.kept, split, List.append_assoc]
  · rw [g.freed, h.freed]
  · rw [g.late, h.late]
  · rw [g.met, h.met]
  · rw [g.ended, h.ended]

/-- Below the limits a walk reads each one-shot entry once and places those of its frame. -/
theorem walkRead_entries {x : Transit} {tb : TbId} {f : BitVec 16} {slot : Nat} {cls : BitVec 2} (l : List Nat) (a : QueueAcc)
    (run : a.ended = false) (room : a.w.placed + l.length < slotLimit tb) (reads : a.w.reads + l.length < readLimit tb)
    (shots : ∀ i ∈ l, (x.entry i).kind = .oneShot ∧ i ∉ x.ephBad) :
    WalkRead x cls f slot a (l.foldl (walkEntry x tb .place f slot cls) a) l := by
  induction l generalizing a with
  | nil => constructor <;> simp
  | cons i l ih =>
    obtain ⟨kind, good⟩ := shots i (List.mem_cons_self ..)
    rw [List.length_cons] at room reads
    have one := walkRead_entry (tb := tb) f slot cls run (by omega) (by omega) kind good
    refine one.cons (ih _ (one.ended.trans run) ?_ ?_ fun j hj => shots j (List.mem_cons_of_mem _ hj))
    · have : ([i].filter (x.tagged f)).length ≤ 1 := List.length_filter_le _ _
      rw [one.placed]; omega
    · rw [one.reads, List.length_singleton]; omega

/-- A queue written and its chain linked anew. -/
theorem relinked_fields (x : Transit) (k : Nat) (q : Queue) (l : List Nat) (n : BitVec 16) :
    let y : Transit := { (x.setQueue k q).relink l with ecnt := n }
    y = { x with eph := y.eph, queues := y.queues, ecnt := y.ecnt } ∧ (y.queue k).items = q.items ∧
    ∀ j, j ≠ k → y.queue j = x.queue j := by
  intro y
  obtain ⟨rest, _⟩ := linksOnly_relink l (x.setQueue k q)
  have listed : y.queues = (x.setQueue k q).queues := by
    show ((x.setQueue k q).relink l).queues = _
    rw [rest]
  have queues (j : Nat) : y.queue j = (x.setQueue k q).queue j := by
    unfold Transit.queue
    rw [listed]
  refine ⟨?_, ?_, fun j h => ?_⟩
  · rw [listed]
    show ({ (x.setQueue k q).relink l with ecnt := n } : Transit) = _
    rw [rest]
    rfl
  · rw [queues, queue_setQueue, if_pos rfl]
  · rw [queues, queue_setQueue, if_neg (Ne.symm h)]

/-- One queue of one-shot entries, below the limits: its entries of the frame go to the store, the others stay (R213). -/
theorem walkQueue_place {s : State} {tb : TbId} {f : BitVec 16} {slot k n : Nat} {items : List Nat}
    (listed : (s.transit.queue k).items = items) (par : (s.transit.queue k).parOk = true) 
    (room : n + items.length < slotLimit tb)
    (shots : ∀ i ∈ items, (s.transit.entry i).kind = .oneShot ∧ i ∉ s.transit.ephBad) :
    ∃ x : Transit, ∃ r : Nat, s.walkQueue tb .place f slot ⟨[], n, 0⟩ (k, items) =
        ({ s with transit := x }, ⟨(items.filter (s.transit.tagged f)).map (s.transit.placedItem (keyCls k) f slot),
                                  n + (items.filter (s.transit.tagged f)).length, r⟩) ∧ r < readLimit tb ∧
      x = { s.transit with eph := x.eph, queues := x.queues, ecnt := x.ecnt } ∧
      (x.queue k).items = (items.filter fun i => !s.transit.tagged f i) ∧ ∀ j, j ≠ k → x.queue j = s.transit.queue j := by
  have limits : slotLimit tb ≤ readLimit tb := by unfold slotLimit readLimit; split <;> decide
  have all : (items.filter fun i => (s.transit.queue k).items.contains i) = items := by
    rw [listed, List.filter_eq_self]
    simp
  have newer : ((s.transit.queue k).items.filter fun i => !items.contains i) = [] := by
    rw [listed, List.filter_eq_nil_iff]
    simp
  obtain ⟨b, hb⟩ : ∃ b, b = items.foldl (walkEntry s.transit tb .place f slot (keyCls k)) { w := ⟨[], n, 0⟩ } := ⟨_, rfl⟩
  have read : WalkRead s.transit (keyCls k) f slot { w := ⟨[], n, 0⟩ } b items := by
    rw [hb]
    exact walkRead_entries items _ rfl room (by dsimp only; omega) shots
  obtain ⟨store, placed, reads, kept, freed, late, met, ended⟩ := read
  unfold State.walkQueue
  dsimp only
  rw [readQueue_good par, all]
  dsimp only
  rw [← hb, ended, newer]
  simp only [Bool.false_eq_true, if_false]
  rw [late, freed]
  simp only [List.foldl_nil, List.append_nil, kept, List.nil_append]
  refine ⟨_, b.w.reads, Prod.ext rfl ?_, ?_, ?_⟩
  · simp only [List.nil_append] at store
    simp only [← store, ← placed]
  · rw [reads]; dsimp only; omega
  · exact relinked_fields ..

/-- Entries that are not class 3 wake no core (R427). -/
theorem preWake_none (l : List BufItem) (s : State) (h : ∀ i ∈ l, i.cls ≠ 3) : l.foldl State.preWake s = s := by
  induction l generalizing s with
  | nil => rfl
  | cons i l ih =>
    have other : (i.cls == 3) = false := by simpa using h i (List.mem_cons_self ..)
    have calm : isWake i = false := by rw [isWake, other, Bool.false_and]
    have one : s.preWake i = s := by
      unfold State.preWake
      rw [calm, Bool.false_and]
      rfl
    rw [List.foldl_cons, one]
    exact ih s fun j hj => h j (List.mem_cons_of_mem _ hj)

theorem tb_modTb (s : State) (t u : TbId) (f : Tb → Tb) :
    (s.modTb t f).transit.tb[u] = if u = t then f s.transit.tb[t] else s.transit.tb[u] := by
  simp only [State.modTb, Fin.getElem_fin]
  split
  · next e => subst e; exact Vector.getElem_set_self _
  · next e => exact Vector.getElem_set_ne _ _ fun q => e (Fin.ext q.symm)

/-- A timebase whose walk has ended below the limits with `l` in its store (R215). -/
def Tb.walked (l : List BufItem) (n : Nat) (b : Tb) : Tb :=
  { b with walk := none, store := l, storeCnt := n, sorting := true, cleanup := false }

/-- Settles O34: the walk's one queue by `walkQueue_place`; then only the timebase and, through FREE's level, events change. -/
theorem walksPlace : Obligations.WalksPlace := by
  intro s tb w k items x b mine walk pause flush reads listed par cls _ room shots
  obtain ⟨y, r, queue, rlt, rest, kept, others⟩ := walkQueue_place (f := w.frame) (slot := w.slot) listed par room shots
  obtain ⟨l, hl⟩ : ∃ l, l = (items.filter mine).map (x.placedItem (keyCls k) w.frame w.slot) := ⟨_, rfl⟩
  obtain ⟨n, hn⟩ : ∃ n, n = b.storeCnt + (items.filter mine).length := ⟨_, rfl⟩
  obtain ⟨u, hu⟩ : ∃ u : State, u = ({ s with transit := y } : State).modTb tb (Tb.walked l n) := ⟨_, rfl⟩
  have result : s.walkQueue tb .place w.frame w.slot ⟨[], s.transit.tb[tb].storeCnt, 0⟩ (k, items) =
      ({ s with transit := y }, ⟨l, n, r⟩) := by rw [hl, hn]; exact queue
  have done : exec (.walkEnd tb) s = .next u.ephLevel := by
    refine congrArg Host.Outcome.next ?_
    have running : ¬(s.transit.tb[tb].pause.isSome || s.transit.tb[tb].flushing) = true := by
      rw [show s.transit.tb[tb].pause = none from pause, show s.transit.tb[tb].flushing = false from flush]; simp
    have below : (decide (slotLimit tb ≤ n) || decide (readLimit tb ≤ r)) = false := by
      have := List.length_filter_le mine items
      simp only [Bool.or_eq_false_iff, decide_eq_false_iff_not]
      omega
    have wakes : ∀ i ∈ l, i.cls ≠ 3 := by
      rw [hl]
      intro i hi
      obtain ⟨j, _, e⟩ := List.mem_map.mp hi
      rw [← e]
      exact cls
    have same : Tb.walked l n = fun b => { b with walk := none, store := l, storeCnt := n, sorting := true,
                                                  cleanup := decide (slotLimit tb ≤ n) || decide (readLimit tb ≤ r) } := by
      rw [below]; rfl
    unfold State.walkEnd
    rw [show s.transit.tb[tb].walk = some w from walk]
    dsimp only
    rw [if_neg running, reads, List.foldl_cons, List.foldl_nil]
    dsimp only
    rw [result]
    dsimp only
    rw [preWake_none l _ wakes, hu, same]
  have tbs : u.transit.tb[tb] = b.walked l n := by
    rw [hu, tb_modTb, if_pos rfl, rest]
  refine ⟨_, done, ?_⟩
  obtain ⟨_, _, upto⟩ := uptoEvents_ephLevel u
  rw [ephLevel_transit]
  intro v
  have hv : v = b.walked l n := tbs
  rw [hv]
  refine ⟨rfl, rfl, rfl, hl, hn, ?_, fun j hj => ?_, fun t ht => ?_, ?_⟩
  · rw [hu]; exact kept
  · rw [hu]; exact others j hj
  · rw [hu, tb_modTb, if_neg ht, rest]
  · rw [upto, hu]; rfl

/-! ## Order by GRAIN (R215, R216) -/

/-- A buffer in the order of its items' grains. -/
def ByGrain (l : List BufItem) : Prop := l.Pairwise fun i j => i.e.grain.toNat ≤ j.e.grain.toNat

theorem insertGrain_perm (l : List BufItem) (i : BufItem) : (insertGrain l i).Perm (l ++ [i]) := by
  have parts : l.takeWhile (fun b => b.e.grain.toNat ≤ i.e.grain.toNat) ++ l.dropWhile (fun b => b.e.grain.toNat ≤ i.e.grain.toNat) = l :=
    List.takeWhile_append_dropWhile
  unfold insertGrain
  refine List.perm_middle.trans ?_
  rw [parts]
  exact (List.perm_append_singleton i l).symm

/-- In an ordered buffer, all that stands behind the place of `i` has a higher grain. -/
theorem dropWhile_higher {l : List BufItem} {g : Nat} (h : ByGrain l) :
    ∀ b ∈ l.dropWhile (fun b => b.e.grain.toNat ≤ g), g < b.e.grain.toNat := by
  induction l with
  | nil => simp
  | cons a l ih =>
    obtain ⟨first, rest⟩ := List.pairwise_cons.mp h
    by_cases ha : a.e.grain.toNat ≤ g
    · rw [List.dropWhile_cons_of_pos (by simpa using ha)]
      exact ih rest
    · rw [List.dropWhile_cons_of_neg (by simpa using ha)]
      intro b hb
      rcases List.mem_cons.mp hb with rfl | hb
      · omega
      · have := first b hb; omega

theorem insertGrain_ordered {l : List BufItem} (i : BufItem) (h : ByGrain l) : ByGrain (insertGrain l i) := by
  have low : ∀ b ∈ l.takeWhile (fun b => b.e.grain.toNat ≤ i.e.grain.toNat), b.e.grain.toNat ≤ i.e.grain.toNat := fun b hb => by
    simpa using List.mem_takeWhile_imp hb
  have high := dropWhile_higher (g := i.e.grain.toNat) h
  refine List.pairwise_append.mpr ⟨h.sublist (List.takeWhile_sublist _), List.pairwise_cons.mpr ⟨fun b hb => (high b hb).le, h.sublist (List.dropWhile_sublist _)⟩, ?_⟩
  intro a ha b hb
  have := low a ha
  rcases List.mem_cons.mp hb with rfl | hb
  · exact this
  · have := high b hb; omega

/-- Items of one grain keep their order, and `i` comes behind them. -/
theorem insertGrain_stable {l : List BufItem} (i : BufItem) (h : ByGrain l) (g : BitVec 14) :
    (insertGrain l i).filter (fun b => b.e.grain = g) = l.filter (fun b => b.e.grain = g) ++ [i].filter fun b => b.e.grain = g := by
  have parts : l.takeWhile (fun b => b.e.grain.toNat ≤ i.e.grain.toNat) ++ l.dropWhile (fun b => b.e.grain.toNat ≤ i.e.grain.toNat) = l :=
    List.takeWhile_append_dropWhile
  have high := dropWhile_higher (g := i.e.grain.toNat) h
  conv_rhs => rw [← parts]
  unfold insertGrain
  rw [List.filter_append, List.filter_append, List.filter_cons, List.append_assoc]
  by_cases hi : i.e.grain = g
  · have none_ : (l.dropWhile (fun b => b.e.grain.toNat ≤ i.e.grain.toNat)).filter (fun b => decide (b.e.grain = g)) = [] := by
      rw [List.filter_eq_nil_iff]
      intro b hb e
      have := high b hb
      rw [decide_eq_true_eq] at e
      rw [e, hi] at this
      omega
    simp [hi, hi ▸ none_]
  · simp [hi]

/-- Inserting in turn orders what is inserted and keeps the order of equals. -/
theorem insertGrains (l a : List BufItem) (h : ByGrain a) :
    (l.foldl insertGrain a).Perm (a ++ l) ∧ ByGrain (l.foldl insertGrain a) ∧
    ∀ g : BitVec 14, (l.foldl insertGrain a).filter (fun b => b.e.grain = g) =
      a.filter (fun b => b.e.grain = g) ++ l.filter fun b => b.e.grain = g := by
  induction l generalizing a with
  | nil => exact ⟨by simp, h, fun g => by simp⟩
  | cons i l ih =>
    obtain ⟨perm, ordered, stable⟩ := ih _ (insertGrain_ordered i h)
    refine ⟨?_, ordered, fun g => ?_⟩
    · refine perm.trans (((insertGrain_perm a i).append_right l).trans ?_)
      rw [List.append_assoc, List.singleton_append]
    · rw [List.foldl_cons, stable g, insertGrain_stable i h g, List.append_assoc, ← List.filter_append, List.singleton_append]

theorem pump_inactive {s : State} {tb : TbId} (n : Nat) (h : s.tbActive tb = false) : s.pump n tb = s := by
  cases n with
  | zero => rfl
  | succ n => rw [State.pump, h]; rfl

/-- Settles O35: both the sort and the merge insert item by item (`insertGrains`). -/
theorem buffersStaySorted : Obligations.BuffersStaySorted := by
  intro s tb b sorted
  refine ⟨fun sorting inactive => ?_, fun ordered mine => ?_⟩
  · obtain ⟨perm, order, stable⟩ := insertGrains b.store [] List.Pairwise.nil
    obtain ⟨u, hu⟩ : ∃ u : State, u = s.modTb tb fun b => { b with store := sortGrain b.store, sorting := false, cleanup := false } := ⟨_, rfl⟩
    have tbs : u.transit.tb[tb] = { b with store := sortGrain b.store, sorting := false, cleanup := false } := by
      rw [hu, tb_modTb, if_pos rfl]
    have still : u.tbActive tb = false := by
      rw [← inactive]
      simp only [State.tbActive, State.tbRuns]
      rw [tbs, hu]
      rfl
    have done : exec (.sortEnd tb) s = .next u.ephLevel := by
      refine congrArg Host.Outcome.next ?_
      unfold State.sortEnd
      rw [if_pos sorting, ← hu, pump_inactive 6 still]
    refine ⟨_, done, ?_⟩
    rw [ephLevel_transit]
    intro v
    have hv : v = { b with store := sortGrain b.store, sorting := false, cleanup := false } := tbs
    have same : s.modTb tb (fun _ => v) = u := by rw [hu, hv]; rfl
    rw [same, hv]
    refine ⟨perm, order, fun g => stable g, rfl, uptoEvents_ephLevel u⟩
  · obtain ⟨perm, order, _⟩ := insertGrains b.merging b.live ordered
    have joins : (b.merging.filter fun i => b.liveOf == some (i.frame, i.slot)) = b.merging := by
      rw [List.filter_eq_self]
      intro i hi
      simp [mine i hi]
    have stays : (b.merging.filter fun i =>
        b.liveOf != some (i.frame, i.slot) && b.storeOf == some (i.frame, i.slot) && b.walk.isNone && !b.sorting) = [] := by
      rw [List.filter_eq_nil_iff]
      intro i hi
      simp [mine i hi]
    have gone : (b.merging.filter fun i => !(b.merging.contains i) && !(([] : List BufItem).contains i)) = [] := by
      rw [List.filter_eq_nil_iff]
      intro i hi
      simp [hi]
    have merged : s.lateMerge tb = s.modTb tb fun _ => { b with live := b.merging.foldl insertGrain b.live, merging := [] } := by
      unfold State.lateMerge State.modTb
      dsimp only
      rw [joins, stays, gone]
      rfl
    refine ⟨_, congrArg Host.Outcome.next merged, ?_⟩
    intro v
    have hv : v = { b with live := b.merging.foldl insertGrain b.live, merging := [] } := (tb_modTb ..).trans (if_pos rfl)
    rw [hv]
    exact ⟨perm, order, rfl, rfl⟩

end Sys2Proof.Machine
end

