-- ==== Sys2Proof/Proofs/TransitCommands.lean ====
section
/-! SUPPORT. The operations of TRN_CMD: what each reads, frees and leaves (R199, R230, R233). -/

set_option Elab.async false

namespace Sys2Proof.Machine

open Sys2Proof

/-! ## What a flush raises -/

/-- Of what lies outside the engine, no source but the Ephemeris sources differs, nor a memory or the main reset (R208, R230). -/
def FlushQuiet (s t : State) : Prop :=
  t.spad = s.spad ∧ t.power.mainRst = s.power.mainRst ∧ ∀ n, n ≠ 176 → n ≠ 177 → t.src n = s.src n

theorem FlushQuiet.refl (s : State) : FlushQuiet s s := ⟨rfl, rfl, fun _ _ _ => rfl⟩

theorem FlushQuiet.trans {s t u : State} (h : FlushQuiet s t) (g : FlushQuiet t u) : FlushQuiet s u :=
  ⟨g.1.trans h.1, g.2.1.trans h.2.1, fun n a b => (g.2.2 n a b).trans (h.2.2 n a b)⟩

theorem UptoEvents.flushQuiet {s t : State} (h : UptoEvents s t) : FlushQuiet s t := by
  obtain ⟨src, _, rest⟩ := h
  exact ⟨by rw [rest], by rw [rest], fun n a _ => src n a⟩

theorem flushQuiet_modTransit (s : State) (f : Transit → Transit) : FlushQuiet s (s.modTransit f) := ⟨rfl, rfl, fun _ _ _ => rfl⟩

theorem flushQuiet_ephError (s : State) : FlushQuiet s s.ephError := by
  refine (flushQuiet_modTransit s fun x => { x with ephErr := true }).trans ?_
  unfold State.ephError
  generalize s.modTransit (fun x => { x with ephErr := true }) = t
  cases hm : t.power.mainRst with
  | true =>
    have lost : t.raise 177 0 = t := by
      unfold State.raise
      rw [if_pos hm, if_neg (by decide)]
    rw [lost]
    exact .refl t
  | false =>
    obtain ⟨src, _, rest⟩ := sourcesOnly_raise (s := t) 177 0 hm
    exact ⟨by rw [rest], by rw [rest], fun n _ b => src n (by simpa using b)⟩

theorem flushQuiet_readQueue (s : State) (k : Nat) : FlushQuiet s (s.readQueue k).2 := by
  unfold State.readQueue
  dsimp only
  split
  · exact .refl s
  · exact (flushQuiet_modTransit ..).trans (flushQuiet_ephError _)

theorem flushQuiet_flushQueue (s : State) (k : Nat) : FlushQuiet s (s.flushQueue k) := by
  unfold State.flushQueue
  dsimp only
  refine ((flushQuiet_readQueue s k).trans ?_).trans (uptoEvents_ephLevel _).flushQuiet
  split
  · exact (flushQuiet_modTransit ..).trans (flushQuiet_ephError _)
  · exact flushQuiet_modTransit ..

theorem flushQuiet_flushQueues (l : List Nat) (s : State) : FlushQuiet s (l.foldl State.flushQueue s) := by
  induction l generalizing s with
  | nil => exact .refl s
  | cons k l ih => exact (flushQuiet_flushQueue s k).trans (ih _)

theorem flushQuiet_flushTb (s : State) (t : TbId) : FlushQuiet s (s.flushTb t) := by
  unfold State.flushTb
  dsimp only
  refine FlushQuiet.trans ?_ (uptoEvents_ephLevel _).flushQuiet
  refine FlushQuiet.trans ?_ (t := List.foldl State.flushQueue _ _) ⟨rfl, rfl, fun _ _ _ => rfl⟩
  refine FlushQuiet.trans ?_ (flushQuiet_flushQueues ..)
  exact ⟨rfl, rfl, fun _ _ _ => rfl⟩

/-! ## What a flush frees -/

theorem freeEntries_fields (l : List Nat) (x : Transit) :
    (l.foldl Transit.freeEntry x).queues = x.queues ∧ (l.foldl Transit.freeEntry x).ephFree = l.reverse ++ x.ephFree := by
  induction l generalizing x with
  | nil => exact ⟨rfl, rfl⟩
  | cons i l ih =>
    obtain ⟨queues, free⟩ := ih (x.freeEntry i)
    refine ⟨queues, free.trans ?_⟩
    rw [List.reverse_cons, List.append_assoc, List.singleton_append]
    rfl

theorem ephError_transit (s : State) : s.ephError.transit = { s.transit with ephErr := true } := by
  rw [State.ephError, raise_transit]; rfl

/-- A flushed queue is as an empty one; the others are as they were. -/
theorem queue_flushQueue (s : State) (k j : Nat) : (s.flushQueue k).transit.queue j = if k = j then {} else s.transit.queue j := by
  have read (j : Nat) (h : k ≠ j) : (s.readQueue k).2.transit.queue j = s.transit.queue j := by
    unfold State.readQueue
    dsimp only
    split
    · rfl
    · rw [ephError_transit]
      exact (queue_setQueue s.transit k {} j).trans (if_neg h)
  have queues : (s.flushQueue k).transit.queues = ((s.readQueue k).2.transit.setQueue k {}).queues := by
    unfold State.flushQueue
    dsimp only
    rw [ephLevel_transit]
    split
    · rw [ephError_transit]
      exact (freeEntries_fields ..).1
    · exact (freeEntries_fields ..).1
  have same : (s.flushQueue k).transit.queue j = ((s.readQueue k).2.transit.setQueue k {}).queue j := by
    unfold Transit.queue
    rw [queues]
  rw [same, queue_setQueue]
  split
  · rfl
  · next h => exact read j h

/-- A queue without errors gives its entries back, the oldest first freed. -/
theorem ephFree_flushQueue {s : State} {k : Nat} (par : (s.transit.queue k).parOk = true)
    (good : ∀ i ∈ (s.transit.queue k).items, i ∉ s.transit.ephBad) :
    (s.flushQueue k).transit.ephFree = (s.transit.queue k).items.reverse ++ s.transit.ephFree := by
  have all : ((s.transit.queue k).items.takeWhile fun i => !s.transit.ephBad.contains i) = (s.transit.queue k).items := by
    rw [List.takeWhile_eq_self_iff]
    intro i hi
    simpa using good i hi
  unfold State.flushQueue
  dsimp only
  rw [ephLevel_transit, readQueue_good par]
  dsimp only
  rw [all, if_neg (Nat.lt_irrefl _)]
  exact (freeEntries_fields ..).2

theorem queue_flushQueues (l : List Nat) (s : State) (j : Nat) :
    (l.foldl State.flushQueue s).transit.queue j = if j ∈ l then {} else s.transit.queue j := by
  induction l generalizing s with
  | nil => simp
  | cons k l ih =>
    rw [List.foldl_cons, ih, queue_flushQueue]
    by_cases h1 : j ∈ l
    · simp [h1]
    · by_cases h2 : k = j
      · simp [h1, h2]
      · simp [h1, h2, Ne.symm h2]

theorem alGet_unlisted {α : Type} (l : List (Nat × α)) {k : Nat} (h : k ∉ l.map (·.1)) : alGet l k = none := by
  induction l with
  | nil => rfl
  | cons p l ih =>
    rw [List.map_cons, List.mem_cons, not_or] at h
    rw [alGet, if_neg (Ne.symm h.1), ih h.2]

theorem queue_unlisted {x : Transit} {k : Nat} (h : k ∉ x.queues.map (·.1)) : x.queue k = {} := by
  rw [Transit.queue, alGet_unlisted _ h]
  rfl

/-- The queues of a flushed timebase are empty, those of others as they were (R233). -/
theorem queue_flushTb (s : State) (t : TbId) (k : Nat) :
    (s.flushTb t).transit.queue k = if keyTb k = t.val then {} else s.transit.queue k := by
  obtain ⟨u, hu⟩ : ∃ u : State, u = (s.modTb t Tb.flushed).modTransit fun x =>
      (((s.transit.tb[t].live ++ s.transit.tb[t].store ++ s.transit.tb[t].merging ++ s.transit.tb[t].carry).filter
        fun i => !i.e.stands).map BufItem.idx).foldl Transit.freeEntry x := ⟨_, rfl⟩
  have listed : u.transit.queues = s.transit.queues := by
    rw [hu]
    exact (freeEntries_fields ..).1
  have flushed : (s.flushTb t).transit.queue k =
      (((u.transit.queues.map (·.1)).filter fun k => keyTb k = t.val).foldl State.flushQueue u).transit.queue k := by
    unfold State.flushTb
    rw [ephLevel_transit, State.modPort_transit, hu]
    simp only [List.foldl_map]
    rfl
  have same : u.transit.queue k = s.transit.queue k := by
    unfold Transit.queue
    rw [listed]
  rw [flushed, queue_flushQueues, same, listed]
  by_cases mine : keyTb k = t.val
  · rw [if_pos mine]
    split
    · rfl
    · next h => exact queue_unlisted fun m => h (List.mem_filter.mpr ⟨m, by simpa using mine⟩)
  · rw [if_neg mine, if_neg]
    intro m
    exact mine (by simpa using (List.mem_filter.mp m).2)

/-! ## TRN_CMD (R233) -/

theorem regAt_trnCmd : regAt 0x30020008 = some .trnCmd := by decide +kernel

theorem writeBy_trnCmd {s : State} {w : Agent} (may : MayWrite s w .trnCmd) (v : Word) :
    s.writeBy w 0x30020008 v = s.trnCmd (bits v 0 4) := writeBy_may regAt_trnCmd may v

theorem trnCmd_busy {s : State} (op : BitVec 4) (h : s.transit.cmds ≠ []) :
    s.trnCmd op = { s with transit := { s.transit with cmdErr := true } } := by
  have busy : s.transit.busy = true := by
    simpa [Transit.busy] using h
  unfold State.trnCmd
  rw [if_pos busy]
  rfl

/-- Operation `o` begins: it is the engine's latest. -/
def State.beginCmd (s : State) (o : TrnOp) (a : Nat) : State := s.modTransit fun x => { x with cmds := x.cmds ++ [(o, a)] }

/-- Each code of OP begins its operation where none is in progress (R233). -/
theorem trnCmd_begins {s : State} (h : s.transit.cmds = []) :
    let arg := s.transit.arg.toNat
    s.trnCmd 1 = (if (s.transit.queue arg).walk then s else s.flushQueue arg).beginCmd .flushKey arg ∧
    s.trnCmd 2 = (s.flushTb ⟨arg % 8, by omega⟩).beginCmd .flushTb (arg % 8) ∧
    s.trnCmd 3 = (s.readEntry (arg % 0x20000)).beginCmd .readEntry (arg % 0x20000) ∧
    s.trnCmd 4 = (s.readQueueCmd arg).beginCmd .readQueue arg ∧
    s.trnCmd 5 = s.resetEph.beginCmd .resetEph 0 := by
  have idle : ¬s.transit.busy = true := by simp [Transit.busy, h]
  unfold State.trnCmd
  refine ⟨?_, ?_, ?_, ?_, ?_⟩
  all_goals
    rw [if_neg idle]
    rfl

/-- READ_ENTRY gives an entry that is known bit for bit (R233). -/
theorem readEntry_known {s : State} {i : Nat} {e : EphEntry} (known : alGet s.transit.eph i = some e) (sound : i ∉ s.transit.ephCorr)
    (good : i ∉ s.transit.ephBad) : s.readEntry i = s.modTransit fun x => { x with dat :=
      #v[BitVec.ofNat 32 e.bits.toNat, BitVec.ofNat 32 (e.bits.toNat / 2 ^ 32), BitVec.ofNat 32 (e.bits.toNat / 2 ^ 64),
         BitVec.ofNat 32 (eccOf 96 7 e.bits.toNat)] } := by
  have readable : ¬((alGet s.transit.eph i).isNone || s.transit.ephCorr.contains i || s.transit.ephBad.contains i) = true := by
    simp [known, sound, good]
  have entry : s.transit.entry i = e := by rw [Transit.entry, known]; rfl
  have w0 : (bits e.bits 0 32 : Word) = BitVec.ofNat 32 e.bits.toNat := bits_zero ..
  have w1 : (bits e.bits 32 32 : Word) = BitVec.ofNat 32 (e.bits.toNat / 2 ^ 32) := bits_eq_ofNat ..
  have w2 : (bits e.bits 64 32 : Word) = BitVec.ofNat 32 (e.bits.toNat / 2 ^ 64) := bits_eq_ofNat ..
  refine (if_neg readable).trans ?_
  simp only [entry, w0, w1, w2]

/-- READ_ENTRY reaches the data registers, and free values. -/
theorem readEntry_fields (s : State) (i : Nat) : ∃ d n, s.readEntry i = { s with transit := { s.transit with dat := d }, freeCtr := n } := by
  unfold State.readEntry
  dsimp only
  split
  · exact ⟨_, _, rfl⟩
  · exact ⟨_, s.freeCtr, rfl⟩

theorem queueFlags_word (q : Queue) : fld q.flags 0 = q.flags.setWidth 32 := fld_zero _

/-! ## The end of an operation (R233, R325) -/

/-- A timebase whose flush has ended (R233). -/
def Tb.flushDone (b : Tb) : Tb :=
  { b with flushing := false, holdWalk := b.en && !b.starting,
           ran := if b.en && !b.starting then b.ran.filter (fun o => o.1 = b.frame ∧ o.2 ≤ b.slot) else b.ran }

/-- The payload of an operation's source: its OP (R325). -/
def TrnOp.payload (o : TrnOp) : Word :=
  match o with
  | .flushKey => 1
  | .flushTb => 2
  | .readEntry => 3
  | .readQueue => 4
  | .resetEph => 5

/-- What the end of operation `o` does, and its source's payload. -/
def State.endOf (s : State) (o : TrnOp) (a : Nat) : State × Word :=
  match o with
  | .flushKey => (s.flushQueue a, 1)
  | .flushTb => if h : a < 8 then (s.modTb ⟨a, h⟩ Tb.flushDone, 2) else (s, 2)
  | .readEntry => (s, 3)
  | .readQueue => (s, 4)
  | .resetEph => (s, 5)

/-- An operation that waits for no walk ends. -/
theorem trnCmdDone_ends {s : State} {o : TrnOp} {a : Nat} {l : List (TrnOp × Nat)} (h : s.transit.cmds = (o, a) :: l)
    (free : s.transit.waitsWalk = false) :
    s.trnCmdDone =
      let r := (s.modTransit fun x => { x with cmds := l }).endOf o a
      if l.isEmpty then r.1.raise 186 r.2 else r.1 := by
  unfold State.trnCmdDone
  rw [h]
  dsimp only
  rw [free]
  cases o <;> rfl

/-- What FLUSH_KEY of a queue that no walk reads leaves (R233). -/
theorem flushQueue_fields {s : State} (k : Nat) (idle : s.transit.cmds = []) (o : TrnOp) :
    let t := (s.flushQueue k).beginCmd o k
    t.transit.cmds = [(o, k)] ∧ t.transit.tb = s.transit.tb ∧ t.spad = s.spad ∧
    (∀ j, j ≠ k → t.transit.queue j = s.transit.queue j) ∧ t.transit.queue k = {} := by
  obtain ⟨tbs, cmds⟩ := timebasesKept_flushQueue s k
  obtain ⟨spad, _, _⟩ := flushQuiet_flushQueue s k
  refine ⟨?_, tbs, spad, fun j h => ?_, ?_⟩
  · show (s.flushQueue k).transit.cmds ++ [(o, k)] = _
    rw [cmds, idle, List.nil_append]
  · exact (queue_flushQueue ..).trans (if_neg (Ne.symm h))
  · exact (queue_flushQueue ..).trans (if_pos rfl)

/-- What FLUSH_TB leaves (R233). -/
theorem flushTb_fields {s : State} (tb : TbId) (idle : s.transit.cmds = []) (o : TrnOp) (a : Nat) :
    let t := (s.flushTb tb).beginCmd o a
    t.transit.cmds = [(o, a)] ∧ t.spad = s.spad ∧ (∀ k, keyTb k = tb.val → t.transit.queue k = {}) ∧
    (∀ k, keyTb k ≠ tb.val → t.transit.queue k = s.transit.queue k) ∧ t.transit.tb[tb] = (s.transit.tb[tb]).flushed ∧
    ∀ u, u ≠ tb → t.transit.tb[u] = s.transit.tb[u] := by
  have kept := timebasesKept_flushTb s tb
  have queues := queue_flushTb s tb
  obtain ⟨spad, _, _⟩ := flushQuiet_flushTb s tb
  generalize s.flushTb tb = r at kept queues spad
  obtain ⟨tbs, cmds⟩ := kept
  have each (u : TbId) : r.transit.tb[u] = if u = tb then (s.transit.tb[tb]).flushed else s.transit.tb[u] := by
    rw [← tb_modTb s tb u Tb.flushed]
    simp only [tbs]
  refine ⟨?_, spad, fun k h => ?_, fun k h => ?_, ?_, fun u h => ?_⟩
  · show r.transit.cmds ++ [(o, a)] = _
    rw [cmds]
    show s.transit.cmds ++ _ = _
    rw [idle, List.nil_append]
  · exact (queues k).trans (if_pos h)
  · exact (queues k).trans (if_neg h)
  · exact (each tb).trans (if_pos rfl)
  · exact (each u).trans (if_neg h)

/-- What RESET_EPH leaves (R233). -/
theorem resetEph_fields {s : State} (idle : s.transit.cmds = []) (o : TrnOp) (a : Nat) :
    let t := s.resetEph.beginCmd o a
    t.transit.cmds = [(o, a)] ∧ t.transit.queues = [] ∧ t.transit.ephFree = [] ∧ t.transit.ephNext = 0 ∧ t.transit.eph = s.transit.eph ∧
    t.spad = s.spad ∧ ∀ u : TbId, t.transit.tb[u].store = [] ∧ t.transit.tb[u].live = [] ∧ t.transit.tb[u].carry = [] := by
  obtain ⟨v, reset, tr, spad, tbs⟩ : ∃ v : State, s.resetEph = v.ephLevel ∧
      v.transit = { s.transit with queues := [], ephFree := [], ephNext := 0, tb := v.transit.tb } ∧ v.spad = s.spad ∧
      ∀ u : TbId, v.transit.tb[u].store = [] ∧ v.transit.tb[u].live = [] ∧ v.transit.tb[u].carry = [] := by
    refine ⟨_, rfl, rfl, rfl, fun u => ?_⟩
    simp [State.modTransit]
  have quiet := (uptoEvents_ephLevel v).flushQuiet.1
  have level : (s.resetEph.beginCmd o a).transit = { v.transit with cmds := v.transit.cmds ++ [(o, a)] } := by
    rw [reset]
    show ({ v.ephLevel.transit with cmds := _ } : Transit) = _
    rw [ephLevel_transit]
  refine ⟨?_, ?_, ?_, ?_, ?_, ?_, ?_⟩
  · rw [level, tr]
    dsimp only
    rw [idle, List.nil_append]
  · rw [level, tr]
  · rw [level, tr]
  · rw [level, tr]
  · rw [level, tr]
  · exact (congrArg State.spad reset).trans (quiet.trans spad)
  · rw [level]; exact tbs

/-- Settles O36: an operation begins only where none is in progress (`trnCmd_busy`, `trnCmd_begins`), and ends by `trnCmdDone_ends`. -/
theorem transitCommands : Obligations.TransitCommands := by
  refine ⟨?_, ?_, fun s runs unready => ?_⟩
  · intro s w may x arg tb refused begun
    have op (v : Word) (u : State) (h : s.trnCmd (bits v 0 4) = u) : s.writeBy w 0x30020008 v = u := (writeBy_trnCmd may v).trans h
    refine ⟨fun busy => ?_, fun idle => ?_⟩
    · have no (v : Word) : Host.Outcome.next (s.writeBy w 0x30020008 v) = (.next refused : Ans) := congrArg _ (op v _ (trnCmd_busy _ busy))
      exact ⟨no 1, no 2, no 3, no 4, no 5⟩
    · obtain ⟨op1, op2, op3, op4, op5⟩ := trnCmd_begins idle
      refine ⟨?_, ?_, ?_, ?_, ?_⟩
      · refine congrArg Host.Outcome.next ((op 4 _ op4).trans ?_)
        have idle' : s.transit.cmds = [] := idle
        simp only [State.beginCmd, State.readQueueCmd, State.modTransit, begun, fld_zero, idle', List.nil_append]
        rfl
      · obtain ⟨d, n, fields⟩ := readEntry_fields s (arg % 0x20000)
        refine ⟨_, congrArg Host.Outcome.next (op 3 _ op3), ?_, fun e known sound good => ?_⟩
        · have idle' : s.transit.cmds = [] := idle
          rw [fields]
          simp only [State.beginCmd, State.modTransit, begun, idle', List.nil_append]
          rfl
        · rw [readEntry_known known sound good]
          exact ⟨rfl, rfl⟩
      · refine ⟨_, congrArg Host.Outcome.next (op 1 _ op1), ?_⟩
        have idle' : s.transit.cmds = [] := idle
        by_cases walk : (s.transit.queue arg).walk = true
        · rw [if_pos walk]
          refine ⟨?_, rfl, rfl, fun _ _ => rfl, fun h => ?_, fun h => ?_, fun _ => ?_⟩
          · show s.transit.cmds ++ _ = _
            rw [idle', List.nil_append]
          · exact absurd walk (by rw [show (s.transit.queue arg).walk = false from h]; decide)
          · exact absurd walk (by rw [show (s.transit.queue arg).walk = false from h]; decide)
          · simp only [State.beginCmd, State.modTransit, begun, idle', List.nil_append]
            rfl
        · rw [if_neg walk]
          obtain ⟨cmds, tbs, spad, others, empty⟩ := flushQueue_fields arg idle .flushKey
          exact ⟨cmds, tbs, spad, others, fun _ => empty, fun _ par good => ephFree_flushQueue par good, fun h => absurd h walk⟩
      · obtain ⟨cmds, spad, mine, others, own, tbs⟩ := flushTb_fields tb idle .flushTb (arg % 8)
        refine ⟨_, congrArg Host.Outcome.next (op 2 _ op2), cmds, spad, mine, others, ?_, tbs⟩
        intro v
        rw [show v = (s.transit.tb[tb]).flushed from own]
        exact ⟨rfl, rfl, rfl, rfl, rfl, rfl, rfl, rfl, rfl⟩
      · obtain ⟨cmds, queues, free, next, eph, spad, tbs⟩ := resetEph_fields idle .resetEph 0
        refine ⟨_, congrArg Host.Outcome.next (op 5 _ op5), cmds, queues, free, next, ?_, eph, spad, tbs⟩
        rw [Transit.free, free, next]
        rfl
  · intro s o a l x cmds hm done
    have front : s.transit.cmds = (o, a) :: l := cmds
    have waits : s.transit.waitsWalk = (decide (o = .flushKey) && (s.transit.queue a).walk) := by
      rw [Transit.waitsWalk, front]
      cases o <;> rfl
    refine ⟨fun ho walk => ?_, fun ho => ?_, fun ho hl h => ?_, fun ho hl walk => ?_⟩
    · have stays : s.transit.waitsWalk = true := by
        rw [waits, ho, show (s.transit.queue a).walk = true from walk]; rfl
      refine congrArg Host.Outcome.next ?_
      unfold State.trnCmdDone
      rw [front]
      exact if_pos stays
    · have free : s.transit.waitsWalk = false := by
        rw [waits]
        rcases ho with rfl | rfl | rfl <;> rfl
      have ends := trnCmdDone_ends front free
      have nothing : done.endOf o a = (done, o.payload) := by
        rcases ho with rfl | rfl | rfl <;> rfl
      dsimp only at ends
      rw [show (s.modTransit fun x => { x with cmds := l }) = done from rfl, nothing] at ends
      refine ⟨fun hl => congrArg Host.Outcome.next ?_, fun hl => ?_⟩
      · exact ends.trans (if_neg (by simpa using hl))
      · refine ⟨_, congrArg Host.Outcome.next (ends.trans (if_pos (by rw [hl]; rfl))), ?_⟩
        have raised := raise_raised (s := done) 186 o.payload hm (by decide)
        rcases ho with rfl | rfl | rfl <;> exact raised
    · have free : s.transit.waitsWalk = false := by rw [waits, ho]; rfl
      have ends := trnCmdDone_ends front free
      obtain ⟨u, hu⟩ : ∃ u : State, u = (s.modTransit fun x => { x with cmds := l }).modTb ⟨a, h⟩ Tb.flushDone := ⟨_, rfl⟩
      have flushed : (s.modTransit fun x => { x with cmds := l }).endOf o a = (u, 2) := by
        rw [ho, hu]
        exact dif_pos h
      dsimp only at ends
      rw [flushed] at ends
      have raised := raise_raised (s := u) 186 2 (by rw [hu]; exact hm) (by decide)
      have each (v : TbId) : (u.raise 186 2).transit.tb[v] = if v = ⟨a, h⟩ then (s.transit.tb[(⟨a, h⟩ : TbId)]).flushDone else s.transit.tb[v] := by
        rw [raise_transit, hu]
        exact tb_modTb (s.modTransit fun x => { x with cmds := l }) ⟨a, h⟩ v Tb.flushDone
      refine ⟨_, congrArg Host.Outcome.next (ends.trans (if_pos (by rw [hl]; rfl))), ?_, ?_, fun v hv => ?_, ?_⟩
      · rw [each, if_pos rfl]; rfl
      · rw [raise_transit, hu]; exact hl
      · exact (each v).trans (if_neg fun e => hv (congrArg Fin.val e))
      · have same : ({ s with transit := (u.raise 186 2).transit } : State) = u := by rw [raise_transit, hu]; rfl
        rw [same]
        exact raised
    · have free : s.transit.waitsWalk = false := by
        rw [waits, show (s.transit.queue a).walk = false from walk, Bool.and_false]
      have ends := trnCmdDone_ends front free
      obtain ⟨u, hu⟩ : ∃ u : State, u = (s.modTransit fun x => { x with cmds := l }).flushQueue a := ⟨_, rfl⟩
      have flushed : (s.modTransit fun x => { x with cmds := l }).endOf o a = (u, 1) := by rw [ho, hu]; rfl
      dsimp only at ends
      rw [flushed] at ends
      obtain ⟨tbs, left⟩ := timebasesKept_flushQueue (s.modTransit fun x => { x with cmds := l }) a
      obtain ⟨_, reset, src⟩ := flushQuiet_flushQueue (s.modTransit fun x => { x with cmds := l }) a
      have queue := queue_flushQueue (s.modTransit fun x => { x with cmds := l }) a a
      rw [← hu] at tbs left reset src queue
      obtain ⟨own, _⟩ := raise_raised (s := u) 186 1 (reset.trans hm) (by decide)
      refine ⟨_, congrArg Host.Outcome.next (ends.trans (if_pos (by rw [hl]; rfl))), ?_, ?_, ?_, fun en => own ?_⟩
      · rw [raise_transit]; exact left.trans hl
      · rw [raise_transit]; exact queue.trans (if_pos rfl)
      · rw [raise_transit]; exact tbs
      · exact (congrArg Source.en (src 186 (by decide) (by decide))).trans en
  · exact congrArg Host.Outcome.next (if_pos (by rw [runs, unready]; rfl))

end Sys2Proof.Machine
end

