-- ==== Sys2Proof/Proofs/Followers.lean ====
section
/-! SUPPORT. Meridian followers without their master (R257, R261). -/

set_option Elab.async false

namespace Sys2Proof.Machine

open Sys2Proof

theorem ownBeam_iff (m : Ms) (n : Fin 4) : m.ownBeam n = true ↔ m.useMode = 3 ∧ m.useLbeam.toNat = n.val := by
  simp [Ms.ownBeam]

theorem missLines_eq (m : Ms) : m.missLines = max 1 m.miss.toNat * 2 ^ (if m.useMode = 3 then 0 else min m.usePsh 8) := rfl

/-- Fewer lines than MISS never end LOCKED (R257). -/
theorem miss_le_missLines (m : Ms) : max 1 m.miss.toNat ≤ m.missLines := by
  rw [missLines_eq]
  exact Nat.le_mul_of_pos_right _ (Nat.two_pow_pos _)

theorem missSrc_kind : ∀ n : Fin 4, srcKind (196 + n.val) ≠ .reserved := by decide

theorem lostSrc_kind : ∀ n : Fin 4, srcKind (200 + n.val) ≠ .reserved := by decide

/-- Settles O39: the two expiries act where their condition holds, and raise their source (`raise_raised`). -/
theorem followersLoseTheirMaster : Obligations.FollowersLoseTheirMaster := by
  intro s n m
  refine ⟨fun st other lines hm => ?_, fun st frames hm => ?_, fun mode beam => ?_, fun st lines => ?_⟩
  · have goes : (m.state = .locked ∨ m.state = .acquire) ∧ m.missLines ≤ m.lines ∧ (!m.ownBeam n) = true := by
      refine ⟨st, by rw [missLines_eq]; exact lines, ?_⟩
      rw [Bool.not_eq_true', Bool.eq_false_iff]
      exact fun h => other ((ownBeam_iff m n).mp h)
    exact ⟨_, congrArg Host.Outcome.next (if_pos goes), raise_raised ⟨196 + n.val, by omega⟩ m.err hm (missSrc_kind n)⟩
  · exact ⟨_, congrArg Host.Outcome.next (if_pos ⟨st, frames⟩), raise_raised ⟨200 + n.val, by omega⟩ 0 hm (lostSrc_kind n)⟩
  · refine congrArg Host.Outcome.next (if_neg ?_)
    rintro ⟨_, _, h⟩
    rw [Bool.not_eq_true', show (s.ports.ms[n]).ownBeam n = true from (ownBeam_iff m n).mpr ⟨mode, beam⟩] at h
    exact Bool.false_ne_true h.symm
  · refine congrArg Host.Outcome.next (if_neg ?_)
    rintro ⟨_, h, _⟩
    have := miss_le_missLines m
    have h' : m.missLines ≤ m.lines := h
    omega

end Sys2Proof.Machine
end

