-- ==== Sys2Proof/Proofs/RingLinks.lean ====
section
/-! SUPPORT. Ring ports: what a change of link raises (R380), and what each row does to its port. -/

set_option Elab.async false

namespace Sys2Proof.Machine

open Sys2Proof

/-! ## Sources, with the ring replaced -/

theorem SourcesOnly.mono {s t : State} {l m : List Nat} (h : SourcesOnly s t l) (sub : ∀ n ∈ l, n ∈ m) : SourcesOnly s t m :=
  ⟨fun n hn => h.1 n fun hl => hn (sub n hl), h.2.1, h.2.2⟩

theorem SourcesOnly.ring {s t : State} {l : List Nat} (h : SourcesOnly s t l) : t.ring = s.ring := by
  obtain ⟨-, -, rest⟩ := h
  rw [rest]

theorem SourcesOnly.mainRst {s t : State} {l : List Nat} (h : SourcesOnly s t l) : t.power.mainRst = s.power.mainRst := by
  obtain ⟨-, -, rest⟩ := h
  rw [rest]

theorem SourcesOnly.withRing {s t : State} {l : List Nat} (h : SourcesOnly s t l) (r : Ring) :
    SourcesOnly { s with ring := r } { t with ring := r } l := by
  obtain ⟨src, core, rest⟩ := h
  exact ⟨src, core, by rw [rest]⟩

/-! ## Link changes (R380) -/

/-- A port's link, or whether it wraps, is not what it was. -/
def Ring.changed (r old : Ring) (p : PortId) : Prop := r.port[p].link ≠ old.port[p].link ∨ r.wrapped p ≠ old.wrapped p

/-- The payload of a port's link source. -/
def Ring.linkWord (r : Ring) (p : PortId) : Word := flag r.port[p].link 0 ||| fld r.port[p].genUse 1 ||| flag (r.wrapped p) 3

/-- One port's part of `linkEvents`. -/
def State.linkEvent (old : Ring) (s : State) (p : PortId) : State :=
  if s.ring.port[p].link != old.port[p].link || s.ring.wrapped p != old.wrapped p then
    s.raise ⟨224 + p.val, by omega⟩ (s.ring.linkWord p)
  else s

theorem linkEvents_eq (s : State) (old : Ring) : s.linkEvents old = (List.finRange 4).foldl (State.linkEvent old) s := rfl

theorem linkSrc_kind : ∀ p : PortId, srcKind (224 + p.val) ≠ .reserved := by decide +kernel

theorem burstSrc_kind : ∀ p : PortId, srcKind (228 + p.val) ≠ .reserved := by decide +kernel

theorem sourcesOnly_linkEvent (old : Ring) {s : State} (p : PortId) (hm : s.power.mainRst = false) :
    SourcesOnly s (s.linkEvent old p) [224 + p.val] := by
  unfold State.linkEvent
  split
  · exact sourcesOnly_raise ⟨224 + p.val, by omega⟩ _ hm
  · exact .refl s _

/-- A fold of `linkEvent` over distinct ports touches their sources only, and raises that of each port that changed. -/
theorem linkEvent_fold (old : Ring) (l : List PortId) (hl : l.Nodup) {s : State} (hm : s.power.mainRst = false) :
    SourcesOnly s (l.foldl (State.linkEvent old) s) (l.map fun p => 224 + p.val) ∧
      ∀ p ∈ l, s.ring.changed old p → (s.src (224 + p.val)).en = true →
        ((l.foldl (State.linkEvent old) s).src (224 + p.val)).pend = true ∧
          ((l.foldl (State.linkEvent old) s).src (224 + p.val)).payload = s.ring.linkWord p := by
  induction l generalizing s with
  | nil => exact ⟨.refl s _, fun p hp => absurd hp List.not_mem_nil⟩
  | cons q l ih =>
    have first := sourcesOnly_linkEvent old q hm
    rw [List.nodup_cons] at hl
    obtain ⟨later, raised⟩ := ih hl.2 (first.mainRst.trans hm)
    rw [List.foldl_cons]
    refine ⟨(first.mono (by simp)).trans (later.mono (by simp +contextual)), fun p hp moved en => ?_⟩
    by_cases hq : p = q
    · subst hq
      have same : 224 + p.val ∉ l.map fun p => 224 + p.val := by
        simpa [Fin.val_inj] using hl.1
      have now : s.linkEvent old p = s.raise ⟨224 + p.val, by omega⟩ (s.ring.linkWord p) := if_pos (by simpa [Ring.changed] using moved)
      rw [later.1 _ same, now]
      exact (raise_raised ⟨224 + p.val, by omega⟩ _ hm (linkSrc_kind p)).1 en
    · have kept : (s.linkEvent old q).src (224 + p.val) = s.src (224 + p.val) := first.1 _ (by simpa [Fin.val_inj] using hq)
      have := raised p ((List.mem_cons.mp hp).resolve_left hq)
      rw [kept, first.ring] at this
      exact this moved en

theorem sourcesOnly_linkEvents (old : Ring) {s : State} (hm : s.power.mainRst = false) :
    SourcesOnly s (s.linkEvents old) [224, 225, 226, 227] := (linkEvent_fold old _ (List.nodup_finRange 4) hm).1

theorem linkEvents_raise {old : Ring} {s : State} {p : PortId} (hm : s.power.mainRst = false) (moved : s.ring.changed old p)
    (en : (s.src (224 + p.val)).en = true) :
    ((s.linkEvents old).src (224 + p.val)).pend = true ∧ ((s.linkEvents old).src (224 + p.val)).payload = s.ring.linkWord p :=
  (linkEvent_fold old _ (List.nodup_finRange 4) hm).2 p (List.mem_finRange p) moved en

/-! ## Ports -/

theorem rp_set_same (v : Vector RingPort 4) (p : PortId) (a : RingPort) : (v.set p a)[p] = a := by simp

theorem rp_set_other (v : Vector RingPort 4) {p q : PortId} (a : RingPort) (h : q ≠ p) : (v.set p a)[q] = v[q] := by
  have : p.val ≠ q.val := fun e => h (Fin.ext e.symm)
  simp [this]

theorem modRp_port (s : State) (p : PortId) (f : RingPort → RingPort) : (s.modRp p f).ring.port[p] = f s.ring.port[p] :=
  rp_set_same ..

theorem modRp_port_other (s : State) {p q : PortId} (f : RingPort → RingPort) (h : q ≠ p) :
    (s.modRp p f).ring.port[q] = s.ring.port[q] := rp_set_other _ _ h

theorem partner_ne : ∀ p : PortId, partner p ≠ p := by decide

/-- A port with link does not wrap. -/
theorem wrapped_linked {r : Ring} {p : PortId} (h : r.port[p].link = true) : r.wrapped p = false := by
  simp only [Ring.wrapped, h, Bool.not_true, Bool.false_and]

theorem linkWord_up (g : BitVec 2) : flag true 0 ||| fld g 1 ||| flag false 3 = BitVec.ofNat 32 (1 + 2 * g.toNat) := by
  revert g; decide

/-- What a port that loses link keeps. -/
def RingPort.dropped (rp : RingPort) : RingPort := { rp with link := false, genUse := 0, dlyOk := false, exch := 8, best := none, txq := [] }

/-- The state in which `linkDown` raises: the port is without link, and its responses wait where they can leave wrapped. -/
def State.unlinked (s : State) (p : PortId) : State :=
  let t := s.modRp p RingPort.dropped
  if t.ring.wrapped p then
    t.modRp (partner p) fun rp => { rp with txq := rp.txq ++ (s.ring.port[p]).txq.filter OwnFrame.isResp }
  else t

theorem linkDown_linked {s : State} {p : PortId} (h : s.ring.port[p].link = true) : s.linkDown p = (s.unlinked p).linkEvents s.ring := by
  unfold State.linkDown
  rw [h]
  rfl

theorem linkDown_unlinked {s : State} {p : PortId} (h : s.ring.port[p].link = false) : s.linkDown p = s := by
  unfold State.linkDown
  rw [h]
  rfl

theorem unlinked_rest (s : State) (p : PortId) : s.unlinked p = { s with ring := { s.ring with port := (s.unlinked p).ring.port } } := by
  unfold State.unlinked
  dsimp only
  split <;> rfl

theorem unlinked_port (s : State) (p : PortId) : (s.unlinked p).ring.port[p] = (s.ring.port[p]).dropped := by
  unfold State.unlinked
  dsimp only
  split
  · rw [modRp_port_other _ _ (partner_ne p).symm, modRp_port]
  · rw [modRp_port]

theorem unlinked_others (s : State) {p q : PortId} (hp : q ≠ p) (hq : q ≠ partner p) :
    (s.unlinked p).ring.port[q] = s.ring.port[q] := by
  unfold State.unlinked
  dsimp only
  split
  · rw [modRp_port_other _ _ hq, modRp_port_other _ _ hp]
  · rw [modRp_port_other _ _ hp]

theorem unlinked_partner (s : State) (p : PortId) :
    let q := s.ring.port[partner p]
    let wraps := q.link && q.wrapEn && decide (2 ≤ q.gen.toNat) && decide (2 ≤ (s.ring.port[p]).gen.toNat)
    (s.unlinked p).ring.port[partner p] =
      { q with txq := q.txq ++ if wraps then (s.ring.port[p]).txq.filter OwnFrame.isResp else [] } := by
  intro q wraps
  have wraps : (s.modRp p RingPort.dropped).ring.wrapped p =
      ((s.ring.port[partner p]).link && (s.ring.port[partner p]).wrapEn && decide (2 ≤ (s.ring.port[partner p]).gen.toNat) &&
        decide (2 ≤ (s.ring.port[p]).gen.toNat)) := by
    unfold Ring.wrapped
    rw [modRp_port, modRp_port_other _ _ (partner_ne p)]
    rfl
  unfold State.unlinked
  dsimp only
  rw [wraps]
  split
  · rw [modRp_port, modRp_port_other _ _ (partner_ne p)]
  · rw [modRp_port_other _ _ (partner_ne p), List.append_nil]

/-- What the loss of a port's link does (R375, R380). -/
theorem linkDown_sources {s : State} {p : PortId} (hm : s.power.mainRst = false) :
    SourcesOnly { s with ring := { s.ring with port := (s.linkDown p).ring.port } } (s.linkDown p) [224, 225, 226, 227] := by
  cases h : s.ring.port[p].link with
  | false => rw [linkDown_unlinked h]; exact .refl s _
  | true =>
    have hm' : (s.unlinked p).power.mainRst = false := by rw [unlinked_rest]; exact hm
    have only := sourcesOnly_linkEvents s.ring hm'
    rw [linkDown_linked h, only.ring, ← unlinked_rest]
    exact only

theorem linkDown_port {s : State} {p : PortId} (hm : s.power.mainRst = false) (h : s.ring.port[p].link = true) (q : PortId) :
    (s.linkDown p).ring.port[q] = (s.unlinked p).ring.port[q] := by
  have hm' : (s.unlinked p).power.mainRst = false := by rw [unlinked_rest]; exact hm
  rw [linkDown_linked h, (sourcesOnly_linkEvents s.ring hm').ring]

/-! ## A write of RPp_CTL -/

theorem regAt_rpCtl : ∀ p : PortId, regAt (BitVec.ofNat 32 (0x30070040 + p.val * 0x20)) = some (.rpCtl p) := by decide +kernel

/-- What RPp_CTL holds of a port, from the word written. -/
def RingPort.ctlSet (v : Word) (rp : RingPort) : RingPort :=
  { rp with gen := bits v 0 2, wrapEn := v.getLsbD 2, errth := bits v 8 8 }

theorem rpCtlWrite_sources {s : State} {p : PortId} (v : Word) (hm : s.power.mainRst = false) :
    SourcesOnly { s with ring := { s.ring with port := (s.rpCtlWrite p v).ring.port } } (s.rpCtlWrite p v) [224, 225, 226, 227] ∧
      (s.rpCtlWrite p v).ring.port =
        ((if bits v 0 2 ≠ s.ring.port[p].gen then s.linkDown p else s).modRp p (RingPort.ctlSet v)).ring.port := by
  obtain ⟨t, ht⟩ : ∃ t, t = if bits v 0 2 ≠ s.ring.port[p].gen then s.linkDown p else s := ⟨_, rfl⟩
  have eq : s.rpCtlWrite p v = (t.modRp p (RingPort.ctlSet v)).linkEvents t.ring := by rw [ht]; rfl
  have before : SourcesOnly { s with ring := { s.ring with port := t.ring.port } } t [224, 225, 226, 227] := by
    rw [ht]
    split
    · exact linkDown_sources hm
    · exact .refl s _
  have after' := sourcesOnly_linkEvents t.ring (s := t.modRp p (RingPort.ctlSet v)) (before.mainRst.trans hm)
  rw [eq, ← ht, after'.ring]
  have moved := before.withRing { t.ring with port := t.ring.port.set p (RingPort.ctlSet v t.ring.port[p]) }
  have ring : t.ring = { s.ring with port := t.ring.port } := before.ring
  refine ⟨SourcesOnly.trans ?_ after', rfl⟩
  have same : { s.ring with port := (t.modRp p (RingPort.ctlSet v)).ring.port } =
      { t.ring with port := t.ring.port.set p (RingPort.ctlSet v t.ring.port[p]) } := by
    rw [ring]; rfl
  rw [same]
  exact moved

/-! ## Errors and delay exchanges -/

/-- What an error does to a port's counts (R380). -/
def RingPort.erred (q : RingPort) : RingPort := { q with err := satInc q.err, winErr := q.winErr + 1 }

/-- An error on a port that takes frames: its counts move, and a burst is noted where ERRTH is reached. -/
theorem exec_frameError {s : State} {p : PortId} (fwd : s.forwarding = true) (gen : s.ring.port[p].gen ≠ 0)
    (link : s.ring.port[p].link = true) (e : RxError) :
    let u := (s.modRp p RingPort.erred).countB 0x5E
    let rp := u.ring.port[p]
    let n : BitVec 16 := BitVec.ofNat 16 rp.winErr
    exec (.frameError p e) s = .next (if (rp.armed && decide (max 1 rp.errth.toNat ≤ rp.winErr)) = true then
        ((u.modRp p fun rp => { rp with burst := true, armed := false }).cause 0x06 0xFF 0
          ((BitVec.ofNat 96 p.val) ||| (rp.genUse.setWidth 96 <<< 8) ||| (n.setWidth 96 <<< 16))).raise ⟨228 + p.val, by omega⟩ (fld n 0)
      else u) := by
  intro u rp n
  have open_ : ¬(!s.forwarding || s.ring.port[p].gen == 0 || !s.ring.port[p].link) = true := by
    rw [fwd, link, beq_eq_false_iff_ne.mpr gen]
    decide
  refine (if_neg open_).trans ?_
  exact (apply_ite Host.Outcome.next ..).symm

/-- The least of the delays so far and a new one. -/
def bestDelay (o : Option Int) (d : Int) : Int :=
  match o with
  | some b => if d < b then d else b
  | none => d

theorem bestDelay_min (o : Option Int) (d : Int) : bestDelay o d = (o.map fun b => min b d).getD d := by
  cases o with
  | none => rfl
  | some b =>
    change (if d < b then d else b) = min b d
    rw [min_def]
    split <;> split <;> omega

/-- A reply to one of the port's eight requests. -/
theorem exec_dlyRsp {s : State} {p : PortId} {n : BitVec 16} (fwd : s.forwarding = true) (link : s.ring.port[p].link = true)
    (num : (n - s.ring.port[p].dlyNum).toNat < 8) (exch : s.ring.port[p].exch < 8) (t32 trip : Int) :
    let rp := s.ring.port[p]
    let d := (trip - t32) / 2
    let best := (rp.best.map fun b => min b d).getD d
    exec (.dlyRsp p n t32 trip) s = .next (s.modRp p fun q => { q with
      exch := q.exch + 1, best := some best, dlyOk := rp.exch == 7,
      ldly := if rp.exch == 7 then BitVec.ofInt 31 (best + q.asym.toInt) else q.ldly }) := by
  intro rp d best
  have open_ : ¬(!s.forwarding || !s.ring.port[p].link || decide (8 ≤ s.ring.port[p].exch) ||
      decide (8 ≤ (n - s.ring.port[p].dlyNum).toNat)) = true := by
    rw [fwd, link, decide_eq_false (Nat.not_le.mpr exch), decide_eq_false (Nat.not_le.mpr num)]
    decide
  have half : (trip - t32).fdiv 2 = d := Int.fdiv_eq_ediv_of_nonneg _ (by decide)
  refine (if_neg open_).trans ?_
  rw [half, show best = bestDelay rp.best d from (bestDelay_min ..).symm]
  rfl

/-! ## A line that comes up -/

/-- What a port takes as its line comes up at the speed of GEN (R251, R356). -/
def RingPort.up (n : BitVec 16) (q : RingPort) : RingPort :=
  { q with link := true, genUse := q.gen, dlyOk := false, exch := 0, best := none, dlyNum := n,
           txq := q.txq ++ (List.range 8).map fun i => .dlyReq (n + BitVec.ofNat 16 i) }

theorem exec_linkUp {s : State} {p : PortId} (por : s.power.pornAon = true) (res : s.power.restored = true)
    (clk : s.ring.tclk = true) (gen : s.ring.port[p].gen ≠ 0) (link : s.ring.port[p].link = false) :
    exec (.linkUp p s.ring.port[p].gen) s =
      .next ((s.free.2.modRp p (RingPort.up (bits s.free.1 0 16))).linkEvents s.ring) := by
  have open_ : ¬(!s.power.pornAon || !s.power.restored || !s.ring.tclk || s.ring.port[p].gen == 0) = true := by
    rw [por, res, clk, beq_eq_false_iff_ne.mpr gen]
    decide
  have same : ¬(2 ≤ (s.ring.port[p]).gen.toNat ∧ s.ring.port[p].gen ≠ s.ring.port[p].gen) := fun h => h.2 rfl
  refine (if_neg open_).trans ((if_neg same).trans ((if_neg (by rw [link]; decide)).trans rfl))

theorem exec_linkUp_wrongSpeed {s : State} {p : PortId} {speed : BitVec 2} (por : s.power.pornAon = true)
    (res : s.power.restored = true) (clk : s.ring.tclk = true) (gen : 2 ≤ (s.ring.port[p]).gen.toNat) (fast : 2 ≤ speed.toNat)
    (other : speed ≠ s.ring.port[p].gen) :
    exec (.linkUp p speed) s = .next ((s.linkDown p).modRp p fun rp => { rp with genErr := true }) := by
  have gen0 : s.ring.port[p].gen ≠ 0 := fun h => by rw [h] at gen; exact absurd gen (by decide)
  have open_ : ¬(!s.power.pornAon || !s.power.restored || !s.ring.tclk || s.ring.port[p].gen == 0) = true := by
    rw [por, res, clk, beq_eq_false_iff_ne.mpr gen0]
    decide
  exact (if_neg open_).trans ((if_pos ⟨gen, other⟩).trans (if_pos fast))

/-- The state in which a burst raises: the port's counts and flags have moved, and the cause is captured. -/
theorem State.burst_raised (s : State) {p : PortId} {u : State} (hm : s.power.mainRst = false)
    (hu : u = (s.modRp p RingPort.erred).countB 0x5E) (d : BitVec 96) (v : Word) :
    let t := ((u.modRp p fun rp => { rp with burst := true, armed := false }).cause 0x06 0xFF 0 d).raise ⟨228 + p.val, by omega⟩ v
    LoggedOnly (s.modRp p fun q => { q.erred with burst := true, armed := false }) t [228 + p.val] ∧
      ((s.src (228 + p.val)).en = true → (t.src (228 + p.val)).pend = true) := by
  intro t
  obtain ⟨w, hw⟩ : ∃ w, w = (u.modRp p fun rp => { rp with burst := true, armed := false }).cause 0x06 0xFF 0 d := ⟨_, rfl⟩
  have ht : t = w.raise ⟨228 + p.val, by omega⟩ v := by rw [hw]
  obtain ⟨ng, cn, rest⟩ : ∃ ng cn, w = { (s.modRp p fun q => { q.erred with burst := true, armed := false }) with
      night := ng, counters := { s.counters with cnt := cn } } := by
    have twice : ((s.modRp p RingPort.erred).modRp p fun rp => { rp with burst := true, armed := false }) =
        s.modRp p fun q => { q.erred with burst := true, armed := false } := by
      simp only [State.modRp, Fin.getElem_fin, Vector.getElem_set_self, Vector.set_set]
    rw [← twice, hw, hu]
    exact ⟨_, _, rfl⟩
  have hmw : w.power.mainRst = false := by rw [rest]; exact hm
  have raised := raise_raised ⟨228 + p.val, by omega⟩ v hmw (burstSrc_kind p)
  have only := sourcesOnly_raise ⟨228 + p.val, by omega⟩ v hmw
  have srcs (n : Nat) : w.src n = s.src n := by rw [rest]; rfl
  rw [← ht] at raised only
  refine ⟨?_, fun en => (raised.1 (by rw [srcs]; exact en)).1⟩
  have night : t.night = w.night := by
    obtain ⟨-, -, e⟩ := only
    rw [e]
  unfold LoggedOnly
  rw [night]
  refine SourcesOnly.trans ?_ only
  rw [rest]
  exact ⟨fun _ _ => rfl, fun _ => rfl, rfl⟩

/-- Settles O40: each row's branch is taken where its condition holds; link changes raise by `linkEvents_raise`. -/
theorem portsFollowTheirLinks : Obligations.PortsFollowTheirLinks := by
  intro s p rp set
  refine ⟨rfl, rfl, rfl, fun off e => ?_, fun fwd gen link few e => ?_, fun fwd gen link armed many hm e => ?_, fun fwd link n d => ?_,
    fun fwd link n t32 trip num => ⟨fun exch => ?_, fun exch => ?_⟩, fun por res clk hm gen link => ?_,
    fun por res clk link speed gen fast other => ?_, fun hm link => ?_, fun w v may hm => ?_⟩
  · refine if_pos ?_
    rcases off with h | h | h
    · rw [h]; rfl
    · rw [show s.ring.port[p].gen = 0 from h, BEq.rfl, Bool.or_true, Bool.true_or]
    · rw [show s.ring.port[p].link = false from h, Bool.not_false, Bool.or_true]
  · refine ⟨_, exec_frameError fwd gen link e, ?_⟩
    have quiet : ¬(((s.modRp p RingPort.erred).countB 0x5E).ring.port[p].armed &&
        decide (max 1 (((s.modRp p RingPort.erred).countB 0x5E).ring.port[p]).errth.toNat ≤
          ((s.modRp p RingPort.erred).countB 0x5E).ring.port[p].winErr)) = true := by
      rw [show ((s.modRp p RingPort.erred).countB 0x5E).ring.port[p] = (s.ring.port[p]).erred from modRp_port ..]
      rcases few with h | h
      · rw [show ((s.ring.port[p]).erred).armed = false from h, Bool.false_and]; decide
      · rw [Bool.and_eq_true, decide_eq_true_eq, not_and, Nat.not_le]
        exact fun _ => h
    rw [if_neg quiet]
    exact (sourcesOnly_countB (s.modRp p RingPort.erred) 0x5E 1 [176]).upto
  · have noted : (((s.modRp p RingPort.erred).countB 0x5E).ring.port[p].armed &&
        decide (max 1 (((s.modRp p RingPort.erred).countB 0x5E).ring.port[p]).errth.toNat ≤
          ((s.modRp p RingPort.erred).countB 0x5E).ring.port[p].winErr)) = true := by
      rw [show ((s.modRp p RingPort.erred).countB 0x5E).ring.port[p] = (s.ring.port[p]).erred from modRp_port ..,
        show ((s.ring.port[p]).erred).armed = true from armed, Bool.true_and, decide_eq_true_eq]
      exact many
    refine ⟨_, (exec_frameError fwd gen link e).trans (congrArg Host.Outcome.next (if_pos noted)), ?_⟩
    obtain ⟨u, hu⟩ : ∃ u, u = (s.modRp p RingPort.erred).countB 0x5E := ⟨_, rfl⟩
    obtain ⟨d, hd⟩ : ∃ d : BitVec 96, d = ((BitVec.ofNat 96 p.val) ||| ((u.ring.port[p]).genUse.setWidth 96 <<< 8) |||
      ((BitVec.ofNat 16 (u.ring.port[p]).winErr).setWidth 96 <<< 16)) := ⟨_, rfl⟩
    rw [← hu, ← hd]
    have burst := s.burst_raised hm hu d (fld (BitVec.ofNat 16 (u.ring.port[p]).winErr) 0)
    exact burst
  · exact if_pos (by rw [fwd, show s.ring.port[p].link = true from link]; rfl)
  · refine (exec_dlyRsp fwd link num (Nat.lt_of_lt_of_le exch (by decide)) t32 trip).trans ?_
    rw [show (s.ring.port[p].exch == 7) = false from beq_eq_false_iff_ne.mpr (Nat.ne_of_lt exch)]
    rfl
  · refine (exec_dlyRsp fwd link num (Nat.lt_of_le_of_lt (Nat.le_of_eq exch) (by decide)) t32 trip).trans ?_
    have seven : (s.ring.port[p].exch == 7) = true := beq_iff_eq.mpr exch
    rw [seven]
    simp only [State.modRp, exch, rp, set, ite_true]
  · refine ⟨bits s.free.1 0 16, _, exec_linkUp por res clk gen link, ?_⟩
    obtain ⟨u, hu⟩ : ∃ u, u = s.free.2.modRp p (RingPort.up (bits s.free.1 0 16)) := ⟨_, rfl⟩
    have hmu : u.power.mainRst = false := by rw [hu]; exact hm
    have only := sourcesOnly_linkEvents s.ring hmu
    have port : u.ring.port[p] = (s.ring.port[p]).up (bits s.free.1 0 16) := by rw [hu]; exact modRp_port ..
    have isUp : u.ring.port[p].link = true := by rw [port]; rfl
    rw [← hu]
    refine ⟨?_, fun en => ?_⟩
    · rw [show (u.linkEvents s.ring).freeCtr = u.freeCtr by rw [only.2.2]]
      rw [hu] at only ⊢
      exact only
    · have moved : u.ring.changed s.ring p := .inl (by rw [isUp, show s.ring.port[p].link = false from link]; decide)
      have raised := linkEvents_raise hmu moved (by rw [hu]; exact en)
      rw [raised.2, Ring.linkWord, wrapped_linked isUp, port]
      exact ⟨raised.1, linkWord_up _⟩
  · refine (exec_linkUp_wrongSpeed por res clk gen fast other).trans ?_
    rw [linkDown_unlinked link]
    rfl
  · refine ⟨_, rfl, linkDown_sources hm, ?_, fun q other far => ?_, ?_, fun en => ?_⟩
    · rw [linkDown_port hm link, unlinked_port]; rfl
    · rw [linkDown_port hm link, unlinked_others s other far]
    · rw [linkDown_port hm link]
      exact unlinked_partner s p
    · have hmu : (s.unlinked p).power.mainRst = false := by rw [unlinked_rest]; exact hm
      have moved : (s.unlinked p).ring.changed s.ring p :=
        .inl (by rw [unlinked_port, show s.ring.port[p].link = true from link]; exact Bool.false_ne_true)
      rw [linkDown_linked link]
      exact (linkEvents_raise hmu moved (by rw [unlinked_rest]; exact en)).1
  · obtain ⟨only, port⟩ := rpCtlWrite_sources (p := p) v hm
    have gen : bits v 0 2 = BitVec.ofNat 2 v.toNat := (bits_eq_ofNat v 0 2).trans (by rw [Nat.pow_zero, Nat.div_one])
    have errth : bits v 8 8 = BitVec.ofNat 8 (v.toNat / 256) := bits_eq_ofNat v 8 8
    refine ⟨s.rpCtlWrite p v, congrArg Host.Outcome.next (writeBy_may (regAt_rpCtl p) may v), only, fun same => ?_, fun other link => ?_⟩
    · rw [port, if_neg (not_not_intro (gen.trans same))]
      simp only [State.modRp, RingPort.ctlSet, gen, errth, rp]
    · rw [port, if_pos (fun h => other (gen.symm.trans h)), modRp_port, linkDown_port hm link, unlinked_port]
      simp only [RingPort.ctlSet, gen, errth, rp, RingPort.dropped]

end Sys2Proof.Machine
end

