-- ==== Sys2Proof/Proofs/RingForwarding.lean ====
section
/-! SUPPORT. What the repeater passes on, and which own frame leaves next (R352 to R370, R381). -/

set_option Elab.async false

namespace Sys2Proof.Machine

open Sys2Proof

/-! ## Which row a frame takes -/

/-- A delay exchange (R251): it stays on its link. -/
def isDelay (f : Frame) : Bool := !f.rsp && (f.cmd == 0x11 || f.cmd == 0x12)

/-- A frame discarded at the port it came in on. -/
def State.fwDropped (s : State) (p : PortId) : State := s.modRp p fun q => { q with fwdrop := satInc q.fwdrop }

theorem kindOf_knadu {r : Ring} {p : PortId} {f : Frame}
    (h : if r.port[p].genUse = 1 then f.ty.toNat % 256 = 0x4B else f.ty = r.etype) : r.kindOf p f = some .knadu := by
  unfold Ring.kindOf
  by_cases g : r.port[p].genUse = 1
  · rw [if_pos g] at h ⊢
    exact if_pos h
  · rw [if_neg g] at h ⊢
    rw [if_pos h]

theorem kindOf_other {r : Ring} {p : PortId} {f : Frame}
    (h : if r.port[p].genUse = 1 then 1 ≤ f.ty.toNat % 256 ∧ f.ty.toNat % 256 ≤ 0x3F else f.ty ≠ r.etype) :
    r.kindOf p f = some (if r.port[p].genUse = 1 then .ferpor16 else .ethernet) := by
  unfold Ring.kindOf
  by_cases g : r.port[p].genUse = 1
  · rw [if_pos g] at h ⊢
    rw [if_pos g]
    have : ¬f.ty.toNat % 256 = 0x4B := fun e => by omega
    exact (if_neg this).trans (if_pos h)
  · rw [if_neg g] at h ⊢
    rw [if_neg g, if_neg h]

theorem exec_forward_other {s : State} {p : PortId} {f : Frame} {k : FrameKind} (fwd : s.forwarding = true)
    (link : s.ring.port[p].link = true) (kind : s.ring.kindOf p f = some k) (hk : k ≠ .knadu) (ahead : Nat) :
    exec (.frameForward p f ahead) s = .next (s.forward p k f ahead) := by
  refine (if_neg (by rw [fwd, link]; decide)).trans ?_
  rw [kind]
  cases k with
  | knadu => exact absurd rfl hk
  | ethernet => rfl
  | ferpor16 => rfl

/-- A Knadu frame that no row but FRAME_FORWARD takes, and that is no command for a handler of its own. -/
theorem exec_forward_knadu {s : State} {p : PortId} {f : Frame} (fwd : s.forwarding = true)
    (link : s.ring.port[p].link = true) (kind : s.ring.kindOf p f = some .knadu)
    (plain : f.rsp = true ∨ (assignedCmd f.cmd = true ∧ f.cmd ≠ 0x10 ∧ f.cmd ≠ 0x07)) (ahead : Nat) :
    exec (.frameForward p f ahead) s = .next (s.forward p .knadu f ahead) := by
  refine (if_neg (by rw [fwd, link]; decide)).trans ?_
  rw [kind]
  rcases plain with rsp | ⟨code, sync, assign⟩
  · refine (if_neg (by simp [rsp])).trans ((if_neg (by simp [rsp])).trans ?_)
    exact congrArg Host.Outcome.next (if_neg (by simp [rsp]))
  · refine (if_neg ?_).trans ((if_neg ?_).trans (congrArg Host.Outcome.next (if_neg ?_)))
    · rw [show (f.cmd == 0x10) = false from beq_eq_false_iff_ne.mpr sync, Bool.and_false]
      decide
    · rw [show (f.cmd == 0x07) = false from beq_eq_false_iff_ne.mpr assign, Bool.and_false]
      decide
    · rw [code, Bool.not_true, Bool.and_false]
      decide

theorem commandCodes : ∀ c ∈ [0x01#8, 0x02#8, 0x03#8, 0x04#8, 0x05#8, 0x06#8, 0x08#8, 0x09#8],
    assignedCmd c = true ∧ c ≠ 0x10 ∧ c ≠ 0x07 ∧ (c == 0x11 || c == 0x12) = false := by decide

theorem delayCodes {c : Byte} (h : c = 0x11 ∨ c = 0x12) :
    assignedCmd c = true ∧ c ≠ 0x10 ∧ c ≠ 0x07 ∧ (c == 0x11 || c == 0x12) = true := by
  rcases h with rfl | rfl <;> decide

/-! ## How a frame goes on -/

theorem forward_delay {s : State} {p : PortId} {f : Frame} (h : isDelay f = true) (ahead : Nat) :
    s.forward p .knadu f ahead = s := if_pos h

theorem forward_hops {s : State} {p : PortId} {f : Frame} (h : isDelay f = false) (hops : f.hdr.hops = 0xFF) (ahead : Nat) :
    s.forward p .knadu f ahead = s.modRp p fun q => { q with hopdrop := satInc q.hopdrop } :=
  (if_neg (ne_true_of_eq_false h)).trans (if_pos (by rw [hops]; rfl))

/-- A Knadu frame with hops left, and a port to leave on. -/
theorem forward_knadu {s : State} {p o : PortId} {f : Frame} (h : isDelay f = false) (hops : f.hdr.hops ≠ 0xFF)
    (out : s.ring.outFor (partner p) = some o) (ahead : Nat) :
    s.forward p .knadu f ahead =
      if s.ring.repliesOnly o then s.fwDropped p
      else if limitD s.ring.port[o].genUse + 4 < f.hdr.len then s.modRp o fun q => { q with oversz := satInc q.oversz }
      else if 16384 < ahead + f.size then s.fwDropped p
      else s.forwardOut o { f with ty := s.ring.knaduTy o, hdr := { f.hdr with hops := f.hdr.hops + 1 } } := by
  refine (if_neg (ne_true_of_eq_false h)).trans ((if_neg (by simpa using hops)).trans ?_)
  rw [out]
  simp only [State.fwDropped, show (FrameKind.knadu == .ethernet) = false from rfl, show (FrameKind.knadu == .ferpor16) = false from rfl,
    show (FrameKind.knadu == .knadu) = true from rfl, Bool.false_and, Bool.false_or, Bool.true_and, decide_eq_true_eq, if_true]

/-- Another frame with a port to leave on: it goes on as it is where that port carries its kind. -/
theorem forward_other {s : State} {p o : PortId} (f : Frame) (out : s.ring.outFor (partner p) = some o) (g : Prop) [Decidable g]
    (ahead : Nat) :
    s.forward p (if g then .ferpor16 else .ethernet) f ahead =
      if ¬(g ↔ s.ring.port[o].genUse = 1) ∨ s.ring.repliesOnly o = true ∨ 16384 < ahead + f.size then s.fwDropped p
      else s.forwardOut o f := by
  have step (k : FrameKind) (hk : k ≠ .knadu) : s.forward p k f ahead =
      if ((k == .ethernet && s.ring.port[o].genUse == 1) || (k == .ferpor16 && s.ring.port[o].genUse != 1) || s.ring.repliesOnly o) = true
      then s.fwDropped p else if 16384 < ahead + f.size then s.fwDropped p else s.forwardOut o f := by
    have no : (k == .knadu) = false := beq_eq_false_iff_ne.mpr hk
    unfold State.forward
    simp only [no, Bool.false_and, Bool.false_eq_true, if_false, out]
    rfl
  by_cases hg : g
  · rw [if_pos hg, step _ (by decide)]
    by_cases only : s.ring.repliesOnly o = true <;> by_cases full : 16384 < ahead + f.size <;> simp [hg, only, full]
  · rw [if_neg hg, step _ (by decide)]
    by_cases only : s.ring.repliesOnly o = true <;> by_cases full : 16384 < ahead + f.size <;> simp [hg, only, full]

theorem repliesOnly_iff (r : Ring) (p : PortId) : r.repliesOnly p = true ↔ r.port[p].genUse = 1 ∧ p.val % 2 = 0 := by
  simp only [Ring.repliesOnly, Bool.and_eq_true, beq_iff_eq]

/-- A frame that only its hops and type tell from one that leaves changes `o` alone. -/
theorem forwardOut_others (s : State) {o q : PortId} (f : Frame) (h : q ≠ o) : (s.forwardOut o f).ring.port[q] = s.ring.port[q] :=
  modRp_port_other _ _ h

theorem forwardOut_out (s : State) (o : PortId) (f : Frame) : ((s.forwardOut o f).ring.port[o]).fwdOut = some f := by
  rw [State.forwardOut, modRp_port]

/-! ## Header bytes -/

theorem be16_append (v : BitVec 16) : bits v 8 8 ++ bits v 0 8 = v := by
  apply BitVec.eq_of_getLsbD_eq
  intro i hi
  simp only [BitVec.getLsbD_append, bits, BitVec.getLsbD_setWidth, BitVec.getLsbD_ushiftRight]
  by_cases low : i < 8
  · simp [low]
  · have high : i - 8 < 8 := by omega
    have sum : 8 + (i - 8) = i := by omega
    simp [low, high, sum]

/-- A frame is read back from its header's bytes (R362). -/
theorem frameOfPdu_framePdu (p : PortId) (f : Frame) (port : f.hdr.port = p) (len : f.hdr.len < 0x10000) :
    frameOfPdu p f.ty f.fcsOk f.size (framePdu f) = some f := by
  obtain ⟨ty, fcsOk, hcrc, rsp, cmd, ⟨port', node, seq, index, sub, flags, n, src, hops⟩, status, credit, payload, size⟩ := f
  subst port
  have first : ∀ (b : Bool) (v : BitVec 7), (((if b then 0x80#8 else 0) ||| v.setWidth 8).getLsbD 7 = b ∧
      (bits ((if b then 0x80#8 else 0) ||| v.setWidth 8) 0 7 : BitVec 7) = v) := by decide
  have short : ∀ v : BitVec 7, (bits (v.setWidth 8) 0 7 : BitVec 7) = v := by decide
  have size16 : (BitVec.ofNat 16 n).toNat = n := by
    rw [BitVec.toNat_ofNat]
    exact Nat.mod_eq_of_lt len
  have two (v : BitVec 16) : bytesBE 2 v = [bits v 8 8, bits v 0 8] := rfl
  simp only [framePdu, frameHead, two, List.cons_append, List.nil_append, frameOfPdu, be16_append, first, short, size16]

/-! ## The own frame that leaves next (R370) -/

/-- Of the frame chosen so far and a younger one, the one of lower rank; the older one of equals. -/
def pickFrame (b : Option OwnFrame) (f : OwnFrame) : Option OwnFrame :=
  match b with
  | some g => if f.rank < g.rank then some f else some g
  | none => some f

theorem next_eq (rp : RingPort) : rp.next = rp.txq.foldl pickFrame none := rfl

/-- Frames of higher rank leave a choice of higher rank. -/
theorem pick_above {f : OwnFrame} (l : List OwnFrame) (hl : ∀ g ∈ l, f.rank < g.rank) (o : Option OwnFrame)
    (ho : ∀ g ∈ o, f.rank < g.rank) : ∀ g ∈ l.foldl pickFrame o, f.rank < g.rank := by
  induction l generalizing o with
  | nil => exact ho
  | cons h l ih =>
    refine ih (fun g hg => hl g (List.mem_cons_of_mem h hg)) _ fun g hg => ?_
    have first := hl h List.mem_cons_self
    cases o with
    | none => rw [Option.mem_def.mp hg |> Option.some.inj |>.symm]; exact first
    | some k =>
      change g ∈ (if h.rank < k.rank then some h else some k) at hg
      split at hg
      · rw [← Option.some.inj hg]; exact first
      · rw [← Option.some.inj hg]; exact ho k rfl

/-- Younger frames of no lower rank do not displace the choice. -/
theorem pick_stays {f : OwnFrame} (l : List OwnFrame) (hl : ∀ g ∈ l, f.rank ≤ g.rank) : l.foldl pickFrame (some f) = some f := by
  induction l with
  | nil => rfl
  | cons h l ih =>
    have first : pickFrame (some f) h = some f := if_neg (Nat.not_lt.mpr (hl h List.mem_cons_self))
    rw [List.foldl_cons, first]
    exact ih fun g hg => hl g (List.mem_cons_of_mem h hg)

/-- The oldest frame of the lowest rank is next. -/
theorem next_lowest {rp : RingPort} {a b : List OwnFrame} {f : OwnFrame} (h : rp.txq = a ++ f :: b) (ha : ∀ g ∈ a, f.rank < g.rank)
    (hb : ∀ g ∈ b, f.rank ≤ g.rank) : rp.next = some f := by
  have above := pick_above a ha none fun g hg => absurd hg (Option.not_mem_none g)
  have picked : pickFrame (a.foldl pickFrame none) f = some f := by
    cases e : a.foldl pickFrame none with
    | none => rfl
    | some g => exact if_pos (above g e)
  rw [next_eq, h, List.foldl_append, List.foldl_cons, picked]
  exact pick_stays b hb

theorem erase_lowest {a b : List OwnFrame} {f : OwnFrame} (ha : ∀ g ∈ a, f.rank < g.rank) : (a ++ f :: b).erase f = a ++ b := by
  have absent : f ∉ a := fun h => Nat.lt_irrefl _ (ha f h)
  rw [List.erase_append_right _ absent, List.erase_cons_head]

/-! ## Node messages (R381) -/

theorem regAt_nmsgCtl : regAt 0x30070160 = some .nmsgCtl := by decide +kernel

theorem regAt_hmsgSt : regAt 0x30070120 = some .hmsgSt := by decide +kernel

/-- A message to be sent by ports 0 and 1. -/
def State.messaged (s : State) (n : BitVec 6) : State :=
  let data := ((List.finRange 8).flatMap fun k => toBytes 4 s.ring.nmsg[k]).take n.toNat
  let put (s : State) (p : PortId) : State := s.modRp p fun rp => { rp with txq := rp.txq ++ [.nmsg data] }
  put (put (s.modRing fun r => { r with nlen := n, nbusy := true, npair := false, nsent := false }) 0) 1

/-- What the word that NMSG_SEND writes asks for. -/
theorem nmsgSend_bits (v : Word) : bits (v ||| 0x100) 0 6 = BitVec.ofNat 6 (v.toNat % 64) ∧ (v ||| 0x100).getLsbD 8 = true ∧
    (v ||| 0x100).getLsbD 10 = v.getLsbD 10 := by
  refine ⟨?_, by simp, by simp⟩
  apply BitVec.eq_of_getLsbD_eq
  intro i hi
  have : (0x100#32).getLsbD i = false := by
    have : ∀ i < 6, (0x100#32).getLsbD i = false := by decide
    exact this i hi
  simp only [bits, BitVec.ushiftRight_zero, BitVec.getLsbD_setWidth, hi, decide_true, Bool.true_and, BitVec.getLsbD_or,
    BitVec.getLsbD_ofNat]
  rw [show v.toNat % 64 = v.toNat % 2 ^ 6 from rfl, Nat.testBit_mod_two_pow, decide_eq_true hi, Bool.true_and,
    show (0x100 : Word).getLsbD i = false from this, Bool.or_false]
  rfl

/-- NMSG_SEND takes the length and keeps NLOST; then it sends, or loses, the message. -/
theorem nmsgCtl_send {s : State} {v : Word} (free : s.ring.nbusy = false) (keep : v.getLsbD 10 = false) :
    let n : BitVec 6 := BitVec.ofNat 6 (v.toNat % 64)
    let u := s.modRing fun r => { r with nlen := n }
    (1 ≤ v.toNat % 64 → v.toNat % 64 ≤ 32 → s.ring.port[(0 : PortId)].link = true → s.ring.port[(1 : PortId)].link = true →
      s.nmsgCtl (v ||| 0x100) = s.messaged n) ∧
    (v.toNat % 64 = 0 ∨ 32 < v.toNat % 64 → s.nmsgCtl (v ||| 0x100) = u.modRing fun r => { r with nlost := true }) := by
  intro n u
  obtain ⟨len, send, bit10⟩ := nmsgSend_bits v
  have start : (s.modRing fun r => { r with nlen := bits (v ||| 0x100) 0 6, nlost := r.nlost && !(v ||| 0x100).getLsbD 10 }) = u := by
    simp only [len, bit10, keep, Bool.not_false, Bool.and_true]
    rfl
  have size : u.ring.nlen.toNat = v.toNat % 64 := by
    change (BitVec.ofNat 6 (v.toNat % 64)).toNat = _
    rw [BitVec.toNat_ofNat]
    exact Nat.mod_mod ..
  have goes : ¬(!(v ||| 0x100).getLsbD 8 || u.ring.nbusy) = true := by
    rw [send, show u.ring.nbusy = false from free]
    decide
  unfold State.nmsgCtl
  rw [start]
  refine ⟨fun low high l0 l1 => ?_, fun wrong => ?_⟩
  · have ok : ¬(u.ring.nlen.toNat = 0 ∨ 32 < u.ring.nlen.toNat) := by rw [size]; omega
    have both : (u.ring.port[(0 : PortId)].link && u.ring.port[(1 : PortId)].link) = true := by
      rw [show u.ring.port[(0 : PortId)].link = true from l0, show u.ring.port[(1 : PortId)].link = true from l1]
      rfl
    refine (if_neg goes).trans ((if_neg ok).trans ((if_neg (by dsimp only; rw [both]; simp)).trans
      ((if_neg (by dsimp only; rw [both]; decide)).trans ?_)))
    dsimp only
    rw [both]
    rfl
  · exact (if_neg goes).trans (if_pos (by rw [size]; exact wrong))

theorem messaged_port (s : State) (n : BitVec 6) (q : PortId) :
    let data := ((List.finRange 8).flatMap fun k => toBytes 4 s.ring.nmsg[k]).take n.toNat
    (s.messaged n).ring.port[q] =
      if q.val < 2 then { s.ring.port[q] with txq := s.ring.port[q].txq ++ [.nmsg data] } else s.ring.port[q] := by
  intro data
  unfold State.messaged
  dsimp only
  by_cases h1 : q = 1
  · subst h1
    rw [modRp_port, modRp_port_other _ _ (by decide)]
    rfl
  · rw [modRp_port_other _ _ h1]
    by_cases h0 : q = 0
    · subst h0
      rw [modRp_port]
      rfl
    · have far : ¬q.val < 2 := fun h => by
        rcases (by omega : q.val = 0 ∨ q.val = 1) with e | e
        · exact h0 (Fin.ext e)
        · exact h1 (Fin.ext e)
      rw [modRp_port_other _ _ h0, if_neg far]
      rfl

theorem bits_low7 (v : Byte) : bits v 0 7 = BitVec.ofNat 7 v.toNat := (bits_eq_ofNat v 0 7).trans (by rw [Nat.pow_zero, Nat.div_one])

/-! ## The rows that pass frames on -/

/-- The frame of an ASSIGN (R367). -/
def State.assignFrame (s : State) (h : RingHdr) (data : List Byte) : Frame :=
  frameSealed { ty := s.ring.knaduTy h.port, fcsOk := true, hcrc := 0, rsp := false, cmd := 0x07, hdr := h, status := 0, credit := 0,
                payload := data, size := 64 }

/-- ASSIGN, where the node takes the number (R367). -/
theorem exec_assign {s : State} {p o : PortId} {h : RingHdr} {next mode : Byte} (fwd : s.forwarding = true)
    (link : s.ring.port[p].link = true) (out : s.ring.outFor (partner p) = some o) (carries : s.ring.repliesOnly o = false)
    (port : h.port = p) (node : h.node = 0x7F) (hops : h.hops ≠ 0xFF) (len : h.len ≤ limitD s.ring.port[o].genUse + 4)
    (lock : s.ring.assignLk = false) (small : next.toNat ≤ 63) (wanted : mode = 1 ∨ (mode = 0 ∧ s.ring.node = 0x7F)) :
    ∃ f : Frame, f.payload = [next + 1, mode] ∧ f.hdr.hops = h.hops + 1 ∧
      exec (.assign h [next, mode]) s = .next ((s.modRing fun r => { r with node := bits next 0 7 }).forwardOut o f) := by
  subst port
  obtain ⟨f, hf⟩ : ∃ f, f = s.assignFrame h [next, mode] := ⟨_, rfl⟩
  have takes : s.ring.takes f = true := by
    have crc : frameHcrcOk f = true := by rw [hf]; exact beq_self_eq_true _
    have parts : f.fcsOk = true ∧ f.hdr = h ∧ f.payload = [next, mode] := by rw [hf]; exact ⟨rfl, rfl, rfl⟩
    obtain ⟨fcs, hdr, payload⟩ := parts
    unfold Ring.takes
    rw [fcs, crc, hdr, payload, node, lock]
    rcases wanted with rfl | ⟨rfl, none_⟩
    · simp [small]
    · simp [small, none_]
  obtain ⟨u, hu⟩ : ∃ u, u = s.modRing fun r => { r with node := bits next 0 7 } := ⟨_, rfl⟩
  have run : exec (.assign h [next, mode]) s =
      .next (u.forward h.port .knadu { f with payload := [next + 1, mode] } 0) := by
    refine (if_pos (by rw [fwd, link]; rfl)).trans ?_
    rw [hu, hf] at *
    exact congrArg Host.Outcome.next (if_pos takes)
  have goes := forward_knadu (s := u) (p := h.port) (o := o) (f := { f with payload := [next + 1, mode] }) (by rw [hf]; rfl)
    (by rw [hf]; exact hops) (by rw [hu]; exact out) 0
  have carries' : u.ring.repliesOnly o = false := by rw [hu]; exact carries
  have fits : ¬limitD u.ring.port[o].genUse + 4 < f.hdr.len := by rw [hu, hf]; exact Nat.not_lt.mpr len
  have short : ¬16384 < 0 + f.size := by
    rw [show f.size = 64 by rw [hf]; rfl]
    decide
  rw [if_neg (by rw [carries']; decide), if_neg fits, if_neg short] at goes
  rw [run, goes, hu]
  exact ⟨_, rfl, by rw [hf]; rfl, rfl⟩

/-- A SYNC record as it passes on from port `p` (R253). -/
def RingPort.relay (q : RingPort) (came : Receipt) (r : SyncRec) : SyncRec :=
  { r with corr := r.corr + came.resid + (if q.dlyOk then (q.ldly.toNat : Int) else 0), hops := r.hops + 1,
           genmin := if !q.dlyOk then 0 else if (q.genUse.setWidth 8 : Byte).toNat < r.genmin.toNat then q.genUse.setWidth 8 else r.genmin }

theorem relay_eq (q : RingPort) (came : Receipt) (r : SyncRec) : q.relay came r = { r with
    corr := r.corr + came.resid + (if q.dlyOk then (q.ldly.toNat : Int) else 0), hops := r.hops + 1,
    genmin := if q.dlyOk then (if q.genUse.toNat < r.genmin.toNat then q.genUse.setWidth 8 else r.genmin) else 0 } := by
  have wide : (q.genUse.setWidth 8 : Byte).toNat = q.genUse.toNat := by
    generalize q.genUse = g
    revert g
    decide
  unfold RingPort.relay
  rw [wide]
  cases q.dlyOk <;> rfl

/-- The frame in which a SYNC record passes on. -/
def State.syncFrame (s : State) (p : PortId) (src : BitVec 7) (came : Receipt) (r : SyncRec) : Frame :=
  frameSealed { ty := s.ring.knaduTy p, fcsOk := came.good, hcrc := 0, rsp := false, cmd := 0x10,
                hdr := { port := p, node := 0x7F, seq := 0, index := 0, sub := 0, flags := 0, len := 32, src := src, hops := r.hops },
                status := 0, credit := 0, payload := syncBytes ((s.ring.port[p]).relay came r), size := 66 }

/-- SYNC, where no follower takes the record. -/
theorem exec_sync {s : State} {p o : PortId} {r : SyncRec} {came : Receipt} (fwd : s.forwarding = true)
    (link : s.ring.port[p].link = true) (out : s.ring.outFor (partner p) = some o) (carries : s.ring.repliesOnly o = false)
    (hops : r.hops ≠ 0xFF) (untaken : s.mainRuns = false ∨ came.good = false) (src : BitVec 7) (within : Vector (BitVec 6) 4) :
    ∃ f : Frame, f.payload = syncBytes ((s.ring.port[p]).relay came r) ∧ f.fcsOk = came.good ∧
      exec (.sync p src r came within) s = .next (s.forwardOut o f) := by
  obtain ⟨f, hf⟩ : ∃ f, f = s.syncFrame p src came r := ⟨_, rfl⟩
  have goes := forward_knadu (s := s) (p := p) (o := o) (f := f) (by rw [hf]; rfl) (by rw [hf]; exact hops) out 0
  have large : 64 ≤ limitD s.ring.port[o].genUse := by
    unfold limitD
    split <;> decide
  have fits : ¬limitD s.ring.port[o].genUse + 4 < f.hdr.len := by
    rw [show f.hdr.len = 32 by rw [hf]; rfl]
    omega
  have short : ¬16384 < 0 + f.size := by
    rw [show f.size = 66 by rw [hf]; rfl]
    decide
  rw [if_neg (by rw [carries]; decide), if_neg fits, if_neg short] at goes
  refine ⟨{ f with ty := s.ring.knaduTy o, hdr := { f.hdr with hops := f.hdr.hops + 1 } }, by rw [hf]; rfl, by rw [hf]; rfl, ?_⟩
  refine (if_neg (by rw [fwd, link]; decide)).trans ((if_neg ?_).trans ?_)
  · rintro ⟨good, -, runs⟩
    rcases untaken with h | h
    · have same : (s.forward p .knadu f 0).mainRuns = s.mainRuns := by rw [goes]; rfl
      rw [hf] at same
      exact Bool.false_ne_true (h.symm.trans (same.symm.trans runs))
    · exact Bool.false_ne_true (h.symm.trans good)
  · rw [← goes, hf]
    rfl

/-- A SYNC record as it departs: the master's position, of which the dots and sixteenths within the quad are free. -/
def State.departing (s : State) (p : PortId) (r : SyncRec) : SyncRec :=
  let b := s.transit.tb[(⟨r.beam.toNat % 4, by omega⟩ : TbId)]
  { r with frame := b.frame, line := BitVec.ofNat 16 b.slot, pos16 := BitVec.ofNat 32 (b.grain * 16 + s.free.1.toNat % 64),
           genmin := (s.ring.port[p]).genUse.setWidth 8 }

/-- What leaves where `f` was queued. -/
def State.sent (s : State) (p : PortId) : OwnFrame → OwnFrame
  | .sync r => .sync (s.departing p r)
  | f => f

/-- What the departure of `f` does outside its port. -/
def State.parting (s : State) : OwnFrame → State
  | .sync _ => s.free.2
  | .nmsg _ => s.modRing fun r => { r with nsent := true }
  | _ => s

/-- The state once `f` has left port `p`. -/
def State.sendOwn (s : State) (p : PortId) (f : OwnFrame) : State :=
  (s.parting f).modRp p fun rp => { rp with txq := rp.txq.erase f, ownOut := some (s.sent p f) }

theorem modRp_modRp (s : State) (p : PortId) (f g : RingPort → RingPort) :
    (s.modRp p f).modRp p g = s.modRp p fun rp => g (f rp) := by
  simp only [State.modRp, Fin.getElem_fin, Vector.getElem_set_self, Vector.set_set]

/-- OWN_FRAME_SEND, where a frame waits and may leave: it leaves the queue, and is what the port sends. -/
theorem exec_ownFrameSend {s : State} {p : PortId} {f : OwnFrame} (fwd : s.forwarding = true) (link : s.ring.port[p].link = true)
    (next : s.ring.port[p].next = some f) (may : ¬(s.ring.repliesOnly p = true ∧ f.rank ≠ 0)) :
    exec (.ownFrameSend p) s = .next (s.sendOwn p f) := by
  refine (if_neg (by rw [fwd, link]; decide)).trans ?_
  rw [next]
  refine (if_neg (by rw [Bool.and_eq_true, bne_iff_ne]; exact may)).trans ?_
  have twice (u : State) (g : OwnFrame) : ((u.modRp p fun rp => { rp with txq := rp.txq.erase f }).modRp p fun rp =>
      { rp with ownOut := some g }) = u.modRp p fun rp => { rp with txq := rp.txq.erase f, ownOut := some g } := modRp_modRp ..
  cases f with
  | sync r =>
    exact congrArg Host.Outcome.next (twice s.free.2 (.sync (s.departing p r)))
  | dlyReq n => exact congrArg Host.Outcome.next (twice s _)
  | dlyRsp n d => exact congrArg Host.Outcome.next (twice s _)
  | resp r => exact congrArg Host.Outcome.next (twice s _)
  | nmsg d => exact congrArg Host.Outcome.next (twice (s.modRing fun r => { r with nsent := true }) _)

theorem rank_sent (s : State) (p : PortId) (f : OwnFrame) : (s.sent p f).rank = f.rank := by cases f <;> rfl

theorem sent_same (s : State) (p : PortId) {f : OwnFrame} (h : ∀ r, f ≠ .sync r) : s.sent p f = f := by
  cases f with
  | sync r => exact absurd rfl (h r)
  | _ => rfl

theorem parting_port (s : State) (f : OwnFrame) : (s.parting f).ring.port = s.ring.port := by cases f <;> rfl

theorem sendOwn_port (s : State) (p : PortId) (f : OwnFrame) : (s.sendOwn p f).ring.port[p] =
    { s.ring.port[p] with txq := (s.ring.port[p]).txq.erase f, ownOut := some (s.sent p f) } := by
  rw [State.sendOwn, modRp_port, parting_port]

theorem sendOwn_others (s : State) {p q : PortId} (f : OwnFrame) (h : q ≠ p) : (s.sendOwn p f).ring.port[q] = s.ring.port[q] := by
  rw [State.sendOwn, modRp_port_other _ _ h, parting_port]

theorem sendOwn_rest (s : State) (p : PortId) (f : OwnFrame) :
    RingOnly { s with freeCtr := (s.sendOwn p f).freeCtr } (s.sendOwn p f) := by cases f <;> rfl

/-- Settles O41: the frame's kind picks the row, the port it leaves on picks the branch (`forward_knadu`, `forward_other`). -/
theorem framesPassOn : Obligations.FramesPassOn := by
  intro s p o set
  refine ⟨fun fwd link out gen even f ahead kind => ?_, fun fwd link out odd => ?_, frameOfPdu_framePdu p,
    fun a b f fwd link txq ha hb => ?_, fun w v may free keep => ?_, fun busy none_ => ?_, fun w may => ?_⟩
  · have only : s.ring.repliesOnly o = true := (repliesOnly_iff ..).mpr ⟨gen, even⟩
    rcases kind with kind | ⟨kind, rsp, hops⟩
    · refine (exec_forward_other fwd link (kindOf_other kind) (by split <;> decide) ahead).trans ?_
      rw [forward_other f out, if_pos (.inr (.inl only))]
      rfl
    · have long : isDelay f = false := by rw [isDelay, rsp]; rfl
      refine (exec_forward_knadu fwd link (kindOf_knadu kind) (.inl rsp) ahead).trans ?_
      rw [forward_knadu long hops out, if_pos only]
      rfl
  · have only : ¬s.ring.repliesOnly o = true := fun h => by
      obtain ⟨gen, even⟩ := (repliesOnly_iff ..).mp h
      have := odd gen
      omega
    refine ⟨fun f ahead kind => ⟨fun plain => ?_, fun req code => ?_⟩, fun f ahead kind => ⟨fun same room => ?_, fun bad => ?_⟩,
      fun h next mode port node hops len lock small wanted => ?_, fun src r came within hops untaken => ?_⟩
    · have long : isDelay f = false := by
        rcases plain with rsp | code
        · rw [isDelay, rsp]; rfl
        · rw [isDelay, (commandCodes _ code).2.2.2, Bool.and_false]
      have goes := exec_forward_knadu fwd link (kindOf_knadu kind)
        (plain.imp_right fun code => ⟨(commandCodes _ code).1, (commandCodes _ code).2.1, (commandCodes _ code).2.2.1⟩) ahead
      refine ⟨fun hops => ?_, fun hops big => ?_, fun hops fits full => ?_, fun hops fits room => ?_⟩
      · rw [goes, forward_hops long hops]
        rfl
      · rw [goes, forward_knadu long hops out, if_neg only, if_pos big]
        rfl
      · rw [goes, forward_knadu long hops out, if_neg only, if_neg (Nat.not_lt.mpr fits), if_pos full]
        rfl
      · rw [goes, forward_knadu long hops out, if_neg only, if_neg (Nat.not_lt.mpr fits), if_neg (Nat.not_lt.mpr room)]
        rfl
    · obtain ⟨assigned, sync, assign, delay⟩ := delayCodes code
      refine (exec_forward_knadu fwd link (kindOf_knadu kind) (.inr ⟨assigned, sync, assign⟩) ahead).trans ?_
      rw [forward_delay (by rw [isDelay, req, delay]; rfl)]
    · refine (exec_forward_other fwd link (kindOf_other kind) (by split <;> decide) ahead).trans ?_
      rw [forward_other f out, if_neg (by
        rintro (h | h | h)
        · exact h same
        · exact only h
        · exact absurd room (Nat.not_le.mpr h))]
      rfl
    · refine (exec_forward_other fwd link (kindOf_other kind) (by split <;> decide) ahead).trans ?_
      rw [forward_other f out, if_pos (bad.imp_right .inr)]
      rfl
    · obtain ⟨f, payload, hops', run⟩ :=
        exec_assign fwd link out (Bool.eq_false_iff.mpr only) port node hops len lock small wanted
      refine ⟨_, run, bits_low7 next, ?_, rfl, rfl, fun q other => forwardOut_others _ f other⟩
      rw [forwardOut_out, Option.map_some, payload, hops']
    · obtain ⟨f, payload, fcs, run⟩ := exec_sync fwd link out (Bool.eq_false_iff.mpr only) hops untaken src within
      refine ⟨_, run, rfl, ?_, fun q other => forwardOut_others _ f other⟩
      rw [forwardOut_out, Option.map_some, payload, fcs, relay_eq]
  · have next := next_lowest txq ha hb
    split
    · next stays =>
      refine (if_neg (by rw [fwd, link]; decide)).trans ?_
      rw [next]
      refine if_pos ?_
      rw [(repliesOnly_iff ..).mpr ⟨stays.1, stays.2.1⟩, Bool.true_and, bne_iff_ne]
      exact stays.2.2
    · next leaves =>
      have run := exec_ownFrameSend fwd link next fun h =>
        leaves ⟨((repliesOnly_iff ..).mp h.1).1, ((repliesOnly_iff ..).mp h.1).2, h.2⟩
      refine ⟨_, run, ?_, ?_, fun h => ?_, sendOwn_rest s p f, fun q other => sendOwn_others s f other⟩
      · rw [sendOwn_port, txq, erase_lowest ha]
      · rw [sendOwn_port, Option.map_some, rank_sent]
      · rw [sendOwn_port, sent_same s p h]
  · obtain ⟨sends, loses⟩ := nmsgCtl_send free keep
    have run : exec (.nmsgSend w v) s = .next (s.nmsgCtl (v ||| 0x100)) :=
      congrArg Host.Outcome.next (writeBy_may regAt_nmsgCtl may _)
    refine ⟨fun low high l0 l1 => ⟨_, run.trans (congrArg Host.Outcome.next (sends low high l0 l1)), rfl, rfl, fun q => ?_⟩, fun wrong => ?_⟩
    · rw [messaged_port, show (BitVec.ofNat 6 (v.toNat % 64)).toNat = v.toNat % 64 by
        rw [BitVec.toNat_ofNat]; exact Nat.mod_mod ..]
    · rw [run, loses wrong]
      rfl
  · have clear (q : PortId) : (s.ring.port[q]).txq.any OwnFrame.isNmsg = false := by
      rw [List.any_eq_false]
      intro f hf isN
      cases f with
      | nmsg d => exact none_ q _ hf d rfl
      | _ => exact Bool.false_ne_true isN
    refine if_pos ?_
    dsimp only
    rw [busy, clear, clear, clear, clear]
    simp
  · refine congrArg Host.Outcome.next ((writeBy_may regAt_hmsgSt may _).trans ?_)
    change (s.modRing fun q => { q with hfull := q.hfull && !(0x40 : Word).getLsbD 6 }) = _
    rw [show (0x40 : Word).getLsbD 6 = true by decide]
    simp only [Bool.not_true, Bool.and_false]
    rfl

end Sys2Proof.Machine
end

