-- ==== Sys2Proof/Proofs/RingCommands.lean ====
section
/-! SUPPORT. A ring command that is the next of its sender and runs at once: how it is queued, run and answered (R362 to R373). -/

set_option Elab.async false

namespace Sys2Proof.Machine

open Sys2Proof

/-! ## What is queued, and what runs -/

/-- The agent, with `k` waiting and nothing else: the command is run, and its end is the whole of what happens. -/
theorem ringKick_runs {u v : State} {k : RingCmd} {r : Ran} (on : u.agentOn = true) (busy : u.ring.busy = none) (cmds : u.ring.cmds = [k])
    (dacc : u.dict.daccBusy = none) (wait : u.dict.daccWait = none) (run : u.runCmd k = (r, v)) (ends : r ≠ .wait ∧ ∀ b, r ≠ .busy b)
    (idle : AgentIdle (v.complete r)) : u.ringKick = v.complete r := by
  have step : u.agentStep = (v.complete r, true) := by
    simp only [State.agentStep, busy, dacc, wait, State.frontStep, cmds, run]
    cases r with
    | wait => exact absurd rfl ends.1
    | busy b => exact absurd rfl (ends.2 b)
    | _ => rfl
  unfold State.ringKick
  rw [if_pos on, State.agentRun, step]
  change (v.complete r).agentRun 31 = _
  rw [State.agentRun, agentStep_idle idle]
  rfl

/-- The state in which the command `k` has been taken. -/
def State.queued (s : State) (k : RingCmd) : State :=
  (s.countB 0x5B).modRing fun r => { r with cmds := [k], expSeq := s.ring.expSeq + 1 }

theorem queued_rest (s : State) (k : RingCmd) : s.queued k =
    { s with ring := { s.ring with cmds := [k], expSeq := s.ring.expSeq + 1 },
             counters := { s.counters with cnt := (s.countB 0x5B).counters.cnt } } := by
  unfold State.queued State.modRing State.countB
  rfl

theorem flagsOk_zero {h : RingHdr} (flags : h.flags = 0) : flagsOk h = true := by simp [flagsOk, flags]

theorem unicast {h : RingHdr} (node : h.node ≠ 0x7F) : isBroadcast h = false := beq_eq_false_iff_ne.mpr node

theorem quiet_unicast {h : RingHdr} (node : h.node ≠ 0x7F) (st : Byte) : quiet h st = false := by
  rw [quiet, unicast node, Bool.false_and, Bool.false_and]

/-- A command that fits its shape is taken as it is. -/
theorem Taken.takeCmd {s : State} {h : RingHdr} {code : Byte} {data : List Byte} (taken : Taken s h data.length)
    (shape : shapeOk code data (limitD s.ring.port[h.port].genUse) = true) :
    s.takeCmd code h data = (s.queued ⟨code, h, data, false⟩).ringKick := by
  obtain ⟨forMe, -, ⟨-, cmds, resync, -, -⟩, node, seq, flags, len, limit⟩ := taken
  have well : s.malformed code h data = false := by
    have short : ¬limitD s.ring.port[h.port].genUse + 4 < h.len := by omega
    unfold State.malformed
    dsimp only
    rw [flagsOk_zero flags, shape, decide_eq_false (not_not_intro len), decide_eq_false short]
    rfl
  have next : (h.seq - s.ring.expSeq).toNat = 0 := by rw [seq, BitVec.sub_self]; rfl
  have room : ¬8 ≤ s.ring.cmds.length := by rw [cmds]; decide
  unfold State.takeCmd
  rw [if_neg (by rw [forMe]; decide), if_neg (by rw [resync]; decide)]
  rw [unicast node, well]
  refine (if_pos next).trans ((if_neg room).trans ?_)
  have same : (s.countB 0x5B).modRing (fun r => { r with cmds := r.cmds ++ [⟨code, h, data, false⟩], expSeq := s.ring.expSeq + 1 }) =
      s.queued ⟨code, h, data, false⟩ := by
    unfold State.queued State.modRing
    dsimp only
    rw [show (s.countB 0x5B).ring.cmds = [] from cmds]
    rfl
  exact congrArg State.ringKick same

/-! ## The answer -/

/-- What a command's run leaves for its answer: the ring as it was queued, but for the node message's buffer, and the DACC idle. -/
def RanBeside (s v : State) (k : RingCmd) : Prop :=
  v.ring = { s.ring with cmds := [k], expSeq := s.ring.expSeq + 1, hmsg := v.ring.hmsg, hlen := v.ring.hlen, hfull := v.ring.hfull } ∧
  v.power.mainRst = s.power.mainRst ∧ v.dict.daccBusy = none ∧ v.dict.daccWait = none

/-- The response to the command `h`. -/
def State.response (s : State) (code st : Byte) (h : RingHdr) (payload : List Byte) : Resp :=
  { port := h.port, cmd := code, seq := h.seq, index := h.index, sub := h.sub, status := st, credit := 8,
    flags := s.respFlags, payload := payload, bcast := false }

/-- The state once the command has ended, before its response waits at a port. -/
def State.ended (v : State) (p : Resp) : State :=
  v.modRing fun g => { g with cmds := [], busy := none, begun := false, history := (g.history ++ [p]).drop (g.history.length - 7) }

theorem complete_eq {s v : State} {h : RingHdr} {code : Byte} {data : List Byte} {r : Ran}
    (node : h.node ≠ 0x7F) (beside : RanBeside s v ⟨code, h, data, false⟩) :
    v.complete r = (v.ended (s.response code r.coded.1 h r.coded.2)).sendResp (s.response code r.coded.1 h r.coded.2) := by
  obtain ⟨ring, main, -, -⟩ := beside
  have cmds : v.ring.cmds = [⟨code, h, data, false⟩] := by rw [ring]
  obtain ⟨u, hu⟩ : ∃ u, u = v.modRing fun g => { g with cmds := [], busy := none, begun := false } := ⟨_, rfl⟩
  have flags : u.respFlags = s.respFlags := by
    have restarted : u.ring.restarted = s.ring.restarted := by
      rw [hu]
      change v.ring.restarted = _
      rw [ring]
    have main' : u.power.mainRst = s.power.mainRst := by rw [hu]; exact main
    unfold State.respFlags
    rw [restarted, main']
  have made : u.mkResp code h r.coded.1 r.coded.2 = s.response code r.coded.1 h r.coded.2 := by
    unfold State.mkResp State.response
    rw [flags, unicast node, show u.ring.credit = 8 by rw [hu]; rfl]
    rfl
  unfold State.complete
  rw [cmds]
  dsimp only
  rw [← hu, made, quiet_unicast node]
  simp only [Bool.false_eq_true, if_false, State.ended, State.modRing, hu]
  rfl

/-- A response waits at the port it leaves on (R371). -/
theorem sendResp_port (u : State) (p : Resp) :
    (∀ o, u.ring.outFor (partner p.port) = some o → (u.sendResp p).ring.port[o] = { u.ring.port[o] with txq := u.ring.port[o].txq ++ [.resp p] }) ∧
    (∀ q, u.ring.outFor (partner p.port) ≠ some q → (u.sendResp p).ring.port[q] = u.ring.port[q]) := by
  unfold State.sendResp
  cases e : u.ring.outFor (partner p.port) with
  | none => exact ⟨fun o h => absurd h (by simp), fun q _ => rfl⟩
  | some o' =>
    refine ⟨fun o h => ?_, fun q h => modRp_port_other _ _ fun hq => h (by rw [hq])⟩
    cases h
    exact modRp_port ..

theorem sendResp_rest (u : State) (p : Resp) : u.sendResp p = { u with ring := { u.ring with port := (u.sendResp p).ring.port } } := by
  unfold State.sendResp
  split <;> rfl

theorem wrapped_congr {r r' : Ring} (h : ∀ q : PortId, r'.port[q].link = r.port[q].link ∧ r'.port[q].wrapEn = r.port[q].wrapEn ∧
    r'.port[q].gen = r.port[q].gen) (p : PortId) : r'.wrapped p = r.wrapped p := by
  simp only [Ring.wrapped, h]

theorem outFor_congr {r r' : Ring} (h : ∀ q : PortId, r'.port[q].link = r.port[q].link ∧ r'.port[q].wrapEn = r.port[q].wrapEn ∧
    r'.port[q].gen = r.port[q].gen) (p : PortId) : r'.outFor p = r.outFor p := by
  simp only [Ring.outFor, h, wrapped_congr h]

/-- A waiting response does not change where frames leave. -/
theorem outFor_sendResp (u : State) (p : Resp) (q : PortId) : (u.sendResp p).ring.outFor q = u.ring.outFor q := by
  refine outFor_congr (fun o => ?_) q
  by_cases h : u.ring.outFor (partner p.port) = some o
  · rw [(sendResp_port u p).1 o h]
    exact ⟨rfl, rfl, rfl⟩
  · rw [(sendResp_port u p).2 o h]
    exact ⟨rfl, rfl, rfl⟩

/-- A command that has run is answered. -/
theorem answered_complete {s v : State} {h : RingHdr} {code : Byte} {data : List Byte} {r : Ran} (idle : AgentIdle s)
    (node : h.node ≠ 0x7F) (beside : RanBeside s v ⟨code, h, data, false⟩) :
    Answered s (v.complete r) code h r.coded.1 r.coded.2 ∧ v.complete r = { v with ring := (v.complete r).ring } ∧
      (v.complete r).ring.hmsg = v.ring.hmsg ∧ (v.complete r).ring.hlen = v.ring.hlen ∧ (v.complete r).ring.hfull = v.ring.hfull := by
  rw [complete_eq node beside]
  obtain ⟨p, hp⟩ : ∃ p, p = s.response code r.coded.1 h r.coded.2 := ⟨_, rfl⟩
  rw [← hp]
  obtain ⟨ring, -, daccBusy, daccWait⟩ := beside
  obtain ⟨-, -, resync, -, -⟩ := idle
  have rest := sendResp_rest (v.ended p) p
  have port : p.port = h.port := by rw [hp]; rfl
  have out : ((v.ended p).sendResp p).ring.outFor (partner h.port) = s.ring.outFor (partner h.port) := by
    rw [outFor_sendResp]
    change v.ring.outFor _ = _
    rw [ring]
    rfl
  have out' : (v.ended p).ring.outFor (partner p.port) = s.ring.outFor (partner h.port) := by
    rw [port]
    change v.ring.outFor _ = _
    rw [ring]
    rfl
  have before (q : PortId) : (v.ended p).ring.port[q] = s.ring.port[q] := by
    change v.ring.port[q] = _
    rw [ring]
  obtain ⟨sent, kept⟩ := sendResp_port (v.ended p) p
  refine ⟨⟨?_, ?_, ?_, fun o ho => ?_, fun q hq => ?_, ?_⟩, ?_, by rw [rest]; exact ⟨rfl, rfl, rfl⟩⟩
  · rw [rest]
    exact ⟨rfl, rfl, by change v.ring.resync = none; rw [ring]; exact resync, daccBusy, daccWait⟩
  · rw [rest]
    change v.ring.expSeq = _
    rw [ring]
  · rw [rest]
    change (v.ring.history ++ [p]).drop (v.ring.history.length - 7) = _
    rw [ring, hp]
    rfl
  · rw [out] at ho
    rw [sent o (out'.trans ho), before, hp]
    rfl
  · rw [out] at hq
    rw [kept q fun e => hq (out'.symm.trans e), before]
  · have ended : (v.ended p).ring = { s.ring with
        expSeq := s.ring.expSeq + 1, hmsg := v.ring.hmsg, hlen := v.ring.hlen, hfull := v.ring.hfull, cmds := [], busy := none,
        begun := false, history := (v.ended p).ring.history } := by
      unfold State.ended State.modRing
      dsimp only
      rw [ring]
    rw [rest]
    dsimp only
    rw [ended]
  · rw [rest]
    rfl

/-- A command that is next, and runs at once to an end, is answered with it. -/
theorem Taken.answers {s v : State} {h : RingHdr} {code : Byte} {data : List Byte} {r : Ran} (taken : Taken s h data.length)
    (shape : shapeOk code data (limitD s.ring.port[h.port].genUse) = true)
    (run : (s.queued ⟨code, h, data, false⟩).runCmd ⟨code, h, data, false⟩ = (r, v)) (ends : r ≠ .wait ∧ ∀ b, r ≠ .busy b)
    (beside : RanBeside s v ⟨code, h, data, false⟩) :
    ∃ t, s.takeCmd code h data = t ∧ Answered s t code h r.coded.1 r.coded.2 ∧ t = { v with ring := t.ring } ∧
      t.ring.hmsg = v.ring.hmsg ∧ t.ring.hlen = v.ring.hlen ∧ t.ring.hfull = v.ring.hfull := by
  have start := taken.takeCmd shape
  obtain ⟨-, on, idle, node, -, -, -, -⟩ := taken
  obtain ⟨answered, rest⟩ := answered_complete (r := r) idle node beside
  obtain ⟨busy, -, -, daccBusy, daccWait⟩ := idle
  have on' : (s.queued ⟨code, h, data, false⟩).agentOn = true := by rw [queued_rest]; exact on
  have busy' : (s.queued ⟨code, h, data, false⟩).ring.busy = none := by rw [queued_rest]; exact busy
  have daccBusy' : (s.queued ⟨code, h, data, false⟩).dict.daccBusy = none := by rw [queued_rest]; exact daccBusy
  have daccWait' : (s.queued ⟨code, h, data, false⟩).dict.daccWait = none := by rw [queued_rest]; exact daccWait
  have idle' : AgentIdle (v.complete r) := answered.1
  refine ⟨v.complete r, ?_, answered, rest⟩
  rw [start]
  exact ringKick_runs on' busy' rfl daccBusy' daccWait' run ends idle'

/-- A run that changes nothing is beside the ring. -/
theorem ranBeside_queued {s : State} (idle : AgentIdle s) (k : RingCmd) : RanBeside s (s.queued k) k := by
  obtain ⟨-, -, -, daccBusy, daccWait⟩ := idle
  rw [queued_rest]
  exact ⟨rfl, rfl, daccBusy, daccWait⟩

theorem ringOnly_queued {s t : State} {k : RingCmd} (h : t = { s.queued k with ring := t.ring }) : RingOnly s t := by
  rw [queued_rest] at h
  unfold RingOnly
  rw [h]

/-! ## Values in payloads (R7) -/

/-- A value put into bytes is read back from them. -/
theorem ofBytes_toBytes {k n : Nat} (v : BitVec n) (h : 8 * k = n) : ofBytes n (toBytes k v) = v := by
  apply BitVec.eq_of_getLsbD_eq
  intro i hi
  have place : i / 8 < k := by omega
  have whole : 8 * (i / 8) + i % 8 = i := by omega
  rw [ofBytes_getLsbD _ (by simp [toBytes, h]), toBytes]
  simp [List.getD_eq_getElem?_getD, place, bits, whole, Nat.mod_lt i (by decide : 0 < 8)]

theorem length_toBytes {n : Nat} (k : Nat) (v : BitVec n) : (toBytes k v).length = k := by
  rw [toBytes, List.length_map, List.length_range]

/-- Bytes put into a value are its bytes. -/
theorem bytes_kept {k n : Nat} {l : List Byte} (size : l.length = k) (h : 8 * k = n) : toBytes k (ofBytes n l) = l := by
  apply List.ext_getElem (by rw [length_toBytes, size])
  intro j hj hl
  apply BitVec.eq_of_getLsbD_eq
  intro i hi
  have place : (8 * j + i) / 8 = j := by omega
  have within : (8 * j + i) % 8 = i := by omega
  simp only [toBytes, List.getElem_map, List.getElem_range, bits, BitVec.getLsbD_setWidth, BitVec.getLsbD_ushiftRight, hi, decide_true,
    Bool.true_and]
  rw [ofBytes_getLsbD l (by omega) (8 * j + i), place, within, List.getD_eq_getElem _ _ hl]

/-- The bytes of a word of the scratchpad. -/
theorem toBytes_word (m : Spad) (w : Nat) : toBytes 4 (m.word w) = (List.range 4).map fun i => m.byte (w + i) :=
  bytes_kept (by simp) (by decide)

/-! ## Where the dictionary's entries lie -/

theorem dictAt_injData : dictAt 0x4020 1 = .ok .injData := by decide +kernel

theorem dictAt_spadImg : dictAt 0x8000 1 = .ok .spadImg := by decide +kernel

/-- From 0x9000 on there is no entry (R389). -/
theorem dictAt_high {index : BitVec 16} (high : 9 ≤ index.toNat / 0x1000) (sub : Byte) : dictAt index sub = .error abNoIndex := by
  have low : 0x9000 ≤ index.toNat := by omega
  have mirror : mirrorAt index.toNat = none := by
    unfold mirrorAt
    repeat' rw [if_neg (by omega)]
  have bank : bankAt index.toNat = none := if_neg (by omega)
  unfold dictAt
  rw [mirror, bank]
  dsimp only
  split <;> first | omega | rfl

/-- Every generation carries at least 64 bytes (R363). -/
theorem limitD_large (g : BitVec 2) : 64 ≤ limitD g := by
  unfold limitD
  split <;> decide

/-! ## What the commands do -/

/-- INJ_DATA is read while the main domain runs (R401). -/
theorem dictRead_injData {u : State} (go : u.mainGate = .go) (q : Req) (host : q.readHost = true) {index : BitVec 16}
    {sub : Byte} (at_ : index = 0x4020 ∧ sub = 1) : u.dictRead q index sub false = (.ok (w32 u.dict.injData), u) := by
  obtain ⟨rfl, rfl⟩ := at_
  have check : u.check14 q 0x4020 1 false = .ok .injData := by
    simp only [State.check14, dictAt_injData, State.roleOk, host]
    rfl
  simp only [State.dictRead, check, Obj.need, State.gated, go]
  rfl

theorem dictWrite_injData {u : State} (go : u.mainGate = .go) (q : Req) (host : q.writeHost = true) {data : List Byte}
    (size : data.length = 4) {index : BitVec 16} {sub : Byte} (at_ : index = 0x4020 ∧ sub = 1) :
    u.dictWrite q index sub data false = (.ok [], u.modDict fun d => { d with injData := ofBytes 32 data }) := by
  obtain ⟨rfl, rfl⟩ := at_
  have check : u.check14 q 0x4020 1 true = .ok .injData := by
    simp only [State.check14, dictAt_injData, State.roleOk, host]
    rfl
  simp only [State.dictWrite, check, Obj.need, State.gated, go]
  rw [if_neg (by decide)]
  exact if_neg (by rw [if_neg Bool.false_ne_true, size]; decide)

theorem dictRead_high {u : State} (q : Req) {index : BitVec 16} (high : 9 ≤ index.toNat / 0x1000) (sub : Byte) :
    u.dictRead q index sub false = (.abort abNoIndex, u) := by
  have check : u.check14 q index sub false = .error abNoIndex := by rw [State.check14, dictAt_high high]
  rw [State.dictRead, check]

theorem mainGate_queued (s : State) (k : RingCmd) : (s.queued k).mainGate = s.mainGate := by
  rw [queued_rest]
  rfl

/-- A transfer of one word of the scratchpad outside the secure region, while the main domain runs (R405). -/
theorem dictDomain_word {u : State} (go : u.mainGate = .go) (q : Req) {off : Nat} (aligned : off % 4 = 0) (data : Option (List Byte))
    (role : if data.isSome then u.cfg q = true else q.readHost = true) {index : BitVec 16} {sub : Byte} (at_ : index = 0x8000 ∧ sub = 1) :
    u.dictDomain q index sub off 4 data = u.spadImg off 4 data := by
  obtain ⟨rfl, rfl⟩ := at_
  have check : u.check14 q 0x8000 1 data.isSome = .ok .spadImg := by
    cases data with
    | none =>
      have host : q.readHost = true := role
      simp only [State.check14, dictAt_spadImg, State.roleOk, Option.isSome_none, host]
      rfl
    | some d =>
      have cfg : u.cfg q = true := role
      simp only [State.check14, dictAt_spadImg, State.roleOk, Option.isSome_some, cfg]
      rfl
  have whole : ¬(off % 4 ≠ 0 ∨ 4 % 4 ≠ 0) := by omega
  unfold State.dictDomain
  rw [check]
  refine (if_neg (by decide)).trans ((if_neg whole).trans ?_)
  rw [State.gated, go]

/-- The word can be had (R281, R285, R405). -/
theorem spadImg_free {u : State} {off : Nat} (low : 0x02000000 ≤ off) (high : off + 4 ≤ 0x02780000) (ready : u.banksReady = true)
    (lent : u.borrowed off = none) (data : Option (List Byte)) :
    u.spadImg off 4 data =
      (match data with | none => u.readWords [off] [] | some d => u.writeWords ((wordAddrs off 4).zip (wordsOf d))) := by
  have span : spanOk off 4 = true := by
    simp only [spanOk, Bool.or_eq_true, Bool.and_eq_true, decide_eq_true_eq]
    exact .inr ⟨low, high⟩
  have open_ : isSecure off = false := by
    simp only [isSecure, Bool.and_eq_false_iff, decide_eq_false_iff_not]
    exact .inl (by omega)
  have free : u.imgWaits (wordAddrs off 4) = false := by
    have word : u.wordFree off = true := by
      simp only [State.wordFree, State.wordShut, ready, open_, lent, Bool.and_false, Bool.not_true, Bool.or_false, Bool.not_false,
        Bool.and_true]
    have addrs : wordAddrs off 4 = [off] := rfl
    rw [State.imgWaits, addrs, List.takeWhile_cons]
    split
    · simp [word]
    · rfl
  unfold State.spadImg
  rw [if_neg (by rw [span]; decide), if_neg (by rw [free]; decide)]
  cases data <;> rfl

theorem granted_rest (s : State) (m : Fin 20) (w : Nat) : s.granted m w = { s with
    freeCtr := (s.granted m w).freeCtr, counters := { s.counters with cnt := (s.granted m w).counters.cnt },
    spad := { s.spad with conf := (s.granted m w).spad.conf, rr := (s.granted m w).spad.rr } } := by
  simp only [State.granted, State.countB]

theorem granted_march (s : State) (m : Fin 20) (w : Nat) : (s.granted m w).march = s.march := by rw [granted_rest]

theorem granted_byte (s : State) (m : Fin 20) (w a : Nat) : (s.granted m w).spad.byte a = s.spad.byte a := by
  rw [granted_rest]; rfl

theorem granted_check (s : State) (m : Fin 20) (w a : Nat) : (s.granted m w).spad.check a = s.spad.check a := by
  rw [granted_rest]; rfl

theorem granted_word (s : State) (m : Fin 20) (w a : Nat) : (s.granted m w).spad.word a = s.spad.word a := by
  rw [granted_rest]; rfl

/-- One word is read, where its bank has it good. -/
theorem readWords_good {u : State} {off : Nat} (whole : u.destroyed off = false) (lent : u.borrowed off = none)
    (good : u.spad.check off = 0) :
    u.readWords [off] [] = (.ok (toBytes 4 (u.spad.word off)), u.granted 17 off) := by
  have lent' : (u.granted 17 off).borrowed off = none := (borrowed_congr (granted_march ..) off).trans lent
  have check : (u.granted 17 off).wordCheck off = 0 := by
    rw [State.wordCheck, lent']
    exact (granted_check ..).trans good
  have read : (u.granted 17 off).spadRead off = (some (u.spad.word off), u.granted 17 off) := by
    rw [State.spadRead, check]
    dsimp only
    rw [State.spadData, lent']
    dsimp only
    rw [granted_word]
    rfl
  rw [State.readWords, if_neg (by rw [whole]; decide), read]
  rfl

/-- One word is written. -/
theorem writeWords_one {u : State} {off : Nat} (v : Word) (whole : u.destroyed off = false) :
    u.writeWords [(off, v)] = (.ok [], (u.granted 17 off).spadPut off v 0xF none) := by
  rw [State.writeWords, if_neg (by rw [whole]; decide), State.writeWords]

/-- A word that the ring writes changes the four bytes of the memory, and of the rest only what any store reaches. -/
theorem ringPut_reach {u : State} {off : Nat} (v : Word) (lent : u.borrowed off = none) :
    StoreReach u ((u.granted 17 off).spadPut off v 0xF none) 0 ∧ Stored u ((u.granted 17 off).spadPut off v 0xF none) off 4 .plain v := by
  have free : ((u.granted 17 off).noteWrite off v 0xF none).borrowed off = none := by
    rw [borrowed_congr (noteWrite_march ..), borrowed_congr (granted_march ..), lent]
  have grant : StoreReach u (u.granted 17 off) 0 := by
    rw [granted_rest]
    exact storeReach_rest 0 rfl rfl
  have enabled : ∀ i, i < 4 → (0xF : BitVec 4).getLsbD i = true := by decide
  have byte (a : Nat) : ((u.granted 17 off).spadPut off v 0xF none).spad.byte a =
      if off ≤ a ∧ a < off + 4 then bits v (8 * (a - off)) 8 else u.spad.byte a := by
    rw [spadPut_word, spadSet_free _ _ _ free]
    dsimp only
    rw [store_byte, noteWrite_spad_byte, granted_byte]
    by_cases h : off ≤ a ∧ a < off + 4
    · rw [if_pos h, if_pos ⟨h.1, h.2, enabled _ (by omega)⟩]
    · rw [if_neg h, if_neg fun q => h ⟨q.1, q.2.1⟩]
  refine ⟨?_, fun i hi => ?_, fun a ha => ?_⟩
  · rw [spadPut_word]
    exact (grant.trans (storeReach_noteWrite ..)).trans (storeReach_spadSet _ _ _ _ free)
  · rw [byte, if_pos (by omega), Nat.add_sub_cancel_left]
    rfl
  · rw [byte, if_neg (by omega)]

/-- A node message stands in its buffer. -/
def State.tookMsg (u : State) (data : List Byte) : State := u.modRing fun r => { r with
  hmsg := Vector.ofFn fun k => ofBytes 32 ((data.drop (4 * k.val)).take 4), hlen := BitVec.ofNat 6 data.length, hfull := true }

/-- MSG, into an empty buffer, while the main domain is up (R381). -/
theorem runMsg_empty {u : State} {data : List Byte} (free : u.ring.hfull = false) (main : u.power.mainRst = false)
    (run : u.power.state = .run) : u.runMsg data = (.ok [], (u.tookMsg data).raise 232 (ofBytes 32 (data.take 4))) := by
  obtain ⟨w, hw⟩ : ∃ w, w = (u.tookMsg data).raise 232 (ofBytes 32 (data.take 4)) := ⟨_, rfl⟩
  have awake : w.power.state = .run := by
    have run' : (u.tookMsg data).power.state = .run := run
    rw [hw, raise_power (s := u.tookMsg data) 232 _ main (by rw [run']; decide), run']
  have still : w.vesperWake 1 = w := by
    unfold State.vesperWake
    rw [awake, if_neg (fun h => by cases h.1)]
  have start : u.runMsg data = (.ok [], if w.power.mwake then w.vesperWake 1 else w) := by
    rw [hw]
    exact if_neg (by rw [free]; decide)
  rw [start, still, ite_self, hw]

/-- An answer to one sender, without a record in the history. -/
theorem answer_sent {s : State} {h : RingHdr} (node : h.node ≠ 0x7F) (code st : Byte) (payload : List Byte) {u : State}
    (count : u = if st = 2 then s.countB 0x5C else if st = 3 then s.countB 0x5D else s) :
    s.answer code h st payload = u.sendResp (u.mkResp code h st payload) := by
  rw [State.answer, quiet_unicast node, count]
  rfl

theorem march_queued (s : State) (k : RingCmd) : (s.queued k).march = s.march := by rw [queued_rest]

theorem spad_queued (s : State) (k : RingCmd) : (s.queued k).spad = s.spad := by rw [queued_rest]

theorem dict_queued (s : State) (k : RingCmd) : (s.queued k).dict = s.dict := by rw [queued_rest]

/-- Where a response leaves on `o`, it is what waits there last. -/
theorem sendResp_at {u : State} {p : Resp} {o : PortId} (out : u.ring.outFor (partner p.port) = some o) :
    u.sendResp p = u.modRp o fun q => { q with txq := q.txq ++ [.resp p] } := by
  rw [State.sendResp, out]

theorem mkResp_queue (s : State) {h : RingHdr} (node : h.node ≠ 0x7F) (code st : Byte) (payload : List Byte) :
    s.mkResp code h st payload = { port := h.port, cmd := code, seq := h.seq, index := h.index, sub := h.sub, status := st,
                                   credit := BitVec.ofNat 8 (8 - s.ring.cmds.length), flags := s.respFlags, payload := payload,
                                   bcast := false } := by
  rw [State.mkResp, unicast node]
  rfl

/-- The answer to a command ahead of its turn is counted, and waits on the port it leaves on. -/
theorem answer_ahead {s : State} {h : RingHdr} {o : PortId} (node : h.node ≠ 0x7F) (out : s.ring.outFor (partner h.port) = some o)
    (code : Byte) (payload : List Byte) : s.answer code h 3 payload =
      (s.modRp o fun q => { q with txq := q.txq ++ [.resp (s.mkResp code h 3 payload)] }).countB 0x5D := by
  have start : s.answer code h 3 payload = (s.countB 0x5D).sendResp ((s.countB 0x5D).mkResp code h 3 payload) := by
    rw [State.answer, quiet_unicast node, if_neg Bool.false_ne_true]
    dsimp only
    rw [if_neg (by decide), if_pos rfl]
  have same : (s.countB 0x5D).mkResp code h 3 payload = s.mkResp code h 3 payload := by
    rw [mkResp_queue _ node, mkResp_queue _ node]
    simp only [State.respFlags, State.countB]
    rfl
  have out' : (s.countB 0x5D).ring.outFor (partner (s.mkResp code h 3 payload).port) = some o := by
    simp only [State.countB]
    exact out
  rw [start, same, sendResp_at out']
  simp only [State.modRp, State.countB]
  rfl

/-- A command ahead of its turn is answered with the number that is expected (R366). -/
theorem takeCmd_ahead {s : State} {h : RingHdr} (forMe : s.forMe h = true) (node : h.node ≠ 0x7F) (resync : s.ring.resync = none)
    (low : 1 ≤ (h.seq - s.ring.expSeq).toNat) (high : (h.seq - s.ring.expSeq).toNat ≤ 65279) (code : Byte) (data : List Byte) :
    s.takeCmd code h data = s.answer code h 3 (toBytes 2 s.ring.expSeq) := by
  unfold State.takeCmd
  rw [if_neg (by rw [forMe]; decide), if_neg (by rw [resync]; decide), unicast node]
  exact (if_neg (Nat.ne_of_gt low)).trans (if_pos high)

theorem word_first (a : Word) (l : List Byte) : (ofBytes 32 ((toBytes 4 a ++ l).take 4) : Word) = a := by
  rw [List.take_left' (length_toBytes ..), ofBytes_toBytes a rfl]

theorem word_second (a b : Word) : (ofBytes 32 ((toBytes 4 a ++ toBytes 4 b).drop 4) : Word) = b := by
  rw [List.drop_left' (length_toBytes ..), ofBytes_toBytes b rfl]

theorem runCmd_dread (u : State) (h : RingHdr) (off : Word) :
    u.runCmd ⟨0x03, h, toBytes 4 off ++ toBytes 4 (4 : Word), false⟩ =
      u.dictDomain (u.ringReq h) h.index h.sub off.toNat 4 none := by
  change u.dictDomain (u.ringReq h) h.index h.sub (ofBytes 32 ((toBytes 4 off ++ toBytes 4 (4 : Word)).take 4) : Word).toNat
    (ofBytes 32 ((toBytes 4 off ++ toBytes 4 (4 : Word)).drop 4) : Word).toNat none = _
  rw [word_first, word_second]
  rfl

theorem runCmd_dwrite (u : State) (h : RingHdr) (off v : Word) :
    u.runCmd ⟨0x04, h, toBytes 4 off ++ toBytes 4 v, false⟩ =
      u.dictDomain (u.ringReq h) h.index h.sub off.toNat 4 (some (toBytes 4 v)) := by
  change u.dictDomain (u.ringReq h) h.index h.sub (ofBytes 32 ((toBytes 4 off ++ toBytes 4 v).take 4) : Word).toNat
    ((toBytes 4 off ++ toBytes 4 v).length - 4) (some ((toBytes 4 off ++ toBytes 4 v).drop 4)) = _
  rw [word_first, List.drop_left' (length_toBytes ..), List.length_append, length_toBytes, length_toBytes]

/-- DREAD of one word (R405). -/
theorem runCmd_readWord {u : State} {h : RingHdr} {off : Word} (go : u.mainGate = .go) (at_ : h.index = 0x8000 ∧ h.sub = 1)
    (aligned : off.toNat % 4 = 0) (low : 0x02000000 ≤ off.toNat) (high : off.toNat + 4 ≤ 0x02780000) (ready : u.banksReady = true)
    (whole : u.destroyed off.toNat = false) (lent : u.borrowed off.toNat = none) (good : u.spad.check off.toNat = 0) :
    u.runCmd ⟨0x03, h, toBytes 4 off ++ toBytes 4 (4 : Word), false⟩ =
      (.ok (toBytes 4 (u.spad.word off.toNat)), u.granted 17 off.toNat) := by
  rw [runCmd_dread, dictDomain_word go (u.ringReq h) aligned none rfl at_, spadImg_free low high ready lent]
  exact readWords_good whole lent good

/-- DWRITE of one word (R405). -/
theorem runCmd_writeWord {u : State} {h : RingHdr} {off : Word} (go : u.mainGate = .go) (at_ : h.index = 0x8000 ∧ h.sub = 1)
    (aligned : off.toNat % 4 = 0) (low : 0x02000000 ≤ off.toNat) (high : off.toNat + 4 ≤ 0x02780000) (ready : u.banksReady = true)
    (whole : u.destroyed off.toNat = false) (lent : u.borrowed off.toNat = none) (v : Word) (sealed : u.sealed = false) :
    u.runCmd ⟨0x04, h, toBytes 4 off ++ toBytes 4 v, false⟩ =
      (.ok [], (u.granted 17 off.toNat).spadPut off.toNat v 0xF none) := by
  have cfg : u.cfg (u.ringReq h) = true := by rw [State.cfg, sealed]; rfl
  have words : wordsOf (toBytes 4 v) = [v] := by
    rw [wordsOf, length_toBytes]
    change [(ofBytes 32 (((toBytes 4 v).drop 0).take 4) : Word)] = _
    rw [List.drop_zero, List.take_of_length_le (Nat.le_of_eq (length_toBytes ..)), ofBytes_toBytes v rfl]
  have addrs : wordAddrs off.toNat 4 = [off.toNat] := rfl
  rw [runCmd_dwrite, dictDomain_word go (u.ringReq h) aligned (some _) cfg at_, spadImg_free low high ready lent]
  change u.writeWords ((wordAddrs off.toNat 4).zip (wordsOf (toBytes 4 v))) = _
  rw [words, addrs]
  exact writeWords_one v whole

/-- The state in which a RESYNC has arrived. -/
def State.resyncing (s : State) (k : RingCmd) : State := (s.countB 0x5B).modRing fun r => { r with resync := some k }

theorem resyncing_rest (s : State) (k : RingCmd) : s.resyncing k =
    { s with ring := { s.ring with resync := some k }, counters := { s.counters with cnt := (s.countB 0x5B).counters.cnt } } := by
  unfold State.resyncing State.modRing State.countB
  rfl

/-- A RESYNC that has arrived at an idle agent is the next thing that happens (R372). -/
theorem resync_runs {s : State} {k : RingCmd} (idle : AgentIdle s) (on : s.agentOn = true)
    (over_ : AgentIdle ((s.resyncing k).runResync k)) : (s.resyncing k).ringKick = (s.resyncing k).runResync k := by
  obtain ⟨busy, cmds, -, daccBusy, daccWait⟩ := idle
  obtain ⟨u, hu⟩ : ∃ u, u = s.resyncing k := ⟨_, rfl⟩
  have step : u.agentStep = (u.runResync k, true) := by
    have ring : u.ring.busy = none ∧ u.ring.cmds = [] ∧ u.ring.resync = some k ∧ u.dict.daccBusy = none ∧ u.dict.daccWait = none := by
      rw [hu, resyncing_rest]
      exact ⟨busy, cmds, rfl, daccBusy, daccWait⟩
    obtain ⟨busy', cmds', resync', daccBusy', daccWait'⟩ := ring
    simp only [State.agentStep, busy', daccBusy', daccWait', State.frontStep, cmds', resync']
  rw [← hu] at over_ ⊢
  have on' : u.agentOn = true := by rw [hu, resyncing_rest]; exact on
  unfold State.ringKick
  rw [if_pos on', State.agentRun, step]
  change (u.runResync k).agentRun 31 = _
  rw [State.agentRun, agentStep_idle over_]
  rfl

/-- What a RESYNC does: the numbers are its own, the history is empty, and its answer waits where it leaves. -/
theorem runResync_ring {u : State} {h : RingHdr} (node : h.node ≠ 0x7F) (a b : BitVec 16) :
    let t := u.runResync ⟨0x06, h, toBytes 2 a ++ toBytes 2 b, false⟩
    t = { u with ring := t.ring } ∧ t.ring = { u.ring with
      expSeq := a, bexpSeq := b, history := [], restarted := false, resync := none, port := t.ring.port } := by
  have first : (ofBytes 16 ((toBytes 2 a ++ toBytes 2 b).take 2) : BitVec 16) = a := by
    rw [List.take_left' (length_toBytes ..), ofBytes_toBytes a rfl]
  have second : (ofBytes 16 ((toBytes 2 a ++ toBytes 2 b).drop 2) : BitVec 16) = b := by
    rw [List.drop_left' (length_toBytes ..), ofBytes_toBytes b rfl]
  intro t
  obtain ⟨v, hv⟩ : ∃ v, v = u.modRing fun r =>
    { r with expSeq := a, bexpSeq := b, history := [], restarted := false, resync := none } := ⟨_, rfl⟩
  have eq : t = v.sendResp (v.mkResp 0x06 h 0 []) := by
    rw [hv, ← first, ← second]
    exact answer_sent node 0x06 0 [] rfl
  rw [eq, sendResp_rest, hv]
  exact ⟨rfl, rfl⟩

/-- Settles O42: each command is taken as the next one (`Taken.answers`), and its run is that of its entry or its words. -/
theorem ringCommandsAnswer : Obligations.RingCommandsAnswer := by
  intro s h data sent
  refine ⟨fun forMe node flags o out => ⟨fun len => ?_, fun resync low high => ?_⟩, fun forMe on idle node flags len a b => ?_,
    fun taken index sub go => ?_, fun taken index sub go size => ?_, fun taken high => ?_,
    fun off go ready aligned low high index sub whole lent => ⟨fun taken good => ?_, fun taken v sealed => ?_⟩,
    fun taken low high free main run => ?_⟩
  · have plain : plainOk h [] 0 = true := by rw [plainOk, flagsOk_zero flags, len]; rfl
    refine (if_neg (by rw [forMe]; decide)).trans ((if_neg (by rw [plain]; decide)).trans (congrArg Host.Outcome.next ?_))
    rw [answer_sent node 0x05 0 _ (u := s) rfl, sendResp_at out, State.mkResp, unicast node]
    rfl
  · refine ⟨_, congrArg Host.Outcome.next (takeCmd_ahead forMe node resync low high 0x01 data), ?_⟩
    rw [answer_ahead node out, mkResp_queue s node]
    exact (sourcesOnly_countB _ 0x5D 1 [176]).upto
  · obtain ⟨busy, cmds, resync, daccBusy, daccWait⟩ := idle
    obtain ⟨k, hk⟩ : ∃ k : RingCmd, k = ⟨0x06, h, toBytes 2 a ++ toBytes 2 b, false⟩ := ⟨_, rfl⟩
    obtain ⟨rest, ring⟩ := runResync_ring (u := s.resyncing k) node a b
    rw [← hk] at rest ring
    have over_ : AgentIdle ((s.resyncing k).runResync k) := by
      rw [rest, ring, resyncing_rest]
      exact ⟨busy, cmds, rfl, daccBusy, daccWait⟩
    have plain : plainOk h (toBytes 2 a ++ toBytes 2 b) 4 = true := by
      rw [plainOk, flagsOk_zero flags, len, List.length_append, length_toBytes, length_toBytes]
      rfl
    have run : exec (.resync h (toBytes 2 a ++ toBytes 2 b)) s = .next (s.resyncing k).ringKick := by
      rw [hk]
      refine (if_neg (by rw [forMe]; decide)).trans ((if_neg (by rw [unicast node, plain]; decide)).trans ?_)
      exact if_neg (by rw [resync]; decide)
    rw [resync_runs ⟨busy, cmds, resync, daccBusy, daccWait⟩ on over_] at run
    refine ⟨_, run, ?_, ?_⟩
    · rw [resyncing_rest] at rest
      rw [RingOnly, resyncing_rest, rest]
    · rw [ring, resyncing_rest]
      dsimp only
      rw [resync]
  · have go' := (mainGate_queued s ⟨0x01, h, [], false⟩).trans go
    have run : (s.queued ⟨0x01, h, [], false⟩).runCmd ⟨0x01, h, [], false⟩ = (.ok (w32 s.dict.injData), s.queued ⟨0x01, h, [], false⟩) := by
      have read := dictRead_injData go' ((s.queued ⟨0x01, h, [], false⟩).ringReq h) rfl ⟨index, sub⟩
      rw [dict_queued] at read
      exact read
    obtain ⟨t, end_, answered, rest, -⟩ := Taken.answers (data := []) (code := 0x01) taken rfl run ⟨by simp, by simp⟩
      (ranBeside_queued taken.2.2.1 _)
    exact ⟨t, congrArg Host.Outcome.next end_, answered, ringOnly_queued rest⟩
  · have go' := (mainGate_queued s ⟨0x02, h, data, false⟩).trans go
    have run : (s.queued ⟨0x02, h, data, false⟩).runCmd ⟨0x02, h, data, false⟩ =
        (.ok [], (s.queued ⟨0x02, h, data, false⟩).modDict fun d => { d with injData := ofBytes 32 data }) := by
      exact dictWrite_injData go' ((s.queued ⟨0x02, h, data, false⟩).ringReq h) rfl size ⟨index, sub⟩
    rw [← size] at taken
    obtain ⟨-, -, idle, -, -, -, -, limit⟩ := id taken
    obtain ⟨ring, main, daccBusy, daccWait⟩ := ranBeside_queued idle ⟨0x02, h, data, false⟩
    have shape : shapeOk 0x02 data (limitD s.ring.port[h.port].genUse) = true := decide_eq_true limit
    obtain ⟨t, end_, answered, rest, -⟩ := Taken.answers taken shape run ⟨by simp, by simp⟩ ⟨ring, main, daccBusy, daccWait⟩
    refine ⟨t, congrArg Host.Outcome.next end_, answered, ?_⟩
    rw [queued_rest] at rest
    rw [RingOnly, rest]
    rfl
  · have run : (s.queued ⟨0x01, h, [], false⟩).runCmd ⟨0x01, h, [], false⟩ = (.abort abNoIndex, s.queued ⟨0x01, h, [], false⟩) :=
      dictRead_high ((s.queued ⟨0x01, h, [], false⟩).ringReq h) high h.sub
    obtain ⟨t, end_, answered, rest, -⟩ := Taken.answers (data := []) (code := 0x01) taken rfl run ⟨by simp, by simp⟩
      (ranBeside_queued taken.2.2.1 _)
    exact ⟨t, congrArg Host.Outcome.next end_, answered, ringOnly_queued rest⟩
  · have size : (toBytes 4 off ++ toBytes 4 (4 : Word)).length = 8 := by rw [List.length_append, length_toBytes, length_toBytes]
    obtain ⟨k, hk⟩ : ∃ k : RingCmd, k = ⟨0x03, h, toBytes 4 off ++ toBytes 4 (4 : Word), false⟩ := ⟨_, rfl⟩
    have run : (s.queued k).runCmd k = (.ok (toBytes 4 (s.spad.word off.toNat)), (s.queued k).granted 17 off.toNat) := by
      have lent' : (s.queued k).borrowed off.toNat = none := (borrowed_congr (march_queued s k) _).trans lent
      have good' : (s.queued k).spad.check off.toNat = 0 := by rw [spad_queued]; exact good
      have whole' : (s.queued k).destroyed off.toNat = false := by rw [State.destroyed, march_queued]; exact whole
      have ready' : (s.queued k).banksReady = true := by rw [State.banksReady, spad_queued]; exact ready
      have read := runCmd_readWord ((mainGate_queued s k).trans go) ⟨index, sub⟩ aligned low high ready' whole' lent' good'
      rw [spad_queued, ← hk] at read
      exact read
    rw [← size] at taken
    obtain ⟨-, -, idle, -, -, -, -, -⟩ := id taken
    have beside : RanBeside s ((s.queued k).granted 17 off.toNat) k := by
      obtain ⟨ring, main, daccBusy, daccWait⟩ := ranBeside_queued idle k
      rw [granted_rest]
      exact ⟨ring, main, daccBusy, daccWait⟩
    have shape : shapeOk 0x03 (toBytes 4 off ++ toBytes 4 (4 : Word)) (limitD s.ring.port[h.port].genUse) = true := by
      have value : (ofBytes 32 ((toBytes 4 off ++ toBytes 4 (4 : Word)).drop 4) : Word).toNat = 4 := by rw [word_second]; rfl
      change ((toBytes 4 off ++ toBytes 4 (4 : Word)).length == 8 &&
        decide ((ofBytes 32 ((toBytes 4 off ++ toBytes 4 (4 : Word)).drop 4) : Word).toNat ≤ _)) = true
      rw [value, size, decide_eq_true (Nat.le_trans (by decide : 4 ≤ 64) (limitD_large _))]
      rfl
    rw [hk] at run beside
    obtain ⟨t, end_, answered, rest, -⟩ := Taken.answers taken shape run ⟨by simp, by simp⟩ beside
    refine ⟨t, congrArg Host.Outcome.next end_, ?_, ?_⟩
    · rw [← toBytes_word]
      exact answered
    · rw [← hk, granted_rest, queued_rest] at rest
      rw [RingOnly, rest]
  · have size : (toBytes 4 off ++ toBytes 4 v).length = 8 := by rw [List.length_append, length_toBytes, length_toBytes]
    obtain ⟨k, hk⟩ : ∃ k : RingCmd, k = ⟨0x04, h, toBytes 4 off ++ toBytes 4 v, false⟩ := ⟨_, rfl⟩
    obtain ⟨w, hw⟩ : ∃ w, w = ((s.queued k).granted 17 off.toNat).spadPut off.toNat v 0xF none := ⟨_, rfl⟩
    have lent' : (s.queued k).borrowed off.toNat = none := (borrowed_congr (march_queued s k) _).trans lent
    have run : (s.queued k).runCmd k = (.ok [], w) := by
      have whole' : (s.queued k).destroyed off.toNat = false := by rw [State.destroyed, march_queued]; exact whole
      have ready' : (s.queued k).banksReady = true := by rw [State.banksReady, spad_queued]; exact ready
      have sealed' : (s.queued k).sealed = false := by rw [queued_rest]; exact sealed
      have write := runCmd_writeWord ((mainGate_queued s k).trans go) ⟨index, sub⟩ aligned low high ready' whole' lent' v sealed'
      rw [← hk, ← hw] at write
      exact write
    obtain ⟨⟨-, -, -, -, reach, -⟩, stored⟩ := ringPut_reach (u := s.queued k) v lent'
    rw [← hw] at reach stored
    rw [queued_rest] at reach
    rw [← size] at taken
    obtain ⟨-, -, idle, -, -, -, -, limit⟩ := id taken
    have beside : RanBeside s w k := by
      obtain ⟨-, -, -, daccBusy, daccWait⟩ := idle
      rw [reach]
      exact ⟨rfl, rfl, daccBusy, daccWait⟩
    have shape : shapeOk 0x04 (toBytes 4 off ++ toBytes 4 v) (limitD s.ring.port[h.port].genUse) = true := by
      change (decide (5 ≤ (toBytes 4 off ++ toBytes 4 v).length) && decide ((toBytes 4 off ++ toBytes 4 v).length ≤ _ + 4)) = true
      rw [decide_eq_true (Nat.le_add_right_of_le limit), size]
      rfl
    rw [hk] at run beside
    obtain ⟨t, end_, answered, rest, -⟩ := Taken.answers taken shape run ⟨by simp, by simp⟩ beside
    refine ⟨t, congrArg Host.Outcome.next end_, answered, ?_, ?_, ?_⟩
    · rw [rest]
      rw [Stored, spad_queued] at stored
      exact stored
    · rw [rest, reach]
    · rw [rest, reach]
  · obtain ⟨k, hk⟩ : ∃ k : RingCmd, k = ⟨0x08, h, data, false⟩ := ⟨_, rfl⟩
    have run_ : (s.queued k).runCmd k = (.ok [], ((s.queued k).tookMsg data).raise 232 (ofBytes 32 (data.take 4))) := by
      have free' : (s.queued k).ring.hfull = false := by rw [queued_rest]; exact free
      have main' : (s.queued k).power.mainRst = false := by rw [queued_rest]; exact main
      have run' : (s.queued k).power.state = .run := by rw [queued_rest]; exact run
      have msg := runMsg_empty (data := data) free' main' run'
      rw [hk] at msg ⊢
      exact msg
    obtain ⟨v, hv⟩ : ∃ v, v = ((s.queued k).tookMsg data).raise 232 (ofBytes 32 (data.take 4)) := ⟨_, rfl⟩
    rw [← hv] at run_
    have main' : ((s.queued k).tookMsg data).power.mainRst = false := by rw [queued_rest]; exact main
    have only := sourcesOnly_raise (s := (s.queued k).tookMsg data) 232 (ofBytes 32 (data.take 4)) main'
    have raised := raise_raised (s := (s.queued k).tookMsg data) 232 (ofBytes 32 (data.take 4)) main' (by decide)
    rw [← hv] at only raised
    obtain ⟨-, -, idle, -, -, -, -, limit⟩ := id taken
    have ring : v.ring = { s.ring with
        cmds := [k], expSeq := s.ring.expSeq + 1, hmsg := Vector.ofFn fun k => ofBytes 32 ((data.drop (4 * k.val)).take 4),
        hlen := BitVec.ofNat 6 data.length, hfull := true } := by
      rw [only.ring, queued_rest]
      rfl
    have beside : RanBeside s v k := by
      obtain ⟨-, -, -, daccBusy, daccWait⟩ := idle
      have dict : v.dict = s.dict := by
        obtain ⟨-, -, rest⟩ := only
        rw [rest, queued_rest]
        rfl
      refine ⟨?_, only.mainRst.trans (by rw [queued_rest]; rfl), by rw [dict]; exact daccBusy, by rw [dict]; exact daccWait⟩
      rw [ring]
    have shape : shapeOk 0x08 data (limitD s.ring.port[h.port].genUse) = true := by
      change (decide (1 ≤ data.length) && decide (data.length ≤ 32)) = true
      rw [decide_eq_true low, decide_eq_true high]
      rfl
    rw [hk] at run_ beside
    obtain ⟨t, end_, answered, rest, hmsg, hlen, hfull⟩ := Taken.answers taken shape run_ ⟨by simp, by simp⟩ beside
    refine ⟨t, congrArg Host.Outcome.next end_, answered, hfull.trans (by rw [ring]), hlen.trans (by rw [ring]), fun i => ?_, ?_, ?_⟩
    · rw [hmsg, ring]
      simp
    · have beyond : SourcesOnly { s with ring := t.ring } { (s.queued k).tookMsg data with ring := t.ring } [232] := by
        obtain ⟨cn, same⟩ : ∃ cn, { (s.queued k).tookMsg data with ring := t.ring } =
            { s with ring := t.ring, counters := { s.counters with cnt := cn } } := by
          rw [queued_rest]
          exact ⟨_, rfl⟩
        rw [same]
        exact ⟨fun _ _ => rfl, fun _ => rfl, rfl⟩
      rw [rest]
      exact beyond.trans (only.withRing t.ring)
    · rw [rest]
      have src : ((s.queued k).tookMsg data).src 232 = s.src 232 := by
        rw [queued_rest]
        rfl
      exact fun en => raised.1 ((congrArg Source.en src).trans en)

end Sys2Proof.Machine
end

