-- ==== Sys2Proof/Proofs/PowerStates.lean ====
section
/-! SUPPORT. Power requests, clocks, DOZE, NAP and the per-core reset (R281, R422 to R434). -/

set_option Elab.async false

namespace Sys2Proof.Machine

open Sys2Proof

/-! ## Events and what they stir -/

/-- Only event sources differ, what cores note of them, the counters, and that NAP is to end. -/
def Stirred (s t : State) : Prop :=
  (∀ d : CoreId, t.core[d] = { s.core[d] with evOvf := t.core[d].evOvf, dozeWake := t.core[d].dozeWake, evSpur := t.core[d].evSpur,
                                              spurCnt := t.core[d].spurCnt }) ∧
  t = { s with core := t.core, ev := { s.ev with src := t.ev.src }, counters := { s.counters with cnt := t.counters.cnt },
               power := { s.power with napWake := t.power.napWake } }

theorem Stirred.refl (s : State) : Stirred s s := ⟨fun _ => rfl, rfl⟩

theorem Stirred.trans {s t u : State} (h : Stirred s t) (g : Stirred t u) : Stirred s u := by
  obtain ⟨core1, rest1⟩ := h
  obtain ⟨core2, rest2⟩ := g
  refine ⟨fun d => ?_, ?_⟩
  · rw [core2 d, core1 d]
  · rw [rest2, rest1]

theorem UptoEvents.stirred {s t : State} (h : UptoEvents s t) : Stirred s t := ⟨h.2.1, h.2.2⟩

theorem SourcesOnly.stirred {s t : State} {l : List Nat} (h : SourcesOnly s t l) : Stirred s t := by
  obtain ⟨-, core, rest⟩ := h
  refine ⟨fun d => ?_, rest⟩
  rw [core d]

theorem stirred_raiseNow (s : State) (n : Nat) (p : Word) : Stirred s (s.raiseNow n p) := (sourcesOnly_raiseAt ..).stirred

theorem stirred_levelCheck (s : State) (n : Nat) : Stirred s (s.levelCheck n) := by
  unfold State.levelCheck
  dsimp only
  split
  · exact stirred_raiseNow ..
  · exact .refl s

theorem stirred_passRecords (s : State) (c : CoreId) (p : BitVec 13 → Bool) : Stirred s (s.passRecords c p) := by
  unfold State.passRecords
  generalize s.ev.src = l
  induction l generalizing s with
  | nil => exact .refl s
  | cons q l ih =>
    refine Stirred.trans ?_ (ih _)
    dsimp only
    split
    · split
      · exact (sourcesOnly_setSrc ..).stirred.trans (stirred_levelCheck ..)
      · exact .refl s
    · exact .refl s

theorem Stirred.ctx {s t : State} (h : Stirred s t) (c : CoreId) (x : CtxId) : t.ctx c x = s.ctx c x := by
  obtain ⟨core, -⟩ := h
  unfold State.ctx
  rw [core c]

/-! ## Register words -/

theorem regAt_power : regAt 0x30080000 = some .pwrCtl ∧ regAt 0x30080010 = some .clkPlla ∧
    (∀ hi : Bool, regAt (if hi then 0x30080018 else 0x30080014) = some (.clkCdiv hi)) ∧ regAt 0x3008001C = some .clkSdiv ∧
    regAt 0x3008000C = some .pwrCrst ∧ regAt 0x30080020 = some .vtLo := by decide +kernel

/-- A request written with the other fields as they read. -/
theorem ctlWrite_request (p : Power) {r : Word} (h : r = 1 ∨ r = 2 ∨ r = 3) :
    p.ctlWrite (p.ctl ||| r) = p.request (bits r 0 2) := by
  have all : ∀ r : Word, (r = 1 ∨ r = 2 ∨ r = 3) → ∀ a b : Bool,
      bits ((flag a 2 ||| flag b 3) ||| r) 0 2 = (bits r 0 2 : BitVec 2) ∧
      ((flag a 2 ||| flag b 3) ||| r).getLsbD 2 = a ∧ ((flag a 2 ||| flag b 3) ||| r).getLsbD 3 = b := by
    rintro r (rfl | rfl | rfl) <;> decide
  obtain ⟨low, awake, mwake⟩ := all r h p.awake p.mwake
  unfold Power.ctlWrite Power.ctl
  rw [low, awake, mwake]
  rfl

/-- CLK_PLLA takes a multiplier from 0x10 to 0x20 (R422). -/
theorem pllaWrite_eq (s : State) (v : Word) : s.pllaWrite v = s.modPower fun p =>
    if 0x10 ≤ v.toNat % 64 ∧ v.toNat % 64 ≤ 0x20 then { p with amul := BitVec.ofNat 6 v.toNat, relock := true } else { p with clkErr := true } := by
  have low : bits v 0 6 = BitVec.ofNat 6 v.toNat := (bits_eq_ofNat v 0 6).trans (by rw [Nat.pow_zero, Nat.div_one])
  have value : (BitVec.ofNat 6 v.toNat).toNat = v.toNat % 64 := BitVec.toNat_ofNat ..
  unfold State.pllaWrite
  dsimp only
  rw [low, value]
  split <;> rfl

theorem cdiv_set (hi : Bool) (f : Fin 8 → BitVec 4) (l : List (Fin 8)) (hl : l.Nodup) (d : Vector (BitVec 4) 16) (c : Fin 16) :
    (l.foldl (fun (d : Vector (BitVec 4) 16) k => d.set (cdivIdx hi k) (f k)) d)[c] =
      if c.val / 8 = (if hi then 1 else 0) ∧ (⟨c.val % 8, by omega⟩ : Fin 8) ∈ l then f ⟨c.val % 8, by omega⟩ else d[c] := by
  induction l generalizing d with
  | nil => simp
  | cons k l ih =>
    rw [List.nodup_cons] at hl
    rw [List.foldl_cons, ih hl.2]
    have idx : (cdivIdx hi k).val = c.val ↔ c.val / 8 = (if hi then 1 else 0) ∧ (⟨c.val % 8, by omega⟩ : Fin 8) = k := by
      rw [Fin.ext_iff]
      unfold cdivIdx
      cases hi <;> simp <;> omega
    by_cases here : (cdivIdx hi k).val = c.val
    · obtain ⟨half, same⟩ := idx.mp here
      rw [if_neg fun h => hl.1 (same ▸ h.2), if_pos ⟨half, same ▸ List.mem_cons_self⟩, same]
      simp [here]
    · have other : ¬(c.val / 8 = (if hi then 1 else 0) ∧ (⟨c.val % 8, by omega⟩ : Fin 8) = k) := fun h => here (idx.mpr h)
      have kept : (d.set (cdivIdx hi k) (f k))[c] = d[c] := by simp [here]
      rw [kept]
      refine if_congr ⟨fun h => ⟨h.1, List.mem_cons_of_mem k h.2⟩, fun h => ⟨h.1, ?_⟩⟩ rfl rfl
      exact (List.mem_cons.mp h.2).resolve_left fun e => other ⟨h.1, e⟩

/-- CLK_CDIV gives each of its eight cores the four bits of its place (R422). -/
theorem cdivWrite_cdiv (p : Power) (hi : Bool) (v : Word) (c : CoreId) : (p.cdivWrite hi v).cdiv[c] =
    if c.val / 8 = (if hi then 1 else 0) then BitVec.ofNat 4 (v.toNat / 16 ^ (c.val % 8)) else p.cdiv[c] := by
  have nibble (k : Nat) : bits v (4 * k) 4 = BitVec.ofNat 4 (v.toNat / 16 ^ k) := by
    rw [bits_eq_ofNat, pow_mul]
    rfl
  refine (cdiv_set hi (fun k => bits v (4 * k.val) 4) _ (List.nodup_finRange 8) p.cdiv c).trans ?_
  dsimp only
  rw [nibble]
  exact if_congr (and_iff_left (List.mem_finRange _)) rfl rfl

/-- A count of 48 bits from its two words (R423). -/
theorem joined_toNat (lo : Word) (hi : BitVec 16) :
    (lo.setWidth 48 ||| (hi.setWidth 48 <<< 32)).toNat = lo.toNat + 2 ^ 32 * hi.toNat := by
  have low := lo.isLt
  have high := hi.isLt
  have wide : hi.toNat <<< 32 % 2 ^ 48 = hi.toNat <<< 32 := Nat.mod_eq_of_lt (by rw [Nat.shiftLeft_eq]; omega)
  rw [BitVec.toNat_or, BitVec.toNat_shiftLeft, BitVec.toNat_setWidth, BitVec.toNat_setWidth, Nat.mod_eq_of_lt (by omega : lo.toNat < 2 ^ 48),
    Nat.mod_eq_of_lt (by omega : hi.toNat < 2 ^ 48), wide, Nat.or_comm, ← Nat.shiftLeft_add_eq_or_of_lt low, Nat.shiftLeft_eq]
  omega

/-- VT_LO takes the low 32 bits, with the high ones that wait (R423). -/
theorem vtLoWrite_vt (p : Power) (v : Word) : (p.vtLoWrite v).vt.toNat = v.toNat + 2 ^ 32 * p.vtHold.toNat := joined_toNat ..

/-- The alarm's comparison (R423). -/
theorem alarm_iff (p : Power) : (p.vt == p.almLo.setWidth 48 ||| (p.almHi.setWidth 48 <<< 32)) = true ↔
    p.vt.toNat = p.almLo.toNat + 2 ^ 32 * p.almHi.toNat := by
  rw [beq_iff_eq, ← BitVec.toNat_inj, joined_toNat]

/-! ## The per-core reset (R434) -/

/-- What core `c` had under way at the ports is dropped: of the core only code that was read ahead differs. -/
def Dropped (s t : State) (c : CoreId) : Prop :=
  (∀ d, d ≠ c → t.core[d] = s.core[d]) ∧ (∀ y, t.ctx c y = { s.ctx c y with ahead := (t.ctx c y).ahead }) ∧
  t.core[c] = { s.core[c] with ctx := t.core[c].ctx } ∧
  t = { s with core := t.core, dbg := t.dbg, fabric := t.fabric, flash := t.flash, counters := { s.counters with cnt := t.counters.cnt } }

theorem Dropped.refl (s : State) (c : CoreId) : Dropped s s c := ⟨fun _ _ => rfl, fun _ => rfl, rfl, rfl⟩

theorem Dropped.trans {s t u : State} {c : CoreId} (h : Dropped s t c) (g : Dropped t u c) : Dropped s u c := by
  obtain ⟨cores1, ctx1, core1, rest1⟩ := h
  obtain ⟨cores2, ctx2, core2, rest2⟩ := g
  refine ⟨fun d hd => (cores2 d hd).trans (cores1 d hd), fun y => ?_, ?_, ?_⟩
  · rw [ctx2 y, ctx1 y]
  · rw [core2, core1]
  · rw [rest2, rest1]

theorem dropped_rest {s t : State} (c : CoreId) (hc : t.core = s.core)
    (h : t = { s with dbg := t.dbg, fabric := t.fabric, flash := t.flash, counters := { s.counters with cnt := t.counters.cnt } }) :
    Dropped s t c := by
  have ctx (y : CtxId) : t.ctx c y = s.ctx c y := by rw [State.ctx, hc]; rfl
  refine ⟨fun d _ => by rw [hc], fun y => by rw [ctx], by rw [hc], ?_⟩
  rw [hc]
  exact h

theorem dropped_dropReads (s : State) (c : CoreId) (x : CtxId) : Dropped s (s.dropReads c x true true) c := by
  have core : Dropped s (s.modCtx c x fun t => { t with ahead := none }) c := by
    refine ⟨fun d hd => State.modCore_ne _ _ _ _ hd, fun y => ?_, ?_, rfl⟩
    · by_cases hy : y = x
      · subst hy; rw [State.ctx_modCtx]
      · rw [State.ctx_modCtx_ne _ _ _ _ _ hy]
    · simp only [State.modCtx, Fin.getElem_fin, State.modCore_self, Core.modCtx]
  exact core.trans (dropped_rest c rfl rfl)

theorem dropped_dropDebug (s : State) (c : CoreId) : Dropped s (s.dropDebug c) c := by
  unfold State.dropDebug
  split
  · exact dropped_rest c rfl rfl
  · exact .refl s c

theorem dropped_countN (s : State) (c : CoreId) (x : Option CtxId) (e n : Nat) : Dropped s (s.countN c x e n) c := by
  refine dropped_rest c (State.countN_core ..) ?_
  unfold State.countN
  rfl

/-- A reset of core `c`, up to what its event records stir: the core is as `Core.softReset` makes one of what is left of it. -/
theorem softReset_eq (s : State) (c : CoreId) : ∃ u, Dropped s u c ∧
    Stirred (({ u with power := { u.power with disc := satAdd u.power.disc s.core[c].staging.length } }.modCore c Core.softReset).modWdt c
      Wdt.reload) (s.softReset c) := by
  refine ⟨_, ?_, stirred_passRecords ..⟩
  have fills : Dropped s ((s.dropDebug c).dropFills c) c := (dropped_dropDebug s c).trans (dropped_rest c rfl rfl)
  refine fills.trans ?_
  generalize (s.dropDebug c).dropFills c = t
  generalize List.finRange 9 = l
  induction l generalizing t with
  | nil => exact .refl t c
  | cons x l ih => exact ((dropped_dropReads t c x).trans (dropped_countN ..)).trans (ih _)

/-- What the reset of core `c` leaves: the stores of microcode and the cells; other cores, memory and the engine are as they were. -/
theorem softReset_leaves (s : State) (c : CoreId) :
    let t := s.softReset c
    t.power.crst = s.power.crst ∧ t.core[c].invBusy = true ∧ t.core[c].chkDone = s.core[c].chkDone ∧
      t.core[c].ram = s.core[c].ram ∧ t.core[c].patch = s.core[c].patch ∧ t.core[c].staging = [] ∧ t.core[c].halted = false ∧
      (∀ x, let u := t.ctx c x
        u.st = .idle ∧ u.pc = 0x10000000 ∧ u.priv = 0 ∧ u.longs = [] ∧ u.dstk = (s.ctx c x).dstk ∧ u.rstk = (s.ctx c x).rstk) ∧
      (∀ d y, d ≠ c → t.ctx d y = s.ctx d y) ∧ t.spad = s.spad ∧ t.transit = s.transit := by
  intro t
  obtain ⟨u, ⟨cores, ctxs, core, rest⟩, stirred⟩ := softReset_eq s c
  obtain ⟨v, hv⟩ : ∃ v, v = (({ u with power := { u.power with disc := satAdd u.power.disc s.core[c].staging.length } }.modCore c
    Core.softReset).modWdt c Wdt.reload) := ⟨_, rfl⟩
  rw [← hv] at stirred
  have own : v.core[c] = (u.core[c]).softReset := by
    rw [hv]
    simp only [State.modWdt, Fin.getElem_fin, State.modCore_self]
  have others (d : CoreId) (hd : d ≠ c) : v.core[d] = s.core[d] := by
    rw [hv, ← cores d hd]
    simp only [State.modWdt, Fin.getElem_fin, State.modCore_ne _ _ _ _ hd]
  have kept := stirred.ctx
  obtain ⟨fields, after'⟩ := stirred
  have same : t.core[c] = _ := fields c
  rw [own, core] at same
  have ctx (x : CtxId) : t.ctx c x = (u.ctx c x).afterReset := by
    rw [kept, State.ctx, own]
    simp [Core.softReset, Core.invalAll, State.ctx]
  refine ⟨?_, by rw [same]; rfl, by rw [same]; rfl, by rw [same]; rfl, by rw [same]; rfl, by rw [same]; rfl, by rw [same]; rfl, fun x => ?_,
    fun d y hd => ?_, ?_, ?_⟩
  · rw [show t.power.crst = v.power.crst by rw [show t = _ from after'], hv, rest]
    rfl
  · dsimp only
    rw [ctx, ctxs]
    exact ⟨rfl, rfl, rfl, rfl, rfl, rfl⟩
  · rw [kept, State.ctx, others d hd]
    rfl
  · rw [show t.spad = v.spad by rw [show t = _ from after'], hv, rest]
    rfl
  · rw [show t.transit = v.transit by rw [show t = _ from after'], hv, rest]
    rfl

/-- Only the bit that is written asks for its core's reset. -/
theorem crstWrite_one (s : State) (c : CoreId) : s.crstWrite (1#32 <<< c.val) = s.askReset c := by
  have bit (d : CoreId) : (1#32 <<< c.val).getLsbD d.val = decide (d = c) := by
    revert c d
    decide
  have none_ (l : List CoreId) (h : c ∉ l) (u : State) :
      l.foldl (fun s d => if (1#32 <<< c.val).getLsbD d.val then s.askReset d else s) u = u := by
    induction l generalizing u with
    | nil => rfl
    | cons d l ih =>
      rw [List.mem_cons, not_or] at h
      rw [List.foldl_cons, bit, if_neg (by simpa using Ne.symm h.1)]
      exact ih h.2 u
  obtain ⟨a, b, split_⟩ := List.append_of_mem (List.mem_finRange c)
  have nodup := List.nodup_finRange 16
  rw [split_, List.nodup_append, List.nodup_cons] at nodup
  have before : c ∉ a := fun h => nodup.2.2 c h c List.mem_cons_self rfl
  unfold State.crstWrite
  rw [split_, List.foldl_append, none_ a before, List.foldl_cons, bit, if_pos (by simp), none_ b nodup.2.1.1]

/-! ## NAP (R281, R428) -/

/-- A pause changes the timebases and what their ports hold out. -/
def PausesOnly (s t : State) : Prop :=
  t = { s with transit := t.transit, ports := { s.ports with port := t.ports.port } }

theorem pausesOnly_beginPause (s : State) (b : TbId) : PausesOnly s (s.beginPause b) := by
  unfold State.beginPause
  dsimp only
  split <;> rfl

theorem pausesOnly_pauseAll (s : State) : PausesOnly s s.pauseAll := by
  unfold State.pauseAll
  generalize List.finRange 8 = l
  induction l generalizing s with
  | nil => rfl
  | cons b l ih =>
    have first := pausesOnly_beginPause s b
    have rest := ih (s.beginPause b)
    rw [List.foldl_cons]
    unfold PausesOnly at first rest ⊢
    rw [rest, first]

/-- Where no timebase is paused, nothing resumes (R229). -/
theorem resumeAll_none {s : State} (h : ∀ b : TbId, (s.transit.tb[b]).pause = none) : s.resumeAll = s.ephLevel := by
  have step (b : TbId) : (if s.pauseCause b then s else s.endPause b) = s := by
    split
    · rfl
    · unfold State.endPause
      dsimp only
      rw [h b]
  have fold (l : List TbId) : l.foldl (fun s b => if s.pauseCause b then s else s.endPause b) s = s := by
    induction l with
    | nil => rfl
    | cons b l ih => rw [List.foldl_cons, step, ih]
  rw [State.resumeAll, fold]

/-- How a follower enters NAP (R428). -/
def Ms.napping (m : Ms) (n : Fin 4) : Ms :=
  if (m.state == .locked || m.state == .acquire) && !m.ownBeam n then
    { m with state := .holdover, pend := 0, frames := 0, restartAt := none }
  else m

/-- The state that NAP leaves. -/
def State.napped (s : State) : State :=
  let s := s.modPower fun p => { p with pend := 0, state := .nap, napWake := false, lockA := false, lockB := false,
                                        vddmLow := true, vddmOk := false }
  let s := s.pauseAll.allCores fun _ k => k.afterNap
  let s := { s with ports := { s.ports with ms := Vector.ofFn fun n => (s.ports.ms[n]).napping n,
                                            port := s.ports.port.map fun (p : Port) => { p with out := [], trim := 0 } } }
  { s with spad := { s.spad with asleep := true } }

theorem exec_napEntry {s : State} (pend : s.power.pend = 1) (runs : s.mainRuns = true) (run : s.power.state = .run)
    (relock : s.power.relock = false) (init : s.spad.initDone = true)
    (dozed : ∀ c : CoreId, s.core[c].dozed = true ∧ s.core[c].dozeWake = false) (quiet : s.quietMasters = true) :
    exec .napEntry s = .next s.napped := by
  have all : (List.finRange 16).all (fun c => s.core[c].dozed && !s.core[c].dozeWake) = true := by
    rw [List.all_eq_true]
    intro c _
    rw [(dozed c).1, (dozed c).2]
    rfl
  refine if_pos ?_
  rw [pend, runs, run, relock, init, all, quiet]
  rfl

theorem napped_parts (s : State) :
    s.napped.power = { s.power with pend := 0, state := .nap, napWake := false, lockA := false, lockB := false, vddmLow := true,
                                    vddmOk := false } ∧
      s.napped.spad = { s.spad with asleep := true } ∧ s.napped.night = s.night ∧ s.napped.ring = s.ring ∧ s.napped.ev = s.ev ∧
      (∀ c : CoreId, s.napped.core[c] = (s.core[c]).afterNap) ∧
      (∀ n : Fin 4, s.napped.ports.ms[n] = (s.ports.ms[n]).napping n) ∧
      ∀ p : Fin 8, (s.napped.ports.port[p]).out = [] ∧ (s.napped.ports.port[p]).trim = 0 := by
  have pauses := pausesOnly_pauseAll (s.modPower fun p => { p with pend := 0, state := .nap, napWake := false, lockA := false, lockB := false,
                                                                   vddmLow := true, vddmOk := false })
  unfold State.napped
  dsimp only
  generalize State.pauseAll _ = u at pauses ⊢
  refine ⟨?_, ?_, ?_, ?_, ?_, fun c => ?_, fun n => ?_, fun p => ?_⟩
  · rw [pauses]; rfl
  · rw [pauses]; rfl
  · rw [pauses]; rfl
  · rw [pauses]; rfl
  · rw [pauses]; rfl
  · rw [pauses]; simp [State.allCores, State.modPower]
  · rw [pauses]; simp [State.allCores, State.modPower]
  · simp [State.allCores]

/-- What a read of VT_LO latches (R423, R466). -/
theorem vtLoRead_latch (p : Power) (w : Agent) : (p.vtLoRead (w == .debug)).2 =
    if w = .debug then { p with vtLatchDbg := BitVec.ofNat 16 (p.vt.toNat / 2 ^ 32) }
    else { p with vtLatch := BitVec.ofNat 16 (p.vt.toNat / 2 ^ 32) } := by
  have high : bits p.vt 32 16 = BitVec.ofNat 16 (p.vt.toNat / 2 ^ 32) := bits_eq_ofNat ..
  unfold Power.vtLoRead
  dsimp only
  rw [high]
  by_cases h : w = .debug
  · rw [if_pos h, if_pos (beq_iff_eq.mpr h)]
  · rw [if_neg h, if_neg (by rw [beq_iff_eq]; exact h)]

theorem uptoEvents_countN (s : State) (c : CoreId) (x : Option CtxId) (e n : Nat) : UptoEvents s (s.countN c x e n) := by
  refine ⟨fun m _ => ?_, fun d => by rw [State.countN_core], ?_⟩
  · simp only [State.countN, State.src]
  · rw [State.countN]

/-- Settles O46: the register rows by their fields, the reset by `softReset_eq`, NAP by `napped_parts` and `resumeAll_none`. -/
theorem powerStatesChange : Obligations.PowerStatesChange := by
  intro s w v pw
  obtain ⟨pwrCtl, plla, cdiv, sdiv, crst, vtLo⟩ := regAt_power
  refine ⟨fun may => ⟨?_, ?_, ?_⟩, fun may => ?_, rfl, fun hi may => ?_, fun may => ?_, fun may => ?_, fun may => ?_,
    fun en at_ run main => ?_, fun en at_ only main awake want => ?_, fun c => ⟨fun may => ?_, fun runs run dozed wake => ?_, fun may sb => ?_, fun may sb => ?_⟩,
    fun pend runs run relock init dozed quiet => ?_, fun nap wake main idle held none_ => ?_, fun asleep main run idle held => ?_⟩
  · refine congrArg Host.Outcome.next ((writeBy_may pwrCtl may _).trans ?_)
    exact congrArg (fun p => { s with power := p }) (ctlWrite_request s.power (.inl rfl))
  · refine congrArg Host.Outcome.next ((writeBy_may pwrCtl may _).trans ?_)
    exact congrArg (fun p => { s with power := p }) (ctlWrite_request s.power (.inr (.inl rfl)))
  · refine congrArg Host.Outcome.next ((writeBy_may pwrCtl may _).trans ?_)
    exact congrArg (fun p => { s with power := p }) (ctlWrite_request s.power (.inr (.inr rfl)))
  · refine congrArg Host.Outcome.next ((writeBy_may plla may v).trans ?_)
    exact pllaWrite_eq s v
  · refine ⟨_, congrArg Host.Outcome.next (writeBy_may (cdiv hi) may v), rfl, fun c => cdivWrite_cdiv s.power hi v c⟩
  · refine congrArg Host.Outcome.next ((writeBy_may sdiv may v).trans ?_)
    have low : bits v 0 5 = BitVec.ofNat 5 v.toNat := (bits_eq_ofNat v 0 5).trans (by rw [Nat.pow_zero, Nat.div_one])
    change (s.modPower fun p => { p with sdiv := bits v 0 5 }) = _
    rw [low]
    rfl
  · exact ⟨_, congrArg Host.Outcome.next (writeBy_may vtLo may v), rfl, vtLoWrite_vt s.power v⟩
  · refine congrArg Host.Outcome.next ((congrArg Prod.snd (readBy_may vtLo may)).trans ?_)
    exact congrArg (fun p => { s with power := p }) (vtLoRead_latch s.power w)
  · have same := (alarm_iff s.power).mpr at_
    obtain ⟨t, ht⟩ : ∃ t, t = s.raise 356 (bits s.power.vt 0 32) := ⟨_, rfl⟩
    have still : t.vesperWake 2 = t := by
      have awake : t.power.state = .run := by rw [ht, raise_power 356 _ main (by rw [run]; decide), run]
      unfold State.vesperWake
      rw [awake, if_neg (fun h => by cases h.1)]
    have low : bits s.power.vt 0 32 = s.power.almLo := by
      rw [bits_eq_ofNat, at_, Nat.pow_zero, Nat.div_one, Nat.add_comm, ← BitVec.toNat_inj, BitVec.toNat_ofNat, Nat.mul_add_mod]
      exact Nat.mod_eq_of_lt s.power.almLo.isLt
    refine ⟨t, ?_, ?_⟩
    · refine (if_pos (by rw [en, same]; rfl)).trans (congrArg Host.Outcome.next ?_)
      rw [← ht, still, ite_self]
    · rw [ht, low]
      exact raise_raised 356 s.power.almLo main (by decide)
  · have same := (alarm_iff s.power).mpr at_
    have lost : s.raise 356 (bits s.power.vt 0 32) = s := by
      unfold State.raise
      rw [if_pos main, if_neg (by decide)]
    refine (if_pos (by rw [en, same]; rfl)).trans (congrArg Host.Outcome.next ?_)
    rw [lost, if_pos awake]
    exact if_pos ⟨only, by rw [want]; rfl⟩
  · exact if_pos may
  · refine ⟨_, if_pos (by rw [runs, run, dozed, wake]; rfl), ?_⟩
    exact uptoEvents_countN ..
  · refine congrArg Host.Outcome.next ((writeBy_may crst may _).trans ((crstWrite_one s c).trans ?_))
    exact if_neg (by rw [List.isEmpty_iff]; exact sb)
  · have run : exec (.coreSoftReset w c) s =
        .next (({ s with power := { s.power with crst := s.power.crst ||| (1#16 <<< c.val) } } : State).softReset c) := by
      refine congrArg Host.Outcome.next ((writeBy_may crst may _).trans ((crstWrite_one s c).trans ?_))
      exact if_pos (by rw [List.isEmpty_iff]; exact sb)
    exact ⟨_, run, softReset_leaves _ c⟩
  · obtain ⟨power, spad, night, ring, ev, core, ms, port⟩ := napped_parts s
    refine ⟨_, exec_napEntry pend runs run relock init dozed quiet, power, spad, fun c => ?_, fun n follows => ?_, fun p => ⟨(port p).1, (port p).2, ?_⟩,
      night, ring, ev⟩
    · rw [core]
      refine ⟨rfl, rfl, rfl, rfl, (dozed c).1, fun x => ?_⟩
      rw [State.ctx, core]
      simp [Core.afterNap, State.ctx]
    · rw [ms]
      have near : (s.ports.ms[n].state == .locked || s.ports.ms[n].state == .acquire) = true := by
        rw [Bool.or_eq_true, beq_iff_eq, beq_iff_eq]
        exact follows
      unfold Ms.napping
      rw [near]
      cases (s.ports.ms[n]).ownBeam n <;> rfl
    · rw [State.portDrives, power]
      simp
  · obtain ⟨u, hu⟩ : ∃ u, u = pw fun p => { p with state := .run, napWake := false, lockA := true, lockB := true, vddmLow := false } := ⟨_, rfl⟩
    have paused : u.resumeAll = u.ephLevel := resumeAll_none (by rw [hu]; exact none_)
    have level := uptoEvents_ephLevel u
    have still : u.ephLevel.kick = u.ephLevel := by
      obtain ⟨-, -, rest⟩ := level
      refine kick_idle ?_ ?_
      · rw [rest, hu]; exact idle
      · rw [rest, hu]; exact held
    refine ⟨u.ephLevel, (if_pos (by rw [nap, wake, main]; rfl)).trans (congrArg Host.Outcome.next ?_), by rw [← hu]; exact level⟩
    rw [← still, ← paused, hu]
    rfl
  · refine (if_pos (by rw [asleep, main, run]; rfl)).trans (congrArg Host.Outcome.next ?_)
    exact kick_idle idle held

end Sys2Proof.Machine
end

