-- ==== Sys2Proof/Proofs/Supplies.lean ====
section
/-! SUPPORT. What the internal main reset, the falls of the supplies and the debug domain's reset leave (R424, R431, R433, R457, R471). -/

set_option Elab.async false

namespace Sys2Proof.Machine

open Sys2Proof

/-! ## The main reset (R424, R433) -/

/-- What the main reset leaves of the main domain. -/
def Gone (s t : State) : Prop :=
  t.ports = {} ∧ t.spad = {} ∧ t.march = {} ∧ t.flash = {} ∧ t.fabric = {} ∧ t.ev = {} ∧ t.counters = {} ∧
  t.load = {} ∧ t.power.mainRst = true ∧ t.power.lockA = false ∧ t.power.lockB = false ∧ t.power.heldDone = false ∧
  t.power.crst = 0 ∧ t.power.amul = 0x20 ∧ t.power.disc = 0 ∧ t.gpio.frozen = true ∧ t.gpio.mux = State.reset.gpio.mux ∧
  (∀ d : CoreId, let k := s.core[d]
    t.core[d] = { State.reset.core[d] with
      stepCtx := k.stepCtx, rhalt := k.rhalt, bkptEn := k.bkptEn, hcause := k.hcause, stepDone := k.stepDone, stepErr := k.stepErr,
      csCorr := k.csCorr.filter (· < 0xC00), csBad := k.csBad.filter (· < 0xC00), vsCorr := k.vsCorr, vsBad := k.vsBad })

/-- Frozen pins are the only change outside the reset itself (R457). -/
theorem freezePins_eq (s : State) : ∃ n oe out, s.freezePins = { s with freeCtr := n, gpio := { s.gpio with
    frozen := true, latOe := oe, latOut := out } } := by
  unfold State.freezePins
  split
  · next h =>
    have same : s.gpio = { s.gpio with frozen := true } := by rw [← h]
    exact ⟨s.freeCtr, s.gpio.latOe, s.gpio.latOut, congrArg (fun g => { s with gpio := g }) same⟩
  · exact ⟨_, _, _, rfl⟩

theorem freezePins_rest (s : State) : s.freezePins = { s with freeCtr := s.freezePins.freeCtr, gpio := { s.gpio with
    frozen := true, latOe := s.freezePins.gpio.latOe, latOut := s.freezePins.gpio.latOut } } := by
  obtain ⟨n, oe, out, h⟩ := freezePins_eq s
  rw [h]

theorem reset_core (d : CoreId) : State.reset.core[d] = {} := by
  simp [State.reset]

theorem gone_mainReset (s : State) : Gone s s.mainReset := by
  have core : s.freezePins.core = s.core := by rw [freezePins_rest]
  unfold State.mainReset
  refine ⟨rfl, rfl, rfl, rfl, rfl, rfl, rfl, rfl, rfl, rfl, rfl, rfl, rfl, rfl, rfl, rfl, rfl, fun d => ?_⟩
  dsimp only
  rw [core, reset_core]
  simp [Core.inReset]

/-- What the main reset keeps (R424). -/
theorem mainReset_keeps (s : State) :
    s.mainReset.ring = s.ring ∧ s.mainReset.night = s.night ∧ s.mainReset.dbg = s.dbg ∧ s.mainReset.dict = { s.dict with
      injData := 0, injWhere := 0, ucSize := 0, ucState := 0, ucReason := 0, ucStage := ({} : Dict).ucStage, bootWait := false,
      flashErr := false, flashTodo := [], flashGot := [] } ∧
    s.mainReset.gpio.slp = s.gpio.slp ∧ s.mainReset.pending = s.pending ∧ s.mainReset.transit = s.transit.afterReset ∧
    s.mainReset.power = { s.power with
      mainRst := true, lockA := false, lockB := false, heldDone := false, napWake := false, relock := false, vddmLow := false,
      dozeEn := 0xFFFF, dozeDly := 0x10, crst := 0, amul := 0x20, cdiv := Vector.replicate 16 0, sdiv := 0, disc := 0 } := by
  unfold State.mainReset
  rw [freezePins_rest]
  exact ⟨rfl, rfl, rfl, rfl, rfl, rfl, rfl, rfl⟩

/-- VESPER-ONLY, entered for `cause` while the agent has nothing to do. -/
theorem enterVesper_idle {s : State} (idle : AgentIdle s) (cause : BitVec 2) :
    s.enterVesper cause = s.mainReset.modPower fun p => { p with state := .vesperOnly, vcause := cause, pend := 0 } := by
  obtain ⟨busy, cmds, resync, daccBusy, daccWait⟩ := idle
  obtain ⟨ring, -, -, dict, -⟩ := mainReset_keeps s
  obtain ⟨u, hu⟩ : ∃ u, u = s.mainReset.modPower fun p => { p with state := .vesperOnly, vcause := cause, pend := 0 } := ⟨_, rfl⟩
  have ring' : u.ring = s.ring := by rw [hu]; exact ring
  have dict' : u.dict.daccBusy = none ∧ u.dict.daccWait = none := by
    rw [hu]
    change s.mainReset.dict.daccBusy = none ∧ s.mainReset.dict.daccWait = none
    rw [dict]
    exact ⟨daccBusy, daccWait⟩
  have still : u.mainLost = u := by
    unfold State.mainLost
    rw [dict'.1]
    dsimp only
    rw [ring', busy]
  have idle' : AgentIdle u := by
    unfold AgentIdle
    rw [ring']
    exact ⟨busy, cmds, resync, dict'.1, dict'.2⟩
  rw [State.enterVesper, ← hu, still, ringKick_idle idle']

/-! ## The debug domain (R462, R469) -/

/-- Without a halted member a release leaves requests out, and no more (R469). -/
theorem releaseAll_running {s : State} (h : ∀ m, s.memberHalted m = false) :
    s.releaseAll = ({ s with dbg := { s.dbg with stopped := false, haltTrn := false, haltTrc := false } } : State).allCores
      fun _ k => { k with haltReq := none } := by
  have trace : s.dbg.stopped = false := h 17
  have engine : s.transit.halted = false := h 16
  have step (m : Fin 18) : s.release m = s := by
    have running := h m
    unfold State.release State.memberHalted at *
    split
    · next c hc =>
      rw [hc] at running
      unfold State.coreRelease
      rw [if_pos (by rw [show s.core[c].halted = false from running]; rfl)]
    · split
      · rw [if_neg (by rw [engine]; decide)]
      · change ({ s with dbg := { s.dbg with stopped := false } } : State) = s
        rw [← trace]
  have fold (l : List (Fin 18)) : l.foldl State.release s = s := by
    induction l with
    | nil => rfl
    | cons m l ih => rw [List.foldl_cons, step, ih]
  rw [State.releaseAll, fold, ← trace]
  rfl

/-- The debug domain as its reset finds the unlock, and no more. -/
def Debug.afterReset (d : Debug) : Debug :=
  { level := d.level, barred := d.barred, fails := d.fails, failed := d.failed, busy := d.busy, chal := d.chal,
    chalCnt := d.chalCnt, chalOut := d.chalOut, reqLevel := d.reqLevel, respHi := d.respHi, respLo := d.respLo }

/-- What the debug domain's reset changes in a core. -/
def Core.debugReset (k : Core) : Core :=
  { k with haltReq := none, stepCtx := 0, rhalt := false, bkptEn := false, hcause := 0, stepDone := false, stepErr := false }

/-- The level that holds already changes nothing but requests to halt. -/
theorem setDbgLevel_running {s : State} (on : s.dbg.level ≠ 0) :
    s.setDbgLevel s.dbg.level = s ∨ s.setDbgLevel s.dbg.level = s.releaseAll := by
  unfold State.setDbgLevel
  rw [if_neg on]
  by_cases full : s.dbg.level ≠ 2
  · exact .inr (if_pos full)
  · exact .inl (if_neg full)

theorem execDbgRstn_eq (s : State) : exec .dbgRstn s = .next ((({ s.releaseAll with dbg := s.releaseAll.dbg.afterReset } : State).allCores
    fun _ k => { k with stepCtx := 0, rhalt := false, bkptEn := false, hcause := 0, stepDone := false, stepErr := false }).dbgDefault) := rfl

/-- A reset of the debug domain that finds no halted member, at the life cycle's level (R462, R469). -/
theorem dbgRstn_leaves {s : State} (run : ∀ m, s.memberHalted m = false) (level : s.dbg.level = lcDefault s.night.lcState)
    (on : s.dbg.level ≠ 0) : ∃ t, exec .dbgRstn s = .next t ∧
      t.dbg.xtm = State.reset.dbg.xtm ∧ t.dbg.trEn = false ∧ t.dbg.fifo = [] ∧ t.dbg.level = s.dbg.level ∧ t.dbg.fails = s.dbg.fails ∧
      (∀ d : CoreId, t.core[d] = { s.core[d] with haltReq := t.core[d].haltReq, stepCtx := 0, rhalt := false, bkptEn := false, hcause := 0,
                                                  stepDone := false, stepErr := false }) ∧
      t = { s with dbg := t.dbg, core := t.core } := by
  obtain ⟨cores, hc⟩ : ∃ k, k = ((s.allCores fun _ k => { k with haltReq := none }).allCores
      fun _ k => { k with stepCtx := 0, rhalt := false, bkptEn := false, hcause := 0, stepDone := false, stepErr := false }).core := ⟨_, rfl⟩
  obtain ⟨u, hu⟩ : ∃ u : State, u = { s with dbg := s.dbg.afterReset, core := cores } := ⟨_, rfl⟩
  have core (d : CoreId) : u.core[d] = (s.core[d]).debugReset := by
    rw [hu, hc]
    simp only [State.allCores, Fin.getElem_fin, Vector.getElem_ofFn]
    rfl
  have still (m : Fin 18) : u.memberHalted m = false := by
    have running := run m
    unfold State.memberHalted at *
    split
    · next c hc =>
      rw [hc] at running
      rw [core]
      exact running
    · next hc =>
      rw [hc] at running
      rw [hu]
      split
      · next hm => exact (if_pos hm).symm.trans running
      · rfl
  have dbg : u.dbg = s.dbg.afterReset := by rw [hu]
  have rest (d k) : ({ u with dbg := d, core := k } : State) = { s with dbg := d, core := k } := by rw [hu]
  have ran : exec .dbgRstn s = .next (u.setDbgLevel u.dbg.level) := by
    have same : u.dbg.level = lcDefault s.night.lcState := by rw [hu]; exact level
    rw [same, execDbgRstn_eq, releaseAll_running run, hu, hc]
    rfl
  refine ⟨_, ran, ?_⟩
  rcases setDbgLevel_running (s := u) (by rw [dbg]; exact on) with h | h
  · rw [h]
    refine ⟨by rw [dbg]; rfl, by rw [dbg]; rfl, by rw [dbg]; rfl, by rw [dbg]; rfl, by rw [dbg]; rfl, fun d => ?_, rest _ _⟩
    rw [core]
    rfl
  · rw [h, releaseAll_running still]
    refine ⟨show u.dbg.xtm = _ by rw [dbg]; rfl, show u.dbg.trEn = _ by rw [dbg]; rfl, show u.dbg.fifo = _ by rw [dbg]; rfl,
      show u.dbg.level = _ by rw [dbg]; rfl, show u.dbg.fails = _ by rw [dbg]; rfl, fun d => ?_, rest _ _⟩
    · simp only [State.allCores, Fin.getElem_fin, Vector.getElem_ofFn]
      rw [← Fin.getElem_fin, core]
      rfl

/-- While the writer writes a row, it begins no other (R494). -/
theorem nvmKick_busy {s : State} (h : s.night.cur.isSome = true) : s.nvmKick = s := by
  unfold State.nvmKick Night.kick
  rw [if_pos h]

/-- A warning freezes the pins and counts, raises its source and is captured (R457, R493). -/
theorem exec_mainWarnRise {s : State} (warn : s.power.mainWarn = false) (por : s.power.pornAon = true) (main : s.power.mainRst = false) :
    ∃ t, exec .mainWarnRise s = .next t ∧
      let n := satInc s.power.bocnt
      LoggedOnly { s with power := { s.power with mainWarn := true, bocnt := n }, freeCtr := t.freeCtr,
                          gpio := { s.gpio with frozen := true, latOe := t.gpio.latOe, latOut := t.gpio.latOut } } t [352] ∧
      ((s.src 352).en = true → (t.src 352).pend = true ∧ (t.src 352).payload = 1 ||| (n <<< 16)) ∧
      (s.night.staged.length < 2 → s.night.cur.isSome = true →
        (t.night.staged.getLast?.map fun k => (k.code, k.seq)) = some (0x05, s.night.seq)) := by
  obtain ⟨n, oe, out, freeze⟩ := freezePins_eq s
  obtain ⟨v, hv⟩ : ∃ v : Word, v = satInc s.power.bocnt := ⟨_, rfl⟩
  let g : Gpio := { s.gpio with frozen := true, latOe := oe, latOut := out }
  obtain ⟨u, hu⟩ : ∃ u : State, u = { s with power := { s.power with mainWarn := true, bocnt := v }, freeCtr := n, gpio := g } := ⟨_, rfl⟩
  obtain ⟨w, hw⟩ : ∃ w, w = u.raise 352 ((1 : Word) ||| (v <<< 16)) := ⟨_, rfl⟩
  have ran : exec .mainWarnRise s = .next (w.cause 0x05 0xFF 0 (v.setWidth 96 ||| (w.powerCode.setWidth 96 <<< 32))) := by
    refine (if_neg (by rw [warn]; decide)).trans ((if_neg (by rw [por]; decide)).trans ?_)
    rw [freeze, hw, hu, hv]
    rfl
  have hmu : u.power.mainRst = false := by rw [hu]; exact main
  have only : SourcesOnly u w [352] := by rw [hw]; exact sourcesOnly_raise 352 _ hmu
  have raised := raise_raised (s := u) 352 ((1 : Word) ||| (v <<< 16)) hmu (by decide +kernel)
  rw [← hw] at raised
  have srcs : u.src ((352 : Fin 512) : Nat) = s.src 352 := by rw [hu]; rfl
  have night : w.night = s.night := by
    obtain ⟨-, -, e⟩ := only
    rw [e, hu]
  obtain ⟨t, ht⟩ : ∃ t, t = w.cause 0x05 0xFF 0 (v.setWidth 96 ||| (w.powerCode.setWidth 96 <<< 32)) := ⟨_, rfl⟩
  obtain ⟨ng, rest⟩ : ∃ ng, t = { w with night := ng } := by rw [ht]; exact ⟨_, rfl⟩
  rw [← ht] at ran
  rw [← hv]
  refine ⟨t, ran, ?_, fun en => ?_, fun few cur => ?_⟩
  · unfold LoggedOnly
    rw [rest]
    obtain ⟨other, cores, rest⟩ := only
    refine ⟨fun m far => (other m far).trans (by rw [hu]; rfl), fun d => (cores d).trans (by rw [hu]), ?_⟩
    rw [rest, hu]
  · rw [show t.src 352 = w.src 352 by rw [rest]; rfl]
    exact raised.1 (srcs ▸ en)
  · rw [ht]
    unfold State.cause
    dsimp only
    rw [night, if_pos few, nvmKick_busy]
    · simp
    · exact cur

/-! ## Falls of the supplies -/

/-- What VESPER-ONLY finds, entered for `cause` (R431). -/
def InVesper (s t : State) (cause : BitVec 2) : Prop :=
  Gone s t ∧ t.ring = s.ring ∧ t.night = s.night ∧ t.dbg = s.dbg ∧ t.dict.held = s.dict.held ∧ t.dict.bootAuto = s.dict.bootAuto ∧
  t.dict.injData = 0 ∧ t.dict.ucState = 0 ∧ t.gpio.slp = s.gpio.slp ∧ t.pending = s.pending ∧
  t.power.state = .vesperOnly ∧ t.power.vcause = cause ∧ t.power.pend = 0 ∧ t.power.wipePend = s.power.wipePend ∧
  t.power.vt = s.power.vt ∧ t.power.bocnt = s.power.bocnt ∧ t.power.pornAon = s.power.pornAon

/-- VESPER-ONLY, from a state that differs from `s` in flags of the power unit alone; the engine is as `RSTn_MAIN` leaves it. -/
theorem enterVesper_leaves {s : State} (idle : AgentIdle s) {p : Power} (cause : BitVec 2)
    (hp : p.wipePend = s.power.wipePend ∧ p.vt = s.power.vt ∧ p.bocnt = s.power.bocnt ∧ p.pornAon = s.power.pornAon) :
    let t := ({ s with power := p } : State).enterVesper cause
    InVesper s t cause ∧ t.transit = s.transit.afterReset ∧ t.power.mainOk = p.mainOk ∧ t.power.rstnMain = p.rstnMain ∧
      t.power.wantMain = p.wantMain ∧ t.power.mainEn = p.mainEn := by
  obtain ⟨wipe, vt, bocnt, por⟩ := hp
  obtain ⟨u, hu⟩ : ∃ u : State, u = { s with power := p } := ⟨_, rfl⟩
  have idle' : AgentIdle u := by rw [hu]; exact idle
  obtain ⟨ports, spad, march, flash, fabric, ev, counters, load, rst, lockA, lockB, held, crst, amul, disc, frozen, mux, core⟩ := gone_mainReset u
  obtain ⟨ring, night, dbg, dict, slp, pending, transit, power⟩ := mainReset_keeps u
  obtain ⟨t, ht⟩ : ∃ t, t = u.enterVesper cause := ⟨_, rfl⟩
  rw [← hu, ← ht]
  rw [enterVesper_idle idle'] at ht
  have power' : t.power = { u.mainReset.power with state := .vesperOnly, vcause := cause, pend := 0 } := by rw [ht]; rfl
  rw [power] at power'
  have held' : t.dict.held = s.dict.held ∧ t.dict.bootAuto = s.dict.bootAuto ∧ t.dict.injData = 0 ∧ t.dict.ucState = 0 := by
    rw [show t.dict = u.mainReset.dict by rw [ht]; rfl, dict, hu]
    exact ⟨rfl, rfl, rfl, rfl⟩
  have gone : Gone s t := by
    refine ⟨?_, ?_, ?_, ?_, ?_, ?_, ?_, ?_, by rw [power'], by rw [power'], by rw [power'], by rw [power'], by rw [power'], by rw [power'],
      by rw [power'], ?_, ?_, fun d => ?_⟩
    all_goals rw [ht]
    exacts [ports, spad, march, flash, fabric, ev, counters, load, frozen, mux, (core d).trans (by rw [hu])]
  obtain ⟨h1, h2, h3, h4⟩ := held'
  refine ⟨⟨gone, ?_, ?_, ?_, h1, h2, h3, h4, ?_, ?_, by rw [power'], by rw [power'], by rw [power'], ?_, ?_, ?_, ?_⟩, ?_, ?_, ?_, ?_, ?_⟩
  · rw [ht, ← show u.ring = s.ring by rw [hu]]; exact ring
  · rw [ht, ← show u.night = s.night by rw [hu]]; exact night
  · rw [ht, ← show u.dbg = s.dbg by rw [hu]]; exact dbg
  · rw [ht, ← show u.gpio = s.gpio by rw [hu]]; exact slp
  · rw [ht, ← show u.pending = s.pending by rw [hu]]; exact pending
  · rw [power', hu]; exact wipe
  · rw [power', hu]; exact vt
  · rw [power', hu]; exact bocnt
  · rw [power', hu]; exact por
  · rw [ht, ← show u.transit = s.transit by rw [hu]]; exact transit
  all_goals rw [power', hu]

/-- Without its supply the engine keeps nothing (R233, R424). -/
theorem InVesper.supplyLost {s t : State} {cause : BitVec 2} (h : InVesper s t cause) : InVesper s t.supplyLost cause := h

theorem supplyLost_transit {s t : State} (h : t.transit = s.transit.afterReset) : t.supplyLost.transit = {} := by
  change { t.transit with eph := [], ephCorr := [], ephBad := [] } = _
  rw [h]
  rfl

/-- Settles O44: every fall is the main reset of `gone_mainReset`, with what its row adds. -/
theorem suppliesFall : Obligations.SuppliesFall := by
  intro s idle gone emptied vesper flags
  refine ⟨fun main => ⟨?_, ?_, fun pend => ?_⟩, fun main => ⟨?_, ?_⟩, fun por cur => ?_, rfl, rfl, rfl, rfl, rfl, fun run level on => ?_,
    fun warn por => ?_, fun warn por main _ => ?_, fun main => ?_⟩
  · obtain ⟨inVesper, transit, ok, -, want, -⟩ := enterVesper_leaves idle (p := { s.power with mainOk := false }) 2 ⟨rfl, rfl, rfl, rfl⟩
    refine ⟨_, if_neg (by rw [main]; decide), inVesper.supplyLost, supplyLost_transit transit, ok, want⟩
  · obtain ⟨inVesper, transit, -, rst, want, -⟩ := enterVesper_leaves idle (p := { s.power with rstnMain := false }) 3 ⟨rfl, rfl, rfl, rfl⟩
    exact ⟨_, if_neg (by rw [main]; decide), inVesper, transit, rst, want⟩
  · obtain ⟨inVesper, transit, -, -, want, en⟩ :=
      enterVesper_leaves idle (p := { s.power with wantMain := false, mainEn := false }) 1 ⟨rfl, rfl, rfl, rfl⟩
    have free : s.agentFree = true := by
      obtain ⟨busy, cmds, -, daccBusy, -⟩ := idle
      rw [State.agentFree, busy, cmds, daccBusy]
      rfl
    exact ⟨_, if_pos (by rw [pend, main, free]; rfl), inVesper.supplyLost, supplyLost_transit transit, want, en⟩
  · exact if_pos main
  · exact if_pos main
  · have quiet : s.rowWritten false = s := by rw [State.rowWritten, cur]
    obtain ⟨ports, spad, march, flash, fabric, ev, counters, load, -, -, -, -, -, -, -, -, -, core⟩ := gone_mainReset s
    obtain ⟨ring, night, dbg, -, -, -, transit, power⟩ := mainReset_keeps s
    obtain ⟨m, hm⟩ : ∃ m, m = s.mainReset.supplyLost := ⟨_, rfl⟩
    have run : exec .pornAonAssert s = .next { m with
        night := { slots := m.night.slots, param := m.night.param, row0 := m.night.row0, lcRows := m.night.lcRows,
                   lcState := lcOf m.night.lcRows, pin := m.night.pin }
        ring := { tclk := m.ring.tclk }
        dict := {}
        gpio := { slh := m.gpio.slh, frozen := true }
        power := { mainOk := m.power.mainOk, vddmOk := m.power.vddmOk, mainWarn := m.power.mainWarn, rstnMain := m.power.rstnMain,
                   dbgRstn := m.power.dbgRstn, vdbg := m.power.vdbg, fastClk := m.power.fastClk, wipePend := m.power.wipePend }
        dbg := { m.dbg with level := lcDefault (lcOf m.night.lcRows), barred := false, fails := 0, failed := false, busy := false,
                            chal := 0, chalCnt := 0, chalOut := false, reqLevel := 0, respHi := 0, respLo := 0 } } := by
      rw [hm]
      refine (if_neg (by rw [por]; decide)).trans ?_
      rw [quiet]
    have power' : m.power.wipePend = s.power.wipePend := by
      rw [hm]
      change s.mainReset.power.wipePend = _
      rw [power]
    have transit' : m.transit = {} := by rw [hm]; exact supplyLost_transit transit
    have ring' : m.ring = s.ring := by rw [hm]; exact ring
    have night' : m.night = s.night := by rw [hm]; exact night
    have dbg' : m.dbg = s.dbg := by rw [hm]; exact dbg
    have zero : m.ports = {} ∧ m.spad = {} ∧ m.march = {} ∧ m.flash = {} ∧ m.fabric = {} ∧ m.ev = {} ∧ m.counters = {} ∧ m.load = {} ∧
        m.core = s.mainReset.core := by
      rw [hm]
      exact ⟨ports, spad, march, flash, fabric, ev, counters, load, rfl⟩
    obtain ⟨ports, spad, march, flash, fabric, ev, counters, load, core'⟩ := zero
    refine ⟨_, run, ⟨ports, spad, march, flash, fabric, ev, counters, load, rfl, rfl, rfl, rfl, rfl, rfl, rfl, rfl, rfl, fun d => ?_⟩,
      transit', rfl, rfl, rfl, power', rfl, ?_, rfl, ?_, ?_, ?_, ?_, rfl, rfl, rfl, ?_⟩
    · change m.core[d] = _
      rw [core']
      exact core d
    · change ({ tclk := m.ring.tclk } : Ring) = _
      rw [ring']
    · exact show m.night.slots = s.night.slots by rw [night']
    · exact show m.night.param = s.night.param by rw [night']
    · exact show m.night.row0 = s.night.row0 by rw [night']
    · exact show m.night.lcRows = s.night.lcRows by rw [night']
    · exact show m.dbg.xtm = s.dbg.xtm by rw [dbg']
  · exact dbgRstn_leaves run level on
  · exact (if_neg (by rw [warn]; decide)).trans (if_pos (by rw [por]; rfl))
  · exact exec_mainWarnRise warn por main
  · exact if_neg (by rw [main]; decide)

end Sys2Proof.Machine
end

