-- ==== Sys2Proof/Proofs/Timed.lean ====
section
/-! SUPPORT. What the transit engine, the ports, timers and event sources leave alone: memory, the Nightlog, the dictionary, the power unit
but for a wake from NAP, and the ring but for deferred sources. -/

set_option Elab.async false

namespace Sys2Proof.Machine

open Sys2Proof

/-- The power unit but for the wake that a raise asks for in NAP. -/
def Power.unwoken (p : Power) : Power := { p with napWake := false }

/-- The ring but for the sources that wait for the main domain. -/
def Ring.undeferred (r : Ring) : Ring := { r with deferred := [] }

/-- `s` is `b` but for the transit engine, ports, timers, event sources, cores, counters, pins and trace. -/
def Untimed (b s : State) : Prop :=
  s.pending = b.pending ∧ s.spad = b.spad ∧ s.march = b.march ∧ s.flash = b.flash ∧ s.fabric = b.fabric ∧ s.dict = b.dict ∧ s.night =
    b.night ∧
  s.load = b.load ∧ s.dbg.level = b.dbg.level ∧ s.power.unwoken = b.power.unwoken ∧ s.ring.undeferred = b.ring.undeferred ∧
  (s.power.mainRst = true ∨ s.ring = b.ring)

theorem Untimed.refl (s : State) : Untimed s s := ⟨rfl, rfl, rfl, rfl, rfl, rfl, rfl, rfl, rfl, rfl, rfl, .inr rfl⟩

theorem untimed_foldl {α : Type} {b : State} {f : State → α → State} (hf : ∀ t a, Untimed b t → Untimed b (f t a)) (l : List α) {s : State}
    (h : Untimed b s) : Untimed b (l.foldl f s) := by
  induction l generalizing s with
  | nil => exact h
  | cons a l ih => exact ih (hf s a h)

theorem untimed_modDbg {b s : State} (h : Untimed b s) {f : Debug → Debug} (hf : (f s.dbg).level = s.dbg.level) :
    Untimed b (s.modDbg f) := by
  unfold Untimed at *
  rw [← hf] at h
  exact h

theorem untimed_modCore {b s : State} (h : Untimed b s) (c : CoreId) (f : Core → Core) : Untimed b (s.modCore c f) := by
  unfold State.modCore
  grind [Untimed]

theorem untimed_modCtx {b s : State} (h : Untimed b s) (c : CoreId) (x : CtxId) (f : Ctx → Ctx) : Untimed b (s.modCtx c x f) := by
  unfold State.modCtx
  grind [untimed_modCore]

theorem untimed_modTb {b s : State} (h : Untimed b s) (t : TbId) (f : Tb → Tb) : Untimed b (s.modTb t f) := by
  unfold State.modTb
  grind [Untimed]

theorem untimed_modPort {b s : State} (h : Untimed b s) (p : Fin 8) (f : Port → Port) : Untimed b (s.modPort p f) := by
  unfold State.modPort
  grind [Untimed]

theorem untimed_modMs {b s : State} (h : Untimed b s) (n : Fin 4) (f : Ms → Ms) : Untimed b (s.modMs n f) := by
  unfold State.modMs
  grind [Untimed]

theorem untimed_allCores {b s : State} (h : Untimed b s) (f : CoreId → Core → Core) : Untimed b (s.allCores f) := by
  unfold State.allCores
  grind [Untimed]

theorem untimed_countN {b s : State} (h : Untimed b s) (c : CoreId) (x : Option CtxId) (ev m : Nat) : Untimed b (s.countN c x ev m) := by
  unfold State.countN
  grind [Untimed]

theorem untimed_count {b s : State} (h : Untimed b s) (c : CoreId) (x : CtxId) (ev : Nat) : Untimed b (s.count c x ev) := by
  unfold State.count
  grind [untimed_countN]

theorem untimed_countC {b s : State} (h : Untimed b s) (c : CoreId) (ev : Nat) : Untimed b (s.countC c ev) := by
  unfold State.countC
  grind [untimed_countN]

theorem untimed_countB {b s : State} (h : Untimed b s) (ev : Nat) (m : Nat) : Untimed b (s.countB ev m) := by
  unfold State.countB
  grind [Untimed]

theorem untimed_seating {b s : State} (h : Untimed b s) (c : CoreId) (f : Core → Core) : Untimed b (s.seating c f) := by
  unfold State.seating
  grind [untimed_modCore, untimed_countC]

theorem untimed_setSt {b s : State} (h : Untimed b s) (c : CoreId) (x : CtxId) (st : CtxState) : Untimed b (s.setSt c x st) := by
  unfold State.setSt
  grind [untimed_seating]

theorem untimed_setSrc {b s : State} (h : Untimed b s) (n : Nat) (v : Source) : Untimed b (s.setSrc n v) := by
  unfold State.setSrc
  grind [Untimed]

theorem untimed_wakeFor {b s : State} (h : Untimed b s) (c : CoreId) (core : Bool) : Untimed b (s.wakeFor c core) := by
  unfold State.wakeFor
  grind [Untimed, untimed_modCore, Power.unwoken]

theorem untimed_raiseAt {b s : State} (h : Untimed b s) (n : Nat) (payload : Word) (ts : Bool × Word × BitVec 16) :
    Untimed b (s.raiseAt n payload ts) := by
  unfold State.raiseAt
  grind [untimed_modCore, untimed_countB, untimed_setSrc, untimed_wakeFor]

theorem untimed_raiseNow {b s : State} (h : Untimed b s) (n : Nat) (payload : Word) : Untimed b (s.raiseNow n payload) := by
  unfold State.raiseNow
  grind [untimed_raiseAt]

theorem untimed_raise {b s : State} (h : Untimed b s) (n : Fin 512) (payload : Word) : Untimed b (s.raise n payload) := by
  unfold State.raise
  grind [Untimed, untimed_raiseNow, Ring.undeferred]

theorem untimed_wentQuiet {b s : State} (h : Untimed b s) (v : Source) : Untimed b (s.wentQuiet v) := by
  unfold State.wentQuiet
  grind [untimed_modCore, untimed_countB]

theorem untimed_setLevel {b s : State} (h : Untimed b s) (n : Fin 512) (lvl : Bool) (payload : Word) :
    Untimed b (s.setLevel n lvl payload) := by
  unfold State.setLevel
  grind [untimed_setSrc, untimed_raiseNow, untimed_wentQuiet]

theorem untimed_modTransit {b s : State} (h : Untimed b s) (f : Transit → Transit) : Untimed b (s.modTransit f) := by
  unfold State.modTransit
  grind [Untimed]

theorem untimed_ephLevel {b s : State} (h : Untimed b s) : Untimed b (s.ephLevel) := by
  unfold State.ephLevel
  grind [untimed_setLevel]

theorem untimed_ephError {b s : State} (h : Untimed b s) : Untimed b (s.ephError) := by
  unfold State.ephError
  grind [untimed_raise, untimed_modTransit]

theorem untimed_readQueue {b s : State} (h : Untimed b s) (k : Nat) : Untimed b (s.readQueue k).2 := by
  unfold State.readQueue
  grind [untimed_modTransit, untimed_ephError]

theorem untimed_wakeCtx {b s : State} (h : Untimed b s) (c : CoreId) (x : CtxId) : Untimed b (s.wakeCtx c x) := by
  unfold State.wakeCtx
  grind [untimed_modCore, untimed_modCtx, untimed_countC, untimed_setSt, untimed_modTransit]

theorem untimed_preWake {b s : State} (h : Untimed b s) (i : BufItem) : Untimed b (s.preWake i) := by
  unfold State.preWake
  grind [untimed_modCore]

theorem untimed_actClass3 {b s : State} (h : Untimed b s) (t : TbId) (i : BufItem) : Untimed b (s.actClass3 t i) := by
  unfold State.actClass3
  grind [untimed_raiseAt, untimed_wakeCtx]

theorem untimed_tbDrop {b s : State} (h : Untimed b s) (t : TbId) : Untimed b (s.tbDrop t) := by
  unfold State.tbDrop
  grind [untimed_modTb, untimed_countB, untimed_raise]

theorem untimed_tbLost {b s : State} (h : Untimed b s) (t : TbId) : Untimed b (s.tbLost t) := by
  unfold State.tbLost
  grind [untimed_modTb, untimed_countB, untimed_raise]

theorem untimed_tbOvf {b s : State} (h : Untimed b s) (t : TbId) : Untimed b (s.tbOvf t) := by
  unfold State.tbOvf
  grind [untimed_modTb, untimed_countB, untimed_raise]

theorem untimed_tbSlate {b s : State} (h : Untimed b s) (t : TbId) : Untimed b (s.tbSlate t) := by
  unfold State.tbSlate
  grind [untimed_modTb, untimed_countB]

theorem untimed_freeItem {b s : State} (h : Untimed b s) (i : BufItem) : Untimed b (s.freeItem i) := by
  unfold State.freeItem
  grind [untimed_modTransit]

theorem untimed_link {b s : State} (h : Untimed b s) (t : TbId) (slot : Nat) (cls : BitVec 2) (i : Nat) :
    Untimed b (s.link t slot cls i) := by
  unfold State.link
  grind [untimed_modTransit, untimed_readQueue]

theorem untimed_carry {b s : State} (h : Untimed b s) (t : TbId) (i : BufItem) : Untimed b (s.carry t i) := by
  unfold State.carry
  grind [untimed_modTb, untimed_countB, untimed_tbLost, untimed_freeItem]

theorem untimed_placeLate {b s : State} (h : Untimed b s) (t : TbId) (i : BufItem) : Untimed b (s.placeLate t i) := by
  unfold State.placeLate
  grind [untimed_modTb, untimed_countB, untimed_preWake]

theorem untimed_late_decidePath {b : State} (n : Nat) :
    (∀ (s : State) (t : TbId) (slot : Nat) (cls : BitVec 2) (i : Nat), Untimed b s → Untimed b (State.decidePath n s t slot cls i)) ∧
    ∀ (s : State) (t : TbId) (ovr : Bool) (i : BufItem), Untimed b s → Untimed b (State.late n s t ovr i) := by
  induction n with
  | zero =>
    refine ⟨fun s t slot cls i h => ?_, fun s t ovr i h => ?_⟩
    · unfold State.decidePath; exact untimed_link h ..
    · unfold State.late; exact h
  | succ n ih =>
    obtain ⟨path, late⟩ := ih
    refine ⟨fun s t slot cls i h => ?_, fun s t ovr i h => ?_⟩
    · unfold State.decidePath
      grind [untimed_link, untimed_placeLate]
    · unfold State.late
      grind [untimed_freeItem, untimed_tbDrop, untimed_modTransit, untimed_modTb, untimed_countB, untimed_carry]

theorem untimed_late {b s : State} (h : Untimed b s) (n : Nat) (t : TbId) (ovr : Bool) (i : BufItem) : Untimed b (State.late n s t ovr i) :=
  (untimed_late_decidePath n).2 s t ovr i h

theorem untimed_lateAll {b s : State} (h : Untimed b s) (t : TbId) (l : List BufItem) : Untimed b (s.lateAll t l) :=
  untimed_foldl (fun _ i hu => untimed_late hu 8 t false i) l h

theorem untimed_walkQueue {b s : State} (h : Untimed b s) (t : TbId) (m : WalkMode) (f : BitVec 16) (slot : Nat) (w : WalkAcc)
    (q : Nat × List Nat) : Untimed b (s.walkQueue t m f slot w q).1 := by
  unfold State.walkQueue
  dsimp only
  refine untimed_foldl (fun u i hu => ?_) _ ?_
  · grind [untimed_late, untimed_tbOvf]
  · grind [untimed_ephError, untimed_modTransit, untimed_readQueue]

theorem untimed_walkQueues {b : State} (t : TbId) (m : WalkMode) (f : BitVec 16) (slot : Nat) (l : List (Nat × List Nat))
    (r : State × WalkAcc) (h : Untimed b r.1) :
    Untimed b (l.foldl (fun (r : State × WalkAcc) q => r.1.walkQueue t m f slot r.2 q) r).1 := by
  induction l generalizing r with
  | nil => exact h
  | cons q l ih => exact ih _ (untimed_walkQueue h ..)

theorem untimed_cleanup {b s : State} (h : Untimed b s) (t : TbId) (f : BitVec 16) (slot : Nat) : Untimed b (s.cleanup t f slot) := by
  unfold State.cleanup
  grind [untimed_walkQueue, untimed_foldl]

theorem untimed_startWalk {b s : State} (h : Untimed b s) (t : TbId) (f : BitVec 16) (slot : Nat) (due : Bool) :
    Untimed b (s.startWalk t f slot due) := by
  unfold State.startWalk
  grind [untimed_modTb, untimed_modTransit]

theorem untimed_pump {b s : State} (h : Untimed b s) (n : Nat) (t : TbId) : Untimed b (State.pump n s t) := by
  induction n generalizing s with
  | zero => exact h
  | succ n ih =>
    unfold State.pump
    grind [untimed_modTb, untimed_lateAll, untimed_tbSlate, untimed_startWalk]

theorem untimed_timerExpire {b s : State} (h : Untimed b s) (n : Fin 32) : Untimed b (s.timerExpire n) :=
  untimed_raise h ..

theorem untimed_timerTick {b s : State} (h : Untimed b s) (n : Fin 32) : Untimed b (s.timerTick n) := by
  unfold State.timerTick
  grind [Untimed, untimed_timerExpire]

theorem untimed_slotTicks {b s : State} (h : Untimed b s) (t : TbId) : Untimed b (s.slotTicks t) := by
  unfold State.slotTicks
  grind [untimed_timerTick, untimed_foldl]

theorem untimed_frameChange {b s : State} (h : Untimed b s) (t : TbId) (restart : Bool) : Untimed b (s.frameChange t restart) := by
  unfold State.frameChange
  grind [untimed_modTb, untimed_modMs]

theorem untimed_movePos {b s : State} (h : Untimed b s) (t : TbId) (slot grain : Nat) (frameCh restart : Bool) :
    Untimed b (s.movePos t slot grain frameCh restart) := by
  unfold State.movePos
  grind [untimed_modTb, untimed_slotTicks, untimed_frameChange]

theorem untimed_enterPos {b s : State} (h : Untimed b s) (t : TbId) (slot grain : Nat) (restart : Bool) :
    Untimed b (s.enterPos t slot grain restart) := by
  unfold State.enterPos
  dsimp only
  split
  · exact untimed_pump (untimed_movePos h ..) ..
  · exact untimed_pump (untimed_foldl (fun _ _ hu => untimed_cleanup hu ..) _
      (untimed_lateAll (untimed_modTb (untimed_movePos h ..) ..) ..)) ..

theorem untimed_firstPos {b s : State} (h : Untimed b s) (t : TbId) (slot grain : Nat) : Untimed b (s.firstPos t slot grain) :=
  untimed_pump (untimed_foldl (fun _ _ hu => untimed_cleanup hu ..) _ (untimed_modTb h ..)) ..

theorem untimed_actArmed {b s : State} (h : Untimed b s) (t : TbId) : Untimed b (s.actArmed t) := by
  unfold State.actArmed
  grind [untimed_modTb, untimed_actClass3, untimed_foldl]

theorem untimed_presentLanes {b s : State} (h : Untimed b s) (t : TbId) (none_ : Bool) : Untimed b (s.presentLanes t none_) := by
  unfold State.presentLanes
  grind [untimed_modTb, untimed_modPort, untimed_countB, untimed_freeItem, untimed_lateAll, untimed_actArmed, untimed_foldl]

theorem untimed_beginPause {b s : State} (h : Untimed b s) (t : TbId) : Untimed b (s.beginPause t) := by
  unfold State.beginPause
  grind [untimed_modTb, untimed_modPort]

theorem untimed_endPause {b s : State} (h : Untimed b s) (t : TbId) : Untimed b (s.endPause t) := by
  unfold State.endPause
  dsimp only
  split
  · exact h
  · split
    · refine untimed_pump (untimed_foldl (fun _ _ hu => untimed_cleanup hu ..) _ (untimed_lateAll (untimed_modTb h ..) ..)) ..
    · exact untimed_pump (untimed_foldl (fun _ _ hu => untimed_walkQueue hu ..) _ (untimed_lateAll (untimed_modTb h ..) ..)) ..

theorem untimed_resumeAll {b s : State} (h : Untimed b s) : Untimed b (s.resumeAll) := by
  unfold State.resumeAll
  grind [untimed_ephLevel, untimed_endPause, untimed_foldl]

theorem untimed_pauseAll {b s : State} (h : Untimed b s) : Untimed b (s.pauseAll) := by
  unfold State.pauseAll
  grind [untimed_beginPause, untimed_foldl]

theorem untimed_tbSample {b s : State} (h : Untimed b s) (t : TbId) (run : Bool) (slot grain : Nat) (restart short : Bool) :
    Untimed b (s.tbSample t run slot grain restart short) := by
  unfold State.tbSample
  grind [untimed_modTb, untimed_movePos, untimed_enterPos, untimed_firstPos, untimed_presentLanes, untimed_beginPause, untimed_endPause]

theorem untimed_flushQueue {b s : State} (h : Untimed b s) (k : Nat) : Untimed b (s.flushQueue k) := by
  unfold State.flushQueue
  grind [untimed_modTransit, untimed_ephLevel, untimed_ephError, untimed_readQueue, untimed_foldl]

theorem untimed_flushTb {b s : State} (h : Untimed b s) (t : TbId) : Untimed b (s.flushTb t) := by
  unfold State.flushTb
  grind [untimed_modTb, untimed_modPort, untimed_modTransit, untimed_ephLevel, untimed_carry, untimed_cleanup, untimed_flushQueue,
    untimed_foldl]

theorem untimed_tbCfgWrite {b s : State} (h : Untimed b s) (t : TbId) (v : Word) : Untimed b (s.tbCfgWrite t v) := by
  unfold State.tbCfgWrite
  grind [untimed_modTb, untimed_modTransit, untimed_flushTb]

theorem untimed_portCtl {b s : State} (h : Untimed b s) (n : Fin 8) (v : Word) : Untimed b (s.portCtl n v) := by
  unfold State.portCtl
  grind [untimed_modTb, untimed_modPort, untimed_beginPause]

theorem untimed_traceSettle {b s : State} (h : Untimed b s) : Untimed b s.traceSettle := by
  unfold State.traceSettle
  grind [Untimed, Debug.enter]

theorem untimed_packet {b s : State} (h : Untimed b s) (halt : Bool) (low data : Word) : Untimed b (s.packet halt low data) := by
  unfold State.packet
  grind [Untimed, untimed_traceSettle, Debug.enter, State.modDbg]

theorem untimed_haltPacket {b s : State} (h : Untimed b s) (c : CoreId) (halted : Bool) : Untimed b (s.haltPacket c halted) := by
  unfold State.haltPacket State.free
  grind [Untimed, untimed_packet]

theorem untimed_modWdt {b s : State} (h : Untimed b s) (c : CoreId) (f : Wdt → Wdt) : Untimed b (s.modWdt c f) := by
  unfold State.modWdt
  grind [Untimed]

theorem untimed_coreRelease {b s : State} (h : Untimed b s) (c : CoreId) : Untimed b (s.coreRelease c) := by
  unfold State.coreRelease
  grind [untimed_seating, untimed_haltPacket, untimed_modWdt]

theorem untimed_release {b s : State} (h : Untimed b s) (m : Fin 18) : Untimed b (s.release m) := by
  unfold State.release
  split
  · exact untimed_coreRelease h _
  · split
    · split
      · exact untimed_resumeAll (untimed_modTransit h _)
      · exact h
    · exact h

theorem untimed_releaseAll {b s : State} (h : Untimed b s) : Untimed b s.releaseAll := by
  have released := untimed_foldl (fun _ m hu => untimed_release hu m) (List.finRange 18) h
  unfold State.releaseAll
  dsimp only
  generalize (List.finRange 18).foldl State.release s = u at released ⊢
  have cores := untimed_allCores released fun _ k => { k with haltReq := none }
  generalize u.allCores _ = v at cores ⊢
  exact untimed_modDbg cores rfl

end Sys2Proof.Machine
end

