-- ==== Sys2Proof/Proofs/StartUp.lean ====
section
/-! SUPPORT. Start-up: what PORn_AON's release, the main reset's release and the PLLs' lock do with the held values (R412, R435). -/

set_option Elab.async false

namespace Sys2Proof.Machine

open Sys2Proof

/-! ## Held values that go into the ring's registers -/

/-- `s` is `b` but for the ring, and what running units change. -/
def OffRing (b s : State) : Prop := Untimed { b with ring := s.ring } s

theorem OffRing.refl (s : State) : OffRing s s := Untimed.refl s

theorem OffRing.then {b s t : State} (h : OffRing b s) (h2 : Untimed s t) : OffRing b t := by
  unfold OffRing Untimed at *
  grind

theorem offRing_modRing {b s : State} (h : OffRing b s) (f : Ring → Ring) : OffRing b (s.modRing f) := by
  unfold OffRing Untimed State.modRing at *
  grind

theorem offRing_modRp {b s : State} (h : OffRing b s) (p : PortId) (f : RingPort → RingPort) : OffRing b (s.modRp p f) := by
  unfold OffRing Untimed State.modRp at *
  grind

theorem untimed_linkEvents {b s : State} (h : Untimed b s) (old : Ring) : Untimed b (s.linkEvents old) := by
  refine untimed_foldl (fun t p ht => ?_) _ h
  dsimp only
  split
  · exact untimed_raise ht ..
  · exact ht

theorem offRing_linkEvents {b s : State} (h : OffRing b s) (old : Ring) : OffRing b (s.linkEvents old) :=
  h.then (untimed_linkEvents (.refl s) old)

theorem offRing_linkDown {b s : State} (h : OffRing b s) (p : PortId) : OffRing b (s.linkDown p) := by
  unfold State.linkDown
  grind [offRing_modRp, offRing_linkEvents]

theorem offRing_rpCtlWrite {b s : State} (h : OffRing b s) (p : PortId) (v : Word) : OffRing b (s.rpCtlWrite p v) := by
  unfold State.rpCtlWrite
  grind [offRing_modRp, offRing_linkEvents, offRing_linkDown]

/-- A register of the ring that is saved. -/
def Reg.heldOfRing (r : Reg) : Bool := match r with | .ringCtl | .ringEtype | .ringErrwin | .rpCtl _ | .msAsym _ => true | _ => false

theorem offRing_regWriteRaw {b s : State} (h : OffRing b s) {r : Reg} (hr : r.heldOfRing = true) (w : Agent) (v : Word) :
    OffRing b (s.regWriteRaw w r v) := by
  cases r <;> simp only [Reg.heldOfRing, Bool.false_eq_true] at hr
  case ringCtl => exact offRing_modRing h _
  case ringEtype => exact offRing_modRing h _
  case ringErrwin => exact offRing_modRing h _
  case rpCtl p => exact offRing_rpCtlWrite h p v
  case msAsym p => exact offRing_modRp h p _

theorem vesperHeld_ofRing : ∀ i ∈ vesperHeld, ∀ r ∈ heldReg i, r.heldOfRing = true := by decide +kernel

theorem offRing_writeHeld {b : State} (l : List (Fin 43)) (hl : ∀ i ∈ l, ∀ r ∈ heldReg i, r.heldOfRing = true) {s : State} (h : OffRing b s) :
    OffRing b (s.writeHeld l) := by
  induction l generalizing s with
  | nil => exact h
  | cons i l ih =>
    refine ih (fun j hj => hl j (List.mem_cons_of_mem i hj)) ?_
    dsimp only
    split
    · next r hr => exact offRing_regWriteRaw h (hl i List.mem_cons_self r hr) ..
    · exact h

/-! ## Held values that go into the main domain -/

/-- A register of the timebases and ports that is saved. -/
def Reg.heldOfPorts (r : Reg) : Bool := match r with | .tbCfg _ | .portCtl _ | .msCtl _ | .msSrc _ | .msDotper _ => true | _ => false

theorem untimed_regWriteRaw {b s : State} (h : Untimed b s) {r : Reg} (hr : r.heldOfPorts = true) (w : Agent) (v : Word) :
    Untimed b (s.regWriteRaw w r v) := by
  cases r <;> simp only [Reg.heldOfPorts, Bool.false_eq_true] at hr
  case tbCfg t => exact untimed_tbCfgWrite h t v
  case portCtl p => exact untimed_portCtl h p v
  case msCtl n => exact untimed_modMs h n _
  case msSrc n => exact untimed_modMs h n _
  case msDotper n => exact untimed_modMs h n _

def portsHeld : List (Fin 43) := (List.finRange 43).filter fun i => 13 ≤ i.val && i.val < 41

theorem mainHelds_split : mainHelds = portsHeld ++ [41, 42] := by decide +kernel

theorem portsHeld_ofPorts : ∀ i ∈ portsHeld, ∀ r ∈ heldReg i, r.heldOfPorts = true := by decide +kernel

theorem untimed_writeHeld {b : State} (l : List (Fin 43)) (hl : ∀ i ∈ l, ∀ r ∈ heldReg i, r.heldOfPorts = true) {s : State}
    (h : Untimed b s) : Untimed b (s.writeHeld l) := by
  induction l generalizing s with
  | nil => exact h
  | cons i l ih =>
    refine ih (fun j hj => hl j (List.mem_cons_of_mem i hj)) ?_
    dsimp only
    split
    · next r hr => exact untimed_regWriteRaw h (hl i List.mem_cons_self r hr) ..
    · exact h

/-- The dictionary but for what a running transfer has read. -/
def Dict.sansReads (d : Dict) : Dict := { d with flashGot := [], flashErr := false }

/-- `s` is `b` but for the cores, the flash port, and what a dictionary transfer has read. -/
def FlashOnly (b s : State) : Prop :=
  s = { b with core := s.core, flash := s.flash, dict := s.dict } ∧ s.dict.sansReads = b.dict.sansReads

theorem FlashOnly.refl (s : State) : FlashOnly s s := ⟨rfl, rfl⟩

theorem flashOnly_lineDone {b s : State} (h : FlashOnly b s) (r : FlashReq) (res : LineRes) : FlashOnly b (s.lineDone r res) := by
  unfold State.lineDone
  generalize r.users = l
  induction l generalizing s with
  | nil => exact h
  | cons u l ih =>
    refine ih ?_
    unfold FlashOnly Dict.sansReads State.modCore at *
    grind

theorem flashOnly_flCtl (s : State) (v : Word) : FlashOnly s (s.flCtl v) := by
  have one (l : List FlashReq) {u : State} (h : FlashOnly s u) : FlashOnly s (l.foldl (fun s r => s.lineDone r .flashErr) u) := by
    induction l generalizing u with
    | nil => exact h
    | cons r l ih => exact ih (flashOnly_lineDone h ..)
  unfold State.flCtl
  dsimp only
  split
  · exact ⟨rfl, rfl⟩
  · exact one _ ⟨rfl, rfl⟩

theorem writeHeld_append (s : State) (l m : List (Fin 43)) : s.writeHeld (l ++ m) = (s.writeHeld l).writeHeld m := List.foldl_append

/-- What the PLLs' lock finds after the held values are written. -/
theorem writeHeld_main (s : State) :
    let t := s.writeHeld mainHelds
    t.fabric.win = bits s.dict.held[(42 : Fin 43)] 27 5 ∧ t.spad = s.spad ∧ t.march = s.march ∧ t.dict.sansReads = s.dict.sansReads ∧
      t.power.unwoken = s.power.unwoken ∧ (s.power.mainRst = false → t.ring = s.ring) := by
  obtain ⟨u, hu⟩ : ∃ u, u = s.writeHeld portsHeld := ⟨_, rfl⟩
  have ports : Untimed s u := by rw [hu]; exact untimed_writeHeld _ portsHeld_ofPorts (.refl s)
  obtain ⟨f, hf⟩ : ∃ f, f = u.flCtl u.dict.held[(41 : Fin 43)] := ⟨_, rfl⟩
  have written : s.writeHeld mainHelds = f.fabWinWrite f.dict.held[(42 : Fin 43)] := by
    rw [mainHelds_split, writeHeld_append, ← hu, hf]
    rfl
  obtain ⟨flash, reads⟩ : FlashOnly u f := by rw [hf]; exact flashOnly_flCtl ..
  obtain ⟨-, spad, march, -, -, dict, -, -, -, power, -, ring⟩ := ports
  have held : f.dict.held = s.dict.held := (congrArg Dict.held reads :).trans (congrArg Dict.held dict :)
  have mainRst : u.power.mainRst = s.power.mainRst := (congrArg Power.mainRst power :)
  intro t
  have ht : t = f.fabWinWrite s.dict.held[(42 : Fin 43)] := by rw [← held]; exact written
  obtain ⟨cores, port, rest⟩ : ∃ cores port, t = { f with
      fabric := { f.fabric with win := bits s.dict.held[(42 : Fin 43)] 27 5 }, core := cores, flash := port } := by
    rw [ht]
    exact ⟨_, _, rfl⟩
  rw [rest]
  refine ⟨rfl, ?_, ?_, ?_, ?_, fun on => ?_⟩
  · exact show f.spad = _ by rw [flash]; exact spad
  · exact show f.march = _ by rw [flash]; exact march
  · exact reads.trans (congrArg Dict.sansReads dict)
  · exact show f.power.unwoken = _ by rw [flash]; exact power
  · refine show f.ring = _ from ?_
    rw [flash]
    exact ring.resolve_left (by rw [mainRst, on]; decide)

/-! ## The Nightlog's first row -/

/-- What the start of a row leaves of the log (R494). -/
def RowBegun (n m : Night) : Prop :=
  m.slots = n.slots ∧ m.param = n.param ∧ m.lcState = n.lcState ∧ m.newest = n.newest ∧ m.seq = n.seq ∧ (n.count = 0 → m.count = 0)

theorem rowBegun_kick (fuel : Nat) (n : Night) : RowBegun n (Night.kick fuel n) := by
  induction fuel generalizing n with
  | zero => exact ⟨rfl, rfl, rfl, rfl, rfl, id⟩
  | succ fuel ih =>
    have plain {m : Night} (slots : m.slots = n.slots) (param : m.param = n.param) (lc : m.lcState = n.lcState)
        (newest : m.newest = n.newest) (seq : m.seq = n.seq) (count : m.count ≤ n.count) : RowBegun n m :=
      ⟨slots, param, lc, newest, seq, fun h => Nat.le_zero.mp (h ▸ count)⟩
    have le (k : Nat) : (if n.counted k then n.count - 1 else n.count) ≤ n.count := by split <;> omega
    unfold Night.kick
    split
    · exact plain rfl rfl rfl rfl rfl le_rfl
    split
    · exact plain rfl rfl rfl rfl rfl le_rfl
    split
    · exact plain rfl rfl rfl rfl rfl le_rfl
    split
    · split
      · exact ih _
      · exact plain rfl rfl rfl rfl rfl (le _)
    split
    · exact plain rfl rfl rfl rfl rfl le_rfl
    split
    · exact plain rfl rfl rfl rfl rfl le_rfl
    · exact plain rfl rfl rfl rfl rfl le_rfl

/-- The level of the life cycle, and what the end of halts leaves (R462). -/
theorem dbgDefault_leaves (s : State) :
    s.dbgDefault.dbg.level = lcDefault s.night.lcState ∧
      Untimed (s.modDbg fun d => { d with level := lcDefault s.night.lcState }) s.dbgDefault := by
  have units : Untimed (s.modDbg fun d => { d with level := lcDefault s.night.lcState }) s.dbgDefault := by
    unfold State.dbgDefault State.setDbgLevel
    generalize s.modDbg _ = u
    have released : Untimed u (if lcDefault s.night.lcState ≠ 2 then u.releaseAll else u) := by
      split
      · exact untimed_releaseAll (.refl u)
      · exact .refl u
    dsimp only
    generalize (if lcDefault s.night.lcState ≠ 2 then u.releaseAll else u) = v at released ⊢
    split
    · exact untimed_traceSettle (untimed_modDbg released rfl)
    · exact released
  have keep := units
  obtain ⟨-, -, -, -, -, -, -, -, level, -, -, -⟩ := keep
  exact ⟨level, units⟩

theorem scan_keeps (n : Night) : n.scan.slots = n.slots ∧ n.scan.param = n.param := by
  unfold Night.scan
  dsimp only
  split <;> exact ⟨rfl, rfl⟩

/-- A log without records (R496). -/
theorem scan_empty {n : Night} (h : n.slots = []) : n.scan.count = 0 ∧ n.scan.newest = 1791 ∧ n.scan.seq = 1 := by
  unfold Night.scan
  rw [h]
  exact ⟨rfl, rfl, rfl⟩

/-- Without a current image the held values are the defaults (R412). -/
theorem loadHeld_defaults {s : State} (h : (s.night.current).1 = none) :
    (∀ i, s.loadHeld.dict.held[i] = heldDefault i) ∧ s.loadHeld.dict.stValid = false ∧ s.loadHeld.dict.bootAuto = false ∧
      s.loadHeld.dict.marchStartup = 1 := by
  have held : s.loadHeld.dict.held = Vector.ofFn heldDefault := by
    unfold State.loadHeld
    dsimp only
    rw [h]
    rfl
  refine ⟨fun i => ?_, ?_, ?_, ?_⟩
  · rw [held, Fin.getElem_fin, Vector.getElem_ofFn]
  · refine show (s.night.current).1.isSome = false from ?_
    rw [h]
    rfl
  · refine (congrArg (fun l : Vector Word 43 => l[0].getLsbD 0) held).trans ?_
    decide +kernel
  · refine (congrArg (fun l : Vector Word 43 => (bits l[1] 0 2 : BitVec 2).setWidth 8) held).trans ?_
    decide +kernel

/-- The start-up march of every bank (R283). -/
def March.startsUp (m : March) (startup : Byte) : March :=
  { m with runAlg := startup.getLsbD 1, busy := true, startup := true, destroying := true, runBanks := List.range 96,
           banks := List.range 96, slices := [], slice := none, stopping := false, elem := 0, defer := 0 }

/-- Step 6 begins the march that MARCH_STARTUP asks for, and no more (R435). -/
theorem step6_march (s : State) :
    (s.spad.initDone = false → s.power.wipePend = false → s.march.busy = false →
      s.step6.march = if s.dict.marchStartup.getLsbD 0 then s.march.startsUp s.dict.marchStartup else s.march) ∧
    s.step6 = { s with march := s.step6.march } := by
  unfold State.step6
  refine ⟨fun init wipe busy => ?_, ?_⟩
  · rw [if_neg (by rw [init, wipe, busy]; decide)]
    split <;> rfl
  · split
    · rfl
    · split <;> rfl

/-- Settles O45: the held values are written through `offRing_writeHeld` and `writeHeld_main`. -/
theorem startUpRuns : Obligations.StartUpRuns := by
  intro s
  refine ⟨fun por _ => ?_, fun por res en rst warn => ?_, fun rst run lock idle deferred => ?_, fun c run inv wait => ?_⟩
  · obtain ⟨u, hu⟩ : ∃ u, u = s.modPower fun p =>
      { p.want with pornAon := true, restored := true, state := .vesperOnly, wipePend := s.night.row0 } := ⟨_, rfl⟩
    obtain ⟨v, hv⟩ : ∃ v, v = u.loadHeld.writeHeld vesperHeld := ⟨_, rfl⟩
    obtain ⟨w, hw⟩ : ∃ w, w = v.modNight fun n =>
      { n.scan with lcState := lcOf n.lcRows, lcTorn := (List.finRange 3).any fun i => n.lcRows[i] == .torn } := ⟨_, rfl⟩
    have ran : exec .pornAonRelease s = .next w.dbgDefault.nvmKick := by
      refine (if_neg (by rw [por]; decide)).trans ?_
      rw [hw, hv, hu]
    obtain ⟨t, ht⟩ : ∃ t, t = w.dbgDefault.nvmKick := ⟨_, rfl⟩
    rw [← ht] at ran
    have loaded : OffRing u.loadHeld v := by
      rw [hv]
      exact offRing_writeHeld _ vesperHeld_ofRing (.refl _)
    obtain ⟨-, -, -, -, -, dict, night, -, -, power, -, -⟩ := loaded
    obtain ⟨level, units⟩ := dbgDefault_leaves w
    obtain ⟨-, -, -, -, -, dict', night', -, -, power', -, -⟩ := units
    have nightV : v.night = s.night := night.trans (by rw [hu]; rfl)
    have nightW : w.night = { s.night.scan with
        lcState := lcOf s.night.lcRows, lcTorn := (List.finRange 3).any fun i => s.night.lcRows[i] == .torn } := by
      rw [hw, ← nightV]
      rfl
    obtain ⟨slots, param, lc, newest, seq, count⟩ : RowBegun w.night t.night := by
      rw [ht, show w.dbgDefault.nvmKick.night = Night.kick 4 w.dbgDefault.night from rfl, night']
      exact rowBegun_kick 4 _
    have powerT : t.power.unwoken = u.power.unwoken := by
      rw [ht]
      exact power'.trans (by rw [hw]; exact power)
    have dictT : t.dict = u.loadHeld.dict := by
      rw [ht]
      exact dict'.trans (by rw [hw]; exact dict)
    have powerU : u.power = { s.power.want with pornAon := true, restored := true, state := .vesperOnly, wipePend := s.night.row0 } := by
      rw [hu]; rfl
    rw [powerU] at powerT
    obtain ⟨scanSlots, scanParam⟩ := scan_keeps s.night
    rw [nightW] at slots param lc newest seq count
    refine ⟨t, ran, (congrArg Power.pornAon powerT :), (congrArg Power.restored powerT :), (congrArg Power.state powerT :),
      (congrArg Power.wantMain powerT :), (congrArg Power.wipePend powerT :), (congrArg Power.mainRst powerT :), lc, slots.trans scanSlots,
      param.trans scanParam, ?_, fun none => ?_, fun none => ?_⟩
    · rw [ht]
      exact level.trans (by rw [nightW])
    · obtain ⟨zero, last, one⟩ := scan_empty none
      exact ⟨count zero, newest.trans last, seq.trans one⟩
    · rw [dictT]
      exact loadHeld_defaults (by rw [hu]; exact none)
  · refine (if_pos (by rw [por, res, en, rst]; rfl)).trans ?_
    rw [if_neg (by rw [State.modPower, warn]; decide)]
    rfl
  · obtain ⟨a, ha⟩ : ∃ a, a = s.modPower fun p => { p with lockA := true, lockB := true } := ⟨_, rfl⟩
    obtain ⟨w, hw⟩ : ∃ w, w = a.writeHeld mainHelds := ⟨_, rfl⟩
    obtain ⟨win, spad, march, reads, power, ring⟩ := writeHeld_main a
    rw [← hw] at win spad march reads power ring
    obtain ⟨x, hx⟩ : ∃ x, x = (w.modPower fun p => { p with heldDone := true }).modDict fun d => { d with bootWait := d.bootAuto } := ⟨_, rfl⟩
    obtain ⟨y, hy⟩ : ∃ y : State, y = { x with ring := { x.ring with deferred := [] } } := ⟨_, rfl⟩
    have ringW : w.ring = s.ring := (ring (by rw [ha]; exact rst)).trans (by rw [ha]; rfl)
    have ringY : y.ring = { s.ring with deferred := [] } := by rw [hy, hx, ← ringW]; rfl
    have none : x.raiseDeferred = y := by
      have l : x.ring.deferred = [] := by rw [hx, ← deferred, ← ringW]; rfl
      rw [State.raiseDeferred, l, hy]
      rfl
    have ran : exec .pllLock s = .next y.step6.ringKick := by
      refine (if_pos (by rw [rst, run, lock]; rfl)).trans ?_
      rw [← none, hx, hw, ha]
    have dictW : w.dict.sansReads = s.dict.sansReads := reads.trans (by rw [ha]; rfl)
    have dictY : y.dict.sansReads = { s.dict.sansReads with bootWait := s.dict.sansReads.bootAuto } := by
      rw [hy, hx, ← dictW]
      rfl
    have powerY : y.power.unwoken = { s.power.unwoken with lockA := true, lockB := true, heldDone := true } := by
      have powerW : w.power.unwoken = { s.power.unwoken with lockA := true, lockB := true } := power.trans (by rw [ha]; rfl)
      rw [hy, hx]
      exact congrArg (fun p : Power => { p with heldDone := true }) powerW
    obtain ⟨march6, rest⟩ := step6_march y
    have idle' : AgentIdle y.step6 := by
      obtain ⟨busy, cmds, resync, daccBusy, daccWait⟩ := idle
      rw [rest]
      unfold AgentIdle
      dsimp only
      rw [ringY]
      exact ⟨busy, cmds, resync, (congrArg Dict.daccBusy dictY :).trans daccBusy, (congrArg Dict.daccWait dictY :).trans daccWait⟩
    rw [ringKick_idle idle'] at ran
    refine ⟨y.step6, ran, ?_, ?_, ?_, ?_, ?_, fun init wipe busy => ?_⟩
    · rw [rest]; exact (congrArg Power.lockA powerY :)
    · rw [rest]; exact (congrArg Power.lockB powerY :)
    · rw [rest]; exact (congrArg Power.heldDone powerY :)
    · rw [rest]; exact (congrArg Dict.bootWait dictY :)
    · rw [rest]
      refine show y.fabric.win = _ from ?_
      rw [hy, hx, ← bits_eq_ofNat, ← show a.dict.held = s.dict.held by rw [ha]; rfl]
      exact win
    · have startup : y.dict.marchStartup = s.dict.marchStartup := (congrArg Dict.marchStartup dictY :)
      have marchY : y.march = s.march := by rw [hy, hx]; exact march.trans (by rw [ha]; rfl)
      have spadY : y.spad = s.spad := by rw [hy, hx]; exact spad.trans (by rw [ha]; rfl)
      have wipeY : y.power.wipePend = false := (congrArg Power.wipePend powerY :).trans wipe
      have march6 := march6 (by rw [spadY]; exact init) wipeY (by rw [marchY]; exact busy)
      rw [march6, startup, marchY]
      exact ⟨fun on => if_pos on, fun off => if_neg (by rw [off]; decide)⟩
  · refine (if_pos (by rw [run, inv]; rfl)).trans ?_
    have waits : ¬(s.modCore c fun k => { k with invBusy := false }).core[c].rstWait = true := by
      rw [Fin.getElem_fin, State.modCore_self]
      exact Bool.not_eq_true _ ▸ wait
    exact congrArg Host.Outcome.next (if_neg waits)

end Sys2Proof.Machine
end

