-- ==== Sys2Proof/Proofs/Wipes.lean ====
section
/-! SUPPORT. The wipe, the zeroing of the banks, and the write-back of corrected words (R265, R278 to R280). -/

set_option Elab.async false

namespace Sys2Proof.Machine

open Sys2Proof

/-! ## Words that become zero -/

theorem alGet_dropped {α : Type} (l : List (Nat × α)) (p : Nat → Bool) {a : Nat} (h : p a = false) :
    alGet (l.filter fun c => p c.1) a = none := by
  induction l with
  | nil => rfl
  | cons c l ih =>
    rw [List.filter_cons]
    split
    · next hc =>
      rw [alGet, if_neg (by rintro rfl; exact absurd (hc.symm.trans h) (by decide)), ih]
    · exact ih

/-- Where `p` holds, only a bank's default is left; elsewhere the list of bytes is as it was. -/
theorem zeroWhere_listed (m : Spad) (p : Nat → Bool) (a : Nat) :
    alGet (m.zeroWhere p).mem a = if p a then none else alGet m.mem a := by
  refine Eq.trans (b := alGet (m.mem.filter fun c => (fun k => !p k) c.1) a) rfl ?_
  by_cases h : p a = true
  · rw [if_pos h, alGet_dropped _ (fun k => !p k) (by rw [h]; rfl)]
  · rw [if_neg h, alGet_kept _ (fun k => !p k) a (by simpa using h)]

theorem mem_of_alGet {α : Type} {l : List (Nat × α)} {a : Nat} {v : α} (h : alGet l a = some v) : a ∈ l.map (·.1) := by
  by_contra far
  rw [alGet_unlisted l far] at h
  exact absurd h (by simp)

/-- The wipe leaves zeros in the secure region, and every other byte as it was (R278, R280). -/
theorem wiped_byte (m : Spad) (a : Nat) : m.wiped.byte a = if isSecure a then 0 else m.byte a := by
  have listed : alGet m.wiped.mem a = if isSecure a then none else alGet m.mem a := zeroWhere_listed m isSecure a
  unfold Spad.byte
  rw [listed]
  by_cases h : isSecure a = true
  · rw [if_pos h, if_pos h, Option.getD_none]
    unfold Spad.dflt
    rw [show m.wiped.undef = m.undef from rfl, show m.wiped.clean = m.undef.map (·.1) from rfl]
    split
    · next g hg => rw [if_pos (by rw [h, List.contains_iff_mem.mpr (mem_of_alGet hg)]; rfl)]
    · rfl
  · rw [if_neg h, if_neg h]
    congr 1
    unfold Spad.dflt
    rw [show m.wiped.undef = m.undef from rfl]
    split
    · rw [if_neg (by simp [h]), if_neg (by simp [h])]
    · rfl

theorem isSecure_iff (a : Nat) : isSecure a = true ↔ 0x02780000 ≤ a ∧ a < 0x02800000 := by
  unfold isSecure
  rw [Bool.and_eq_true, decide_eq_true_eq, decide_eq_true_eq]

/-! ## The start of a wipe (R103, R278) -/

/-- A reservation in the secure region goes. -/
def Ctx.unsecured (t : Ctx) : Ctx :=
  match t.rsv with
  | some g => if isSecure (32 * g) then { t with rsv := none } else t
  | none => t

theorem unsecured_rsv (t : Ctx) : t.unsecured = { t with
    rsv := match t.rsv with | some g => if 0x02780000 ≤ 32 * g ∧ 32 * g < 0x02800000 then none else some g | none => none } := by
  unfold Ctx.unsecured
  split
  · next g hg =>
    by_cases h : isSecure (32 * g) = true
    · rw [if_pos h, if_pos ((isSecure_iff _).mp h)]
    · rw [if_neg h, if_neg fun q => h ((isSecure_iff _).mpr q), ← hg]
  · next hg => rw [← hg]

/-- The state as a wipe begins, before the march engine's slice is looked at. -/
def State.wipeBegun (s : State) : State :=
  { s.allCores (fun _ k => k.allCtx fun _ t => t.unsecured) with spad := { s.spad with wiping := true } }

theorem wipeBegun_core (s : State) (c : CoreId) : s.wipeBegun.core[c] = (s.core[c]).allCtx fun _ t => t.unsecured := by
  simp only [State.wipeBegun, State.allCores, Fin.getElem_fin, Vector.getElem_ofFn]

theorem wipeBegun_ctx (s : State) (c : CoreId) (x : CtxId) : s.wipeBegun.ctx c x = (s.ctx c x).unsecured := by
  unfold State.ctx
  rw [wipeBegun_core]
  simp only [Core.allCtx, Fin.getElem_fin, Vector.getElem_ofFn]

theorem exec_wipeStart {s : State} (pend : s.power.wipePend = true) (due : s.spad.wipeDue = true ∨ s.spad.initDone = false)
    (runs : s.mainRuns = true) (awake : s.spad.asleep = false) (idle : s.spad.wiping = false) :
    exec .wipeStart s = match s.march.slice with
      | some sl => if isSecure (sliceWord sl.bank sl.index 0) then .next (s.wipeBegun.modMarch fun m => { m with slice := none }).sliceLeft
          else .next s.wipeBegun
      | none => .next s.wipeBegun := by
  refine (if_pos ?_).trans rfl
  rw [pend, runs, awake, idle]
  rcases due with h | h <;> simp [h]

/-! ## The end of a wipe -/

/-- Step 6 without a march: INITDONE, and at most a record (R280, R435). -/
theorem step6End_zeroed (s : State) : ∃ ng, s.step6End false = { s with spad := { s.spad with initDone := true }, night := ng } ∧
    ((∀ c : CoreId, s.core[c].chkFail = false) → s.step6End false = { s with spad := { s.spad with initDone := true } }) := by
  unfold State.step6End
  dsimp only
  split
  · next h =>
    refine ⟨_, rfl, fun good => ?_⟩
    have zero (l : List CoreId) : l.foldl (fun v c => if s.core[c].chkFail = true then v ||| (1#16 <<< c.val) else v) 0 = 0 := by
      induction l with
      | nil => rfl
      | cons c l ih => rw [List.foldl_cons, if_neg (by rw [good c]; decide), ih]
    rcases h with h | ⟨h, -⟩
    · exact absurd (zero _) h
    · exact absurd h (by decide)
  · exact ⟨s.night, rfl, fun _ => rfl⟩

/-- Settles O47: bytes by `wiped_byte`, reservations by `unsecured_rsv`. -/
theorem wipesAndZeroing : Obligations.WipesAndZeroing := by
  intro s m quiet
  refine ⟨fun a => ⟨fun mem free => ?_, fun no => ?_⟩, fun pend due runs awake idle => ⟨fun sl hs secure => ?_, fun far => ?_⟩,
    fun wiping init idle main => ?_, fun runs init march wipe idle quiet off => ?_⟩
  · exact if_pos (by rw [List.contains_iff_mem.mpr mem, free]; rfl)
  · refine if_neg fun h => ?_
    rw [Bool.and_eq_true, List.contains_iff_mem] at h
    rcases no with no | no
    · exact no h.1
    · exact absurd (h.2.symm.trans no) (by decide)
  · refine ⟨(s.wipeBegun.modMarch fun m => { m with slice := none }).sliceLeft, ?_, ?_, rfl⟩
    · rw [exec_wipeStart pend due runs awake idle, hs]
      exact if_pos secure
    · unfold State.sliceLeft State.modMarch
      dsimp only
      split
      · rfl
      · split <;> rfl
  · refine ⟨s.wipeBegun, ?_, rfl, fun c => ?_, fun c x => ?_⟩
    · rw [exec_wipeStart pend due runs awake idle]
      split
      · next sl hs => exact if_neg (by rw [far sl hs]; decide)
      · rfl
    · rw [wipeBegun_core]
      rfl
    · rw [wipeBegun_ctx]
      exact unsecured_rsv _
  · obtain ⟨u, hu⟩ : ∃ u, u = ({ s with spad := s.spad.wiped }.setWipePend false).countB 0x52 8192 := ⟨_, rfl⟩
    obtain ⟨ng, cn, hu'⟩ : ∃ ng cn, u = { s with
        spad := s.spad.wiped, power := { s.power with wipePend := false }, night := ng, counters := { s.counters with cnt := cn } } := by
      rw [hu]
      exact ⟨_, _, rfl⟩
    have mainU : u.power.mainRst = false := by rw [hu']; exact main
    obtain ⟨t, ht⟩ : ∃ t, t = u.raise 210 0 := ⟨_, rfl⟩
    have raised : Raised u t 210 0 := by rw [ht]; exact raise_raised 210 0 mainU (by decide +kernel)
    have only : SourcesOnly u t [210] := by rw [ht]; exact sourcesOnly_raise 210 0 mainU
    have ctx := only.ctx
    obtain ⟨-, -, rest⟩ := only
    have spad : t.spad = s.spad.wiped := by rw [rest, hu']
    have idle' : AgentIdle t ∧ t.fabric.held = [] := by rw [rest, hu']; exact idle
    have still : t.step6 = t := if_pos (by rw [spad, show s.spad.wiped.initDone = true from init]; rfl)
    have ran : exec .wipeDone s = .next t := by
      refine (if_pos wiping).trans ?_
      rw [← hu, ← ht, still, kick_idle idle'.1 idle'.2]
    refine ⟨t, ran, by rw [spad]; rfl, by rw [spad]; rfl, by rw [rest, hu'], fun a low high => ?_, fun a far => ?_, fun en => ?_,
      fun c x => ?_, by rw [rest, hu']⟩
    · rw [spad, wiped_byte, if_pos ((isSecure_iff a).mpr ⟨low, high⟩)]
    · rw [spad, wiped_byte, if_neg]
      rw [isSecure_iff]
      omega
    · exact (raised.1 (by rw [hu']; exact en)).1
    · rw [ctx, hu']
      rfl
  · obtain ⟨u, hu⟩ : ∃ u : State, u = { s with spad := { (s.spad.zeroWhere fun _ => true) with undef := [], clean := [] } } := ⟨_, rfl⟩
    obtain ⟨ng, rest, checked⟩ := step6End_zeroed u
    have idle' : AgentIdle (u.step6End false) ∧ (u.step6End false).fabric.held = [] := by rw [rest, hu]; exact quiet
    have ran : exec .zeroingDone s = .next (u.step6End false) := by
      refine (if_pos (by rw [runs, init, march, wipe, idle, off]; rfl)).trans ?_
      rw [← hu, kick_idle idle'.1 idle'.2]
    have none (l : List Nat) : l.filter (fun _ => !true) = [] := List.filter_eq_nil_iff.mpr fun _ _ => by decide
    refine ⟨_, ran, by rw [rest], ?_, ?_, fun a => ?_, fun good => ?_⟩
    · rw [rest, hu]; exact none _
    · rw [rest, hu]; exact none _
    · rw [rest, hu]
      refine show (alGet (s.spad.zeroWhere fun _ => true).mem a).getD 0 = 0 from ?_
      rw [zeroWhere_listed]
      rfl
    · rw [checked fun c => by rw [hu]; exact good c, hu]

end Sys2Proof.Machine
end

