-- ==== Sys2Proof/Proofs/MarchRuns.lean ====
section
/-! SUPPORT. Runs of the march engine: MARCH_CTL, slices and elements, and what a run leaves in its banks (R265, R282 to R288). -/

set_option Elab.async false

namespace Sys2Proof.Machine

open Sys2Proof

/-! ## MARCH_CTL -/

theorem marchBits_getLsbD (v n : Word) (hn : n.toNat < 4) {i : Nat} (low : 2 ≤ i) (high : i < 32) : (marchBits v n).getLsbD i = v.getLsbD i := by
  have mask : (0xFFFFFFFC : Word).getLsbD i = true := by
    revert i; decide
  have zero : n.getLsbD i = false := by
    rw [BitVec.getLsbD]
    exact Nat.testBit_lt_two_pow (Nat.lt_of_lt_of_le hn (Nat.pow_le_pow_right (n := 2) (i := 2) (by decide) low))
  rw [marchBits, BitVec.getLsbD_or, BitVec.getLsbD_and, mask, zero, Bool.and_true, Bool.or_false]
theorem marchBits_cmd (v : Word) : (bits (marchBits v 1) 0 2).toNat = 1 ∧ (bits (marchBits v 2) 0 2).toNat = 2 := by
  constructor
  · have : (bits (marchBits v 1) 0 2 : BitVec 2) = 1 := by
      unfold bits marchBits
      ext i hi
      have : i = 0 ∨ i = 1 := by omega
      rcases this with rfl | rfl <;> simp
    rw [this]; rfl
  · have : (bits (marchBits v 2) 0 2 : BitVec 2) = 2 := by
      unfold bits marchBits
      ext i hi
      have : i = 0 ∨ i = 1 := by omega
      rcases this with rfl | rfl <;> simp
    rw [this]; rfl
theorem marchBits_gap (v n : Word) (hn : n.toNat < 4) : (bits (marchBits v n) 8 8 : Byte) = BitVec.ofNat 8 (v.toNat / 256) := by
  rw [show v.toNat / 256 = v.toNat / 2 ^ 8 from rfl, ← bits_eq_ofNat v 8 8]
  unfold bits
  ext i hi
  simp only [BitVec.getElem_setWidth, BitVec.getLsbD_ushiftRight]
  exact marchBits_getLsbD v n hn (by omega) (by omega)

/-- The fields of MARCH_CTL that a write takes beside its command. -/
def March.ctlWrite (v : Word) (m : March) : March :=
  { m with alg := v.getLsbD 2, mode := v.getLsbD 3, gap := BitVec.ofNat 8 (v.toNat / 256), cont := v.getLsbD 16 }

theorem marchCtl_fields (s : State) (v n : Word) (hn : n.toNat < 4) :
    (s.modMarch fun m => { m with alg := (marchBits v n).getLsbD 2, mode := (marchBits v n).getLsbD 3, gap := bits (marchBits v n) 8 8,
                                  cont := (marchBits v n).getLsbD 16 }) = s.modMarch (March.ctlWrite v) := by
  rw [marchBits_getLsbD v n hn (by decide) (by decide), marchBits_getLsbD v n hn (by decide) (by decide),
    marchBits_getLsbD v n hn (by decide) (by decide), marchBits_gap v n hn]
  rfl

theorem exec_marchStart {s : State} {w : Agent} (may : MayWrite s w .marchCtl) (v : Word) :
    exec (.marchStart w v) s = .next (s.modMarch (March.ctlWrite v)).marchStart := by
  refine congrArg Host.Outcome.next ((writeBy_may (by decide +kernel) may (marchBits v 1)).trans ?_)
  obtain ⟨one, -⟩ := marchBits_cmd v
  refine (show s.regWrite w .marchCtl (marchBits v 1) = s.marchCtl (marchBits v 1) from rfl).trans ?_
  unfold State.marchCtl
  dsimp only
  rw [one, marchCtl_fields s v 1 (by decide)]
  rfl

theorem exec_marchStop {s : State} {w : Agent} (may : MayWrite s w .marchCtl) (v : Word) :
    exec (.marchStop w v) s = .next (s.modMarch (March.ctlWrite v)).marchStop := by
  refine congrArg Host.Outcome.next ((writeBy_may (by decide +kernel) may (marchBits v 2)).trans ?_)
  obtain ⟨-, two⟩ := marchBits_cmd v
  refine (show s.regWrite w .marchCtl (marchBits v 2) = s.marchCtl (marchBits v 2) from rfl).trans ?_
  unfold State.marchCtl
  dsimp only
  rw [two, marchCtl_fields s v 2 (by decide)]
  rfl

/-! ## Runs begin and are stopped (R287, R288) -/

/-- A run has begun on `banks`. -/
def March.began (m : March) (banks : List Nat) (ss destroying : Bool) : March :=
  { m with busy := true, startup := false, destroying := destroying, runAlg := ss, runBanks := banks, banks := banks, slices := [],
           aborts := [], stopping := false, slice := none, elem := 0, defer := 0 }

theorem marchStart_refused {s : State} (h : s.march.busy = true ∨ s.march.mode = true ∧ ∃ b ∈ s.march.selected, s.bankCounted b = true) :
    s.marchStart = s.modMarch fun m => { m with refused := true } := by
  refine if_pos ?_
  rcases h with h | ⟨mode, b, mem, counted⟩
  · rw [h, Bool.true_or]
  · rw [mode, List.any_eq_true.mpr ⟨b, mem, counted⟩, Bool.true_and, Bool.or_true]

theorem marchStart_runs {s : State} (idle : s.march.busy = false)
    (free : s.march.mode = true → ∀ b ∈ s.march.selected, s.bankCounted b = false) :
    s.marchStart = s.marchRun s.march.selected s.march.alg s.march.mode := by
  refine if_neg fun h => ?_
  rw [idle, Bool.false_or, Bool.and_eq_true, List.any_eq_true] at h
  obtain ⟨mode, b, mem, counted⟩ := h
  exact absurd (counted.symm.trans (free mode b mem)) (by decide)

/-- A destroying run's writes reach reservations in its banks (R103). -/
def Ctx.bankWritten (banks : List Nat) (t : Ctx) : Ctx :=
  match t.rsv with
  | some g => if banks.contains (bankOf (32 * g)) then { t with rsv := none } else t
  | none => t

theorem bankWritten_rsv (banks : List Nat) (t : Ctx) :
    t.bankWritten banks = { t with rsv := t.rsv.bind fun g => if bankOf (32 * g) ∈ banks then none else some g } := by
  unfold Ctx.bankWritten
  split
  · next g hg =>
    rw [hg, Option.bind_some]
    by_cases h : bankOf (32 * g) ∈ banks
    · rw [if_pos h, if_pos (List.contains_iff_mem.mpr h)]
    · rw [if_neg h, if_neg fun q => h (List.contains_iff_mem.mp q), ← hg]
  · next hg => rw [hg, Option.bind_none, ← hg]

theorem bankWrites_core (s : State) (banks : List Nat) (c : CoreId) : (s.bankWrites banks).core[c] =
    { s.core[c] with
      ctx := (s.bankWrites banks).core[c].ctx
      fvecOk := if banks.any (fun b => b / 4 == c.val && b < 64) then Vector.replicate 8 false else s.core[c].fvecOk } := by
  simp only [State.bankWrites, State.allCores, Fin.getElem_fin, Vector.getElem_ofFn]
  split <;> rfl

theorem bankWrites_ctx (s : State) (banks : List Nat) (c : CoreId) (x : CtxId) :
    (s.bankWrites banks).ctx c x = (s.ctx c x).bankWritten banks := by
  simp only [State.ctx, State.bankWrites, State.allCores, Fin.getElem_fin, Vector.getElem_ofFn, Core.allCtx]
  by_cases local_ : (banks.any fun b => b / 4 == c.val && decide (b < 64)) = true
  · simp only [if_pos local_]
    rfl
  · simp only [if_neg local_]
    rfl

/-- The slice that the engine borrows. -/
def State.borrowedSlice (s : State) (b k : Nat) : Slice :=
  { bank := b, index := k, phase := 0, shadow := (List.range 64).map fun i => s.spad.word (sliceWord b k i) }

theorem sliceCount_pos (b : Nat) : 0 < sliceCount b := by
  unfold sliceCount
  split <;> decide

/-- The next slice, where the first bank of the list may be tested (R284). -/
theorem nextSlice_first {s : State} {b : Nat} {rest : List Nat} (banks : s.march.banks = b :: rest) (free : s.bankCounted b = false) {k : Nat}
    {ks : List Nat} (slices : (if s.march.slices = [] then List.range (sliceCount b) else s.march.slices) = k :: ks) :
    s.nextSlice = { s with march := { s.march with
      banks := s.march.banks, slices := ks, defer := if b < 64 then s.march.defer &&& ~~~(1#16 <<< (b / 4)) else s.march.defer,
      bank := BitVec.ofNat 7 b, slice := some (s.borrowedSlice b k) } } := by
  have away : s.march.banks.takeWhile s.bankCounted = [] := by rw [banks, List.takeWhile_cons, if_neg (by rw [free]; decide)]
  have left : s.march.banks.dropWhile s.bankCounted = b :: rest := by rw [banks, List.dropWhile_cons, if_neg (by rw [free]; decide)]
  have order : (if ([] : List Nat).isEmpty && !s.march.slices.isEmpty then s.march.slices else List.range (sliceCount b)) = k :: ks := by
    rw [← slices]
    cases s.march.slices <;> rfl
  unfold State.nextSlice
  rw [away, left]
  dsimp only
  split
  · next k' ks' h =>
    obtain ⟨rfl, rfl⟩ := List.cons.inj (order.symm.trans h)
    rw [banks, List.append_nil]
    rfl
  · next h => exact absurd (order.symm.trans h) (by simp)

theorem marchRun_preserving {s : State} {b : Nat} {rest : List Nat} (free : s.bankCounted b = false) (ss : Bool) :
    s.marchRun (b :: rest) ss false = { s with march := { s.march.began (b :: rest) ss false with
      slices := (List.range (sliceCount b)).drop 1, bank := BitVec.ofNat 7 b, slice := some (s.borrowedSlice b 0) } } := by
  obtain ⟨u, hu⟩ : ∃ u, u = s.modMarch fun m => m.began (b :: rest) ss false := ⟨_, rfl⟩
  have first : (if u.march.slices = [] then List.range (sliceCount b) else u.march.slices) = 0 :: (List.range (sliceCount b)).drop 1 := by
    rw [hu]
    refine (if_pos rfl).trans ?_
    obtain ⟨n, hn⟩ := Nat.exists_eq_succ_of_ne_zero (sliceCount_pos b).ne'
    rw [hn, List.range_succ_eq_map]
    rfl
  have next := nextSlice_first (s := u) (by rw [hu]; rfl) (by rw [hu]; exact free) first
  refine (show s.marchRun (b :: rest) ss false = u.nextSlice by rw [hu]; rfl).trans (next.trans ?_)
  have none : (if b < 64 then u.march.defer &&& ~~~(1#16 <<< (b / 4)) else u.march.defer) = 0 := by
    rw [hu]
    split
    · exact BitVec.zero_and
    · rfl
  rw [none, hu]
  rfl

/-- A STOP leaves a destroying run's banks undefined, and no other byte (R288). -/
theorem marchStop_byte {s : State} (destroying : s.march.destroying = true) {a : Nat} (far : bankOf a ∉ s.march.banks) :
    s.marchStop.spad.byte a = s.spad.byte a := by
  by_cases busy : s.march.busy = true
  · unfold State.marchStop
    rw [if_neg (by rw [busy]; decide), if_pos destroying]
    have out : (s.march.banks.contains (bankOf a)) = false := by simpa using far
    have listed : alGet (s.spad.mem.filter fun c => !s.march.banks.contains (bankOf c.1)) a = alGet s.spad.mem a :=
      alGet_kept s.spad.mem (fun k => !s.march.banks.contains (bankOf k)) a (by rw [out]; rfl)
    have clean : (s.spad.clean.filter fun b => !s.march.banks.contains b).contains (bankOf a) = s.spad.clean.contains (bankOf a) := by
      rw [Bool.eq_iff_iff]
      simp only [List.contains_iff_mem, List.mem_filter]
      simp [far]
    unfold Spad.byte Spad.dflt
    dsimp only
    rw [listed, alGet_stops _ _ _ _ far, clean]
  · exact congrArg (fun u : State => u.spad.byte a) (if_pos (by simpa using busy))

theorem marchStop_destroying {s : State} (busy : s.march.busy = true) (destroying : s.march.destroying = true) :
    s.marchStop.march = { s.march with banks := [], stopping := true } ∧ s.marchStop.core = s.core := by
  unfold State.marchStop
  rw [if_neg (by rw [busy]; decide), if_pos destroying]
  exact ⟨rfl, rfl⟩

/-- A STOP lets a preserving run end with its slice (R288). -/
theorem marchStop_preserving {s : State} (busy : s.march.busy = true) (keep : s.march.destroying = false) :
    s.marchStop = if s.march.slice.isNone then
        s.modMarch fun m => { m with stopping := true, defer := 0, banks := [], slices := [] }
      else s.modMarch fun m => { m with stopping := true, defer := 0 } := by
  unfold State.marchStop
  rw [if_neg (by rw [busy]; decide), if_neg (by rw [keep]; decide)]
  rfl

/-! ## Elements and slices (R284, R285) -/

/-- What waits for the borrowed slice is served, where no unit waits (R285). -/
def Slice.served (sl : Slice) : Slice := { sl with serves16 := sl.asks16, asks16 := false, window := false }

/-- Contexts that wait for the slice may issue again. -/
def ServedOnly (s t : State) : Prop :=
  (∀ c x, t.ctx c x = { s.ctx c x with served := (t.ctx c x).served }) ∧ ∃ core, t = { s with core := core }

theorem serveSlice_only (s : State) : ServedOnly s s.serveSlice := by
  have one (b : Bool) (u : Ctx) : (if b = true then { u with served := some .slice } else u) =
      { u with served := (if b = true then { u with served := some .slice } else u).served } := by
    cases b <;> rfl
  refine ⟨fun c x => ?_, _, rfl⟩
  simp only [State.ctx, State.serveSlice, State.allCores, Fin.getElem_fin, Vector.getElem_ofFn, Core.allCtx]
  split
  · exact one _ _
  · rfl

theorem slaveKick_idle {s : State} (held : s.fabric.held = []) : s.slaveKick = s := by rw [State.slaveKick, held, List.foldl_nil]

theorem serveAll_idle {s : State} (idle : AgentIdle s) (held : s.fabric.held = []) {sl : Slice} (slice : s.march.slice = some sl) (b : Nat) :
    ∃ u, ServedOnly s u ∧ s.serveAll b = { u with march := { s.march with slice := some sl.served } } := by
  obtain ⟨ctx, core, hu⟩ := serveSlice_only s
  refine ⟨s.serveSlice, ⟨ctx, core, hu⟩, ?_⟩
  obtain ⟨v, hv⟩ : ∃ v, v = s.serveSlice.modMarch fun m =>
    { m with slice := m.slice.map fun x => { x with serves16 := x.asks16, asks16 := false, window := true } } := ⟨_, rfl⟩
  have idleV : AgentIdle v := by rw [hv, hu]; exact idle
  have heldV : v.fabric.held = [] := by rw [hv, hu]; exact held
  unfold State.serveAll
  dsimp only
  rw [← hv, ringKick_idle idleV, slaveKick_idle heldV, ringKick_idle idleV]
  have closed : (v.modMarch fun m => { m with slice := m.slice.map fun x => { x with window := false } }) =
      { s.serveSlice with march := { s.march with slice := some sl.served } } := by
    rw [hv, hu]
    unfold State.modMarch
    dsimp only
    rw [slice]
    rfl
  split <;> exact closed

/-- The slice as the end of an element, or of its saving, leaves it. -/
def Slice.onward (sl : Slice) : Slice :=
  if sl.phase < 6 then { sl with phase := sl.phase + 1, serves16 := sl.asks16, asks16 := false, window := false }
  else { sl with phase := sl.phase + 1 }

/-- The engine can take a step: a run, no wipe, and the banks awake (R270, R281). -/
abbrev Marching (s : State) : Prop := s.march.busy = true ∧ s.spad.wiping = false ∧ s.spad.asleep = false

theorem marching_goes {s : State} (h : Marching s) : ¬(!s.march.busy || s.spad.wiping || s.spad.asleep) = true := by
  obtain ⟨busy, wiping, asleep⟩ := h
  rw [busy, wiping, asleep]
  decide

theorem satAdd_none {n : Nat} (v : BitVec n) : satAdd v 0 = v := by
  unfold satAdd
  rw [if_pos (by have := v.isLt; omega), Nat.add_zero, BitVec.ofNat_toNat, BitVec.setWidth_eq]

/-- A slice without an uncorrectable word is saved; its single-bit errors are counted (R265, R284). -/
theorem saveSlice_good {s : State} {sl : Slice} (good : ∀ i < 64, s.spad.check (sliceWord sl.bank sl.index i) ≠ 2) :
    ∃ e, s.saveSlice sl = ({ s with spad := { s.spad with ecnt := e } }, []) ∧
      ((∀ i < 64, s.spad.check (sliceWord sl.bank sl.index i) = 0) → e = s.spad.ecnt) := by
  have none : ((List.range 64).map fun i => sliceWord sl.bank sl.index i).filter (fun w => s.spad.check w == 2) = [] := by
    rw [List.filter_eq_nil_iff]
    rintro w hw two
    obtain ⟨i, hi, rfl⟩ := List.mem_map.mp hw
    exact good i (List.mem_range.mp hi) (beq_iff_eq.mp two)
  refine ⟨satAdd s.spad.ecnt ((((List.range 64).map fun i => sliceWord sl.bank sl.index i).filter fun w => s.spad.check w == 1).length), ?_,
    fun clean => ?_⟩
  · unfold State.saveSlice
    dsimp only
    rw [none]
    rfl
  · have zero : ((List.range 64).map fun i => sliceWord sl.bank sl.index i).filter (fun w => s.spad.check w == 1) = [] := by
      rw [List.filter_eq_nil_iff]
      rintro w hw one
      obtain ⟨i, hi, rfl⟩ := List.mem_map.mp hw
      exact absurd ((clean i (List.mem_range.mp hi)).symm.trans (beq_iff_eq.mp one)) (by decide)
    rw [zero]
    exact satAdd_none _

theorem misread_none (ss : Bool) (e : Nat) : misread ss e [] = [] := by
  unfold misread
  split
  · rfl
  · next d l _ =>
    dsimp only [List.filter_nil]
    cases d with
    | either => rfl
    | up => exact congrArg (List.map Prod.fst) List.mergeSort_nil
    | down => exact congrArg (List.map Prod.fst) List.mergeSort_nil

/-- A read that does not give what its element expects is a failure of its word (R282, R288). -/
theorem misread_one {ss : Bool} {e a k : Nat} {got x : Word} {d : MarchDir} {l : List MarchOp} {o : MarchOp}
    (element : (marchElements ss)[e]? = some (d, l)) (op : l[k]? = some o) (expects : o.expects = some x) (wrong : got ≠ x) :
    misread ss e [(a, k, got)] = [a] := by
  have differs : (x != got) = true := bne_iff_ne.mpr wrong.symm
  unfold misread
  rw [element]
  simp only [List.filter_cons, List.filter_nil, op, Option.bind_some, expects, differs, if_true]
  cases d with
  | either => rfl
  | up => exact congrArg (List.map Prod.fst) (List.mergeSort_singleton _)
  | down => exact congrArg (List.map Prod.fst) (List.mergeSort_singleton _)

/-! ## A slice is put back (R284) -/

/-- One word of the shadow buffer goes back to its bank. -/
def Spad.putBack (addr : Nat → Nat) (m : Spad) (p : Nat × Word) : Spad :=
  if m.word (addr p.1) = p.2 ∧ m.check (addr p.1) = 0 then m else m.store (addr p.1) p.2 0xF

theorem word_byte {m : Spad} {w j : Nat} {v : Word} (h : m.word w = v) (hj : j < 4) : m.byte (w + j) = bits v (8 * j) 8 := by
  refine BitVec.eq_of_getLsbD_eq fun i hi => ?_
  have := spad_word_getLsbD m w (8 * j + i) (by omega)
  rw [show (8 * j + i) / 8 = j by omega, show (8 * j + i) % 8 = i by omega, h] at this
  rw [← this, bits, BitVec.getLsbD_setWidth, BitVec.getLsbD_ushiftRight, decide_eq_true hi, Bool.true_and]

theorem word_of_bytes {m : Spad} {w : Nat} {v : Word} (h : ∀ j < 4, m.byte (w + j) = bits v (8 * j) 8) : m.word w = v := by
  refine BitVec.eq_of_getLsbD_eq fun i hi => ?_
  rw [spad_word_getLsbD m w i hi, h (i / 8) (by omega), bits, BitVec.getLsbD_setWidth, BitVec.getLsbD_ushiftRight,
    decide_eq_true (by omega), Bool.true_and, show 8 * (i / 8) + i % 8 = i by omega]

theorem putBack_byte (addr : Nat → Nat) (m : Spad) (p : Nat × Word) (a : Nat) : (m.putBack addr p).byte a =
    if addr p.1 ≤ a ∧ a < addr p.1 + 4 then bits p.2 (8 * (a - addr p.1)) 8 else m.byte a := by
  unfold Spad.putBack
  split
  · next h =>
    split
    · next inside =>
      have := word_byte h.1 (j := a - addr p.1) (by omega)
      rwa [show addr p.1 + (a - addr p.1) = a by omega] at this
    · rfl
  · rw [store_byte]
    by_cases inside : addr p.1 ≤ a ∧ a < addr p.1 + 4
    · have lane : (0xF : BitVec 4).getLsbD (a - addr p.1) = true := by
        have : ∀ j < 4, (0xF : BitVec 4).getLsbD j = true := by decide
        exact this _ (by omega)
      rw [if_pos ⟨inside.1, inside.2, lane⟩, if_pos inside]
    · rw [if_neg fun h => inside ⟨h.1, h.2.1⟩, if_neg inside]

theorem putBacks_far (addr : Nat → Nat) (l : List (Nat × Word)) (m : Spad) {a : Nat}
    (far : ∀ p ∈ l, a < addr p.1 ∨ addr p.1 + 4 ≤ a) : (l.foldl (Spad.putBack addr) m).byte a = m.byte a := by
  induction l generalizing m with
  | nil => rfl
  | cons p l ih =>
    rw [List.foldl_cons, ih _ fun q hq => far q (List.mem_cons_of_mem p hq), putBack_byte, if_neg]
    have := far p List.mem_cons_self
    omega

/-- Words that do not overlap are all put back. -/
theorem putBacks_word (addr : Nat → Nat) {l : List (Nat × Word)}
    (apart : l.Pairwise fun p q => addr p.1 + 4 ≤ addr q.1) (m : Spad) {p : Nat × Word} (hp : p ∈ l) :
    (l.foldl (Spad.putBack addr) m).word (addr p.1) = p.2 := by
  induction l generalizing m with
  | nil => cases hp
  | cons q l ih =>
    obtain ⟨head, tail⟩ := List.pairwise_cons.mp apart
    rcases List.mem_cons.mp hp with rfl | hp
    · refine word_of_bytes fun j hj => ?_
      rw [List.foldl_cons, putBacks_far _ _ _ fun r hr => .inl (by have := head r hr; omega), putBack_byte, if_pos (by omega),
        Nat.add_sub_cancel_left]
    · exact ih tail _ hp

theorem sliceWord_apart (b k : Nat) {i j : Nat} (h : i < j) : sliceWord b k i + 4 ≤ sliceWord b k j := by
  unfold sliceWord
  split <;> omega

theorem sliceRestore_some {s : State} {sl : Slice} (slice : s.march.slice = some sl) (skip : sl.skip = false) :
    s.sliceRestore = { s with
      spad := ((List.range 64).zip sl.shadow).foldl (Spad.putBack (sliceWord sl.bank sl.index)) s.spad,
      march := { s.march with slice := none } } := by
  unfold State.sliceRestore
  rw [slice]
  dsimp only
  rw [if_neg (by rw [skip]; decide)]
  rfl

theorem sliceLeft_eq (s : State) : ∃ mr, mr.slice = s.march.slice ∧ s.sliceLeft = { s with march := mr } := by
  refine ⟨_, ?_, rfl⟩
  dsimp only
  split
  · rfl
  · split <;> rfl

theorem zip_apart (b k : Nat) {shadow : List Word} (len : shadow.length = 64) :
    ((List.range 64).zip shadow).Pairwise fun p q => sliceWord b k p.1 + 4 ≤ sliceWord b k q.1 := by
  have rising : (((List.range 64).zip shadow).map Prod.fst).Pairwise (· < ·) := by
    rw [List.map_fst_zip (by rw [len, List.length_range])]
    exact List.pairwise_lt_range
  exact (List.pairwise_map.mp rising).imp fun h => sliceWord_apart b k h

/-! ## Elements that end -/

/-- The slice goes on to its next phase, and what waited for it is served (R285). -/
theorem slice_onward {s : State} (idle : AgentIdle s) (held : s.fabric.held = []) {sl : Slice} (phase : sl.phase < 6) (b : Nat) :
    ∃ u, ServedOnly s u ∧
      (s.modMarch fun m => { m with slice := some { sl with phase := sl.phase + 1 } }).serveAll b =
        { u with march := { s.march with slice := some sl.onward } } := by
  obtain ⟨v, hv⟩ : ∃ v, v = s.modMarch fun m => { m with slice := some { sl with phase := sl.phase + 1 } } := ⟨_, rfl⟩
  obtain ⟨u, ⟨ctx, core, rest⟩, served⟩ :=
    serveAll_idle (s := v) (by rw [hv]; exact idle) (by rw [hv]; exact held) (by rw [hv]; rfl) b
  refine ⟨{ s with core := core }, ⟨fun c x => ?_, core, rfl⟩, ?_⟩
  · have := ctx c x
    rw [rest, hv] at this
    exact this
  · rw [← hv, served, rest, hv]
    unfold Slice.onward
    rw [if_pos phase]
    rfl

/-- The end of an element, or of a slice's saving, where no read failed. -/
theorem exec_elementEnd_save {s : State} {sl : Slice} (go : Marching s) (slice : s.march.slice = some sl) (phase : sl.phase = 0)
    {e : BitVec 16} (saved : s.saveSlice sl = ({ s with spad := { s.spad with ecnt := e } }, [])) :
    exec (.marchElementEnd []) s = .next ((({ s with spad := { s.spad with ecnt := e } } : State).modMarch fun m =>
      { m with slice := some { sl with phase := sl.phase + 1 } }).serveAll sl.bank) := by
  refine (if_neg (marching_goes go)).trans ?_
  rw [slice]
  dsimp only
  rw [if_neg (by omega), if_pos phase, saved, phase]
  rfl

/-- The state after the element's failures are recorded. -/
def State.failures (s : State) (l : List Nat) : State := l.foldl State.marchFail s

theorem exec_elementEnd_test {s : State} {sl : Slice} (go : Marching s) (slice : s.march.slice = some sl) (low : 1 ≤ sl.phase)
    (high : sl.phase ≤ 6) {got : List (Nat × Nat × Word)} (mine : ∀ r ∈ got, bankOf r.1 = sl.bank ∧ (sliceOf r.1).1 = sl.index) {l : List Nat}
    (fails : misread s.march.runAlg (sl.phase - 1) got = l) :
    exec (.marchElementEnd got) s = .next (
      let t := (s.failures l).modMarch fun m => { m with slice := some { sl with phase := sl.phase + 1 } }
      if sl.phase < 6 then t.serveAll sl.bank else t) := by
  have all : got.filter (fun r => bankOf r.1 == sl.bank && (sliceOf r.1).1 == sl.index) = got := by
    rw [List.filter_eq_self]
    intro r hr
    obtain ⟨bank, index⟩ := mine r hr
    rw [bank, index, BEq.rfl, BEq.rfl]
    rfl
  refine (if_neg (marching_goes go)).trans ?_
  rw [slice]
  dsimp only
  rw [if_neg (by omega), if_neg (by omega), all, fails]
  rfl

/-- The engine's step from a state whose only news is a failure. -/
theorem element_goes {s : State} (idle : AgentIdle s) (held : s.fabric.held = []) (sl : Slice) :
    ∃ u, ServedOnly s u ∧
      (let t := s.modMarch fun m => { m with slice := some { sl with phase := sl.phase + 1 } }
       if sl.phase < 6 then t.serveAll sl.bank else t) = { u with march := { s.march with slice := some sl.onward } } := by
  by_cases phase : sl.phase < 6
  · obtain ⟨u, only, eq⟩ := slice_onward idle held phase sl.bank
    exact ⟨u, only, (if_pos phase).trans eq⟩
  · refine ⟨s, ⟨fun _ _ => rfl, s.core, rfl⟩, (if_neg phase).trans ?_⟩
    unfold Slice.onward
    rw [if_neg phase]
    rfl

theorem failed_bit (v : Vector Word 3) (i : Fin 3) (k : Nat) (hk : k < 32) :
    ((v.set i (v[i] ||| (1#32 <<< k)))[i]).getLsbD k = true := by
  rw [Fin.getElem_fin, Vector.getElem_set_self, BitVec.getLsbD_or, BitVec.getLsbD_shiftLeft]
  simp [hk]

/-! ## The end of a run -/

theorem zeroed_byte (m : Spad) (banks : List Nat) (a : Nat) :
    ({ (m.zeroWhere fun a => banks.contains (bankOf a)) with undef := m.undef.filter (fun b => !banks.contains b.1) } : Spad).byte a =
      if bankOf a ∈ banks then 0 else m.byte a := by
  have listed := zeroWhere_listed m (fun a => banks.contains (bankOf a)) a
  unfold Spad.byte Spad.dflt
  dsimp only
  rw [listed]
  by_cases h : bankOf a ∈ banks
  · rw [if_pos h, if_pos (List.contains_iff_mem.mpr h), alGet_dropped m.undef (fun b => !banks.contains b)]
    · rfl
    · rw [List.contains_iff_mem.mpr h]; rfl
  · have out : banks.contains (bankOf a) = false := by simpa using h
    rw [if_neg h, if_neg (by rw [out]; decide), alGet_kept m.undef (fun b => !banks.contains b) _ (by rw [out]; rfl)]
    rfl

/-- The engine at the end of a run (R288). -/
def March.ended (m : March) : March :=
  { m with busy := false, done := true, banks := [], slices := [], slice := none, stopping := false, destroying := false, defer := 0 }

/-- The banks of a run as its end leaves them (R282). -/
def State.runCleared (s : State) : State :=
  if s.march.destroying then
    { s with spad := { (s.spad.zeroWhere fun a => s.march.banks.contains (bankOf a)) with
      undef := s.spad.undef.filter (fun b => !s.march.banks.contains b.1) } }
  else s

/-- A run that does not begin again ends, and raises its source (R288, R325). -/
theorem marchEnd_once {s : State} (once : s.march.cont = false ∨ s.march.destroying = true ∨ s.march.stopping = true) :
    s.marchEnd = (s.runCleared.modMarch March.ended).raise 209 s.march.ended.stat := by
  have off : (s.march.cont && !s.march.destroying && !s.march.stopping) = false := by
    rcases once with h | h | h <;> simp [h]
  unfold State.marchEnd State.runCleared
  dsimp only
  rw [off]
  refine (if_neg (by decide)).trans ?_
  split <;> rfl

/-- What MARCH_RUN_END leaves. -/
theorem exec_runEnd {s : State} (may : s.marchMayEnd = true) (startup : s.march.startup = false) (main : s.power.mainRst = false)
    (idle : AgentIdle s) (held : s.fabric.held = [])
    (once : s.march.cont = false ∨ s.march.destroying = true ∨ s.march.stopping = true) :
    ∃ t, exec .marchRunEnd s = .next t ∧ t.march = s.march.ended ∧ ((s.src 209).en = true → (t.src 209).pend = true) ∧
      (∀ c x, t.ctx c x = s.ctx c x) ∧ t.spad = s.runCleared.spad := by
  obtain ⟨u, hu⟩ : ∃ u, u = s.runCleared.modMarch March.ended := ⟨_, rfl⟩
  have same : ∃ m, u = { s with spad := m, march := s.march.ended } ∧ m = s.runCleared.spad := by
    rw [hu]
    unfold State.runCleared
    split
    · exact ⟨_, rfl, rfl⟩
    · exact ⟨_, rfl, rfl⟩
  obtain ⟨m, rest, cleared⟩ := same
  obtain ⟨t, ht⟩ : ∃ t, t = u.raise 209 s.march.ended.stat := ⟨_, rfl⟩
  have mainU : u.power.mainRst = false := by rw [rest]; exact main
  have raised : Raised u t 209 s.march.ended.stat := by rw [ht]; exact raise_raised 209 _ mainU (by decide +kernel)
  have only : SourcesOnly u t [209] := by rw [ht]; exact sourcesOnly_raise 209 _ mainU
  have ctx := only.ctx
  obtain ⟨-, -, eq⟩ := only
  have idleT : AgentIdle t := by rw [eq, rest]; exact idle
  have heldT : t.fabric.held = [] := by rw [eq, rest]; exact held
  have ran : exec .marchRunEnd s = .next t := by
    refine (if_pos may).trans ?_
    rw [startup, if_neg (by decide), marchEnd_once once, ← hu, ← ht, kick_idle idleT heldT]
  refine ⟨t, ran, by rw [eq, rest], fun en => (raised.1 (by rw [rest]; exact en)).1, fun c x => ?_, by rw [eq, rest, cleared]⟩
  rw [ctx, rest]
  rfl

/-- Settles O48: MARCH_CTL by `exec_marchStart` and `exec_marchStop`, elements by `element_goes`, ends by `exec_runEnd`. -/
theorem marchRunsTest : Obligations.MarchRunsTest := by
  intro s w v m ctl banks runs quiet borrowed onward
  have ctl_eq (m : March) : m.ctlWrite v = ctl m := rfl
  refine ⟨fun may => ⟨fun busy => ?_, fun idle mode counted => ?_, fun idle mode free => ?_, fun b rest idle mode sel free => ?_,
    fun busy destroying going => ?_, fun busy keep => ⟨fun slice => ?_, fun slice => ?_⟩⟩, fun sl go quiet slice => ⟨fun zero good => ?_,
    fun low high => ⟨?_, fun a k got x d l o bank index element op expects wrong fresh main => ?_⟩⟩, fun go slice destroying few => ?_,
    fun stop got => ?_, fun sl go quiet keep slice phase skip len _ _ => ?_, fun b rest k ks go keep slice banks slices free => ?_,
    fun busy wiping startup main quiet => ⟨fun destroying done => ?_, fun keep banks slice once => ?_⟩⟩
  · exact (exec_marchStart may v).trans (congrArg Host.Outcome.next (marchStart_refused (s := s.modMarch (March.ctlWrite v)) (.inl busy)))
  · exact (exec_marchStart may v).trans (congrArg Host.Outcome.next
      (marchStart_refused (s := s.modMarch (March.ctlWrite v)) (.inr ⟨mode, counted⟩)))
  · have begun := marchStart_runs (s := s.modMarch (March.ctlWrite v)) idle fun _ => free
    obtain ⟨u, hu⟩ : ∃ u : State, u = { s with march := (ctl m).began banks (v.getLsbD 2) true } := ⟨_, rfl⟩
    have ran : exec (.marchStart w v) s = .next (u.bankWrites banks) := by
      rw [exec_marchStart may, begun, hu, State.marchRun]
      refine congrArg Host.Outcome.next ?_
      rw [show (s.modMarch (March.ctlWrite v)).march.mode = true from mode]
      rfl
    refine ⟨_, ran, by rw [hu]; rfl, fun c => ?_, fun c x => ?_⟩
    · rw [bankWrites_core, hu]
    · rw [bankWrites_ctx, bankWritten_rsv, hu]
      rfl
  · have begun := marchStart_runs (s := s.modMarch (March.ctlWrite v)) idle fun on => absurd (on.symm.trans mode) (by decide)
    have ran := marchRun_preserving (s := s.modMarch (March.ctlWrite v)) (rest := rest) (show s.bankCounted b = false from free) (v.getLsbD 2)
    rw [show (s.modMarch (March.ctlWrite v)).march.mode = false from mode,
      show (s.modMarch (March.ctlWrite v)).march.selected = b :: rest from sel] at begun
    have final := (exec_marchStart may v).trans (congrArg Host.Outcome.next (begun.trans ran))
    exact ⟨_, final, rfl, rfl, rfl, rfl, sel.symm, rfl, rfl, rfl⟩
  · obtain ⟨march, core⟩ := marchStop_destroying (s := s.modMarch (March.ctlWrite v)) busy destroying
    refine ⟨_, exec_marchStop may v, march, fun a far => marchStop_byte (s := s.modMarch (March.ctlWrite v)) destroying far, fun c x => ?_⟩
    unfold State.ctx
    rw [core]
    rfl
  · exact (exec_marchStop may v).trans (congrArg Host.Outcome.next
      ((marchStop_preserving (s := s.modMarch (March.ctlWrite v)) busy keep).trans
        (if_neg fun h => slice (Option.isNone_iff_eq_none.mp h))))
  · exact (exec_marchStop may v).trans (congrArg Host.Outcome.next
      ((marchStop_preserving (s := s.modMarch (March.ctlWrite v)) busy keep).trans (if_pos (Option.isNone_iff_eq_none.mpr slice))))
  · obtain ⟨e, saved, clean⟩ := saveSlice_good good
    obtain ⟨idle, held⟩ := quiet
    obtain ⟨u, ⟨ctx, core, hu⟩, eq⟩ := slice_onward (s := { s with spad := { s.spad with ecnt := e } }) idle held (sl := sl) (by omega) sl.bank
    refine ⟨_, (exec_elementEnd_save go slice zero saved).trans (congrArg Host.Outcome.next eq), rfl, by rw [hu], fun all => ?_, ctx⟩
    rw [hu]
    exact congrArg (fun n => { s.spad with ecnt := n }) (clean all)
  · obtain ⟨idle, held⟩ := quiet
    obtain ⟨u, ⟨ctx, core, hu⟩, eq⟩ := element_goes idle held sl
    refine ⟨_, (exec_elementEnd_test go slice low high (by simp) (misread_none _ _)).trans (congrArg Host.Outcome.next eq), rfl, by rw [hu], ctx⟩
  · obtain ⟨idle, held⟩ := quiet
    obtain ⟨u, hu⟩ : ∃ u : State, u = { s with march := { m with
        fail := true, fails := satInc m.fails, faddr := BitVec.ofNat 32 a, faddrSet := true
        failed := m.failed.set (bankOf a / 32 % 3) (m.failed[(⟨bankOf a / 32 % 3, by omega⟩ : Fin 3)] ||| (1#32 <<< (bankOf a % 32))) } } := ⟨_, rfl⟩
    obtain ⟨f, hf⟩ : ∃ f, f = u.raise 208 (BitVec.ofNat 32 a) := ⟨_, rfl⟩
    have mainU : u.power.mainRst = false := by rw [hu]; exact main
    have raised : Raised u f 208 (BitVec.ofNat 32 a) := by rw [hf]; exact raise_raised 208 _ mainU (by decide +kernel)
    have only : SourcesOnly u f [208] := by rw [hf]; exact sourcesOnly_raise 208 _ mainU
    obtain ⟨-, -, rest⟩ := only
    have failed : s.failures [a] = f := by
      rw [hf, hu]
      refine (show s.failures [a] = s.marchFail a from rfl).trans ?_
      unfold State.marchFail State.modMarch
      dsimp only
      rw [if_neg (by rw [fresh]; decide)]
    obtain ⟨w, ⟨ctx, core, hw⟩, eq⟩ := element_goes (s := f) (by rw [rest, hu]; exact idle) (by rw [rest, hu]; exact held) sl
    have ran := exec_elementEnd_test go slice low high (got := [(a, k, got)]) (by simpa using ⟨bank, index⟩)
      (misread_one element op expects wrong)
    rw [failed] at ran
    refine ⟨_, ran.trans (congrArg Host.Outcome.next eq), ?_⟩
    have march : f.march = u.march := by rw [rest]
    have spad : w.spad = s.spad := by rw [hw, rest, hu]
    have src (n : Nat) : w.src n = f.src n := by rw [hw]; rfl
    have srcS (n : Nat) : u.src n = s.src n := by rw [hu]; rfl
    rw [march, hu]
    refine ⟨rfl, rfl, rfl, spad, ?_, rfl, fun en => ?_⟩
    · exact failed_bit m.failed ⟨bankOf a / 32 % 3, by omega⟩ (bankOf a % 32) (Nat.mod_lt _ (by decide))
    · obtain ⟨pend, payload⟩ := raised.1 ((congrArg Source.en (srcS 208)).trans en)
      exact ⟨(congrArg Source.pend (src 208)).trans pend, (congrArg Source.payload (src 208)).trans payload⟩
  · refine (if_neg (marching_goes go)).trans ?_
    rw [slice]
    dsimp only
    rw [if_pos (by rw [destroying, decide_eq_true few]; rfl), List.filter_nil, misread_none]
    change Host.Outcome.next (s.modMarch fun m => { m with elem := m.elem + 1 }) = _
    unfold State.modMarch
    rw [← slice]
  · have shut : (!s.march.busy || s.spad.wiping || s.spad.asleep) = true := by
      rcases stop with h | h <;> simp [h]
    refine ⟨if_pos shut, if_pos ?_⟩
    rcases stop with h | h <;> simp [h]
  · obtain ⟨idle, held⟩ := quiet
    obtain ⟨mr, none, left⟩ := sliceLeft_eq (s.sliceRestore.countB 0x53)
    have rest : (s.sliceRestore.countB 0x53).sliceLeft =
        { s with spad := s.sliceRestore.spad, march := mr, counters := (s.sliceRestore.countB 0x53).counters } := by
      rw [left, sliceRestore_some slice skip]
      rfl
    have none : mr.slice = Option.none := by
      rw [none, sliceRestore_some slice skip]
      rfl
    have ran : exec .marchSliceEnd s = .next (s.sliceRestore.countB 0x53).sliceLeft := by
      refine (if_neg (by obtain ⟨busy, wiping, asleep⟩ := go; rw [show s.march.busy = true from busy,
        show s.march.destroying = false from keep, wiping, asleep]; decide)).trans ?_
      rw [slice]
      refine (if_pos phase).trans ?_
      rw [rest]
      exact congrArg Host.Outcome.next (kick_idle (s := { s with
        spad := s.sliceRestore.spad, march := mr, counters := (s.sliceRestore.countB 0x53).counters }) idle held)
    rw [rest] at ran
    have spad := congrArg State.spad (sliceRestore_some slice skip)
    have lists (i : Nat) (hi : i < 64) : (i, sl.shadow.getD i 0) ∈ (List.range 64).zip sl.shadow := by
      rw [List.mem_iff_getElem]
      refine ⟨i, by rw [List.length_zip, List.length_range, len]; exact hi, ?_⟩
      rw [List.getElem_zip, List.getElem_range, List.getD_eq_getElem _ _ (by omega)]
    refine ⟨_, ran, fun i hi => ?_, fun a far => ?_, none, fun _ _ => rfl⟩
    · dsimp only
      rw [spad]
      have back := putBacks_word (sliceWord sl.bank sl.index) (zip_apart sl.bank sl.index len) s.spad (lists i hi)
      exact back
    · dsimp only
      rw [spad]
      refine putBacks_far _ _ _ fun p hp => ?_
      obtain ⟨hp, -⟩ := List.of_mem_zip hp
      exact far p.1 (List.mem_range.mp hp)
  · have next := nextSlice_first banks free ((if_neg (by rw [slices]; simp)).trans slices)
    have ran : exec .marchSliceEnd s = .next s.nextSlice := by
      refine (if_neg (by obtain ⟨busy, wiping, asleep⟩ := go; rw [show s.march.busy = true from busy,
        show s.march.destroying = false from keep, wiping, asleep]; decide)).trans ?_
      rw [slice]
    rw [next] at ran
    exact ⟨_, ran, rfl, rfl, rfl, rfl⟩
  · have may : s.marchMayEnd = true := by
      unfold State.marchMayEnd
      rw [show s.march.busy = true from busy, wiping, if_pos destroying]
      rcases done with h | h
      · rw [show s.march.stopping = true from h]; rfl
      · rw [show s.march.elem = 6 from h, BEq.rfl, Bool.or_true]; rfl
    obtain ⟨idle, held⟩ := quiet
    obtain ⟨t, ran, march, src, ctx, spad⟩ := exec_runEnd may startup main idle held (.inr (.inl destroying))
    have cleared (a : Nat) : t.spad.byte a = if bankOf a ∈ s.march.banks then 0 else s.spad.byte a := by
      rw [spad, State.runCleared, if_pos destroying]
      exact zeroed_byte ..
    exact ⟨t, ran, ⟨march, src, ctx⟩, fun a h => (cleared a).trans (if_pos h), fun a h => (cleared a).trans (if_neg h)⟩
  · have may : s.marchMayEnd = true := by
      unfold State.marchMayEnd
      rw [show s.march.busy = true from busy, wiping, if_neg (by rw [show s.march.destroying = false from keep]; decide),
        show s.march.banks = [] from banks, show s.march.slice = none from slice]
      rfl
    obtain ⟨idle, held⟩ := quiet
    obtain ⟨t, ran, march, src, ctx, spad⟩ := exec_runEnd may startup main idle held (once.elim .inl fun h => .inr (.inr h))
    refine ⟨t, ran, ⟨march, src, ctx⟩, spad.trans ?_⟩
    rw [State.runCleared, if_neg (by rw [show s.march.destroying = false from keep]; decide)]

end Sys2Proof.Machine
end

