-- ==== Sys2Proof/Proofs/Sources.lean ====
section
/-! SUPPORT. What raises event sources, and writes of EV_SRCs (R325 to R329, R339, R340, R349, R350). -/

set_option Elab.async false

namespace Sys2Proof.Machine

open Sys2Proof

/-! ## A raise (R326, R339) -/

theorem raise_now {s : State} (main : s.power.mainRst = false) (n : Fin 512) (p : Word) : s.raise n p = s.raiseNow n.val p :=
  if_neg (by rw [main]; decide)

/-- What a raise counts in its source. -/
theorem raiseAt_counts {s : State} {n : Nat} (en : (s.src n).en = true) (known : srcKind n ≠ .reserved) (p : Word)
    (ts : Bool × Word × BitVec 16) :
    ((s.raiseAt n p ts).src n).mrg = (if (s.src n).pend then satInc (s.src n).mrg else (s.src n).mrg) ∧
      ((s.src n).pend = true → (s.src n).cls = false → s.core[(s.src n).core].qfull = true →
        ((s.raiseAt n p ts).src n).merged = true ∧ ((s.raiseAt n p ts).src n).ovf = satInc (s.src n).ovf) := by
  have open_ : ¬(!(s.src n).en || srcKind n == .reserved) = true := by simp [en, known]
  unfold State.raiseAt
  rw [if_neg open_]
  by_cases pend : (s.src n).pend = true
  · rw [if_pos pend, if_pos pend]
    split
    · exact ⟨by rw [src_modCore, src_setSrc_self], fun _ _ _ => by rw [src_modCore, src_setSrc_self]; exact ⟨rfl, rfl⟩⟩
    · next quick =>
      refine ⟨by rw [src_setSrc_self], fun _ cls full => absurd ?_ quick⟩
      rw [cls, full]
      rfl
  · rw [if_neg pend, if_neg pend, src_setSrc_self]
    exact ⟨rfl, fun h => absurd h pend⟩

/-! ## Levels (R326, R329) -/

theorem lvlOf_prog {n : Nat} (prog : srcKind n = .prog) (v : Source) : lvlOf n v = (v.level ^^ v.inv) := by
  unfold lvlOf
  rw [prog]

/-- Of the event unit, only source `n` differs. -/
def OneSource (n : Nat) (s t : State) : Prop := (∀ m, m ≠ n → t.src m = s.src m) ∧ t.ev = { s.ev with src := t.ev.src }

theorem OneSource.trans {n : Nat} {s t u : State} (h1 : OneSource n s t) (h2 : OneSource n t u) : OneSource n s u := by
  obtain ⟨src1, ev1⟩ := h1
  obtain ⟨src2, ev2⟩ := h2
  exact ⟨fun m hm => (src2 m hm).trans (src1 m hm), by rw [ev2, ev1]⟩

theorem SourcesOnly.one {n : Nat} {s t : State} (h : SourcesOnly s t [n]) : OneSource n s t := by
  obtain ⟨src, -, rest⟩ := h
  exact ⟨fun m hm => src m (by simpa using hm), by rw [rest]⟩

theorem oneSource_wentQuiet (n : Nat) (s : State) (v : Source) : OneSource n s (s.wentQuiet v) := by
  refine ⟨fun m _ => wentQuiet_src s v m, ?_⟩
  unfold State.wentQuiet
  split
  · split
    · rfl
    · rw [State.countB_ev]; rfl
  · rfl

/-- An input's level reaches no other source. -/
theorem oneSource_setLevel (s : State) (n : Fin 512) (level : Bool) (p : Word) : OneSource n.val s (s.setLevel n level p) := by
  have refl (u : State) : OneSource n.val u u := ⟨fun _ _ => rfl, rfl⟩
  have set (u : State) (v : Source) : OneSource n.val u (u.setSrc n.val v) := (sourcesOnly_setSrc ..).one
  have raise (u : State) : OneSource n.val u (u.raiseNow n.val p) := (sourcesOnly_raiseAt ..).one
  unfold State.setLevel
  dsimp only
  split
  · exact refl s
  split
  · exact set ..
  split
  · split
    · split
      · exact (set ..).trans (raise _)
      · exact set ..
    · exact ((set ..).trans (set ..)).trans (oneSource_wentQuiet ..)
  · split
    · exact (set ..).trans (raise _)
    · exact set ..

theorem isLevel_prog {n : Nat} (prog : srcKind n = .prog) (v : Source) : isLevel n v = (v.kind == 3) := by
  unfold isLevel
  rw [prog]
  rfl

/-- A programmable source that is enabled and upright, at a change of its input (R326, R329). -/
theorem setLevel_prog {s : State} (main : s.power.mainRst = false) {n : Fin 512} (prog : srcKind n.val = .prog) (level : Bool) (p : Word)
    (en : (s.src n.val).en = true) (change : (s.src n.val).level ≠ level) (inv : (s.src n.val).inv = false) :
    let u := s.src n.val
    let t := s.setLevel n level p
    (u.kind = 0 → u.pend = false → (t.src n.val).pend = level) ∧ (u.kind = 1 → u.pend = false → (t.src n.val).pend = !level) ∧
      (u.kind = 2 → (t.src n.val).pend = true) ∧ (u.kind = 3 → u.out = none → u.pend = false → (t.src n.val).pend = level) := by
  obtain ⟨v, hv⟩ : ∃ v, v = s.setSrc n.val { s.src n.val with level := level } := ⟨_, rfl⟩
  have self : v.src n.val = { s.src n.val with level := level } := by rw [hv, src_setSrc_self]
  have raised : ((v.raiseNow n.val p).src n.val).pend = true :=
    (raiseAt_pending v n.val p _ (by rw [self]; exact en) (by rw [prog]; decide)).1
  have eq : s.setLevel n level p = if (s.src n.val).kind == 3 then
        (if level then (if (s.src n.val).out.isNone then v.raiseNow n.val p else v)
         else (v.setSrc n.val { v.src n.val with pend := false, mrg := 0 }).wentQuiet (s.src n.val))
      else if (s.src n.val).kind == 2 || ((s.src n.val).kind == 0 && level) || ((s.src n.val).kind == 1 && !level) then v.raiseNow n.val p
      else v := by
    have was : lvlOf n.val (s.src n.val) = (s.src n.val).level := by rw [lvlOf_prog prog, inv, Bool.xor_false]
    have now : lvlOf n.val { s.src n.val with level := level } = level := by rw [lvlOf_prog prog, inv, Bool.xor_false]
    unfold State.setLevel
    rw [if_neg (by rw [main]; decide)]
    dsimp only
    rw [was, now, if_neg change, isLevel_prog prog, ← hv, prog]
    rfl
  intro u t
  rw [show t = _ from eq]
  refine ⟨fun kind low => ?_, fun kind low => ?_, fun kind => ?_, fun kind none low => ?_⟩
  · rw [show (s.src n.val).kind = 0 from kind]
    cases level
    · exact (congrArg Source.pend self).trans low
    · exact raised
  · rw [show (s.src n.val).kind = 1 from kind]
    cases level
    · exact raised
    · exact (congrArg Source.pend self).trans low
  · rw [show (s.src n.val).kind = 2 from kind]
    exact raised
  · rw [show (s.src n.val).kind = 3 from kind, show (s.src n.val).out = Option.none from none]
    cases level
    · refine (congrArg Source.pend (wentQuiet_src ..)).trans ?_
      rw [src_setSrc_self]
    · exact raised

theorem level_known {n : Nat} {v : Source} (h : isLevel n v = true) : srcKind n ≠ .reserved := by
  intro known
  rw [isLevel, known] at h
  exact absurd h Bool.false_ne_true

theorem lvlOf_upright {n : Nat} {u v : Source} (level : isLevel n u = true) (inv : v.inv = false) : lvlOf n v = v.level := by
  unfold isLevel at level
  unfold lvlOf
  split
  · rfl
  · rw [inv, Bool.xor_false]
  · next other1 other2 =>
    cases kind : srcKind n <;> simp_all

/-- The input of a source rises. -/
theorem setLevel_high {s : State} (main : s.power.mainRst = false) {n : Fin 512} (level : isLevel n.val (s.src n.val) = true)
    (inv : (s.src n.val).inv = false) (p : Word) :
    SourcesOnly s (s.setLevel n true p) [n.val] ∧ ((s.src n.val).level = false → (s.src n.val).en = true → (s.src n.val).out = none →
      ((s.setLevel n true p).src n.val).pend = true ∧ ((s.setLevel n true p).src n.val).payload = p) := by
  obtain ⟨u, hu⟩ : ∃ u, u = s.setSrc n.val { s.src n.val with level := true } := ⟨_, rfl⟩
  have set : SourcesOnly s u [n.val] := by rw [hu]; exact sourcesOnly_setSrc ..
  have self : u.src n.val = { s.src n.val with level := true } := by rw [hu, src_setSrc_self]
  have raised : SourcesOnly s (u.raiseNow n.val p) [n.val] := set.trans (sourcesOnly_raiseAt ..)
  have now (v : Source) (hv : v.inv = false) : lvlOf n.val v = v.level := lvlOf_upright level hv
  have eq : s.setLevel n true p =
      if (s.src n.val).level = true then u else if (s.src n.val).out.isNone then u.raiseNow n.val p else u := by
    unfold State.setLevel
    rw [if_neg (by rw [main]; decide)]
    dsimp only
    rw [now (s.src n.val) inv, now { s.src n.val with level := true } inv, ← hu, if_pos level]
    rfl
  rw [eq]
  refine ⟨?_, fun low en none => ?_⟩
  · split
    · exact set
    · split
      · exact raised
      · exact set
  · rw [if_neg (by rw [low]; decide), if_pos (by rw [none]; rfl)]
    exact raiseAt_pending u n.val p _ (by rw [self]; exact en) (level_known level)

theorem evtIn_prog : ∀ k : Fin 32, srcKind (368 + k.val) = .prog := by decide

/-- An input as sampled. -/
theorem inputBit (v : Word) (k : Fin 32) (b : Bool) {j : Nat} (hj : j < 32) :
    (if b then v ||| (1#32 <<< k.val) else v &&& ~~~(1#32 <<< k.val)).getLsbD j = if j = k.val then b else v.getLsbD j := by
  have one : (1#32 <<< k.val).getLsbD j = decide (j = k.val) := by
    simp only [BitVec.getLsbD_shiftLeft, BitVec.getLsbD_one]
    by_cases h : j = k.val
    · simp [h]
    · simp only [h, decide_false]
      by_cases low : j < k.val
      · simp [low]
      · simp only [low, decide_false, Bool.not_false, Bool.true_and, hj, decide_true]
        exact decide_eq_false (by omega)
  cases b
  · rw [if_neg Bool.false_ne_true, BitVec.getLsbD_and, BitVec.getLsbD_not, one, decide_eq_true hj]
    by_cases h : j = k.val <;> simp [h]
  · rw [if_pos rfl, BitVec.getLsbD_or, one]
    by_cases h : j = k.val <;> simp [h]

theorem timerSrc_kind : ∀ n : Fin 32, srcKind (112 + n.val) ≠ .reserved := by decide

theorem swSrc_kind : ∀ k : Fin 16, srcKind (400 + k.val) ≠ .reserved := by decide

/-- The raises of one write of EV_SWSET (R350). -/
def State.swRaises (s : State) (v p : Word) (l : List (Fin 16)) : State :=
  l.foldl (fun s k => if v.getLsbD k.val then s.raise ⟨400 + k.val, by omega⟩ p else s) s

/-- What a software source's record says of the writer (R350). -/
def State.swPayload (s : State) (w : Agent) : Word := match w with | .ctx c x => s.coreId c x | _ => 0x7F00

theorem swset_raises (s : State) (w : Agent) (v : Word) : s.swset w v = s.swRaises v (s.swPayload w) (List.finRange 16) := by
  cases w <;> rfl

theorem swRaises_reach (v p : Word) (l : List (Fin 16)) (nodup : l.Nodup) {s : State} (main : s.power.mainRst = false) :
    SourcesOnly s (s.swRaises v p l) ((List.range 16).map (400 + ·)) ∧
      (∀ k : Fin 16, k ∉ l ∨ v.getLsbD k.val = false → (s.swRaises v p l).src (400 + k.val) = s.src (400 + k.val)) ∧
      (∀ k : Fin 16, k ∈ l → v.getLsbD k.val = true → (s.src (400 + k.val)).en = true →
        ((s.swRaises v p l).src (400 + k.val)).pend = true ∧ ((s.swRaises v p l).src (400 + k.val)).payload = p) := by
  induction l generalizing s with
  | nil => exact ⟨.refl s _, fun _ _ => rfl, fun k hk => absurd hk (by simp)⟩
  | cons j l ih =>
    obtain ⟨fresh, nodup⟩ := List.nodup_cons.mp nodup
    obtain ⟨u, hu⟩ : ∃ u, u = if v.getLsbD j.val then s.raise ⟨400 + j.val, by omega⟩ p else s := ⟨_, rfl⟩
    have next : s.swRaises v p (j :: l) = u.swRaises v p l := by rw [hu]; rfl
    have only : SourcesOnly s u [400 + j.val] := by
      rw [hu]
      split
      · exact sourcesOnly_raise ⟨400 + j.val, by omega⟩ p main
      · exact .refl s _
    have mainU : u.power.mainRst = false := by
      obtain ⟨-, -, rest⟩ := only
      rw [rest]
      exact main
    obtain ⟨reach, kept, pending⟩ := ih nodup mainU
    have other (k : Fin 16) (hk : k ≠ j) : u.src (400 + k.val) = s.src (400 + k.val) :=
      only.1 _ fun h => hk (Fin.ext (by simpa using h))
    rw [next]
    refine ⟨SourcesOnly.trans (only.mono fun n hn => ?_) reach, fun k hk => ?_, fun k hk on en => ?_⟩
    · rw [List.mem_singleton.mp hn]
      exact List.mem_map.mpr ⟨j.val, List.mem_range.mpr j.isLt, rfl⟩
    · by_cases same : k = j
      · subst same
        have off := hk.resolve_left fun h => h List.mem_cons_self
        rw [kept k (.inr off), hu, if_neg (by rw [off]; decide)]
      · exact (kept k (hk.imp_left fun h => fun m => h (List.mem_cons_of_mem j m))).trans (other k same)
    · by_cases same : k = j
      · subst same
        rw [kept k (.inl fresh), hu, if_pos on]
        exact (raise_raised ⟨400 + k.val, by omega⟩ p main (swSrc_kind k)).1 en
      · exact pending k ((List.mem_cons.mp hk).resolve_left same) on (by rw [other k same]; exact en)

/-- A write of EV_SRCs that clears CLS of a pulse source (R328). -/
theorem evSrcWrite_pulse {s : State} {n : SrcId} (pulse : srcKind n.val = .pulse) (v : Word) (cls : v.getLsbD 1 = false) :
    s.evSrcWrite n v = s.setSrc n.val
      { s.src n.val with
        en := v.getLsbD 0, cls := false, fslot := (bits v 2 3).toFin, core := (bits v 8 4).toFin, inv := false
        pend := (s.src n.val).pend && v.getLsbD 0, mrg := if v.getLsbD 0 then (s.src n.val).mrg else 0
        merged := (s.src n.val).merged && v.getLsbD 0 } := by
  have open_ : ¬srcKind n.val = .reserved := by rw [pulse]; decide
  have plain : (srcKind n.val == .prog) = false := by rw [pulse]; rfl
  have edge (q : Source) : isLevel n.val q = false := by rw [isLevel, pulse]; rfl
  have still (u : State) : u.levelCheck n.val = u := by
    unfold State.levelCheck
    dsimp only
    rw [edge]
    rfl
  unfold State.evSrcWrite
  rw [if_neg open_]
  dsimp only
  rcases Bool.eq_false_or_eq_true (v.getLsbD 0) with en | en <;>
    simp only [still, plain, cls, en, edge, Bool.and_false, Bool.and_true, Bool.false_and, Bool.false_eq_true, if_false, if_true]

/-- A write of EV_SRCs that inverts the upright, active level of a programmable source (R340). -/
theorem evSrcWrite_inverts {s : State} {n : SrcId} (prog : srcKind n.val = .prog) (kind : (s.src n.val).kind = 3)
    (inv : (s.src n.val).inv = false) (level : (s.src n.val).level = true) :
    s.evSrcWrite n 0x7001 = (s.setSrc n.val
      { s.src n.val with en := true, cls := false, fslot := 0, core := 0, kind := 3, inv := true, pend := false, mrg := 0 }).wentQuiet
        (s.src n.val) := by
  have open_ : ¬srcKind n.val = .reserved := by rw [prog]; decide
  have plain : (srcKind n.val == .prog) = true := by rw [prog]; rfl
  have held (q : Source) : isLevel n.val q = (q.kind == 3) := isLevel_prog prog q
  have lvl (q : Source) : lvlOf n.val q = (q.level ^^ q.inv) := lvlOf_prog prog q
  have b0 : BitVec.getLsbD (0x7001 : Word) 0 = true := by decide
  have b1 : BitVec.getLsbD (0x7001 : Word) 1 = false := by decide
  have b14 : BitVec.getLsbD (0x7001 : Word) 14 = true := by decide
  have k3 : (bits (0x7001 : Word) 12 2 : BitVec 2) = 3 := by decide
  have f0 : (bits (0x7001 : Word) 2 3 : BitVec 3).toFin = 0 := by decide
  have c0 : (bits (0x7001 : Word) 8 4 : BitVec 4).toFin = 0 := by decide
  have still (u : State) (low : lvlOf n.val (u.src n.val) = false) : u.levelCheck n.val = u := by
    unfold State.levelCheck
    dsimp only
    rw [low]
    simp
  unfold State.evSrcWrite
  rw [if_neg open_]
  dsimp only
  simp only [plain, b0, b1, b14, k3, f0, c0, held, lvl, kind, inv, level, Bool.and_false, Bool.false_and, Bool.false_eq_true, if_false, if_true,
    Bool.xor_true, Bool.not_true, Bool.xor_false, Bool.not_false, beq_self_eq_true, Bool.and_self]
  refine still _ ?_
  rw [wentQuiet_src, src_setSrc_self, lvl]
  simp

theorem regAt_evSrc : ∀ n : SrcId, regAt (BitVec.ofNat 32 (0x30060000 + n.val * 4)) = some (.evSrc n) := by decide +kernel

/-- Settles O51: a raise by `raiseAt_counts`, levels by `setLevel_high` and `setLevel_prog`, EV_SRCs by `evSrcWrite_pulse`. -/
theorem sourcesAreRaised : Obligations.SourcesAreRaised := by
  intro s w main
  refine ⟨fun n p pulse => ?_, fun n p level inv => ?_, fun k level => ?_, fun n => ?_, fun v may => ?_, fun n v may => ?_,
    fun n d i may prog => ?_⟩
  · have only := sourcesOnly_raise n p main
    have raised := raise_raised n p main
    refine ⟨s.raise n p, if_neg (by rw [pulse]; decide), only, fun en known => ?_⟩
    obtain ⟨pend, payload⟩ := (raised known).1 en
    have counts := raiseAt_counts en known p (s.stamp s.core[(s.src n.val).core].tsel)
    rw [show s.raiseAt n.val p (s.stamp s.core[(s.src n.val).core].tsel) = s.raise n p from (raise_now main n p).symm] at counts
    exact ⟨pend, payload, counts⟩
  · obtain ⟨only, raised⟩ := setLevel_high main level inv p
    refine ⟨s.setLevel n true p, (if_pos level).trans (by rw [inv]; rfl), only, ?_⟩
    obtain ⟨-, taken⟩ := setLevel_takes n true p main
    exact ⟨taken, raised⟩
  · intro n u
    obtain ⟨i, hi⟩ : ∃ i : Fin 512, i = ⟨368 + k.val, by omega⟩ := ⟨_, rfl⟩
    have prog : srcKind i.val = .prog := by
      rw [hi]
      exact evtIn_prog k
    obtain ⟨v, hv⟩ : ∃ v, v = if level then s.ev.evtIn ||| (1#32 <<< k.val) else s.ev.evtIn &&& ~~~(1#32 <<< k.val) := ⟨_, rfl⟩
    obtain ⟨x, hx⟩ : ∃ x, x = s.modEv fun e => { e with evtIn := v } := ⟨_, rfl⟩
    have srcs (m : Nat) : x.src m = s.src m := by rw [hx]; rfl
    have mainX : x.power.mainRst = false := by rw [hx]; exact main
    have ran : exec (.evtInChange k level) s = .next (x.setLevel i level v) := by
      refine (if_neg (by rw [main]; decide)).trans ?_
      rw [hx, hv, hi]
    obtain ⟨other, ev⟩ := oneSource_setLevel x i level v
    obtain ⟨-, taken⟩ := setLevel_takes i level v mainX
    have ni : n = i.val := by rw [hi]
    refine ⟨_, ran, fun j hj => ?_, ni ▸ taken, fun m hm => (other m (ni ▸ hm)).trans (srcs m), fun en change inv => ?_⟩
    · rw [ev, hx, hv]
      exact inputBit s.ev.evtIn k level hj
    · have kinds := setLevel_prog mainX prog level v (by rw [srcs, ← ni]; exact en) (by rw [srcs, ← ni]; exact change)
        (by rw [srcs, ← ni]; exact inv)
      rw [srcs, ← ni] at kinds
      exact kinds
  · intro tm runs en zero
    obtain ⟨u, hu⟩ : ∃ u, u = s.raise ⟨112 + n.val, by omega⟩ tm.load := ⟨_, rfl⟩
    have raised := raise_raised (s := s) ⟨112 + n.val, by omega⟩ tm.load main (timerSrc_kind n)
    rw [← hu] at raised
    obtain ⟨pend, other, -, rest⟩ := raised
    have ran : exec (.timerExpiry n) s = .next (s.timerExpire n) := by
      refine if_pos ?_
      rw [State.eventsRun, runs, show s.ev.timer[n].en = true from en, show s.ev.timer[n].cnt = 0 from zero]
      rfl
    obtain ⟨t, ht⟩ : ∃ t, t = s.timerExpire n := ⟨_, rfl⟩
    have src (m : Nat) : t.src m = u.src m := by rw [ht, hu]; rfl
    rw [← ht] at ran
    refine ⟨t, ran, fun en => ?_, ?_, fun m hm => (src m).trans (other m hm)⟩
    · rw [src]
      exact (pend en).1
    · have timer : u.ev.timer = s.ev.timer := by rw [rest]
      rw [← timer, ht, hu]
      rfl
  · obtain ⟨only, kept, pending⟩ := swRaises_reach v (s.swPayload w) (List.finRange 16) (List.nodup_finRange 16) main
    have written : exec (.evSwset w v) s = .next (s.swRaises v (s.swPayload w) (List.finRange 16)) :=
      congrArg Host.Outcome.next ((writeBy_may (by decide +kernel) may v).trans (swset_raises s w v))
    refine ⟨_, written, only, fun k hk => ⟨fun off => kept ⟨k, hk⟩ (.inr off), fun on en => ?_⟩⟩
    obtain ⟨pend, payload⟩ := pending ⟨k, hk⟩ (List.mem_finRange _) on en
    refine ⟨pend, payload.trans ?_⟩
    cases w <;> rfl
  · intro core slot pulse
    have written : exec (.evSrcWrite w n v) s = .next (s.evSrcWrite n v) :=
      congrArg Host.Outcome.next (writeBy_may (regAt_evSrc n) may v)
    have coreEq : (bits v 8 4 : BitVec 4).toFin = core := Fin.ext (by rw [bits_eq_ofNat]; exact BitVec.toNat_ofNat ..)
    have slotEq : (bits v 2 3 : BitVec 3).toFin = slot := Fin.ext (by rw [bits_eq_ofNat]; exact BitVec.toNat_ofNat ..)
    have open_ : ¬srcKind n.val = .reserved := by rw [pulse]; decide
    have plain : (srcKind n.val == .prog) = false := by rw [pulse]; rfl
    have edge (q : Source) : isLevel n.val q = false := by rw [isLevel, pulse]; rfl
    refine ⟨fun en cls clash => written.trans (congrArg Host.Outcome.next ?_), fun cls => ?_⟩
    · obtain ⟨q, mem, other, qen, qcls, qcore, qslot⟩ := clash
      refine (if_neg open_).trans (if_pos ?_)
      dsimp only
      rw [en, cls, coreEq, slotEq, List.any_eq_true.mpr ⟨q, mem, ?_⟩]
      · rfl
      · rw [qen, qcls, qcore, qslot]
        simpa using other
    · refine ⟨_, written, ?_, fun m hm => ?_, ?_⟩
      · rw [evSrcWrite_pulse pulse v cls, src_setSrc_self, coreEq, slotEq]
      · rw [evSrcWrite_pulse pulse v cls, src_setSrc, if_neg hm.symm]
      · rw [evSrcWrite_pulse pulse v cls]
        rfl
  · intro u kind inv level out fresh
    have written : exec (.evSrcWrite w n 0x7001) s = .next (s.evSrcWrite n 0x7001) :=
      congrArg Host.Outcome.next (writeBy_may (regAt_evSrc n) may 0x7001)
    obtain ⟨q, hq⟩ : ∃ q : Source, q =
        { s.src n.val with en := true, cls := false, fslot := 0, core := 0, kind := 3, inv := true, pend := false, mrg := 0 } := ⟨_, rfl⟩
    have eq : s.evSrcWrite n 0x7001 = (s.setSrc n.val q).wentQuiet (s.src n.val) := by
      rw [hq]
      exact evSrcWrite_inverts prog kind inv level
    rw [eq] at written
    have self : ((s.setSrc n.val q).wentQuiet (s.src n.val)).src n.val = q := by rw [wentQuiet_src, src_setSrc_self]
    have quiet : (s.setSrc n.val q).wentQuiet (s.src n.val) =
        ((s.setSrc n.val q).modCore d fun k => { k with evSpur := true, spurCnt := satInc k.spurCnt }).countB 0x4F := by
      unfold State.wentQuiet
      rw [show (s.src n.val).out = some (d, i) from out]
      exact if_neg (by rw [show (s.src n.val).delivered = false from fresh]; decide)
    refine ⟨_, written, by rw [self, hq], by rw [self, hq], fun m hm => ?_, ?_, ?_⟩
    · rw [wentQuiet_src, src_setSrc, if_neg hm.symm]
    · rw [quiet, State.countB_core]
      rfl
    · rw [quiet, State.countB_spad]
      rfl

end Sys2Proof.Machine
end
